-- ==== Sys2Proof/Word.lean ====
section
/-! DEFINITION. The word types of the LV9 (R3, R4, R28): bytes, 32-bit registers, 64-bit pairs and addresses. -/

namespace Sys2Proof

/-- One byte (R4). -/
abbrev Byte := BitVec 8

/-- One v or s register (R28, R29). -/
abbrev Word := BitVec 32

/-- A register pair, an address or an instruction word (R28, R52). -/
abbrev Dword := BitVec 64

/-- The low half of a pair, held in the even register (R28). -/
def lo32 (x : Dword) : Word := x.setWidth 32

/-- The high half of a pair, held in the odd register (R28). -/
def hi32 (x : Dword) : Word := (x >>> 32).setWidth 32

/-- A pair from its two registers (R28). -/
def pair64 (hi lo : Word) : Dword := (hi.setWidth 64 <<< 32) ||| lo.setWidth 64

end Sys2Proof
end

