-- ==== Sys2Proof/Syntax.lean ====
section
/-! DEFINITION. The syntax of the LV9: operands, instruction words and the part's own events, one constructor of
`Instr` per row of spec/opcode_table.json. Words carry typed operands; an event carries the names of the agent, operation or
entry it happens to (assumption log, entry 6). -/

namespace Sys2Proof

/-- A core: package index, die (0 to 7 compute, 8 the hub die) and core number (R9, R10; host cores R374). -/
structure CoreId where
  pkg : Nat
  die : Nat
  core : Nat
  deriving DecidableEq, Repr

/-- A wave slot of a core (R25); a host thread is the wave of slot 0 of its host core (R374). -/
structure WaveId where
  core : CoreId
  slot : Nat
  deriving DecidableEq, Repr

/-- A thread: lane of a wave (R24, R25). -/
structure ThreadId where
  wave : WaveId
  lane : Nat
  deriving DecidableEq, Repr

/-- Operand types (Tables 3.4, 6.1, 6.2; `.b128` of R281). -/
inductive OTy where
  | i32 | n32 | i64 | n64 | i16 | n16 | i8 | n8 | b32 | b64 | b128
  | f32 | f16 | bf16 | f64 | e4m3 | e5m2 | e2m1
  deriving DecidableEq, Repr

/-- Floating formats of the floating class and of conversions (Table 6.2). -/
inductive FFmt where
  | f32 | f16 | bf16 | f64 | e4m3 | e5m2 | e2m1
  deriving DecidableEq, Repr

/-- Rounding modes (Table 3.3). -/
inductive Rnd where
  | rne | rz | rd | ru
  deriving DecidableEq, Repr

/-- A guard: predicate number 0 to 7 (7 is `pt`), possibly negated (R56). -/
structure Guard where
  neg : Bool
  p : Nat
  deriving DecidableEq, Repr

/-- A source operand (Table 3.5). A literal carries its 32-bit value L (R64). -/
inductive Src where
  | v (n : Nat) | s (n : Nat) | o (k : Nat) | h (k : Nat) | vz | lit (x : Word) | imm (i : Int)
  deriving DecidableEq, Repr

/-- A source field with its dead mark (R66). -/
structure SrcD where
  src : Src
  dead : Bool
  deriving DecidableEq, Repr

/-- A destination operand (Table 3.5). -/
inductive Dst where
  | v (n : Nat) | s (n : Nat) | vz
  deriving DecidableEq, Repr

/-- The destination of `PCOL`: a predicate or a register (R174). -/
inductive PDst where
  | pred (n : Nat) | reg (d : Dst)
  deriving DecidableEq, Repr

/-- The fields every full word carries: guard, hold latch, lookahead count (R55, R56, R65, R67). -/
structure Hdr where
  guard : Guard
  hold : Option Nat
  la : Nat
  deriving DecidableEq, Repr

/-- Integer condition codes (Table 7.4). -/
inductive ICc where
  | eq | ne | lt | le | gt | ge
  deriving DecidableEq, Repr

/-- Floating condition codes (Table 7.7). -/
inductive FCc where
  | eq | ne | lt | le | gt | ge | num | nan
  deriving DecidableEq, Repr

/-- Segment widths of the lane exchange (R172). -/
inductive Seg where
  | seg32 | seg16 | seg8 | seg4 | seg2
  deriving DecidableEq, Repr

/-- Forms of `PCOL` (R174). -/
inductive PcolOp where
  | some | every | same | mask | count
  deriving DecidableEq, Repr

/-- Reductions of `LRED` (R176). -/
inductive LredOp where
  | add | min | max | and | or | xor | fadd
  deriving DecidableEq, Repr

/-- Fragment formats of `MXR` (R223). -/
inductive MxrFmt where
  | bf16 | f16 | e4m3 | e5m2
  deriving DecidableEq, Repr

/-- Address spaces, `s` being global streaming (Tables 2.3, 12.2). -/
inductive Space where
  | g | l | c | k | w | s
  deriving DecidableEq, Repr

/-- Ordering forms (Table 12.2). -/
inductive Ord where
  | rlx | acq | rel | acqrel
  deriving DecidableEq, Repr

/-- Scopes (R17, Table 12.2); `none` of the memory class is a weak access. -/
inductive Scope where
  | core | die | pkg | tray | rack
  deriving DecidableEq, Repr

/-- The memory class: space, ordering form, scope (`none` weak), index bit (Table 12.2). -/
structure MOp where
  spc : Space
  ord : Ord
  scp : Option Scope
  idx : Bool
  deriving DecidableEq, Repr

/-- Atomic operations (Table 12.5). -/
inductive AtomOp where
  | add | mins | maxs | minu | maxu | and | or | xor | exch | fadd | fmin | fmax | inc
  deriving DecidableEq, Repr

/-- Paths (Table 10.3, R290). -/
inductive Path where
  | ls | kc | cp | mx | cl | kv
  deriving DecidableEq, Repr

/-- Prefetch levels (R296). -/
inductive PrefLvl where
  | l1 | l1x | l2
  deriving DecidableEq, Repr

/-- Conditions of `SIGW` (R363). -/
inductive SigCc where
  | ge | eq | ne
  deriving DecidableEq, Repr

/-- Context registers (Table 2.4). -/
inductive CtxReg where
  | ctxFlags | fairPeriod | leaseMax | schedSeed | storeSplit | trapQueue | spoolBase | chkHandler
  deriving DecidableEq, Repr

/-- System registers of a host core (Table 15.3). -/
inductive SysReg where
  | hstat | hcore | kvec | mvec | epcK | epcM | ecauseK | ecauseM | eaddrK | eaddrM | kscr | mscr
  | hpend | hmask | hptb | htime
  deriving DecidableEq, Repr

/-- Pair opcodes (Table 3.10): pipe A first, then pipe B. -/
inductive Pop where
  | faddF32 | fsubF32 | fmulF32 | fminF32 | fmaxF32 | fabsF32 | fnegF32 | faddF16 | fmulF16 | faddBf16 | fmulBf16
  | iadd | isub | imul | imin | imax | iminN | imaxN | and | or | xor | andn | shl | shr | sar | mov
  deriving DecidableEq, Repr

/-- One half of a pair word that is not `PNOP` (Table 3.7). -/
structure Half where
  pop : Pop
  guard : Guard
  d : Nat
  s : SrcD
  hold : Option Nat
  deriving DecidableEq, Repr

/-- The units whose storage can fail (Table 17.11). -/
inductive EccUnit where
  | coreStore (c : CoreId)
  | l1 (c : CoreId)
  | l2 (pkg die slice : Nat)
  | directory (pkg die slice : Nat)
  | hbm (pkg die frame : Nat)
  | link (pkg port : Nat)
  | subArray (c : CoreId) (i : Nat)
  deriving DecidableEq, Repr

/-- Where an uncorrectable error is found (R397, R398, Table 17.11). -/
inductive EccHit where
  | line (pa key : Nat)
  | directory (pkg die line : Nat)
  | register (t : ThreadId) (n : Nat)
  | scratch (team : Nat) (off : Nat)
  | operandBuffer (team : Nat) (handle : Nat) (off : Nat)
  | tile (team : Nat) (k : Nat)
  deriving DecidableEq, Repr

/-- One row of the opcode table per constructor. -/
inductive Instr where
  -- NOP (R75)
  | nop
  -- a word of kind 10 or 11, or with an unassigned OPC or POP (R52, R73, R76)
  | unassignedOpcode (w : Dword)
  -- a pair word; `none` is `PNOP` (R68, R69, R76)
  | pairWord (a b : Option Half)
  -- integer arithmetic (R146)
  | iadd (h : Hdr) (t : OTy) (sat : Bool) (d : Dst) (a b : SrcD)
  | isub (h : Hdr) (t : OTy) (sat : Bool) (d : Dst) (a b : SrcD)
  | imul (h : Hdr) (t : OTy) (sat : Bool) (d : Dst) (a b : SrcD)
  | imulh (h : Hdr) (t : OTy) (d : Dst) (a b : SrcD)
  | imad (h : Hdr) (t : OTy) (d : Dst) (a b c : SrcD)
  | imin (h : Hdr) (t : OTy) (d : Dst) (a b : SrcD)
  | imax (h : Hdr) (t : OTy) (d : Dst) (a b : SrcD)
  | iabs (h : Hdr) (t : OTy) (sat : Bool) (d : Dst) (a : SrcD)
  | ineg (h : Hdr) (t : OTy) (sat : Bool) (d : Dst) (a : SrcD)
  | idif (h : Hdr) (t : OTy) (d : Dst) (a b : SrcD)
  | isad (h : Hdr) (t : OTy) (d : Dst) (a b c : SrcD)
  -- logic and bit operations (R147 to R150)
  | and (h : Hdr) (t : OTy) (d : Dst) (a b : SrcD)
  | or (h : Hdr) (t : OTy) (d : Dst) (a b : SrcD)
  | xor (h : Hdr) (t : OTy) (d : Dst) (a b : SrcD)
  | not (h : Hdr) (t : OTy) (d : Dst) (a : SrcD)
  | andn (h : Hdr) (t : OTy) (d : Dst) (a b : SrcD)
  | shl (h : Hdr) (t : OTy) (d : Dst) (a b : SrcD)
  | shr (h : Hdr) (t : OTy) (d : Dst) (a b : SrcD)
  | sar (h : Hdr) (t : OTy) (d : Dst) (a b : SrcD)
  | rol (h : Hdr) (t : OTy) (d : Dst) (a b : SrcD)
  | bfx (h : Hdr) (t : OTy) (d : Dst) (a f : SrcD)
  | bfi (h : Hdr) (t : OTy) (d : Dst) (a b f : SrcD)
  | popc (h : Hdr) (t : OTy) (d : Dst) (a : SrcD)
  | clz (h : Hdr) (t : OTy) (d : Dst) (a : SrcD)
  | brev (h : Hdr) (t : OTy) (d : Dst) (a : SrcD)
  | ffs (h : Hdr) (t : OTy) (d : Dst) (a : SrcD)
  | bysel (h : Hdr) (d : Dst) (a b c : SrcD)
  -- compare, select, predicates, addresses, moves (R151 to R156)
  | icmp (h : Hdr) (cc : ICc) (t : OTy) (p : Nat) (a b : SrcD)
  | sel (h : Hdr) (t : OTy) (d : Dst) (a b : SrcD) (pc : Nat)
  | plop (h : Hdr) (pd pa pb : Nat) (tt : Nat)
  | lea (h : Hdr) (n32 : Bool) (k : Nat) (d : Dst) (a b c : SrcD)
  | mov (h : Hdr) (t : OTy) (d : Dst) (a : SrcD)
  | movFlg (h : Hdr) (d : Dst) (a : SrcD)
  -- operand-cache bind (R87)
  | ocl (h : Hdr) (k : Nat) (n : Nat) (dead : Bool)
  -- floating arithmetic (R157 to R164)
  | fadd (h : Hdr) (f : FFmt) (r : Rnd) (sat : Bool) (d : Dst) (a b : SrcD)
  | fsub (h : Hdr) (f : FFmt) (r : Rnd) (sat : Bool) (d : Dst) (a b : SrcD)
  | fmul (h : Hdr) (f : FFmt) (r : Rnd) (sat : Bool) (d : Dst) (a b : SrcD)
  | ffma (h : Hdr) (f : FFmt) (r : Rnd) (d : Dst) (a b c : SrcD)
  | fmin (h : Hdr) (f : FFmt) (d : Dst) (a b : SrcD)
  | fmax (h : Hdr) (f : FFmt) (d : Dst) (a b : SrcD)
  | fabs (h : Hdr) (f : FFmt) (d : Dst) (a : SrcD)
  | fneg (h : Hdr) (f : FFmt) (d : Dst) (a : SrcD)
  | fcmp (h : Hdr) (cc : FCc) (f : FFmt) (p : Nat) (a b : SrcD)
  | fcls (h : Hdr) (f : FFmt) (d : Dst) (a : SrcD)
  | ffrc (h : Hdr) (f : FFmt) (d : Dst) (a : SrcD)
  | frnd (h : Hdr) (f : FFmt) (r : Rnd) (d : Dst) (a : SrcD)
  | fscl (h : Hdr) (f : FFmt) (r : Rnd) (sat : Bool) (d : Dst) (a n : SrcD)
  -- conversions (R165 to R168)
  | cvt (h : Hdr) (r : Rnd) (sat : Bool) (dt st : OTy) (d : Dst) (a : SrcD)
  | cvpk (h : Hdr) (r : Rnd) (sat : Bool) (f : FFmt) (k : Nat) (d : Dst) (a b : SrcD)
  | cvup (h : Hdr) (f : FFmt) (k : Nat) (d : Dst) (a : SrcD)
  -- special functions and integer division (R169, R170)
  | frcp (h : Hdr) (d : Dst) (a : SrcD)
  | frsq (h : Hdr) (d : Dst) (a : SrcD)
  | fsqrt (h : Hdr) (d : Dst) (a : SrcD)
  | fexp2 (h : Hdr) (d : Dst) (a : SrcD)
  | flog2 (h : Hdr) (d : Dst) (a : SrcD)
  | fsin (h : Hdr) (d : Dst) (a : SrcD)
  | fcos (h : Hdr) (d : Dst) (a : SrcD)
  | ftanh (h : Hdr) (d : Dst) (a : SrcD)
  | idiv (h : Hdr) (t : OTy) (d : Dst) (a b : SrcD)
  | irem (h : Hdr) (t : OTy) (d : Dst) (a b : SrcD)
  -- lane exchange (R171 to R178)
  | xget (h : Hdr) (t : OTy) (g : Seg) (d : Dst) (a b : SrcD)
  | xrot (h : Hdr) (t : OTy) (g : Seg) (d : Dst) (a b : SrcD)
  | xflip (h : Hdr) (t : OTy) (g : Seg) (d : Dst) (a b : SrcD)
  | xrev (h : Hdr) (t : OTy) (g : Seg) (d : Dst) (a : SrcD)
  | bcst (h : Hdr) (t : OTy) (d : Dst) (a b : SrcD)
  | pcol (h : Hdr) (op : PcolOp) (neg : Bool) (d : PDst) (pa : Nat)
  | lmat (h : Hdr) (t : OTy) (d : Dst) (a : SrcD)
  | lred (h : Hdr) (op : LredOp) (t : OTy) (sat : Bool) (d : Dst) (a : SrcD)
  | sbc (h : Hdr) (t : OTy) (d : Dst) (a : Nat)
  | lget (h : Hdr) (t : OTy) (d : Nat) (a b : SrcD)
  | lset (h : Hdr) (t : OTy) (d : Nat) (a : Nat) (b : SrcD)
  -- scalar unit (R179 to R181)
  | sadd (h : Hdr) (t : OTy) (sat : Bool) (d : Dst) (a b : SrcD)
  | ssub (h : Hdr) (t : OTy) (sat : Bool) (d : Dst) (a b : SrcD)
  | smul (h : Hdr) (t : OTy) (sat : Bool) (d : Dst) (a b : SrcD)
  | sand (h : Hdr) (t : OTy) (d : Dst) (a b : SrcD)
  | sor (h : Hdr) (t : OTy) (d : Dst) (a b : SrcD)
  | sxor (h : Hdr) (t : OTy) (d : Dst) (a b : SrcD)
  | sshl (h : Hdr) (t : OTy) (d : Dst) (a b : SrcD)
  | sshr (h : Hdr) (t : OTy) (d : Dst) (a b : SrcD)
  | ssar (h : Hdr) (t : OTy) (d : Dst) (a b : SrcD)
  | smin (h : Hdr) (t : OTy) (d : Dst) (a b : SrcD)
  | smax (h : Hdr) (t : OTy) (d : Dst) (a b : SrcD)
  | scmp (h : Hdr) (cc : ICc) (t : OTy) (p : Nat) (a b : SrcD)
  | smov (h : Hdr) (t : OTy) (d : Dst) (a : SrcD)
  | ssel (h : Hdr) (t : OTy) (d : Dst) (a b c : SrcD)
  | slea (h : Hdr) (n32 : Bool) (k : Nat) (d : Dst) (a b c : SrcD)
  -- operand-buffer reservations (R207 to R213)
  | trsv (h : Hdr) (d : Dst) (b : Nat) (a : Nat)
  | trel (h : Hdr) (b : Nat)
  | trelDone (team b : Nat)
  | tqry (h : Hdr) (d : Dst) (b n : Nat)
  | trng (h : Hdr) (b : Nat)
  | trngDone (team b : Nat)
  | twr (h : Hdr) (b : Nat) (wide : Bool) (off val : SrcD)
  | trd (h : Hdr) (d : Dst) (b : Nat) (wide : Bool) (off : SrcD)
  -- matrix operations (R192 to R204, R214 to R225)
  | mma (h : Hdr) (tok : Nat) (off : SrcD)
  | mmaAccept (op : Nat)
  | mmaComplete (op : Nat)
  | mmaFaultStop (op : Nat)
  | streamTileConsume (op : Nat)
  | mxr (h : Hdr) (fa fb : MxrFmt) (sat : Bool) (d a b : Nat) (deadA deadB : Bool)
  | mxrWriteback (t : ThreadId)
  | mwait (h : Hdr)
  | mwaitEnd (team : Nat)
  | mstat (h : Hdr) (d : Dst) (n : Nat)
  | elect (h : Hdr) (p : Nat)
  -- accumulator moves (R183, R201, R226 to R228)
  | accz (h : Hdr) (k : Nat)
  | accld (h : Hdr) (g : Bool) (k : Nat) (addr stride : SrcD)
  | accst (h : Hdr) (g : Bool) (k : Nat) (addr stride : SrcD)
  | accMoveDone (op : Nat)
  | accmvRd (h : Hdr) (d : Nat) (k : Nat) (r : SrcD)
  | accmvWr (h : Hdr) (k : Nat) (a : Nat) (dead : Bool) (r : SrcD)
  | tileWaitEnd (t : ThreadId)
  | patternProduct (c : CoreId) (bad : Nat)
  -- memory (R276 to R290)
  | ld (h : Hdr) (t : OTy) (m : MOp) (d : Dst) (base off : SrcD)
  | st (h : Hdr) (t : OTy) (m : MOp) (data : Src) (base off : SrcD)
  | atom (h : Hdr) (op : AtomOp) (wide : Bool) (m : MOp) (d : Dst) (base val : SrcD)
  | atomn (h : Hdr) (op : AtomOp) (wide : Bool) (m : MOp) (base val : SrcD)
  | cas (h : Hdr) (wide : Bool) (m : MOp) (d : Dst) (base cn : SrcD)
  | fence (h : Hdr) (m : MOp)
  | fenceDone (t : ThreadId)
  | pfen (h : Hdr) (p q : Path)
  | pfenDone (t : ThreadId)
  -- leases (R263 to R267, R291 to R295)
  | lease (h : Hdr) (m : MOp) (d : Dst) (base : SrcD) (disp : Src)
  | leaseGrant (t : ThreadId)
  | leaseDeferredBegin (t : ThreadId)
  | leaseExpiry (t : ThreadId)
  | nestedLeaseTimeout (t : ThreadId)
  | lrel (h : Hdr) (m : MOp)
  -- prefetch and cache control (R296, R297)
  | pref (h : Hdr) (lvl : PrefLvl) (m : MOp) (base off : SrcD)
  | cinv (h : Hdr) (m : MOp) (base off : SrcD)
  | cwb (h : Hdr) (m : MOp) (base off : SrcD)
  -- engines (R298 to R312)
  | cpy (h : Hdr) (tok : Nat) (off : SrcD)
  | cpyi (h : Hdr) (tok : Nat) (off : SrcD)
  | engineAccept (op : Nat)
  | copyComplete (op : Nat)
  | engineFaultStop (op : Nat)
  | ringProducerResume (op : Nat)
  | kvx (h : Hdr) (tok : Nat) (off : SrcD)
  | kvBlockAck (op : Nat)
  | kvNotify (op : Nat)
  | kvxComplete (op : Nat)
  | kvPeerRefuse (op : Nat)
  | kvChannelFail (pkg chan : Nat)
  | kvq (h : Hdr) (d : Dst) (chan : SrcD)
  | kvqRefresh (c : CoreId)
  -- collectives (R313 to R318)
  | coll (h : Hdr) (tok : Nat) (off : SrcD)
  | collComplete (grp : Nat)
  | collAbort (grp : Nat)
  | groupBroken (grp : Nat)
  | cgrpCreate (h : Hdr) (tok : Nat) (off : SrcD)
  | cgrpFormed (call : Nat)
  | cgrpTimeout (call : Nat)
  | cgrpFree (h : Hdr) (tok : Nat) (hd : SrcD)
  -- transfers of control (R355 to R358)
  | bra (h : Hdr) (disp : Int)
  | brx (h : Hdr) (a : SrcD)
  | call (h : Hdr) (d : Nat) (disp : Int)
  | callx (h : Hdr) (d : Nat) (a : SrcD)
  | ret (h : Hdr) (a : SrcD)
  | exit (h : Hdr)
  -- rejoin, barriers, yield, signals (R359 to R365)
  | enrol (h : Hdr) (m : Nat)
  | join (h : Hdr) (m : Nat)
  | strike (h : Hdr) (m : Nat)
  | bar (h : Hdr) (n : Nat)
  | yld (h : Hdr)
  | yldExclusionEnd (t : ThreadId)
  | sigw (h : Hdr) (cc : SigCc) (m : MOp) (d : Dst) (base val : SrcD)
  | sigwRecheck (t : ThreadId)
  | sigs (h : Hdr) (add : Bool) (m : MOp) (base val : SrcD)
  -- launches and pools (R351, R366 to R368)
  | lnch (h : Hdr) (tok : Nat) (off : SrcD)
  | papp (h : Hdr) (tok : Nat) (hd off : SrcD)
  | dqry (h : Hdr) (tok : Nat) (hd off : SrcD)
  | pcls (h : Hdr) (tok : Nat) (hd : SrcD)
  | poolAppend (pkg : Nat)
  | poolClaim (pkg : Nat)
  | poolClose (pkg : Nat)
  -- regions, allotment, special sources, software traps (R369 to R373)
  | rgn (h : Hdr)
  | grow (h : Hdr) (d : Dst) (n : Src)
  | shrk (h : Hdr) (d : Dst) (n : Src)
  | srd (h : Hdr) (d : Dst) (n : Nat)
  | swi (h : Hdr) (n : Nat)
  | brk (h : Hdr) (n : Nat)
  -- the host profile (R374 to R381)
  | sysr (h : Hdr) (d : Dst) (r : SysReg)
  | sysw (h : Hdr) (r : SysReg) (a : SrcD)
  | scall (h : Hdr) (n : Nat)
  | mcall (h : Hdr) (n : Nat)
  | eret (h : Hdr)
  | tlbi (h : Hdr) (kind : Nat) (a b : SrcD)
  | tlbiInvalidation (pkg : Nat) (id : Nat)
  | tlbiDone (id : Nat)
  | wait (h : Hdr)
  | ctxwReg (h : Hdr) (r : CtxReg) (d : Dst) (a b : SrcD)
  | ctxwNew (h : Hdr) (d : Dst) (a b : SrcD)
  | ctxwDel (h : Hdr) (d : Dst) (a b : SrcD)
  | ctxwQreg (h : Hdr) (d : Dst) (a b : SrcD)
  | ctxwQdel (h : Hdr) (d : Dst) (a b : SrcD)
  | ctxwPnew (h : Hdr) (d : Dst) (a b : SrcD)
  | ctxwPdel (h : Hdr) (d : Dst) (a b : SrcD)
  | ctxwQst (h : Hdr) (d : Dst) (a b : SrcD)
  -- registers written from outside the instruction stream (R49, R274)
  | registerWrite (ctx : Nat) (r : CtxReg) (x : Dword)
  | heatCtlWrite (pkg die : Nat) (x : Word)
  -- results, waits and fills (R80, R96, R97, R35, R329)
  | resultDelivery (t : ThreadId)
  | longWaitExpiry (c : CoreId)
  | granuleFill (w : WaveId) (g : Nat)
  | tokenComplete (op : Nat)
  | fairnessUrgent (t : ThreadId)
  -- traps (R405 to R409)
  | trapDelivery (w : WaveId)
  | trapRecordPost (ctx : Nat)
  | trapCmdFpc (ctx : Nat)
  | trapCmdNpc (ctx : Nat)
  | trapCmdRentry (ctx : Nat)
  | trapCmdTpc (ctx : Nat)
  | trapCmdExit (ctx : Nat)
  | trapCidxReread (ctx : Nat)
  -- pre-emption and restore (R324, R410 to R416)
  | preempt (team : Nat)
  | restore (ctx : Nat) (image : Nat)
  | spoolFree (ctx image : Nat)
  | ancestorPreempt (team : Nat)
  | rackStop (pkg ctx epoch : Nat)
  | rackDrainEnd (pkg ctx : Nat)
  | stopped (pkg ctx : Nat)
  | stopAckTimeout (pkg ctx : Nat)
  | resume (pkg ctx epoch : Nat)
  -- queues, lottery, placement (R337 to R350, R323)
  | queuePacketLaunch (q : Nat)
  | queuePacketWait (q : Nat)
  | waitPacketRecheck (q : Nat)
  | queuePacketSignal (q : Nat)
  | notifyWake (pkg : Nat)
  | queueReread (q : Nat)
  | queueUnmap (q : Nat)
  | lotteryDraw (pkg : Nat)
  | teamPlace (pkg die : Nat)
  | teamSteal (pkg die : Nat)
  | mergeWindowClose (pkg : Nat) (win : Nat)
  | gridRetire (g : Nat)
  -- directory messages (R251 to R262); `m` names a message of the network
  | gets (m : Nat)
  | getm (m : Nat)
  | gete (m : Nat)
  | directoryMerge (pkg die line : Nat)
  | puts (m : Nat)
  | puto (m : Nat)
  | pack (m : Nat)
  | wbs (m : Nat)
  | stm (m : Nat)
  | atm (m : Nat)
  | inv (m : Nat)
  | recallS (m : Nat)
  | recallI (m : Nat)
  | ack (m : Nat)
  | done (m : Nat)
  | probeResend (m : Nat)
  | replyTimeout (pkg die line : Nat)
  -- migration (R268 to R274)
  | migrationFreeze (ctx : Nat) (va : Dword) (pkg die frame : Nat)
  | migrationCopyDone (mg : Nat)
  | migrationFlip (mg : Nat)
  | openHome (m : Nat)
  | opened (m : Nat)
  | migrationAbandon (mg : Nat)
  | relay (m : Nat)
  | redirect (m : Nat)
  | retranslate (m : Nat)
  | nothome (m : Nat)
  | stubRetire (pkg die : Nat) (page : Nat)
  | retire (m : Nat)
  | confirm (m : Nat)
  | heatDecay (pkg die : Nat)
  -- links (R420 to R426)
  | flitData (pkg port : Nat)
  | flitIdle (pkg port : Nat)
  | flitNack (pkg port : Nat)
  | idleFlitSend (pkg port : Nat)
  | nackRepeat (pkg port : Nat)
  | portRetrain (pkg port : Nat) (failed : Nat)
  | e2eDeliver (m : Nat)
  | e2eAck (m : Nat)
  | e2eResend (pkg dst cls eseq : Nat)
  -- partition quiesce (R398, R427 to R431)
  | packageLost (pkg : Nat)
  | quiesceStop (pkg : Nat)
  | quiesceCut (pkg : Nat)
  | quiesceSettle (pkg : Nat)
  | quiesceSave (pkg : Nat)
  | quiesceRecord (ctx : Nat)
  | quiesceSweep (pkg : Nat)
  | quiesceRebuild (pkg : Nat)
  | checkpointHandler (ctx : Nat)
  | machineCheck
  -- security engine and firmware (R391 to R402, R374)
  | joinCmd (pkg : Nat)
  | writePmap (pkg : Nat)
  | writeWindow (pkg : Nat)
  | leaveCmd (pkg : Nat)
  | quote (pkg : Nat) (nonce : Nat)
  | measureExtend (pkg mr : Nat) (digest : Nat)
  | powerOn (pkg : Nat)
  | packageReset (pkg : Nat)
  | watchdogExpiry (pkg : Nat)
  | lockstepMismatch (pkg : Nat)
  | hostEventEntry (c : CoreId)
  | fabricPacketDrop (m : Nat)
  -- soft errors (R397, R417, R418)
  | correctedError (u : EccUnit) (loc : Nat)
  | selfTestDone (u : EccUnit) (loc : Nat) (fails : Bool)
  | uncorrectableError (x : EccHit)
  | scrub (pkg die row : Nat)
  | scrubRateHalve (pkg die : Nat)
  -- ports and the remaining agents (R255, R310, R367, R432, R433)
  | pcieInboundWrite (pkg : Nat) (va : Dword) (bytes : List Byte)
  | mirrorApply (pkg : Nat)
  | grant (m : Nat)
  | recallReply (m : Nat)
  | lnchGridAccept (pkg : Nat)
  | kvPeerAccess (pkg chan : Nat) (pull : Bool) (va : Dword) (bytes : List Byte)
  | fabricManagerMessage (pkg : Nat) (msg : Nat)
  | trdDelivery (t : ThreadId)
  | arithmeticClockStep (pkg die : Nat)
  deriving DecidableEq, Repr

end Sys2Proof
end

