-- ==== Sys2Proof/Config.lean ====
section
/-! DEFINITION. What the spec leaves open, as constants without a body: nothing can be proved of a value of theirs. -/

namespace Sys2Proof.Config

/-- The byte an undefined storage cell holds: `seed` names the allocation, `i` the cell (R47, R184, R211; log entry 5). -/
opaque freeByte (seed i : Nat) : Byte

/-- The word an undefined accumulator element holds (R47; log entry 5). -/
opaque freeWord (seed i : Nat) : Word

/-- A free choice made once, named by a counter of the state (R98, R303; log entry 5). -/
opaque freeBool (n : Nat) : Bool

/-- A free number, named by a counter of the state (log entry 5). -/
opaque freeNat (n : Nat) : Nat

/-- Which of the two results that an enclosure leaves is the rounded one, where the model's fixed precision does not settle it (R169; log entry 10). -/
opaque specialOpen (fn : Nat) (a : Word) : Bool

/-- The leaf switch of a plane that a package's port is joined to, and the port of the leaf (R16, R316; log entry 23). -/
opaque leafPort (plane pkg : Nat) : Nat × Nat

/-- The bytes of a fabric packet (source, destination, class, `ESEQ`, epoch, `PID`, contents): the spec gives no layout (log entry 30). -/
opaque packetBytes (src dst cls eseq epoch pid : Nat) (payload : List Byte) : List Byte

/-- The reply that a destination stores for a packet's contents (R426; log entry 30). -/
opaque packetReply (payload : List Byte) : List Byte

/-- The spare rows of a core's stores (0) and of an HBM4E stack (1): the spec gives no number (Table 17.11; log entry 31). -/
opaque spareRows (kind : Nat) : Nat

/-- SHA-512 of a byte string (R393, R401; log entry 20). -/
opaque sha512 (bytes : List Byte) : List Byte

/-- Whether an Ed25519 signature is valid (R393; log entry 20). -/
opaque ed25519Verify (pub : List Byte) (msg sig : List Byte) : Bool

/-- The Ed25519 signature by the identity key of a package (R400, R402; log entry 20). -/
opaque ed25519Sign (pkg : Nat) (msg : List Byte) : List Byte

/-- The public identity key of a package (R400; log entry 20). -/
opaque identityKey (pkg : Nat) : List Byte

/-- The digest of a firmware image of a package: 0 boot firmware, 1 Muper image, 2 host monitor (R401; log entry 20). -/
opaque imageDigest (pkg i : Nat) : List Byte

/-- The nonce the security engine draws at the `n`th power-on of a package (R400; log entry 20). -/
opaque bootNonce (pkg n : Nat) : Dword

/-- The fused serial number of a package (R393; log entry 20). -/
opaque pkgSerial (pkg : Nat) : Dword

/-- The firmware entry address that the security engine loads (R374): the spec names no value (log entry 2). -/
def monitorEntry : Dword := 0

end Sys2Proof.Config
end

