-- ==== Sys2Proof/Machine/Map.lean ====
section
/-! DEFINITION. Association lists: the sparse stores of the state (plain data, one entry per key). -/

namespace Sys2Proof

/-- A finite map as plain data. -/
abbrev Map (κ α : Type) := List (κ × α)

/-- The value of a key, if listed. -/
def Map.find {κ α : Type} [DecidableEq κ] : Map κ α → κ → Option α
  | [], _ => none
  | (k', x) :: m, k => if k' = k then some x else Map.find m k

/-- The value of a key, or a default. -/
def Map.getD {κ α : Type} [DecidableEq κ] (m : Map κ α) (k : κ) (dflt : α) : α := (Map.find m k).getD dflt

/-- Sets a key, in place when it is listed, at the end when it is not. -/
def Map.set {κ α : Type} [DecidableEq κ] : Map κ α → κ → α → Map κ α
  | [], k, x => [(k, x)]
  | (k', x') :: m, k, x => if k' = k then (k', x) :: m else (k', x') :: Map.set m k x

/-- Removes a key. -/
def Map.erase {κ α : Type} [DecidableEq κ] : Map κ α → κ → Map κ α
  | [], _ => []
  | (k', x') :: m, k => if k' = k then Map.erase m k else (k', x') :: Map.erase m k

/-- Whether a key is listed. -/
def Map.has {κ α : Type} [DecidableEq κ] (m : Map κ α) (k : κ) : Bool := (Map.find m k).isSome

/-- The keys, in order of listing. -/
def Map.keys {κ α : Type} (m : Map κ α) : List κ := m.map (·.1)

/-- Applies a function to every value. -/
def Map.mapVals {κ α : Type} (m : Map κ α) (f : κ → α → α) : Map κ α := m.map fun (k, x) => (k, f k x)

end Sys2Proof
end

