-- ==== Sys2Proof/Machine/Float.lean ====
section
/-! DEFINITION. Number formats: exact values, rounding, overflow and flags (R113 to R128). -/

namespace Sys2Proof

/-- Sticky flags in the layout of R32: bit 0 NV, 1 DZ, 2 OF, 3 UF, 4 NX, 5 ISAT. -/
abbrev Flags := BitVec 6

namespace Flag
def nv : Flags := 1
def dz : Flags := 2
def of : Flags := 4
def uf : Flags := 8
def nx : Flags := 16
def isat : Flags := 32
end Flag

/-- Exponent bits, mantissa bits and width of a format (Table 6.2). -/
def FFmt.ebits : FFmt → Nat
  | .f64 => 11 | .f32 => 8 | .bf16 => 8 | .f16 => 5 | .e5m2 => 5 | .e4m3 => 4 | .e2m1 => 2
def FFmt.mbits : FFmt → Nat
  | .f64 => 52 | .f32 => 23 | .bf16 => 7 | .f16 => 10 | .e5m2 => 2 | .e4m3 => 3 | .e2m1 => 1
def FFmt.bias : FFmt → Int
  | .f64 => 1023 | .f32 => 127 | .bf16 => 127 | .f16 => 15 | .e5m2 => 15 | .e4m3 => 7 | .e2m1 => 1
def FFmt.width (f : FFmt) : Nat := 1 + f.ebits + f.mbits
/-- The smallest exponent, 1 − bias (R121). -/
def FFmt.emin (f : FFmt) : Int := 1 - f.bias
/-- The magnitude bits of the largest finite value (Table 6.2). -/
def FFmt.maxBits : FFmt → Nat
  | .f64 => 0x7FEFFFFFFFFFFFFF | .f32 => 0x7F7FFFFF | .bf16 => 0x7F7F | .f16 => 0x7BFF
  | .e5m2 => 0x7B | .e4m3 => 0x7E | .e2m1 => 0x7
/-- The magnitude bits of infinity, for the formats that have one (Table 6.3). -/
def FFmt.infBits : FFmt → Option Nat
  | .f64 => some 0x7FF0000000000000 | .f32 => some 0x7F800000 | .bf16 => some 0x7F80 | .f16 => some 0x7C00
  | .e5m2 => some 0x7C | .e4m3 => none | .e2m1 => none
/-- The canonical NaN (Table 6.3); `.e2m1` has none and takes +0 (Table 6.5). -/
def FFmt.nanBits : FFmt → Nat
  | .f64 => 0x7FF8000000000000 | .f32 => 0x7FC00000 | .bf16 => 0x7FC0 | .f16 => 0x7E00
  | .e5m2 => 0x7E | .e4m3 => 0x7F | .e2m1 => 0
/-- The sign bit of a format as a number. -/
def FFmt.signBit (f : FFmt) : Nat := 2 ^ (f.width - 1)

/-- An exact dyadic value (−1)^neg × m × 2^e; `m = 0` is a signed zero. -/
structure Dy where
  neg : Bool
  m : Nat
  e : Int
  deriving DecidableEq, Repr

/-- What the bits of a format stand for (R116, R117). -/
inductive FVal where
  | nan (signalling : Bool)
  | inf (neg : Bool)
  | fin (d : Dy)
  deriving DecidableEq, Repr

/-- The value of the low bits of `x` in format `f` (R116 to R118). -/
def fdecode (f : FFmt) (x : Nat) : FVal :=
  let x := x % 2 ^ f.width
  let neg : Bool := x / f.signBit = 1
  let e := (x / 2 ^ f.mbits) % 2 ^ f.ebits
  let m := x % 2 ^ f.mbits
  let special : Bool := match f with
    | .e4m3 => e = 15 ∧ m = 7
    | .e2m1 => false
    | _ => e = 2 ^ f.ebits - 1
  if special then
    match f with
    | .e4m3 => .nan false
    | _ => if m = 0 then .inf neg else .nan (m < 2 ^ (f.mbits - 1))
  else if e = 0 then .fin ⟨neg, m, f.emin - f.mbits⟩
  else .fin ⟨neg, 2 ^ f.mbits + m, (e : Int) - f.bias - f.mbits⟩

/-- Bits with a sign. -/
def withSign (f : FFmt) (neg : Bool) (bits : Nat) : Nat := if neg then bits + f.signBit else bits

/-- `Overflow(mode, sg, F)` of Table 6.4, with `.sat` (R122). -/
def overflow (mode : Rnd) (sat : Bool) (f : FFmt) (neg : Bool) : Nat :=
  let toInf : Bool := !sat && (match mode with
    | .rne => true | .rz => false | .rd => neg | .ru => !neg)
  if toInf then
    match f.infBits with
    | some i => withSign f neg i
    | none => match f with
      | .e4m3 => f.nanBits
      | _ => withSign f neg f.maxBits
  else withSign f neg f.maxBits

/-- Whether rounding goes up: `lsb` parity of the floor, comparison of the rest with one half, any rest (R121). -/
def roundUp (mode : Rnd) (neg odd : Bool) (rest half : Nat) (sticky : Bool) : Bool :=
  let any : Bool := rest ≠ 0 || sticky
  match mode with
  | .rz => false
  | .rd => neg && any
  | .ru => !neg && any
  | .rne => if rest > half then true else if rest = half ∧ half ≠ 0 then sticky || odd else false

/-- `RoundTo(mode)(x, F)` for x = ±(m + ε) × 2^e with 0 < ε < 1 when `sticky`, ε = 0 otherwise (R121 to R124).
A sticky value must carry more bits than the format keeps. Answers the bits and the flags. -/
def roundTo (mode : Rnd) (sat : Bool) (f : FFmt) (d : Dy) (sticky : Bool := false) : Nat × Flags :=
  if d.m = 0 then (withSign f d.neg 0, 0)
  else
    let top : Int := (Nat.log2 d.m : Int) + d.e
    if top > f.bias + 3 then (overflow mode sat f d.neg, Flag.of ||| Flag.nx)
    else
      let ee : Int := if top < f.emin then f.emin else top
      let qe : Int := ee - f.mbits
      let sh : Int := qe - d.e
      -- n: the floor in units of 2^qe; rest and half: the remainder and one half in units of 2^e
      let (n, rest, half) :=
        if sh ≤ 0 then (d.m * 2 ^ (-sh).toNat, 0, 0)
        else if sh > (Nat.log2 d.m : Int) + 2 then (0, 1, 2)
        else (d.m / 2 ^ sh.toNat, d.m % 2 ^ sh.toNat, 2 ^ (sh.toNat - 1))
      let inexact : Bool := rest ≠ 0 || sticky
      let n' := if roundUp mode d.neg (n % 2 = 1) rest half sticky then n + 1 else n
      let bits := (ee - f.emin).toNat * 2 ^ f.mbits + n'
      if bits > f.maxBits then (overflow mode sat f d.neg, Flag.of ||| Flag.nx)
      else
        let nx := if inexact then Flag.nx else 0
        let uf := if inexact ∧ ee = f.emin ∧ n' < 2 ^ f.mbits then Flag.uf else 0
        (withSign f d.neg bits, nx ||| uf)

namespace Dy

/-- The exact product. -/
def mul (a b : Dy) : Dy := ⟨a.neg != b.neg, a.m * b.m, a.e + b.e⟩

/-- The integer of a dyadic value in units of 2^e, for e at most its own exponent. -/
def toInt (a : Dy) (e : Int) : Int :=
  let k : Int := (a.m * 2 ^ (a.e - e).toNat : Nat)
  if a.neg then -k else k

/-- The exact sum; a zero sum takes its sign from R123. -/
def add (mode : Rnd) (a b : Dy) : Dy :=
  let e := if a.m = 0 then b.e else if b.m = 0 then a.e else min a.e b.e
  if a.m = 0 ∧ b.m = 0 then ⟨if a.neg = b.neg then a.neg else mode = .rd, 0, e⟩
  else if a.m = 0 then b
  else if b.m = 0 then a
  else
    let k := a.toInt e + b.toInt e
    if k = 0 then ⟨mode = .rd, 0, e⟩ else ⟨k < 0, k.natAbs, e⟩

/-- The opposite value. -/
def negate (a : Dy) : Dy := { a with neg := !a.neg }

/-- −1, 0 or 1 as a is below, equal to or above b as numbers (zeros equal). -/
def cmp (a b : Dy) : Int :=
  let e := min a.e b.e
  let x := a.toInt e
  let y := b.toInt e
  if x < y then -1 else if x = y then 0 else 1

/-- The integer nearest by `mode`, and whether it differs from the value (R127, R164). -/
def toInteger (mode : Rnd) (a : Dy) : Int × Bool :=
  let (n, rest, half) :=
    if a.e ≥ 0 then (a.m * 2 ^ a.e.toNat, 0, 0)
    else if (-a.e) > (Nat.log2 a.m : Int) + 2 then (0, if a.m = 0 then 0 else 1, 2)
    else (a.m / 2 ^ (-a.e).toNat, a.m % 2 ^ (-a.e).toNat, 2 ^ ((-a.e).toNat - 1))
  let n' : Nat := if roundUp mode a.neg (n % 2 = 1) rest half false then n + 1 else n
  (if a.neg then -(n' : Int) else n', rest ≠ 0)

end Dy

/-- Whether some operand is a signalling NaN (R118). -/
def FVal.isSNaN : FVal → Bool
  | .nan s => s
  | _ => false
def FVal.isNaN : FVal → Bool
  | .nan _ => true
  | _ => false
def FVal.isInf : FVal → Bool
  | .inf _ => true
  | _ => false
def FVal.isZero : FVal → Bool
  | .fin d => d.m = 0
  | _ => false
/-- The sign of a value that is not a NaN. -/
def FVal.neg : FVal → Bool
  | .nan _ => false
  | .inf n => n
  | .fin d => d.neg

/-- `NV` for the NaN inputs of an operation that delivers a NaN (R118). -/
def nvIf (b : Bool) : Flags := if b then Flag.nv else 0

/-- `FADD` (R158, R159): also the step of `.fadd` reductions and atomics. -/
def faddBits (mode : Rnd) (sat : Bool) (f : FFmt) (a b : Nat) : Nat × Flags :=
  let x := fdecode f a
  let y := fdecode f b
  let sn := x.isSNaN || y.isSNaN
  match x, y with
  | .nan _, _ => (f.nanBits, nvIf sn)
  | _, .nan _ => (f.nanBits, nvIf sn)
  | .inf p, .inf q => if p = q then (withSign f p (f.infBits.getD 0), 0) else (f.nanBits, Flag.nv)
  | .inf p, .fin _ => (withSign f p (f.infBits.getD 0), 0)
  | .fin _, .inf q => (withSign f q (f.infBits.getD 0), 0)
  | .fin u, .fin v => roundTo mode sat f (u.add mode v)

/-- The opposite of a floating value's bits, NaNs kept. -/
def fnegBits (f : FFmt) (a : Nat) : Nat :=
  let x := a % 2 ^ f.width
  if x / f.signBit = 1 then x - f.signBit else x + f.signBit

/-- `FSUB` (R158): the sum with the opposite. -/
def fsubBits (mode : Rnd) (sat : Bool) (f : FFmt) (a b : Nat) : Nat × Flags :=
  faddBits mode sat f a (fnegBits f b)

/-- `FMUL` (R158). -/
def fmulBits (mode : Rnd) (sat : Bool) (f : FFmt) (a b : Nat) : Nat × Flags :=
  let x := fdecode f a
  let y := fdecode f b
  let sn := x.isSNaN || y.isSNaN
  let sg := x.neg != y.neg
  if x.isNaN || y.isNaN then (f.nanBits, nvIf sn)
  else match x, y with
    | .fin u, .fin v => roundTo mode sat f (u.mul v)
    | _, _ =>
      if x.isZero || y.isZero then (f.nanBits, Flag.nv) else (withSign f sg (f.infBits.getD 0), 0)

/-- `FFMA` (R158): one rounding, `Invalid` as listed there. -/
def ffmaBits (mode : Rnd) (f : FFmt) (a b c : Nat) : Nat × Flags :=
  let x := fdecode f a
  let y := fdecode f b
  let z := fdecode f c
  let sn := x.isSNaN || y.isSNaN || z.isSNaN
  let zeroInf := (x.isZero && y.isInf) || (x.isInf && y.isZero)
  let sg := x.neg != y.neg
  if x.isNaN || y.isNaN || z.isNaN then (f.nanBits, nvIf (sn || zeroInf))
  else if zeroInf then (f.nanBits, Flag.nv)
  else match x, y, z with
    | .fin u, .fin v, .fin w => roundTo mode false f ((u.mul v).add mode w)
    | .fin _, .fin _, .inf q => (withSign f q (f.infBits.getD 0), 0)
    | _, _, .inf q => if q = sg then (withSign f q (f.infBits.getD 0), 0) else (f.nanBits, Flag.nv)
    | _, _, _ => (withSign f sg (f.infBits.getD 0), 0)

/-- `FSCL` (R158): a × 2^n. -/
def fsclBits (mode : Rnd) (sat : Bool) (f : FFmt) (a : Nat) (n : Int) : Nat × Flags :=
  match fdecode f a with
  | .nan s => (f.nanBits, nvIf s)
  | .inf q => (withSign f q (f.infBits.getD 0), 0)
  | .fin d => if d.m = 0 then (a % 2 ^ f.width, 0) else roundTo mode sat f { d with e := d.e + n }

/-- Whether a comes before b in the order of `FMIN` and `FMAX`, where −0 is below +0 (R160). -/
def fltBefore (x y : FVal) : Bool :=
  match x, y with
  | .inf p, .inf q => p && !q
  | .inf p, _ => p
  | _, .inf q => !q
  | .fin u, .fin v =>
    let c := u.cmp v
    c < 0 || (c = 0 && u.m = 0 && v.m = 0 && u.neg && !v.neg)
  | _, _ => false

/-- `FMIN` and `FMAX` (R160). -/
def fminmaxBits (wantMax : Bool) (f : FFmt) (a b : Nat) : Nat × Flags :=
  let x := fdecode f a
  let y := fdecode f b
  let fl := nvIf (x.isSNaN || y.isSNaN)
  let a := a % 2 ^ f.width
  let b := b % 2 ^ f.width
  if x.isNaN && y.isNaN then (f.nanBits, fl)
  else if x.isNaN then (b, fl)
  else if y.isNaN then (a, fl)
  else if wantMax then (if fltBefore x y then b else a, fl)
  else (if fltBefore y x then b else a, fl)

/-- `FCMP` (R162): the condition and the flags. -/
def fcmpBits (cc : FCc) (f : FFmt) (a b : Nat) : Bool × Flags :=
  let x := fdecode f a
  let y := fdecode f b
  let unordered := x.isNaN || y.isNaN
  let c : Int := match x, y with
    | .inf p, .inf q => if p = q then 0 else if p then -1 else 1
    | .inf p, _ => if p then -1 else 1
    | _, .inf q => if q then 1 else -1
    | .fin u, .fin v => u.cmp v
    | _, _ => 0
  let r := match cc with
    | .eq => !unordered && c = 0
    | .ne => unordered || c ≠ 0
    | .lt => !unordered && c < 0
    | .le => !unordered && c ≤ 0
    | .gt => !unordered && c > 0
    | .ge => !unordered && c ≥ 0
    | .num => !unordered
    | .nan => unordered
  let relational := cc = .lt || cc = .le || cc = .gt || cc = .ge
  (r, nvIf (x.isSNaN || y.isSNaN || (relational && unordered)))

/-- `FCLS` (Table 7.8). -/
def fclsBits (f : FFmt) (a : Nat) : Nat :=
  match fdecode f a with
  | .nan true => 1
  | .nan false => 2
  | .inf true => 4
  | .inf false => 512
  | .fin d =>
    if d.m = 0 then (if d.neg then 32 else 64)
    else if d.m < 2 ^ f.mbits then (if d.neg then 16 else 128)
    else (if d.neg then 8 else 256)

/-- `FFRC` (R164). -/
def ffrcBits (f : FFmt) (a : Nat) : Nat × Flags :=
  match fdecode f a with
  | .nan s => (f.nanBits, nvIf s)
  | .inf _ => (f.nanBits, Flag.nv)
  | .fin d =>
    let r := if d.e ≥ 0 then 0 else d.m % 2 ^ (-d.e).toNat
    ((roundTo .rne false f ⟨d.neg, r, d.e⟩).1, 0)

/-- `FRND` (R164). -/
def frndBits (mode : Rnd) (f : FFmt) (a : Nat) : Nat × Flags :=
  match fdecode f a with
  | .nan s => (f.nanBits, nvIf s)
  | .inf q => (withSign f q (f.infBits.getD 0), 0)
  | .fin d => if d.e ≥ 0 then (a % 2 ^ f.width, 0)
    else ((roundTo .rne false f ⟨d.neg, (d.toInteger mode).1.natAbs, 0⟩).1, 0)

end Sys2Proof
end

