-- ==== Sys2Proof/Machine/Special.lean ====
section
/-! DEFINITION. The special functions of pipe C (R169): correctly rounded results by fixed-point enclosures of the exact
value. Where an enclosure does not settle the rounding, `Config.specialOpen` chooses between its two ends (log entry 10). -/

namespace Sys2Proof.Special

/-- Square root by bits, rounded down: `k` is the number of result bits still to settle. -/
def isqrtBits : Nat → Nat → Nat → Nat
  | 0, _, r => r
  | k + 1, n, r =>
    let t := r + 2 ^ k
    isqrtBits k n (if t * t ≤ n then t else r)

/-- The square root rounded down. -/
def isqrt (n : Nat) : Nat := isqrtBits (Nat.log2 n / 2 + 1) n 0

/-- Fraction bits of the enclosures. -/
def P : Nat := 640

/-- The bound, in units of the last place, of the truncation errors of one enclosure. -/
def slack : Nat := 2 ^ 40

/-- Σ 1 / ((2i+1) k^(2i+1)), alternating when `alt`: the inverse (hyperbolic) tangent of 1/k at `p` bits. -/
def atanInvLoop (alt : Bool) (k2 : Nat) : Nat → Nat → Nat → Int → Int
  | 0, _, _, acc => acc
  | n + 1, i, t, acc =>
    let term : Int := (t / (2 * i + 1) : Nat)
    atanInvLoop alt k2 n (i + 1) (t / k2) (if alt && i % 2 = 1 then acc - term else acc + term)

def atanInv (alt : Bool) (p k : Nat) : Int := atanInvLoop alt (k * k) (p / (2 * Nat.log2 k) + 4) 0 (2 ^ p / k) 0

/-- ln 2 at `p` bits (18 artanh 1/26 − 2 artanh 1/4801 + 8 artanh 1/8749). -/
def ln2 (p : Nat) : Int := 18 * atanInv false p 26 - 2 * atanInv false p 4801 + 8 * atanInv false p 8749

/-- π at `p` bits (Machin). -/
def piAt (p : Nat) : Int := 16 * atanInv true p 5 - 4 * atanInv true p 239

/-- Σ ± y^k / k! over every `step`th k from the term `t` at index `k`, at P bits. -/
def expLoop (sgn : Bool) (step : Nat) (y : Int) : Nat → Nat → Int → Int → Int
  | 0, _, _, acc => acc
  | n + 1, k, t, acc =>
    let t1 := t * y / 2 ^ P / (k + 1)
    let t2 := if step = 2 then t1 * y / 2 ^ P / (k + 2) else t1
    let t3 := if sgn then -t2 else t2
    expLoop sgn step y n (k + step) t3 (acc + t3)

/-- e^y for |y| ≤ 1 at P bits. -/
def expFix (y : Int) : Int := expLoop false 1 y 160 0 (2 ^ P) (2 ^ P)

/-- sin and cos for 0 ≤ y < 2 at P bits. -/
def sinFix (y : Int) : Int := expLoop true 2 y 90 1 y y
def cosFix (y : Int) : Int := expLoop true 2 y 90 0 (2 ^ P) (2 ^ P)

/-- 2 artanh z for 0 ≤ z ≤ 1/3 at P bits. -/
def artanhLoop (z2 : Int) : Nat → Nat → Int → Int → Int
  | 0, _, _, acc => acc
  | n + 1, i, t, acc => artanhLoop z2 n (i + 1) (t * z2 / 2 ^ P) (acc + t / (2 * i + 1))

def lnMantissa (num den : Nat) : Int :=
  let z : Int := ((num - den) * 2 ^ P / (num + den) : Nat)
  2 * artanhLoop (z * z / 2 ^ P) 220 0 z 0

/-- A dyadic value as a fixed-point number with P fraction bits, rounded down. -/
def toFix (d : Dy) : Int :=
  let k : Nat := if d.e + P ≥ 0 then d.m * 2 ^ (d.e + P).toNat else d.m / 2 ^ (-(d.e + P)).toNat
  if d.neg then -(k : Int) else k

/-- Rounds an irrational value enclosed by v ± slack in units of 2^(−P + sc): the value rounds as one end of the enclosure or the other, and which one is free where
the two differ. -/
def roundEnclosed (fn : Nat) (a : Nat) (v : Int) (sc : Int) : Nat × Flags :=
  let lo := v - slack
  let hi := v + slack
  let mk (x : Int) : Nat × Flags := roundTo .rne false .f32 ⟨x < 0, x.natAbs, sc - P⟩ true
  if mk lo = mk hi || Config.specialOpen fn (BitVec.ofNat 32 a) then mk lo else mk hi

/-- Results shared by the functions for a NaN (R169). -/
def nanOr (a : Nat) (k : FVal → Nat × Flags) : Nat × Flags :=
  match fdecode .f32 a with
  | .nan s => (FFmt.f32.nanBits, nvIf s)
  | x => k x

def invalid : Nat × Flags := (FFmt.f32.nanBits, Flag.nv)
def infOf (neg : Bool) : Nat := withSign .f32 neg 0x7F800000
def zeroOf (neg : Bool) : Nat := withSign .f32 neg 0
def one : Nat := 0x3F800000

/-- `FRCP` (Table 7.11). -/
def frcp (a : Nat) : Nat × Flags := nanOr a fun
  | .nan _ => invalid
  | .inf n => (zeroOf n, 0)
  | .fin d =>
    if d.m = 0 then (infOf d.neg, Flag.dz)
    else
      let q := 2 ^ 80 / d.m
      roundTo .rne false .f32 ⟨d.neg, q, -80 - d.e⟩ (2 ^ 80 % d.m ≠ 0)

/-- The square root of m × 2^e with a sticky mark: 2k extra bits. -/
def sqrtDy (m : Nat) (e : Int) : Nat × Int × Bool :=
  let (m, e) := if e % 2 = 0 then (m, e) else (2 * m, e - 1)
  let n := m * 2 ^ 80
  let r := isqrt n
  (r, e / 2 - 40, r * r ≠ n)

/-- `FSQRT` (Table 7.11). -/
def fsqrt (a : Nat) : Nat × Flags := nanOr a fun
  | .nan _ => invalid
  | .inf n => if n then invalid else (infOf false, 0)
  | .fin d =>
    if d.m = 0 then (zeroOf d.neg, 0)
    else if d.neg then invalid
    else
      let (r, e, st) := sqrtDy d.m d.e
      roundTo .rne false .f32 ⟨false, r, e⟩ st

/-- `FRSQ` (Table 7.11). -/
def frsq (a : Nat) : Nat × Flags := nanOr a fun
  | .nan _ => invalid
  | .inf n => if n then invalid else (zeroOf false, 0)
  | .fin d =>
    if d.m = 0 then (infOf d.neg, Flag.dz)
    else if d.neg then invalid
    else
      let (m, e) := if d.e % 2 = 0 then (d.m, d.e) else (2 * d.m, d.e - 1)
      let n := 2 ^ 160
      let r := isqrt (n / m)
      roundTo .rne false .f32 ⟨false, r, -80 - e / 2⟩ (n % m ≠ 0 || r * r ≠ n / m)

/-- 2^x for a finite nonzero x (R169): exact for an integer x. -/
def exp2Fin (a : Nat) (d : Dy) : Nat × Flags :=
  if d.cmp ⟨false, 200, 0⟩ > 0 then roundTo .rne false .f32 ⟨false, 1, 200⟩
  else if d.cmp ⟨true, 200, 0⟩ < 0 then roundTo .rne false .f32 ⟨false, 1, -200⟩ true
  else
    let x := toFix d
    let n : Int := x / 2 ^ P
    let f : Int := x % 2 ^ P
    if f = 0 then roundTo .rne false .f32 ⟨false, 1, n⟩
    else roundEnclosed 3 a (expFix (f * ln2 P / 2 ^ P)) n

/-- `FEXP2` (Table 7.11). -/
def fexp2 (a : Nat) : Nat × Flags := nanOr a fun
  | .nan _ => invalid
  | .inf n => if n then (zeroOf false, 0) else (infOf false, 0)
  | .fin d => if d.m = 0 then (one, 0) else exp2Fin a d

/-- `FLOG2` (Table 7.11): exact for powers of two. -/
def flog2 (a : Nat) : Nat × Flags := nanOr a fun
  | .nan _ => invalid
  | .inf n => if n then invalid else (infOf false, 0)
  | .fin d =>
    if d.m = 0 then (infOf true, Flag.dz)
    else if d.neg then invalid
    else
      let k := Nat.log2 d.m
      let e : Int := d.e + k
      if d.m = 2 ^ k then roundTo .rne false .f32 ⟨e < 0, e.natAbs, 0⟩
      else roundEnclosed 4 a (e * 2 ^ P + lnMantissa d.m (2 ^ k) * 2 ^ P / ln2 P) 0

/-- The quadrant of |x| and its remainder below π/2 at P bits. -/
def reduce (d : Dy) : Nat × Int :=
  let p := P + 160
  let halfPi := piAt p / 2
  let x : Int := (d.m : Int) * 2 ^ (d.e + p).toNat
  let k := x / halfPi
  ((k % 4).toNat, (x - k * halfPi) / 2 ^ 160)

/-- `FSIN` (Table 7.11). -/
def fsin (a : Nat) : Nat × Flags := nanOr a fun
  | .nan _ => invalid
  | .inf _ => invalid
  | .fin d =>
    if d.m = 0 then (zeroOf d.neg, 0)
    else
      let (q, r) := reduce d
      let v := match q with
        | 0 => sinFix r
        | 1 => cosFix r
        | 2 => -sinFix r
        | _ => -cosFix r
      roundEnclosed 5 a (if d.neg then -v else v) 0

/-- `FCOS` (Table 7.11). -/
def fcos (a : Nat) : Nat × Flags := nanOr a fun
  | .nan _ => invalid
  | .inf _ => invalid
  | .fin d =>
    if d.m = 0 then (one, 0)
    else
      let (q, r) := reduce d
      let v := match q with
        | 0 => cosFix r
        | 1 => -sinFix r
        | 2 => -cosFix r
        | _ => sinFix r
      roundEnclosed 6 a v 0

/-- tanh of a finite nonzero x: (e^2x − 1) / (e^2x + 1). -/
def tanhFin (a : Nat) (d : Dy) : Nat × Flags :=
  let mag : Dy := { d with neg := false }
  if mag.cmp ⟨false, 40, 0⟩ > 0 then roundTo .rne false .f32 ⟨d.neg, 2 ^ 64 - 1, -64⟩ true
  else
    let y := 2 * toFix mag
    let l := ln2 P
    let n := y / l
    let ex := expFix (y - n * l) * 2 ^ n.toNat
    let v := (ex - 2 ^ P) * 2 ^ P / (ex + 2 ^ P)
    roundEnclosed 7 a (if d.neg then -v else v) 0

/-- `FTANH` (Table 7.11). -/
def ftanh (a : Nat) : Nat × Flags := nanOr a fun
  | .nan _ => invalid
  | .inf n => (withSign .f32 n one, 0)
  | .fin d => if d.m = 0 then (zeroOf d.neg, 0) else tanhFin a d

end Sys2Proof.Special
end

