-- ==== Sys2Proof/Machine/State.lean ====
section
/-! DEFINITION. The state of the machine: everything the spec gives the partition, as plain data. Sparse stores are
association lists; an unlisted key holds the record of the reset state (INVENTORY.md, State). -/

namespace Sys2Proof.Machine

/-- The reasons the machine stops with a fault. The spec gives every error of the LV9 an effect on the state (a deferred
trap, a token status, a quiesce), so no step of this model answers with one. -/
inductive Fault where
  /-- Raised by no step: the spec describes no error after which the part stops. Safe. -/
  | stopped
  deriving DecidableEq, Repr

/-- The reasons a step has no meaning. -/
inductive Refusal where
  /-- Raised by an arm of `exec` whose instruction has no meaning yet. Safe. -/
  | notModelled (mnemonic : String)
  /-- Raised by an event whose condition does not hold in the state: such a step does not come about (log entry 6). Safe. -/
  | notEnabled (why : String)
  deriving DecidableEq, Repr

/-- A place an access reaches: memory, a scratchpad, an element of a register (Table 2.3). -/
inductive Loc where
  | mem (pa : Nat)
  | scr (team off : Nat)
  | win (t : ThreadId) (n byte : Nat)
  deriving DecidableEq, Repr

/-- The agent of an access (R17, R229): a thread, named so that it keeps its name across a restore; an engine at work on an operation; an engine of a hub die that
acts for no thread. -/
inductive Who where
  | thread (team wave lane : Nat) | host (c : CoreId) | engine (op : Nat) | hub (pkg : Nat)
  deriving DecidableEq, Repr

/-- Where an agent is: partition, tray, package, die and core; `hub` marks an agent that belongs to its package only (Table 1.5). -/
structure Place where
  part : Nat
  tray : Nat
  pkg : Nat
  die : Nat
  core : Nat
  hub : Bool := false
  deriving DecidableEq, Repr

/-- What the memory model orders: accesses, fences, and the points at which operations, grids, barriers, collectives, pools and restores join agents (R229, R235 to
R237, R244 to R249, R317, R352). -/
inductive EvKind where
  | load | store | rmw | fence | pfen (p q : Path)
  | start (op : Nat) | token (op : Nat) | launch (grid : Nat) (op : Option Nat) | arrive (team bar phase : Nat) | leave (team bar phase : Nat) | coll (ops : List Nat)
  | gives (ops : List Nat) (op : Nat) | restore | resume (ctx : Nat)
  deriving DecidableEq, Repr

/-- An event of the history of accesses. `co` is its place in the coherence order (R234), `rf` the store each byte was read from, none for the initial value;
`sig` names the grids whose accesses a completion signal follows (R247), `deps` the loads that a store's address, data or guard depends on (R235), `word` the
memory word of whose lanes it is one (R232); `bytewise` marks an access that is single-copy atomic per byte only (R231). -/
structure Ev where
  id : Nat := 0
  co : Nat := 0
  who : Who
  place : Place
  grid : Nat := 0
  /-- the context whose teams' agent it is -/
  ctx : Option Nat := none
  kind : EvKind
  path : Path := .ls
  ord : Ord := .rlx
  scp : Option Scope := none
  unified : Bool := true
  base : Loc := .mem 0
  len : Nat := 0
  old : List Byte := []
  new : List Byte := []
  rf : List (Option Nat) := []
  sig : List Nat := []
  deps : List Nat := []
  word : Option Nat := none
  bytewise : Bool := false
  deriving DecidableEq, Repr

/-- What may carry a value that depends on a load: a register or predicate of a thread, or its control flow (Table 10.2). -/
inductive DepReg where
  | v (n : Nat) | s (n : Nat) | p (n : Nat) | ctl
  deriving DecidableEq, Repr

/-- Cause codes (Table 17.12). -/
inductive Cause where
  | illop | illopd | pairbank | allot | staleh | align | xlat | perm | walkf | poison | leasev | matres | depth
  | swtrap | brkpt | quiesce | deadrd
  deriving DecidableEq, Repr

/-- A last-result latch entry; the window is the number of words it still covers (R81, R82). -/
structure Latch where
  val : Option Word := none
  bind : Option Nat := none
  window : Nat := 0
  deriving DecidableEq, Repr

/-- An operand-cache entry (R86). -/
structure OEntry where
  bind : Option Nat := none
  copy : Option Word := none
  deriving DecidableEq, Repr

/-- What a parked thread waits at (R27). -/
inductive ParkOn where
  | mask (k : Nat) | bar (n : Nat)
  deriving DecidableEq, Repr

/-- What a blocked thread waits for (R27). Where the word issues again after the wait, the PC stays at it. -/
inductive BlockOn where
  | token (w : WaveId) (s : Nat)            -- R36
  | result (due : Nat)                      -- R80: until the results of a cycle
  | fill (granules : List Nat)              -- R80, R96
  | leasedLine (line : Nat)                 -- R263
  | grant                                   -- R292
  | sigw (cc : SigCc) (addr val : Dword) (d : Dst) (scope : Scope) (dead : List Nat) (next : Dword) (lastCheck : Nat)   -- R363, R364
  | fence (scope : Scope)                   -- R289
  | pfen (p q : Path)                       -- R290
  | trel (b before : Nat) | trng (b before : Nat)   -- R208, R210: operations numbered below `before`
  | mwait (ops : List Nat)                  -- R221
  | accMove (op : Nat)                      -- R227
  | tile (k n : Nat)                        -- R183: the tile, and the word's place in the issue order
  | tlbi (id : Nat)                         -- R379
  | hostWait                                -- R380
  deriving DecidableEq, Repr

/-- The state of a thread (R27). -/
inductive Status where
  | runnable | parked (on : ParkOn) | blocked (on : BlockOn) | trapped | exited
  deriving DecidableEq, Repr

/-- What a deferred trap captures (R405). -/
structure Trap where
  cause : Cause
  arg : Nat := 0
  fpc : Dword := 0
  npc : Dword := 0
  rentry : Dword := 0
  rctr : Word := 0
  precise : Bool := true
  xreg : Bool := false
  more : Bool := false
  decode : Bool := false
  faddr : Dword := 0
  tseq : Option Nat := none
  delivered : Bool := false
  deriving DecidableEq, Repr

/-- The kinds of results delivered after issue: long latency (R97), `TRD` (R211), `MXR` (R225), `GROW` (R370). -/
inductive PendKind where
  | long | trd | mxr | grow (n : Nat)
  deriving DecidableEq, Repr

/-- The accesses of a load whose value is in flight: one per single-copy-atomic unit, with the bytes bound so far and whether they are sign-extended (R231, R239). -/
structure LoadOf where
  evs : List Ev
  bytes : List Byte
  signed : Bool
  deriving DecidableEq, Repr

/-- A result issued and not yet delivered to its thread. -/
structure Pending where
  kind : PendKind := .long
  vw : List (Nat × Word) := []
  sw : List (Nat × Word) := []
  pw : List (Nat × Bool) := []
  latch : Option (Nat × Option Nat × List Word) := none
  flags : Flags := 0
  la : Nat := 0
  due : Nat := 0
  fault : Option (Cause × Nat × Dword) := none
  fpc : Dword := 0
  rentry : Dword := 0
  rctr : Word := 0
  issued : Nat := 0
  /-- the word writes its v destination uniformly (R93) -/
  uni : Bool := false
  /-- the loads that it carries the value of, and those it depends on (R235, R239) -/
  load : Option LoadOf := none
  deps : List Nat := []
  deriving DecidableEq, Repr

/-- A line of a lease: its physical address, virtual address and snapshot (R263). -/
structure LeaseLine where
  line : Nat
  va : Dword
  snapshot : List Byte
  deriving DecidableEq, Repr

/-- The lease state of a thread (R263 to R267, R291, R292). -/
structure Lease where
  lines : List LeaseLine := []
  deadline : Nat := 0
  granted : Nat := 0
  failTarget : Dword := 0
  dst : Dst := .vz
  pc : Dword := 0
  ord : Ord := .rlx
  scp : Scope := .core
  /-- the line asked for and the cycle of the request, while its grant is awaited -/
  want : Option (Nat × Dword × Nat) := none
  /-- the destination of the `LEASE` whose grant is awaited -/
  wantDst : Dst := .vz
  /-- the grant arrived while the core began no new outer lease (R330) -/
  deferred : Bool := false
  deriving DecidableEq, Repr

/-- A translation: leaf fields of Table 16.2 with the key and page number it was walked for (R385, R388). -/
structure Pte where
  r : Bool := false
  w : Bool := false
  x : Bool := false
  tier : Bool := false
  mov : Bool := false
  ntf : Bool := false
  key : Nat := 0
  hpkg : Nat := 0
  hdie : Nat := 0
  frame : Nat := 0
  large : Bool := false
  deriving DecidableEq, Repr

/-- A cached translation: context key, page number va[56:16], whether large, entry (R388). -/
structure Tlb where
  ctx : Nat
  page : Nat
  pte : Pte
  deriving DecidableEq, Repr

/-- A thread (Table 2.1). A v register is live when listed in `v`; an unlisted one is dead (R33). -/
structure Thread where
  pc : Dword := 0
  status : Status := .exited
  v : Map Nat Word := []
  preds : BitVec 7 := 0
  flags : Flags := 0
  latches : Map Nat Latch := []
  ocache : Map Nat OEntry := []
  rentry : Dword := 0
  rctr : Word := 0
  trap : Option Trap := none
  lease : Option Lease := none
  waitAcc : Nat := 0
  waitSince : Nat := 0
  urgent : Option Nat := none
  yldUntil : Option Nat := none
  pend : List Pending := []
  issued : Nat := 0
  /-- the address of the word last issued -/
  last : Dword := 0
  lastPage : Option Tlb := none
  poisoned : List Nat := []
  /-- the oldest word with an access that a quiesce abandoned (R427) -/
  abandoned : Option Dword := none
  /-- the place in the issue order of a word that waits for a tile: number, tile, address of the word (R183) -/
  place : Option (Nat × Nat × Dword) := none
  deriving DecidableEq, Repr

/-- The image a restored wave's absent granules fill from (R96, R414). -/
structure Absent where
  image : Nat
  granules : List Nat
  deriving DecidableEq, Repr

/-- A wave (Table 2.1). Enrolled and arrived sets are 32-bit masks (R31). -/
structure Wave where
  team : Nat := 0
  num : Nat := 0
  base : Nat := 0
  allot : Nat := 0
  live : Bool := false
  s : Map Nat Word := []
  pending : List Nat := []
  enrolled : Map Nat Word := []
  arrived : Map Nat Word := []
  absent : Option Absent := none
  uniform : List Nat := []
  deriving DecidableEq, Repr

/-- A reservation record with its range (Table 8.1, R184). -/
structure Tob where
  base : Nat := 0
  len : Nat := 0
  fmt : Nat := 0
  skind : Nat := 0
  pf : Bool := false
  ring : Bool := false
  planes : Nat := 0
  scoff : Nat := 0
  blk : Nat := 0
  ppos : Nat := 0
  cpos : Nat := 0
  data : Map Nat Byte := []
  seed : Nat := 0
  poisoned : List Nat := []
  deriving DecidableEq, Repr

/-- An accumulator tile; element (i, j) is at key 64 i + j (R182, R202). -/
structure Tile where
  phys : Nat := 0
  data : Map Nat Word := []
  zeroed : Bool := false
  seed : Nat := 0
  poison : Bool := false
  deriving DecidableEq, Repr

/-- A named barrier: completed phases and the threads that have arrived in the current one (R335, R361). -/
structure Barrier where
  phase : Nat := 0
  arrived : List ThreadId := []
  deriving DecidableEq, Repr

/-- Where a team is: waiting for a core, resident, in a spool image, ended. -/
inductive TeamAt where
  | pending | resident | spooled (image : Nat) | ended
  deriving DecidableEq, Repr

/-- The kernel descriptor's fields (Table 5.4). -/
structure Kernel where
  entry : Nat := 0
  coop : Bool := false
  allot : Nat := 32
  allotMax : Nat := 32
  waves : Nat := 1
  acc : Nat := 0
  clx : Nat := 0
  cly : Nat := 0
  clz : Nat := 0
  scratch : Nat := 0
  params : Nat := 0
  deriving DecidableEq, Repr

/-- A team (Table 2.1). -/
structure Team where
  ctx : Nat := 0
  grid : Nat := 0
  x : Nat := 0
  y : Nat := 0
  z : Nat := 0
  key : Nat := 0
  core : CoreId := ⟨0, 0, 0⟩
  slot : Nat := 0
  place : TeamAt := .ended
  waves : List WaveId := []
  nwave : Nat := 1
  scrKB : Nat := 0
  scratch : Map Nat Byte := []
  scrSeed : Nat := 0
  scrZero : Bool := false
  scrPoison : List Nat := []
  bars : Map Nat Barrier := []
  handles : Map Nat Tob := []
  nacc : Nat := 0
  tiles : Map Nat Tile := []
  clusterSlot : Option Nat := none
  cluster : Nat := 0
  param : Dword := 0
  indir : Dword := 0
  bornAt : Nat := 0
  /-- bytes that hub-die engines hold for the scratchpad while the team is spooled: offset and bytes (R298, R368) -/
  held : List (Nat × List Byte) := []
  /-- poisoned registers of a spooled team: wave number, lane, register (R417) -/
  regPoison : List (Nat × Nat × Nat) := []
  /-- the team stays spooled until system software restores it (R431) -/
  hold : Bool := false
  /-- issue has stopped for a pre-emption that is under way (R410) -/
  stopping : Bool := false
  deriving DecidableEq, Repr

/-- A grid (R26, R320 to R323, R339). -/
structure Grid where
  ctx : Nat := 0
  kern : Kernel := {}
  kdesc : Dword := 0
  kbase : Dword := 0
  gx : Nat := 1
  gy : Nat := 1
  gz : Nat := 1
  param : Dword := 0
  depth : Nat := 1
  parent : Option Nat := none
  sigAddr : Dword := 0
  sigVal : Dword := 0
  sscope : Nat := 2
  keyfn : Nat := 0
  keyarg : Nat := 0
  ply : Bool := false
  pkg : Nat := 0
  queue : Option Nat := none
  /-- the teams, or clusters, already handed to a Bobbin (R346), and the cycle of the hub die in which the grid was accepted -/
  handed : Nat := 0
  acceptedAt : Nat := 0
  /-- the merged grid of a window the launch belongs to, and the entry of its first team in the indirection table (R349) -/
  mergedInto : Option Nat := none
  indir : Dword := 0
  retired : Bool := false
  /-- the grid of a checkpoint handler (R431) -/
  handler : Bool := false
  deriving DecidableEq, Repr

/-- The context registers (Tables 2.4 to 2.12) at their reset values. -/
structure CtxRegs where
  ctxFlags : Word := 3
  fairPeriod : Word := 2048
  leaseMax : Word := 256
  schedSeed : Word := 1
  storeSplit : Word := 0x808
  trapQueue : Dword := 0
  spoolBase : Dword := 0
  chkHandler : Dword := 0
  deriving DecidableEq, Repr

/-- A trap record before it is posted (Table 17.2). -/
structure TrapRecord where
  kind : Nat := 1
  cause : Nat := 0
  tflg : Nat := 0
  arg : Nat := 0
  pkg : Nat := 0
  die : Nat := 0
  core : Nat := 0xFF
  lane : Nat := 0xFF
  wave : Nat := 0xFF
  tx : Nat := 0
  ty : Nat := 0
  tz : Nat := 0
  fpc : Dword := 0
  npc : Dword := 0
  rentry : Dword := 0
  aux : Nat := 0
  faddr : Dword := 0
  tseq : Nat := 0
  /-- the point of the history at which the thread's accesses are complete (R406) -/
  start : Nat := 0
  deriving DecidableEq, Repr

/-- A package's stop of a context (R415): its epoch, the cycle of `STOP`, whether `STOPPED` is sent, and whether the Reel has it. -/
structure StopRec where
  epoch : Nat
  at_ : Nat
  sent : Bool := false
  received : Bool := false
  deriving DecidableEq, Repr

/-- A context (R48, R382). -/
structure Context where
  regs : CtxRegs := {}
  /-- the descriptor's virtual and physical address (R48, R382) -/
  desc : Dword := 0
  descPa : Option Nat := none
  rootFrame : Nat := 0
  rootPkg : Nat := 0
  rootDie : Nat := 0
  sysPool : Dword := 0
  sysPages : Nat := 0
  /-- indirection tables in the pool of system pages: merged grid, first page, pages (R349) -/
  sysTables : List (Nat × Nat × Nat) := []
  tseq : Nat := 1
  posted : Nat := 0
  cdone : Nat := 0
  cseen : Nat := 0
  cread : Nat := 0
  post : List TrapRecord := []
  /-- packages that have stopped the context, and the epoch whose `RESUME` the Reel has sent (R415) -/
  stop : Map Nat StopRec := []
  resumed : Option Nat := none
  /-- the traps of threads held in spool images, by TSEQ, and commands for them, carried out at restore: TSEQ, ACT, TPC (R409) -/
  spooledTraps : Map Nat Trap := []
  later : List (Nat × Nat × Dword) := []
  /-- the last quiesce that wrote a checkpoint record: its epoch and the record's address; whether its handler was launched (R429, R431) -/
  recorded : Option (Nat × Option Dword) := none
  handled : Bool := true
  deriving DecidableEq, Repr

/-- L1 line states (R253). -/
inductive L1St where
  | m | e | s
  deriving DecidableEq, Repr

/-- The message kinds of chapter 11 and the requests they carry. -/
inductive MsgKind where
  | gets | getm | gete | stm | atm | puts | puto | wbs | pack | inv | recallS | recallI | ack | data | done | retry | grant
  | openReq | opened | relay | redirect | retranslate | nothome | retire | confirm
  deriving DecidableEq, Repr

/-- Who sends or receives a message. -/
inductive Agent where
  | core (c : CoreId) | home (pkg die : Nat) | proxy (pkg : Nat) | engine (pkg : Nat)
  deriving DecidableEq, Repr

/-- A message of the coherence and migration protocols. `grantState` and `ackCnt` belong to a grant, `newPkg`, `newDie` and `newFrame` to the migration messages,
`orig` to a relayed or refused message, `present` to a reply that carries the line, `by_`, `at_` and `bounces` to a thread's request: the thread, its word and the
refusals in a row (R270). -/
structure Msg where
  kind : MsgKind
  line : Nat := 0
  src : Agent
  dst : Agent
  /-- the agent an `INV` is acknowledged to -/
  ackTo : Option Agent := none
  grantState : L1St := .s
  ackCnt : Nat := 0
  hop : Nat := 0
  key : Nat := 0
  page : Nat := 0
  newPkg : Nat := 0
  newDie : Nat := 0
  newFrame : Nat := 0
  orig : Option MsgKind := none
  present : Bool := false
  keepsS : Bool := false
  /-- the line lies in a notify page (R342) -/
  ntf : Bool := false
  sentAt : Nat := 0
  va : Dword := 0
  by_ : Option ThreadId := none
  at_ : Dword := 0
  bounces : Nat := 0
  /-- bytes a streaming store or an RMW writes (R429) -/
  len : Nat := 0
  /-- the directory entry that a probe clears, by its region size (R260, R268) -/
  size : Nat := 0
  /-- the root of the translation a request was made under; a node read of a walk has none (R269, R275) -/
  root : Nat × Nat × Nat := (0, 0, 0)
  phys : Bool := false
  /-- the page of a migration message is large -/
  large : Bool := false
  /-- the operation an engine's request serves (R270) -/
  op : Option Nat := none
  /-- the stores that a streaming store merges at its arrival (R261) -/
  evs : List Nat := []
  deriving DecidableEq, Repr

/-- Directory states (R254). -/
inductive DirSt where
  | i | s | o
  deriving DecidableEq, Repr

/-- The open transaction of a busy entry: the request it serves, the replies it still awaits and whether `DONE` is awaited. -/
structure Trans where
  req : Msg
  replies : Nat := 0
  awaitDone : Bool := false
  awaitPuto : Bool := false
  since : Nat := 0
  /-- agents whose replies are awaited -/
  from_ : List Agent := []
  /-- the owner keeps an S copy after the recall -/
  keep : Option CoreId := none
  deriving DecidableEq, Repr

/-- A directory entry (Table 11.2); the key under which it is listed is the address of its first line. -/
structure DirEntry where
  st : DirSt := .i
  coarse : Bool := false
  size : Nat := 9
  busy : Option Trans := none
  ind : Bool := false
  ptr : Map Nat CoreId := []
  vec : Dword := 0
  waiting : List Msg := []
  lastReq : Nat := 0
  lastUse : Nat := 0
  /-- the key of the translation that filled the line (R397) -/
  key : Nat := 0
  deriving DecidableEq, Repr

/-- A request of a core for a line: the message, whether ownership is wanted beyond it, the grant and the acknowledgements so far (R255). -/
structure Miss where
  line : Nat
  req : Msg
  own : Bool
  /-- the threads whose accesses it serves, and those accesses as requests of their own -/
  for_ : List ThreadId := []
  uses : List Msg := []
  granted : Option Nat := none
  grantSt : L1St := .s
  acks : Nat := 0
  since : Nat := 0
  deriving DecidableEq, Repr

/-- A page for which a core has received a `REDIRECT` while accesses toward the old home were open (R271): those accesses, each with whether the home answers
it and its place in the page, and the requests held until they complete. -/
structure Redir where
  key : Nat
  page : Nat
  open_ : List (Bool × Nat) := []
  held : List Msg := []
  deriving DecidableEq, Repr

/-- A release store whose request is held: the thread, what its request needs, and the lines of the earlier accesses it waits for (R282). -/
structure HeldStore where
  thread : ThreadId
  stream : Bool
  pte : Pte
  va : Dword
  pa : Nat
  len : Nat
  evs : List Nat
  misses : List Nat
  sent : List Nat
  deriving DecidableEq, Repr

/-- The record a core holds of a context while it hosts its teams (R48). -/
structure Loaded where
  regs : CtxRegs
  deriving DecidableEq, Repr

/-- A bank of a lane pair that a write-back holds in a cycle (R90, R91). -/
structure Hold where
  pair : Nat
  bank : Nat
  cycle : Nat
  /-- the wave slot and register of the row -/
  row : Nat
  deriving DecidableEq, Repr

/-- A core: the run in progress, caches, queues and fences. -/
structure CoreSt where
  readyAt : Nat := 0
  group : List ThreadId := []
  runOpen : Bool := false
  lastGroup : List ThreadId := []
  /-- the candidates, as context and PC, in the table by entry, and those in the spill list in the order placed there (R326) -/
  table : Map Nat (Nat × Dword) := []
  spill : List (Nat × Dword) := []
  loaded : Map Nat Loaded := []
  l1 : Map Nat L1St := []
  /-- the homes that granted the lines of the L1 -/
  homes : Map Nat Agent := []
  evict : List Nat := []
  misses : List Miss := []
  holdQ : List Msg := []
  /-- streaming stores and RMWs sent to their homes and not answered (R261, R288) -/
  sent : List Msg := []
  redirs : List Redir := []
  /-- release stores whose requests the core holds until the thread's earlier accesses are performed (R282) -/
  held : List HeldStore := []
  tlb : List Tlb := []
  /-- write-backs that hold banks (R91) -/
  wbHold : List Hold := []
  pipeCFree : Nat := 0
  fence : Nat := 0
  retired : Bool := false
  /-- the cycle since which the matrix unit works without a pattern product, the sub-arrays a corrected error calls one for (R201), and the slot of the
  team that started an operation last (R194) -/
  workSince : Nat := 0
  calls : List Nat := []
  turn : Nat := 63
  /-- the copy of the KV status words: by channel, the context it is bound to and its word (R312) -/
  kvCopy : Map Nat (Nat × Word) := []
  /-- when the copy of the KV status was last refreshed (R312) -/
  kvAt : Nat := 0
  /-- `CINV` (true) and `CWB` on lines that could not be acted on yet, with the home (R253, R297) -/
  cacheOps : List (Nat × Bool × Agent) := []
  /-- contexts whose teams have used the core's storage (R383; log entry 26) -/
  usedBy : List Nat := []
  coreRetired : Bool := false
  /-- rows of the core's stores replaced by spares, and L1 ways disabled (Table 17.11) -/
  spared : Nat := 0
  ways : Nat := 0
  deriving DecidableEq, Repr

/-- A pointer entry that a walk used, in a walker cache: context key, the level of the node it names, the address bits above that node's index,
and the node's package number, die and frame (R388). -/
structure WalkEntry where
  ctx : Nat
  level : Nat
  above : Nat
  hpkg : Nat
  hdie : Nat
  frame : Nat
  deriving DecidableEq, Repr

/-- A forwarding stub (R269). -/
structure Stub where
  key : Nat
  page : Nat
  newPkg : Nat
  newDie : Nat
  newFrame : Nat
  /-- the first physical address of the page it left -/
  start : Nat := 0
  large : Bool := false
  relays : Nat := 0
  lastRelay : Nat := 0
  invalidated : Bool := false
  retiring : Bool := false
  deriving DecidableEq, Repr

/-- A page whose requests a home holds: its first physical address, and the requests, under a freeze, or at its new home until `OPEN` (R268, R273). -/
structure Frozen where
  start : Nat
  large : Bool := false
  held : List Msg := []
  deriving DecidableEq, Repr

/-- A heat counter (R274). -/
structure Heat where
  slice : Nat
  block : Nat
  pkg : Nat
  count : Nat
  deriving DecidableEq, Repr

/-- The units (teams or clusters) of a grid that a package's Skein still holds for one of its dies: those from `next` on whose target the die is, but for those
taken by stealing (R346, R348). -/
structure UnitList where
  grid : Nat
  next : Nat := 0
  taken : List Nat := []
  deriving DecidableEq, Repr

/-- A compute die or the hub die of a package. -/
structure Die where
  now : Nat := 0
  mhz : Nat := 1600
  dir : Map Nat DirEntry := []
  stubs : List Stub := []
  frozen : List Frozen := []
  heat : List Heat := []
  heatCtl : Word := 0x80181000
  heatDecayAt : Nat := 0
  walker : List WalkEntry := []
  bobbin : List Nat := []
  /-- what the Skein holds for the Bobbin, in order of arrival, and the cycle in which the Bobbin last stole (R346, R348) -/
  lists : List UnitList := []
  stealAt : Option Nat := none
  scrub : Nat := 0
  scrubQuietSince : Nat := 0
  scrubbed : Map Nat Nat := []
  /-- ways of L2 slices and directories disabled, rows of the stack remapped, frames retired (Table 17.11) -/
  ways : Map Nat Nat := []
  spared : Nat := 0
  retiredFrames : List Nat := []
  deriving DecidableEq, Repr

/-- The state of a queue (R338, R340, R342). -/
inductive QState where
  | unmapped | mapped | overrun
  deriving DecidableEq, Repr

/-- A registered queue (Table 14.1). -/
structure Queue where
  ring : Dword := 0
  qsz : Nat := 4
  fill : Bool := false
  tickets : Nat := 1
  ctx : Nat := 0
  mapPkg : Nat := 0
  widx : Dword := 0
  ridx : Dword := 0
  r : Nat := 0
  w : Nat := 0
  state : QState := .unmapped
  slot : Nat := 0
  emptySince : Nat := 0
  waitingNotify : Bool := false
  /-- a draw has started its next packet (R344) -/
  started : Bool := false
  floor : Nat := 0
  heldWait : Bool := false
  lastCheck : Nat := 0
  /-- grids launched from the queue and not yet retired -/
  grids : List Nat := []
  deriving DecidableEq, Repr

/-- A work pool (R351). A waiting claim is the operation of its `DQRY`. -/
structure Pool where
  ctx : Nat := 0
  recSize : Nat := 8
  cap : Nat := 16
  records : List (List Byte) := []
  /-- the `PAPP` operation of each record, and the `PCLS` operations of the pool (R352) -/
  givers : List Nat := []
  closers : List Nat := []
  waiting : List Nat := []
  closed : Bool := false
  deriving DecidableEq, Repr

/-- A request at a pool's owner: the operation, and for an append its record (R368). -/
structure PoolReq where
  op : Nat
  handle : Word
  ctx : Nat
  record : List Byte := []
  /-- the requester's scratchpad allocation in bytes, none on a host core (R368) -/
  alloc : Option Nat := none
  off : Dword := 0
  deriving DecidableEq, Repr

/-- KV channel states (Table 12.11). -/
structure KvChan where
  ctx : Nat := 0
  peer : Nat := 0
  state : Nat := 0
  lerr : Nat := 0
  deriving DecidableEq, Repr

/-- Kinds of engine operations (Table 17.9). -/
inductive OpKind where
  | mma | cpy | cpyi | kvx | coll | cgrp | cgrpFree | lnch | papp | dqry | pcls | accld | accst
  deriving DecidableEq, Repr

/-- The life of an engine operation. -/
inductive OpState where
  | queued | active | waitRing | completed (value : Word) | delivered
  deriving DecidableEq, Repr

/-- An engine operation from its instruction to its token (R35, R194, R299). -/
structure Op where
  kind : OpKind
  /-- the operation's own number -/
  num : Nat := 0
  issuer : ThreadId
  team : Nat := 0
  ctx : Nat := 0
  grid : Nat := 0
  core : CoreId := ⟨0, 0, 0⟩
  wave : WaveId
  /-- the number of the issuing wave in its team -/
  wnum : Nat := 0
  tok : Nat := 0
  off : Dword := 0
  epc : Dword := 0
  st : OpState := .queued
  /-- the block or descriptor as accepted (R193, R298) -/
  block : List Byte := []
  done : Nat := 0
  /-- the rows of A and the columns of B of k-chunk `done` read so far: a staging store (R190, R191, R198) -/
  rowsA : List (List Byte) := []
  rowsB : List (List Byte) := []
  /-- handles whose range was written while the operation was pending, with the seed of what it then reads (R197) -/
  taint : List (Nat × Nat) := []
  tiles : List Nat := []
  handles : List Nat := []
  flags : Flags := 0
  /-- the root and whether key 0 may be named, under which the operation translates (R298, R387) -/
  root : Nat × Nat × Nat := (0, 0, 0)
  key0 : Bool := false
  /-- accumulator moves and requests: tile, address, stride, space, handle or channel -/
  tile : Nat := 0
  addr : Dword := 0
  stride : Nat := 0
  glob : Bool := false
  slot : Nat := 0
  /-- the cycle in which a matrix operation started (R194), and whether the pattern product that follows it has passed (R202) -/
  startAt : Option Nat := none
  tested : Bool := false
  acked : Nat := 0
  notified : Bool := false
  regs : List (ThreadId × Dword) := []
  at_ : Nat := 0
  deriving DecidableEq, Repr

/-- A pending request to create a collective group (R313). -/
structure GroupCall where
  members : List Nat
  mask : Nat
  ops : List (Nat × Nat)
  first : Nat
  deriving DecidableEq, Repr

/-- A collective group (R313 to R318). A call is listed as member package and operation, in order of issue. -/
structure Group where
  members : List Nat := []
  planes : List Nat := []
  broken : Bool := false
  freed : List Nat := []
  calls : List (Nat × Nat) := []
  deriving DecidableEq, Repr

/-- A fabric port's link layer (Table 18.1, R421 to R423). `rx` is the flits that have arrived, `tx` those sent, in order. -/
structure Port where
  up : Bool := true
  lanes : Nat := 4
  txSeq : Nat := 0
  /-- data flits sent and not acknowledged: `LSEQ`, class, payload -/
  unacked : List (Nat × Nat × List Byte) := []
  /-- payloads that wait for room at the receiver: class and bytes (R421) -/
  waiting : List (Nat × List Byte) := []
  wseq : Nat := 4095
  peerWm : List Nat := [0, 0, 0]
  rx : List (List Byte) := []
  tx : List (List Byte) := []
  /-- the receiver awaits a flit again, and its last `NACK` (R423) -/
  nacking : Bool := false
  lastNack : Nat := 0
  /-- `NACK`s received for one `LSEQ` -/
  nackFor : Nat := 0
  nacks : Nat := 0
  lastTx : Nat := 0
  /-- payloads accepted in order and handed on -/
  received : List (List Byte) := []
  deriving DecidableEq, Repr

/-- A packet of the end-to-end layer (R425). `payload` names what it carries; `reply` is the stored reply. -/
structure Packet where
  src : Nat
  dst : Nat
  cls : Nat
  eseq : Nat
  epoch : Nat
  pid : Nat := 0
  payload : List Byte := []
  plane : Nat := 0
  sentAt : Nat := 0
  resends : Nat := 0
  isAck : Bool := false
  deriving DecidableEq, Repr

/-- The receiving side of a stream: the applied window and the stored replies (R425, R426). -/
structure Stream where
  expect : Nat := 0
  held : List Packet := []
  applied : List (List Byte) := []
  replies : Map Nat (List Byte) := []
  frozen : Bool := false
  deriving DecidableEq, Repr

/-- A packet not yet acknowledged end to end, on the sending side. -/
structure SendStream where
  next : Nat := 0
  unacked : List Packet := []
  deriving DecidableEq, Repr

/-- A launch held in an aggregator window: its grid and the child's teams (R349). -/
structure Window where
  opened : Nat := 0
  grids : List Nat := []
  closed : Bool := false
  deriving DecidableEq, Repr

/-- A launch waiting at the Skein: the operation of its `LNCH`, with the packet (R344, R367). -/
structure Launch where
  op : Nat
  packet : List Byte
  deriving DecidableEq, Repr

/-- The phases of a quiesce (Table 18.2). -/
inductive QPhase where
  | none | stop | cut | settle | save | record | sweep | rebuild | handler
  deriving DecidableEq, Repr

/-- A TLBI in progress: issuing host core, kind, page and key, packages still to confirm (R379, R390). -/
structure Shootdown where
  host : Option CoreId
  kind : Nat
  va : Dword
  key : Nat
  todo : List Nat
  deriving DecidableEq, Repr

/-- A migration in progress (R268). -/
structure Migration where
  ctx : Nat
  va : Dword
  large : Bool
  oldPkg : Nat
  oldDie : Nat
  oldFrame : Nat
  newPkg : Nat
  newDie : Nat
  newFrame : Nat
  copied : Bool := false
  flipped : Bool := false
  ended : Bool := false
  started : Nat := 0
  deriving DecidableEq, Repr

/-- The system registers of a host core that are not derived (Tables 15.3 to 15.6). -/
structure HostRegs where
  hstat : Dword := 2
  kvec : Dword := 0
  mvec : Dword := 0
  epcK : Dword := 0
  epcM : Dword := 0
  ecauseK : Dword := 0
  ecauseM : Dword := 0
  eaddrK : Dword := 0
  eaddrM : Dword := 0
  kscr : Dword := 0
  mscr : Dword := 0
  hpend : Dword := 0
  hmask : Dword := 0
  hptb : Dword := 0
  deriving DecidableEq, Repr

/-- The redundant-pair descriptor (R433). -/
structure Mirror where
  peer : Nat
  role : Nat
  mbase : Dword
  mlen : Nat
  sbase : Dword
  deriving DecidableEq, Repr

/-- An owner-cache entry: the home that a `REDIRECT` named for a page of 64 KiB, and whether that lies in a large page (R270). -/
structure Owner where
  key : Nat
  page : Nat
  hpkg : Nat
  hdie : Nat
  frame : Nat
  large : Bool := false
  deriving DecidableEq, Repr

/-- A package: identity, map, security engine, Muper, Skein and ports. -/
structure Package where
  pid : Option Nat := none
  num : Nat := 0
  tray : Nat := 0
  n : Nat := 1
  pmap : Map Nat Nat := []
  windows : Map Nat (Nat × Nat) := []
  dropped : Nat := 0
  alive : Bool := true
  -- security engine
  authHash : Option (List Byte) := none
  lastSeq : Option Nat := none
  powerOns : Nat := 0
  bnonce : Dword := 0
  mr : Map Nat (List Byte) := []
  mailbox : List (List Byte) := []
  cmdStatus : Option Nat := none
  quotes : List (List Byte) := []
  -- Muper control complex
  watchdog : Nat := 0
  migQueue : List (List Byte) := []
  messages : List Nat := []
  restarts : Nat := 0
  errorLog : List (EccUnit × Nat × Nat) := []
  /-- self-tests under way: unit and location (R417) -/
  tests : List (EccUnit × Nat) := []
  /-- teams whose pre-emption was refused for want of spool pages (R411) -/
  refusals : List Nat := []
  /-- owner cache, most recently used first (R270) -/
  owners : List Owner := []
  /-- proxy directory: line and the clusters that hold it (R257) -/
  proxy : Map Nat (List Nat) := []
  /-- invalidations a proxy has passed on: line, replies awaited, and who awaits its own (R257) -/
  proxyWait : List (Nat × Nat × Agent) := []
  -- Skein
  lottery : Map Nat Word := []
  rotOrd : Nat := 0
  rotFill : Nat := 0
  lastDraw : Nat := 0
  accepted : List Nat := []
  /-- team lists that could not be passed to another package yet: grid and package (R346) -/
  outbox : List (Nat × Nat) := []
  launches : List Launch := []
  windows_ : List Window := []
  wakes : List Nat := []
  poolReqs : List PoolReq := []
  hankPkg : Nat := 0
  reelPkg : Nat := 0
  -- KV, mirror, partition
  kv : Map Nat KvChan := []
  /-- the context key under which PCIe inbound accesses translate (R432) -/
  bar2Key : Nat := 0
  mirror : Option Mirror := none
  mirrorQ : List (Nat × List Byte × CoreId) := []
  epoch : Nat := 0
  /-- the last phase of a quiesce that has ended here, and a `QUIESCE` not yet taken up, with its epoch (R427) -/
  phase : QPhase := .none
  quiesce : Option Nat := none
  ports : Map Nat Port := []
  send : Map (Nat × Nat) SendStream := []
  recv : Map (Nat × Nat) Stream := []
  deriving DecidableEq, Repr

/-- The machine. -/
structure State where
  -- the model's own fields (log entries 5 to 7)
  focus : CoreId := ⟨0, 8, 0⟩
  agenda : List Instr := []
  free : Nat := 0
  nextId : Nat := 1
  /-- the history of accesses, the latest first, the number of the next event, and the loads on which registers depend (R229 to R249; log entry 3) -/
  trace : List Ev := []
  nextEv : Nat := 0
  deps : Map (Who × DepReg) (List Nat) := []
  /-- the token registers whose value their issuing thread has not read yet, with the operation (R245) -/
  tokens : Map (Who × Nat) Nat := []
  /-- the first event of the memory word whose accesses are being made (R232) -/
  wordEv : Nat := 0
  -- the part
  mem : List Host.Cell := []
  poison : List Nat := []
  threads : Map ThreadId Thread := []
  waves : Map WaveId Wave := []
  teams : Map Nat Team := []
  grids : Map Nat Grid := []
  contexts : Map Nat Context := []
  cores : Map CoreId CoreSt := []
  dies : Map (Nat × Nat) Die := []
  pkgs : Map Nat Package := []
  hosts : Map CoreId HostRegs := []
  ops : Map Nat Op := []
  net : Map Nat Msg := []
  packets : Map Nat Packet := []
  queues : Map Nat Queue := []
  pools : Map Nat Pool := []
  groupCalls : Map Nat GroupCall := []
  groups : Map Nat Group := []
  shootdowns : Map Nat Shootdown := []
  migrations : Map Nat Migration := []
  /-- spool images in use: context and base virtual address, first page and pages (R411, R414) -/
  images : Map (Nat × Nat) (Nat × Nat) := []
  /-- packages lost in the current quiesce (R427) -/
  lost : List Nat := []
  /-- packages reported lost to the fabric manager, and whether a machine check was raised (R398, R427) -/
  reports : List Nat := []
  mcheck : Bool := false
  /-- stores abandoned by a quiesce: checkpoint entries of Table 18.4 per context (R429) -/
  unacked : List (Nat × List Byte) := []
  deriving DecidableEq, Repr

/-- The machine right after reset: every package alone, no context, no team; host core 0 of package 0 moves first. Every
record not listed is the reset record above. -/
def State.reset : State := {}

end Sys2Proof.Machine
end

