-- ==== Sys2Proof/Machine/Order.lean ====
section
/-! DEFINITION. The memory model (R17, R229 to R250, R317): scope instances, ordered-before, synchronizes-with, happens-before, what a load may return, and the
total orders of strong accesses, over a history of events. -/

namespace Sys2Proof.Machine
namespace Order

-- scopes (R17, R233)

def rank : Scope → Nat
  | .core => 0 | .die => 1 | .pkg => 2 | .tray => 3 | .rack => 4
def narrower (a b : Scope) : Scope := if rank a ≤ rank b then a else b
/-- A scope as an agent means it: for an agent of its package alone the `core` and `die` instances are the `pkg` instance (R17). -/
def meant (a : Place) (s : Scope) : Scope := if a.hub && rank s < 2 then .pkg else s
/-- `b` is in inst(`a`, `s`) (Table 1.5, R233). -/
def inst (a : Place) (s : Scope) (b : Place) : Bool :=
  match meant a s with
  | .core => !b.hub && a.part = b.part && a.pkg = b.pkg && a.die = b.die && a.core = b.core
  | .die => !b.hub && a.part = b.part && a.pkg = b.pkg && a.die = b.die
  | .pkg => a.part = b.part && a.pkg = b.pkg
  | .tray => a.part = b.part && a.tray = b.tray
  | .rack => a.part = b.part
/-- A scope instance, named by an agent and a scope. -/
abbrev Inst := Place × Scope
/-- inst(`a`, `s`) contains an instance: instances nest (R233). -/
def contains (a : Place) (s : Scope) (i : Inst) : Bool := inst a s i.1 && rank (meant i.1 i.2) ≤ rank (meant a s)
/-- The one name of an instance, whatever agent of it names it. -/
def canon (a : Place) (s : Scope) : Inst :=
  let s := meant a s
  let r := rank s
  ({ part := a.part, tray := if r ≤ 3 then a.tray else 0, pkg := if r ≤ 2 then a.pkg else 0, die := if r ≤ 1 then a.die else 0, core := if r = 0 then a.core else 0 }, s)
/-- Accesses at scopes `s` and `t` are mutually in scope (R233); a weak access is mutually in scope with nothing. -/
def inScope (a b : Place) (s t : Option Scope) : Bool :=
  match s, t with
  | some s, some t => inst a s b && inst b t a
  | _, _ => false

-- events

def reads (e : Ev) : Bool := e.kind = .load || e.kind = .rmw
def writes (e : Ev) : Bool := e.kind = .store || e.kind = .rmw
def access (e : Ev) : Bool := reads e || writes e
def strong (e : Ev) : Bool := e.scp.isSome
def acquires (e : Ev) : Bool := strong e && (e.ord = .acq || e.ord = .acqrel)
def releases (e : Ev) : Bool := strong e && (e.ord = .rel || e.ord = .acqrel)
def scopeOf (e : Ev) : Scope := e.scp.getD .core
def isFence (e : Ev) : Bool := e.kind = .fence
/-- A byte of a place. -/
def byteAt (l : Loc) (k : Nat) : Loc :=
  match l with
  | .mem a => .mem (a + k) | .scr t o => .scr t (o + k) | .win t n b => .win t n (b + k)
def bytesOf (e : Ev) : List Loc := (List.range e.len).map (byteAt e.base)
/-- Which byte of an event a location is. -/
def idx (e : Ev) (l : Loc) : Option Nat :=
  let k : Option Nat := match e.base, l with
    | .mem a, .mem b => if a ≤ b then some (b - a) else none
    | .scr t a, .scr u b => if t = u ∧ a ≤ b then some (b - a) else none
    | .win t n a, .win u m b => if t = u ∧ n = m ∧ a ≤ b then some (b - a) else none
    | _, _ => none
  k.bind fun k => if k < e.len then some k else none
def touches (e : Ev) (l : Loc) : Bool := access e && (idx e l).isSome
def common (x y : Ev) : Bool := (bytesOf x).any (touches y)
/-- The store that a read byte comes from. -/
def sourceAt (e : Ev) (l : Loc) : Option Nat := (idx e l).bind fun k => (e.rf[k]?).join
/-- The place of a store in the coherence order, counted from 1; the initial value stands before all (R234). -/
def coOf (tr : List Ev) (n : Option Nat) : Nat := (n.bind fun n => (tr.find? (·.id = n)).map (·.co + 1)).getD 0

-- ordered-before (R235, R237, R245 to R249, R317, R352, R416)

/-- A `PFEN` that names both paths (R244). -/
def joins (e : Ev) (p q : Path) : Bool := e.kind = .pfen p q || e.kind = .pfen q p
/-- The reader's thread of a load: for an engine the thread that issued its instruction, and the number of the event before which a `PFEN` must stand (R244). -/
def reader (tr : List Ev) (l : Ev) : Who × Nat :=
  match l.who with
  | .engine n => match tr.find? (·.kind = .start n) with | some e => (e.who, e.id) | none => (l.who, l.id)
  | w => (w, l.id)

/-- X is ordered-before Y: an edge whose scope's instance, taken from its agent, contains an instance; with none, at any scope (Table 10.2). Fences, arrivals and the
points where operations and grids begin and end are events of their own, through which their rows compose. `ACCLD` and `ACCST` stand in order with every access of
their thread (R227). -/
def ob (tr : List Ev) (i : Option Inst) (x y : Ev) : Bool :=
  let ok (e : Ev) (s : Scope) : Bool := i.elim true (contains e.place s)
  let po := x.who = y.who && x.id < y.id && (match x.who with | .engine _ => false | _ => true)
  let path := x.path = y.path || y.unified || tr.any fun e => e.who = x.who && x.id < e.id && e.id < y.id && joins e x.path y.path
  let entry (e : Ev) : Bool := match e.kind with | .start _ | .pfen _ _ | .restore => true | _ => false
  let exit_ (e : Ev) : Bool := match e.kind with | .token _ | .restore => true | _ => false
  let mx : Bool := (x.path = .mx || y.path = .mx) && (match x.who with | .thread .. | .host _ => true | _ => false)
  let arrive : Bool := match y.kind with | .arrive .. => true | _ => false
  let leave : Bool := match x.kind with | .leave .. => true | _ => false
  (po &&
    ((access x && access y && common x y && path)
      || (reads x && writes y && y.deps.contains x.id)
      || (reads x && acquires x && ok x (scopeOf x))
      || (writes y && releases y && ok y (scopeOf y))
      || (isFence y && ok y (scopeOf y) && (releases y || (acquires y && reads x)))
      || (isFence x && ok x (scopeOf x) && (acquires x || (releases x && writes y)))
      || (arrive && ok y .core) || (leave && ok x .core)
      || mx || entry y || exit_ x))
  || (y.sig ≠ [] && x.id < y.id && (access x || entry x || exit_ x) && y.sig.contains x.grid && (match x.who with | .hub _ => false | _ => true) && ok y (scopeOf y))
  || (match x.kind, y.kind with
      | .start n, .coll ns | .start n, .gives ns _ => ns.contains n && ok x .rack
      | .coll ns, .token n => ns.contains n && ok y .rack
      | .gives _ m, .token n => n = m && ok y .rack
      | .resume k, _ => y.ctx = some k && x.id < y.id && ok y .rack
      | _, .resume k => x.ctx = some k && x.id < y.id && ok x .rack
      | _, _ => false)

/-- Edges that no scope limits: of an engine operation with its issuer, of a launch with its grid, and of a barrier's phase (R237, R245, R246). -/
def joined (x y : Ev) : Bool :=
  (match x.kind, y.who with | .start n, .engine m => n = m && access y | _, _ => false)
  || (match x.who, y.kind with | .engine n, .token m => n = m && access x | _, _ => false)
  || (match x.kind, y.kind with | .start n, .launch _ (some m) => n = m | _, _ => false)
  || (match x.kind with | .launch g _ => y.grid = g && x.id < y.id && (match y.who with | .hub _ => false | _ => true) | _ => false)
  || (match x.kind, y.kind with | .arrive t b p, .leave u c q => t = u && b = c && p = q | _, _ => false)

-- synchronizes-with (R236)

/-- A load reads a store, or an RMW of the release sequence that begins with it. -/
def readsFrom (tr : List Ev) (w l : Ev) : Bool :=
  (bytesOf l).any fun b => touches w b && chain b tr.length (sourceAt l b)
where
  chain (b : Loc) : Nat → Option Nat → Bool
    | 0, _ => false
    | _, none => false
    | fuel + 1, some n => n = w.id || (tr.find? (·.id = n)).elim false fun r => r.kind = .rmw && chain b fuel (sourceAt r b)
/-- The stores for which an event is the release side, with the release scope. -/
def releaseSide (tr : List Ev) (x : Ev) : List (Ev × Scope) :=
  if isFence x then
    if releases x then (tr.filter fun w => w.who = x.who && x.id < w.id && writes w && strong w && !releases w).map fun w => (w, narrower (scopeOf x) (scopeOf w)) else []
  else if writes x && releases x then [(x, scopeOf x)] else []
/-- The loads for which an event is the acquire side, with the acquire scope. -/
def acquireSide (tr : List Ev) (y : Ev) : List (Ev × Scope) :=
  if isFence y then
    if acquires y then (tr.filter fun l => l.who = y.who && l.id < y.id && reads l && strong l && !acquires l).map fun l => (l, narrower (scopeOf y) (scopeOf l)) else []
  else if reads y && acquires y then [(y, scopeOf y)] else []
/-- X synchronizes with Y. -/
def sw (tr : List Ev) (x y : Ev) : Bool :=
  (releaseSide tr x).any fun (w, s) => (acquireSide tr y).any fun (l, t) => readsFrom tr w l && inst w.place s l.place && inst l.place t w.place

-- happens-before (R238)

/-- One edge of hb, or of hb(I). -/
def edge (tr : List Ev) (i : Option Inst) (x y : Ev) : Bool := ob tr i x y || sw tr x y || joined x y
/-- The events from which some event of a set is reached. -/
def back (tr : List Ev) (e : Ev → Ev → Bool) : Nat → List Ev → List Ev
  | 0, ys => ys
  | fuel + 1, ys =>
    let more := tr.filter fun x => !ys.any (·.id = x.id) && ys.any fun y => e x y
    if more = [] then ys else back tr e fuel (more ++ ys)
/-- The events that happen before an event. -/
def before (tr : List Ev) (i : Option Inst) (y : Ev) : List Ev :=
  let first := tr.filter fun x => edge tr i x y
  back tr (edge tr i) tr.length first

/-- A store on another path counts against a load only where the reader's thread has executed a `PFEN` that names both paths after it (R244). -/
def counts (tr : List Ev) (hb : Ev → List Ev) (w l : Ev) : Bool :=
  let r := reader tr l
  l.unified || w.path = l.path || tr.any fun f => f.who = r.1 && f.id < r.2 && joins f w.path l.path && (hb f).any (·.id = w.id)

-- what a load returns (R239 to R241)

/-- The three conditions of R239 on every byte of a load; `hb` gives what happens before an event. -/
def loadOk (tr : List Ev) (hb : Ev → List Ev) (l : Ev) : Bool :=
  let h := hb l
  (bytesOf l).all fun b =>
    let src := sourceAt l b
    let place := coOf tr src
    let own := tr.filter fun w => some w.id = src
    own.all (fun w => !(hb w).any (·.id = l.id) && !(w.who = l.who && l.id < w.id && (match l.who with | .engine _ => false | _ => true)))
      && (h.all fun w => !(writes w && touches w b && place < w.co + 1 && w.id ≠ l.id && counts tr hb w l))
      && (h.all fun k => !(reads k && touches k b && place < coOf tr (sourceAt k b)))
/-- An RMW reads the store immediately before its own write (R234). -/
def rmwOk (tr : List Ev) (e : Ev) : Bool :=
  e.kind ≠ .rmw || (bytesOf e).all fun b => tr.all fun w =>
    !(writes w && touches w b && w.id ≠ e.id && decide (coOf tr (sourceAt e b) < w.co + 1) && decide (w.co < e.co))
/-- Stores of one byte that happens-before orders stand so in the coherence order. -/
def coOk (hb : Ev → List Ev) (w : Ev) : Bool :=
  !writes w || (hb w).all fun v => !(writes v && common v w && decide (w.co < v.co) && (v.path = w.path || w.unified))

/-- Single-copy atomicity (R231): of the bytes that a load shares with a store, all come from it or a later one, or none. -/
def atomicOk (tr : List Ev) (l : Ev) : Bool :=
  l.bytewise || tr.all fun w => !(writes w && !w.bytewise && w.id ≠ l.id) ||
    (let newer := ((bytesOf l).filter (touches w)).map fun b => decide (w.co < coOf tr (sourceAt l b))
     newer.all id || !newer.any id)
/-- Stores by the lanes of one word to one byte take their places in lane order (R232). -/
def laneOk (tr : List Ev) (w : Ev) : Bool :=
  !writes w || w.word.isNone || tr.all fun v => !(writes v && v.word = w.word && v.id < w.id && common v w) || decide (v.co < w.co)

/-- Members of V(I): strong accesses of agents of I at a scope whose instance contains I (R240). -/
def members (tr : List Ev) (i : Inst) : List Ev := tr.filter fun e => access e && strong e && inst i.1 i.2 e.place && contains e.place (scopeOf e) i
/-- X stands before Y in V(I): by hb(I), by coherence order, as the store that Y returns, or as a load that returned a store older than Y. -/
def vEdge (tr : List Ev) (hb hbI : Ev → List Ev) (x y : Ev) : Bool :=
  ((hbI y).any (·.id = x.id) && !(writes x && reads y && !counts tr hb x y))
  || (bytesOf x).any fun b => touches y b &&
    ((writes x && writes y && decide (x.co < y.co)) || (reads y && sourceAt y b = some x.id)
      || (reads x && writes y && x.id ≠ y.id && decide (coOf tr (sourceAt x b) < y.co + 1)))
/-- V(I) exists: its edges have no cycle. -/
def totalOk (tr : List Ev) (hb : Ev → List Ev) (i : Inst) : Bool :=
  let m := members tr i
  let memo := m.map fun e => (e.id, before tr (some i) e)
  let hbI (e : Ev) : List Ev := ((memo.find? (·.1 = e.id)).map (·.2)).getD []
  m.all fun e => !(back m (vEdge tr hb hbI) m.length (m.filter fun x => vEdge tr hb hbI x e)).any (·.id = e.id)
/-- Dependencies and reads-from have no cycle (R241). -/
def thinAirOk (tr : List Ev) : Bool :=
  let e (x y : Ev) : Bool := (reads x && writes y && y.deps.contains x.id) || (reads y && y.rf.contains (some x.id))
  tr.all fun y => !(back tr e tr.length (tr.filter fun x => e x y)).any (·.id = y.id)

/-- A history that the memory model allows (R231, R232, R234, R238 to R241, R244). -/
def consistent (tr : List Ev) : Bool :=
  let memo := tr.map fun e => (e.id, before tr none e)
  let hb (e : Ev) : List Ev := ((memo.find? (·.1 = e.id)).map (·.2)).getD []
  let insts := (tr.flatMap fun e => [Scope.core, .die, .pkg, .tray, .rack].map (canon e.place)).eraseDups
  tr.all (fun e => !(hb e).any (·.id = e.id) && (!reads e || (loadOk tr hb e && atomicOk tr e)) && rmwOk tr e && coOk hb e && laneOk tr e)
    && thinAirOk tr && insts.all (totalOk tr hb)

/-- Two accesses race (R242). -/
def races (tr : List Ev) (x y : Ev) : Bool :=
  x.who ≠ y.who && common x y && (writes x || writes y) && !(before tr none y).any (·.id = x.id) && !(before tr none x).any (·.id = y.id)
    && !inScope x.place y.place x.scp y.scp

end Order
end Sys2Proof.Machine
end

