-- ==== Sys2Proof/Machine/Shape.lean ====
section
/-! DEFINITION. The shape of every instruction word: opcode, what each field holds, which codes a field accepts (Table 3.2,
Table 3.9, Tables 7.x, 9.1, 12.1, 15.1). Decoding, encoding, well-formedness and the allotment check read it. -/

namespace Sys2Proof

/-- Which source codes a field accepts, with the operand's type (R58, R141, R178, R179, R278, R353). -/
inductive SK where
  /-- any source code of Table 3.5 -/
  | any (t : OTy)
  /-- an s code, an immediate, `LIT` or `vz` -/
  | uni (t : OTy)
  /-- a v or s code -/
  | vs (t : OTy)
  /-- a v or s code or `vz` -/
  | vsz (t : OTy)
  /-- an immediate or `LIT` -/
  | immLit
  /-- the data of `ST`: no `LIT` (R282) -/
  | data (t : OTy)
  /-- an even v pair, an immediate or `LIT` (`SIGW`, R363) -/
  | pairImm
  deriving DecidableEq, Repr

/-- What a source field holds. -/
inductive SFld where
  | zero
  | src (x : SrcD) (k : SK)
  | pred (n : Nat)
  | emod (bits : Nat)
  /-- an s code, aligned -/
  | sreg (n align : Nat)
  /-- a v span of `count` registers from a multiple of `align` -/
  | span (n count align : Nat) (dead : Bool)
  deriving DecidableEq, Repr

/-- What the destination field holds. `regs` is the width in registers. -/
inductive DFld where
  | zero
  | reg (d : Dst) (regs : Nat) (allowS allowVz : Bool)
  | pred (n : Nat)
  | sreg (n align : Nat)
  | vreg (n align : Nat)
  | span (n count align : Nat)
  | data (x : Src) (t : OTy)
  deriving DecidableEq, Repr

/-- The shape of a full word. `disp` replaces SA, SB and SC in `BRA` and `CALL` (R355). -/
structure Shape where
  opc : Nat
  hdr : Hdr
  dst : DFld := .zero
  sa : SFld := .zero
  sb : SFld := .zero
  sc : SFld := .zero
  mod : Nat := 0
  disp : Option Int := none
  /-- modifiers and types are defined for the opcode -/
  ok : Bool := true
  /-- HOLD may be nonzero with a v or `vz` destination -/
  hold : Bool := false
  /-- the long-latency class -/
  long : Bool := false
  deriving DecidableEq, Repr

/-- Width in bits of an operand type (Tables 6.1, 6.2). -/
def OTy.width : OTy → Nat
  | .i32 | .n32 | .b32 | .f32 => 32
  | .i64 | .n64 | .b64 | .f64 => 64
  | .i16 | .n16 | .f16 | .bf16 => 16
  | .i8 | .n8 | .e4m3 | .e5m2 => 8
  | .e2m1 => 4
  | .b128 => 128

/-- Registers an operand type takes (R28, R281). -/
def OTy.regs (t : OTy) : Nat := if t.width = 64 then 2 else if t.width = 128 then 4 else 1

/-- Signed integer types. -/
def OTy.signed : OTy → Bool
  | .i32 | .i64 | .i16 | .i8 => true
  | _ => false

/-- The integer class of MOD (Table 3.4), with `.b128` of R281. -/
def OTy.mod : OTy → Nat
  | .i32 => 0 | .n32 => 1 | .i64 => 2 | .n64 => 3 | .i16 => 4 | .n16 => 5 | .i8 => 6 | .n8 => 7
  | .b32 => 8 | .b64 => 9 | .b128 => 10 | _ => 15

/-- The operand type of a floating format. -/
def FFmt.ty : FFmt → OTy
  | .f32 => .f32 | .f16 => .f16 | .bf16 => .bf16 | .f64 => .f64 | .e4m3 => .e4m3 | .e5m2 => .e5m2 | .e2m1 => .e2m1

/-- The floating class of MOD (Table 3.3). -/
def FFmt.mod : FFmt → Nat
  | .f32 => 0 | .f16 => 1 | .bf16 => 2 | .f64 => 3 | _ => 7
def Rnd.mod : Rnd → Nat
  | .rne => 0 | .rz => 4 | .rd => 8 | .ru => 12

/-- Conversion type codes (Table 7.9). -/
def OTy.cvt : OTy → Nat
  | .i8 => 0 | .n8 => 1 | .i16 => 2 | .n16 => 3 | .i32 => 4 | .n32 => 5 | .i64 => 6 | .n64 => 7
  | .f16 => 8 | .bf16 => 9 | .f32 => 10 | .f64 => 11 | .e4m3 => 12 | .e5m2 => 13 | .e2m1 => 14 | _ => 15

/-- Format codes of `CVPK` and `CVUP` (R167). -/
def FFmt.pack : FFmt → Nat
  | .f16 => 0 | .bf16 => 1 | .e4m3 => 2 | .e5m2 => 3 | .e2m1 => 4 | _ => 7

def ICc.code : ICc → Nat
  | .eq => 0 | .ne => 1 | .lt => 2 | .le => 3 | .gt => 4 | .ge => 5
def FCc.code : FCc → Nat
  | .eq => 0 | .ne => 1 | .lt => 2 | .le => 3 | .gt => 4 | .ge => 5 | .num => 6 | .nan => 7
def Seg.code : Seg → Nat
  | .seg32 => 0 | .seg16 => 1 | .seg8 => 2 | .seg4 => 3 | .seg2 => 4
def PcolOp.code : PcolOp → Nat
  | .some => 0 | .every => 1 | .same => 2 | .mask => 3 | .count => 4
def LredOp.code : LredOp → Nat
  | .add => 0 | .min => 1 | .max => 2 | .and => 3 | .or => 4 | .xor => 5 | .fadd => 6
def MxrFmt.code : MxrFmt → Nat
  | .bf16 => 0 | .f16 => 1 | .e4m3 => 2 | .e5m2 => 3
def MxrFmt.wide : MxrFmt → Bool
  | .bf16 | .f16 => true
  | _ => false
def Space.code : Space → Nat
  | .g => 0 | .l => 1 | .c => 2 | .k => 3 | .w => 4 | .s => 5
def Ord.code : Ord → Nat
  | .rlx => 0 | .acq => 1 | .rel => 2 | .acqrel => 3
def Scope.code : Scope → Nat
  | .core => 1 | .die => 2 | .pkg => 3 | .tray => 4 | .rack => 5
def AtomOp.code : AtomOp → Nat
  | .add => 0 | .mins => 1 | .maxs => 2 | .minu => 3 | .maxu => 4 | .and => 5 | .or => 6 | .xor => 7 | .exch => 8
  | .fadd => 9 | .fmin => 10 | .fmax => 11 | .inc => 12
/-- The type of an atomic's operand (Table 12.5). `.add`, `.and`, `.or`, `.xor` and `.exch` take several types under one encoding; their operand is read as a bit
pattern, so that a 64-bit literal is sign-extended (log entry 42, DESIGN CHOICE). -/
def AtomOp.ty (op : AtomOp) (wide : Bool) : OTy :=
  match op with
  | .add | .and | .or | .xor | .exch => if wide then .b64 else .b32
  | .mins | .maxs => if wide then .i64 else .i32
  | .minu | .maxu | .inc => if wide then .n64 else .n32
  | .fadd | .fmin | .fmax => if wide then .f64 else .f32
def Path.code : Path → Nat
  | .ls => 0 | .kc => 1 | .cp => 2 | .mx => 3 | .cl => 4 | .kv => 5
def PrefLvl.code : PrefLvl → Nat
  | .l1 => 0 | .l1x => 1 | .l2 => 2
def SigCc.code : SigCc → Nat
  | .ge => 0 | .eq => 1 | .ne => 2
/-- Offsets of the context registers (Table 2.4). -/
def CtxReg.offset : CtxReg → Nat
  | .ctxFlags => 0x00 | .fairPeriod => 0x04 | .leaseMax => 0x08 | .schedSeed => 0x0C | .storeSplit => 0x10
  | .trapQueue => 0x18 | .spoolBase => 0x20 | .chkHandler => 0x28
/-- Numbers of the system registers (Table 15.3). -/
def SysReg.num : SysReg → Nat
  | .hstat => 0 | .hcore => 1 | .kvec => 2 | .mvec => 3 | .epcK => 4 | .epcM => 5 | .ecauseK => 6 | .ecauseM => 7
  | .eaddrK => 8 | .eaddrM => 9 | .kscr => 10 | .mscr => 11 | .hpend => 12 | .hmask => 13 | .hptb => 14 | .htime => 15

/-- The memory-class EMOD, with bit 8 given apart (Table 12.2). -/
def MOp.emod (m : MOp) (bit8 : Bool) : Nat :=
  m.spc.code + 8 * m.ord.code + 32 * (m.scp.elim 0 Scope.code) + (if bit8 then 256 else 0)

/-- A 64-bit address space (Table 2.3). -/
def Space.wide : Space → Bool
  | .g | .k | .s => true
  | _ => false

namespace Shape

def int8to64 (t : OTy) : Bool := t.mod ≤ 7
def int32or64 (t : OTy) : Bool := t.mod ≤ 3
def bits3264 (t : OTy) : Bool := t.mod = 8 || t.mod = 9
def six (t : OTy) : Bool := t.mod ≤ 3 || t.mod = 8 || t.mod = 9
def intClass (t : OTy) : Bool := t.mod ≤ 9
def flt4 (f : FFmt) : Bool := f.mod ≤ 3
def flt3 (f : FFmt) : Bool := f.mod ≤ 2
def b2n (b : Bool) : Nat := if b then 1 else 0

/-- A result register of a pipe A, B or C instruction (R141). -/
def out (d : Dst) (t : OTy) : DFld := .reg d t.regs true true
/-- A result register of a lane-exchange instruction. -/
def outD (d : Dst) (t : OTy) : DFld := .reg d t.regs false true
def src (a : SrcD) (t : OTy) : SFld := .src a (.any t)

def un (opc : Nat) (h : Hdr) (t tr : OTy) (d : Dst) (a : SrcD) (mod : Nat) (ok : Bool) (emod : Option Nat := none) : Shape :=
  { opc, hdr := h, dst := out d tr, sa := src a t, sc := emod.elim .zero .emod, mod, ok, hold := true }
def bin (opc : Nat) (h : Hdr) (t tb tr : OTy) (d : Dst) (a b : SrcD) (mod : Nat) (ok : Bool) (emod : Option Nat := none) : Shape :=
  { opc, hdr := h, dst := out d tr, sa := src a t, sb := src b tb, sc := emod.elim .zero .emod, mod, ok, hold := true }
def tri (opc : Nat) (h : Hdr) (t tb tc tr : OTy) (d : Dst) (a b c : SrcD) (mod : Nat) (ok : Bool) : Shape :=
  { opc, hdr := h, dst := out d tr, sa := src a t, sb := src b tb, sc := src c tc, mod, ok, hold := true }

/-- Scalar destinations take an s code or `vz`: a v code is refused by `Dst` being checked apart (R179). -/
def sun (opc : Nat) (h : Hdr) (t : OTy) (d : Dst) (a : SrcD) (ok : Bool) (emod : Option Nat := none) : Shape :=
  { opc, hdr := h, dst := out d t, sa := .src a (.uni t), sc := emod.elim .zero .emod, mod := t.mod, ok }
def sbin (opc : Nat) (h : Hdr) (t tb : OTy) (d : Dst) (a b : SrcD) (ok : Bool) (emod : Option Nat := none) : Shape :=
  { opc, hdr := h, dst := out d t, sa := .src a (.uni t), sb := .src b (.uni tb), sc := emod.elim .zero .emod, mod := t.mod, ok }

/-- Combinations of Table 12.3. -/
def weakOk (m : MOp) : Bool := m.scp.isNone && m.ord = .rlx
def strong (m : MOp) (os : List Ord) : Bool := m.scp.isSome && os.contains m.ord
def spcIn (m : MOp) (ss : List Space) : Bool := ss.contains m.spc

/-- The base of a memory address (R278). -/
def base (m : MOp) (b : SrcD) : SFld := if m.spc.wide then .src b (.vs .b64) else .src b (.vsz .b32)

def fun1 (opc : Nat) (h : Hdr) (d : Dst) (a : SrcD) : Shape := { un opc h .f32 .f32 d a 0 true with long := true }
def lanex (opc : Nat) (h : Hdr) (t : OTy) (g : Seg) (d : Dst) (a b : SrcD) : Shape :=
  { opc, hdr := h, dst := outD d t, sa := src a t, sb := src b .b32, sc := .emod g.code, mod := t.mod, ok := bits3264 t,
    hold := true, long := true }
def tokOp (opc : Nat) (h : Hdr) (tok : Nat) (off : SrcD) : Shape :=
  { opc, hdr := h, dst := .sreg tok 1, sa := src off .b32 }
def ctl (opc : Nat) (h : Hdr) (mod : Nat := 0) : Shape := { opc, hdr := h, mod }
def ctxw (h : Hdr) (op : Nat) (d : Dst) (a b : SrcD) (off : Nat) : Shape :=
  { opc := 0x1E7, hdr := h, dst := .reg d 2 true false, sa := src a (if op = 1 ∨ op = 3 then .b64 else .b32), sb := src b .b64,
    sc := .emod off, mod := op }

end Shape

open Shape in
/-- The shape of an instruction word; `none` for pair words, unassigned words and events. -/
def Instr.shape : Instr → Option Shape
  | .nop => some { opc := 0, hdr := ⟨⟨false, 7⟩, none, 0⟩ }
  | .iadd h t sat d a b => some (bin 0x001 h t t t d a b t.mod (int8to64 t) (some (b2n sat)))
  | .isub h t sat d a b => some (bin 0x002 h t t t d a b t.mod (int8to64 t) (some (b2n sat)))
  | .imul h t sat d a b => some (bin 0x003 h t t t d a b t.mod (int8to64 t) (some (b2n sat)))
  | .imulh h t d a b => some (bin 0x004 h t t t d a b t.mod (int8to64 t) (some 0))
  | .imad h t d a b c => some (tri 0x005 h t t t t d a b c t.mod (int8to64 t))
  | .imin h t d a b => some (bin 0x006 h t t t d a b t.mod (int8to64 t) (some 0))
  | .imax h t d a b => some (bin 0x007 h t t t d a b t.mod (int8to64 t) (some 0))
  | .iabs h t sat d a => some (un 0x008 h t t d a t.mod (int8to64 t) (some (b2n sat)))
  | .ineg h t sat d a => some (un 0x009 h t t d a t.mod (int8to64 t) (some (b2n sat)))
  | .idif h t d a b => some (bin 0x00A h t t t d a b t.mod (int8to64 t) (some 0))
  | .isad h t d a b c => some (tri 0x00B h t t t t d a b c t.mod (int8to64 t))
  | .and h t d a b => some (bin 0x010 h t t t d a b t.mod (bits3264 t))
  | .or h t d a b => some (bin 0x011 h t t t d a b t.mod (bits3264 t))
  | .xor h t d a b => some (bin 0x012 h t t t d a b t.mod (bits3264 t))
  | .not h t d a => some (un 0x013 h t t d a t.mod (bits3264 t))
  | .andn h t d a b => some (bin 0x014 h t t t d a b t.mod (bits3264 t))
  | .shl h t d a b => some (bin 0x015 h t .b32 t d a b t.mod (bits3264 t))
  | .shr h t d a b => some (bin 0x016 h t .b32 t d a b t.mod (bits3264 t))
  | .sar h t d a b => some (bin 0x017 h t .b32 t d a b t.mod (bits3264 t))
  | .rol h t d a b => some (bin 0x018 h t .b32 t d a b t.mod (bits3264 t))
  | .bfx h t d a f => some (bin 0x019 h t .b32 t d a f t.mod (int32or64 t))
  | .bfi h t d a b f => some (tri 0x01A h t t .b32 t d a b f t.mod (bits3264 t))
  | .popc h t d a => some (un 0x01B h t .b32 d a t.mod (bits3264 t))
  | .clz h t d a => some (un 0x01C h t .b32 d a t.mod (bits3264 t))
  | .brev h t d a => some (un 0x01D h t t d a t.mod (bits3264 t))
  | .ffs h t d a => some (un 0x01E h t .b32 d a t.mod (bits3264 t))
  | .bysel h d a b c => some (tri 0x01F h .b32 .b32 .b32 .b32 d a b c 8 true)
  | .icmp h cc t p a b => some { opc := 0x020, hdr := h, dst := .pred p, sa := src a t, sb := src b t, sc := .emod cc.code, mod := t.mod, ok := intClass t }
  | .sel h t d a b pc => some { bin 0x021 h t t t d a b t.mod (bits3264 t) with sc := .pred pc }
  | .plop h pd pa pb tt => some { opc := 0x022, hdr := h, dst := .pred pd, sa := .pred pa, sb := .pred pb, sc := .emod tt, ok := tt < 16 }
  | .lea h n32 k d a b c => some (tri 0x023 h .b64 .b32 .i32 .b64 d a b c (k + 8 * b2n n32) (k < 8))
  | .mov h t d a => some (un 0x024 h t t d a t.mod (intClass t) (some 0))
  | .movFlg h d a => some (un 0x024 h .b32 .b32 d a 8 true (some 1))
  | .ocl h k n dead => some { opc := 0x025, hdr := h, sa := .span n 1 1 dead, mod := k, ok := k < 8 }
  | .fadd h f r sat d a b => some (bin 0x040 h f.ty f.ty f.ty d a b (f.mod + r.mod) (flt4 f) (some (b2n sat)))
  | .fsub h f r sat d a b => some (bin 0x041 h f.ty f.ty f.ty d a b (f.mod + r.mod) (flt4 f) (some (b2n sat)))
  | .fmul h f r sat d a b => some (bin 0x042 h f.ty f.ty f.ty d a b (f.mod + r.mod) (flt4 f) (some (b2n sat)))
  | .ffma h f r d a b c => some (tri 0x043 h f.ty f.ty f.ty f.ty d a b c (f.mod + r.mod) (flt4 f))
  | .fmin h f d a b => some (bin 0x044 h f.ty f.ty f.ty d a b f.mod (flt3 f))
  | .fmax h f d a b => some (bin 0x045 h f.ty f.ty f.ty d a b f.mod (flt3 f))
  | .fabs h f d a => some (un 0x046 h f.ty f.ty d a f.mod (flt3 f))
  | .fneg h f d a => some (un 0x047 h f.ty f.ty d a f.mod (flt3 f))
  | .fcmp h cc f p a b => some { opc := 0x048, hdr := h, dst := .pred p, sa := src a f.ty, sb := src b f.ty, sc := .emod cc.code, mod := f.mod, ok := flt3 f }
  | .fcls h f d a => some (un 0x049 h f.ty .b32 d a f.mod (flt3 f))
  | .ffrc h f d a => some (un 0x04A h f.ty f.ty d a f.mod (flt3 f))
  | .frnd h f r d a => some (un 0x04B h f.ty f.ty d a (f.mod + r.mod) (flt3 f))
  | .fscl h f r sat d a n => some (bin 0x04C h f.ty .i32 f.ty d a n (f.mod + r.mod) (flt3 f) (some (b2n sat)))
  | .cvt h r sat dt so d a => some (un 0x050 h so dt d a r.mod (dt.cvt < 15 && so.cvt < 15) (some (dt.cvt + 16 * so.cvt + 256 * b2n sat)))
  | .cvpk h r sat f k d a b => some (bin 0x051 h .f32 .f32 .b32 d a b r.mod
      (f.pack < 5 && k < 4 && (k + 1) * 2 * f.width ≤ 32) (some (f.pack + 8 * k + 64 * b2n sat)))
  | .cvup h f k d a => some (un 0x052 h .b32 .f32 d a 0 (f.pack < 5 && (k + 1) * f.width ≤ 32) (some (f.pack + 8 * k)))
  | .frcp h d a => some (fun1 0x080 h d a)
  | .frsq h d a => some (fun1 0x081 h d a)
  | .fsqrt h d a => some (fun1 0x082 h d a)
  | .fexp2 h d a => some (fun1 0x083 h d a)
  | .flog2 h d a => some (fun1 0x084 h d a)
  | .fsin h d a => some (fun1 0x085 h d a)
  | .fcos h d a => some (fun1 0x086 h d a)
  | .ftanh h d a => some (fun1 0x087 h d a)
  | .idiv h t d a b => some { bin 0x088 h t t t d a b t.mod (int32or64 t) with long := true }
  | .irem h t d a b => some { bin 0x089 h t t t d a b t.mod (int32or64 t) with long := true }
  | .xget h t g d a b => some (lanex 0x0A0 h t g d a b)
  | .xrot h t g d a b => some (lanex 0x0A1 h t g d a b)
  | .xflip h t g d a b => some (lanex 0x0A2 h t g d a b)
  | .xrev h t g d a => some { opc := 0x0A3, hdr := h, dst := outD d t, sa := src a t, sc := .emod g.code, mod := t.mod, ok := bits3264 t, hold := true, long := true }
  | .bcst h t d a b => some { opc := 0x0A4, hdr := h, dst := outD d t, sa := src a t, sb := .src b (.uni .b32), mod := t.mod, ok := bits3264 t, hold := true, long := true }
  | .pcol h op neg d pa => some
      { opc := 0x0A5, hdr := h, sa := .pred pa, sc := .emod (b2n neg), mod := op.code, long := true,
        dst := (match d with | .pred n => .pred n | .reg r => .reg r 1 true true),
        ok := (match d with | .pred _ => op.code < 3 | .reg _ => op.code ≥ 3),
        hold := (match d with | .pred _ => false | .reg _ => true) }
  | .lmat h t d a => some { opc := 0x0A6, hdr := h, dst := outD d .b32, sa := src a t, mod := t.mod, ok := bits3264 t, hold := true, long := true }
  | .lred h op t sat d a => some
      { opc := 0x0A7, hdr := h, dst := outD d t, sa := src a t, sc := .emod (op.code + 8 * b2n sat),
        mod := if t = .f32 then 8 else t.mod, hold := true, long := true,
        ok := (!sat || op = .add) && (match op with | .add | .min | .max => int32or64 t | .and | .or | .xor => bits3264 t | .fadd => t = .f32) }
  | .sbc h t d a => some { opc := 0x0A8, hdr := h, dst := outD d t, sa := .sreg a t.regs, mod := t.mod, ok := bits3264 t, hold := true, long := true }
  | .lget h t d a b => some { opc := 0x0A9, hdr := h, dst := .sreg d t.regs, sa := src a t, sb := .src b (.uni .b32), mod := t.mod, ok := bits3264 t, long := true }
  | .lset h t d a b => some { opc := 0x0AA, hdr := h, dst := .vreg d t.regs, sa := .sreg a t.regs, sb := .src b (.uni .b32), mod := t.mod, ok := bits3264 t, hold := true, long := true }
  | .sadd h t sat d a b => some (sbin 0x0C0 h t t d a b (int32or64 t) (some (b2n sat)))
  | .ssub h t sat d a b => some (sbin 0x0C1 h t t d a b (int32or64 t) (some (b2n sat)))
  | .smul h t sat d a b => some (sbin 0x0C2 h t t d a b (int32or64 t) (some (b2n sat)))
  | .sand h t d a b => some (sbin 0x0C3 h t t d a b (bits3264 t))
  | .sor h t d a b => some (sbin 0x0C4 h t t d a b (bits3264 t))
  | .sxor h t d a b => some (sbin 0x0C5 h t t d a b (bits3264 t))
  | .sshl h t d a b => some (sbin 0x0C6 h t .b32 d a b (bits3264 t))
  | .sshr h t d a b => some (sbin 0x0C7 h t .b32 d a b (bits3264 t))
  | .ssar h t d a b => some (sbin 0x0C8 h t .b32 d a b (bits3264 t))
  | .smin h t d a b => some (sbin 0x0C9 h t t d a b (int32or64 t) (some 0))
  | .smax h t d a b => some (sbin 0x0CA h t t d a b (int32or64 t) (some 0))
  | .scmp h cc t p a b => some { sbin 0x0CB h t t .vz a b (six t) (some cc.code) with dst := .pred p }
  | .smov h t d a => some (sun 0x0CC h t d a (six t) (some 0))
  | .ssel h t d a b c => some { sbin 0x0CD h t t d a b (bits3264 t) with sc := .src c (.uni .b32) }
  | .slea h n32 k d a b c => some
      { opc := 0x0CE, hdr := h, dst := out d .b64, sa := .src a (.uni .b64), sb := .src b (.uni .b32),
        sc := .src c (.uni .i32), mod := k + 8 * b2n n32, ok := k < 8 }
  | .trsv h d b a => some { opc := 0x100, hdr := h, dst := .reg d 1 true true, sa := .sreg a 2, mod := b, ok := b < 8 }
  | .trel h b => some { opc := 0x101, hdr := h, mod := b, ok := b < 8 }
  | .tqry h d b n => some { opc := 0x102, hdr := h, dst := .reg d 1 true true, sc := .emod n, mod := b, ok := b < 8 && n < 4, hold := true }
  | .trng h b => some { opc := 0x103, hdr := h, mod := b, ok := b < 8 }
  | .twr h b wide off val => some { opc := 0x104, hdr := h, sa := src off .b32, sb := src val (if wide then .b64 else .b32), mod := b + 8 * b2n wide, ok := b < 8 }
  | .trd h d b wide off => some { opc := 0x105, hdr := h, dst := .reg d (if wide then 2 else 1) false true, sa := src off .b32, mod := b + 8 * b2n wide, ok := b < 8, hold := !wide }
  | .mma h tok off => some (tokOp 0x108 h tok off)
  | .mxr h fa fb sat d a b da db => some
      { opc := 0x109, hdr := h, dst := .span d 32 8, sa := .span a (if fa.wide then 8 else 4) 4 da,
        sb := .span b (if fb.wide then 8 else 4) 4 db, sc := .emod (fa.code + 4 * fb.code + 16 * b2n sat),
        ok := fa = fb || (!fa.wide && !fb.wide) }
  | .mwait h => some (ctl 0x10A h)
  | .mstat h d n => some { opc := 0x10B, hdr := h, dst := .reg d 1 true true, sc := .emod n, ok := n < 4, hold := true }
  | .elect h p => some { opc := 0x10C, hdr := h, dst := .pred p }
  | .accz h k => some { opc := 0x110, hdr := h, mod := k, ok := k < 16 }
  | .accld h g k addr stride => some { opc := 0x111, hdr := h, sa := .src addr (if g then .vs .b64 else .any .b32), sb := src stride .b32, sc := .emod (b2n g), mod := k, ok := k < 16 }
  | .accst h g k addr stride => some { opc := 0x112, hdr := h, sa := .src addr (if g then .vs .b64 else .any .b32), sb := src stride .b32, sc := .emod (b2n g), mod := k, ok := k < 16 }
  | .accmvRd h d k r => some { opc := 0x113, hdr := h, dst := .span d 2 1, sb := src r .b32, sc := .emod 0, mod := k, ok := k < 16 }
  | .accmvWr h k a dead r => some { opc := 0x113, hdr := h, sa := .span a 2 1 dead, sb := src r .b32, sc := .emod 1, mod := k, ok := k < 16 }
  | .ld h t m d b o => some
      { opc := 0x140, hdr := h, dst := .reg d t.regs true true, sa := base m b, sb := src o .i32, sc := .emod (m.emod m.idx), mod := t.mod,
        ok := t.mod ≤ 10 && spcIn m [.g, .l, .c, .k, .w] && (weakOk m || strong m [.rlx, .acq]), hold := t ≠ .b128, long := true }
  | .st h t m x b o => some
      { opc := 0x141, hdr := h, dst := .data x t, sa := base m b, sb := src o .i32, sc := .emod (m.emod m.idx), mod := t.mod,
        ok := t.mod ≤ 10 && (weakOk m || strong m [.rlx, .rel]) }
  | .atom h op wide m d b v => some
      { opc := 0x142, hdr := h, dst := .reg d (if wide then 2 else 1) true true, sa := base m b, sb := src v (op.ty wide),
        sc := .emod (m.emod wide), mod := op.code, ok := !m.idx && spcIn m [.g, .l, .c, .k, .w] && strong m [.rlx, .acq, .rel, .acqrel], hold := true, long := true }
  | .atomn h op wide m b v => some
      { opc := 0x143, hdr := h, sa := base m b, sb := src v (op.ty wide),
        sc := .emod (m.emod wide), mod := op.code, ok := !m.idx && spcIn m [.g, .l, .c, .k, .w] && strong m [.rlx, .rel] }
  | .cas h wide m d b c => some
      { opc := 0x144, hdr := h, dst := .reg d (if wide then 2 else 1) true true, sa := base m b, sb := .src c (.vs (if wide then .b128 else .b64)),
        sc := .emod (m.emod false), mod := 8 + b2n wide, ok := !m.idx && spcIn m [.g, .l, .c, .k, .w] && strong m [.rlx, .acq, .rel, .acqrel], hold := true, long := true }
  | .fence h m => some { opc := 0x145, hdr := h, sc := .emod (m.emod false), ok := !m.idx && m.spc = .g && strong m [.acq, .rel, .acqrel] }
  | .pfen h p q => some { opc := 0x146, hdr := h, sc := .emod (p.code + 8 * q.code), ok := p ≠ q }
  | .lease h m d b x => some
      { opc := 0x147, hdr := h, dst := .reg d 1 true true, sa := base m b, sb := .src ⟨x, false⟩ .immLit, sc := .emod (m.emod false),
        ok := !m.idx && m.spc = .g && strong m [.rlx, .acq] }
  | .lrel h m => some { opc := 0x148, hdr := h, sc := .emod (m.emod false), ok := !m.idx && m.spc = .g && strong m [.rlx, .rel] }
  | .pref h lvl m b o => some { opc := 0x149, hdr := h, sa := base m b, sb := src o .i32, sc := .emod (m.emod m.idx), mod := lvl.code, ok := spcIn m [.g, .k] && weakOk m }
  | .cinv h m b o => some { opc := 0x14A, hdr := h, sa := base m b, sb := src o .i32, sc := .emod (m.emod m.idx), ok := m.spc = .g && weakOk m }
  | .cwb h m b o => some { opc := 0x14B, hdr := h, sa := base m b, sb := src o .i32, sc := .emod (m.emod m.idx), ok := m.spc = .g && weakOk m }
  | .cpy h tok off => some (tokOp 0x150 h tok off)
  | .cpyi h tok off => some (tokOp 0x151 h tok off)
  | .kvx h tok off => some (tokOp 0x154 h tok off)
  | .kvq h d c => some { opc := 0x155, hdr := h, dst := .reg d 1 true true, sa := src c .b32 }
  | .coll h tok off => some (tokOp 0x158 h tok off)
  | .cgrpCreate h tok off => some (tokOp 0x159 h tok off)
  | .cgrpFree h tok hd => some { tokOp 0x159 h tok hd with mod := 1 }
  | .bra h disp => some { opc := 0x1C0, hdr := h, disp := some disp }
  | .brx h a => some { opc := 0x1C1, hdr := h, sa := .src a (.vs .b64) }
  | .call h d disp => some { opc := 0x1C2, hdr := h, dst := .vreg d 2, disp := some disp }
  | .callx h d a => some { opc := 0x1C3, hdr := h, dst := .vreg d 2, sa := .src a (.vs .b64) }
  | .ret h a => some { opc := 0x1C4, hdr := h, sa := .src a (.vs .b64) }
  | .exit h => some (ctl 0x1C5 h)
  | .enrol h m => some { ctl 0x1C8 h m with ok := m < 8 }
  | .join h m => some { ctl 0x1C9 h m with ok := m < 8 }
  | .strike h m => some { ctl 0x1CA h m with ok := m < 8 }
  | .bar h n => some { ctl 0x1CB h n with ok := n < 16 }
  | .yld h => some (ctl 0x1CC h)
  | .sigw h cc m d b v => some
      { opc := 0x1CD, hdr := h, dst := .reg d 2 true true, sa := base m b, sb := .src v .pairImm, sc := .emod (m.emod false), mod := cc.code,
        ok := !m.idx && m.spc = .g && strong m [.acq] }
  | .sigs h add m b v => some
      { opc := 0x1CE, hdr := h, sa := base m b, sb := src v .b64, sc := .emod (m.emod false), mod := b2n add,
        ok := !m.idx && m.spc = .g && strong m [.rel] }
  | .lnch h tok off => some (tokOp 0x1D0 h tok off)
  | .papp h tok hd off => some { tokOp 0x1D1 h tok hd with sb := src off .b32 }
  | .dqry h tok hd off => some { tokOp 0x1D2 h tok hd with sb := src off .b32 }
  | .pcls h tok hd => some (tokOp 0x1D3 h tok hd)
  | .rgn h => some (ctl 0x1D4 h)
  | .grow h d n => some { opc := 0x1D5, hdr := h, dst := .reg d 1 true true, sb := .src ⟨n, false⟩ .immLit, long := true }
  | .shrk h d n => some { opc := 0x1D6, hdr := h, dst := .reg d 1 true true, sb := .src ⟨n, false⟩ .immLit }
  | .srd h d i => some { opc := 0x1D7, hdr := h, dst := .reg d (if i = 8 then 2 else 1) true true, sc := .emod i, ok := i < 16, hold := true, long := true }
  | .swi h n => some { opc := 0x1D8, hdr := h, sc := .emod n, ok := n < 256 }
  | .brk h n => some { opc := 0x1D9, hdr := h, sc := .emod n, ok := n < 256 }
  | .sysr h d r => some { opc := 0x1E0, hdr := h, dst := .reg d 2 true false, sc := .emod r.num }
  | .sysw h r a => some { opc := 0x1E1, hdr := h, sa := src a .b64, sc := .emod r.num }
  | .scall h n => some { opc := 0x1E2, hdr := h, sc := .emod n, ok := n < 256 }
  | .mcall h n => some { opc := 0x1E3, hdr := h, sc := .emod n, ok := n < 256 }
  | .eret h => some (ctl 0x1E4 h)
  | .tlbi h k a b => some { opc := 0x1E5, hdr := h, sa := src a .b64, sb := src b .b32, mod := k, ok := k < 3 }
  | .wait h => some (ctl 0x1E6 h)
  | .ctxwReg h r d a b => some (ctxw h 0 d a b r.offset)
  | .ctxwNew h d a b => some (ctxw h 1 d a b 0)
  | .ctxwDel h d a b => some (ctxw h 2 d a b 0)
  | .ctxwQreg h d a b => some (ctxw h 3 d a b 0)
  | .ctxwQdel h d a b => some (ctxw h 4 d a b 0)
  | .ctxwPnew h d a b => some (ctxw h 5 d a b 0)
  | .ctxwPdel h d a b => some (ctxw h 6 d a b 0)
  | .ctxwQst h d a b => some (ctxw h 7 d a b 0)
  | _ => none

end Sys2Proof
end

