-- ==== Sys2Proof/Machine/Check.lean ====
section
/-! DEFINITION. Operand codes, the word a shape encodes to, and the decode checks of Table 3.8 that depend on the word and
its literal alone. A reserved or misplaced code `c` of a field is held as a register number `c + 1000`, so that the check sees it. -/

namespace Sys2Proof
open Machine (Cause)

/-- The register number that stands for an operand code no operand has. -/
def badCode (c : Nat) : Nat := c + 1000
/-- The operand code of a register number, for a file that starts at code `b`. -/
def regCode (b n : Nat) : Nat := if n ≥ 1000 then n - 1000 else b + n

/-- Operand codes of sources (Table 3.5). -/
def Src.code : Src → Nat
  | .v n => regCode 0 n
  | .s n => 256 + n
  | .o k => 320 + k
  | .h k => 328 + k
  | .vz => 331
  | .lit _ => 336
  | .imm i => (i + 448).toNat
def Src.ofCode (lit : Word) (c : Nat) : Src :=
  if c < 256 then .v c else if c < 320 then .s (c - 256) else if c < 328 then .o (c - 320)
  else if c < 331 then .h (c - 328) else if c = 331 then .vz else if c = 336 then .lit lit
  else if 384 ≤ c then .imm ((c : Int) - 448) else .v (badCode c)

/-- Operand codes of destinations (Table 3.5). -/
def Dst.code : Dst → Nat
  | .v n => regCode 0 n
  | .s n => 256 + n
  | .vz => 331
def Dst.ofCode (c : Nat) : Dst :=
  if c < 256 then .v c else if c < 320 then .s (c - 256) else if c = 331 then .vz else .v (badCode c)

/-- The number of an s code, of a v code. -/
def sregOfCode (c : Nat) : Nat := if 256 ≤ c ∧ c < 320 then c - 256 else badCode c
def vregOfCode (c : Nat) : Nat := if c < 256 then c else badCode c

def SFld.code : SFld → Nat
  | .zero => 0
  | .src x _ => x.src.code
  | .pred n => n
  | .emod b => b
  | .sreg n _ => regCode 256 n
  | .span n _ _ _ => regCode 0 n
def SFld.deadBit : SFld → Bool
  | .src x _ => x.dead
  | .span _ _ _ d => d
  | _ => false
def DFld.code : DFld → Nat
  | .zero => 0
  | .reg d _ _ _ => d.code
  | .pred n => n
  | .sreg n _ => regCode 256 n
  | .vreg n _ => regCode 0 n
  | .span n _ _ => regCode 0 n
  | .data x _ => x.code

/-- The PRED field (R56). -/
def Guard.code (g : Guard) : Nat := (if g.neg then 8 else 0) + g.p
/-- The HOLD field (Table 3.2). -/
def holdCode (h : Option Nat) : Nat := h.elim 0 (· + 1)

/-- The word of a shape (Table 3.2; displacement words R355). -/
def Shape.encode (x : Shape) : Nat :=
  let b (s : SFld) : Nat := if s.deadBit then 1 else 0
  x.opc * 2 ^ 53 + x.hdr.guard.code * 2 ^ 49 + x.dst.code * 2 ^ 40
    + (match x.disp with
       | some d => (d % 2 ^ 27).toNat * 2 ^ 13
       | none => x.sa.code * 2 ^ 31 + x.sb.code * 2 ^ 22 + x.sc.code * 2 ^ 13)
    + holdCode x.hdr.hold * 2 ^ 11 + b x.sa * 2 ^ 10 + b x.sb * 2 ^ 9 + b x.sc * 2 ^ 8 + x.hdr.la * 2 ^ 4 + x.mod

/-- Whether a literal value fits an operand type (Table 3.6). -/
def litFits (t : OTy) (x : Word) : Bool := t.width ≥ 32 || x.toNat < 2 ^ t.width

/-- A register number of a file of `size` registers, aligned for the width in registers (R28, R281, R287). -/
def regOk (size n regs : Nat) : Bool := n < size && n % regs = 0

/-- A source that any field accepts, at its width (R28, R58, R64, R83, R88). -/
def Src.okAny (x : Src) (t : OTy) : Bool :=
  match x with
  | .v n => regOk 256 n t.regs
  | .s n => regOk 64 n t.regs
  | .o k => k < 8 && k % t.regs = 0 && t.regs < 4
  | .h k => k < 3 && k + t.regs ≤ 3
  | .vz => t.regs < 4
  | .imm i => decide (-64 ≤ i ∧ i ≤ 63) && t.regs < 4
  | .lit l => litFits t l && t.regs < 4

/-- Whether a field accepts a source code (R58, R141, R178, R179, R278, R353, R363). -/
def Src.ok (x : Src) : SK → Bool
  | .any t => x.okAny t
  | .uni t => x.okAny t && (match x with | .s _ | .imm _ | .lit _ | .vz => true | _ => false)
  | .vs t => x.okAny t && (match x with | .v _ | .s _ => true | _ => false)
  | .vsz t => x.okAny t && (match x with | .v _ | .s _ | .vz => true | _ => false)
  | .immLit => x.okAny .b32 && (match x with | .imm _ | .lit _ => true | _ => false)
  | .data t => x.okAny t && (match x with | .lit _ => false | _ => true)
  | .pairImm => x.okAny .b64 && (match x with | .v _ | .imm _ | .lit _ => true | _ => false)

/-- A dead mark stands on a v code only (R66). -/
def SrcD.deadOk (x : SrcD) : Bool := !x.dead || (match x.src with | .v _ => true | _ => false)

def SFld.okD : SFld → Bool
  | .zero | .emod _ => true
  | .src x k => x.src.ok k && x.deadOk
  | .pred n => n < 8
  | .sreg n a => regOk 64 n a
  | .span n c a _ => n < 256 && n % a = 0 && (c ≠ 2 || n < 255)

/-- Destination codes; the scalar unit (0x0C0 to 0x0CE) writes no v register (R179). -/
def DFld.okD (opc : Nat) : DFld → Bool
  | .zero => true
  | .reg (.v n) r _ _ => regOk 256 n r && !(0x0C0 ≤ opc && opc ≤ 0x0CE)
  | .reg (.s n) r s _ => s && regOk 64 n r
  | .reg .vz _ _ z => z
  | .pred n => n < 8
  | .sreg n a => regOk 64 n a
  | .vreg n a => regOk 256 n a
  | .span n c a => n < 256 && n % a = 0 && (c ≠ 2 || n < 255)
  | .data x t => x.ok (.data t)

/-- Width of the result in registers. -/
def DFld.regs : DFld → Nat
  | .reg _ r _ _ => r
  | .vreg _ r => r
  | _ => 1

/-- HOLD stands on a v or `vz` destination only, and h2 holds no 64-bit result (R65). -/
def Shape.holdOk (x : Shape) : Bool :=
  match x.hdr.hold with
  | none => true
  | some k => k < 3 && x.hold && k + x.dst.regs ≤ 3 && (match x.dst with
    | .reg (.v n) _ _ _ => n < 256
    | .vreg n _ => n < 256 || n = badCode 331
    | .reg .vz _ _ _ => true
    | _ => false)

/-- Two spans share a register. -/
def spansMeet (a ca b cb : Nat) : Bool := a < b + cb && b < a + ca

def DFld.meets : DFld → SFld → Bool
  | .span d c _, .span n k _ _ => spansMeet d c n k
  | _, _ => false

/-- The size of EMOD values and displacements. -/
def SFld.fits : SFld → Bool
  | .emod b => b < 512
  | _ => true

/-- The `ILLOP` conditions of a full word (Table 3.8, row 1). -/
def Shape.okOp (x : Shape) : Bool :=
  x.ok && x.mod < 16 && x.hdr.guard.p < 8 && !(x.hdr.guard.neg && x.hdr.guard.p = 7) && x.holdOk
    && x.hdr.la < (if x.long then 16 else 1) && x.sc.fits
    && (match x.disp with | some d => decide (-(2 ^ 26) ≤ d ∧ d < 2 ^ 26) | none => true)

/-- The `ILLOPD` conditions of a full word (Table 3.8, row 2). `GROW` and `SHRK` (0x1D5, 0x1D6) restrict their count (R370). -/
def Shape.okOpd (x : Shape) : Bool :=
  x.dst.okD x.opc && x.sa.okD && x.sb.okD && x.sc.okD && !x.dst.meets x.sa && !(x.opc = 0x109 && x.dst.meets x.sb)
    && (match x.opc = 0x1D5 || x.opc = 0x1D6, x.sb with
        | true, .src ⟨.imm i, _⟩ _ => decide (8 ≤ i ∧ i ≤ 248 ∧ i % 8 = 0)
        | true, .src ⟨.lit l, _⟩ _ => decide (8 ≤ l.toNat ∧ l.toNat ≤ 248 ∧ l.toNat % 8 = 0)
        | true, _ => false
        | false, _ => true)

-- pair words (R68 to R70, R76)

/-- Pair opcodes by number (Table 3.10): pipe A. -/
def Pop.tableA : List Pop :=
  [.faddF32, .fsubF32, .fmulF32, .fminF32, .fmaxF32, .fabsF32, .fnegF32, .faddF16, .fmulF16, .faddBf16, .fmulBf16]
/-- Pair opcodes by number (Table 3.10): pipe B. -/
def Pop.tableB : List Pop :=
  [.iadd, .isub, .imul, .imin, .imax, .iminN, .imaxN, .and, .or, .xor, .andn, .shl, .shr, .sar, .mov]
def Pop.isA : Pop → Bool
  | .faddF32 | .fsubF32 | .fmulF32 | .fminF32 | .fmaxF32 | .fabsF32 | .fnegF32 | .faddF16 | .fmulF16 | .faddBf16 | .fmulBf16 => true
  | _ => false
def Pop.code : Pop → Nat
  | .faddF32 => 0x01 | .fsubF32 => 0x02 | .fmulF32 => 0x03 | .fminF32 => 0x04 | .fmaxF32 => 0x05 | .fabsF32 => 0x06
  | .fnegF32 => 0x07 | .faddF16 => 0x08 | .fmulF16 => 0x09 | .faddBf16 => 0x0A | .fmulBf16 => 0x0B
  | .iadd => 0x40 | .isub => 0x41 | .imul => 0x42 | .imin => 0x43 | .imax => 0x44 | .iminN => 0x45 | .imaxN => 0x46
  | .and => 0x47 | .or => 0x48 | .xor => 0x49 | .andn => 0x4A | .shl => 0x4B | .shr => 0x4C | .sar => 0x4D | .mov => 0x4E
/-- Unary pair operations do not read D (R69). -/
def Pop.unary : Pop → Bool
  | .fabsF32 | .fnegF32 | .mov => true
  | _ => false
/-- The operand type of a pair operation. -/
def Pop.ty : Pop → OTy
  | .faddF32 | .fsubF32 | .fmulF32 | .fminF32 | .fmaxF32 | .fabsF32 | .fnegF32 => .f32
  | .faddF16 | .fmulF16 => .f16
  | .faddBf16 | .fmulBf16 => .bf16
  | .iadd | .isub | .imul | .imin | .imax => .i32
  | .iminN | .imaxN => .n32
  | _ => .b32

/-- The S codes of a pair half (Table 3.7). -/
def Src.pairCode : Src → Nat
  | .v n => regCode 0 n
  | .s n => 128 + n
  | .o k => 192 + k
  | .h k => 200 + k
  | .vz => 203
  | .imm i => (i + 232).toNat
  | .lit _ => 204
def Src.ofPairCode (c : Nat) : Src :=
  if c < 128 then .v c else if c < 192 then .s (c - 128) else if c < 200 then .o (c - 192)
  else if c < 203 then .h (c - 200) else if c = 203 then .vz else if 208 ≤ c then .imm ((c : Int) - 232) else .v (badCode c)

/-- The guards of a pair half (Table 3.7). -/
def Half.guardCode (g : Guard) : Nat :=
  match g with
  | ⟨false, 0⟩ => 1 | ⟨false, 1⟩ => 2 | ⟨true, _⟩ => 3 | _ => 0
def Half.guardOf (c : Nat) : Guard :=
  match c with
  | 1 => ⟨false, 0⟩ | 2 => ⟨false, 1⟩ | 3 => ⟨true, 0⟩ | _ => ⟨false, 7⟩
def Half.encode (x : Half) : Nat :=
  x.pop.code * 2 ^ 24 + Half.guardCode x.guard * 2 ^ 22 + x.d * 2 ^ 15 + x.s.src.pairCode * 2 ^ 7 + holdCode x.hold * 2 ^ 5
    + (if x.s.dead then 2 ^ 4 else 0)
def Half.okOp (inA : Bool) (x : Half) : Bool :=
  x.pop.isA = inA && x.d < 128 && decide (x.guard ∈ [⟨false, 7⟩, ⟨false, 0⟩, ⟨false, 1⟩, ⟨true, 0⟩]) && x.hold.elim true (· < 3)
def Half.okOpd (x : Half) : Bool :=
  (match x.s.src with
   | .v n => decide (n < 128)
   | .s n => decide (n < 64)
   | .o k => decide (k < 8)
   | .h k => decide (k < 3)
   | .vz => true
   | .imm i => decide (-24 ≤ i ∧ i ≤ 23)
   | .lit _ => false) && x.s.deadOk
/-- The banked-file registers of a half (R70). -/
def Half.banked (x : Half) : List Nat :=
  x.d :: (match x.s.src with | .v n => [n] | _ => [])
/-- Distinct registers in distinct banks (R70). -/
def banksOk (rs : List Nat) : Bool :=
  let d := rs.eraseDups
  ((d.map (· % 4)).eraseDups).length = d.length
def pairCheck (a b : Option Half) : Option Cause :=
  let opOk := a.elim true (Half.okOp true) && b.elim true (Half.okOp false)
    && (match a, b with
        | some x, some y => x.d ≠ y.d && (x.hold.isNone || x.hold ≠ y.hold)
        | _, _ => true)
  if !opOk then some .illop
  else if !(a.elim true Half.okOpd && b.elim true Half.okOpd) then some .illopd
  else if !banksOk (a.elim [] Half.banked ++ b.elim [] Half.banked) then some .pairbank
  else none

/-- Words that no opcode describes: kinds 10 and 11, unassigned OPC and POP, a POP in the wrong half (R52, R73, R76). -/
def assignedOpc (c : Nat) : Bool :=
  c ≤ 0x0B || (0x10 ≤ c && c ≤ 0x25) || (0x40 ≤ c && c ≤ 0x4C) || (0x50 ≤ c && c ≤ 0x52) || (0x80 ≤ c && c ≤ 0x89)
    || (0xA0 ≤ c && c ≤ 0xAA) || (0xC0 ≤ c && c ≤ 0xCE) || (0x100 ≤ c && c ≤ 0x105) || (0x108 ≤ c && c ≤ 0x10C)
    || (0x110 ≤ c && c ≤ 0x113) || (0x140 ≤ c && c ≤ 0x14B) || c = 0x150 || c = 0x151 || c = 0x154 || c = 0x155
    || c = 0x158 || c = 0x159 || (0x1C0 ≤ c && c ≤ 0x1C5) || (0x1C8 ≤ c && c ≤ 0x1CE) || (0x1D0 ≤ c && c ≤ 0x1D9)
    || (0x1E0 ≤ c && c ≤ 0x1E7)
def unassignedWord (w : Dword) : Bool :=
  let n := w.toNat
  match n / 2 ^ 62 with
  | 0 => !assignedOpc (n / 2 ^ 53)
  | 1 =>
    let pa := n / 2 ^ 55 % 128
    let pb := n / 2 ^ 24 % 128
    !(pa ≤ 0x0B) || !(pb = 0 || (0x40 ≤ pb && pb ≤ 0x4E))
  | _ => true

/-- The first decode cause that applies to a word with its literal, of those that depend on them alone (Table 3.8); for a word no opcode
describes, `ILLOP`. Events have none. -/
def Instr.check (i : Instr) : Option Cause :=
  match i with
  | .unassignedOpcode _ => some .illop
  | .pairWord a b => pairCheck a b
  | _ =>
    match i.shape with
    | none => none
    | some x => if !x.okOp then some .illop else if !x.okOpd then some .illopd else none

end Sys2Proof
end

