-- ==== Sys2Proof/WellFormed.lean ====
section
/-! DEFINITION. Well-formed instructions: the words the decode checks of Table 3.8 accept; a word that no opcode describes is
well-formed when it is one; every event is. -/

namespace Sys2Proof

/-- The literals of a word's fields are one value (R62). -/
def Shape.litsAgree (x : Shape) : Bool :=
  let ls := [x.sa, x.sb, x.sc].filterMap fun
    | .src ⟨.lit l, _⟩ _ => some l
    | _ => none
  ls.all fun l => ls.head? = some l

/-- A word decodes without a cause that depends on the word alone (R71). -/
def Instr.wf (i : Instr) : Bool :=
  match i with
  | .unassignedOpcode w => unassignedWord w
  | _ => i.check.isNone && i.shape.elim true Shape.litsAgree

end Sys2Proof
end

