-- ==== Sys2Proof/Decode.lean ====
section
/-! DEFINITION. The decoder (R52 to R76), total on any word and literal, and after it the encoder. A word first yields the
instruction its opcode and fields name; it is that instruction only when the instruction encodes back to the word (no unused
field or bit is set) and passes the checks of Table 3.8, in the table's order of causes. -/

namespace Sys2Proof
open Machine (Cause)

/-- The fields of a full word (Table 3.2) with the value of its literal. -/
structure Raw where
  opc : Nat
  pred : Nat
  dst : Nat
  sa : Nat
  sb : Nat
  sc : Nat
  hold : Nat
  dead : Nat
  la : Nat
  mod : Nat
  disp : Nat
  lit : Word
  deriving DecidableEq, Repr

/-- Bits `hi` down to `lo` of a word (R4). -/
def bitsOf (n hi lo : Nat) : Nat := n / 2 ^ lo % 2 ^ (hi + 1 - lo)

def Raw.of (n : Nat) (lit : Word) : Raw where
  opc := bitsOf n 61 53
  pred := bitsOf n 52 49
  dst := bitsOf n 48 40
  sa := bitsOf n 39 31
  sb := bitsOf n 30 22
  sc := bitsOf n 21 13
  hold := bitsOf n 12 11
  dead := bitsOf n 10 8
  la := bitsOf n 7 4
  mod := bitsOf n 3 0
  disp := bitsOf n 39 13
  lit := lit

namespace Raw

def hdr (r : Raw) : Hdr := ⟨⟨r.pred ≥ 8, r.pred % 8⟩, if r.hold = 0 then none else some (r.hold - 1), r.la⟩
def d (r : Raw) : Dst := Dst.ofCode r.dst
def a (r : Raw) : SrcD := ⟨Src.ofCode r.lit r.sa, bitsOf r.dead 2 2 = 1⟩
def b (r : Raw) : SrcD := ⟨Src.ofCode r.lit r.sb, bitsOf r.dead 1 1 = 1⟩
def c (r : Raw) : SrcD := ⟨Src.ofCode r.lit r.sc, bitsOf r.dead 0 0 = 1⟩
def deadA (r : Raw) : Bool := bitsOf r.dead 2 2 = 1
def deadB (r : Raw) : Bool := bitsOf r.dead 1 1 = 1
/-- Bit `k` of EMOD. -/
def e (r : Raw) (k : Nat) : Bool := bitsOf r.sc k k = 1
/-- The displacement of `BRA` and `CALL` (R355). -/
def displacement (r : Raw) : Int := if r.disp < 2 ^ 26 then r.disp else (r.disp : Int) - 2 ^ 27
/-- The integer class (Table 3.4) with `.b128` of R281. -/
def ty (r : Raw) : Option OTy :=
  [OTy.i32, .n32, .i64, .n64, .i16, .n16, .i8, .n8, .b32, .b64, .b128][r.mod]?
/-- The floating class (Table 3.3). -/
def ffmt (r : Raw) : FFmt :=
  match r.mod % 4 with | 0 => .f32 | 1 => .f16 | 2 => .bf16 | _ => .f64
def rnd (r : Raw) : Rnd :=
  match r.mod / 4 % 4 with | 0 => .rne | 1 => .rz | 2 => .rd | _ => .ru
/-- Conversion types (Table 7.9). -/
def cvtTy (c : Nat) : Option OTy :=
  [OTy.i8, .n8, .i16, .n16, .i32, .n32, .i64, .n64, .f16, .bf16, .f32, .f64, .e4m3, .e5m2, .e2m1][c]?
/-- Packing formats (R167). -/
def packFmt (c : Nat) : Option FFmt := [FFmt.f16, .bf16, .e4m3, .e5m2, .e2m1][c]?
def icc (c : Nat) : Option ICc := [ICc.eq, .ne, .lt, .le, .gt, .ge][c]?
def fcc (c : Nat) : Option FCc := [FCc.eq, .ne, .lt, .le, .gt, .ge, .num, .nan][c]?
def seg (c : Nat) : Option Seg := [Seg.seg32, .seg16, .seg8, .seg4, .seg2][c]?
def pcolOp (c : Nat) : Option PcolOp := [PcolOp.some, .every, .same, .mask, .count][c]?
def lredOp (c : Nat) : Option LredOp := [LredOp.add, .min, .max, .and, .or, .xor, .fadd][c]?
def mxrFmt (c : Nat) : MxrFmt := match c % 4 with | 0 => .bf16 | 1 => .f16 | 2 => .e4m3 | _ => .e5m2
def atomOp (c : Nat) : Option AtomOp :=
  [AtomOp.add, .mins, .maxs, .minu, .maxu, .and, .or, .xor, .exch, .fadd, .fmin, .fmax, .inc][c]?
def path (c : Nat) : Option Path := [Path.ls, .kc, .cp, .mx, .cl, .kv][c]?
def spc (c : Nat) : Option Space := [Space.g, .l, .c, .k, .w, .s][c]?
def scp (c : Nat) : Option (Option Scope) :=
  [Option.none, Option.some Scope.core, Option.some .die, Option.some .pkg, Option.some .tray, Option.some .rack][c]?
def ord (c : Nat) : Ord := match c % 4 with | 0 => .rlx | 1 => .acq | 2 => .rel | _ => .acqrel
/-- The memory class (Table 12.2); `idx` is taken only where bit 8 is the index bit. -/
def mop (r : Raw) (idx : Bool) : Option MOp := do
  some ⟨← spc (r.sc % 8), ord (r.sc / 8), ← scp (r.sc / 32 % 8), idx && r.e 8⟩
def ctxReg (c : Nat) : Option CtxReg :=
  [CtxReg.ctxFlags, .fairPeriod, .leaseMax, .schedSeed, .storeSplit, .trapQueue, .spoolBase, .chkHandler].find? (·.offset = c)
def sysReg (c : Nat) : Option SysReg :=
  [SysReg.hstat, .hcore, .kvec, .mvec, .epcK, .epcM, .ecauseK, .ecauseM, .eaddrK, .eaddrM, .kscr, .mscr, .hpend, .hmask, .hptb,
    .htime][c]?

/-- Pipe B words, 0x000 to 0x025. -/
def buildInt (r : Raw) (t : OTy) : Option Instr :=
  let h := r.hdr
  match r.opc with
  | 0x000 => some .nop
  | 0x001 => some (.iadd h t (r.e 0) r.d r.a r.b)
  | 0x002 => some (.isub h t (r.e 0) r.d r.a r.b)
  | 0x003 => some (.imul h t (r.e 0) r.d r.a r.b)
  | 0x004 => some (.imulh h t r.d r.a r.b)
  | 0x005 => some (.imad h t r.d r.a r.b r.c)
  | 0x006 => some (.imin h t r.d r.a r.b)
  | 0x007 => some (.imax h t r.d r.a r.b)
  | 0x008 => some (.iabs h t (r.e 0) r.d r.a)
  | 0x009 => some (.ineg h t (r.e 0) r.d r.a)
  | 0x00A => some (.idif h t r.d r.a r.b)
  | 0x00B => some (.isad h t r.d r.a r.b r.c)
  | _ => none

def buildLogic (r : Raw) (t : OTy) : Option Instr :=
  let h := r.hdr
  match r.opc with
  | 0x010 => some (.and h t r.d r.a r.b)
  | 0x011 => some (.or h t r.d r.a r.b)
  | 0x012 => some (.xor h t r.d r.a r.b)
  | 0x013 => some (.not h t r.d r.a)
  | 0x014 => some (.andn h t r.d r.a r.b)
  | 0x015 => some (.shl h t r.d r.a r.b)
  | 0x016 => some (.shr h t r.d r.a r.b)
  | 0x017 => some (.sar h t r.d r.a r.b)
  | 0x018 => some (.rol h t r.d r.a r.b)
  | 0x019 => some (.bfx h t r.d r.a r.b)
  | 0x01A => some (.bfi h t r.d r.a r.b r.c)
  | 0x01B => some (.popc h t r.d r.a)
  | 0x01C => some (.clz h t r.d r.a)
  | 0x01D => some (.brev h t r.d r.a)
  | 0x01E => some (.ffs h t r.d r.a)
  | 0x01F => some (.bysel h r.d r.a r.b r.c)
  | _ => none

def buildMove (r : Raw) : Option Instr :=
  let h := r.hdr
  match r.opc with
  | 0x020 => do some (.icmp h (← icc r.sc) (← r.ty) r.dst r.a r.b)
  | 0x021 => do some (.sel h (← r.ty) r.d r.a r.b r.sc)
  | 0x022 => some (.plop h r.dst r.sa r.sb (r.sc % 16))
  | 0x023 => some (.lea h (r.mod ≥ 8) (r.mod % 8) r.d r.a r.b r.c)
  | 0x024 => if r.e 0 then some (.movFlg h r.d r.a) else do some (.mov h (← r.ty) r.d r.a)
  | 0x025 => some (.ocl h (r.mod % 8) (vregOfCode r.sa) r.deadA)
  | _ => none

/-- Pipe A words, 0x040 to 0x052. -/
def buildFloat (r : Raw) : Option Instr :=
  let h := r.hdr
  let f := r.ffmt
  let m := r.rnd
  match r.opc with
  | 0x040 => some (.fadd h f m (r.e 0) r.d r.a r.b)
  | 0x041 => some (.fsub h f m (r.e 0) r.d r.a r.b)
  | 0x042 => some (.fmul h f m (r.e 0) r.d r.a r.b)
  | 0x043 => some (.ffma h f m r.d r.a r.b r.c)
  | 0x044 => some (.fmin h f r.d r.a r.b)
  | 0x045 => some (.fmax h f r.d r.a r.b)
  | 0x046 => some (.fabs h f r.d r.a)
  | 0x047 => some (.fneg h f r.d r.a)
  | 0x048 => do some (.fcmp h (← fcc r.sc) f r.dst r.a r.b)
  | 0x049 => some (.fcls h f r.d r.a)
  | 0x04A => some (.ffrc h f r.d r.a)
  | 0x04B => some (.frnd h f m r.d r.a)
  | 0x04C => some (.fscl h f m (r.e 0) r.d r.a r.b)
  | 0x050 => do some (.cvt h m (r.e 8) (← cvtTy (r.sc % 16)) (← cvtTy (r.sc / 16 % 16)) r.d r.a)
  | 0x051 => do some (.cvpk h m (r.e 6) (← packFmt (r.sc % 8)) (r.sc / 8 % 8) r.d r.a r.b)
  | 0x052 => do some (.cvup h (← packFmt (r.sc % 8)) (r.sc / 8 % 8) r.d r.a)
  | _ => none

/-- Pipe C and D words, 0x080 to 0x0AA. -/
def buildLong (r : Raw) : Option Instr :=
  let h := r.hdr
  match r.opc with
  | 0x080 => some (.frcp h r.d r.a)
  | 0x081 => some (.frsq h r.d r.a)
  | 0x082 => some (.fsqrt h r.d r.a)
  | 0x083 => some (.fexp2 h r.d r.a)
  | 0x084 => some (.flog2 h r.d r.a)
  | 0x085 => some (.fsin h r.d r.a)
  | 0x086 => some (.fcos h r.d r.a)
  | 0x087 => some (.ftanh h r.d r.a)
  | 0x088 => do some (.idiv h (← r.ty) r.d r.a r.b)
  | 0x089 => do some (.irem h (← r.ty) r.d r.a r.b)
  | 0x0A0 => do some (.xget h (← r.ty) (← seg r.sc) r.d r.a r.b)
  | 0x0A1 => do some (.xrot h (← r.ty) (← seg r.sc) r.d r.a r.b)
  | 0x0A2 => do some (.xflip h (← r.ty) (← seg r.sc) r.d r.a r.b)
  | 0x0A3 => do some (.xrev h (← r.ty) (← seg r.sc) r.d r.a)
  | 0x0A4 => do some (.bcst h (← r.ty) r.d r.a r.b)
  | 0x0A5 => do
    let op ← pcolOp r.mod
    some (.pcol h op (r.e 0) (if r.mod < 3 then .pred r.dst else .reg r.d) r.sa)
  | 0x0A6 => do some (.lmat h (← r.ty) r.d r.a)
  | 0x0A7 => do
    let op ← lredOp (r.sc % 8)
    let t ← r.ty
    some (.lred h op (if op = .fadd ∧ r.mod = 8 then .f32 else t) (r.e 3) r.d r.a)
  | 0x0A8 => do some (.sbc h (← r.ty) r.d (sregOfCode r.sa))
  | 0x0A9 => do some (.lget h (← r.ty) (sregOfCode r.dst) r.a r.b)
  | 0x0AA => do some (.lset h (← r.ty) (vregOfCode r.dst) (sregOfCode r.sa) r.b)
  | _ => none

/-- Scalar words, 0x0C0 to 0x0CE. -/
def buildScalar (r : Raw) (t : OTy) : Option Instr :=
  let h := r.hdr
  match r.opc with
  | 0x0C0 => some (.sadd h t (r.e 0) r.d r.a r.b)
  | 0x0C1 => some (.ssub h t (r.e 0) r.d r.a r.b)
  | 0x0C2 => some (.smul h t (r.e 0) r.d r.a r.b)
  | 0x0C3 => some (.sand h t r.d r.a r.b)
  | 0x0C4 => some (.sor h t r.d r.a r.b)
  | 0x0C5 => some (.sxor h t r.d r.a r.b)
  | 0x0C6 => some (.sshl h t r.d r.a r.b)
  | 0x0C7 => some (.sshr h t r.d r.a r.b)
  | 0x0C8 => some (.ssar h t r.d r.a r.b)
  | 0x0C9 => some (.smin h t r.d r.a r.b)
  | 0x0CA => some (.smax h t r.d r.a r.b)
  | 0x0CB => do some (.scmp h (← icc r.sc) t r.dst r.a r.b)
  | 0x0CC => some (.smov h t r.d r.a)
  | 0x0CD => some (.ssel h t r.d r.a r.b r.c)
  | _ => none

/-- Matrix words, 0x100 to 0x113. -/
def buildMatrix (r : Raw) : Option Instr :=
  let h := r.hdr
  match r.opc with
  | 0x100 => some (.trsv h r.d r.mod (sregOfCode r.sa))
  | 0x101 => some (.trel h r.mod)
  | 0x102 => some (.tqry h r.d r.mod r.sc)
  | 0x103 => some (.trng h r.mod)
  | 0x104 => some (.twr h (r.mod % 8) (r.mod ≥ 8) r.a r.b)
  | 0x105 => some (.trd h r.d (r.mod % 8) (r.mod ≥ 8) r.a)
  | 0x108 => some (.mma h (sregOfCode r.dst) r.a)
  | 0x109 => some (.mxr h (mxrFmt r.sc) (mxrFmt (r.sc / 4)) (r.e 4) (vregOfCode r.dst) (vregOfCode r.sa) (vregOfCode r.sb) r.deadA r.deadB)
  | 0x10A => some (.mwait h)
  | 0x10B => some (.mstat h r.d r.sc)
  | 0x10C => some (.elect h r.dst)
  | 0x110 => some (.accz h r.mod)
  | 0x111 => some (.accld h (r.e 0) r.mod r.a r.b)
  | 0x112 => some (.accst h (r.e 0) r.mod r.a r.b)
  | 0x113 => if r.e 0 then some (.accmvWr h r.mod (vregOfCode r.sa) r.deadA r.b) else some (.accmvRd h (vregOfCode r.dst) r.mod r.b)
  | _ => none

/-- Memory and engine words, 0x140 to 0x159. -/
def buildMem (r : Raw) : Option Instr :=
  let h := r.hdr
  match r.opc with
  | 0x140 => do some (.ld h (← r.ty) (← r.mop true) r.d r.a r.b)
  | 0x141 => do some (.st h (← r.ty) (← r.mop true) (Src.ofCode r.lit r.dst) r.a r.b)
  | 0x142 => do some (.atom h (← atomOp r.mod) (r.e 8) (← r.mop false) r.d r.a r.b)
  | 0x143 => do some (.atomn h (← atomOp r.mod) (r.e 8) (← r.mop false) r.a r.b)
  | 0x144 => do some (.cas h (r.mod = 9) (← r.mop false) r.d r.a r.b)
  | 0x145 => do some (.fence h (← r.mop false))
  | 0x146 => do some (.pfen h (← path (r.sc % 8)) (← path (r.sc / 8 % 8)))
  | 0x147 => do some (.lease h (← r.mop false) r.d r.a r.b.src)
  | 0x148 => do some (.lrel h (← r.mop false))
  | 0x149 => do some (.pref h (← [PrefLvl.l1, .l1x, .l2][r.mod]?) (← r.mop true) r.a r.b)
  | 0x14A => do some (.cinv h (← r.mop true) r.a r.b)
  | 0x14B => do some (.cwb h (← r.mop true) r.a r.b)
  | 0x150 => some (.cpy h (sregOfCode r.dst) r.a)
  | 0x151 => some (.cpyi h (sregOfCode r.dst) r.a)
  | 0x154 => some (.kvx h (sregOfCode r.dst) r.a)
  | 0x155 => some (.kvq h r.d r.a)
  | 0x158 => some (.coll h (sregOfCode r.dst) r.a)
  | 0x159 => if r.mod = 1 then some (.cgrpFree h (sregOfCode r.dst) r.a) else some (.cgrpCreate h (sregOfCode r.dst) r.a)
  | _ => none

/-- Control words, 0x1C0 to 0x1D9. -/
def buildControl (r : Raw) : Option Instr :=
  let h := r.hdr
  match r.opc with
  | 0x1C0 => some (.bra h r.displacement)
  | 0x1C1 => some (.brx h r.a)
  | 0x1C2 => some (.call h (vregOfCode r.dst) r.displacement)
  | 0x1C3 => some (.callx h (vregOfCode r.dst) r.a)
  | 0x1C4 => some (.ret h r.a)
  | 0x1C5 => some (.exit h)
  | 0x1C8 => some (.enrol h r.mod)
  | 0x1C9 => some (.join h r.mod)
  | 0x1CA => some (.strike h r.mod)
  | 0x1CB => some (.bar h r.mod)
  | 0x1CC => some (.yld h)
  | 0x1CD => do some (.sigw h (← [SigCc.ge, .eq, .ne][r.mod]?) (← r.mop false) r.d r.a r.b)
  | 0x1CE => do some (.sigs h (r.mod % 2 = 1) (← r.mop false) r.a r.b)
  | 0x1D0 => some (.lnch h (sregOfCode r.dst) r.a)
  | 0x1D1 => some (.papp h (sregOfCode r.dst) r.a r.b)
  | 0x1D2 => some (.dqry h (sregOfCode r.dst) r.a r.b)
  | 0x1D3 => some (.pcls h (sregOfCode r.dst) r.a)
  | 0x1D4 => some (.rgn h)
  | 0x1D5 => some (.grow h r.d r.b.src)
  | 0x1D6 => some (.shrk h r.d r.b.src)
  | 0x1D7 => some (.srd h r.d r.sc)
  | 0x1D8 => some (.swi h r.sc)
  | 0x1D9 => some (.brk h r.sc)
  | _ => none

/-- Host-profile words, 0x1E0 to 0x1E7. -/
def buildHost (r : Raw) : Option Instr :=
  let h := r.hdr
  match r.opc with
  | 0x1E0 => do some (.sysr h r.d (← sysReg r.sc))
  | 0x1E1 => do some (.sysw h (← sysReg r.sc) r.a)
  | 0x1E2 => some (.scall h r.sc)
  | 0x1E3 => some (.mcall h r.sc)
  | 0x1E4 => some (.eret h)
  | 0x1E5 => some (.tlbi h r.mod r.a r.b)
  | 0x1E6 => some (.wait h)
  | 0x1E7 =>
    match r.mod with
    | 0 => do some (.ctxwReg h (← ctxReg r.sc) r.d r.a r.b)
    | 1 => some (.ctxwNew h r.d r.a r.b)
    | 2 => some (.ctxwDel h r.d r.a r.b)
    | 3 => some (.ctxwQreg h r.d r.a r.b)
    | 4 => some (.ctxwQdel h r.d r.a r.b)
    | 5 => some (.ctxwPnew h r.d r.a r.b)
    | 6 => some (.ctxwPdel h r.d r.a r.b)
    | 7 => some (.ctxwQst h r.d r.a r.b)
    | _ => none
  | _ => none

/-- The instruction an assigned opcode and its fields name; none where a modifier is undefined. -/
def build (r : Raw) : Option Instr :=
  if r.opc < 0x10 then (r.ty.getD .b128 |> buildInt r)
  else if r.opc < 0x20 then (r.ty.getD .b128 |> buildLogic r)
  else if r.opc < 0x40 then buildMove r
  else if r.opc < 0x80 then buildFloat r
  else if r.opc < 0xC0 then buildLong r
  else if r.opc = 0xCE then some (.slea r.hdr (r.mod ≥ 8) (r.mod % 8) r.d r.a r.b r.c)
  else if r.opc < 0x100 then r.ty.bind (buildScalar r)
  else if r.opc < 0x140 then buildMatrix r
  else if r.opc < 0x1C0 then buildMem r
  else if r.opc < 0x1E0 then buildControl r
  else buildHost r

end Raw

/-- A field whose DEAD bit is `ILLOPD`: one that holds a predicate number, an s code, or an immediate or `LIT` (R61, R66). -/
def SFld.deadBar : SFld → Bool
  | .pred _ | .sreg _ _ | .src _ .immLit => true
  | _ => false

/-- The DEAD bits of a shape that R66 refuses as `ILLOPD`. -/
def Shape.deadBars (x : Shape) : Nat :=
  (if x.sa.deadBar then 2 ^ 10 else 0) + (if x.sb.deadBar then 2 ^ 9 else 0) + (if x.sc.deadBar then 2 ^ 8 else 0)

/-- Whether a source field holds `LIT` (R63), be it one that takes no `LIT`. -/
def SFld.isLit : SFld → Bool
  | .src ⟨.lit _, _⟩ _ => true
  | .sreg n _ => n = badCode 336
  | .span n _ _ _ => n = badCode 336
  | _ => false
def Shape.usesLit (x : Shape) : Bool := x.sa.isLit || x.sb.isLit || x.sc.isLit
def Instr.usesLit (i : Instr) : Bool := i.shape.elim false Shape.usesLit
/-- The length of a word with its literal, in bytes (R53). -/
def Instr.size (i : Instr) : Nat := if i.usesLit then 16 else 8

/-- What a fetched word decodes to: an instruction, or a decode cause of the whole word (R71) with the bytes the word takes, its literal among them
(R53). -/
inductive Decoded where
  | ok (i : Instr)
  | bad (c : Cause) (size : Nat)
  deriving DecidableEq, Repr

/-- A half of a pair word; none for an unassigned POP. -/
def Half.ofRaw (n : Nat) : Option (Option Half) :=
  let pop := bitsOf n 30 24
  if pop = 0 then some none
  else
    (((Pop.tableA ++ Pop.tableB).find? (·.code = pop)).map fun p =>
      some ⟨p, Half.guardOf (bitsOf n 23 22), bitsOf n 21 15, ⟨Src.ofPairCode (bitsOf n 14 7), bitsOf n 4 4 = 1⟩,
        if bitsOf n 6 5 = 0 then none else some (bitsOf n 6 5 - 1)⟩)

/-- Half of a pair word as bits; `PNOP` is zero (R76). -/
def Half.encodeOpt (x : Option Half) : Nat := x.elim 0 Half.encode

/-- Decodes a pair word. -/
def decodePair (n : Nat) : Decoded :=
  match Half.ofRaw (bitsOf n 61 31), Half.ofRaw (bitsOf n 30 0) with
  | some a, some b =>
    if Half.encodeOpt a ≠ bitsOf n 61 31 ∨ Half.encodeOpt b ≠ bitsOf n 30 0 then .bad .illop 8
    else match pairCheck a b with
      | some c => .bad c 8
      | none => .ok (.pairWord a b)
  | _, _ => .bad .illop 8

/-- Decodes a full word; `next` is the word after it, read when a source field holds `LIT`. -/
def decodeFull (n : Nat) (next : Option Nat) : Decoded :=
  let use (lit : Word) (litBad litMissing : Bool) (size : Nat) : Decoded :=
    match (Raw.of n lit).build with
    | none => .bad .illop size
    | some i =>
      match i.shape with
      | none => .bad .illop size
      | some x =>
        let bars := x.deadBars
        let deads := bitsOf n 10 8 * 2 ^ 8
        if litBad || x.encode + (deads &&& bars) ≠ n || !x.okOp then .bad .illop size
        else if litMissing || deads &&& bars ≠ 0 || !x.okOpd then .bad .illopd size
        else .ok i
  match (Raw.of n 0).build with
  | none => .bad .illop 8
  | some i =>
    if i.usesLit then
      match next with
      | none => use 0 false true 8
      | some l => use (BitVec.ofNat 32 l) (l / 2 ^ 62 = 3 && bitsOf l 61 32 ≠ 0) (l / 2 ^ 62 ≠ 3) (if l / 2 ^ 62 = 3 then 16 else 8)
    else use 0 false false 8

/-- Decodes a word at its address, with the word after it (R52 to R76). Words no opcode describes decode to `unassignedOpcode`, whose
meaning is the `ILLOP` trap. -/
def decode (w : Dword) (next : Option Dword) : Decoded :=
  if unassignedWord w then .ok (.unassignedOpcode w)
  else if w.toNat / 2 ^ 62 = 0 then decodeFull w.toNat (next.map BitVec.toNat)
  else decodePair w.toNat

/-- The value of the literal an instruction carries, if any. -/
def SFld.lit : SFld → Option Word
  | .src ⟨.lit l, _⟩ _ => some l
  | .sreg n _ | .span n _ _ _ => if n = badCode 336 then some 0 else none
  | _ => none
def Shape.lit (x : Shape) : Option Word := x.sa.lit <|> x.sb.lit <|> x.sc.lit

/-- The words of a well-formed instruction: the word and its literal. Events have none. -/
def Instr.encode (i : Instr) : List Dword :=
  match i with
  | .unassignedOpcode w => [w]
  | .pairWord a b => [BitVec.ofNat 64 (2 ^ 62 + Half.encodeOpt a * 2 ^ 31 + Half.encodeOpt b)]
  | _ =>
    match i.shape with
    | none => []
    | some x => BitVec.ofNat 64 x.encode :: (x.lit.elim [] fun l => [BitVec.ofNat 64 (3 * 2 ^ 62 + l.toNat)])

/-- Decodes a byte sequence (little-endian words, R4, R52); none for fewer than eight bytes or a decode cause. -/
def wordOfBytes (bs : List Byte) : Dword := BitVec.ofNat 64 ((bs.take 8).foldr (fun b n => b.toNat + 256 * n) 0)
def decodeBytes (bs : List Byte) : Option Instr :=
  if bs.length < 8 then none
  else match decode (wordOfBytes bs) (if bs.length < 16 then none else some (wordOfBytes (bs.drop 8))) with
    | .ok i => some i
    | .bad _ _ => none

/-- The bytes of a word as the hardware stores it: little-endian (R4). -/
def bytesOfWord (w : Dword) : List Byte := (List.range 8).map fun k => (w >>> (8 * k)).setWidth 8

/-- The bytes of an instruction given as the opcode table numbers its bits, zero above `nbits`; two words long. -/
def tableBytes (nbits w : Nat) : List Byte :=
  let n := w % 2 ^ nbits
  bytesOfWord (BitVec.ofNat 64 (n % 2 ^ 64)) ++ bytesOfWord (BitVec.ofNat 64 (n / 2 ^ 64 % 2 ^ 64))

/-- The instruction the decoder reads from a word of the opcode table. -/
def decodeTableWord (nbits w : Nat) : Option Instr := decodeBytes (tableBytes nbits w)

end Sys2Proof
end

