-- ==== Sys2Proof/Machine/Records.lean ====
section
/-! DEFINITION. The records of the state, the names of agents, time, and memory as bytes. -/

namespace Sys2Proof.Machine

/-- The outcome of a step (Host/Core.lean). -/
abbrev Outcome := Host.Outcome State Fault Refusal

-- names of agents

/-- A host core: cores 0 to 15 of the hub die (R374). -/
def isHostCore (c : CoreId) : Bool := c.die = 8 && c.core < 16
/-- The one thread of a host core (R374). -/
def hostThread (c : CoreId) : ThreadId := ⟨⟨c, 0⟩, 0⟩
def isHost (t : ThreadId) : Bool := isHostCore t.wave.core && t.wave.slot = 0 && t.lane = 0

/-- A thread no record lists: a host thread stands at the firmware entry (R374); any other does not exist, as an exited one. -/
def Thread.initial (t : ThreadId) : Thread :=
  if isHost t then { pc := Config.monitorEntry, status := .runnable } else {}
/-- A wave no record lists: a host core's wave holds v0 to v255 (R374). -/
def Wave.initial (w : WaveId) : Wave :=
  if isHostCore w.core && w.slot = 0 then { allot := 256, live := true } else {}

/-- A team whose engine operations go on: on its core, or ended there (R358). -/
def Team.onCore (x : Team) : Bool := match x.place with | .resident | .ended => true | _ => false

/-- A core whose L1 holds a line no more. -/
def CoreSt.drop (x : CoreSt) (line : Nat) : CoreSt := { x with l1 := Map.erase x.l1 line, homes := Map.erase x.homes line }

namespace State

-- records

def thread (s : State) (t : ThreadId) : Thread := Map.getD s.threads t (Thread.initial t)
def setThread (s : State) (t : ThreadId) (x : Thread) : State := { s with threads := Map.set s.threads t x }
def modThread (s : State) (t : ThreadId) (f : Thread → Thread) : State := s.setThread t (f (s.thread t))
def wave (s : State) (w : WaveId) : Wave := Map.getD s.waves w (Wave.initial w)
def setWave (s : State) (w : WaveId) (x : Wave) : State := { s with waves := Map.set s.waves w x }
def modWave (s : State) (w : WaveId) (f : Wave → Wave) : State := s.setWave w (f (s.wave w))
def team (s : State) (n : Nat) : Team := Map.getD s.teams n {}
def setTeam (s : State) (n : Nat) (x : Team) : State := { s with teams := Map.set s.teams n x }
def modTeam (s : State) (n : Nat) (f : Team → Team) : State := s.setTeam n (f (s.team n))
def grid (s : State) (n : Nat) : Grid := Map.getD s.grids n {}
def setGrid (s : State) (n : Nat) (x : Grid) : State := { s with grids := Map.set s.grids n x }
def modGrid (s : State) (n : Nat) (f : Grid → Grid) : State := s.setGrid n (f (s.grid n))
def context (s : State) (k : Nat) : Context := Map.getD s.contexts k {}
def setContext (s : State) (k : Nat) (x : Context) : State := { s with contexts := Map.set s.contexts k x }
def modContext (s : State) (k : Nat) (f : Context → Context) : State := s.setContext k (f (s.context k))
def core (s : State) (c : CoreId) : CoreSt := Map.getD s.cores c {}
def setCore (s : State) (c : CoreId) (x : CoreSt) : State := { s with cores := Map.set s.cores c x }
def modCore (s : State) (c : CoreId) (f : CoreSt → CoreSt) : State := s.setCore c (f (s.core c))
def die (s : State) (p d : Nat) : Die := Map.getD s.dies (p, d) {}
def setDie (s : State) (p d : Nat) (x : Die) : State := { s with dies := Map.set s.dies (p, d) x }
def modDie (s : State) (p d : Nat) (f : Die → Die) : State := s.setDie p d (f (s.die p d))
def pkg (s : State) (p : Nat) : Package := Map.getD s.pkgs p {}
def setPkg (s : State) (p : Nat) (x : Package) : State := { s with pkgs := Map.set s.pkgs p x }
def modPkg (s : State) (p : Nat) (f : Package → Package) : State := s.setPkg p (f (s.pkg p))
def host (s : State) (c : CoreId) : HostRegs := Map.getD s.hosts c {}
def setHost (s : State) (c : CoreId) (x : HostRegs) : State := { s with hosts := Map.set s.hosts c x }
def modHost (s : State) (c : CoreId) (f : HostRegs → HostRegs) : State := s.setHost c (f (s.host c))
def op (s : State) (n : Nat) : Option Op := Map.find s.ops n
def setOp (s : State) (n : Nat) (x : Op) : State := { s with ops := Map.set s.ops n { x with num := n } }

/-- A fresh name for an operation, message or record (log entry 6). -/
def freshId (s : State) : Nat × State := (s.nextId, { s with nextId := s.nextId + 1 })
/-- A fresh free choice (log entry 5). -/
def freeIdx (s : State) : Nat × State := (s.free, { s with free := s.free + 1 })

/-- Whether a package starts work: it is not lost, and no quiesce stops it (R427). -/
def running (s : State) (p : Nat) : Bool := (s.pkg p).alive && ((s.pkg p).phase = .none || (s.pkg p).phase = .handler)

-- time (R2, R38; log entry 8)

/-- The cycle counter of a core's die. -/
def now (s : State) (c : CoreId) : Nat := (s.die c.pkg c.die).now
/-- The hub die's counter of a package (R19). -/
def hubNow (s : State) (p : Nat) : Nat := (s.die p 8).now
/-- Moves the counter of a die to a later cycle. -/
def advance (s : State) (p d : Nat) (t : Nat) : State := s.modDie p d fun x => { x with now := max x.now t }

/-- The cycle in which the next word of a core can issue. -/
def coreTime (s : State) (c : CoreId) : Nat := max (s.now c) (s.core c).readyAt

-- contexts

/-- The key of a thread's context: its team's, or the key in `HPTB` of a host thread (R372, R382). -/
def ctxOf (s : State) (t : ThreadId) : Nat :=
  if isHost t then (s.host t.wave.core).hptb.toNat % 65536 else (s.team (s.wave t.wave).team).ctx
/-- The context registers that govern a thread: those its core loaded (R48). -/
def regsOf (s : State) (t : ThreadId) : CtxRegs :=
  let k := s.ctxOf t
  match Map.find (s.core t.wave.core).loaded k with
  | some l => l.regs
  | none => (s.context k).regs
/-- `CTX_FLAGS` bits (Table 2.5). -/
def prog (s : State) (t : ThreadId) : Bool := (s.regsOf t).ctxFlags.getLsbD 0
def unif (s : State) (t : ThreadId) : Bool := (s.regsOf t).ctxFlags.getLsbD 1
def chkd (s : State) (t : ThreadId) : Bool := (s.regsOf t).ctxFlags.getLsbD 2

end State

-- memory (R3, R4; log entry 1)

/-- What a byte no entry lists reads as (log entry 1). -/
def memDefault : Byte := 0

/-- The byte of a memory at an address. -/
def memRead : List Host.Cell → Nat → Byte
  | [], _ => memDefault
  | (a', b) :: m, a => if a' = a then b else if a < a' then memDefault else memRead m a

/-- Writes one byte, keeping addresses rising and no entry equal to what an unlisted address reads as. (An entry out of order, which the canonical form does not
have, goes with the entry it hides behind.) -/
def memWrite : List Host.Cell → Nat → Byte → List Host.Cell
  | [], a, x => if x = memDefault then [] else [(a, x)]
  | (a', b) :: m, a, x =>
    if a < a' then (if x = memDefault then (a', b) :: m else (a, x) :: (a', b) :: m)
    else if a = a' then (if x = memDefault then m.dropWhile (·.1 ≤ a) else (a, x) :: m)
    else (a', b) :: memWrite m a x

/-- The canonical form above an address. -/
def memWfFrom : Nat → List Host.Cell → Bool
  | _, [] => true
  | lo, (a, b) :: m => lo ≤ a && b ≠ memDefault && memWfFrom (a + 1) m

/-- The canonical form of a memory: addresses rise strictly, and no entry equals what an unlisted address reads as. -/
def Memory.wf (m : List Host.Cell) : Bool := memWfFrom 0 m

/-- `n` bytes from an address upward. -/
def memBytes (m : List Host.Cell) (a : Nat) : Nat → List Byte
  | 0 => []
  | n + 1 => memRead m a :: memBytes m (a + 1) n
/-- Stores bytes from an address upward. -/
def memStore (m : List Host.Cell) (a : Nat) : List Byte → List Host.Cell
  | [] => m
  | b :: bs => memStore (memWrite m a b) (a + 1) bs

/-- A number from little-endian bytes (R4). -/
def leNat : List Byte → Nat
  | [] => 0
  | b :: bs => b.toNat + 256 * leNat bs
/-- The `n` little-endian bytes of a number (R4). -/
def leBytes (x : Nat) : Nat → List Byte
  | 0 => []
  | n + 1 => BitVec.ofNat 8 x :: leBytes (x / 256) n
/-- The field of `n` bytes at an offset of a record. -/
def field (bs : List Byte) (off n : Nat) : Nat := leNat ((bs.drop off).take n)

/-- The line of a physical address: its address with the low seven bits clear (R229). -/
def lineOf (a : Nat) : Nat := a / 128 * 128

-- homes (R13, R14, R251, R259)

/-- The physical address of an offset within the memory of a die; region 9 is a package's CXL memory (R14, R385). -/
def physAt (pkg region off : Nat) : Nat := (pkg * 16 + region) * 2 ^ 43 + off
def physPkg (a : Nat) : Nat := a / 2 ^ 47
def physDie (a : Nat) : Nat := a / 2 ^ 43 % 16
/-- The L2 slice of a line: PA[11:7] (R251). -/
def sliceOf (a : Nat) : Nat := a / 128 % 32
/-- Bytes of an entry's region (Table 11.2). -/
def regionBytes (size : Nat) : Nat := 2 ^ (size + 7)
/-- The first line of a line's slice in the line's region of a size; it names the entry (R13). A region of 4 KiB or less holds one line of a slice. -/
def entryBase (line size : Nat) : Nat := if size ≤ 5 then line else line / regionBytes size * regionBytes size + line % 4096
/-- The lines of a slice that an entry covers. -/
def entryLines (base size : Nat) : List Nat := if size ≤ 5 then [base] else (List.range (2 ^ (size - 5))).map fun k => base + 4096 * k
/-- Bytes of a page (R384). -/
def pageBytes (large : Bool) : Nat := if large then 2 ^ 28 else 65536
/-- Whether a page whose requests are held covers a physical address. -/
def Frozen.covers (f : Frozen) (a : Nat) : Bool := f.start ≤ a && a < f.start + pageBytes f.large

end Sys2Proof.Machine
end

