-- ==== Sys2Proof/Machine/Trace.lean ====
section
/-! DEFINITION. The history of accesses: who makes an access and where, what a load may return, where a store stands in the coherence order, and the
loads that registers depend on (R17, R229 to R249). A load takes what the newest stores wrote, or by a free choice any other stores' bytes that leave the history
one that the memory model allows; so with a store's place in the coherence order (log entry 3). -/

namespace Sys2Proof.Machine

namespace Order

/-- Two accesses share a byte of their places. -/
def overlap (x y : Ev) : Bool :=
  let meet (a b : Nat) : Bool := a < b + y.len && b < a + x.len
  match x.base, y.base with
  | .mem a, .mem b => meet a b
  | .scr t a, .scr u b => t = u && meet a b
  | .win t n a, .win u m b => t = u && n = m && meet a b
  | _, _ => false
/-- A store that an access may meet in another order than that of their performance: another agent's, or one on another path (R235, R244). -/
def foreign (e w : Ev) : Bool := writes w && (w.who ≠ e.who || (w.path ≠ e.path && !e.unified)) && overlap e w
/-- The latest store to a byte in the coherence order. -/
def newest (tr : List Ev) (b : Loc) : Option Ev :=
  tr.foldl (fun m w => if writes w && touches w b && m.elim true (fun v => decide (v.co < w.co)) then some w else m) none
/-- The byte that a store writes to a location. -/
def byteOf (w : Ev) (b : Loc) : Byte := ((idx w b).bind fun k => w.new[k]?).getD 0
/-- What a byte held before every store of the history. -/
def initial (tr : List Ev) (b : Loc) : Option Byte :=
  ((tr.filter fun w => writes w && touches w b).getLast?).bind fun w => (idx w b).bind fun k => w.old[k]?
/-- The versions of a byte that the history knows: those its stores wrote, and the one before them. -/
def versions (tr : List Ev) (b : Loc) : List (Option Nat × Byte) :=
  ((tr.filter fun w => writes w && touches w b).map fun w => (some w.id, byteOf w b)) ++ ((initial tr b).map fun x => (none, x)).toList
/-- A choice of versions for the bytes of a load, the `n`th of all; a byte that no store of the history touches is as it is. -/
def choose (tr : List Ev) (e : Ev) (n : Nat) (cur : List Byte) : List (Option Nat × Byte) :=
  ((List.range cur.length).zip cur).map fun (j, x) =>
    let vs := versions tr (byteAt e.base j)
    (vs[n / (tr.length + 1) ^ j % (tr.length + 1)]?).getD (vs.headD (none, x))
/-- The stores that the newest bytes come from. -/
def latest (tr : List Ev) (e : Ev) : List (Option Nat) := (bytesOf e).map fun b => (newest tr b).map (·.id)
/-- The place after every store in the coherence order. -/
def top (tr : List Ev) : Nat := tr.foldl (fun m e => max m (e.co + 1)) 1
/-- The history with a store moved to place `p` of the coherence order. -/
def placeAt (tr : List Ev) (n p : Nat) : List Ev :=
  tr.map fun e => if e.id = n then { e with co := p } else if p ≤ e.co then { e with co := e.co + 1 } else e

end Order

namespace State

-- agents (R17, R229)

/-- The partition a package belongs to, a package alone its own (R6). -/
def partOf (s : State) (p : Nat) : Nat := match (s.pkg p).pid with | some i => 2 * i + 1 | none => 2 * p
def agentPlace (s : State) (c : CoreId) : Place := { part := s.partOf c.pkg, tray := (s.pkg c.pkg).tray, pkg := c.pkg, die := c.die, core := c.core }
def whoOf (s : State) (t : ThreadId) : Who := if isHost t then .host t.wave.core else .thread (s.wave t.wave).team (s.wave t.wave).num t.lane
/-- `CTX_FLAGS.UNIF` of a context on a core (R244). -/
def unifOn (s : State) (c : CoreId) (k : Nat) : Bool :=
  ((Map.find (s.core c).loaded k).elim (s.context k).regs (·.regs)).ctxFlags.getLsbD 1
/-- An event of a thread. -/
def threadEv (s : State) (t : ThreadId) (kind : EvKind) : Ev :=
  { who := s.whoOf t, place := s.agentPlace t.wave.core, grid := (s.team (s.wave t.wave).team).grid,
    ctx := if isHost t then none else some (s.ctxOf t), kind, unified := s.unif t }
/-- An access of a word of a thread, in its ordering form and scope. -/
def access (s : State) (t : ThreadId) (kind : EvKind) (path : Path) (ord : Ord) (scp : Option Scope) : Ev :=
  { s.threadEv t kind with path, ord, scp, word := some s.wordEv }
/-- An event of an engine of a package that acts for no thread. -/
def hubEv (s : State) (p : Nat) (kind : EvKind) : Ev :=
  { who := .hub p, place := { s.agentPlace ⟨p, 8, 0⟩ with hub := true }, kind, bytewise := true }

-- the history

def record (s : State) (e : Ev) : State := { s with trace := { e with id := s.nextEv } :: s.trace, nextEv := s.nextEv + 1 }
/-- Records an event that is no access: before any access it orders nothing. -/
def recordPoint (s : State) (e : Ev) : State := if s.trace = [] then s else s.record e

/-- Another history in place of this one where the memory model allows it, and what a load or store is with it. -/
def allow (s : State) (tr : List Ev) (yes no : α) : State × α := if Order.consistent tr then ({ s with trace := tr }, yes) else (s, no)

/-- The bytes that one access of a load returns, `cur` being the newest. It is recorded where it is strong and follows some event, or meets a
store of the history; one whose value is in `flight` keeps its place in any case. -/
def readEv (s : State) (e : Ev) (flight : Bool) (cur : List Byte) : State × Ev × List Byte :=
  let e := { e with len := cur.length }
  let met := s.trace.any fun w => Order.writes w && Order.overlap e w
  if !met && (e.scp.isNone || s.trace = []) then ({ s with nextEv := s.nextEv + (if flight then 1 else 0) }, { e with id := s.nextEv }, cur)
  else
    let e := { e with id := s.nextEv, rf := Order.latest s.trace e }
    let tr := s.trace
    let s := s.record e
    if !tr.any (Order.foreign e) then (s, e, cur)
    else
      let (k, s) := s.freeIdx
      match Config.freeNat k with
      | 0 => (s, e, cur)
      | n + 1 =>
        let xs := Order.choose tr e n cur
        let e' := { e with rf := xs.map (·.1) }
        s.allow (e' :: tr) (e', xs.map (·.2)) (e, cur)

/-- A load that returns the newest bytes. -/
def readNewest (s : State) (e : Ev) (n : Nat) : State :=
  let e := { e with len := n }
  s.record { e with rf := Order.latest s.trace e }
/-- A load in flight takes bytes of stores made since, where the memory model allows it, by a free choice (R239, R241, R250). -/
def rebind (s : State) (e : Ev) (cur : List Byte) : State × Ev × List Byte :=
  if !s.trace.any (fun w => Order.foreign e w && decide (e.id < w.id)) then (s, e, cur)
  else
    let (k, s) := s.freeIdx
    match Config.freeNat k with
    | 0 => (s, e, cur)
    | n + 1 =>
      let tr := s.trace.filter (·.id ≠ e.id)
      let xs := Order.choose tr e n cur
      let e' := { e with rf := xs.map (·.1) }
      s.allow (e' :: tr) (e', xs.map (·.2)) (e, cur)

/-- Records a store or an RMW whose place held `old`, and answers what the place holds then: `new`, unless a free choice puts a store before others that other agents
made (R234). -/
def writeEv (s : State) (e : Ev) (old new : List Byte) : State × List Byte :=
  let e := { e with id := s.nextEv, co := Order.top s.trace, len := new.length, old, new }
  let e := if e.kind = .rmw then { e with rf := Order.latest s.trace e } else e
  let far := s.trace.any (Order.foreign e)
  let s := s.record e
  if e.kind = .rmw || !far then (s, new)
  else
    let (k, s) := s.freeIdx
    match Config.freeNat k with
    | 0 => (s, new)
    | n + 1 =>
      let tr := Order.placeAt s.trace e.id (n % (e.co + 1))
      s.allow tr (((List.range new.length).zip new).map fun (j, x) => (Order.newest tr (Order.byteAt e.base j)).elim x fun w => Order.byteOf w (Order.byteAt e.base j)) new

-- dependencies (R235)

/-- What a register of a thread is named by; an s register is its wave's. -/
def depKey (s : State) (t : ThreadId) (r : DepReg) : Who × DepReg :=
  match r with | .s _ => (s.whoOf ⟨t.wave, 0⟩, r) | _ => (s.whoOf t, r)
def depsOf (s : State) (t : ThreadId) (rs : List DepReg) : List Nat :=
  if s.deps = [] then [] else (rs.flatMap fun r => Map.getD s.deps (s.depKey t r) []).eraseDups
def setDeps (s : State) (t : ThreadId) (rs : List DepReg) (ds : List Nat) : State :=
  if ds = [] ∧ s.deps = [] then s
  else rs.foldl (fun (s : State) r => { s with deps := if ds = [] then Map.erase s.deps (s.depKey t r) else Map.set s.deps (s.depKey t r) ds }) s

-- engine operations (R245)

/-- The path of an operation's accesses (Table 10.3). -/
def pathOfOp (k : OpKind) : Path :=
  match k with
  | .cpy | .cpyi => .cp
  | .mma | .accld | .accst => .mx
  | .coll | .cgrp | .cgrpFree => .cl
  | .kvx => .kv
  | _ => .ls
/-- An access of an engine at work on an operation: it counts as an agent of the core whose thread started it, and is weak and single-copy atomic per byte; `ACCLD` and
`ACCST` make relaxed accesses of their thread at `core` (R17, R227, R230, R231). -/
def opEv (s : State) (o : Op) : Ev :=
  if o.kind = .accld ∨ o.kind = .accst then { s.access o.issuer .load .mx .rlx (some .core) with word := none, bytewise := true }
  else { who := .engine o.num, place := s.agentPlace o.core, grid := o.grid, ctx := some o.ctx, kind := .load, path := pathOfOp o.kind, unified := s.unifOn o.core o.ctx, bytewise := true }
/-- Every access of the thread that issues an operation precedes it (R245). -/
def startOp (s : State) (n : Nat) (o : Op) : State := (s.setOp n o).recordPoint (s.threadEv o.issuer (.start n))
/-- An operation with a token is issued: the token is pending (R35). -/
def startToken (s : State) (n : Nat) (o : Op) : State :=
  let s := (s.startOp n o).modWave o.wave fun w => { w with pending := o.tok :: w.pending.filter (· ≠ o.tok) }
  { s with tokens := Map.set s.tokens (s.whoOf o.issuer, o.tok) n }
/-- A thread reads s registers: the first read of a completed token follows every access of its operation (R245). -/
def readTokens (s : State) (t : ThreadId) (ns : List Nat) : State :=
  if s.tokens = [] then s
  else ns.foldl (fun (s : State) n =>
    match Map.find s.tokens (s.whoOf t, n) with
    | some op => ({ s with tokens := Map.erase s.tokens (s.whoOf t, n) }).recordPoint (s.threadEv t (.token op))
    | none => s) s

end State

/-- Words of a little-endian byte string. -/
def wordsOf (bs : List Byte) : List Word := (List.range (bs.length / 4)).map fun k => BitVec.ofNat 32 (field bs (4 * k) 4)
/-- The registers a loaded value gives (R115, R281). -/
def loadWords (signed : Bool) (bs : List Byte) : List Word :=
  if bs.length ≥ 4 then wordsOf bs
  else [if signed then ((BitVec.ofNat (8 * bs.length) (leNat bs)).signExtend 32) else BitVec.ofNat 32 (leNat bs)]

namespace State

/-- A result with other words. -/
def withWords (p : Pending) (ws : List Word) : Pending :=
  { p with vw := (p.vw.zip ws).map fun (x, w) => (x.1, w), sw := (p.sw.zip ws).map fun (x, w) => (x.1, w), latch := p.latch.map fun (k, b, _) => (k, b, ws) }
/-- Binds the loads of a result in flight: its words, and what they depend on (R235, R239). -/
def bindLoads (s : State) (p : Pending) : State × Pending :=
  match p.load with
  | none => (s, p)
  | some x =>
    let r := x.evs.foldl (fun (acc : State × List Ev × List Byte) e =>
      let (s, es, bs) := acc
      let (s, e, b) := s.rebind e ((x.bytes.drop bs.length).take e.len)
      (s, es ++ [e], bs ++ b)) (s, [], [])
    let p := if x.evs = [] ∨ r.2.2 = x.bytes then p else withWords p (loadWords x.signed r.2.2)
    (r.1, { p with load := none, deps := p.deps ++ (r.2.1.map (·.id)).filter fun n => r.1.trace.any (·.id = n) })
/-- What a result in flight is when it is delivered; its registers then depend on its loads. -/
def bindResult (s : State) (t : ThreadId) (p : Pending) : State × Pending :=
  let (s, p) := s.bindLoads p
  (s.setDeps t (p.vw.map (fun x => .v x.1) ++ p.sw.map (fun x => .s x.1) ++ p.pw.map fun x => .p x.1) p.deps, p)

end State
end Sys2Proof.Machine
end

