-- ==== Sys2Proof/Machine/Ops.lean ====
section
/-! DEFINITION. The named operations over registers, runs, thread states, traps and their return. -/

namespace Sys2Proof.Machine

-- v registers (R33, R81 to R88, R95)

/-- Empties every latch binding that names a register (R84). -/
def unbindLatches (m : Map Nat Latch) (n : Nat) : Map Nat Latch :=
  Map.mapVals m fun _ l => if l.bind = some n then { l with bind := none } else l
/-- Updates (or with `none` discards) every operand-cache copy bound to a register (R88). -/
def updateCopies (m : Map Nat OEntry) (n : Nat) (x : Option Word) : Map Nat OEntry :=
  Map.mapVals m fun _ e => if e.bind = some n then { e with copy := x.bind fun y => e.copy.map fun _ => y } else e

/-- Results whose destination the hardware guards itself, without a lookahead count (R211, R225). -/
def PendKind.quick : PendKind → Bool
  | .trd | .mxr => true
  | _ => false

namespace Thread

/-- A read of a v register through an operand field (R33, R397). -/
def readV (chkd : Bool) (th : Thread) (n : Nat) : Except Cause Word :=
  if th.poisoned.contains n then .error .poison
  else match Map.find th.v n with
    | some x => .ok x
    | none => if chkd then .error .deadrd else .ok 0

/-- A write of a v register makes it live, empties latch bindings to it and updates copies (R33, R84, R88). -/
def writeV (th : Thread) (n : Nat) (x : Word) : Thread :=
  { th with v := Map.set th.v n x, poisoned := th.poisoned.filter (· ≠ n), latches := unbindLatches th.latches n,
            ocache := updateCopies th.ocache n (some x) }
/-- Writes consecutive registers. -/
def writeVs (th : Thread) (n : Nat) : List Word → Thread
  | [] => th
  | x :: xs => (th.writeV n x).writeVs (n + 1) xs

/-- A dead mark (R95). -/
def killV (th : Thread) (n : Nat) : Thread :=
  { th with v := Map.erase th.v n, poisoned := th.poisoned.filter (· ≠ n), latches := unbindLatches th.latches n,
            ocache := updateCopies th.ocache n none }
/-- The release of a register by `SHRK` (R371). -/
def releaseV (th : Thread) (n : Nat) : Thread :=
  let th := th.killV n
  { th with ocache := Map.mapVals th.ocache fun _ e => if e.bind = some n then {} else e }

/-- A deposit into a latch entry (R82). -/
def deposit (th : Thread) (k : Nat) (x : Word) (bind : Option Nat) (window : Nat) : Thread :=
  { th with latches := Map.set th.latches k { val := some x, bind, window } }
/-- Deposits the words of a result from latch `k` upward, bound to registers from `bind` upward (R65). -/
def depositAll (th : Thread) (k : Nat) (bind : Option Nat) (window : Nat) : List Word → Thread
  | [] => th
  | x :: xs => (th.deposit k x bind window).depositAll (k + 1) (bind.map (· + 1)) window xs

/-- One more issued word: every open window covers one word less (R82). -/
def tickWindows (th : Thread) : Thread :=
  { th with latches := Map.mapVals th.latches fun _ l => { l with window := l.window - 1 } }

/-- A read of a latch entry (Table 4.2). -/
def readH (chkd : Bool) (th : Thread) (k : Nat) : Except Cause Word :=
  let l := Map.getD th.latches k {}
  match l.window, l.val, l.bind with
  | _ + 1, some x, _ => .ok x
  | _, _, some n => th.readV chkd n
  | _, _, none => .error .staleh
/-- A read of an operand-cache entry (R88). -/
def readO (chkd : Bool) (th : Thread) (k : Nat) : Except Cause Word :=
  let e := Map.getD th.ocache k {}
  match e.bind, e.copy with
  | none, _ => .error .staleh
  | some _, some x => .ok x
  | some n, none => th.readV chkd n
/-- The copy an operand-cache read leaves (R88). -/
def fillO (th : Thread) (k : Nat) : Thread :=
  let e := Map.getD th.ocache k {}
  match e.bind.bind (Map.find th.v) with
  | some x => { th with ocache := Map.set th.ocache k { e with copy := some x } }
  | none => th

/-- Predicate `p` of a thread; 7 is `pt` (R30). -/
def pred (th : Thread) (p : Nat) : Bool := p ≥ 7 || th.preds.getLsbD p
/-- A write to a predicate; a write to `pt` is discarded (R30). -/
def setPred (th : Thread) (p : Nat) (x : Bool) : Thread :=
  if p ≥ 7 then th
  else { th with preds := if x then th.preds ||| BitVec.ofNat 7 (2 ^ p) else th.preds &&& ~~~ BitVec.ofNat 7 (2 ^ p) }
/-- Whether a guard passes (R30, R56). -/
def passes (th : Thread) (g : Guard) : Bool := th.pred g.p != g.neg
/-- Sets sticky flags (R32, R143). -/
def raise (th : Thread) (f : Flags) : Thread := { th with flags := th.flags ||| f }

def runnable (th : Thread) : Bool := th.status = .runnable
/-- The long-latency results in flight. -/
def longPends (th : Thread) : List Pending := th.pend.filter fun p => !p.kind.quick
def exited (th : Thread) : Bool := th.status = .exited

/-- What the end of a run takes from a thread: latch values, windows and copies (R81, R86). -/
def endRun (th : Thread) : Thread :=
  { th with latches := Map.mapVals th.latches fun _ l => { l with val := none, window := 0 },
            ocache := Map.mapVals th.ocache fun _ e => { e with copy := none } }

/-- A latch-only value with an open window (R85). -/
def latchOnly (th : Thread) : Bool := th.latches.any fun (_, l) => l.window > 0 && l.val.isSome && l.bind.isNone
/-- A latch-only value, its window open or the value still in flight, holds off a deschedule, a pre-emption and a forced switch (R85). -/
def holdsRun (th : Thread) : Bool := th.latchOnly || th.pend.any fun p => p.latch.elim false fun (_, b, _) => b.isNone

end Thread

-- s registers (R29, R35)

namespace Wave

def sreg (w : Wave) (n : Nat) : Word := Map.getD w.s n 0
def setS (w : Wave) (n : Nat) (x : Word) : Wave := { w with s := Map.set w.s n x }
def setSs (w : Wave) (n : Nat) : List Word → Wave
  | [] => w
  | x :: xs => (w.setS n x).setSs (n + 1) xs
def isPending (w : Wave) (n : Nat) : Bool := w.pending.contains n
/-- `Token.Complete` (R35). -/
def complete (w : Wave) (n : Nat) (x : Word) : Wave := { w.setS n x with pending := w.pending.filter (· ≠ n) }

end Wave

/-- A token value: status and result (R35). -/
def tokenValue (status result : Nat) : Word := BitVec.ofNat 32 (status * 2 ^ 24 + result % 2 ^ 24)

/-- Cause codes (Table 17.12). -/
def Cause.code : Cause → Nat
  | .illop => 0x01 | .illopd => 0x02 | .pairbank => 0x03 | .allot => 0x04 | .staleh => 0x05 | .align => 0x06 | .xlat => 0x07
  | .perm => 0x08 | .walkf => 0x09 | .poison => 0x0A | .leasev => 0x0B | .matres => 0x0C | .depth => 0x0D | .swtrap => 0x0E
  | .brkpt => 0x0F | .quiesce => 0x10 | .deadrd => 0x11

namespace State

/-- The lanes of a wave. -/
def lanes (w : WaveId) : List ThreadId := (List.range 32).map fun l => ⟨w, l⟩
/-- The threads of a team (R26). -/
def teamThreads (s : State) (n : Nat) : List ThreadId := (s.team n).waves.flatMap lanes
def teamOf (s : State) (t : ThreadId) : Nat := (s.wave t.wave).team

-- runs (R78 to R81)

/-- Ends the run of a core's group. -/
def endRun (s : State) (c : CoreId) : State :=
  let g := (s.core c).group
  let s := g.foldl (fun s t => s.modThread t Thread.endRun) s
  s.modCore c fun x => { x with group := [], runOpen := false, lastGroup := if g = [] then x.lastGroup else g }
/-- Removes a thread from the group of its core; its own upper-level values end with it (R79, R81). -/
def leaveGroup (s : State) (t : ThreadId) : State :=
  let s := s.modThread t Thread.endRun
  s.modCore t.wave.core fun x =>
    { x with group := x.group.filter (· ≠ t), runOpen := x.runOpen && (x.group.filter (· ≠ t)) ≠ [],
             lastGroup := if x.group.filter (· ≠ t) = [] ∧ x.group ≠ [] then x.group else x.lastGroup }

-- thread states (R27, R329)

/-- A thread stops being runnable: its wait count holds what it had reached, and `waitSince` is the cycle in which it stopped (R324). -/
def stopThread (s : State) (t : ThreadId) (st : Status) : State :=
  let n := s.coreTime t.wave.core
  s.modThread t fun th =>
    { th with status := st, waitAcc := if th.runnable then th.waitAcc + (n - th.waitSince) else th.waitAcc
              waitSince := if th.runnable then n else th.waitSince, urgent := none }
/-- A thread becomes runnable. -/
def wakeThread (s : State) (t : ThreadId) : State :=
  let n := s.now t.wave.core
  s.modThread t fun th => if th.runnable then th else { th with status := .runnable, waitSince := n }
/-- A thread is blocked at a word that issues again: its PC is that word, and it leaves the group (R27, R36). -/
def blockAt (s : State) (t : ThreadId) (pc : Dword) (on : BlockOn) : State :=
  (s.stopThread t (.blocked on)).modThread t (fun th => { th with pc := pc })
def parkThread (s : State) (t : ThreadId) (on : ParkOn) : State := s.stopThread t (.parked on)

-- rejoin masks (R333, R359)

/-- `Complete(K)` of R359. -/
def completeMask (s : State) (w : WaveId) (k : Nat) : State :=
  let x := s.wave w
  let e := Map.getD x.enrolled k 0
  let a := Map.getD x.arrived k 0
  if a ≠ 0 ∧ e &&& a = e then
    let s := s.setWave w { x with enrolled := Map.set x.enrolled k 0, arrived := Map.set x.arrived k 0 }
    (lanes w).foldl (fun s t => if (s.thread t).status = .parked (.mask k) then s.wakeThread t else s) s
  else s
/-- Lane bit `l` of a mask (R31). -/
def laneBit (l : Nat) : Word := BitVec.ofNat 32 (2 ^ l)
def enrolLane (s : State) (t : ThreadId) (k : Nat) : State :=
  s.modWave t.wave fun w => { w with enrolled := Map.set w.enrolled k (Map.getD w.enrolled k 0 ||| laneBit t.lane) }
def strikeLane (s : State) (t : ThreadId) (k : Nat) : State :=
  s.modWave t.wave fun w => { w with enrolled := Map.set w.enrolled k (Map.getD w.enrolled k 0 &&& ~~~ laneBit t.lane),
                                     arrived := Map.set w.arrived k (Map.getD w.arrived k 0 &&& ~~~ laneBit t.lane) }
def arriveLane (s : State) (t : ThreadId) (k : Nat) : State :=
  s.modWave t.wave fun w => { w with arrived := Map.set w.arrived k (Map.getD w.arrived k 0 ||| laneBit t.lane) }
/-- A thread that exits leaves every set of its wave (R333). -/
def leaveMasks (s : State) (t : ThreadId) : State :=
  let w := s.wave t.wave
  let drop := fun (_ : Nat) (x : Word) => x &&& ~~~ laneBit t.lane
  let s := s.setWave t.wave { w with enrolled := Map.mapVals w.enrolled drop, arrived := Map.mapVals w.arrived drop }
  (List.range 8).foldl (fun s k => s.completeMask t.wave k) s

-- barriers (R335, R361)

/-- Ends the phase of a barrier when every thread of the team that has not exited has arrived. -/
def completeBarrier (s : State) (tm : Nat) (n : Nat) : State :=
  let b := Map.getD (s.team tm).bars n {}
  if b.arrived ≠ [] ∧ (s.teamThreads tm).all (fun t => (s.thread t).exited || b.arrived.contains t) then
    let s := s.modTeam tm fun x => { x with bars := Map.set x.bars n { phase := b.phase + 1, arrived := [] } }
    let s := b.arrived.foldl (fun (s : State) t => s.recordPoint (s.threadEv t (.leave tm n b.phase))) s
    b.arrived.foldl (fun s t => if (s.thread t).status = .parked (.bar n) then s.wakeThread t else s) s
  else s
def arriveBarrier (s : State) (t : ThreadId) (n : Nat) : State :=
  let s := s.recordPoint (s.threadEv t (.arrive (s.teamOf t) n (Map.getD (s.team (s.teamOf t)).bars n {}).phase))
  s.modTeam (s.teamOf t) fun x =>
    let b := Map.getD x.bars n {}
    { x with bars := Map.set x.bars n { b with arrived := b.arrived.filter (· ≠ t) ++ [t] } }

-- leases (R263 to R267)

/-- Whether a thread holds a lease. -/
def holdsLease (s : State) (t : ThreadId) : Bool := (s.thread t).lease.elim false (·.lines ≠ [])
/-- Whether the lease of a thread other than `t` covers a line. -/
def leasedByOther (s : State) (t : ThreadId) (line : Nat) : Bool :=
  s.threads.any fun (t', th) => t' ≠ t && (th.lease.elim false fun l => l.lines.any (·.line = line))
/-- Whether any lease covers a line: an access of another agent to it waits (R263). -/
def lineLeased (s : State) (line : Nat) : Bool :=
  s.threads.any fun (_, th) => th.lease.elim false fun l => l.lines.any (·.line = line)
/-- Leases in force on a core. -/
def leasesOn (s : State) (c : CoreId) : Nat :=
  (s.threads.filter fun (t, th) => t.wave.core = c && (th.lease.elim false (·.lines ≠ []))).length
/-- Restores the snapshots of a lease (R264). -/
def restoreLines (s : State) (ls : List LeaseLine) : State :=
  { s with mem := ls.foldl (fun m l => memStore m l.line l.snapshot) s.mem }
/-- Threads blocked on a line whose lease or freeze has ended look again (R263, R275). -/
def wakeLeaseWaiters (s : State) (is : Nat → Bool) : State :=
  s.threads.foldl (fun s (t, th) =>
    match th.status with
    | .blocked (.leasedLine l) => if is l then s.wakeThread t else s
    | _ => s) s
/-- The probes held for the lines of a lease that has ended are served in order: each goes back to the network (R265). -/
def releaseHeld (s : State) (c : CoreId) (ls : List Nat) : State :=
  let q := (s.core c).holdQ
  let on (m : Msg) : Bool := (entryLines m.line m.size).any ls.contains
  let s := s.modCore c fun x => { x with holdQ := q.filter fun m => !on m }
  (q.filter on).foldl (fun s m =>
    let (i, s) := s.freshId
    { s with net := Map.set s.net i m }) s
/-- Sends a message. -/
def send (s : State) (m : Msg) : State :=
  let (i, s) := s.freshId
  { s with net := Map.set s.net i m }
/-- Drops a line from a core's L1: a sharer sends `PUTS`; an owner moves it to the eviction buffer, if one of its 16 places is free, and sends
`PUTO` (R253). -/
def evictLine (s : State) (c : CoreId) (line : Nat) (home : Agent) : State :=
  let x := s.core c
  match Map.find x.l1 line with
  | some .s => (s.setCore c (x.drop line)).send { kind := .puts, line, src := .core c, dst := home, sentAt := s.now c }
  | some _ =>
    if x.evict.length < 16 then
      (s.setCore c { x.drop line with evict := x.evict ++ [line] }).send
        { kind := .puto, line, src := .core c, dst := home, present := true, sentAt := s.now c }
    else s
  | none => s
/-- Writes an owned line to its home and keeps it in S (R297). -/
def writeBackLine (s : State) (c : CoreId) (line : Nat) (home : Agent) : State :=
  let x := s.core c
  match Map.find x.l1 line with
  | some .m | some .e =>
    (s.setCore c { x with l1 := Map.set x.l1 line .s }).send { kind := .wbs, line, src := .core c, dst := home, present := true, sentAt := s.now c }
  | _ => s
/-- Whether `CINV` or `CWB` must wait: the line is leased, or the eviction buffer is full (R253, R297). -/
def cacheOpWaits (s : State) (c : CoreId) (line : Nat) (inv : Bool) : Bool :=
  s.lineLeased line || (inv && (s.core c).evict.length ≥ 16 && (Map.find (s.core c).l1 line).elim false (· ≠ .s))
/-- `CINV` and `CWB` on one line, now or once it can be done. -/
def cacheOp (s : State) (c : CoreId) (line : Nat) (inv : Bool) (home : Agent) : State :=
  if s.cacheOpWaits c line inv then s.modCore c fun x => { x with cacheOps := x.cacheOps ++ [(line, inv, home)] }
  else if inv then s.evictLine c line home
  else s.writeBackLine c line home
/-- The cache operations of a core that waited, tried again. -/
def cacheWork (s : State) (c : CoreId) : State :=
  let ops := (s.core c).cacheOps
  ops.foldl (fun s (l, inv, home) => s.cacheOp c l inv home) (s.modCore c fun x => { x with cacheOps := [] })
/-- The end of a thread's lease, committed or with its snapshots restored. -/
def dropLease (s : State) (t : ThreadId) (restore : Bool) : State :=
  match (s.thread t).lease with
  | none => s
  | some l =>
    let ls := l.lines.map (·.line)
    let s := if restore then s.restoreLines l.lines else s
    let s := s.modThread t fun th => { th with lease := none }
    ((s.releaseHeld t.wave.core ls).cacheWork t.wave.core).wakeLeaseWaiters ls.contains
/-- Writes a register destination of one thread: v, s of its wave, or nothing (R28, R29). -/
def writeDst (s : State) (t : ThreadId) (d : Dst) (ws : List Word) : State :=
  match d with
  | .v n => s.modThread t (·.writeVs n ws)
  | .s n => s.modWave t.wave (·.setSs n ws)
  | .vz => s
/-- A broken lease continues at its fail target with the reason in the outer `LEASE`'s destination (R264, R292). -/
def breakLease (s : State) (t : ThreadId) (reason : Nat) : State :=
  match (s.thread t).lease with
  | none => s
  | some l =>
    let s := s.dropLease t true
    let s := s.writeDst t l.dst [BitVec.ofNat 32 reason]
    let s := s.leaveGroup t
    (s.wakeThread t).modThread t fun th => { th with pc := l.failTarget }

-- host entry and return (R374 to R378)

/-- `HSTAT` fields (Table 15.4). -/
def priv (h : HostRegs) : Nat := h.hstat.toNat % 4
def hostIE (h : HostRegs) : Bool := h.hstat.getLsbD 2
/-- `HSTAT` with the fields of Table 15.4. -/
def mkHstat (priv : Nat) (ie : Bool) (ppk : Nat) (piek : Bool) (ppm : Nat) (piem : Bool) : Dword :=
  BitVec.ofNat 64 (priv % 4 + (if ie then 4 else 0) + ppk % 4 * 8 + (if piek then 32 else 0) + ppm % 4 * 64 + (if piem then 256 else 0))
def ppk (h : HostRegs) : Nat := h.hstat.toNat / 8 % 4
def piek (h : HostRegs) : Bool := h.hstat.getLsbD 5
def ppm (h : HostRegs) : Nat := h.hstat.toNat / 64 % 4
def piem (h : HostRegs) : Bool := h.hstat.getLsbD 8

/-- An entry to level 1 or 2 on a host core (R376), its four steps. -/
def hostEnterRegs (h : HostRegs) (level : Nat) (resume : Dword) (cause eaddr : Dword) : HostRegs :=
  if level = 1 then
    { h with epcK := resume, ecauseK := cause, eaddrK := eaddr, hstat := mkHstat 1 false (priv h) (hostIE h) (ppm h) (piem h) }
  else
    { h with epcM := resume, ecauseM := cause, eaddrM := eaddr, hstat := mkHstat 2 false (ppk h) (piek h) (priv h) (hostIE h) }
/-- The entry of a host core's thread to a level: the registers of R376 and the PC. The run ends with the transfer. -/
def hostEnter (s : State) (c : CoreId) (level : Nat) (resume : Dword) (cause : Nat) (eaddr : Dword) : State :=
  let h := hostEnterRegs (s.host c) level resume (BitVec.ofNat 64 cause) eaddr
  let s := s.setHost c h
  let s := s.endRun c
  (s.wakeThread (hostThread c)).modThread (hostThread c) fun th => { th with pc := if level = 1 then h.kvec else h.mvec }
/-- The level a synchronous cause enters (R376). -/
def hostTrapLevel (h : HostRegs) : Nat := if priv h = 0 then 1 else 2
/-- `ECAUSE` of a synchronous cause (Table 15.6). -/
def ecause (code arg lvl : Nat) : Nat := code + arg % 256 * 256 + lvl % 8 * 65536
/-- `ERET` from level `L` (R378). -/
def hostReturn (s : State) (c : CoreId) : State :=
  let h := s.host c
  if priv h = 1 then
    let s := s.setHost c { h with hstat := mkHstat (ppk h) (piek h) (ppk h) (piek h) (ppm h) (piem h) }
    (s.endRun c).modThread (hostThread c) fun th => { th with pc := h.epcK }
  else
    let s := s.setHost c { h with hstat := mkHstat (ppm h) (piem h) (ppk h) (piek h) (ppm h) (piem h) }
    (s.endRun c).modThread (hostThread c) fun th => { th with pc := h.epcM }

-- results in flight (R82, R91, R97, R211, R225, R370)

end State

/-- Whether a write-back holds a bank of a lane pair in a cycle. -/
def Hold.at_ (q b n : Nat) (h : Hold) : Bool := h.pair = q && h.bank = b && h.cycle = n
/-- The first cycle from `n` on, of `k` and one, in which no write-back holds a bank: the younger of two that meet is delayed (R91). -/
def holdFrom (hs : List Hold) (q b : Nat) : Nat → Nat → Nat
  | 0, n => n
  | k + 1, n => if hs.any (·.at_ q b n) then holdFrom hs q b k (n + 1) else n
/-- The write-back of one row; both lanes of a pair write one row (R90, R91). -/
def holdRow (hs : List Hold) (x : Hold) : List Hold :=
  if hs.any fun h => h.pair = x.pair && h.row = x.row && x.cycle ≤ h.cycle then hs
  else { x with cycle := holdFrom hs x.pair x.bank hs.length x.cycle } :: hs

namespace State

/-- The write-backs of some rows, older first; holds of cycles before `n` are forgotten. -/
def holdRows (s : State) (c : CoreId) (n : Nat) (rows : List Hold) : State :=
  s.modCore c fun x => { x with wbHold := rows.foldl holdRow (x.wbHold.filter fun h => decide (n ≤ h.cycle)) }

/-- The window a deposit opens when it is made: two words, for a long-latency result those after its lookahead; the words issued since a `TRD` count
(R82, R211). -/
def windowOf (th : Thread) (p : Pending) : Nat := if p.kind.quick then p.issued + 3 - th.issued else p.la + 2
/-- Delivers a result to its thread: registers, flags, latch deposit (R82), and the write-back's hold (R91). The allotment of a `GROW` changes here (R370). -/
def deliver (s : State) (t : ThreadId) (p : Pending) : State :=
  let (s, p) := s.bindResult t p
  let s := match p.kind with
    | .grow n => s.modWave t.wave fun w => { w with allot := w.allot + n }
    | _ => s
  let s := s.modThread t fun th =>
    let th := p.vw.foldl (fun th (n, x) => th.writeV n x) th
    let th := p.pw.foldl (fun th (n, x) => th.setPred n x) th
    let th := th.raise p.flags
    match p.latch with
    | some (k, b, xs) => th.depositAll k b (windowOf th p) xs
    | none => th
  let s := if p.vw = [] then s
    else
      let rest := (s.wave t.wave).uniform.filter fun n => !p.vw.any (·.1 = n)
      if p.uni && decide (rest.length + p.vw.length ≤ 32) then s.modWave t.wave fun w => { w with uniform := p.vw.map (·.1) ++ rest }
      else
        (s.modWave t.wave fun w => { w with uniform := rest }).holdRows t.wave.core (s.now t.wave.core)
          (p.vw.map fun (n, _) => ⟨t.lane / 2, n % 4, p.due, t.wave.slot * 256 + n⟩)
  if p.sw = [] then s else s.modWave t.wave fun w => p.sw.foldl (fun w (n, x) => w.setS n x) w

/-- A trap recorded on a thread (R405). The thread keeps its PC at the faulting word and leaves its group. -/
def recordTrap (s : State) (t : ThreadId) (tr : Trap) : State :=
  let th := s.thread t
  match th.trap with
  | some old => s.modThread t fun th => { th with trap := some { old with more := true } }
  | none =>
    let more := th.pend.any (·.fault.isSome)
    let s := th.pend.foldl (fun s p => if p.fault.isSome then s else s.deliver t p) s
    let s := s.leaveGroup t
    let s := s.stopThread t .trapped
    s.modThread t fun th => { th with pc := tr.fpc, pend := [], lease := none, trap := some { tr with more := tr.more || more } }

/-- `Defer(cause)` (R405). On a host core the trap is raised at once (R374, R376); inside a lease no trap is raised and the lease breaks with
reason 3 (R264). -/
def defer (s : State) (t : ThreadId) (tr : Trap) : State :=
  if s.holdsLease t then s.breakLease t 3
  else if isHost t then
    let c := t.wave.core
    let arg := if tr.cause = .swtrap ∨ tr.cause = .brkpt then tr.arg else 0
    let lvl := if tr.cause = .walkf then tr.arg else 0
    let resume := if tr.cause = .swtrap then tr.npc else tr.fpc
    s.hostEnter c (hostTrapLevel (s.host c)) resume (ecause tr.cause.code arg lvl) tr.faddr
  else s.recordTrap t tr

/-- Delivers the results of a thread that `pick` chooses, in order of issue; a fault among them is deferred (R97, R405). -/
def settleThat (s : State) (t : ThreadId) (pick : Pending → Bool) : State :=
  let ps := (s.thread t).pend.filter pick
  let npc := (s.thread t).pc
  let rctr := (s.thread t).rctr
  if ps = [] then s else
  let s := s.modThread t fun th => { th with pend := th.pend.filter fun p => !pick p }
  ps.foldl (fun s p =>
    match p.fault with
    | none => s.deliver t p
    | some (c, arg, faddr) =>
      s.defer t { cause := c, arg, fpc := p.fpc, npc, rentry := p.rentry, rctr := p.rctr,
                  precise := (s.thread t).issued = p.issued + 1, xreg := rctr ≠ p.rctr, faddr }) s
/-- The results of a thread that are due by a cycle arrive. -/
def settleDue (s : State) (t : ThreadId) (n : Nat) : State := s.settleThat t fun p => decide (p.due ≤ n)
/-- Every result a thread still awaits arrives. -/
def settle (s : State) (t : ThreadId) : State := s.settleThat t fun _ => true

-- exits (R27, R358)

/-- The storage of an ended team is dropped once no engine operation that its threads started acts on it any more (R358; log entry 29). -/
def clearTeam (s : State) (n : Nat) : State :=
  let x := s.team n
  if x.place = .ended ∧ s.ops.all (fun (_, o) => o.team ≠ n || isHost o.issuer) then
    s.setTeam n { x with handles := [], tiles := [], scratch := [], bars := [] }
  else s
/-- A team ends when all its waves have ended (R27): its resources are free, and its core forgets a context it hosts no more (R42, R48). -/
def reapTeam (s : State) (n : Nat) : State :=
  let x := s.team n
  if x.place = .resident ∧ (s.teamThreads n).all (fun t => (s.thread t).exited) then
    let s := s.setTeam n { x with place := .ended }
    let s := x.waves.foldl (fun s w => s.modWave w fun y => { y with live := false, absent := none, uniform := [] }) s
    let s := if s.teams.any (fun (_, y) => y.place = .resident && y.core = x.core && y.ctx = x.ctx) then s
      else s.modCore x.core fun c => { c with loaded := Map.erase c.loaded x.ctx }
    s.clearTeam n
  else s
/-- The exit of a thread (R358): its lease ends without a reason, results in flight complete (R248), it leaves the rejoin sets and counts as arrived at every barrier. -/
def exitThread (s : State) (t : ThreadId) : State :=
  let s := s.dropLease t true
  let s := (s.thread t).pend.foldl (fun s p => if p.fault.isSome then s else s.deliver t p) s
  let s := s.leaveGroup t
  let s := s.stopThread t .exited
  let s := s.modThread t fun th => { th with trap := none, pend := [] }
  let s := s.leaveMasks t
  let tm := s.teamOf t
  let s := (List.range 16).foldl (fun s n => s.completeBarrier tm n) s
  s.reapTeam tm

-- tokens (R35, R36)

/-- The threads blocked on a token of a wave become runnable. -/
def wakeToken (s : State) (w : WaveId) (n : Nat) : State :=
  s.threads.foldl (fun s (t, th) => if th.status = .blocked (.token w n) then s.wakeThread t else s) s
/-- Completes a token (R35) of a team's wave; where the team has ended and another has the wave's slot, nothing reads it (R358). -/
def completeToken (s : State) (tm : Nat) (w : WaveId) (n : Nat) (x : Word) : State :=
  if (s.wave w).team = tm then (s.modWave w (·.complete n x)).wakeToken w n else s

end State
end Sys2Proof.Machine
end

