-- ==== Sys2Proof/Machine/Flags.lean ====
section
/-! DEFINITION. Results with their sticky flags: integer results, saturation, conversions (R114, R115, R122, R125 to R129, R143). -/

namespace Sys2Proof.Machine

/-- The result of a lane with the flags it raises (R143). -/
structure Res where
  val : Dword
  flags : Flags := 0
  deriving DecidableEq, Repr

/-- `Int(x, T)`: the number an operand stands for (R142). -/
def intOf (t : OTy) (x : Dword) : Int :=
  if t.signed then (x.toNat : Int).bmod (2 ^ t.width) else ((x.toNat % 2 ^ t.width : Nat) : Int)

/-- `Ext(y, T)`: the register image of a result (R115). -/
def extend (t : OTy) (y : Int) : Dword :=
  let low := y % 2 ^ t.width
  if t.width < 32 ∧ t.signed then BitVec.ofInt 64 (low.bmod (2 ^ t.width) % 2 ^ 32) else BitVec.ofInt 64 low

def intMin (t : OTy) : Int := if t.signed then -(2 ^ (t.width - 1)) else 0
def intMax (t : OTy) : Int := if t.signed then 2 ^ (t.width - 1) - 1 else 2 ^ t.width - 1
/-- `Sat(x, T)` (Table 0.2). -/
def clampInt (t : OTy) (x : Int) : Int := if x < intMin t then intMin t else if intMax t < x then intMax t else x

/-- An integer result of exact value x: wrapped, or clamped with `ISAT` when the clamp changes it (R146). -/
def intRes (t : OTy) (sat : Bool) (x : Int) : Res :=
  if sat then ⟨extend t (clampInt t x), if clampInt t x = x then 0 else Flag.isat⟩ else ⟨extend t x, 0⟩

/-- A bit-string result. -/
def bitRes (t : OTy) (x : Nat) : Res := ⟨BitVec.ofNat 64 (x % 2 ^ t.width), 0⟩

/-- A result given as bits and flags. -/
def fltRes (r : Nat × Flags) : Res := ⟨BitVec.ofNat 64 r.1, r.2⟩

/-- The floating format of an operand type. -/
def OTy.fmt : OTy → Option FFmt
  | .f32 => some .f32 | .f16 => some .f16 | .bf16 => some .bf16 | .f64 => some .f64
  | .e4m3 => some .e4m3 | .e5m2 => some .e5m2 | .e2m1 => some .e2m1
  | _ => none

/-- A conversion between floating formats (R125, R126, R166). Between one format a value passes unchanged, an infinity of `.e5m2` under `.sat` too, for which
R126 alone would give ±57,344 (log entry 50, DEDUCED). -/
def cvtFF (mode : Rnd) (sat : Bool) (src dst : FFmt) (x : Nat) : Nat × Flags :=
  match fdecode src x with
  | .nan s => if dst = .e2m1 then (0, Flag.nv) else (dst.nanBits, nvIf s)
  | .inf n =>
    if src = dst then (x % 2 ^ dst.width, 0) else
    match dst with
    | .e4m3 => (if sat then withSign dst n dst.maxBits else dst.nanBits, Flag.nv)
    | .e2m1 => (withSign dst n dst.maxBits, Flag.nv)
    | .e5m2 => (if sat then withSign dst n dst.maxBits else withSign dst n (dst.infBits.getD 0), 0)
    | _ => (withSign dst n (dst.infBits.getD 0), 0)
  | .fin d => if src = dst then (x % 2 ^ dst.width, 0) else roundTo mode sat dst d

/-- A conversion from a floating format to an integer type (Table 6.6). -/
def cvtFI (mode : Rnd) (src : FFmt) (dst : OTy) (x : Nat) : Res :=
  match fdecode src x with
  | .nan _ => ⟨0, Flag.nv⟩
  | .inf n => ⟨extend dst (if n then intMin dst else intMax dst), Flag.nv⟩
  | .fin d =>
    let (v, inexact) := d.toInteger mode
    if v < intMin dst then ⟨extend dst (intMin dst), Flag.nv⟩
    else if intMax dst < v then ⟨extend dst (intMax dst), Flag.nv⟩
    else ⟨extend dst v, if inexact then Flag.nx else 0⟩

/-- A conversion from an integer to a floating format (R128). -/
def cvtIF (mode : Rnd) (sat : Bool) (src : OTy) (dst : FFmt) (x : Dword) : Nat × Flags :=
  let v := intOf src x
  roundTo mode sat dst ⟨v < 0, v.natAbs, 0⟩

/-- A conversion between integer types (R129). -/
def cvtII (sat : Bool) (src dst : OTy) (x : Dword) : Res := intRes dst sat (intOf src x)

/-- `CVT` (R166). -/
def cvtRes (mode : Rnd) (sat : Bool) (dst src : OTy) (x : Dword) : Res :=
  match OTy.fmt src, OTy.fmt dst with
  | none, none => cvtII sat src dst x
  | some f, some g => fltRes (cvtFF mode sat f g x.toNat)
  | some f, none => cvtFI mode f dst x.toNat
  | none, some g => fltRes (cvtIF mode sat src g x)

end Sys2Proof.Machine
end

