-- ==== Sys2Proof/Machine/Operands.lean ====
section
/-! DEFINITION. Operand delivery: the value of every source form (R58 to R64, R83, R88), what a lane of a word reads, marks dead and
writes (R66), and the registers a word names (R41, R71, R97). -/

namespace Sys2Proof.Machine

/-- An immediate or `vz` at an operand type (R60). One that is not exact in `.e4m3`, `.e5m2` or `.e2m1`, a source of `CVT`, is rounded to nearest even, with no
flag (log entry 43, DESIGN CHOICE). -/
def immVal (t : OTy) (i : Int) : Dword :=
  match OTy.fmt t with
  | some f => BitVec.ofNat 64 (roundTo .rne false f ⟨i < 0, i.natAbs, 0⟩).1
  | none => if t.regs = 2 then BitVec.ofInt 64 i else (BitVec.ofInt 32 i).setWidth 64

/-- A literal at an operand type (Table 3.6). A signalling NaN becomes the canonical NaN of `.f64`, with no flag (log entry 44, DESIGN CHOICE). -/
def litVal (t : OTy) (l : Word) : Dword :=
  match t with
  | .i64 | .b64 => l.signExtend 64
  | .f64 => BitVec.ofNat 64 (cvtFF .rne false .f32 .f64 l.toNat).1
  | _ => l.setWidth 64

namespace State

/-- One register of a source operand (Table 3.5, R59). -/
def readReg (s : State) (t : ThreadId) : Src → Except Cause Word
  | .v n => (s.thread t).readV (s.chkd t) n
  | .s n => .ok ((s.wave t.wave).sreg n)
  | .o k => (s.thread t).readO (s.chkd t) k
  | .h k => (s.thread t).readH (s.chkd t) k
  | .vz => .ok 0
  | .lit l => .ok l
  | .imm i => .ok (BitVec.ofInt 32 i)

end State

/-- The operand `k` registers on: the next register, entry or latch (R28, R83, R88). -/
def srcUp (x : Src) (k : Nat) : Src :=
  match x with
  | .v n => .v (n + k)
  | .s n => .s (n + k)
  | .o n => .o (n + k)
  | .h n => .h (n + k)
  | y => y

namespace State

/-- A source operand at its type: one register, or a pair (R28, R60, R64). -/
def readOp (s : State) (t : ThreadId) (x : Src) (ty : OTy) : Except Cause Dword :=
  match x with
  | .vz => .ok 0
  | .imm i => .ok (immVal ty i)
  | .lit l => .ok (litVal ty l)
  | _ =>
    if ty.regs = 2 then
      match s.readReg t x, s.readReg t (srcUp x 1) with
      | .ok lo, .ok hi => .ok (pair64 hi lo)
      | .error c, _ => .error c
      | _, .error c => .error c
    else (s.readReg t x).map (·.setWidth 64)

/-- The registers of a span of four (R282, R287). -/
def readQuad (s : State) (t : ThreadId) (x : Src) : Except Cause (List Word) :=
  [0, 1, 2, 3].mapM fun k => s.readReg t (srcUp x k)

/-- Operands in the order of the fields; the first that traps gives the cause (log entry 11). -/
def readOps (s : State) (t : ThreadId) : List (SrcD × OTy) → Except Cause (List Dword)
  | [] => .ok []
  | (x, ty) :: xs =>
    match s.readOp t x.src ty with
    | .error c => .error c
    | .ok v => (s.readOps t xs).map (v :: ·)

end State

/-- The v registers a source names. -/
def srcRegs (x : Src) (regs : Nat) : List Nat :=
  match x with
  | .v n => (List.range regs).map (n + ·)
  | _ => []
/-- The registers a dead-marked source kills (R66). -/
def deadRegs (xs : List (SrcD × OTy)) : List Nat :=
  xs.flatMap fun (x, ty) => if x.dead then srcRegs x.src ty.regs else []

/-- The result words of a value: one, or low and high (R28). -/
def resWords (regs : Nat) (x : Dword) : List Word := if regs = 2 then [lo32 x, hi32 x] else [lo32 x]

namespace Thread

/-- The upper-level effects of reading operands: operand-cache copies (R88). -/
def touch (th : Thread) (xs : List (SrcD × OTy)) : Thread :=
  xs.foldl (fun th (x, ty) =>
    match x.src with
    | .o k => if ty.regs = 2 then (th.fillO k).fillO (k + 1) else th.fillO k
    | _ => th) th

/-- Dead marks on registers (R66, R95). -/
def killAll (th : Thread) (ns : List Nat) : Thread := ns.foldl killV th

/-- `WriteDst` of one thread: a v destination with its deposit, a latch-only value, or a predicate (R65, R82). An s destination is written for
the wave (R29). A window counts the depositing word itself at its end. -/
def writeField (th : Thread) (d : DFld) (hold : Option Nat) (x : Dword) : Thread :=
  match d with
  | .reg (.v n) regs _ _ | .vreg n regs =>
    let ws := resWords regs x
    let th := th.writeVs n ws
    match hold with
    | some k => th.depositAll k (some n) 3 ws
    | none => th
  | .reg .vz regs _ _ =>
    match hold with
    | some k => th.depositAll k none 3 (resWords regs x)
    | none => th
  | .pred p => th.setPred p (x.getLsbD 0)
  | _ => th

end Thread

/-- One operation of a word on a lane: a full word has one, a pair word up to two (R68). -/
structure Micro where
  guard : Guard
  srcs : List (SrcD × OTy)
  dst : DFld
  hold : Option Nat := none
  f : List Dword → Res

/-- The sources of a shape, in the order SA, SB, SC. -/
def Shape.srcs (x : Shape) : List (SrcD × OTy) :=
  [x.sa, x.sb, x.sc].filterMap fun
    | .src y k =>
      some (y, match k with
        | .any t | .uni t | .vs t | .vsz t | .data t => t
        | .immLit => .b32
        | .pairImm => .n64)
    | _ => none

/-- The operation of a full word with result function `f` (R55). -/
def microOf (i : Instr) (f : List Dword → Res) : Micro :=
  match i.shape with
  | some x => { guard := x.hdr.guard, srcs := Shape.srcs x, dst := x.dst, hold := x.hdr.hold, f }
  | none => { guard := ⟨false, 7⟩, srcs := [], dst := .zero, f }

/-- The outcome of a word on a lane: a trap, or for each operation its result when its guard passes. -/
inductive LaneOut where
  | trap (c : Cause)
  | done (rs : List (Option Res))
  deriving DecidableEq, Repr

namespace State

/-- What a lane computes: all its sources are read before anything is written (R66, R69). -/
def evalLane (s : State) (t : ThreadId) (ms : List Micro) : LaneOut :=
  match ms with
  | [] => .done []
  | m :: ms =>
    if (s.thread t).passes m.guard then
      match s.readOps t m.srcs with
      | .error c => .trap c
      | .ok vs =>
        match s.evalLane t ms with
        | .trap c => .trap c
        | .done rs => .done (some (m.f vs) :: rs)
    else
      match s.evalLane t ms with
      | .trap c => .trap c
      | .done rs => .done (none :: rs)

end State

namespace Thread

/-- The writes of the operations of a word, after every dead mark (R66). -/
def writeMicros (th : Thread) : List Micro → List (Option Res) → Thread
  | m :: ms, some r :: rs => (((th.raise r.flags).writeField m.dst m.hold r.val)).writeMicros ms rs
  | _ :: ms, none :: rs => th.writeMicros ms rs
  | _, _ => th
/-- Reads' copies and dead marks of the operations that were active. -/
def killMicros (th : Thread) : List Micro → List (Option Res) → Thread
  | m :: ms, some _ :: rs => ((th.touch m.srcs).killAll (deadRegs m.srcs)).killMicros ms rs
  | _ :: ms, none :: rs => th.killMicros ms rs
  | _, _ => th
/-- A lane's word on its own thread: dead marks, then destinations (R66). -/
def applyMicros (th : Thread) (ms : List Micro) (rs : List (Option Res)) : Thread :=
  (th.killMicros ms rs).writeMicros ms rs

end Thread

-- the registers a word names

/-- The v registers of an instruction, given as (first, count) spans (R41, R71). -/
def SFld.vspans : SFld → List (Nat × Nat)
  | .src x (.any t) | .src x (.uni t) | .src x (.vs t) | .src x (.vsz t) | .src x (.data t) =>
    (match x.src with | .v n => [(n, t.regs)] | _ => [])
  | .src x .pairImm => (match x.src with | .v n => [(n, 2)] | _ => [])
  | .span n c _ _ => [(n, c)]
  | _ => []
def DFld.vspans : DFld → List (Nat × Nat)
  | .reg (.v n) r _ _ => [(n, r)]
  | .vreg n r => [(n, r)]
  | .span n c _ => [(n, c)]
  | .data (.v n) t => [(n, t.regs)]
  | _ => []
/-- The s registers a field names, as (first, count). -/
def SFld.sspans : SFld → List (Nat × Nat)
  | .src x (.any t) | .src x (.uni t) | .src x (.vs t) | .src x (.vsz t) | .src x (.data t) =>
    (match x.src with | .s n => [(n, t.regs)] | _ => [])
  | .sreg n a => [(n, a)]
  | _ => []
def DFld.sspans : DFld → List (Nat × Nat)
  | .reg (.s n) r _ _ => [(n, r)]
  | .sreg n a => [(n, a)]
  | .data (.s n) t => [(n, t.regs)]
  | _ => []
def Half.vspans (x : Half) : List (Nat × Nat) :=
  (x.d, 1) :: (match x.s.src with | .v n => [(n, 1)] | _ => [])
def Half.sspans (x : Half) : List (Nat × Nat) := match x.s.src with | .s n => [(n, 1)] | _ => []
def Instr.vspans (i : Instr) : List (Nat × Nat) :=
  match i with
  | .pairWord a b => a.elim [] Half.vspans ++ b.elim [] Half.vspans
  | _ => i.shape.elim [] fun x => DFld.vspans x.dst ++ SFld.vspans x.sa ++ SFld.vspans x.sb ++ SFld.vspans x.sc
def Instr.sspans (i : Instr) : List (Nat × Nat) :=
  match i with
  | .pairWord a b => a.elim [] Half.sspans ++ b.elim [] Half.sspans
  | _ => i.shape.elim [] fun x => DFld.sspans x.dst ++ SFld.sspans x.sa ++ SFld.sspans x.sb ++ SFld.sspans x.sc
/-- Guards of a word: some operation of it is active where one passes. -/
def Instr.guards (i : Instr) : List Guard :=
  match i with
  | .pairWord a b => a.elim [] (fun x => [x.guard]) ++ b.elim [] (fun x => [x.guard])
  | _ => i.shape.elim [] fun x => [x.hdr.guard]
/-- Whether some operation of a word is active for a thread. -/
def activeIn (i : Instr) (th : Thread) : Bool := (Instr.guards i).any th.passes

/-- An instruction that names an s register as the token it completes into (R35). -/
def isTokenWord (i : Instr) : Bool :=
  i.shape.elim false fun x => [0x108, 0x150, 0x151, 0x154, 0x158, 0x159, 0x1D0, 0x1D1, 0x1D2, 0x1D3].contains x.opc
/-- The accumulator tile a word names (R42). -/
def tileOf : Instr → Option Nat
  | .accz _ k | .accld _ _ k _ _ | .accst _ _ k _ _ | .accmvRd _ _ k _ | .accmvWr _ k _ _ _ => some k
  | _ => none

end Sys2Proof.Machine
end

