-- ==== Sys2Proof/Machine/Timing.lean ====
section
/-! DEFINITION. Issue cycles, bank reads and stalls (R90 to R94, R144, R145), result latencies and uniform form (R93). They
move the cycle counters and nothing else. -/

namespace Sys2Proof.Machine

/-- Issue cycles of a word before stalls (Table 7.1). -/
def baseCycles (i : Instr) : Nat :=
  match i with
  | .fadd _ .f64 .. | .fsub _ .f64 .. | .fmul _ .f64 .. | .ffma _ .f64 .. => 4
  | .cvt _ _ _ .f64 .. | .cvt _ _ _ _ .f64 .. => 4
  | .accmvRd .. | .accmvWr .. => 2
  | .mxr _ fa .. => if fa.wide then 12 else 10
  | .imul _ t .. | .imulh _ t .. | .imad _ t .. | .isad _ t .. => if t = .i64 ∨ t = .n64 then 2 else 1
  | _ => 1

/-- Cycles from the last issue cycle of a long-latency word to its result (Table 7.1, R284, R370, R372). -/
def latency (i : Instr) : Nat :=
  match i with
  | .frcp .. | .frsq .. | .fsqrt .. | .fexp2 .. | .flog2 .. | .ftanh .. => 16
  | .fsin .. | .fcos .. => 24
  | .idiv _ t .. | .irem _ t .. => if t = .i64 ∨ t = .n64 then 40 else 24
  | .bcst .. | .sbc .. | .srd .. => 4
  | .trd .. => 3
  | .ld _ _ m .. | .atom _ _ _ m .. | .cas _ _ m .. => if m.spc = .g ∨ m.spc = .k then 28 else 12
  | _ => 8

/-- Whether a word issues on pipe C, and for how many cycles it holds the pipe (R145). -/
def pipeC (i : Instr) : Option Nat :=
  match i with
  | .frcp .. | .frsq .. | .fsqrt .. | .fexp2 .. | .flog2 .. | .fsin .. | .fcos .. | .ftanh .. => some 4
  | .idiv _ t .. | .irem _ t .. => some (if t = .i64 ∨ t = .n64 then 8 else 4)
  | _ => none

/-- The operand codes a word reads registers through, with the guard of the operation that reads them and the width in registers (R90). -/
def operandsOf (i : Instr) : List (Guard × Src × Nat) :=
  match i with
  | .pairWord a b =>
    let half (x : Half) : List (Guard × Src × Nat) := (x.guard, x.s.src, 1) :: (if x.pop.unary then [] else [(x.guard, .v x.d, 1)])
    a.elim [] half ++ b.elim [] half
  | .ocl h _ n _ => [(h.guard, .v n, 1)]
  | .accmvWr h _ a _ r => [(h.guard, .v a, 2), (h.guard, r.src, 1)]
  | .cvpk h _ _ f _ d a b =>
    [(h.guard, a.src, 1), (h.guard, b.src, 1)] ++ (match decide (f.width = 16), d with | false, .v n => [(h.guard, .v n, 1)] | _, _ => [])
  | _ => i.shape.elim [] fun x => (Shape.srcs x).map (fun (y, t) => (x.hdr.guard, y.src, t.regs))
      ++ (match x.dst with | .data y t => [(x.hdr.guard, y, t.regs)] | _ => [])

/-- The v registers a word writes (R91); the data register of `ST` is read. -/
def writtenRegs (i : Instr) : List Nat :=
  match i with
  | .pairWord a b => a.elim [] (fun h => [h.d]) ++ b.elim [] (fun h => [h.d])
  | _ => i.shape.elim [] fun x => match x.dst with
    | .data .. => []
    | d => (DFld.vspans d).flatMap fun (n, k) => (List.range k).map (n + ·)
/-- A word whose v results are written in the cycle after its last issue cycle; the others are delivered later (R91, R97, R211, R225). -/
def shortWrite (i : Instr) : Bool :=
  match i with
  | .trd .. | .mxr .. => false
  | _ => !(i.shape.elim false (·.long))
/-- A word that may leave lanes of a wave unwritten although all are active (R178). -/
def writesSomeLanes : Instr → Bool
  | .lset .. => true
  | _ => false

namespace State

/-- The register one operand register reads from the banked file (R90). -/
def bankReg (th : Thread) : Src → Option Nat
  | .v n => some n
  | .h k => let l := Map.getD th.latches k {}; if l.window > 0 ∧ l.val.isSome then none else l.bind
  | .o k => let e := Map.getD th.ocache k {}; if e.copy.isSome then none else e.bind
  | _ => none
/-- The distinct registers a thread's word reads from the banked file (R90, R93). -/
def bankReads (s : State) (t : ThreadId) (i : Instr) : List Nat :=
  let th := s.thread t
  let u := (s.wave t.wave).uniform
  (((operandsOf i).flatMap fun (g, x, k) => if th.passes g then (List.range k).filterMap fun j => bankReg th (srcUp x j) else []).filter
      fun n => !u.contains n).eraseDups
/-- The members of a group on a lane pair. -/
def onPair (g : List ThreadId) (q : Nat) : List ThreadId := g.filter fun t => t.lane / 2 = q
/-- The two threads of a lane pair in a group belong to different waves (R92). -/
def splitPair (g : List ThreadId) (q : Nat) : Bool := ((onPair g q).map (·.wave)).eraseDups.length > 1
/-- Reads per bank of a lane pair: one row serves both lanes of a wave, and a pair of two waves reads two rows for each register (R90, R92). -/
def pairReads (s : State) (g : List ThreadId) (i : Instr) (q : Nat) : List Nat :=
  let rs := ((onPair g q).flatMap fun t => s.bankReads t i).eraseDups
  [0, 1, 2, 3].map fun b => (rs.filter (· % 4 = b)).length * (if splitPair g q then 2 else 1)
/-- The stall of one lane pair: its reads beyond one per bank, and each bank it reads that a write-back holds (Table 4.4). -/
def pairStall (s : State) (c : CoreId) (g : List ThreadId) (i : Instr) (t0 q : Nat) : Nat :=
  let r := s.pairReads g i q
  (r.foldl max 0 - 1) + ((List.range 4).filter fun b => r.getD b 0 > 0 && (s.core c).wbHold.any (·.at_ q b t0)).length
/-- Whether a word writes a register in uniform form in some lanes of its wave only (R94, R178). -/
def partialUniform (s : State) (g : List ThreadId) (i : Instr) : Bool :=
  (g.map (·.wave)).eraseDups.any fun w =>
    (writtenRegs i).any (s.wave w).uniform.contains
      && (lanes w).any (fun t => g.contains t && activeIn i (s.thread t))
      && (writesSomeLanes i || !((lanes w).all fun t => g.contains t && activeIn i (s.thread t)))
/-- Stall cycles of a word: the largest among its lane pairs, and the expansion of a register in uniform form (Table 4.4, R92, R94). -/
def stallCycles (s : State) (c : CoreId) (g : List ThreadId) (i : Instr) (t0 : Nat) : Nat :=
  (g.map (·.lane / 2)).eraseDups.foldl (fun m q => max m (s.pairStall c g i t0 q)) 0 + (if s.partialUniform g i then 2 else 0)

/-- Issue cycles of a word: base, stalls, and the wait for pipe C (R91, R145). -/
def issueCycles (s : State) (c : CoreId) (g : List ThreadId) (i : Instr) (t0 : Nat) : Nat :=
  let n := baseCycles i + (match i with | .mxr .. => 0 | _ => s.stallCycles c g i t0)
  match pipeC i with
  | some _ => max n ((s.core c).pipeCFree + 1 - t0)
  | none => n

/-- The occupation of pipe C by a word (R145). -/
def holdPipeC (s : State) (c : CoreId) (i : Instr) (endAt : Nat) : State :=
  match pipeC i with
  | some k => s.modCore c fun x => { x with pipeCFree := endAt - 1 + k }
  | none => s

/-- The write-back holds a word leaves: one row for each register it wrote in per-lane form, for every wave a pair's threads belong to (R91 to R93). -/
def leaveHolds (s : State) (c : CoreId) (i : Instr) (g act : List ThreadId) (endAt : Nat) : State :=
  if !shortWrite i then s
  else
    let rows : List Hold := (act.map (·.lane / 2)).eraseDups.flatMap fun q =>
      ((onPair g q).map (·.wave)).eraseDups.flatMap fun w =>
        ((writtenRegs i).filter fun n => !((onPair act q).all fun t => (s.wave t.wave).uniform.contains n)).map fun n => ⟨q, n % 4, endAt, w.slot * 256 + n⟩
    s.holdRows c endAt rows

/-- Uniform form after a word wrote register `n` of a wave: kept when all 32 threads wrote one value and a place is free (R93, R94). -/
def trackUniform (s : State) (w : WaveId) (n : Nat) (full : Bool) : State :=
  s.modWave w fun x =>
    let th0 := Map.find (s.thread ⟨w, 0⟩).v n
    let equal := full && th0.isSome && (lanes w).all fun t => Map.find (s.thread t).v n = th0
    let rest := x.uniform.filter (· ≠ n)
    { x with uniform := if equal ∧ rest.length < 32 then n :: rest else rest }

end State
end Sys2Proof.Machine
end

