-- ==== Sys2Proof/Machine/Issue.lean ====
section
/-! DEFINITION. The issue of a word by the group of the focus core: results that must have arrived, decode traps, pending tokens,
absent granules (R36, R71, R80, R96, R97), then the word's own effect, then the end of the run (R78). -/

namespace Sys2Proof.Machine

/-- Words a host core refuses, by opcode; a compute core refuses 0x1E0 to 0x1E7 (R74). -/
def hostIllegal (opc : Nat) : Bool :=
  opc = 0x025 || (0x0A0 ≤ opc && opc ≤ 0x0AA) || (0x100 ≤ opc && opc ≤ 0x113) || (0x1C8 ≤ opc && opc ≤ 0x1CB) || opc = 0x1D0
    || opc = 0x1D5 || opc = 0x1D6
/-- Whether an opcode is legal on a kind of core (R74). -/
def opcLegal (host : Bool) (opc : Nat) : Bool := if host then !hostIllegal opc else !(0x1E0 ≤ opc && opc ≤ 0x1E7)
/-- Whether a word is legal on a kind of core (R74). -/
def coreLegal (host : Bool) (i : Instr) : Bool := i.shape.elim true fun x => opcLegal host x.opc
/-- A word decoded on a kind of core: an opcode illegal there is the first cause of Table 3.8 (R71, R74). A word that decodes is answered by `decodeTrap`. -/
def decodeOn (host : Bool) (w : Dword) (next : Option Dword) : Decoded :=
  match decode w next with
  | .ok i => .ok i
  | .bad c n => .bad (if w.toNat / 2 ^ 62 = 0 && !opcLegal host (Raw.of w.toNat 0).opc then .illop else c) n
/-- On a host core the record of `PAPP` and `DQRY` and the descriptor of an engine operation are named by a 64-bit address in an even v or s pair
(R298, Table 15.1). -/
def hostPairOk : Instr → Bool
  | .papp _ _ _ b | .dqry _ _ _ b | .cpy _ _ b | .cpyi _ _ b | .kvx _ _ b | .coll _ _ b | .cgrpCreate _ _ b =>
    (match b.src with | .v n | .s n => n % 2 = 0 | _ => false)
  | _ => true

namespace State

/-- The decode trap of a word for one thread, where it depends on the thread (R71, R74). -/
def decodeTrap (s : State) (t : ThreadId) (i : Instr) : Option Cause :=
  if !coreLegal (isHost t) i then some .illop
  else if isHost t && !hostPairOk i then some .illopd
  else if (Instr.vspans i).any (fun (n, k) => n + k > (s.wave t.wave).allot) then some .allot
  else if (tileOf i).elim false (fun k => k ≥ (s.team (s.teamOf t)).nacc) then some .allot
  else none

/-- The trap a word raises on a thread at issue: precise, at the word (R405). -/
def trapAt (s : State) (t : ThreadId) (c : Cause) (pc npc : Dword) (arg : Nat) (faddr : Dword) (decode : Bool) : Trap :=
  { cause := c, arg, fpc := pc, npc, rentry := (s.thread t).rentry, rctr := (s.thread t).rctr, faddr, decode }

/-- The registers of a released range a result in flight will write (R371). -/
def shrinkWaits (s : State) (i : Instr) (t : ThreadId) (p : Pending) : Bool :=
  match i with
  | .shrk _ _ n => p.vw.any fun (r, _) => r + (match n with | .imm k => k.toNat | .lit l => l.toNat | _ => 0) ≥ (s.wave t.wave).allot
  | _ => false
/-- The results a thread's next word must wait for: those whose lookahead is used up, the oldest of eight where the word would make a ninth (R97), and
those that write a register a `SHRK` releases (R371). -/
def awaited (s : State) (i : Instr) (t : ThreadId) : List Pending :=
  let ps := (s.thread t).longPends
  ps.filter (fun p => p.la = 0 || s.shrinkWaits i t p) ++ (if ps.length ≥ 8 && i.shape.elim false (·.long) then ps.take 1 else [])
/-- The cycle by which they arrive, and with them those of the other threads of the wave that write a register a `SHRK` releases. -/
def waitUntil (s : State) (i : Instr) (t : ThreadId) : Nat :=
  let more := match i with | .shrk .. => (lanes t.wave).flatMap fun u => (s.thread u).pend.filter (s.shrinkWaits i u) | _ => []
  (s.awaited i t ++ more).foldl (fun m p => max m p.due) 0

/-- The v registers a word names on a thread: by v codes, and by the bindings its o entries and latch fallbacks read (R41, R86, R98). -/
def namedRegs (th : Thread) (i : Instr) : List Nat :=
  (Instr.vspans i).flatMap (fun (n, k) => (List.range k).map (n + ·))
    ++ (operandsOf i).flatMap fun (_, x, k) => (List.range k).filterMap fun j =>
      match srcUp x j with
      | .o n => (Map.getD th.ocache n {}).bind
      | .h n => bankReg th (.h n)
      | _ => none
/-- A word that reads or writes the destination of a result in flight, reads its latch, or reads the flags it raises (R98, R156). -/
def touches (th : Thread) (i : Instr) (p : Pending) : Bool :=
  let ss := (Instr.sspans i).flatMap fun (n, k) => (List.range k).map (n + ·)
  let hs := (operandsOf i).flatMap fun (_, x, n) => match x with | .h k => (List.range n).map (k + ·) | _ => []
  let preds := (Instr.guards i).map (·.p) ++ i.shape.elim [] fun x =>
    (match x.dst with | .pred n => [n] | _ => []) ++ ([x.sa, x.sb, x.sc].filterMap fun f => match f with | .pred n => some n | _ => none)
  p.vw.any (fun (n, _) => (namedRegs th i).contains n) || p.pw.any (fun (n, _) => preds.contains n) || p.sw.any (fun (n, _) => ss.contains n) ||
    p.latch.elim false (fun (k, _, ws) => (List.range ws.length).any fun j => hs.contains (k + j)) ||
    (match i with | .movFlg .. => p.flags ≠ 0 | _ => false)

/-- The group of the focus core. -/
def group (s : State) : List ThreadId := (s.core s.focus).group

/-- A result that a word of the group touches within its lookahead: it has arrived or not by a free choice (R98, R156). -/
def undecided (s : State) (i : Instr) (t : ThreadId) (p : Pending) : Bool :=
  !p.kind.quick && s.group.contains t && touches (s.thread t) i p && !(s.awaited i t).contains p
/-- The results of a thread that arrive before a word issues in cycle `n`. -/
def arriveFor (s : State) (i : Instr) (n : Nat) (t : ThreadId) : State :=
  if (s.thread t).pend.any (s.undecided i t) then
    let (x, s) := s.freeIdx
    s.settleThat t fun p => if s.undecided i t p then (Config.freeNat x).testBit p.issued else decide (p.due ≤ n)
  else s.settleDue t n
/-- The threads of a core that await results. -/
def awaiting (s : State) (c : CoreId) : List ThreadId := (s.threads.filter fun (t, th) => t.wave.core = c && th.pend ≠ []).map (·.1)

/-- The latest cycle in which a result of a thread arrives. -/
def dueAt (s : State) (t : ThreadId) : Nat := (s.thread t).longPends.foldl (fun m p => max m p.due) 0

/-- The cycle until which a word of a group waits in place for `TRD` and `MXR` results it touches (R211, R225). -/
def quickDue (s : State) (i : Instr) (g : List ThreadId) : Nat :=
  g.foldl (fun m t => (s.thread t).pend.foldl (fun m p => if p.kind.quick && touches (s.thread t) i p then max m p.due else m) m) 0

/-- Ends the run of a group that waits longer than 16 cycles: the waiting threads are blocked until what they wait for arrives (R80). -/
def longWait (s : State) (c : CoreId) (ts : List (ThreadId × BlockOn)) : State :=
  let s := s.endRun c
  ts.foldl (fun s (t, b) => s.stopThread t (.blocked b)) s

/-- Fills one granule of a wave from its spool image: the image's bytes were read at the restore into `v` (log entry 12). -/
def fillGranule (s : State) (w : WaveId) (g : Nat) : State :=
  s.modWave w fun x =>
    match x.absent with
    | none => x
    | some a =>
      let gs := a.granules.filter (· ≠ g)
      { x with absent := if gs = [] then none else some { a with granules := gs } }

/-- The granules a word of a thread touches that are absent (R96). -/
def absentFor (s : State) (t : ThreadId) (i : Instr) : List Nat :=
  match (s.wave t.wave).absent with
  | none => []
  | some a => (((namedRegs (s.thread t) i).map (· / 8)).filter a.granules.contains).eraseDups
/-- What a fill of granules does: those a group's word touches are filled in place where the fill takes no more than 16 cycles or a latch-only window is
open, else the threads that need one are blocked; how long a fill takes the spec leaves open (R80, R96). The answer says whether the word issues. -/
def fillFor (s : State) (i : Instr) : State × Bool :=
  let c := s.focus
  let ts := s.group.filterMap fun t => match s.absentFor t i with | [] => none | gs => some (t, gs)
  if ts = [] then (s, true)
  else
    let (x, s) := s.freeIdx
    let n := Config.freeNat x
    if n ≤ 16 ∨ s.group.any (fun t => (s.thread t).latchOnly) then
      (ts.foldl (fun s (t, gs) => gs.foldl (fun s g => s.fillGranule t.wave g) s) (s.advance c.pkg c.die (s.coreTime c + n)), true)
    else (s.longWait c (ts.map fun (t, gs) => (t, .fill gs)), false)

/-- The pending tokens a word of a thread names (R36). -/
def pendingFor (s : State) (t : ThreadId) (i : Instr) : List Nat :=
  if activeIn i (s.thread t) then
    ((Instr.sspans i).flatMap fun (n, k) => (List.range k).map (n + ·)).filter (s.wave t.wave).isPending
  else []

/-- The thread that performs a word done once: the highest-numbered active lane of the group (R215). -/
def performer (s : State) (g : List ThreadId) (i : Instr) : Option ThreadId :=
  (g.filter fun t => activeIn i (s.thread t)).getLast?

/-- The threads a pending token keeps from issuing a word, with the token (R36). A word performed once waits as a whole. -/
def tokenWaits (s : State) (g : List ThreadId) (i : Instr) : List (ThreadId × BlockOn) :=
  if isTokenWord i then
    match s.performer g i with
    | none => []
    | some t => (s.pendingFor t i).head?.elim [] fun n => g.map fun u => (u, .token t.wave n)
  else g.filterMap fun t => (s.pendingFor t i).head?.map fun n => (t, .token t.wave n)

/-- What comes before the issue of a word: the wait for results, their arrival, decode traps, token waits, fills. The answer says whether the word
issues. -/
def prepare (s : State) (i : Instr) : State × Bool :=
  let c := s.focus
  let n := s.coreTime c
  let late := (s.group.map fun t => (t, s.waitUntil i t)).filter fun x => decide (n < x.2)
  let due := late.foldl (fun m x => max m x.2) n
  if due > n + 16 && !(s.group.any fun t => (s.thread t).latchOnly) then
    (s.longWait c (late.map fun (t, k) => (t, .result k)), false)
  else
    let due := max due (s.quickDue i s.group)
    let s := if due ≤ n then s else s.advance c.pkg c.die due
    let s := (s.awaiting c).foldl (fun s t => s.arriveFor i due t) s
    let s := s.group.foldl (fun s t =>
      match s.decodeTrap t i with
      | some e => s.defer t (s.trapAt t e (s.thread t).pc ((s.thread t).pc + BitVec.ofNat 64 i.size) 0 0 true)
      | none => s) s
    let ws := s.tokenWaits s.group i
    if ws ≠ [] then (s.longWait c ws, false)
    else
      match s.fillFor i with
      | (s, false) => (s, false)
      | (s, true) => (s, s.group ≠ [])

/-- A word is issued for a group: cycles pass, every thread's PC moves on, its wait count ends and lookahead counts go down (R53, R91, R97, R329). -/
def beginWord (s : State) (i : Instr) (g : List ThreadId) : State :=
  let c := s.focus
  let t0 := s.coreTime c
  let n := s.issueCycles c g i t0
  let s := (s.advance c.pkg c.die t0).holdPipeC c i (t0 + n)
  let s := s.modCore c fun x => { x with readyAt := t0 + n, runOpen := true }
  g.foldl (fun s t => s.modThread t fun th =>
    { th with pc := th.pc + BitVec.ofNat 64 i.size, last := th.pc, issued := th.issued + 1, waitAcc := 0, waitSince := t0 + n, urgent := none,
              pend := th.pend.map fun p => { p with la := p.la - 1 } }) s

/-- The end of a word: windows cover one word less (R82); the run ends when a thread of the group goes elsewhere, blocks or parks (Table 4.1). -/
def endWord (s : State) (g : List ThreadId) (next : Dword) (ends : Bool) : State :=
  let c := s.focus
  let gone := g.any fun t =>
    let th := s.thread t
    match th.status with
    | .runnable => th.pc ≠ next
    | .blocked _ | .parked _ => true
    | _ => false
  let s := g.foldl (fun s t => s.modThread t Thread.tickWindows) s
  if gone || ends then s.endRun c else s

/-- Registers in uniform form that a word marked dead in all 32 threads of their wave leave it (R93). -/
def dropDead (s : State) (i : Instr) (w : WaveId) : State :=
  let ns := ((Instr.vspans i).flatMap fun (n, k) => (List.range k).map (n + ·)).eraseDups
  (ns.filter fun n => (s.wave w).uniform.contains n && (lanes w).all fun t => !Map.has (s.thread t).v n).foldl
    (fun s n => s.modWave w fun x => { x with uniform := x.uniform.filter (· ≠ n) }) s
/-- The results of a thread's last word that are in flight. -/
def launched (th : Thread) : List Pending := th.pend.filter fun p => p.issued + 1 = th.issued
/-- Uniform form after a word that the threads `act` performed, in the waves of a group (R93, R94): registers written at issue; a result in flight that writes
one value in all 32 threads of a wave is marked, to be stored so at its delivery. -/
def noteUniform (s : State) (i : Instr) (g act : List ThreadId) : State :=
  (g.map (·.wave)).eraseDups.foldl (fun s w =>
    let full := (lanes w).all act.contains
    let s :=
      if shortWrite i then if act.any (·.wave = w) then (writtenRegs i).foldl (fun s n => s.trackUniform w n full) s else s
      else
        let p0 := (launched (s.thread ⟨w, 0⟩)).map (·.vw)
        if full && p0 ≠ [] && (lanes w).all fun t => (launched (s.thread t)).map (·.vw) = p0 then
          (lanes w).foldl (fun s t => s.modThread t fun th => { th with pend := th.pend.map fun p => if p.issued + 1 = th.issued then { p with uni := true } else p }) s
        else s
    s.dropDead i w) s

/-- The s registers a word reads. -/
def sregsRead (i : Instr) : List Nat :=
  (operandsOf i).flatMap (fun (_, x, k) => match x with | .s n => (List.range k).map (n + ·) | _ => [])
    ++ i.shape.elim [] fun x => [x.sa, x.sb, x.sc].flatMap fun f => match f with | .sreg n k => (List.range k).map (n + ·) | _ => []
/-- What a word's operands and guards carry dependencies through (Table 10.2). -/
def depSources (th : Thread) (i : Instr) : List DepReg :=
  (operandsOf i).flatMap (fun (_, x, k) => (List.range k).filterMap fun j =>
      match srcUp x j with
      | .v n => some (.v n)
      | .o n => ((Map.getD th.ocache n {}).bind).map .v
      | .h n => (bankReg th (.h n)).map .v
      | _ => none)
    ++ (sregsRead i).map .s ++ (Instr.guards i).map (fun g => .p g.p)
    ++ i.shape.elim [] fun x => [x.sa, x.sb, x.sc].filterMap fun f => match f with | .pred n => some (.p n) | _ => none
/-- The registers and predicates a word writes. -/
def depTargets (i : Instr) : List DepReg :=
  (writtenRegs i).map .v ++ i.shape.elim [] fun x => match x.dst with
    | .reg (.s n) k _ _ | .sreg n k => (List.range k).map fun j => .s (n + j)
    | .pred n => [.p n]
    | _ => []
/-- What depends on the loads that a word's operands come from: its results, the stores it made since event `first`, and after a conditional transfer every later store
(R235). A word reads the registers of `th`. -/
def trackThread (s : State) (i : Instr) (first : Nat) (th : Thread) (t : ThreadId) : State :=
  let ds := s.depsOf t (depSources th i)
  let all := ds ++ s.depsOf t [.ctl]
  let me := s.whoOf t
  let s := if all = [] then s else { s with trace := s.trace.map fun e => if first ≤ e.id ∧ e.who = me ∧ Order.writes e then { e with deps := all } else e }
  let s := match i with
    | .bra .. | .brx .. | .call .. | .callx .. | .ret .. | .exit .. => s.setDeps t [.ctl] all
    | _ => s
  if shortWrite i then (depTargets i).foldl (fun (s : State) r => s.setDeps t [r] (if activeIn i th then ds else (ds ++ s.depsOf t [r]).eraseDups)) s
  else s.modThread t fun th => { th with pend := th.pend.map fun p => if p.issued + 1 = th.issued then { p with deps := p.deps ++ ds } else p }
/-- The dependencies that a word leaves, from the state before it. -/
def trackDeps (s : State) (s0 : State) (i : Instr) (g : List ThreadId) : State :=
  if s0.deps = [] then s else g.foldl (fun s t => s.trackThread i s0.nextEv (s0.thread t) t) s

/-- A word of the group of the focus core, which issues: the cycles pass, it has its effect, and what it leaves behind. -/
def perform (s : State) (i : Instr) (body : State → List ThreadId → Dword → State) (ends : Bool) : State :=
  let g := s.group
  let pc := (g.head?.map fun t => (s.thread t).pc).getD 0
  let act := g.filter fun t => activeIn i (s.thread t)
  let s := s.beginWord i g
  let endAt := (s.core s.focus).readyAt
  let c := s.focus
  let s := act.foldl (fun (s : State) t => s.readTokens t (sregsRead i)) s
  (((((body s g pc).trackDeps s i g).noteUniform i g act).leaveHolds c i g act endAt)).endWord g (pc + BitVec.ofNat 64 i.size) ends

/-- Issues a word for the group of the focus core. `body` gets the members and the word's address; the PC of each is already at the next word. -/
def issue (s : State) (i : Instr) (body : State → List ThreadId → Dword → State) (ends : Bool := false) : State :=
  match s.prepare i with
  | (s, false) => s
  | (s, true) => s.perform i body ends

/-- A word that waits in its issue slot while `full` holds: a cycle passes and it is not issued (R145, R194). -/
def issueUnless (s : State) (i : Instr) (full : State → Bool) (body : State → List ThreadId → Dword → State) : State :=
  match s.prepare i with
  | (s, false) => s
  | (s, true) => if full s then s.modDie s.focus.pkg s.focus.die fun x => { x with now := x.now + 1 } else s.perform i body false

-- words of lanes

/-- What the reads of a thread's operands leave: operand-cache copies, and dead marks (R66, R88). -/
def tookReads (s : State) (t : ThreadId) (xs : List (SrcD × OTy)) : State :=
  if xs = [] then s else s.modThread t fun th => (th.touch xs).killAll (deadRegs xs)

/-- The s-register writes of a word: each wave takes the value of its own highest active lane (R29). Members come in lane order. -/
def writeSregs (s : State) (outs : List (ThreadId × LaneOut)) (ms : List Micro) : State :=
  outs.foldl (fun s (t, o) =>
    match o with
    | .trap _ => s
    | .done rs => (ms.zip rs).foldl (fun s (m, r) =>
      match r, m.dst with
      | some r, .reg (.s n) k _ _ => s.modWave t.wave (·.setSs n (resWords k r.val))
      | some r, .sreg n k => s.modWave t.wave (·.setSs n (resWords k r.val))
      | _, _ => s) s) s

/-- The effect of a word of lanes on one member (R66, R79). -/
def laneEffect (s : State) (t : ThreadId) (ms : List Micro) (o : LaneOut) (pc npc : Dword) : State :=
  match o with
  | .trap c => s.defer t (s.trapAt t c pc npc 0 0 false)
  | .done rs => s.modThread t fun th => th.applyMicros ms rs

/-- The body of a word of lanes whose results are written at issue; its operations may depend on the thread's predicates and flags. -/
def laneBody (i : Instr) (ms : Thread → List Micro) (s : State) (g : List ThreadId) (pc : Dword) : State :=
  let outs := g.map fun t => (t, s.evalLane t (ms (s.thread t)))
  let s' := outs.foldl (fun s' (t, o) => s'.laneEffect t (ms (s.thread t)) o pc (pc + BitVec.ofNat 64 i.size)) s
  s'.writeSregs outs (ms {})

/-- A short-latency word of lanes whose result depends on the thread's own predicates or flags (R152, R153, R156). -/
def computeWith (s : State) (i : Instr) (f : Thread → List Dword → Res) : State :=
  s.issue i (laneBody i fun th => [microOf i (f th)])
/-- A short-latency word of lanes: pipes A and B, the scalar unit, moves (R66, R91, R143). -/
def compute (s : State) (i : Instr) (f : List Dword → Res) : State := s.computeWith i fun _ => f

/-- The result of a long-latency word for one thread, to be delivered `latency` cycles after its last issue cycle (R82, R97, R144): the words of
the destination, or bit 0 of the first for a predicate. -/
def pendWords (s : State) (t : ThreadId) (i : Instr) (pc : Dword) (lastOfWave : Bool) (ws : List Word) (flags : Flags) : Pending :=
  let th := s.thread t
  let base : Pending :=
    { la := i.shape.elim 0 (·.hdr.la), flags, due := (s.core t.wave.core).readyAt - 1 + latency i, fpc := pc,
      rentry := th.rentry, rctr := th.rctr, issued := th.issued - 1 }
  let numbered (n : Nat) : List (Nat × Word) := (List.range ws.length).zip ws |>.map fun (j, y) => (n + j, y)
  match i.shape with
  | none => base
  | some x =>
    match x.dst with
    | .reg (.v n) _ _ _ | .vreg n _ => { base with vw := numbered n, latch := x.hdr.hold.map fun h => (h, some n, ws) }
    | .reg .vz _ _ _ => { base with latch := x.hdr.hold.map fun h => (h, none, ws) }
    | .reg (.s n) _ _ _ | .sreg n _ => if lastOfWave then { base with sw := numbered n } else base
    | .pred p => { base with pw := [(p, (ws.headD 0).getLsbD 0)] }
    | _ => base
/-- The width in registers of a word's destination. -/
def dstRegs (i : Instr) : Nat :=
  match i.shape with
  | some x => (match x.dst with | .sreg _ k => k | d => d.regs)
  | none => 1
def pendOf (s : State) (t : ThreadId) (i : Instr) (pc : Dword) (lastOfWave : Bool) (r : Res) : Pending :=
  s.pendWords t i pc lastOfWave (resWords (dstRegs i) r.val) r.flags

/-- Adds a result in flight. -/
def addPend (s : State) (t : ThreadId) (p : Pending) : State := s.modThread t fun th => { th with pend := th.pend ++ [p] }

/-- Whether a thread is the highest of its wave among those listed (R29). -/
def lastOfWave (ts : List ThreadId) (t : ThreadId) : Bool := ((ts.filter (·.wave = t.wave)).getLast?) = some t

/-- The result of a lane's one operation. -/
def laneRes : LaneOut → Option Res
  | .done [some r] => some r
  | _ => none
/-- The issue part of a long-latency word for one lane: operand reads' copies, dead marks, and the result in flight. -/
def longLane (i : Instr) (act : List ThreadId) (pc : Dword) (s : State) (t : ThreadId) (o : LaneOut) : State :=
  let m := microOf i fun _ => ⟨0, 0⟩
  match o with
  | .trap c => s.defer t (s.trapAt t c pc (pc + BitVec.ofNat 64 i.size) 0 0 false)
  | o => (laneRes o).elim s fun r =>
    (s.modThread t fun th => (th.touch m.srcs).killAll (deadRegs m.srcs)).addPend t (s.pendOf t i pc (lastOfWave act t) r)
/-- The issue part of a long-latency word for its lanes. -/
def longBody (i : Instr) (outs : List (ThreadId × LaneOut)) (s : State) (pc : Dword) : State :=
  let act := (outs.filter fun x => (laneRes x.2).isSome).map (·.1)
  outs.foldl (fun s x => longLane i act pc s x.1 x.2) s

/-- A word that writes a value of the state in every active thread at issue (R209, R222): no source traps. -/
def valueWord (s : State) (i : Instr) (v : State → ThreadId → Word) : State :=
  s.issue i fun s g pc =>
    let ms := [microOf i fun _ => ⟨0, 0⟩]
    let outs := g.map fun t => (t, LaneOut.done [if activeIn i (s.thread t) then some ⟨(v s t).setWidth 64, 0⟩ else none])
    let s' := outs.foldl (fun s' (t, o) => s'.laneEffect t ms o pc (pc + BitVec.ofNat 64 i.size)) s
    s'.writeSregs outs ms

-- words performed once per team (R206)

/-- Teams in ascending order of their slot on the core. -/
def bySlot (s : State) : List Nat → List Nat
  | [] => []
  | n :: ns => ins (s.bySlot ns) n
where
  ins : List Nat → Nat → List Nat
    | [], n => [n]
    | m :: ms, n => if (s.team n).slot ≤ (s.team m).slot then n :: m :: ms else m :: ins ms n

/-- The teams of some threads with their threads, in the order in which a word serves them (R206). -/
def teamsOf (s : State) (act : List ThreadId) : List (Nat × List ThreadId) :=
  (s.bySlot (act.map s.teamOf).eraseDups).map fun n => (n, act.filter fun t => s.teamOf t = n)

/-- A word performed once per team: `f` acts for a team with its active threads, the operands of the performing thread, and the word's address
(R206). A team for which `wait` answers a state waits as that state says, before the word reads an operand. -/
def teamOnceAfter (s : State) (i : Instr) (wait : State → Nat → List ThreadId → Dword → Option State)
    (f : State → Nat → ThreadId → List ThreadId → Dword → List Dword → State) : State :=
  s.issue i fun s g pc =>
    let m := microOf i fun _ => ⟨0, 0⟩
    let act := g.filter fun t => activeIn i (s.thread t)
    (s.teamsOf act).foldl (fun s (n, ts) =>
      match ts.getLast? with
      | none => s
      | some t =>
        match wait s n ts pc with
        | some s => s
        | none =>
          match s.readOps t m.srcs with
          | .error c => s.defer t (s.trapAt t c pc (pc + BitVec.ofNat 64 i.size) 0 0 false)
          | .ok xs => f (s.tookReads t m.srcs) n t ts pc xs) s
/-- A word performed once per team at once. -/
def teamOnce (s : State) (i : Instr) (f : State → Nat → ThreadId → List ThreadId → Dword → List Dword → State) : State :=
  s.teamOnceAfter i (fun _ _ _ _ => none) f

/-- Writes a value to the destination of every listed thread (R206). -/
def writeAll (s : State) (d : Dst) (ts : List ThreadId) (x : Word) : State :=
  ts.foldl (fun s t => s.writeDst t d [x]) s

/-- A long-latency word each lane of which computes from its own operands (pipe C, R169, R170). -/
def computeLong (s : State) (i : Instr) (f : List Dword → Res) : State :=
  s.issue i fun s g pc => longBody i (g.map fun t => (t, s.evalLane t [microOf i f])) s pc

/-- The members of a word with the operands each reads, or the trap its reads raise. -/
def memberVals (s : State) (g : List ThreadId) (i : Instr) : List (ThreadId × Bool × Except Cause (List Dword)) :=
  let m := microOf i fun _ => ⟨0, 0⟩
  g.map fun t => (t, (s.thread t).passes m.guard, s.readOps t m.srcs)

/-- A member of a lane-exchange word: whether it is active, and what the read of each operand gives it (R171). -/
structure Member where
  thread : ThreadId
  active : Bool
  reads : List (Except Cause Dword)

/-- The members of a lane-exchange word (R171). -/
def laneMembers (s : State) (g : List ThreadId) (i : Instr) : List Member :=
  let m := microOf i fun _ => ⟨0, 0⟩
  g.map fun t => ⟨t, (s.thread t).passes m.guard, m.srcs.map fun (x, ty) => s.readOp t x.src ty⟩
/-- The first trap among a member's reads, or its operands. -/
def Member.ops (m : Member) : Except Cause (List Dword) := m.reads.mapM id
/-- What a member supplies for operand `k`: zero where its own read traps (R171); a poisoned register supplies zero too (log entry 40). -/
def Member.supplies (m : Member) (k : Nat) : Dword :=
  match m.reads[k]? with
  | some (.ok x) => x
  | _ => 0

/-- The value of operand `k` that the member on a lane supplies; none for a lane that is not a member (R171). -/
def memberVal (vs : List Member) (k lane : Nat) : Option Dword := (vs.find? (·.thread.lane = lane)).map (·.supplies k)
/-- The values operand `k` has in the active lanes, in lane order, trapped members as zeros (R171, R174 to R176). -/
def activeVals (vs : List Member) (k : Nat) : List (Nat × Dword) :=
  vs.filterMap fun m => if m.active then some (m.thread.lane, m.supplies k) else none

/-- A lane-exchange word: `f` answers for an active lane from what all members supply and its own operands; none leaves the lane as
it is (R171). -/
def exchange (s : State) (i : Instr) (f : State → List Member → ThreadId → List Dword → Option Res) : State :=
  s.issue i fun s g pc =>
    let vs := s.laneMembers g i
    let outs := vs.map fun m =>
      (m.thread, if m.active then (match m.ops with
        | .error c => LaneOut.trap c
        | .ok xs => .done [f s vs m.thread xs]) else .done [none])
    longBody i outs s pc

end State
end Sys2Proof.Machine
end

