-- ==== Sys2Proof/Machine/VecInt.lean ====
section
/-! DEFINITION. Pipe B: integer arithmetic, logic and bit operations, compare, select, predicate logic, addresses and moves, `NOP`,
`OCL` (R75, R87, R146 to R156). -/

namespace Sys2Proof.Machine

/-- Operand `k` of a word. -/
def arg (xs : List Dword) (k : Nat) : Dword := xs.getD k 0

-- integer arithmetic (Table 7.2)

/-- A two-source integer operation of exact result `x` (Table 7.2). -/
def int2 (t : OTy) (sat : Bool) (x : Int → Int → Int) (xs : List Dword) : Res :=
  intRes t sat (x (intOf t (arg xs 0)) (intOf t (arg xs 1)))
def int1 (t : OTy) (sat : Bool) (x : Int → Int) (xs : List Dword) : Res := intRes t sat (x (intOf t (arg xs 0)))
def int3 (t : OTy) (x : Int → Int → Int → Int) (xs : List Dword) : Res :=
  intRes t false (x (intOf t (arg xs 0)) (intOf t (arg xs 1)) (intOf t (arg xs 2)))

def execNop (s : State) : Outcome := .next (s.issue .nop fun s _ _ => s)
def execIadd (h : Hdr) (t : OTy) (sat : Bool) (d : Dst) (a b : SrcD) (s : State) : Outcome :=
  .next (s.compute (.iadd h t sat d a b) (int2 t sat fun a b => a + b))
def execIsub (h : Hdr) (t : OTy) (sat : Bool) (d : Dst) (a b : SrcD) (s : State) : Outcome :=
  .next (s.compute (.isub h t sat d a b) (int2 t sat fun a b => a - b))
def execImul (h : Hdr) (t : OTy) (sat : Bool) (d : Dst) (a b : SrcD) (s : State) : Outcome :=
  .next (s.compute (.imul h t sat d a b) (int2 t sat fun a b => a * b))
def execImulh (h : Hdr) (t : OTy) (d : Dst) (a b : SrcD) (s : State) : Outcome :=
  .next (s.compute (.imulh h t d a b) (int2 t false fun a b => (a * b) / 2 ^ t.width))
def execImad (h : Hdr) (t : OTy) (d : Dst) (a b c : SrcD) (s : State) : Outcome :=
  .next (s.compute (.imad h t d a b c) (int3 t fun a b c => a * b + c))
def execImin (h : Hdr) (t : OTy) (d : Dst) (a b : SrcD) (s : State) : Outcome :=
  .next (s.compute (.imin h t d a b) (int2 t false fun a b => if b < a then b else a))
def execImax (h : Hdr) (t : OTy) (d : Dst) (a b : SrcD) (s : State) : Outcome :=
  .next (s.compute (.imax h t d a b) (int2 t false fun a b => if a < b then b else a))
def execIabs (h : Hdr) (t : OTy) (sat : Bool) (d : Dst) (a : SrcD) (s : State) : Outcome :=
  .next (s.compute (.iabs h t sat d a) (int1 t sat fun a => if a < 0 then -a else a))
def execIneg (h : Hdr) (t : OTy) (sat : Bool) (d : Dst) (a : SrcD) (s : State) : Outcome :=
  .next (s.compute (.ineg h t sat d a) (int1 t sat fun a => -a))
/-- |a − b|. -/
def absDiff (a b : Int) : Int := if a < b then b - a else a - b
def execIdif (h : Hdr) (t : OTy) (d : Dst) (a b : SrcD) (s : State) : Outcome :=
  .next (s.compute (.idif h t d a b) fun xs => bitRes t (absDiff (intOf t (arg xs 0)) (intOf t (arg xs 1))).toNat)
def execIsad (h : Hdr) (t : OTy) (d : Dst) (a b c : SrcD) (s : State) : Outcome :=
  .next (s.compute (.isad h t d a b c) (int3 t fun a b c => absDiff a b + c))

-- logic and bit operations (Table 7.3)

def bit1 (t : OTy) (f : Dword → Dword) (xs : List Dword) : Res := bitRes t (f (arg xs 0)).toNat
def bit2 (t : OTy) (f : Dword → Dword → Dword) (xs : List Dword) : Res := bitRes t (f (arg xs 0) (arg xs 1)).toNat

def execAnd (h : Hdr) (t : OTy) (d : Dst) (a b : SrcD) (s : State) : Outcome :=
  .next (s.compute (.and h t d a b) (bit2 t fun a b => a &&& b))
def execOr (h : Hdr) (t : OTy) (d : Dst) (a b : SrcD) (s : State) : Outcome :=
  .next (s.compute (.or h t d a b) (bit2 t fun a b => a ||| b))
def execXor (h : Hdr) (t : OTy) (d : Dst) (a b : SrcD) (s : State) : Outcome :=
  .next (s.compute (.xor h t d a b) (bit2 t fun a b => a ^^^ b))
def execNot (h : Hdr) (t : OTy) (d : Dst) (a : SrcD) (s : State) : Outcome :=
  .next (s.compute (.not h t d a) (bit1 t fun a => ~~~a))
def execAndn (h : Hdr) (t : OTy) (d : Dst) (a b : SrcD) (s : State) : Outcome :=
  .next (s.compute (.andn h t d a b) (bit2 t fun a b => a &&& ~~~b))

/-- Shifts (R148): only n[7:0] counts. -/
def shlRes (t : OTy) (xs : List Dword) : Res :=
  let n := (arg xs 1).toNat % 256
  bitRes t (if n ≥ t.width then 0 else (arg xs 0).toNat * 2 ^ n)
def shrRes (t : OTy) (xs : List Dword) : Res :=
  let n := (arg xs 1).toNat % 256
  bitRes t (if n ≥ t.width then 0 else (arg xs 0).toNat / 2 ^ n)
def sarRes (t : OTy) (xs : List Dword) : Res :=
  let n := min ((arg xs 1).toNat % 256) (t.width - 1)
  let a : Int := ((arg xs 0).toNat : Int).bmod (2 ^ t.width)
  ⟨extend t (a / 2 ^ n), 0⟩
def rolRes (t : OTy) (xs : List Dword) : Res :=
  let n := (arg xs 1).toNat % 256 % t.width
  let a := (arg xs 0).toNat % 2 ^ t.width
  bitRes t (a * 2 ^ n + a / 2 ^ (t.width - n))

def execShl (h : Hdr) (t : OTy) (d : Dst) (a b : SrcD) (s : State) : Outcome := .next (s.compute (.shl h t d a b) (shlRes t))
def execShr (h : Hdr) (t : OTy) (d : Dst) (a b : SrcD) (s : State) : Outcome := .next (s.compute (.shr h t d a b) (shrRes t))
def execSar (h : Hdr) (t : OTy) (d : Dst) (a b : SrcD) (s : State) : Outcome := .next (s.compute (.sar h t d a b) (sarRes t))
def execRol (h : Hdr) (t : OTy) (d : Dst) (a b : SrcD) (s : State) : Outcome := .next (s.compute (.rol h t d a b) (rolRes t))

/-- `BFX` (R149): position f[7:0], length f[15:8]. -/
def bfxRes (t : OTy) (xs : List Dword) : Res :=
  let w := t.width
  let f := (arg xs 1).toNat
  let p := f % 256
  let n := f / 256 % 256
  if n = 0 ∨ p ≥ w then ⟨0, 0⟩
  else
    let n' := min n (w - p)
    let y := (arg xs 0).toNat % 2 ^ w / 2 ^ p % 2 ^ n'
    ⟨extend t (if t.signed then (y : Int).bmod (2 ^ n') else y), 0⟩
/-- `BFI` (R149). -/
def bfiRes (t : OTy) (xs : List Dword) : Res :=
  let w := t.width
  let a := (arg xs 0).toNat % 2 ^ w
  let f := (arg xs 2).toNat
  let p := f % 256
  let n := f / 256 % 256
  if n = 0 ∨ p ≥ w then bitRes t a
  else
    let n' := min n (w - p)
    bitRes t (a % 2 ^ p + (arg xs 1).toNat % 2 ^ n' * 2 ^ p + a / 2 ^ (p + n') * 2 ^ (p + n'))

def execBfx (h : Hdr) (t : OTy) (d : Dst) (a f : SrcD) (s : State) : Outcome := .next (s.compute (.bfx h t d a f) (bfxRes t))
def execBfi (h : Hdr) (t : OTy) (d : Dst) (a b f : SrcD) (s : State) : Outcome := .next (s.compute (.bfi h t d a b f) (bfiRes t))

/-- The bits of an operand, lowest first. -/
def bitList (t : OTy) (x : Dword) : List Bool := (List.range t.width).map fun k => x.getLsbD k
def boolsNat : List Bool → Nat
  | [] => 0
  | b :: bs => (if b then 1 else 0) + 2 * boolsNat bs
def popcRes (t : OTy) (xs : List Dword) : Res := ⟨BitVec.ofNat 64 ((bitList t (arg xs 0)).filter id).length, 0⟩
def clzRes (t : OTy) (xs : List Dword) : Res :=
  ⟨BitVec.ofNat 64 ((bitList t (arg xs 0)).reverse.takeWhile (!·)).length, 0⟩
def brevRes (t : OTy) (xs : List Dword) : Res := ⟨BitVec.ofNat 64 (boolsNat (bitList t (arg xs 0)).reverse), 0⟩
def ffsRes (t : OTy) (xs : List Dword) : Res :=
  let z := (bitList t (arg xs 0)).takeWhile (!·)
  ⟨if z.length = t.width then 0xFFFFFFFF else BitVec.ofNat 64 z.length, 0⟩

def execPopc (h : Hdr) (t : OTy) (d : Dst) (a : SrcD) (s : State) : Outcome := .next (s.compute (.popc h t d a) (popcRes t))
def execClz (h : Hdr) (t : OTy) (d : Dst) (a : SrcD) (s : State) : Outcome := .next (s.compute (.clz h t d a) (clzRes t))
def execBrev (h : Hdr) (t : OTy) (d : Dst) (a : SrcD) (s : State) : Outcome := .next (s.compute (.brev h t d a) (brevRes t))
def execFfs (h : Hdr) (t : OTy) (d : Dst) (a : SrcD) (s : State) : Outcome := .next (s.compute (.ffs h t d a) (ffsRes t))

/-- `BYSEL` (R150). -/
def byselRes (xs : List Dword) : Res :=
  let c := (arg xs 2).toNat
  let srcByte (k : Nat) : Nat := if k < 4 then (arg xs 0).toNat / 2 ^ (8 * k) % 256 else (arg xs 1).toNat / 2 ^ (8 * (k - 4)) % 256
  let byte (i : Nat) : Nat :=
    let idx := c / 2 ^ (3 * i) % 8
    match c / 2 ^ (12 + 2 * i) % 4 with
    | 0 => srcByte idx
    | 1 => 0
    | 2 => 255
    | _ => 255 - srcByte idx
  ⟨BitVec.ofNat 64 (byte 0 + byte 1 * 2 ^ 8 + byte 2 * 2 ^ 16 + byte 3 * 2 ^ 24), 0⟩
def execBysel (h : Hdr) (d : Dst) (a b c : SrcD) (s : State) : Outcome := .next (s.compute (.bysel h d a b c) byselRes)

-- compare, select, predicates, addresses, moves

/-- Table 7.4. -/
def iccHolds (cc : ICc) (a b : Int) : Bool :=
  match cc with
  | .eq => a = b | .ne => a ≠ b | .lt => a < b | .le => a ≤ b | .gt => b < a | .ge => b ≤ a
/-- A condition as the value of a predicate. -/
def boolRes (b : Bool) (f : Flags := 0) : Res := ⟨if b then 1 else 0, f⟩

def execIcmp (h : Hdr) (cc : ICc) (t : OTy) (p : Nat) (a b : SrcD) (s : State) : Outcome :=
  .next (s.compute (.icmp h cc t p a b) fun xs => boolRes (iccHolds cc (intOf t (arg xs 0)) (intOf t (arg xs 1))))
/-- `SEL` (R152): both sources are read. -/
def execSel (h : Hdr) (t : OTy) (d : Dst) (a b : SrcD) (pc : Nat) (s : State) : Outcome :=
  .next (s.computeWith (.sel h t d a b pc) fun th xs => ⟨if th.pred pc then arg xs 0 else arg xs 1, 0⟩)
/-- `PLOP` (R153). -/
def execPlop (h : Hdr) (pd pa pb tt : Nat) (s : State) : Outcome :=
  .next (s.computeWith (.plop h pd pa pb tt) fun th _ =>
    boolRes (tt / 2 ^ ((if th.pred pa then 2 else 0) + (if th.pred pb then 1 else 0)) % 2 = 1))
/-- `LEA` (R154): A + Int(B, T) × k + Int(c, .i32) modulo 2^64. -/
def leaRes (n32 : Bool) (k : Nat) (xs : List Dword) : Res :=
  ⟨arg xs 0 + BitVec.ofInt 64 (intOf (if n32 then .n32 else .i32) (arg xs 1) * 2 ^ k + intOf .i32 (arg xs 2)), 0⟩
def execLea (h : Hdr) (n32 : Bool) (k : Nat) (d : Dst) (a b c : SrcD) (s : State) : Outcome :=
  .next (s.compute (.lea h n32 k d a b c) (leaRes n32 k))
def movRes (t : OTy) (xs : List Dword) : Res := ⟨extend t (intOf t (arg xs 0)), 0⟩
def execMov (h : Hdr) (t : OTy) (d : Dst) (a : SrcD) (s : State) : Outcome := .next (s.compute (.mov h t d a) (movRes t))

/-- `MOV.flg` (R156): the flags go to the destination, then those set in a[5:0] are cleared. -/
def movFlgBody (i : Instr) (s : State) (g : List ThreadId) (pc : Dword) : State :=
  let f (th : Thread) (_ : List Dword) : Res := ⟨th.flags.setWidth 64, 0⟩
  let m := microOf i fun xs => ⟨arg xs 0, 0⟩
  let outs := g.map fun t => (t, s.evalLane t [m])
  let s := State.laneBody i (fun th => [microOf i (f th)]) s g pc
  outs.foldl (fun s (t, o) =>
    match o with
    | .done [some r] => s.modThread t fun th => { th with flags := th.flags &&& ~~~(r.val.setWidth 6) }
    | _ => s) s
def execMovFlg (h : Hdr) (d : Dst) (a : SrcD) (s : State) : Outcome := .next (s.issue (.movFlg h d a) (movFlgBody (.movFlg h d a)))

/-- `OCL` on one lane (R87): bind, fill; a dead mark takes effect after the read. -/
def oclLane (g : Guard) (k n : Nat) (dead : Bool) (pc npc : Dword) (s : State) (t : ThreadId) : State :=
  if (s.thread t).passes g then
    match (s.thread t).readV (s.chkd t) n with
    | .error c => s.defer t (s.trapAt t c pc npc 0 0 false)
    | .ok x => s.modThread t fun th =>
      let th := { th with ocache := Map.set th.ocache k { bind := some n, copy := some x } }
      if dead then th.killV n else th
  else s
def execOcl (h : Hdr) (k n : Nat) (dead : Bool) (s : State) : Outcome :=
  .next (s.issue (.ocl h k n dead) fun s g pc => g.foldl (oclLane h.guard k n dead pc (pc + 8)) s)

/-- A decode trap of the whole word, `size` bytes long, for every thread of the group (R71). -/
def decodeFail (c : Cause) (size : Nat) (s : State) : State :=
  s.group.foldl (fun s t => s.defer t (s.trapAt t c (s.thread t).pc ((s.thread t).pc + BitVec.ofNat 64 size) 0 0 true)) s
/-- A word no opcode describes (R52, R73, R76). -/
def execUnassignedOpcode (_w : Dword) (s : State) : Outcome := .next (decodeFail .illop 8 s)

end Sys2Proof.Machine
end

