-- ==== Sys2Proof/Machine/VecFloat.lean ====
section
/-! DEFINITION. Pipe A: floating arithmetic and conversions (R157 to R168); pair words (R68 to R70, R77). -/

namespace Sys2Proof.Machine

def flt2 (r : Nat → Nat → Nat × Flags) (xs : List Dword) : Res := fltRes (r (arg xs 0).toNat (arg xs 1).toNat)
def flt1 (r : Nat → Nat × Flags) (xs : List Dword) : Res := fltRes (r (arg xs 0).toNat)

def execFadd (h : Hdr) (f : FFmt) (r : Rnd) (sat : Bool) (d : Dst) (a b : SrcD) (s : State) : Outcome :=
  .next (s.compute (.fadd h f r sat d a b) (flt2 (faddBits r sat f)))
def execFsub (h : Hdr) (f : FFmt) (r : Rnd) (sat : Bool) (d : Dst) (a b : SrcD) (s : State) : Outcome :=
  .next (s.compute (.fsub h f r sat d a b) (flt2 (fsubBits r sat f)))
def execFmul (h : Hdr) (f : FFmt) (r : Rnd) (sat : Bool) (d : Dst) (a b : SrcD) (s : State) : Outcome :=
  .next (s.compute (.fmul h f r sat d a b) (flt2 (fmulBits r sat f)))
def execFfma (h : Hdr) (f : FFmt) (r : Rnd) (d : Dst) (a b c : SrcD) (s : State) : Outcome :=
  .next (s.compute (.ffma h f r d a b c) fun xs => fltRes (ffmaBits r f (arg xs 0).toNat (arg xs 1).toNat (arg xs 2).toNat))
def execFmin (h : Hdr) (f : FFmt) (d : Dst) (a b : SrcD) (s : State) : Outcome :=
  .next (s.compute (.fmin h f d a b) (flt2 (fminmaxBits false f)))
def execFmax (h : Hdr) (f : FFmt) (d : Dst) (a b : SrcD) (s : State) : Outcome :=
  .next (s.compute (.fmax h f d a b) (flt2 (fminmaxBits true f)))
/-- `FABS` clears the sign bit (R161). -/
def fabsRes (f : FFmt) (xs : List Dword) : Res := fltRes ((arg xs 0).toNat % f.signBit, 0)
/-- `FNEG` inverts the sign bit (R161). -/
def fnegRes (f : FFmt) (xs : List Dword) : Res := fltRes (fnegBits f (arg xs 0).toNat, 0)
def execFabs (h : Hdr) (f : FFmt) (d : Dst) (a : SrcD) (s : State) : Outcome := .next (s.compute (.fabs h f d a) (fabsRes f))
def execFneg (h : Hdr) (f : FFmt) (d : Dst) (a : SrcD) (s : State) : Outcome := .next (s.compute (.fneg h f d a) (fnegRes f))
def execFcmp (h : Hdr) (cc : FCc) (f : FFmt) (p : Nat) (a b : SrcD) (s : State) : Outcome :=
  .next (s.compute (.fcmp h cc f p a b) fun xs =>
    boolRes (fcmpBits cc f (arg xs 0).toNat (arg xs 1).toNat).1 (fcmpBits cc f (arg xs 0).toNat (arg xs 1).toNat).2)
def execFcls (h : Hdr) (f : FFmt) (d : Dst) (a : SrcD) (s : State) : Outcome :=
  .next (s.compute (.fcls h f d a) (flt1 fun x => (fclsBits f x, 0)))
def execFfrc (h : Hdr) (f : FFmt) (d : Dst) (a : SrcD) (s : State) : Outcome := .next (s.compute (.ffrc h f d a) (flt1 (ffrcBits f)))
def execFrnd (h : Hdr) (f : FFmt) (r : Rnd) (d : Dst) (a : SrcD) (s : State) : Outcome :=
  .next (s.compute (.frnd h f r d a) (flt1 (frndBits r f)))
/-- `FSCL` (R158): n is SB read as `.i32`. -/
def execFscl (h : Hdr) (f : FFmt) (r : Rnd) (sat : Bool) (d : Dst) (a n : SrcD) (s : State) : Outcome :=
  .next (s.compute (.fscl h f r sat d a n) fun xs => fltRes (fsclBits r sat f (arg xs 0).toNat (intOf .i32 (arg xs 1))))

def execCvt (h : Hdr) (r : Rnd) (sat : Bool) (dt st : OTy) (d : Dst) (a : SrcD) (s : State) : Outcome :=
  .next (s.compute (.cvt h r sat dt st d a) fun xs => cvtRes r sat dt st (arg xs 0))

/-- `CVPK` (R167): two conversions into a pair of fields; operand 2 is the register's old value, kept outside the pair. -/
def cvpkRes (r : Rnd) (sat : Bool) (f : FFmt) (k : Nat) (xs : List Dword) : Res :=
  let x := cvtFF r sat .f32 f (arg xs 0).toNat
  let y := cvtFF r sat .f32 f (arg xs 1).toNat
  let w := f.width
  let old := (arg xs 2).toNat % 2 ^ 32
  let lo := 2 * w * k
  ⟨BitVec.ofNat 64 (old % 2 ^ lo + x.1 * 2 ^ lo + y.1 * 2 ^ (lo + w) + old / 2 ^ (lo + 2 * w) * 2 ^ (lo + 2 * w)), x.2 ||| y.2⟩
/-- A destination read as a source. -/
def dstAsSrc : Dst → SrcD
  | .v n => ⟨.v n, false⟩
  | .s n => ⟨.s n, false⟩
  | .vz => ⟨.vz, false⟩
/-- The operation of `CVPK`: for narrow formats the destination is read as well. -/
def cvpkMicro (h : Hdr) (r : Rnd) (sat : Bool) (f : FFmt) (k : Nat) (d : Dst) (a b : SrcD) : Micro :=
  let m := microOf (.cvpk h r sat f k d a b) (cvpkRes r sat f k)
  if f.width = 16 then m else { m with srcs := m.srcs ++ [(dstAsSrc d, .b32)] }
def execCvpk (h : Hdr) (r : Rnd) (sat : Bool) (f : FFmt) (k : Nat) (d : Dst) (a b : SrcD) (s : State) : Outcome :=
  .next (s.issue (.cvpk h r sat f k d a b) (State.laneBody (.cvpk h r sat f k d a b) fun _ => [cvpkMicro h r sat f k d a b]))
/-- `CVUP` (R168). -/
def cvupRes (f : FFmt) (k : Nat) (xs : List Dword) : Res :=
  fltRes (cvtFF .rne false f .f32 ((arg xs 0).toNat / 2 ^ (f.width * k) % 2 ^ f.width))
def execCvup (h : Hdr) (f : FFmt) (k : Nat) (d : Dst) (a : SrcD) (s : State) : Outcome :=
  .next (s.compute (.cvup h f k d a) (cvupRes f k))

/-- The operation of a pair half: that of its equivalent full word (Table 3.10, R69, R77). -/
def popRes (p : Pop) : List Dword → Res :=
  match p with
  | .faddF32 => flt2 (faddBits .rne false .f32)
  | .fsubF32 => flt2 (fsubBits .rne false .f32)
  | .fmulF32 => flt2 (fmulBits .rne false .f32)
  | .fminF32 => flt2 (fminmaxBits false .f32)
  | .fmaxF32 => flt2 (fminmaxBits true .f32)
  | .fabsF32 => fabsRes .f32
  | .fnegF32 => fnegRes .f32
  | .faddF16 => flt2 (faddBits .rne false .f16)
  | .fmulF16 => flt2 (fmulBits .rne false .f16)
  | .faddBf16 => flt2 (faddBits .rne false .bf16)
  | .fmulBf16 => flt2 (fmulBits .rne false .bf16)
  | .iadd => int2 .i32 false fun a b => a + b
  | .isub => int2 .i32 false fun a b => a - b
  | .imul => int2 .i32 false fun a b => a * b
  | .imin => int2 .i32 false fun a b => if b < a then b else a
  | .imax => int2 .i32 false fun a b => if a < b then b else a
  | .iminN => int2 .n32 false fun a b => if b < a then b else a
  | .imaxN => int2 .n32 false fun a b => if a < b then b else a
  | .and => bit2 .b32 fun a b => a &&& b
  | .or => bit2 .b32 fun a b => a ||| b
  | .xor => bit2 .b32 fun a b => a ^^^ b
  | .andn => bit2 .b32 fun a b => a &&& ~~~b
  | .shl => shlRes .b32
  | .shr => shrRes .b32
  | .sar => sarRes .b32
  | .mov => movRes .b32
/-- A pair half as an operation: binary halves read D first (R69). The operand type of shift counts is 32-bit as S's is. -/
def Half.micro (x : Half) : Micro :=
  { guard := x.guard
    srcs := if x.pop.unary then [(x.s, x.pop.ty)] else [(⟨.v x.d, false⟩, x.pop.ty), (x.s, x.pop.ty)]
    dst := .reg (.v x.d) 1 false false
    hold := x.hold
    f := popRes x.pop }
def execPairWord (a b : Option Half) (s : State) : Outcome :=
  .next (s.issue (.pairWord a b) (State.laneBody (.pairWord a b) fun _ => a.toList.map Half.micro ++ b.toList.map Half.micro))

end Sys2Proof.Machine
end

