-- ==== Sys2Proof/Machine/VecLong.lean ====
section
/-! DEFINITION. Pipe C: special functions and integer division; pipe D: lane exchange (R169 to R178). Results are in flight until delivered
(R97, R144). -/

namespace Sys2Proof.Machine

def execFrcp (h : Hdr) (d : Dst) (a : SrcD) (s : State) : Outcome := .next (s.computeLong (.frcp h d a) (flt1 Special.frcp))
def execFrsq (h : Hdr) (d : Dst) (a : SrcD) (s : State) : Outcome := .next (s.computeLong (.frsq h d a) (flt1 Special.frsq))
def execFsqrt (h : Hdr) (d : Dst) (a : SrcD) (s : State) : Outcome := .next (s.computeLong (.fsqrt h d a) (flt1 Special.fsqrt))
def execFexp2 (h : Hdr) (d : Dst) (a : SrcD) (s : State) : Outcome := .next (s.computeLong (.fexp2 h d a) (flt1 Special.fexp2))
def execFlog2 (h : Hdr) (d : Dst) (a : SrcD) (s : State) : Outcome := .next (s.computeLong (.flog2 h d a) (flt1 Special.flog2))
def execFsin (h : Hdr) (d : Dst) (a : SrcD) (s : State) : Outcome := .next (s.computeLong (.fsin h d a) (flt1 Special.fsin))
def execFcos (h : Hdr) (d : Dst) (a : SrcD) (s : State) : Outcome := .next (s.computeLong (.fcos h d a) (flt1 Special.fcos))
def execFtanh (h : Hdr) (d : Dst) (a : SrcD) (s : State) : Outcome := .next (s.computeLong (.ftanh h d a) (flt1 Special.ftanh))

/-- The quotient of `IDIV`, truncated toward zero, with the edge cases of Table 7.12. -/
def idivRes (t : OTy) (xs : List Dword) : Res :=
  let a := intOf t (arg xs 0)
  let b := intOf t (arg xs 1)
  if b = 0 then ⟨extend t (if t.signed then (if a < 0 then intMin t else intMax t) else intMax t), Flag.dz⟩
  else if t.signed ∧ a = intMin t ∧ b = -1 then ⟨extend t (intMin t), Flag.isat⟩
  else ⟨extend t (a.tdiv b), 0⟩
/-- The remainder of `IREM` (Table 7.12). -/
def iremRes (t : OTy) (xs : List Dword) : Res :=
  let a := intOf t (arg xs 0)
  let b := intOf t (arg xs 1)
  if b = 0 then ⟨extend t a, Flag.dz⟩
  else if t.signed ∧ a = intMin t ∧ b = -1 then ⟨0, Flag.isat⟩
  else ⟨extend t (a.tmod b), 0⟩
def execIdiv (h : Hdr) (t : OTy) (d : Dst) (a b : SrcD) (s : State) : Outcome := .next (s.computeLong (.idiv h t d a b) (idivRes t))
def execIrem (h : Hdr) (t : OTy) (d : Dst) (a b : SrcD) (s : State) : Outcome := .next (s.computeLong (.irem h t d a b) (iremRes t))

-- lane exchange

/-- What the members of an exchange supply (R171). -/
abbrev Members := List State.Member

/-- The width of a segment (R172). -/
def Seg.width (g : Seg) : Nat := 32 / 2 ^ g.code

/-- The value of operand 0 of lane `g + p`, or the lane's own where that lane is not a member (R172). -/
def fetchLane (vs : Members) (w : Nat) (p : Nat) (t : ThreadId) (xs : List Dword) : Dword :=
  (State.memberVal vs 0 (t.lane - t.lane % w + p % w)).getD (arg xs 0)
def index (x : Dword) : Nat := x.toNat % 2 ^ 32

def execXget (h : Hdr) (t : OTy) (g : Seg) (d : Dst) (a b : SrcD) (s : State) : Outcome :=
  .next (s.exchange (.xget h t g d a b) fun _ vs th xs => some ⟨fetchLane vs (Seg.width g) (index (arg xs 1)) th xs, 0⟩)
def execXrot (h : Hdr) (t : OTy) (g : Seg) (d : Dst) (a b : SrcD) (s : State) : Outcome :=
  .next (s.exchange (.xrot h t g d a b) fun _ vs th xs =>
    some ⟨fetchLane vs (Seg.width g) (th.lane % Seg.width g + index (arg xs 1)) th xs, 0⟩)
def execXflip (h : Hdr) (t : OTy) (g : Seg) (d : Dst) (a b : SrcD) (s : State) : Outcome :=
  .next (s.exchange (.xflip h t g d a b) fun _ vs th xs =>
    some ⟨fetchLane vs (Seg.width g) (th.lane % Seg.width g ^^^ (index (arg xs 1) % Seg.width g)) th xs, 0⟩)
def execXrev (h : Hdr) (t : OTy) (g : Seg) (d : Dst) (a : SrcD) (s : State) : Outcome :=
  .next (s.exchange (.xrev h t g d a) fun _ vs th xs =>
    some ⟨fetchLane vs (Seg.width g) (Seg.width g - 1 - th.lane % Seg.width g) th xs, 0⟩)
def execBcst (h : Hdr) (t : OTy) (d : Dst) (a b : SrcD) (s : State) : Outcome :=
  .next (s.exchange (.bcst h t d a b) fun _ vs th xs => some ⟨fetchLane vs 32 (index (arg xs 1)) th xs, 0⟩)

/-- `PCOL` over the source bits of the active lanes, given as lane and bit (R174). -/
def pcolRes (op : PcolOp) (bs : List (Nat × Bool)) : Res :=
  match op with
  | .some => boolRes (bs.any (·.2))
  | .every => boolRes (bs.all (·.2))
  | .same => boolRes (bs.all (·.2) || bs.all (!·.2))
  | .mask => ⟨BitVec.ofNat 64 ((bs.filter (·.2)).foldl (fun n (l, _) => n + 2 ^ l) 0), 0⟩
  | .count => ⟨BitVec.ofNat 64 (bs.filter (·.2)).length, 0⟩
def execPcol (h : Hdr) (op : PcolOp) (neg : Bool) (d : PDst) (pa : Nat) (s : State) : Outcome :=
  .next (s.exchange (.pcol h op neg d pa) fun s vs _ _ =>
    some (pcolRes op (vs.filterMap fun m => if m.active then some (m.thread.lane, (s.thread m.thread).pred pa != neg) else none)))
/-- `LMAT` (R175). -/
def execLmat (h : Hdr) (t : OTy) (d : Dst) (a : SrcD) (s : State) : Outcome :=
  .next (s.exchange (.lmat h t d a) fun _ vs _ xs =>
    some ⟨BitVec.ofNat 64 (((State.activeVals vs 0).filter fun (_, x) => x = arg xs 0).foldl (fun n (l, _) => n + 2 ^ l) 0), 0⟩)
/-- `LRED` over the values of the active lanes in increasing order (R176). -/
def lredRes (op : LredOp) (t : OTy) (sat : Bool) (vs : List Dword) : Res :=
  let ints := vs.map (intOf t)
  match op, vs, ints with
  | .add, _, _ => intRes t sat (ints.foldl (· + ·) 0)
  | .min, _, i :: is => intRes t false (is.foldl (fun a b => if b < a then b else a) i)
  | .max, _, i :: is => intRes t false (is.foldl (fun a b => if a < b then b else a) i)
  | .and, v :: ws, _ => bitRes t (ws.foldl (· &&& ·) v).toNat
  | .or, v :: ws, _ => bitRes t (ws.foldl (· ||| ·) v).toNat
  | .xor, v :: ws, _ => bitRes t (ws.foldl (· ^^^ ·) v).toNat
  | .fadd, v :: ws, _ =>
    fltRes (ws.foldl (fun (a, f) b => let r := faddBits .rne false .f32 a b.toNat; (r.1, f ||| r.2)) (v.toNat % 2 ^ 32, 0))
  | _, _, _ => ⟨0, 0⟩
def execLred (h : Hdr) (op : LredOp) (t : OTy) (sat : Bool) (d : Dst) (a : SrcD) (s : State) : Outcome :=
  .next (s.exchange (.lred h op t sat d a) fun _ vs _ _ => some (lredRes op t sat ((State.activeVals vs 0).map (·.2))))
/-- An s operand of a wave. -/
def sregVal (s : State) (w : WaveId) (n regs : Nat) : Dword :=
  if regs = 2 then pair64 ((s.wave w).sreg (n + 1)) ((s.wave w).sreg n) else ((s.wave w).sreg n).setWidth 64
def execSbc (h : Hdr) (t : OTy) (d : Dst) (a : Nat) (s : State) : Outcome :=
  .next (s.exchange (.sbc h t d a) fun s _ th _ => some ⟨sregVal s th.wave a t.regs, 0⟩)
def execLget (h : Hdr) (t : OTy) (d : Nat) (a b : SrcD) (s : State) : Outcome :=
  .next (s.exchange (.lget h t d a b) fun _ vs th xs => some ⟨fetchLane vs 32 (index (arg xs 1)) th xs, 0⟩)
/-- `LSET` writes the lane its operand names, when that lane is active (R178). -/
def execLset (h : Hdr) (t : OTy) (d : Nat) (a : Nat) (b : SrcD) (s : State) : Outcome :=
  .next (s.exchange (.lset h t d a b) fun s _ th xs =>
    if th.lane = index (arg xs 0) % 32 then some ⟨sregVal s th.wave a t.regs, 0⟩ else none)

end Sys2Proof.Machine
end

