-- ==== Sys2Proof/Machine/Scalar.lean ====
section
/-! DEFINITION. The scalar unit (R179 to R181): each wave with an active thread computes from its own s registers; every active thread
of the wave computes the same value, the s destination is written once per wave, and flags and predicates go to every active thread. -/

namespace Sys2Proof.Machine

def execSadd (h : Hdr) (t : OTy) (sat : Bool) (d : Dst) (a b : SrcD) (s : State) : Outcome :=
  .next (s.compute (.sadd h t sat d a b) (int2 t sat fun a b => a + b))
def execSsub (h : Hdr) (t : OTy) (sat : Bool) (d : Dst) (a b : SrcD) (s : State) : Outcome :=
  .next (s.compute (.ssub h t sat d a b) (int2 t sat fun a b => a - b))
def execSmul (h : Hdr) (t : OTy) (sat : Bool) (d : Dst) (a b : SrcD) (s : State) : Outcome :=
  .next (s.compute (.smul h t sat d a b) (int2 t sat fun a b => a * b))
def execSand (h : Hdr) (t : OTy) (d : Dst) (a b : SrcD) (s : State) : Outcome :=
  .next (s.compute (.sand h t d a b) (bit2 t fun a b => a &&& b))
def execSor (h : Hdr) (t : OTy) (d : Dst) (a b : SrcD) (s : State) : Outcome :=
  .next (s.compute (.sor h t d a b) (bit2 t fun a b => a ||| b))
def execSxor (h : Hdr) (t : OTy) (d : Dst) (a b : SrcD) (s : State) : Outcome :=
  .next (s.compute (.sxor h t d a b) (bit2 t fun a b => a ^^^ b))
def execSshl (h : Hdr) (t : OTy) (d : Dst) (a b : SrcD) (s : State) : Outcome := .next (s.compute (.sshl h t d a b) (shlRes t))
def execSshr (h : Hdr) (t : OTy) (d : Dst) (a b : SrcD) (s : State) : Outcome := .next (s.compute (.sshr h t d a b) (shrRes t))
def execSsar (h : Hdr) (t : OTy) (d : Dst) (a b : SrcD) (s : State) : Outcome := .next (s.compute (.ssar h t d a b) (sarRes t))
def execSmin (h : Hdr) (t : OTy) (d : Dst) (a b : SrcD) (s : State) : Outcome :=
  .next (s.compute (.smin h t d a b) (int2 t false fun a b => if b < a then b else a))
def execSmax (h : Hdr) (t : OTy) (d : Dst) (a b : SrcD) (s : State) : Outcome :=
  .next (s.compute (.smax h t d a b) (int2 t false fun a b => if a < b then b else a))
def execScmp (h : Hdr) (cc : ICc) (t : OTy) (p : Nat) (a b : SrcD) (s : State) : Outcome :=
  .next (s.compute (.scmp h cc t p a b) fun xs => boolRes (iccHolds cc (intOf t (arg xs 0)) (intOf t (arg xs 1))))
def execSmov (h : Hdr) (t : OTy) (d : Dst) (a : SrcD) (s : State) : Outcome := .next (s.compute (.smov h t d a) (movRes t))
/-- `SSEL` (R181): a when c ≠ 0. -/
def execSsel (h : Hdr) (t : OTy) (d : Dst) (a b c : SrcD) (s : State) : Outcome :=
  .next (s.compute (.ssel h t d a b c) fun xs => ⟨if arg xs 2 ≠ 0 then arg xs 0 else arg xs 1, 0⟩)
def execSlea (h : Hdr) (n32 : Bool) (k : Nat) (d : Dst) (a b c : SrcD) (s : State) : Outcome :=
  .next (s.compute (.slea h n32 k d a b c) (leaRes n32 k))

end Sys2Proof.Machine
end

