-- ==== Sys2Proof/Machine/Mem.lean ====
section
/-! DEFINITION. Addresses, translation and the places an access reaches: page tables, keys and permissions, homes, scratchpads, the register
window, leases and poison (R43 to R46, R229, R251, R263, R279, R384 to R392). -/

namespace Sys2Proof.Machine

/-- Kinds of access (Table 16.3). -/
inductive Acc where
  | load | store | rmw | fetch
  deriving DecidableEq, Repr

/-- Bits [63:57] of an address repeat bit 56 (R43). -/
def sxOk (va : Dword) : Bool := (va.extractLsb 63 56) = 0 || (va.extractLsb 63 56) = BitVec.allOnes 8
/-- The page number va[56:16] (R388). -/
def pageOf (va : Dword) : Nat := va.toNat / 2 ^ 16 % 2 ^ 41

/-- What became of an access before its effect. -/
inductive AddrRes where
  | loc (l : Loc) (pte : Option Pte)
  | fault (c : Cause) (arg : Nat)
  | wait (on : BlockOn)
  | broke (reason : Nat)
  deriving DecidableEq, Repr

namespace State

/-- The package a package number names, as seen from package `p` (R15, R391, R392). -/
def route (s : State) (p n : Nat) : Option Nat :=
  let k := s.pkg p
  if n = k.num then some p else if n ≥ k.n ∨ k.pid = none then none else Map.find k.pmap n

-- page tables (R384 to R386)

/-- A leaf or pointer entry of 16 bytes (Table 16.2). -/
def pteOf (e : Nat) (large : Bool) : Pte :=
  { r := e.testBit 1, w := e.testBit 2, x := e.testBit 3, tier := e.testBit 5, mov := e.testBit 6, ntf := e.testBit 7,
    key := e / 2 ^ 16 % 2 ^ 16, hpkg := e / 2 ^ 32 % 2 ^ 12, hdie := e / 2 ^ 44 % 8, frame := e / 2 ^ 64 % 2 ^ 27, large }
/-- Reserved bits of an entry. -/
def pteReserved (e : Nat) : Bool := e / 2 ^ 8 % 2 ^ 8 ≠ 0 || e / 2 ^ 47 % 2 ^ 17 ≠ 0 || e / 2 ^ 91 % 2 ^ 37 ≠ 0
/-- A pointer entry uses only V, HPKG, HDIE and FRAME (R385). -/
def ptrExtra (e : Nat) : Bool := e / 2 % 2 ^ 31 ≠ 0

/-- Follows forwarding stubs from a node's frame, at most three (R275, Table 11.6). -/
def followFrame (s : State) : Nat → Nat × Nat × Nat → Nat × Nat × Nat
  | 0, h => h
  | n + 1, (q, d, f) =>
    match (s.die q d).stubs.find? fun x => decide (x.start ≤ physAt q d (f * 65536)) && decide (physAt q d (f * 65536) < x.start + pageBytes x.large) with
    | some x => s.followFrame n (x.newPkg, x.newDie, x.newFrame + (physAt q d (f * 65536) - x.start) / 65536)
    | none => (q, d, f)
/-- One walk (R386): the levels still to read, each with the position and width of its index, and the node to read, which `rd` reads; the entries that
name the nodes below. -/
def walkWith (s : State) (rd : σ → Nat → σ × List Byte) (k va : Nat) : Nat → List (Nat × Nat) → WalkEntry → List WalkEntry → σ → σ × Except (Cause × Nat) (Pte × List WalkEntry)
  | _, [], x, _, u => (u, .error (.walkf, x.level))
  | p, (lo, bits) :: rest, x, seen, u =>
    match s.route p x.hpkg with
    | none => (u, .error (.xlat, 0))
    | some q =>
      let h := s.followFrame 3 (q, x.hdie, x.frame)
      let r := rd u (physAt h.1 h.2.1 (h.2.2 * 65536 + 16 * (va / 2 ^ lo % 2 ^ bits)))
      let e := leNat r.2
      if e % 2 = 0 then (r.1, .error (.walkf, x.level))
      else if pteReserved e then (r.1, .error (.walkf, x.level))
      else if e.testBit 4 then
        if x.level < 2 then (r.1, .error (.walkf, x.level))
        else if x.level = 2 ∧ e / 2 ^ 64 % 4096 ≠ 0 then (r.1, .error (.walkf, x.level))
        else (r.1, .ok (pteOf e (x.level = 2), seen))
      else if x.level = 3 ∨ ptrExtra e then (r.1, .error (.walkf, x.level))
      else
        let y : WalkEntry := ⟨k, x.level + 1, va / 2 ^ lo, e / 2 ^ 32 % 2 ^ 12, e / 2 ^ 44 % 8, e / 2 ^ 64 % 2 ^ 27⟩
        s.walkWith rd k va p rest y (y :: seen) r.1
/-- The four levels: position and width of each index (R386). -/
def walkLevels : List (Nat × Nat) := [(52, 5), (40, 12), (28, 12), (16, 12)]
/-- The root of a walk as the entry that names it. -/
def rootEntry (k : Nat) (root : Nat × Nat × Nat) : WalkEntry := ⟨k, 0, 0, root.1, root.2.1, root.2.2⟩
/-- The translation that the entries in memory give (log entry 3). -/
def walk (s : State) (p : Nat) (root : Nat × Nat × Nat) (va : Dword) : Except (Cause × Nat) Pte :=
  (s.walkWith (fun (_ : Unit) a => ((), memBytes s.mem a 16)) 0 va.toNat p walkLevels (rootEntry 0 root) [] ()).2.map (·.1)
/-- The addresses of the entries that a walk reads, from an entry on. -/
def walkReads (s : State) (p : Nat) (x : WalkEntry) (va : Dword) : List Nat :=
  (s.walkWith (fun (as : List Nat) a => (as ++ [a], memBytes s.mem a 16)) 0 va.toNat p (walkLevels.drop x.level) x [] []).1
/-- The deepest pointer entry of a walker cache that covers an address (R388). -/
def walkerHit (es : List WalkEntry) (k va : Nat) : Option WalkEntry :=
  let at_ (n lo : Nat) : Option WalkEntry := es.find? fun x => x.ctx = k && x.level = n && x.above = va / 2 ^ lo
  at_ 3 28 <|> at_ 2 40 <|> at_ 1 52
/-- Where the walk for an access of a die starts: at the deepest pointer entry that the walker cache holds. -/
def walkStart (s : State) (p d k : Nat) (root : Nat × Nat × Nat) (va : Dword) : WalkEntry :=
  (walkerHit (s.die p d).walker k va.toNat).getD (rootEntry k root)
/-- The read of a node goes through the directory of its home (R254, R275). -/
def nodeRequest (s : State) (p k a : Nat) : State :=
  let m : Msg := { kind := .gete, line := lineOf a, src := .engine p, dst := .home (physPkg a) (physDie a), key := k, phys := true, sentAt := s.hubNow p }
  if s.net.any fun (_, x) => x.kind = .gete && x.line = m.line && x.src = m.src then s else s.send m
/-- A walk for an agent of a die, from the deepest pointer entry its walker cache holds; a walk that returns a leaf leaves its pointer entries there
(R388; log entry 33). Each node read is the access `e` (R389). -/
def walkCached (s : State) (e : Ev) (p d k : Nat) (root : Nat × Nat × Nat) (va : Dword) : State × Except (Cause × Nat) Pte :=
  let x := s.walkStart p d k root va
  let rd (s : State) (a : Nat) : State × List Byte :=
    let s := s.nodeRequest p k a
    let r := s.readEv { e with base := .mem a } false (memBytes s.mem a 16)
    (r.1, r.2.2)
  match s.walkWith rd k va.toNat p (walkLevels.drop x.level) x [] s with
  | (s, .error e) => (s, .error e)
  | (s, .ok (pte, seen)) => (s.modDie p d fun y => { y with walker := seen ++ y.walker }, .ok pte)

/-- The root of a context: home package, die, frame. -/
def ctxRoot (s : State) (k : Nat) : Nat × Nat × Nat :=
  let c := s.context k
  (c.rootPkg, c.rootDie, c.rootFrame)
/-- The root of a thread's translation; `HPTB` holds its frame in [42:16], die in [45:43] and package in [56:46] (log entry 13). -/
def rootOf (s : State) (t : ThreadId) : Nat × Nat × Nat :=
  if isHost t then
    let h := (s.host t.wave.core).hptb.toNat
    (h / 2 ^ 46 % 2 ^ 11, h / 2 ^ 43 % 8, h / 2 ^ 16 % 2 ^ 27)
  else s.ctxRoot (s.ctxOf t)

/-- A cached translation covers a page of its context (R388). -/
def tlbHit (ctx page : Nat) (e : Tlb) : Bool :=
  e.ctx = ctx && (if e.pte.large then e.page / 4096 = page / 4096 else e.page = page)

/-- The translation of an address for a thread: last-page register, core TLB, walk through the die's walker cache (R388). An entry with `MOV` is not cached. -/
def translate (s : State) (t : ThreadId) (va : Dword) : State × Except (Cause × Nat) Pte :=
  let k := s.ctxOf t
  let pg := pageOf va
  let c := t.wave.core
  match (s.thread t).lastPage with
  | some e => if tlbHit k pg e then (s, .ok e.pte) else fromTlb k pg c
  | none => fromTlb k pg c
where
  fromTlb (k pg : Nat) (c : CoreId) : State × Except (Cause × Nat) Pte :=
    match (s.core c).tlb.find? (tlbHit k pg) with
    | some e => (s.modThread t fun th => { th with lastPage := some e }, .ok e.pte)
    | none =>
      match s.walkCached { s.access t .load .ls .rlx (some .rack) with word := none } c.pkg c.die k (s.rootOf t) va with
      | (s, .error e) => (s, .error e)
      | (s, .ok pte) =>
        if pte.mov then (s, .ok pte)
        else
          let e : Tlb := ⟨k, pg, pte⟩
          let s := s.modThread t fun th => { th with lastPage := some e }
          (s.modCore c fun x => { x with tlb := (e :: x.tlb).take 2048 }, .ok pte)

/-- The entry of a package's owner cache for a page (R270). -/
def ownerOf (s : State) (p key page : Nat) : Option Owner := (s.pkg p).owners.find? fun o => o.key = key && o.page = page
/-- A use of an entry: replacement is least recently used (R270). -/
def useOwner (s : State) (p key page : Nat) : State :=
  match s.ownerOf p key page with
  | some o => s.modPkg p fun k => { k with owners := o :: k.owners.erase o }
  | none => s

/-- Package, die and frame of the home of an address's 64 KiB page: its translation's, or the owner cache's in its place (R270); none where the package cannot be
reached (R392). -/
def homeFrame (s : State) (p : Nat) (pte : Pte) (va : Dword) : Option (Nat × Nat × Nat) :=
  let page := pageOf va
  let (n, d, f) := (s.ownerOf p pte.key page).elim (pte.hpkg, pte.hdie, pte.frame + (if pte.large then page % 4096 else 0)) fun o => (o.hpkg, o.hdie, o.frame)
  (s.route p n).map fun q => (q, d, f)
/-- The page a forwarding stub covers, and the frame it names for it (R268, R269). -/
def stubCovers (x : Stub) (key page : Nat) : Bool := x.key = key && (if x.large then x.page / 4096 = page / 4096 else x.page = page)
def stubFrame (x : Stub) (page : Nat) : Nat := x.newFrame + (if x.large then page % 4096 else 0)
/-- Follows forwarding stubs, at most three (Table 11.6). -/
def follow (s : State) (key page : Nat) : Nat → Nat × Nat × Nat → Nat × Nat × Nat
  | 0, h => h
  | n + 1, (q, d, f) =>
    match (s.die q d).stubs.find? fun x => stubCovers x key page with
    | some x => s.follow key page n (x.newPkg, x.newDie, stubFrame x page)
    | none => (q, d, f)
/-- An address within a home's frame; a CXL-tier page lies in the package's CXL memory (R14). -/
def placeIn (pte : Pte) (h : Nat × Nat × Nat) (va : Dword) : Nat := physAt h.1 (if pte.tier then 9 else h.2.1) (h.2.2 * 65536 + va.toNat % 65536)

/-- The physical place of an address under a translation, for package `p`, stubs followed. -/
def physOf (s : State) (p : Nat) (pte : Pte) (va : Dword) : Option Nat :=
  (s.homeFrame p pte va).map fun h => placeIn pte (s.follow pte.key (pageOf va) 3 h) va
/-- Where a request goes first: the home that the requester knows, and the line's address there (R269). -/
def firstHome (s : State) (p : Nat) (pte : Pte) (va : Dword) (pa : Nat) : Agent × Nat :=
  match s.homeFrame p pte va with
  | some h => (.home h.1 h.2.1, lineOf (placeIn pte h va))
  | none => (.home (physPkg pa) (physDie pa), lineOf pa)

/-- Whether an address lies in the trap queue or the spool area of a thread's context (R407, R411). -/
def ownArea (s : State) (t : ThreadId) (va : Dword) : Bool :=
  let k := s.ctxOf t
  let p := t.wave.core.pkg
  let g := (s.context k).regs
  let q := g.trapQueue.toNat / 4096 * 4096
  let b := g.spoolBase
  let size := match s.walk p (s.ctxRoot k) b with
    | .ok pte => (s.physOf p pte b).elim 0 fun a => leNat (memBytes s.mem a 8)
    | .error _ => 0
  (q ≤ va.toNat && va.toNat < q + 0x1000 + 64 * 2 ^ (g.trapQueue.toNat % 16 + 6)) || (b.toNat ≤ va.toNat && va.toNat < b.toNat + size)
/-- Keys an access of a thread to an address may name (Table 16.3). -/
def keyOk (s : State) (t : ThreadId) (kind : Acc) (va : Dword) (key : Nat) : Bool :=
  key = s.ctxOf t
    || (isHost t && priv (s.host t.wave.core) ≥ 1 && key = 0)
    || (!isHost t && (s.grid (s.team (s.teamOf t)).grid).handler && kind = .load && key = 0 && s.ownArea t va)
/-- Permissions (R387). -/
def permOk (kind : Acc) (p : Pte) : Bool :=
  match kind with
  | .load => p.r | .store => p.w | .rmw => p.r && p.w | .fetch => p.x

/-- A global access, in `.k` or not: alignment is checked by the caller; then the address, the walk, key and permission, the home (Table 12.4, orders 2 to 5). -/
def globalAddr (s : State) (t : ThreadId) (kind : Acc) (va : Dword) (konst : Bool := false) : State × Except (Cause × Nat) (Nat × Pte) :=
  if !sxOk va then (s, .error (.xlat, 0))
  else
    match s.translate t va with
    | (s, .error e) => (s, .error e)
    | (s, .ok pte) =>
      if !(s.keyOk t kind va pte.key && permOk kind pte) || (konst && (kind = .store || kind = .rmw)) then (s, .error (.perm, 0))
      else match s.physOf t.wave.core.pkg pte va with
        | none => (s, .error (.xlat, 0))
        | some pa => (s, .ok (pa, pte))

/-- Whether a home holds the requests for an address's page (R268, R273). -/
def frozenLine (s : State) (a : Nat) : Bool := s.dies.any fun ((p, _), x) => p = physPkg a && x.frozen.any (·.covers a)
/-- The line of a page-table node for which a thread's translation waits: a lease covers it, or its page is moving (R267, R275). -/
def walkHeld (s : State) (t : ThreadId) (va : Dword) : Option Nat :=
  let k := s.ctxOf t
  let c := t.wave.core
  if !sxOk va || (s.thread t).lastPage.elim false (tlbHit k (pageOf va)) || (s.core c).tlb.any (tlbHit k (pageOf va)) then none
  else ((s.walkReads c.pkg (s.walkStart c.pkg c.die k (s.rootOf t) va) va).find? fun a => s.leasedByOther t (lineOf a) || s.frozenLine a).map lineOf

/-- A team's scratchpad in bytes (R42). -/
def scrSize (s : State) (tm : Nat) : Nat := (s.team tm).scrKB * 1024
/-- The team at a slot of a team's cluster (R43, R320). -/
def clusterTeam (s : State) (tm slot : Nat) : Option Nat :=
  let x := s.team tm
  match x.clusterSlot with
  | none => none
  | some _ => ((s.teams.find? fun (_, y) => y.grid = x.grid && y.cluster = x.cluster && y.clusterSlot = some slot).map (·.1))
/-- The wave a wave number of a thread's team names (R44). -/
def windowWave (s : State) (t : ThreadId) (w : Nat) : Option WaveId :=
  if isHost t then (if w = 0 then some t.wave else none) else (s.team (s.teamOf t)).waves[w]?

/-- The place of an access of a thread in a space, or what stops it (R43, R44, Table 12.4). Leases are applied by `leaseGate`. An RMW in `.w` raises `PERM` also where
`ALLOT`, which stands in the same row of the table, would apply (log entry 45, DESIGN CHOICE). A store or an RMW in `.k` lacks permission before its home is
looked for (R279). -/
def spaceAddr (s : State) (t : ThreadId) (spc : Space) (kind : Acc) (addr : Dword) (z : Nat) (aligned : Bool) : State × AddrRes :=
  let a := addr.toNat
  if aligned && a % z ≠ 0 then (s, .fault .align 0)
  else
    match spc with
    | .g | .s | .k =>
      match s.walkHeld t addr with
      | some l => (s, .wait (.leasedLine l))
      | none =>
        match s.globalAddr t kind addr (spc = .k) with
        | (s, .error (c, n)) => (s, .fault c n)
        | (s, .ok (pa, pte)) => (s, .loc (.mem pa) (some pte))
    | .l => if a % 2 ^ 32 + z ≤ s.scrSize (s.teamOf t) then (s, .loc (.scr (s.teamOf t) (a % 2 ^ 32)) none) else (s, .fault .xlat 0)
    | .c =>
      let a := a % 2 ^ 32
      match (if a / 2 ^ 25 = 0 then s.clusterTeam (s.teamOf t) (a / 2 ^ 20 % 32) else none) with
      | none => (s, .fault .xlat 0)
      | some tm => if a % 2 ^ 20 + z ≤ s.scrSize tm then (s, .loc (.scr tm (a % 2 ^ 20)) none) else (s, .fault .xlat 0)
    | .w =>
      let a := a % 2 ^ 32
      if a % 4 + z > 4 then (s, .fault .align 0)
      else if kind = .rmw then (s, .fault .perm 0)
      else match (if a / 2 ^ 20 = 0 then s.windowWave t (a / 2 ^ 15) else none) with
        | none => (s, .fault .allot 0)
        | some w =>
          let n := a / 128 % 256
          if n < (s.wave w).allot then (s, .loc (.win ⟨w, a / 4 % 32⟩ n (a % 4)) none) else (s, .fault .allot 0)

/-- What a lease makes of an access (R263, Table 12.6): the holder's own leased lines and its scratchpad go on; any other access of the holder
breaks the lease with reason 2; another thread's access to a leased line waits. -/
def leaseGate (s : State) (t : ThreadId) (spc : Space) (r : AddrRes) : AddrRes :=
  match r with
  | .loc l pte =>
    let own := (s.thread t).lease.elim [] (·.lines.map (·.line))
    match l with
    | .mem pa =>
      if own ≠ [] then (if spc = .g && own.contains (lineOf pa) then .loc l pte else .broke 2)
      else if s.leasedByOther t (lineOf pa) then .wait (.leasedLine (lineOf pa))
      else .loc l pte
    | .scr .. | .win .. => if own ≠ [] && spc ≠ .l then .broke 2 else .loc l pte
  | .fault c n => if s.holdsLease t then .broke 3 else .fault c n
  | r => r
/-- What a window access to a register meets: its granule is filled first (R96); results in flight to a register of the thread's own wave are met as an
ordinary access of the register meets them (R46): the access waits for those of `TRD` and `MXR` (R211, R225), and one of the thread itself within its
lookahead has arrived or not, a free choice (R98). -/
def winReady (s : State) (t u : ThreadId) (n : Nat) : State :=
  let s := s.fillGranule u.wave (n / 8)
  let hit (p : Pending) : Bool := p.vw.any fun (r, _) => r = n
  if u.wave ≠ t.wave ∨ !(s.thread u).pend.any hit then s
  else
    let due := ((s.thread u).pend.filter fun p => p.kind.quick && hit p).foldl (fun m p => max m (p.due + 1)) 0
    let s := s.modCore t.wave.core fun x => { x with readyAt := max x.readyAt due }
    let (k, s) := s.freeIdx
    s.settleThat u fun p => hit p && (p.kind.quick || (u = t && (Config.freeNat k).testBit p.issued))
/-- The place of an access under leases. -/
def accessAddr (s : State) (t : ThreadId) (spc : Space) (kind : Acc) (addr : Dword) (z : Nat) (aligned : Bool := true) : State × AddrRes :=
  let (s, r) := s.spaceAddr t spc kind addr z aligned
  match s.leaseGate t spc r with
  | .loc (.win u n k) pte => (s.winReady t u n, .loc (.win u n k) pte)
  | r => (s, r)

-- reading and writing places

/-- A byte of a scratchpad (R47, R383). -/
def scrByte (s : State) (tm off : Nat) : Byte :=
  let x := s.team tm
  match Map.find x.scratch off with
  | some b => b
  | none => if x.scrZero then 0 else Config.freeByte x.scrSeed off
def scrBytes (s : State) (tm off n : Nat) : List Byte := (List.range n).map fun k => s.scrByte tm (off + k)
def setScr (s : State) (tm off : Nat) (bs : List Byte) : State :=
  s.modTeam tm fun x => { x with
    scratch := ((List.range bs.length).zip bs).foldl (fun m (k, b) => Map.set m (off + k) b) x.scratch
    scrPoison := if bs.length ≥ 8 then x.scrPoison.filter (fun u => u < off || u + 8 > off + bs.length) else x.scrPoison }

/-- `n` bytes of an element of a register, from byte `k` (R44, R45): a dead register reads as zero. -/
def winBytes (s : State) (t : ThreadId) (n k z : Nat) : List Byte :=
  ((leBytes ((Map.find (s.thread t).v n).getD 0).toNat 4).drop k).take z
/-- A window write (R45): merges, makes the register live, expands uniform form. -/
def setWin (s : State) (t : ThreadId) (n k : Nat) (bs : List Byte) : State :=
  let old := leBytes ((Map.find (s.thread t).v n).getD 0).toNat 4
  let new := old.take k ++ bs ++ old.drop (k + bs.length)
  let s := s.modWave t.wave fun w => { w with uniform := w.uniform.filter (· ≠ n) }
  s.modThread t fun th => th.writeV n (BitVec.ofNat 32 (leNat new))

def readLoc (s : State) (l : Loc) (z : Nat) : List Byte :=
  match l with
  | .mem pa => memBytes s.mem pa z
  | .scr tm off => s.scrBytes tm off z
  | .win t n k => s.winBytes t n k z
def writeLoc (s : State) (l : Loc) (bs : List Byte) : State :=
  match l with
  | .mem pa => { s with mem := memStore s.mem pa bs }
  | .scr tm off => s.setScr tm off bs
  | .win t n k => s.setWin t n k bs
/-- A read of the place finds poison (R279, Table 17.11). -/
def poisonAt (s : State) (l : Loc) (z : Nat) : Bool :=
  match l with
  | .mem pa => s.poison.contains (lineOf pa)
  | .scr tm off => (s.team tm).scrPoison.any fun u => u < off + z && off < u + 8
  | .win t n _ => (s.thread t).poisoned.contains n

-- accesses in the history (R229 to R232, R267; log entry 3)

/-- The single-copy-atomic units of a thread access of `z` bytes: offset and length (R231). -/
def units (z : Nat) : List (Nat × Nat) := if z ≤ 8 then [(0, z)] else (List.range (z / 8)).map fun k => (8 * k, 8)
/-- The lines of a thread's lease. -/
def ownLines (s : State) (t : ThreadId) : List Nat := (s.thread t).lease.elim [] (·.lines.map (·.line))
/-- Whether a thread's access to a place stands in the history by itself: those of a lease to its lines are one RMW at its end (R267); a register window
holds no version but the register (R45). -/
def traced (s : State) (t : ThreadId) (l : Loc) : Bool :=
  match l with
  | .mem pa => !(s.ownLines t).contains (lineOf pa)
  | .scr .. => true
  | .win .. => false
/-- A load of a thread: its accesses and the bytes they return. -/
def loadAt (s : State) (t : ThreadId) (path : Path) (ord : Ord) (scp : Option Scope) (flight : Bool) (l : Loc) (z : Nat) : State × List Ev × List Byte :=
  if !s.traced t l then (s, [], s.readLoc l z)
  else (units z).foldl (fun (s, es, bs) (k, n) =>
    let e := { s.access t .load path ord scp with base := Order.byteAt l k }
    let (s, e, b) := s.readEv e flight (s.readLoc (Order.byteAt l k) n)
    (s, es ++ [e], bs ++ b)) (s, [], [])
/-- A store or an RMW of a thread. -/
def storeAt (s : State) (t : ThreadId) (kind : EvKind) (path : Path) (ord : Ord) (scp : Option Scope) (stream : Bool) (l : Loc) (bs : List Byte) : State :=
  if !s.traced t l then s.writeLoc l bs
  else (units bs.length).foldl (fun s (k, n) =>
    let e := { s.access t kind path ord scp with base := Order.byteAt l k, bytewise := stream }
    let (s, out) := s.writeEv e (s.readLoc e.base n) ((bs.drop k).take n)
    s.writeLoc e.base out) s
/-- A read of an agent that is no thread, one access. -/
def agentLoad (s : State) (e : Ev) (l : Loc) (n : Nat) : State × List Byte :=
  let (s, _, bs) := s.readEv { e with kind := .load, base := l } false (s.readLoc l n)
  (s, bs)
/-- A write or an RMW of an agent that is no thread, one access. -/
def agentStore (s : State) (e : Ev) (l : Loc) (bs : List Byte) : State :=
  let (s, out) := s.writeEv { e with kind := if e.kind = .rmw then .rmw else .store, base := l } (s.readLoc l bs.length) bs
  s.writeLoc l out

/-- A streaming store is merged: its bytes come last in the coherence order, where the memory model does not order it before another (R261). -/
def mergeLast (s : State) (n : Nat) : State :=
  match s.trace.find? (·.id = n) with
  | none => s
  | some e =>
    let (s, ok) := s.allow (Order.placeAt s.trace n (Order.top s.trace)) true false
    if ok then s.writeLoc e.base (e.new.take e.len) else s

-- the protocol's part of an access (R253 to R255, R261, R288; log entry 4)

/-- A thread's request to a line's home. -/
def request (s : State) (t : ThreadId) (kind : MsgKind) (pte : Pte) (va : Dword) (pa : Nat) : Msg :=
  let c := t.wave.core
  let (dst, line) := s.firstHome c.pkg pte va pa
  { kind, line, src := .core c, dst, key := pte.key, page := pageOf va, ntf := pte.ntf, sentAt := s.now c, va, by_ := some t, at_ := (s.thread t).last, root := s.rootOf t }

/-- A request of a core goes out, unless accesses to its page from before a `REDIRECT` are open (R271). -/
def sendReq (s : State) (c : CoreId) (m : Msg) : State :=
  let s := s.useOwner c.pkg m.key m.page
  if (s.core c).redirs.any fun r => r.key = m.key && r.page = m.page then
    s.modCore c fun x => { x with redirs := x.redirs.map fun r => if r.key = m.key ∧ r.page = m.page then { r with held := r.held ++ [m] } else r }
  else s.send m
/-- The lines of a thread's requests that are open: misses, and streaming stores and RMWs at their homes; a held store counts as one that will be (R282, R289). -/
def openOf (x : CoreSt) (t : ThreadId) : List Nat × List Nat :=
  ((x.misses.filter (·.for_.contains t)).map (·.line) ++ (x.held.filter fun h => h.thread = t && !h.stream).map (lineOf ·.pa),
    (x.sent.filter (·.by_ = some t)).map (·.line) ++ (x.held.filter fun h => h.thread = t && h.stream).map (lineOf ·.pa))
/-- An access of a core has completed: after the last one from before a `REDIRECT` the held requests go out in their order (R271). -/
def sendHeld (s : State) (c : CoreId) (m : Msg) (answered : Bool) : State :=
  match (s.core c).redirs with
  | [] => s
  | rs =>
    let rs := rs.map fun r => if r.key = m.key ∧ r.page = m.page then { r with open_ := r.open_.erase (answered, m.line % 65536) } else r
    let s := s.modCore c fun x => { x with redirs := rs.filter (·.open_ ≠ []) }
    ((rs.filter (·.open_ = [])).flatMap (·.held)).foldl (fun (s : State) m => s.send { m with sentAt := s.now c }) s

/-- Opens a miss: the line is asked for unless it is already; ownership wanted meanwhile is asked for after the grant (R255). `for_` are the threads whose accesses
it serves, none for a prefetch; a store writes `len` bytes as the events `evs`. -/
def miss (s : State) (t : ThreadId) (for_ : List ThreadId) (own : Bool) (pte : Pte) (va : Dword) (pa : Nat) (len : Nat := 0) (evs : List Nat := []) : State :=
  let c := t.wave.core
  let x := s.core c
  let req := s.request t (if own then .getm else .gets) pte va pa
  let uses := if for_ = [] then [] else [{ req with len, evs }]
  if x.misses.any (·.line = lineOf pa) then
    let add (m : Miss) : Miss := if m.line = lineOf pa then { m with own := m.own || own, for_ := (m.for_ ++ for_).eraseDups, uses := m.uses ++ uses } else m
    s.setCore c { x with misses := x.misses.map add }
  else (s.setCore c { x with misses := x.misses ++ [{ line := lineOf pa, req, own, for_, uses, since := s.now c }] }).sendReq c req
/-- A streaming store or an RMW goes to the home, which answers it (R261, R288). -/
def sendHome (s : State) (t : ThreadId) (kind : MsgKind) (pte : Pte) (va : Dword) (pa len : Nat) (evs : List Nat) : State :=
  let req := { s.request t kind pte va pa with len, evs }
  (s.modCore t.wave.core fun x => { x with sent := x.sent ++ [req] }).sendReq t.wave.core req

/-- The L1's part of a thread access: a load needs any state, a store M or E (E becomes M silently, R253), a streaming store goes to the home,
an RMW is performed in an L1 that owns the line and else at the home (R288). -/
def touchLine (s : State) (t : ThreadId) (kind : Acc) (stream : Bool) (pte : Pte) (va : Dword) (pa len : Nat) (evs : List Nat) : State :=
  let c := t.wave.core
  let st := Map.find (s.core c).l1 (lineOf pa)
  let dirty (s : State) : State := s.modCore c fun x => { x with l1 := Map.set x.l1 (lineOf pa) .m }
  match kind, st with
  | .load, some _ => s
  | .load, none => s.miss t [t] false pte va pa
  | .fetch, _ => s
  | .store, st =>
    if stream then s.sendHome t .stm pte va pa len evs
    else match st with
      | some .m | some .e => dirty s
      | _ => s.miss t [t] true pte va pa len evs
  | .rmw, some .m | .rmw, some .e => dirty s
  | .rmw, _ => s.sendHome t .atm pte va pa len evs

/-- The requests of held stores go out whose thread's earlier accesses are performed (R282). -/
def releaseStores (s : State) (c : CoreId) : Nat → State
  | 0 => s
  | fuel + 1 =>
    let x := s.core c
    let ready (h : HeldStore) : Bool :=
      (x.held.find? (·.thread = h.thread)) = some h && !x.misses.any (fun m => h.misses.contains m.line)
        && !x.sent.any fun m => m.by_ = some h.thread && h.sent.contains m.line
    match x.held.find? ready with
    | none => s
    | some h => ((s.setCore c { x with held := x.held.erase h }).touchLine h.thread .store h.stream h.pte h.va h.pa h.len h.evs).releaseStores c fuel
/-- An access of a core has completed: what waited for it goes on (R271, R282). -/
def accessDone (s : State) (c : CoreId) (m : Msg) (answered : Bool) : State :=
  (s.sendHeld c m answered).releaseStores c (s.core c).held.length

/-- A store or RMW of a primary host thread at level 1 or 2 in the mirrored range is also sent to the standby (R433). -/
def mirrorStore (s : State) (t : ThreadId) (va : Dword) (bs : List Byte) : State :=
  if !isHost t then s
  else
    let p := t.wave.core.pkg
    match (s.pkg p).mirror with
    | some m =>
      if m.role = 1 ∧ priv (s.host t.wave.core) ≥ 1 ∧ m.mbase.toNat ≤ va.toNat ∧ va.toNat < m.mbase.toNat + m.mlen then
        s.modPkg m.peer fun k => { k with mirrorQ := k.mirrorQ ++ [(va.toNat - m.mbase.toNat, bs, t.wave.core)] }
      else s
    | none => s

/-- A mirrored write of a host thread that the standby has not made: the access is not performed (R433). -/
def mirroring (s : State) (t : ThreadId) : Bool :=
  isHost t && (s.pkg t.wave.core.pkg).mirror.elim false fun m => (s.pkg m.peer).mirrorQ.any (·.2.2 = t.wave.core)

/-- A store wider than `core` in a releasing form (R282). -/
def widely (ord : Ord) (scp : Option Scope) : Bool := (ord = .rel || ord = .acqrel) && scp.elim false (· ≠ .core)
/-- The effect of a write access on its place, its L1 and the mirror. The request of a release store wider than `core` is held while earlier accesses of the thread
are open (R282). -/
def performWrite (s : State) (t : ThreadId) (rmw stream : Bool) (ord : Ord) (scp : Option Scope) (addr : Dword) (l : Loc) (pte : Option Pte) (bs : List Byte) : State :=
  let first := s.nextEv
  let s := s.storeAt t (if rmw then .rmw else .store) .ls ord scp stream l bs
  match l, pte with
  | .mem pa, some pte =>
    let evs := (List.range (s.nextEv - first)).map (first + ·)
    let s := s.mirrorStore t addr bs
    let x := s.core t.wave.core
    let wait := openOf x t
    if !rmw && widely ord scp && wait ≠ ([], []) then
      s.setCore t.wave.core { x with held := x.held ++ [{ thread := t, stream, pte, va := addr, pa, len := bs.length, evs, misses := wait.1, sent := wait.2 }] }
    else s.touchLine t (if rmw then .rmw else .store) stream pte addr pa bs.length evs
  | _, _ => s
/-- The L1's part of a read access. -/
def performRead (s : State) (t : ThreadId) (kc : Bool) (addr : Dword) (l : Loc) (pte : Option Pte) : State :=
  match l, pte with
  | .mem pa, some pte => if kc then s else s.touchLine t .load false pte addr pa 0 []
  | _, _ => s

end State
end Sys2Proof.Machine
end

