-- ==== Sys2Proof/Machine/Agents.lean ====
section
/-! DEFINITION. Accesses of agents other than threads: engines that act for a thread, packet engines, the Skein, firmware (R229, R246, R254, R279, R387).
Each translates under a context's root and, where its key is checked, under Table 16.3. -/

namespace Sys2Proof.Machine

/-- A stretch of an access within one 64 KiB page: virtual address, physical address, length and translation. -/
structure Piece where
  va : Dword
  pa : Nat
  len : Nat
  pte : Pte
  deriving DecidableEq, Repr

/-- The operation on which an engine's access is made. -/
def opOf (e : Ev) : Option Nat := match e.who with | .engine n => some n | _ => none
/-- A fault of an agent's access: cause, level of a `WALKF`, address. -/
abbrev AFault := Cause × Nat × Dword

namespace State

/-- The packages of a package's partition (R15): all it can name. -/
def partition (s : State) (p : Nat) : List Nat :=
  ((List.range (s.pkg p).n).filterMap fun k => s.route p k).eraseDups

/-- The translation of one address for an agent of package `p` (Table 12.4, orders 2 to 5): `keys` none for an agent no key binds. -/
def vaAddr (s : State) (p : Nat) (root : Nat × Nat × Nat) (keys : Option (List Nat)) (kind : Acc) (va : Dword) : Except AFault (Nat × Pte) :=
  if !sxOk va then .error (.xlat, 0, va)
  else match s.walk p root va with
    | .error (c, n) => .error (c, n, va)
    | .ok pte =>
      if keys.elim false fun ks => !(ks.contains pte.key && permOk kind pte) then .error (.perm, 0, va)
      else match s.physOf p pte va with
        | none => .error (.xlat, 0, va)
        | some pa => .ok (pa, pte)

/-- The pieces of a stretch of addresses, one per page; the lowest address that faults gives the fault. -/
def pieces (s : State) (p : Nat) (root : Nat × Nat × Nat) (keys : Option (List Nat)) (kind : Acc) : Nat → Dword → Nat → Except AFault (List Piece)
  | 0, _, _ => .ok []
  | fuel + 1, va, n =>
    if n = 0 then .ok []
    else
      let len := min n (65536 - va.toNat % 65536)
      match s.vaAddr p root keys kind va with
      | .error e => .error e
      | .ok (pa, pte) =>
        (s.pieces p root keys kind fuel (va + BitVec.ofNat 64 len) (n - len)).map fun ps => ⟨va, pa, len, pte⟩ :: ps
def piecesOf (s : State) (p : Nat) (root : Nat × Nat × Nat) (keys : Option (List Nat)) (kind : Acc) (va : Dword) (n : Nat) : Except AFault (List Piece) :=
  s.pieces p root keys kind (n / 65536 + 2) va n

/-- The lines of a piece, as offsets from its start. -/
def Piece.lines (x : Piece) : List Nat :=
  (List.range ((x.pa % 128 + x.len + 127) / 128)).map fun k => lineOf x.pa + 128 * k

/-- A leased line among pieces: the access waits (R263). -/
def piecesLeased (s : State) (ps : List Piece) : Bool := ps.any fun x => (Piece.lines x).any s.lineLeased
/-- The first poisoned line among pieces, as the virtual address at which it is met (R279). -/
def piecesPoison (s : State) (ps : List Piece) : Option Dword :=
  ps.findSome? fun x => ((Piece.lines x).find? s.poison.contains).map fun l => x.va + BitVec.ofNat 64 (max l x.pa - x.pa)

/-- The requests an engine's access sends: `GETE` for the entries that its translation reads, then `GETE` for reads, `STM` for writes, `ATM` for RMWs (R254, R261,
R275, R288). A request for the line that is under way serves this access too. -/
def engineTouch (s : State) (p : Nat) (root : Nat × Nat × Nat) (kind : MsgKind) (ps : List Piece) (op : Option Nat := none) : State :=
  ps.foldl (fun s x =>
    let (dst, first) := s.firstHome p x.pte x.va x.pa
    let s := ((s.walkReads p (rootEntry 0 root) x.va).foldl (fun (s : State) a => s.nodeRequest p 0 a) s).useOwner p x.pte.key (pageOf x.va)
    (Piece.lines x).foldl (fun s l =>
      let line := first + (l - lineOf x.pa)
      if s.net.any fun (_, m) => m.kind = kind && m.line = line && m.src = .engine p then s
      else s.send { kind, line, src := .engine p, dst, key := x.pte.key, page := pageOf x.va, ntf := x.pte.ntf, sentAt := s.hubNow p, va := x.va + BitVec.ofNat 64 (max l x.pa - x.pa),
                    len := min (l + 128) (x.pa + x.len) - max l x.pa, root, op }) s) s

/-- The bytes of a stretch, read by an agent of package `p`: the lowest byte that faults gives the fault. -/
def vaRead (s : State) (p : Nat) (root : Nat × Nat × Nat) (keys : Option (List Nat)) (va : Dword) (n : Nat) : Except AFault (List Byte) :=
  match s.piecesOf p root keys .load va n with
  | .error e =>
    match s.piecesOf p root keys .load va (e.2.2 - va).toNat with
    | .ok ps => (match s.piecesPoison ps with | some a => .error (.poison, 0, a) | none => .error e)
    | .error _ => .error e
  | .ok ps =>
    match s.piecesPoison ps with
    | some a => .error (.poison, 0, a)
    | none => .ok (ps.flatMap fun x => memBytes s.mem x.pa x.len)
/-- A read of a stretch that stands in the history: requests for its lines go out, and each piece is an access of the agent that `e` names (R229, R254). -/
def agentRead (s : State) (e : Ev) (p : Nat) (root : Nat × Nat × Nat) (keys : Option (List Nat)) (va : Dword) (n : Nat) : State × Except AFault (List Byte) :=
  match s.vaRead p root keys va n, s.piecesOf p root keys .load va n with
  | .ok _, .ok ps =>
    let r := ps.foldl (fun (acc : State × List Byte) x => let r := acc.1.agentLoad e (.mem x.pa) x.len; (r.1, acc.2 ++ r.2)) (s.engineTouch p root .gete ps (opOf e), [])
    (r.1, .ok r.2)
  | .error f, _ | _, .error f => (s, .error f)
/-- Writes of pieces by the agent that `e` names. -/
def storePieces (s : State) (e : Ev) : List Piece → List Byte → State
  | [], _ => s
  | x :: xs, bs => (s.agentStore e (.mem x.pa) (bs.take x.len)).storePieces e xs (bs.drop x.len)
/-- A write or an RMW of a stretch by an agent of package `p`, one of its hub die unless `e` names another. -/
def vaWrite (s : State) (p : Nat) (root : Nat × Nat × Nat) (keys : Option (List Nat)) (va : Dword) (bs : List Byte) (e : Ev := s.hubEv p .store) : Except AFault State :=
  match s.piecesOf p root keys .store va bs.length with
  | .error f => .error f
  | .ok ps => .ok ((s.engineTouch p root (if e.kind = .rmw then .atm else .stm) ps (opOf e)).storePieces e ps bs)
/-- Whether the translation of an address reads an entry in a leased line or in a page that is moving (R267, R275). -/
def nodesHeld (s : State) (p : Nat) (root : Nat × Nat × Nat) (va : Dword) : Bool :=
  sxOk va && (s.walkReads p (rootEntry 0 root) va).any fun a => s.lineLeased (lineOf a) || s.frozenLine a
/-- Whether a stretch touches a leased line, itself or by its translation: the agent's event must wait. -/
def vaLeased (s : State) (p : Nat) (root : Nat × Nat × Nat) (va : Dword) (n : Nat) : Bool :=
  (List.range (n / 65536 + 1)).any (fun k => s.nodesHeld p root (va + BitVec.ofNat 64 (65536 * k)))
    || s.nodesHeld p root (va + BitVec.ofNat 64 (n - 1))
    || match s.piecesOf p root none .load va n with
      | .error _ => false
      | .ok ps => s.piecesLeased ps

/-- Bytes read by a thread's own access, one after the other (R298, R381). -/
def threadRead (s : State) (t : ThreadId) (va : Dword) : Nat → State × Except AFault (List Byte)
  | 0 => (s, .ok [])
  | n + 1 =>
    match s.globalAddr t .load va with
    | (s, .error (c, k)) => (s, .error (c, k, va))
    | (s, .ok (pa, _)) =>
      if s.poison.contains (lineOf pa) then (s, .error (.poison, 0, va))
      else match s.threadRead t (va + 1) n with
        | (s, .error e) => (s, .error e)
        | (s, .ok bs) => (s, .ok (memRead s.mem pa :: bs))

/-- Sets a bit of `HPEND` on the host cores of a package (Table 15.5). -/
def setHpend (s : State) (p : Nat) (bit : Nat) : State :=
  (List.range 16).foldl (fun s c => s.modHost ⟨p, 8, c⟩ fun h => { h with hpend := h.hpend ||| BitVec.ofNat 64 (2 ^ bit) }) s

end State
end Sys2Proof.Machine
end

