-- ==== Sys2Proof/Machine/Memory.lean ====
section
/-! DEFINITION. Loads, stores, atomics, fences, prefetch and cache control (R229 to R232, R276 to R290, R296, R297). An access is performed when
its word issues, in the place and with the bytes that its history gives it (log entry 3). -/

namespace Sys2Proof.Machine

/-- What became of the access of one lane. -/
inductive MemOut where
  /-- performed; the words of the result and its flags, the load they are the value of, and the accesses they come from -/
  | done (ws : List Word) (f : Flags) (load : Option LoadOf := none) (evs : List Nat := [])
  /-- a fault of a long-latency word, known at delivery -/
  | late (c : Cause) (arg : Nat) (fa : Dword)
  /-- a fault deferred at issue -/
  | fault (c : Cause) (arg : Nat) (fa : Dword)
  | wait (on : BlockOn)
  | broke (reason : Nat)
  deriving DecidableEq, Repr

/-- Bytes of an access of a type (R278). -/
def accBytes (t : OTy) : Nat := t.width / 8

/-- The address of R278 from base and offset. -/
def memAddr (m : MOp) (z : Nat) (b x : Dword) : Dword :=
  let a := b + (x.setWidth 32).signExtend 64 * (if m.idx then BitVec.ofNat 64 z else 1)
  if m.spc.wide then a else (a.setWidth 32).setWidth 64
/-- The address of a word that uses the base alone (R278). -/
def baseAddr (m : MOp) (b : Dword) : Dword := if m.spc.wide then b else (b.setWidth 32).setWidth 64

/-- Cycles beyond the first for the lines a memory word touches (R284). -/
def lineCost (spc : Space) (addrs : List Dword) : Nat :=
  if spc.wide then ((addrs.map fun a => a.toNat / 128).eraseDups).length - 4 else 0

namespace State

/-- The access of one lane of a memory word, with its operands or the trap of their read: a lane that waits or traps has no effect; dead marks precede the
lane's access (R66). -/
def accessOne (i : Instr) (pc : Dword) (f : State → ThreadId → List Dword → State × MemOut) (acc : State × List (ThreadId × MemOut)) (t : ThreadId)
    (e : Except Cause (List Dword)) : State × List (ThreadId × MemOut) :=
  let m := microOf i fun _ => ⟨0, 0⟩
  let npc := pc + BitVec.ofNat 64 i.size
  let (s, outs) := acc
  match e with
  | .error c => (s.defer t (s.trapAt t c pc npc 0 0 false), outs)
  | .ok xs =>
    match f (s.tookReads t m.srcs) t xs with
    | (s, .done ws fl ld es) => (s, outs ++ [(t, .done ws fl ld es)])
    | (s, .late c n fa) => (s, outs ++ [(t, .late c n fa)])
    | _ =>
      match f s t xs with
      | (s, .fault c n fa) => (s.defer t (s.trapAt t c pc npc n fa false), outs)
      | (s, .wait on) => (s.blockAt t pc on, outs)
      | (s, .broke r) => (s.breakLease t r, outs)
      | (s, _) => (s, outs)
/-- The results of a long-latency memory word, or the faults it finds, in flight. An s destination takes the value of its wave's highest-numbered active lane, and
keeps its own where that lane's access is not done (R29, R279, R280). -/
def launchAll (s : State) (i : Instr) (pc : Dword) (act : List ThreadId) (outs : List (ThreadId × MemOut)) : State :=
  outs.foldl (fun s (t, o) =>
    match o with
    | .done ws fl ld es => s.addPend t { s.pendWords t i pc (lastOfWave act t) ws fl with load := ld, deps := es }
    | .late c n fa => s.addPend t { s.pendWords t i pc false [] 0 with vw := [], pw := [], latch := none, fault := some (c, n, fa) }
    | _ => s) s
/-- The accesses of a memory word, lane after lane in ascending order. Operands of every lane are read before any access. -/
def accessLanes (s : State) (i : Instr) (g : List ThreadId) (pc : Dword)
    (f : State → ThreadId → List Dword → State × MemOut) : State :=
  let act := (s.memberVals g i).filter (·.2.1)
  let r := act.foldl (fun acc x => accessOne i pc f acc x.1 x.2.2) ({ s with wordEv := s.nextEv }, [])
  if i.shape.elim false (·.long) then r.1.launchAll i pc (act.map (·.1)) r.2 else r.1

/-- The addresses of a memory word's active lanes (R284). -/
def laneAddrs (s : State) (i : Instr) (g : List ThreadId) (addr : List Dword → Dword) : List Dword :=
  ((s.memberVals g i).filter (·.2.1)).filterMap fun x => x.2.2.toOption.map addr

/-- A memory word: its line cycles, then the accesses of its lanes, which may depend on the word's address. -/
def memWordAt (s : State) (i : Instr) (spc : Space) (addr : List Dword → Dword)
    (f : Dword → State → State → ThreadId → List Dword → State × MemOut) : State :=
  s.issue i fun s g pc =>
    let n := lineCost spc (s.laneAddrs i g addr)
    let s0 := s
    let s := if n = 0 then s else s.modCore s.focus fun x => { x with readyAt := x.readyAt + n }
    s.accessLanes i g pc (f pc s0)
/-- A memory word: its line cycles, then the accesses of its lanes. -/
def memWord (s : State) (i : Instr) (spc : Space) (addr : List Dword → Dword)
    (f : State → State → ThreadId → List Dword → State × MemOut) : State := s.memWordAt i spc addr fun _ => f

/-- What a place or its fault makes of a lane's access. `inLease` faults break the lease at once (R264). -/
def onPlace (s : State) (t : ThreadId) (late : Bool) (fa : Dword) (r : AddrRes) (k : Loc → Option Pte → State × MemOut) : State × MemOut :=
  match r with
  | .loc l pte => k l pte
  | .fault c n => (s, if late && !isHost t then .late c n fa else .fault c n fa)
  | .wait on => (s, .wait on)
  | .broke r => (s, .broke r)
/-- The fault of an access that found poison (Table 12.4, order 6). -/
def poisonOut (s : State) (t : ThreadId) (late : Bool) (fa : Dword) : State × MemOut :=
  if s.holdsLease t then (s, .broke 3) else (s, if late && !isHost t then .late .poison 0 fa else .fault .poison 0 fa)

/-- The path of a thread access in a space (Table 10.3). -/
def pathOf (spc : Space) : Path := if spc = .k then .kc else .ls
/-- One lane of `LD` (R281). -/
def loadLane (s : State) (t : ThreadId) (ty : OTy) (m : MOp) (addr : Dword) : State × MemOut :=
  let z := (accBytes ty)
  let (s, r) := s.accessAddr t m.spc .load addr z
  s.onPlace t true addr r fun l pte =>
    if s.poisonAt l z then s.poisonOut t true addr
    else
      let (s, es, bs) := (s.performRead t (m.spc = .k) addr l pte).loadAt t (pathOf m.spc) m.ord m.scp true l z
      (s, .done (loadWords ty.signed bs) 0 (some { evs := es, bytes := bs, signed := ty.signed }))

/-- One lane of `ST` with its data bytes (R282, R283). -/
def storeLane (s : State) (t : ThreadId) (m : MOp) (addr : Dword) (bs : List Byte) : State × MemOut :=
  let (s, r) := s.accessAddr t m.spc .store addr bs.length
  s.onPlace t false addr r fun l pte => (s.performWrite t false (m.spc = .s) m.ord m.scp addr l pte bs, .done [] 0)

end State

/-- Table 12.5: the new value and its flags. -/
def atomNew (op : AtomOp) (wide : Bool) (o y : Dword) : Dword × Flags :=
  let w := if wide then 64 else 32
  let t : OTy := if wide then .i64 else .i32
  let n : OTy := if wide then .n64 else .n32
  let f : FFmt := if wide then .f64 else .f32
  let flt (r : Nat × Flags) : Dword × Flags := (BitVec.ofNat 64 r.1, r.2)
  match op with
  | .add => (BitVec.ofNat 64 ((o.toNat + y.toNat) % 2 ^ w), 0)
  | .mins => (if intOf t y < intOf t o then y else o, 0)
  | .maxs => (if intOf t o < intOf t y then y else o, 0)
  | .minu => (if intOf n y < intOf n o then y else o, 0)
  | .maxu => (if intOf n o < intOf n y then y else o, 0)
  | .and => (o &&& y, 0)
  | .or => (o ||| y, 0)
  | .xor => (o ^^^ y, 0)
  | .exch => (y, 0)
  | .fadd => flt (faddBits .rne false f o.toNat y.toNat)
  | .fmin => flt (fminmaxBits false f o.toNat y.toNat)
  | .fmax => flt (fminmaxBits true f o.toNat y.toNat)
  | .inc => (if o.toNat % 2 ^ w ≥ y.toNat % 2 ^ w then 0 else BitVec.ofNat 64 (o.toNat + 1), 0)

namespace State

/-- One lane of a read-modify-write: `new` gives the value to write, if any, and flags, from the old one (R285 to R288). A `CAS` that fails is a load. -/
def rmwLane (s : State) (t : ThreadId) (m : MOp) (late : Bool) (z : Nat) (addr : Dword) (new : Dword → Option Dword × Flags) : State × MemOut :=
  let (s, r) := s.accessAddr t m.spc .rmw addr z
  s.onPlace t late addr r fun l pte =>
    if s.poisonAt l z then s.poisonOut t late addr
    else
      let old : Dword := BitVec.ofNat 64 (leNat (s.readLoc l z))
      let (n, fl) := new old
      let sc := some (m.scp.getD .core)
      let first := s.nextEv
      let s := match n with
        | some x => s.performWrite t true false m.ord sc addr l pte (leBytes x.toNat z)
        | none =>
          let s := s.performRead t false addr l pte
          if s.traced t l then s.readNewest { s.access t .load .ls m.ord sc with base := l } z else s
      (s, .done (resWords (z / 4) old) fl none ((List.range (s.nextEv - first)).map (first + ·)))

/-- The data of `ST`, read before any lane's store (R282). -/
def storeData (s : State) (t : ThreadId) (ty : OTy) (x : Src) : Except Cause (List Byte) :=
  if ty = .b128 then (s.readQuad t x).map fun ws => ws.flatMap fun w => leBytes w.toNat 4
  else (s.readOp t x ty).map fun v => leBytes v.toNat (accBytes ty)

/-- Every active lane that holds a lease breaks it, with reason 2, instead of performing the word (Table 12.6); the lanes that remain. -/
def breakHolders (s : State) (i : Instr) (g : List ThreadId) : State × List ThreadId :=
  let act := g.filter fun t => activeIn i (s.thread t)
  (act.foldl (fun s t => if s.holdsLease t then s.breakLease t 2 else s) s, act.filter fun t => !s.holdsLease t)

end State

def execLd (h : Hdr) (t : OTy) (m : MOp) (d : Dst) (base off : SrcD) (s : State) : Outcome :=
  let addr (xs : List Dword) : Dword := memAddr m (accBytes t) (arg xs 0) (arg xs 1)
  .next (s.memWord (.ld h t m d base off) m.spc addr fun _ s u xs => s.loadLane u t m (addr xs))

/-- `ST` (R282): the data register is read with the other operands; its trap comes after theirs (log entry 11). -/
def execSt (h : Hdr) (t : OTy) (m : MOp) (data : Src) (base off : SrcD) (s : State) : Outcome :=
  let addr (xs : List Dword) : Dword := memAddr m (accBytes t) (arg xs 0) (arg xs 1)
  .next (s.memWord (.st h t m data base off) m.spc addr fun s0 s u xs =>
    match s0.storeData u t data with
    | .error c => (s, .fault c 0 0)
    | .ok bs => (s.tookReads u [(⟨data, false⟩, t)]).storeLane u m (addr xs) bs)

def execAtom (h : Hdr) (op : AtomOp) (wide : Bool) (m : MOp) (d : Dst) (base val : SrcD) (s : State) : Outcome :=
  .next (s.memWord (.atom h op wide m d base val) m.spc (fun xs => baseAddr m (arg xs 0)) fun _ s u xs =>
    s.rmwLane u m true (if wide then 8 else 4) (baseAddr m (arg xs 0)) fun o =>
      let r := atomNew op wide o (arg xs 1)
      (some r.1, r.2))

def execAtomn (h : Hdr) (op : AtomOp) (wide : Bool) (m : MOp) (base val : SrcD) (s : State) : Outcome :=
  .next (s.memWord (.atomn h op wide m base val) m.spc (fun xs => baseAddr m (arg xs 0)) fun _ s u xs =>
    s.rmwLane u m false (if wide then 8 else 4) (baseAddr m (arg xs 0)) fun o => (some (atomNew op wide o (arg xs 1)).1, 0))

/-- `CAS` (R287): the compare value and the new value stand in a pair of registers, or of pairs. -/
def casOperands (s : State) (t : ThreadId) (wide : Bool) (x : Src) : Except Cause (Dword × Dword) :=
  if wide then
    (s.readQuad t x).map fun ws => (pair64 (ws.getD 1 0) (ws.getD 0 0), pair64 (ws.getD 3 0) (ws.getD 2 0))
  else (s.readOp t x .b64).map fun v => ((lo32 v).setWidth 64, (hi32 v).setWidth 64)
def execCas (h : Hdr) (wide : Bool) (m : MOp) (d : Dst) (base cn : SrcD) (s : State) : Outcome :=
  .next (s.memWord (.cas h wide m d base cn) m.spc (fun xs => baseAddr m (arg xs 0)) fun s0 s u xs =>
    match casOperands s0 u wide cn.src with
    | .error c => (s, .fault c 0 0)
    | .ok (c, n) =>
      s.rmwLane u m true (if wide then 8 else 4) (baseAddr m (arg xs 0)) fun o => (if o = c then some n else none, 0))

-- fences (R289, R290)

/-- `FENCE`: wider than `core` it blocks the thread until its earlier accesses are performed. -/
def execFence (h : Hdr) (m : MOp) (s : State) : Outcome :=
  .next (s.issue (.fence h m) fun s g _ =>
    let sc := m.scp.getD .core
    (g.filter fun t => (s.thread t).passes h.guard).foldl (fun s t =>
      let s := s.recordPoint { s.threadEv t .fence with ord := m.ord, scp := some sc }
      if sc = .core then s else s.stopThread t (.blocked (.fence sc))) s)
/-- The earlier accesses of a thread blocked at a `FENCE` are performed: its loads are bound, and no request of its own is open. -/
def execFenceDone (t : ThreadId) (s : State) : Outcome :=
  match (s.thread t).status with
  | .blocked (.fence _) =>
    if State.openOf (s.core t.wave.core) t ≠ ([], []) || s.mirroring t then .refused (.notEnabled "a request of the thread is open")
    else
      let r := (s.thread t).pend.foldl (fun (acc : State × List Pending) p => let r := acc.1.bindLoads p; (r.1, acc.2 ++ [r.2])) (s, [])
      .next ((r.1.modThread t fun th => { th with pend := r.2 }).wakeThread t)
  | _ => .refused (.notEnabled "the thread is not blocked at a FENCE")

/-- `PFEN`: blocks the thread in path mode, until its core has discarded the copies of both paths: no load after it returns what such a copy held (R244, R290). -/
def execPfen (h : Hdr) (p q : Path) (s : State) : Outcome :=
  .next (s.issue (.pfen h p q) fun s g _ =>
    (g.filter fun t => (s.thread t).passes h.guard && !s.unif t).foldl (fun s t => s.stopThread t (.blocked (.pfen p q))) s)
def execPfenDone (t : ThreadId) (s : State) : Outcome :=
  match (s.thread t).status with
  | .blocked (.pfen p q) =>
    .next ((s.recordPoint (s.threadEv t (.pfen p q))).wakeThread t)
  | _ => .refused (.notEnabled "the thread is not blocked at a PFEN")

-- prefetch and cache control (R296, R297)

/-- `PREF`: a request that would fault is dropped. -/
def execPref (h : Hdr) (lvl : PrefLvl) (m : MOp) (base off : SrcD) (s : State) : Outcome :=
  .next (s.issue (.pref h lvl m base off) fun s g pc =>
    s.accessLanes (.pref h lvl m base off) g pc fun s u xs =>
      let va := memAddr m 1 (arg xs 0) (arg xs 1)
      match s.spaceAddr u m.spc .load va 1 false with
      | (s, .loc (.mem pa) (some pte)) =>
        let st := Map.find (s.core u.wave.core).l1 (lineOf pa)
        (match lvl with
          | .l1 => if st.isNone then s.miss u [] false pte va pa else s
          | .l1x => if st = some .m ∨ st = some .e then s else s.miss u [] true pte va pa
          | .l2 => s, .done [] 0)
      | (s, _) => (s, .done [] 0))

/-- One lane of `CINV` or `CWB`: faults like a load; no effect on the thread's own leased lines. -/
def cacheLane (inv : Bool) (m : MOp) (s : State) (t : ThreadId) (va : Dword) : State × MemOut :=
  match s.spaceAddr t m.spc .load va 1 false with
  | (s, .loc (.mem pa) (some pte)) =>
    if s.poison.contains (lineOf pa) then s.poisonOut t false va
    else if ((s.thread t).lease.elim [] (·.lines.map (·.line))).contains (lineOf pa) then (s, .done [] 0)
    else (s.cacheOp t.wave.core (lineOf pa) inv (s.firstHome t.wave.core.pkg pte va pa).1, .done [] 0)
  | (s, .fault c n) => (s, if s.holdsLease t then .broke 3 else .fault c n va)
  | (s, .wait on) => (s, .wait on)
  | (s, _) => (s, .done [] 0)
def execCinv (h : Hdr) (m : MOp) (base off : SrcD) (s : State) : Outcome :=
  let addr (xs : List Dword) : Dword := memAddr m 1 (arg xs 0) (arg xs 1)
  .next (s.memWord (.cinv h m base off) m.spc addr fun _ s u xs => cacheLane true m s u (addr xs))
def execCwb (h : Hdr) (m : MOp) (base off : SrcD) (s : State) : Outcome :=
  let addr (xs : List Dword) : Dword := memAddr m 1 (arg xs 0) (arg xs 1)
  .next (s.memWord (.cwb h m base off) m.spc addr fun _ s u xs => cacheLane false m s u (addr xs))

end Sys2Proof.Machine
end

