-- ==== Sys2Proof/Machine/LeaseOps.lean ====
section
/-! DEFINITION. Leases: request, grant, expiry, nesting and release (R263 to R267, R291 to R295, R330). -/

namespace Sys2Proof.Machine

namespace State

/-- Whether a core defers new outer leases: one of its threads is urgent while `PROG` is set (R330). -/
def defersLeases (s : State) (c : CoreId) : Bool :=
  s.threads.any fun (t, th) => t.wave.core = c && th.runnable && th.urgent.isSome && s.prog t

/-- Whether a core holds a line in E or M. -/
def ownsLine (s : State) (c : CoreId) (line : Nat) : Bool :=
  Map.find (s.core c).l1 line = some .m || Map.find (s.core c).l1 line = some .e

/-- Whether another thread of the core waits for the line with the earlier turn (R295). -/
def turnBefore (s : State) (t : ThreadId) (line since : Nat) : Bool :=
  s.threads.any fun (u, th) => u ≠ t && u.wave.core = t.wave.core && (match th.lease with
    | some l => (match l.want with
      | some (k, _, n) => k = line && (n < since || (n = since && (u.lane < t.lane || (u.lane = t.lane && u.wave.slot < t.wave.slot))))
      | none => false)
    | none => false)

/-- Asks for a line for a thread, which is blocked until the grant (R292). -/
def wantLease (s : State) (t : ThreadId) (l : Lease) (pte : Pte) (va : Dword) (pa : Nat) (d : Dst) : State :=
  let c := t.wave.core
  let s := s.modThread t fun th => { th with lease := some { l with want := some (lineOf pa, va, s.now c), wantDst := d } }
  let s := if s.ownsLine c (lineOf pa) then s else s.miss t [t] true pte va pa
  s.stopThread t (.blocked .grant)

/-- The lease begins: the snapshot is taken and the thread continues at the next word with 0 in its destination (R263, R292). -/
def beginLease (s : State) (t : ThreadId) (l : Lease) (line : Nat) (va : Dword) : State :=
  let n := s.now t.wave.core
  let lines := l.lines ++ [{ line, va, snapshot := memBytes s.mem line 128 }]
  let l' : Lease :=
    if l.lines = [] then { l with lines, want := none, deferred := false, granted := n, deadline := n + (s.regsOf t).leaseMax.toNat }
    else { l with lines, want := none }
  let s := s.modThread t fun th => { th with lease := some l' }
  let s := s.readNewest { s.access t .load .ls l.ord (some l.scp) with base := .mem line, word := none } 128
  (s.writeDst t l.wantDst [0]).wakeThread t
/-- A committed lease is one RMW of each of its lines, its write side in the form and scope of `LREL` (R267, R292). -/
def commitLease (s : State) (t : ThreadId) (ord : Ord) (scp : Scope) : State :=
  let s := ((s.thread t).lease.elim [] (·.lines)).foldl (fun (s : State) x =>
    (s.writeEv { s.access t .rmw .ls ord (some scp) with base := .mem x.line, word := none } x.snapshot (memBytes s.mem x.line 128)).1) s
  s.dropLease t false

end State

/-- One lane of `LEASE` (R266, R291, R292). -/
def leaseLane (m : MOp) (d : Dst) (pc : Dword) (s : State) (t : ThreadId) (xs : List Dword) : State × MemOut :=
  let va := arg xs 0
  let target := pc + ((arg xs 1).setWidth 32).signExtend 64 * 8
  match s.spaceAddr t .g .rmw va 1 false with
  | (s, .loc (.mem pa) (some pte)) =>
    (match (s.thread t).lease with
    | some l =>
      if l.lines.length ≥ 2 || l.lines.any (·.line = lineOf pa) then (s, .broke 5)
      else (s.wantLease t l pte va pa d, .done [] 0)
    | none =>
      if !sxOk target then (s, .fault .leasev 0 0)
      else (s.wantLease t { failTarget := target, dst := d, pc, ord := m.ord, scp := m.scp.getD .core } pte va pa d, .done [] 0))
  | (s, .fault c n) => (s, if s.holdsLease t then .broke 3 else .fault c n va)
  | (s, .wait on) => (s, .wait on)
  | (s, _) => (s, .done [] 0)
def execLease (h : Hdr) (m : MOp) (d : Dst) (base : SrcD) (disp : Src) (s : State) : Outcome :=
  .next (s.memWordAt (.lease h m d base disp) .g (fun xs => arg xs 0) fun pc _ s t xs => leaseLane m d pc s t xs)

namespace State

/-- The grant of a line a thread waits for, or why it does not come: its turn has come, the core owns the line, no lease covers it and, for an outer lease, fewer
than eight are in force. While the core defers outer leases the grant only leaves the line there (R263, R265, R330). -/
def grantLease (s : State) (t : ThreadId) : Except String State :=
  let c := t.wave.core
  match (s.thread t).status, (s.thread t).lease with
  | .blocked .grant, some l =>
    match l.want with
    | some (line, va, since) =>
      if l.deferred then .error "the lease was granted and is deferred"
      else if !s.ownsLine c line then .error "the core does not own the line"
      else if s.lineLeased line || s.turnBefore t line since then .error "another lease of the line comes first"
      else if l.lines = [] && s.leasesOn c ≥ 8 then .error "the core holds eight leases"
      else if l.lines = [] && s.defersLeases c then .ok (s.modThread t fun th => { th with lease := some { l with deferred := true } })
      else .ok (s.beginLease t l line va)
    | none => .error "no line is asked for"
  | _, _ => .error "the thread does not wait for a grant"
/-- The leases that begin at the grant of a line to a core (R263, R295). -/
def grantLeases (s : State) (c : CoreId) (line : Nat) : State :=
  s.threads.foldl (fun s (t, th) =>
    if t.wave.core = c && th.lease.elim false (fun l => l.want.elim false (·.1 = line)) then (s.grantLease t).toOption.getD s else s) s
/-- The line of a lease that has not begun, lost by the core, is requested again (R263, R265). -/
def askLease (s : State) (t : ThreadId) (l : Lease) (va : Dword) : State :=
  let s := s.modThread t fun th => { th with lease := some { l with deferred := false } }
  match s.globalAddr t .rmw va with
  | (s, .ok (pa, pte)) =>
    (s.modThread t fun th => { th with lease := th.lease.map fun l => { l with want := l.want.map fun (_, x) => (lineOf pa, x) } }).miss t [t] true pte va pa
  | (s, .error (e, n)) => (s.modThread t fun th => { th with lease := none }).defer t (s.trapAt t e l.pc (s.thread t).pc n va false)

end State

/-- A lease that could not begin with its line's grant begins; a line that the core has lost meanwhile is requested again (R263, R265). -/
def execLeaseGrant (t : ThreadId) (s : State) : Outcome :=
  let c := t.wave.core
  match s.grantLease t with
  | .ok s => .next s
  | .error e =>
    match (s.thread t).status, (s.thread t).lease with
    | .blocked .grant, some l =>
      match l.want with
      | some (line, va, _) =>
        if !l.deferred && !s.ownsLine c line && !(s.core c).misses.any (fun m => m.line = line) then .next (s.askLease t l va) else .refused (.notEnabled e)
      | none => .refused (.notEnabled e)
    | _, _ => .refused (.notEnabled e)

/-- The end of the deferral of outer leases: the lease begins, or its line is requested again if the core has lost it (R263). -/
def execLeaseDeferredBegin (t : ThreadId) (s : State) : Outcome :=
  let c := t.wave.core
  match (s.thread t).status, (s.thread t).lease with
  | .blocked .grant, some l =>
    match l.want with
    | some (line, va, _) =>
      if !l.deferred then .refused (.notEnabled "the lease is not deferred")
      else if s.defersLeases c then .refused (.notEnabled "a thread of the core is urgent")
      else if s.lineLeased line || s.leasesOn c ≥ 8 then .refused (.notEnabled "other leases come first")
      else if s.ownsLine c line then .next (s.beginLease t l line va)
      else .next (s.askLease t l va)
    | none => .refused (.notEnabled "no line is asked for")
  | _, _ => .refused (.notEnabled "the thread does not wait for a grant")

/-- Expiry, `LEASE_MAX` cycles after the grant (R263): reason 1. -/
def execLeaseExpiry (t : ThreadId) (s : State) : Outcome :=
  if s.holdsLease t && (s.thread t).lease.elim false (fun l => l.deadline ≤ s.now t.wave.core) then .next (s.breakLease t 1)
  else .refused (.notEnabled "no lease of the thread has reached its deadline")

/-- A nested line not granted within 64 cycles (R266): reason 4. -/
def execNestedLeaseTimeout (t : ThreadId) (s : State) : Outcome :=
  if s.holdsLease t && (s.thread t).lease.elim false (fun l => l.want.elim false fun (_, _, n) => n + 64 ≤ s.now t.wave.core) then
    .next (s.breakLease t 4)
  else .refused (.notEnabled "no nested request of the thread is 64 cycles old")

/-- `LREL` (R294). -/
def execLrel (h : Hdr) (m : MOp) (s : State) : Outcome :=
  .next (s.issue (.lrel h m) fun s g _ =>
    (g.filter fun t => (s.thread t).passes h.guard).foldl (fun s t => if s.holdsLease t then s.commitLease t m.ord (m.scp.getD .core) else s) s)

end Sys2Proof.Machine
end

