-- ==== Sys2Proof/Machine/Control.lean ====
section
/-! DEFINITION. Transfers of control, rejoin masks, barriers, yield, signals, regions, allotment, special sources and software traps (R353 to R365,
R369 to R373), and `ELECT` (R214). -/

namespace Sys2Proof.Machine

namespace State

/-- A trap a word raises before it takes any effect: cause, argument, faulting address. -/
abbrev Check := State → ThreadId → Dword → List Dword → Option (Cause × Nat × Dword)

/-- A control word: each active thread reads its sources and is checked; one that does not trap makes its dead marks and takes the effect `f`; `pc` is
the word's address. -/
def control (s : State) (i : Instr) (f : State → ThreadId → Dword → List Dword → State) (chk : Check := fun _ _ _ _ => none) : State :=
  s.issue i fun s g pc =>
    let m := microOf i fun _ => ⟨0, 0⟩
    let npc := pc + BitVec.ofNat 64 i.size
    (s.memberVals g i).foldl (fun s (t, act, e) =>
      if !act then s
      else match e with
        | .error c => s.defer t (s.trapAt t c pc npc 0 0 false)
        | .ok xs =>
          let s' := s.tookReads t m.srcs
          match chk s' t pc xs with
          | some (c, n, fa) => s.defer t (s.trapAt t c pc npc n fa false)
          | none => f s' t pc xs) s

/-- Ends the run of the focus core when a word that always ends it was performed by some thread (R354). -/
def endRunIf (s : State) (act : List ThreadId) : State := if act = [] then s else s.endRun s.focus

/-- The checks of a transfer's target, which is the faulting address (R357). -/
def targetCheck (target : Dword) : Option (Cause × Nat × Dword) :=
  if target.toNat % 8 ≠ 0 then some (.align, 0, target) else if !sxOk target then some (.xlat, 0, target) else none
/-- A transfer of a thread: the link, then the PC (R357). -/
def transfer (s : State) (t : ThreadId) (pc target : Dword) (link : Option Nat) : State :=
  let s := match link with
    | some d => s.modThread t fun th => th.writeVs d [lo32 (pc + 8), hi32 (pc + 8)]
    | none => s
  s.modThread t fun th => { th with pc := target }

end State

/-- `BRA` (R355, R356). -/
def execBra (h : Hdr) (disp : Int) (s : State) : Outcome :=
  .next (s.control (.bra h disp) fun s t pc _ => s.modThread t fun th => { th with pc := pc + BitVec.ofInt 64 (8 * disp) })
def execBrx (h : Hdr) (a : SrcD) (s : State) : Outcome :=
  .next (s.control (.brx h a) (fun s t pc xs => s.transfer t pc (arg xs 0) none) fun _ _ _ xs => State.targetCheck (arg xs 0))
def execCall (h : Hdr) (d : Nat) (disp : Int) (s : State) : Outcome :=
  .next (s.control (.call h d disp) (fun s t pc _ => s.transfer t pc (pc + BitVec.ofInt 64 (8 * disp)) (some d))
    fun _ _ pc _ => State.targetCheck (pc + BitVec.ofInt 64 (8 * disp)))
def execCallx (h : Hdr) (d : Nat) (a : SrcD) (s : State) : Outcome :=
  .next (s.control (.callx h d a) (fun s t pc xs => s.transfer t pc (arg xs 0) (some d)) fun _ _ _ xs => State.targetCheck (arg xs 0))
def execRet (h : Hdr) (a : SrcD) (s : State) : Outcome :=
  .next (s.control (.ret h a) (fun s t pc xs => s.transfer t pc (arg xs 0) none) fun _ _ _ xs => State.targetCheck (arg xs 0))

/-- `EXIT` (R358): on a host core it enters the monitor with cause 0x22 (R376). -/
def execExit (h : Hdr) (s : State) : Outcome :=
  .next (s.control (.exit h) fun s t pc _ =>
    if isHost t then s.hostEnter t.wave.core 2 (pc + 8) (State.ecause 0x22 0 0) 0 else s.exitThread t)

-- rejoin masks (R359)

def execEnrol (h : Hdr) (m : Nat) (s : State) : Outcome :=
  .next (s.control (.enrol h m) fun s t _ _ => s.enrolLane t m)
def execStrike (h : Hdr) (m : Nat) (s : State) : Outcome :=
  .next (s.issue (.strike h m) fun s g _ =>
    let act := g.filter fun t => (s.thread t).passes h.guard
    let s := act.foldl (fun s t => s.strikeLane t m) s
    (act.map (·.wave)).eraseDups.foldl (fun s w => s.completeMask w m) s)
def execJoin (h : Hdr) (m : Nat) (s : State) : Outcome :=
  .next (s.issue (.join h m) fun s g _ =>
    let all := g.filter fun t => (s.thread t).passes h.guard
    let (s, act) := s.breakHolders (.join h m) g
    let s := act.foldl (fun s t =>
      if (Map.getD (s.wave t.wave).enrolled m 0).getLsbD t.lane then (s.arriveLane t m).parkThread t (.mask m) else s) s
    ((act.map (·.wave)).eraseDups.foldl (fun s w => s.completeMask w m) s).endRunIf all)

/-- `BAR` (R361). -/
def execBar (h : Hdr) (n : Nat) (s : State) : Outcome :=
  .next (s.issue (.bar h n) fun s g _ =>
    let all := g.filter fun t => (s.thread t).passes h.guard
    let (s, act) := s.breakHolders (.bar h n) g
    let s := act.foldl (fun s t => (s.arriveBarrier t n).parkThread t (.bar n)) s
    ((act.map s.teamOf).eraseDups.foldl (fun s tm => s.completeBarrier tm n) s).endRunIf all)

/-- `YLD` (R331, R362): 32 cycles of exclusion for the group while `PROG` is set; none on a host core. -/
def execYld (h : Hdr) (s : State) : Outcome :=
  .next (s.issue (.yld h) fun s g _ =>
    let all := g.filter fun t => (s.thread t).passes h.guard
    if all = [] then s
    else
      let s := g.foldl (fun s t =>
        if s.prog t && !isHost t then s.modThread t fun th => { th with yldUntil := some ((s.core s.focus).readyAt + 32) } else s) s
      s.endRunIf all)
def execYldExclusionEnd (t : ThreadId) (s : State) : Outcome :=
  match (s.thread t).yldUntil with
  | some n => if n ≤ s.now t.wave.core then .next (s.modThread t fun th => { th with yldUntil := none })
              else .refused (.notEnabled "the exclusion lasts")
  | none => .refused (.notEnabled "the thread is under no exclusion")

-- signals (R363 to R365)

/-- The condition of `SIGW` (R363). -/
def sigHolds (cc : SigCc) (x val : Dword) : Bool :=
  match cc with
  | .ge => val.toNat ≤ x.toNat | .eq => x = val | .ne => x ≠ val

/-- One check of `SIGW`: an acquire load. When it succeeds the destination receives the value and the thread goes on at `next`; else the thread
is blocked at the word. -/
def sigwCheck (s : State) (t : ThreadId) (pc next addr val : Dword) (cc : SigCc) (d : Dst) (sc : Scope) (dead : List Nat) : State :=
  match s.accessAddr t .g .load addr 8 with
  | (s, .fault c n) => s.defer t { s.trapAt t c pc next n addr false with }
  | (s, .broke r) => s.breakLease t r
  | (s, .wait on) => s.blockAt t pc on
  | (s, .loc l pte) =>
    if s.poisonAt l 8 then s.defer t (s.trapAt t .poison pc next 0 addr false)
    else
      let (s, _, bs) := ({ s.performRead t false addr l pte with wordEv := s.nextEv }).loadAt t .ls .acq (some sc) false l 8
      let x : Dword := BitVec.ofNat 64 (leNat bs)
      if sigHolds cc x val then
        let s := s.modThread t fun th => th.killAll dead
        (s.writeDst t d [lo32 x, hi32 x]).wakeThread t |>.modThread t fun th => { th with pc := next }
      else s.blockAt t pc (.sigw cc addr val d sc dead next (s.now t.wave.core))
def execSigw (h : Hdr) (cc : SigCc) (m : MOp) (d : Dst) (base val : SrcD) (s : State) : Outcome :=
  let i : Instr := .sigw h cc m d base val
  .next (s.issue i fun s g pc =>
    let npc := pc + BitVec.ofNat 64 i.size
    let all := g.filter fun t => (s.thread t).passes h.guard
    let vs := s.memberVals g i
    let mic := microOf i fun _ => ⟨0, 0⟩
    let (s, act) := s.breakHolders i g
    (vs.foldl (fun s (t, _, e) =>
      if !act.contains t then s
      else match e with
        | .error c => s.defer t (s.trapAt t c pc npc 0 0 false)
        | .ok xs =>
          sigwCheck (s.modThread t fun th => th.touch mic.srcs) t pc npc (arg xs 0) (arg xs 1) cc d (m.scp.getD .core) (deadRegs mic.srcs)) s).endRunIf all)
/-- A blocked `SIGW` checks again (R364). -/
def execSigwRecheck (t : ThreadId) (s : State) : Outcome :=
  match (s.thread t).status with
  | .blocked (.sigw cc addr val d sc dead next _) => .next (sigwCheck s t (s.thread t).pc next addr val cc d sc dead)
  | _ => .refused (.notEnabled "the thread is not blocked at a SIGW")

/-- `SIGS` (R365): the RMW of `ATOMN.exch.b64` or `ATOMN.add.b64`. -/
def execSigs (h : Hdr) (add : Bool) (m : MOp) (base val : SrcD) (s : State) : Outcome :=
  .next (s.memWord (.sigs h add m base val) m.spc (fun xs => baseAddr m (arg xs 0)) fun _ s u xs =>
    s.rmwLane u m false 8 (baseAddr m (arg xs 0)) fun o => (some (atomNew (if add then .add else .exch) true o (arg xs 1)).1, 0))

-- regions, allotment, special sources (R369 to R372)

def execRgn (h : Hdr) (s : State) : Outcome :=
  .next (s.control (.rgn h) fun s t pc _ => s.modThread t fun th => { th with rentry := pc, rctr := th.rctr + 1 })

/-- The count of `GROW` and `SHRK`. -/
def countOf (n : Src) : Nat :=
  match n with | .imm k => k.toNat | .lit l => l.toNat | _ => 0
/-- Registers of the register file in use on a core, as allotments of the waves of resident teams, with the growth in flight (R41, R42). -/
def growing (s : State) (w : WaveId) : Nat :=
  ((State.lanes w).flatMap fun t => (s.thread t).pend.map fun p => match p.kind with | .grow n => n | _ => 0).foldl (· + ·) 0
def regsInUse (s : State) (c : CoreId) : Nat :=
  (s.waves.filter fun (w, x) => w.core = c && x.live).foldl (fun n (w, x) => n + x.allot + growing s w) 0
/-- Registers of 128 bytes that the register file of a core holds for a context (R40, R41). -/
def regFile (r : CtxRegs) : Nat := r.storeSplit.toNat % 32 * 512
/-- `GROW` of a wave: status, and the allotment after the word (R370). -/
def growWave (s : State) (w : WaveId) (n : Nat) : Nat × Nat :=
  let a := (s.wave w).allot + growing s w
  let most := if isHostCore w.core then 256 else (s.grid (s.team (s.wave w).team).grid).kern.allotMax
  if a + n > most then (1, a)
  else if regsInUse s w.core + n > regFile (s.regsOf ⟨w, 0⟩) then (2, a)
  else (0, a + n)
/-- Status in [31:24] and allotment in [8:0]. -/
def allotWord (st a : Nat) : Word := BitVec.ofNat 32 (st * 2 ^ 24 + a % 512)
def execGrow (h : Hdr) (d : Dst) (n : Src) (s : State) : Outcome :=
  let i : Instr := .grow h d n
  .next (s.issue i fun s g pc =>
    let act := g.filter fun t => (s.thread t).passes h.guard
    (act.map (·.wave)).eraseDups.foldl (fun s w =>
      let (st, a) := growWave s w (countOf n)
      let ts := act.filter (·.wave = w)
      ts.foldl (fun s t =>
        let last := State.lastOfWave ts t
        let p := s.pendWords t i pc last [allotWord st a] 0
        s.addPend t (if last ∧ st = 0 then { p with kind := .grow (countOf n) } else p)) s) s)

/-- The release of registers `a` to `b - 1` of a wave (R371). -/
def releaseRange (s : State) (w : WaveId) (a b : Nat) : State :=
  let ns := (List.range (b - a)).map (a + ·)
  let s := (State.lanes w).foldl (fun s t => s.modThread t fun th => ns.foldl Thread.releaseV th) s
  s.modWave w fun x =>
    { x with allot := a, uniform := x.uniform.filter (· < a),
             absent := x.absent.bind fun ab =>
               let gs := ab.granules.filter fun k => 8 * k < a
               if gs = [] then none else some { ab with granules := gs } }
/-- Results in flight that would write a range of a wave are delivered first (R371). -/
def settleRange (s : State) (w : WaveId) (a : Nat) : State :=
  (State.lanes w).foldl (fun s t => s.settleThat t fun p => p.vw.any fun (r, _) => decide (a ≤ r)) s
def execShrk (h : Hdr) (d : Dst) (n : Src) (s : State) : Outcome :=
  .next (s.issue (.shrk h d n) fun s g _ =>
    let act := g.filter fun t => (s.thread t).passes h.guard
    (act.map (·.wave)).eraseDups.foldl (fun s w =>
      let a := (s.wave w).allot
      let ok : Bool := a ≥ countOf n + 8
      let a' := if ok then a - countOf n else a
      let s := if ok then releaseRange (settleRange s w a') w a' a else s
      let x := allotWord (if ok then 0 else 1) a'
      match d with
      | .v r => if r < a' then (act.filter (·.wave = w)).foldl (fun s t => s.modThread t (·.writeV r x)) s else s
      | .s r => s.modWave w (·.setS r x)
      | .vz => s) s)

/-- Table 2.2 with the readings of a host core (R372). -/
def specialSource (s : State) (t : ThreadId) (i : Nat) : Dword :=
  let c := t.wave.core
  let tm := s.team (s.teamOf t)
  let gr := s.grid tm.grid
  let host := isHost t
  let n : Nat :=
    match i with
    | 0 => if host then 0 else t.lane
    | 1 => if host then 0 else (s.wave t.wave).num
    | 2 => if host then 0 else tm.x
    | 3 => if host then 0 else tm.y
    | 4 => if host then 0 else tm.z
    | 5 => if host then 1 else gr.gx
    | 6 => if host then 1 else gr.gy
    | 7 => if host then 1 else gr.gz
    | 8 => max (s.now c) ((s.core c).readyAt - 1)
    | 9 => c.core
    | 10 => c.die
    | 11 => (s.pkg c.pkg).num
    | 12 => s.ctxOf t % 2 ^ 16
    | 13 => if host then 0 else tm.key % 2 ^ 24
    | 14 => if host then 0 else gr.depth
    | _ => (s.thread t).flags.toNat
  BitVec.ofNat 64 n
def execSrd (h : Hdr) (d : Dst) (n : Nat) (s : State) : Outcome :=
  let i : Instr := .srd h d n
  .next (s.issue i fun s g pc =>
    let act := g.filter fun t => (s.thread t).passes h.guard
    act.foldl (fun s t => s.addPend t (s.pendWords t i pc (State.lastOfWave act t) (resWords (State.dstRegs i) (specialSource s t n)) 0)) s)

-- software traps (R373)

def execSwi (h : Hdr) (n : Nat) (s : State) : Outcome :=
  .next (s.control (.swi h n) fun s t pc _ => s.defer t (s.trapAt t .swtrap pc (pc + 8) n 0 false))
/-- `BRK` resumes at the `BRK` word itself. -/
def execBrk (h : Hdr) (n : Nat) (s : State) : Outcome :=
  .next (s.control (.brk h n) fun s t pc _ => s.defer t (s.trapAt t .brkpt pc pc n 0 false))

/-- `ELECT` (R214): 1 in the lowest-numbered active lane of the group, 0 in every other active lane. -/
def execElect (h : Hdr) (p : Nat) (s : State) : Outcome :=
  .next (s.issue (.elect h p) fun s g _ =>
    let act := g.filter fun t => (s.thread t).passes h.guard
    act.foldl (fun s t => s.modThread t (·.setPred p (act.head? = some t))) s)

end Sys2Proof.Machine
end

