-- ==== Sys2Proof/Machine/Spindle.lean ====
section
/-! DEFINITION. The spindle: candidates, the choice of the next one, the issue group, forced switches and the fetch of a word (R53, R54, R80, R85,
R325 to R331, R387, R447). -/

namespace Sys2Proof.Machine
namespace State

/-- Whether the threads of teams may issue on a package: no quiesce stops it, the context is not stopped there, and
the team is not being pre-empted (R410, R415, R427). A host thread always may. -/
def issueOpen (s : State) (t : ThreadId) : Bool :=
  (isHost t && (s.pkg t.wave.core.pkg).alive) || (s.running t.wave.core.pkg && !Map.has (s.context (s.ctxOf t)).stop t.wave.core.pkg && !(s.team (s.teamOf t)).stopping)
/-- The runnable threads of a core. A host core nothing lists runs its own thread (R374). -/
def runnables (s : State) (c : CoreId) : List ThreadId :=
  let ts := (s.threads.filter fun (t, th) => t.wave.core = c && th.runnable && s.issueOpen t).map (·.1)
  if isHostCore c && (s.pkg c.pkg).alive && !Map.has s.threads (hostThread c) then hostThread c :: ts else ts

/-- The cycles a thread has been runnable without issuing (R327). -/
def idleFor (s : State) (t : ThreadId) : Nat :=
  let th := s.thread t
  th.waitAcc + (if th.runnable then s.coreTime t.wave.core - th.waitSince else 0)
/-- The wait count of a thread (R329): it stays 0 while `PROG` is 0 (R332). -/
def waitCount (s : State) (t : ThreadId) : Nat := if s.prog t then s.idleFor t else 0

/-- A candidate: context and PC, with its members (R325). -/
structure Candidate where
  ctx : Nat
  pc : Dword
  members : List ThreadId
  deriving DecidableEq, Repr

/-- The candidates of a core. -/
def candidates (s : State) (c : CoreId) : List Candidate :=
  (s.runnables c).foldl (fun cs t =>
    let k := s.ctxOf t
    let pc := (s.thread t).pc
    if cs.any fun x => x.ctx = k && x.pc = pc then
      cs.map fun x => if x.ctx = k && x.pc = pc then { x with members := x.members ++ [t] } else x
    else cs ++ [⟨k, pc, [t]⟩]) []

/-- The grant time of the earliest lease among members (Table 13.2, row 1). -/
def Candidate.grant (s : State) (x : Candidate) : Option Nat :=
  (x.members.filter s.holdsLease).foldl (fun m t =>
    let n := (s.thread t).lease.elim 0 (·.granted)
    some (m.elim n (min n))) none
/-- The earliest time a member became urgent. -/
def Candidate.urgent (s : State) (x : Candidate) : Option Nat :=
  x.members.foldl (fun m t => match (s.thread t).urgent with | some n => some (m.elim n (min n)) | none => m) none
def Candidate.lane (x : Candidate) : Nat := x.members.foldl (fun m t => min m t.lane) 32
def Candidate.wait (s : State) (x : Candidate) : Nat := x.members.foldl (fun m t => max m (s.idleFor t)) 0
/-- Every member is under a `YLD` exclusion (R331). -/
def Candidate.excluded (s : State) (x : Candidate) : Bool := x.members.all fun t => (s.thread t).yldUntil.isSome

/-- The first of two candidates under a key that is to be small, with the ties of R327. -/
def Candidate.first (key : Candidate → Nat) (a b : Candidate) : Candidate :=
  if key a < key b then a else if key b < key a then b
  else if a.lane < b.lane then a else if b.lane < a.lane then b
  else if b.pc.toNat < a.pc.toNat then b else a
def Candidate.least (key : Candidate → Nat) : List Candidate → Option Candidate
  | [] => none
  | x :: xs => some (xs.foldl (Candidate.first key) x)

/-- The choice of the next candidate (R327, R447). -/
def choose (s : State) (c : CoreId) : Option Candidate :=
  let cs := s.candidates c
  let last := (s.core c).lastGroup
  let byWait := fun (x : Candidate) => 2 ^ 64 - Candidate.wait s x
  let keep (x : Candidate) : Nat := (x.members.filter last.contains).length
  (Candidate.least (fun x => (Candidate.grant s x).getD 0) (cs.filter fun x => (Candidate.grant s x).isSome))
  <|> (Candidate.least (fun x => (Candidate.urgent s x).getD 0) (cs.filter fun x => (Candidate.urgent s x).isSome))
  <|> (if last.head?.elim false (fun t => !s.prog t) then Candidate.least (fun x => 32 - keep x) (cs.filter fun x => keep x > 0) else none)
  <|> (Candidate.least byWait (cs.filter fun x => !Candidate.excluded s x))
  <|> (Candidate.least byWait cs)

/-- The issue group of a candidate (R325): the wave with the most members, the lowest slot on a tie; then for each empty lane the member of the
wave with the lowest slot. In lane order. -/
def groupOf (x : Candidate) : List ThreadId :=
  let count (w : WaveId) : Nat := (x.members.filter (·.wave = w)).length
  let ws := (x.members.map (·.wave)).eraseDups
  match ws with
  | [] => []
  | w0 :: rest =>
    let best := rest.foldl (fun b w => if count b < count w ∨ (count w = count b ∧ w.slot < b.slot) then w else b) w0
    (List.range 32).filterMap fun l =>
      let here := x.members.filter (·.lane = l)
      match here.find? (·.wave = best) with
      | some t => some t
      | none => here.foldl (fun (m : Option ThreadId) t => match m with
          | some u => if t.wave.slot < u.wave.slot then some t else some u
          | none => some t) none

/-- A run that a fairness switch must end: a thread outside the group is urgent, no member holds a lease, none became urgent before it, and no
latch-only value holds the run (R85, R329). -/
def mustSwitch (s : State) (c : CoreId) : Bool :=
  let g := (s.core c).group
  let best := (s.runnables c).foldl (fun m t =>
    if g.contains t || !s.prog t then m else match (s.thread t).urgent with | some n => some (m.elim n (min n)) | none => m) none
  match best with
  | none => false
  | some n =>
    g.all fun t => !s.holdsLease t && !(s.thread t).holdsRun && ((s.thread t).urgent.elim true fun k => n < k)

/-- Events that enter a host core between words (R376): an enabled pending event. -/
def hostEventDue (s : State) (c : CoreId) : Bool :=
  let h := s.host c
  isHostCore c && hostIE h && priv h ≤ 1 && h.hpend &&& h.hmask ≠ 0

/-- Whether a core has a word to issue: an open run, or a candidate. -/
def hasWork (s : State) (c : CoreId) : Bool := (s.core c).group ≠ [] || s.runnables c ≠ []

/-- The cores that take part: the focus, and every core with a thread (log entry 7). -/
def liveCores (s : State) : List CoreId := (s.focus :: s.threads.map (·.1.wave.core)).eraseDups

/-- The core whose word issues: the focus, or the next one with work, in the order of the list. -/
def nextCore (s : State) : Option CoreId := s.liveCores.find? s.hasWork
/-- After a word another core moves: the first one after the focus, in turn, that has work (log entry 7). -/
def rotate (s : State) : State :=
  let cs := s.liveCores.erase s.focus
  match (cs.dropWhile (fun c => decide (coreRank c ≤ coreRank s.focus)) ++ cs ++ [s.focus]).find? s.hasWork with
  | some c => { s with focus := c }
  | none => s
where
  coreRank (c : CoreId) : Nat := (c.pkg * 16 + c.die) * 128 + c.core

/-- The table entry of a candidate (R326). -/
def tableIndex (pc : Dword) : Nat := pc.toNat / 8 % 64 ^^^ pc.toNat / 512 % 64
/-- The table and the spill list of a core for the candidates `cs`: those that are candidates no longer leave; then those of the list, in their order, and new
ones take their entry where it is free, or wait in the list (R326). New ones are looked at when a run opens, in the order of `cs` (log entry 52, DESIGN CHOICE). -/
def seat (x : CoreSt) (cs : List (Nat × Dword)) : CoreSt :=
  let kept := x.table.filter fun e => cs.contains e.2
  let old := x.spill.filter cs.contains
  let new := cs.filter fun k => !(kept.any fun e => e.2 = k) && !old.contains k
  (old ++ new).foldl (fun x k =>
    if Map.has x.table (tableIndex k.2) then { x with spill := x.spill ++ [k] } else { x with table := Map.set x.table (tableIndex k.2) k })
    { x with table := kept, spill := [] }
/-- The cycles before the first word of a group formed from a candidate (R326). -/
def seatCost (x : CoreSt) (k : Nat × Dword) : Nat := if x.spill.contains k then 2 else 0
/-- The run of a candidate opens on a core. -/
def openRun (s : State) (c : CoreId) (x : Candidate) : State :=
  let n := s.coreTime c
  s.modCore c fun y =>
    let y := seat y ((s.candidates c).map fun z => (z.ctx, z.pc))
    { y with group := groupOf x, readyAt := if seatCost y (x.ctx, x.pc) = 0 then y.readyAt else n + seatCost y (x.ctx, x.pc) }

/-- The group that issues next on a core: the group of an open run; else the next candidate's, whose run opens. -/
def formGroup (s : State) (c : CoreId) : State :=
  let s := { s with focus := c }
  let g := (s.core c).group
  let stopped := g.any (fun t => !s.issueOpen t) && g.all (fun t => !(s.thread t).holdsRun)
  let s := if g ≠ [] && (stopped || s.mustSwitch c) then s.endRun c else s
  if (s.core c).group ≠ [] then s
  else match s.choose c with
    | some x => s.openRun c x
    | none => s

-- fetch (R53, R54)

/-- What a fetch of a word found: the word, a fault, or a wait for a lease. -/
inductive Fetched where
  | word (w : Dword)
  | fault (c : Cause) (arg : Nat)
  | wait (line : Nat)
  deriving DecidableEq, Repr

/-- The place of a word of a thread's code space, or what stops its fetch. -/
def fetchPlace (s : State) (t : ThreadId) (va : Dword) : State × Except Fetched Nat :=
  if va.toNat % 8 ≠ 0 then (s, .error (.fault .align 0))
  else match s.walkHeld t va with
  | some l => (s, .error (.wait l))
  | none => match s.globalAddr t .fetch va with
    | (s, .error (c, n)) => (s, .error (.fault c n))
    | (s, .ok (pa, _)) =>
      if s.leasedByOther t (lineOf pa) then (s, .error (.wait (lineOf pa)))
      else if s.poison.contains (lineOf pa) then (s, .error (.fault .poison 0))
      else (s, .ok pa)
/-- The word at an address of a thread's code space: a load on path KC, read whole; which version of a word that was stored to, R54 and the memory model leave
open (log entry 46). -/
def fetchWord (s : State) (t : ThreadId) (va : Dword) : State × Fetched :=
  match s.fetchPlace t va with
  | (s, .error f) => (s, f)
  | (s, .ok pa) =>
    let (s, _, bs) := s.readEv { s.threadEv t .load with path := .kc, base := .mem pa } false (memBytes s.mem pa 8)
    (s, .word (BitVec.ofNat 64 (leNat bs)))

/-- A fetch for every member of a group, one word for all: a fault is charged to each thread that would issue the word (R387), and a thread that
waits for a lease is blocked at it. -/
def fetchAll (s : State) (g : List ThreadId) (pc va : Dword) : State × Option Dword :=
  g.foldl (fun (acc : State × Option Dword) t =>
    let (s, w) := acc
    match (match w with | none => s.fetchWord t va | some x => let r := s.fetchPlace t va; (r.1, match r.2 with | .ok _ => .word x | .error f => f)) with
    | (s, .word x) => (s, some x)
    | (s, .fault c n) => (s.defer t (s.trapAt t c pc (va + 8) n va false), w)
    | (s, .wait l) => ((s.blockAt t pc (.leasedLine l)).leaveGroup t, w)) (s, none)

end State

/-- Whether a word needs the literal that follows it (R63). -/
def wantsLiteral (w : Dword) : Bool :=
  w.toNat / 2 ^ 62 = 0 && !unassignedWord w && ((Raw.of w.toNat 0).build.elim false Instr.usesLit)

namespace State

/-- The instruction the group of the focus core issues next: none when every member trapped or waits. -/
def fetchInstr (s : State) : State × Option Decoded :=
  let g := s.group
  let host := isHostCore s.focus
  let pc := (g.head?.map fun t => (s.thread t).pc).getD 0
  match s.fetchAll g pc pc with
  | (s, none) => (s, none)
  | (s, some w) =>
    if wantsLiteral w then
      match s.fetchAll s.group pc (pc + 8) with
      | (s, none) => (s, none)
      | (s, some l) => (s, some (decodeOn host w (some l)))
    else (s, some (decodeOn host w none))

/-- The cycle of a die passes while nothing issues on it (log entry 8). -/
def tickDie (s : State) (p d : Nat) : State := s.modDie p d fun x => { x with now := x.now + 1 }
/-- One cycle passes on every die that takes part, but for one: the dies of the cores that take part, those that hold state of their own, and the hub
dies of the packages that do (log entry 8). -/
def tickBut (s : State) (skip : Option (Nat × Nat)) : State :=
  let ds : List (Nat × Nat) :=
    (s.liveCores.map (fun (c : CoreId) => (c.pkg, c.die)) ++ s.dies.map (fun (d : (Nat × Nat) × Die) => d.1)
      ++ s.pkgs.map (fun (k : Nat × Package) => (k.1, 8))).eraseDups
  ds.foldl (fun s k => if some k = skip then s else s.tickDie k.1 k.2) s

end State

/-- `FAIRNESS_URGENT` (R329): a runnable thread's wait count has reached `FAIR_PERIOD` while `PROG` is set; it became urgent in the cycle in which the
count got there. A run of another group ends where R85 and R329 allow. -/
def execFairnessUrgent (t : ThreadId) (s : State) : Outcome :=
  let th := s.thread t
  let p := (s.regsOf t).fairPeriod.toNat
  if th.runnable && th.urgent.isNone && s.prog t && s.waitCount t ≥ p then
    let s := s.modThread t fun th => { th with urgent := some (s.coreTime t.wave.core - (s.waitCount t - p)) }
    .next (if s.mustSwitch t.wave.core then s.endRun t.wave.core else s)
  else .refused (.notEnabled "the thread has not waited for FAIR_PERIOD")

/-- `RESULT_DELIVERY` (R80, R97, R405): results in flight of a thread outside a run arrive when they are due; a thread blocked until they arrive becomes
runnable. (Those of a run's threads arrive before its next word.) -/
def execResultDelivery (t : ThreadId) (s : State) : Outcome :=
  let th := s.thread t
  let n := s.now t.wave.core
  let waits := match th.status with | .blocked (.result k) => decide (k ≤ n) | _ => false
  if (s.core t.wave.core).group.contains t then .refused (.notEnabled "the thread is in a run")
  else if !waits && !(th.longPends.any fun p => decide (p.due ≤ n)) then .refused (.notEnabled "no result is due")
  else
    let s := if waits then s.wakeThread t else s
    .next (s.settleThat t fun p => !p.kind.quick && decide (p.due ≤ n))

/-- `LONG_WAIT_EXPIRY` (R80): a group that waits longer than 16 cycles for results ends its run, its waiting threads blocked; a thread waits where the
lookahead of some result is used up (R97). -/
def execLongWaitExpiry (c : CoreId) (s : State) : Outcome :=
  let g := (s.core c).group
  let due (t : ThreadId) : Nat := (s.thread t).longPends.foldl (fun m p => if p.la = 0 then max m p.due else m) 0
  let n := s.coreTime c
  if (g.all fun t => due t ≤ n + 16) ∨ g.any (fun t => (s.thread t).latchOnly) then .refused (.notEnabled "no group waits longer than 16 cycles")
  else .next (s.longWait c ((g.filter fun t => n < due t).map fun t => (t, .result (due t))))

/-- `GRANULE_FILL` (R80, R96): the threads of the wave that waited for it, and for no other still absent, become runnable. -/
def execGranuleFill (w : WaveId) (g : Nat) (s : State) : Outcome :=
  if (s.wave w).absent.elim false (·.granules.contains g) then
    let s := s.fillGranule w g
    .next ((State.lanes w).foldl (fun s t =>
      match (s.thread t).status with
      | .blocked (.fill gs) => if gs.any fun k => (s.wave w).absent.elim false (·.granules.contains k) then s else s.wakeThread t
      | _ => s) s)
  else .refused (.notEnabled "the granule is not absent")

end Sys2Proof.Machine
end

