-- ==== Sys2Proof/Machine/HostSys.lean ====
section
/-! DEFINITION. The host profile: levels, system registers, entry and return, `TLBI`, `WAIT` and the `CTXW` commands (R374 to R382, R390), and the writes of
context registers (R48 to R50). -/

namespace Sys2Proof.Machine
namespace State

/-- A host word below the level its entry requires traps `PERM` (R374). -/
def levelCheck (level : Nat) : Check := fun s t _ _ => if priv (s.host t.wave.core) < level then some (.perm, 0, 0) else none

end State

/-- The lowest level that may read a system register (Table 15.3). -/
def sysReadLevel : SysReg → Nat
  | .hcore | .htime => 0
  | .mvec | .epcM | .ecauseM | .eaddrM | .mscr => 2
  | _ => 1
/-- The lowest level that may write it; a register no level writes ignores the write (R377). -/
def sysWriteLevel : SysReg → Nat
  | .hcore | .htime => 0
  | .kvec | .mvec | .epcM | .ecauseM | .eaddrM | .mscr => 2
  | _ => 1

/-- A system register's value (Table 15.3). -/
def sysRead (s : State) (c : CoreId) (r : SysReg) : Dword :=
  let h := s.host c
  match r with
  | .hstat => h.hstat
  | .hcore => BitVec.ofNat 64 (c.core % 16 + (s.pkg c.pkg).num % 4096 * 2 ^ 16)
  | .kvec => h.kvec | .mvec => h.mvec | .epcK => h.epcK | .epcM => h.epcM
  | .ecauseK => h.ecauseK | .ecauseM => h.ecauseM | .eaddrK => h.eaddrK | .eaddrM => h.eaddrM
  | .kscr => h.kscr | .mscr => h.mscr | .hpend => h.hpend | .hmask => h.hmask | .hptb => h.hptb
  | .htime => BitVec.ofNat 64 (s.hubNow c.pkg)

/-- Bits of a value that a mask keeps. -/
def keepBits (x : Dword) (mask : Nat) : Dword := x &&& BitVec.ofNat 64 mask
/-- A write of a system register (R377): reserved and RO fields are ignored, W1C fields clear, RWL fields change only at level 2. -/
def sysWrite (h : HostRegs) (r : SysReg) (x : Dword) : HostRegs :=
  match r with
  | .hstat =>
    let m := if State.priv h = 2 then 0x1FC else 0x03C
    { h with hstat := keepBits x m ||| (h.hstat &&& ~~~(BitVec.ofNat 64 m)) }
  | .hcore | .htime => h
  | .kvec => { h with kvec := x } | .mvec => { h with mvec := x } | .epcK => { h with epcK := x } | .epcM => { h with epcM := x }
  | .ecauseK => { h with ecauseK := keepBits x 0x7FFFF } | .ecauseM => { h with ecauseM := keepBits x 0x7FFFF }
  | .eaddrK => { h with eaddrK := x } | .eaddrM => { h with eaddrM := x }
  | .kscr => { h with kscr := x } | .mscr => { h with mscr := x }
  | .hpend => { h with hpend := h.hpend &&& ~~~(keepBits x 0x1F) }
  | .hmask => { h with hmask := keepBits x 0x1F }
  | .hptb => { h with hptb := keepBits x 0x1FFFFFFFFFFFFFF }

def execSysr (h : Hdr) (d : Dst) (r : SysReg) (s : State) : Outcome :=
  .next (s.control (.sysr h d r) (fun s t _ _ => let x := sysRead s t.wave.core r; s.writeDst t d [lo32 x, hi32 x])
    (State.levelCheck (sysReadLevel r)))
def execSysw (h : Hdr) (r : SysReg) (a : SrcD) (s : State) : Outcome :=
  .next (s.control (.sysw h r a) (fun s t _ xs => s.modHost t.wave.core fun g => sysWrite g r (arg xs 0)) (State.levelCheck (sysWriteLevel r)))
/-- `SCALL` (R376, R378): to level 1 from levels 0 and 1, to level 2 from level 2. -/
def execScall (h : Hdr) (n : Nat) (s : State) : Outcome :=
  .next (s.control (.scall h n) fun s t pc _ =>
    s.hostEnter t.wave.core (if State.priv (s.host t.wave.core) = 2 then 2 else 1) (pc + 8) (State.ecause 0x20 n 0) 0)
def execMcall (h : Hdr) (n : Nat) (s : State) : Outcome :=
  .next (s.control (.mcall h n) (fun s t pc _ => s.hostEnter t.wave.core 2 (pc + 8) (State.ecause 0x21 n 0) 0) (State.levelCheck 1))
/-- The checks of `ERET`: its level (R378), then its target (R53). -/
def eretCheck (s : State) (t : ThreadId) (pc : Dword) (xs : List Dword) : Option (Cause × Nat × Dword) :=
  let h := s.host t.wave.core
  let target := if State.priv h = 1 then h.epcK else h.epcM
  State.levelCheck 1 s t pc xs <|> (if target.toNat % 8 ≠ 0 then some (.align, 0, target) else none)
def execEret (h : Hdr) (s : State) : Outcome :=
  .next (s.control (.eret h) (fun s t _ _ => s.hostReturn t.wave.core) eretCheck)

-- translation shootdown (R379, R390)

/-- Whether an invalidation covers a translation of a context key and page number (R379). -/
def invMatches (kind : Nat) (va : Dword) (key ctx page : Nat) (large : Bool) : Bool :=
  match kind with
  | 0 => ctx = key && (if large then page / 4096 = pageOf va / 4096 else page = pageOf va)
  | 1 => ctx = key
  | _ => true

namespace State

/-- The removal of matching translations on one package: core TLBs, last-page registers, walker caches, owner cache (R390). -/
def invalidatePkg (s : State) (p kind : Nat) (va : Dword) (key : Nat) : State :=
  let hit (e : Tlb) : Bool := invMatches kind va key e.ctx e.page e.pte.large
  let s := s.cores.foldl (fun s (c, _) => if c.pkg = p then s.modCore c fun x => { x with tlb := x.tlb.filter fun e => !hit e } else s) s
  let s := s.threads.foldl (fun s (t, th) =>
    if t.wave.core.pkg = p && th.lastPage.elim false hit then s.modThread t fun th => { th with lastPage := none } else s) s
  let s := s.dies.foldl (fun s ((q, d), _) => if q = p then s.modDie q d fun x => { x with walker := [] } else s) s
  s.modPkg p fun k => { k with owners := k.owners.filter fun o => !invMatches kind va key o.key o.page o.large }
/-- Stubs whose page the completed invalidation covered may retire (R272). -/
def stubsInvalidated (s : State) (p kind : Nat) (va : Dword) (key : Nat) : State :=
  let mark (u : Stub) : Stub := if invMatches kind va key u.key u.page u.large then { u with invalidated := true } else u
  (s.partition p).foldl (fun s q => s.dies.foldl (fun s ((q', d), _) =>
    if q' = q then s.modDie q d fun x => { x with stubs := x.stubs.map mark } else s) s) s
/-- An invalidation on every package of a partition at once (`CTXW.del`, R390; quiesce, R427). -/
def invalidateAll (s : State) (p kind : Nat) (va : Dword) (key : Nat) : State :=
  ((s.partition p).foldl (fun s q => s.invalidatePkg q kind va key) s).stubsInvalidated p kind va key

end State

def execTlbi (h : Hdr) (kind : Nat) (a b : SrcD) (s : State) : Outcome :=
  .next (s.control (.tlbi h kind a b) (fun s t _ xs =>
    let (n, s) := s.freshId
    let x : Shootdown := { host := some t.wave.core, kind, va := arg xs 0, key := (arg xs 1).toNat % 65536, todo := s.partition t.wave.core.pkg }
    let s := { s with shootdowns := Map.set s.shootdowns n x }
    s.stopThread t (.blocked (.tlbi n))) (State.levelCheck 1))
/-- Whether a core of a package holds a request, not sent yet, that used a translation an invalidation removes (R390). -/
def State.unsentUnder (s : State) (p : Nat) (x : Shootdown) : Bool :=
  s.cores.any fun (c, y) => c.pkg = p &&
    (y.redirs.any (fun r => r.held ≠ [] && invMatches x.kind x.va x.key r.key r.page false)
      || y.held.any fun h => invMatches x.kind x.va x.key h.pte.key (pageOf h.va) h.pte.large)
/-- The invalidation reaches a package once the issuing thread's earlier accesses are performed; it removes the entries and confirms when the accesses that used
one are on their way (R379, R390). -/
def execTlbiInvalidation (pkg id : Nat) (s : State) : Outcome :=
  match Map.find s.shootdowns id with
  | some x =>
    if x.host.elim false fun c => State.openOf (s.core c) (hostThread c) ≠ ([], []) || s.mirroring (hostThread c) then .refused (.notEnabled "an earlier access of the thread is not performed")
    else if s.unsentUnder pkg x then .refused (.notEnabled "an access under a removed translation has not been sent")
    else if x.todo.contains pkg then
      .next ({ s.invalidatePkg pkg x.kind x.va x.key with shootdowns := Map.set s.shootdowns id { x with todo := x.todo.filter (· ≠ pkg) } })
    else .refused (.notEnabled "the package has confirmed")
  | none => .refused (.notEnabled "no such invalidation")
/-- Every package has confirmed: the issuing thread goes on (R379). -/
def execTlbiDone (id : Nat) (s : State) : Outcome :=
  match Map.find s.shootdowns id with
  | some x =>
    if x.todo ≠ [] then .refused (.notEnabled "a package has not confirmed")
    else
      let s := { s with shootdowns := Map.erase s.shootdowns id }
      let p := x.host.elim 0 (·.pkg)
      let s := s.stubsInvalidated p x.kind x.va x.key
      .next (match x.host with
        | some c => if (s.thread (hostThread c)).status = .blocked (.tlbi id) then s.wakeThread (hostThread c) else s
        | none => s)
  | none => .refused (.notEnabled "no such invalidation")

-- WAIT and event entry (R376, R380)

/-- A pending, unmasked event of a host core. -/
def hostPending (s : State) (c : CoreId) : Bool := decide ((s.host c).hpend &&& (s.host c).hmask ≠ 0)
def execWait (h : Hdr) (s : State) : Outcome :=
  .next (s.control (.wait h) (fun s t _ _ => (if hostPending s t.wave.core then s else s.stopThread t (.blocked .hostWait)).endRun s.focus)
    (State.levelCheck 1))
/-- An event between words: the thread leaves `WAIT`, and enters level 1 when `IE` and its level allow it (R376, R380). -/
def execHostEventEntry (c : CoreId) (s : State) : Outcome :=
  let t := hostThread c
  let th := s.thread t
  let waits : Bool := decide (th.status = .blocked .hostWait)
  if !isHostCore c || !hostPending s c then .refused (.notEnabled "no unmasked event is pending")
  else
    let s' := if waits then s.wakeThread t else s
    if s.hostEventDue c && (waits || th.runnable) then .next (s'.hostEnter c 1 (s'.thread t).pc (State.ecause 0x80 0 0) 0)
    else if waits then .next s'
    else .refused (.notEnabled "the level or IE bars the entry")

-- context registers (R48 to R50)

/-- Clamps to the nearer bound (R49). -/
def clampNat (lo hi x : Nat) : Nat := min hi (max lo x)
/-- Copies of bit 56 in bits [63:57] (Tables 2.10 to 2.12). -/
def withSx (x : Nat) : Dword := BitVec.ofNat 64 (if x.testBit 56 then x % 2 ^ 57 + 0x7F * 2 ^ 57 else x % 2 ^ 57)
/-- Whether `STORE_SPLIT` accepts a value's fields (R50). -/
def splitOk (x : Nat) : Bool :=
  let r := x % 32
  let c := x / 256 % 32
  4 ≤ r && r ≤ 16 && c ≤ 24 && decide (64 * r + 32 * c + 128 ≤ 1536)
/-- A write of a context register (R49, R50). -/
def ctxRegWrite (g : CtxRegs) (r : CtxReg) (v : Dword) : CtxRegs :=
  let x := v.toNat
  match r with
  | .ctxFlags => { g with ctxFlags := BitVec.ofNat 32 (x % 8) }
  | .fairPeriod => { g with fairPeriod := BitVec.ofNat 32 (clampNat 256 65536 (x % 2 ^ 17)) }
  | .leaseMax => { g with leaseMax := BitVec.ofNat 32 (clampNat 16 512 (x % 1024)) }
  | .schedSeed => { g with schedSeed := BitVec.ofNat 32 (if x % 2 ^ 32 = 0 then 1 else x % 2 ^ 32) }
  | .storeSplit =>
    let err := g.storeSplit.toNat / 2 ^ 31 % 2 = 1 && !(x.testBit 31)
    if splitOk x then { g with storeSplit := BitVec.ofNat 32 (x % 32 + x / 256 % 32 * 256 + (if err then 2 ^ 31 else 0)) }
    else { g with storeSplit := BitVec.ofNat 32 (g.storeSplit.toNat % 2 ^ 31 + 2 ^ 31) }
  | .trapQueue => { g with trapQueue := withSx (min 10 (x % 16) + x / 4096 * 4096) }
  | .spoolBase => { g with spoolBase := withSx (x / 65536 * 65536) }
  | .chkHandler => { g with chkHandler := withSx (x / 8 * 8) }
def ctxRegRead (g : CtxRegs) (r : CtxReg) : Dword :=
  match r with
  | .ctxFlags => g.ctxFlags.setWidth 64 | .fairPeriod => g.fairPeriod.setWidth 64 | .leaseMax => g.leaseMax.setWidth 64
  | .schedSeed => g.schedSeed.setWidth 64 | .storeSplit => g.storeSplit.setWidth 64
  | .trapQueue => g.trapQueue | .spoolBase => g.spoolBase | .chkHandler => g.chkHandler
def ctxRegSize (r : CtxReg) : Nat :=
  match r with | .trapQueue | .spoolBase | .chkHandler => 8 | _ => 4

namespace State

/-- Writes a context register and its place in the descriptor (R48). -/
def writeCtxReg (s : State) (k : Nat) (r : CtxReg) (x : Dword) : State :=
  let s := s.modContext k fun c => { c with regs := ctxRegWrite c.regs r x }
  let c := s.context k
  match c.descPa with
  | some pa => s.agentStore (s.hubEv (physPkg pa) .store) (.mem (pa + r.offset)) (leBytes (ctxRegRead c.regs r).toNat (ctxRegSize r))
  | none => s

end State

/-- A register of a context written from outside the instruction stream (R49). -/
def execRegisterWrite (ctx : Nat) (r : CtxReg) (x : Dword) (s : State) : Outcome :=
  if Map.has s.contexts ctx then .next (s.writeCtxReg ctx r x) else .refused (.notEnabled "no such context")

-- CTXW (R381, R382)

/-- A `CTXW` status with its result. -/
def ctxwWord (st res : Nat) : Dword := BitVec.ofNat 64 (st * 2 ^ 24 + res % 2 ^ 24)
namespace State

/-- A `CTXW` command: level 1, then an effect with its status and result; a fault of a memory access it makes is deferred. -/
def ctxw (s : State) (i : Instr) (d : Dst) (f : State → ThreadId → List Dword → State × Except AFault Dword) : State :=
  s.issue i fun s g pc =>
    let m := microOf i fun _ => ⟨0, 0⟩
    let npc := pc + BitVec.ofNat 64 i.size
    (s.memberVals g i).foldl (fun s (t, act, e) =>
      if !act then s
      else match e with
        | .error c => s.defer t (s.trapAt t c pc npc 0 0 false)
        | .ok xs =>
          if priv (s.host t.wave.core) < 1 then s.defer t (s.trapAt t .perm pc npc 0 0 false)
          else match f (s.tookReads t m.srcs) t xs with
            | (s, .ok x) => s.writeDst t d [lo32 x, hi32 x]
            | _ =>
              match f s t xs with
              | (s, .error (c, n, fa)) => s.defer t (s.trapAt t c pc npc n fa false)
              | (s, .ok _) => s) s

/-- A grid of a context that has not retired, or a registered queue (Table 15.8). -/
def ctxBusy (s : State) (k : Nat) : Bool := s.grids.any (fun (_, g) => g.ctx = k && !g.retired) || s.queues.any fun (_, q) => q.ctx = k

/-- The offsets of a descriptor that are reserved are zero (R5, Table 16.1). -/
def descOk (bs : List Byte) : Bool :=
  field bs 0x30 8 / 2 ^ 42 = 0 && field bs 0x3A 6 = 0 && field bs 0x40 8 % 65536 = 0 && 1 ≤ field bs 0x48 4 && field bs 0x48 4 ≤ 65536
    && field bs 0x4C 26 = 0 && field bs 0x66 26 = 0

/-- The packages of a queue or pool: whether a package number lies in the partition of package `p`. -/
def inPartition (s : State) (p n : Nat) : Bool := n < (s.pkg p).n && (s.route p n).isSome

/-- A queue descriptor's fields lie in Table 14.1 and its write index in a notify page homed on `MAPPKG` (R337). -/
def queueOk (s : State) (p : Nat) (bs : List Byte) : Bool :=
  let k := field bs 0x0C 2
  let map := field bs 0x0E 2
  field bs 0 8 % 4096 = 0 && 4 ≤ field bs 8 1 && field bs 8 1 ≤ 20 && field bs 9 1 < 2 && 1 ≤ field bs 0xA 2 && s.inPartition p map
    && field bs 0x20 16 = 0 && field bs 0x30 16 = 0
    && (match s.vaAddr p (s.ctxRoot k) none .load (BitVec.ofNat 64 (field bs 0x10 8)) with
      | .ok (pa, pte) => pte.ntf && some (physPkg pa) = s.route p map
      | .error _ => false)
def queueOf (s : State) (p : Nat) (bs : List Byte) : Queue :=
  { ring := BitVec.ofNat 64 (field bs 0 8), qsz := field bs 8 1, fill := field bs 9 1 % 2 = 1, tickets := field bs 0xA 2, ctx := field bs 0xC 2,
    mapPkg := (s.route p (field bs 0xE 2)).getD p, widx := BitVec.ofNat 64 (field bs 0x10 8), ridx := BitVec.ofNat 64 (field bs 0x18 8) }

/-- The lowest number not in use below a bound. -/
def lowestFree (used : List Nat) (bound : Nat) : Option Nat := (List.range (min bound (used.length + 1))).find? fun n => !used.contains n

/-- An index of a queue read by its packet engine (R338). -/
def readIndex (s : State) (q : Queue) (va : Dword) : Option Nat :=
  (s.vaRead q.mapPkg (s.ctxRoot q.ctx) none va 8).toOption.map leNat

/-- The state of a queue as `CTXW.qst` reports it (Table 15.7). -/
def queueWord (q : Queue) (ordHeld : Bool) : Nat :=
  (match q.state with | .unmapped => 0 | .mapped => 1 | .overrun => 2) + (if q.heldWait then 4 else 0) + (if ordHeld then 8 else 0)

/-- Whether `ORD` of the next packet holds a queue: an earlier packet has not retired (Table 14.2). -/
def ordHolds (s : State) (q : Queue) : Bool :=
  q.state = .mapped && q.r < q.w && q.grids.any (fun g => !(s.grid g).retired) &&
    (match s.vaRead q.mapPkg (s.ctxRoot q.ctx) none (q.ring + BitVec.ofNat 64 (q.r % 2 ^ q.qsz * 64)) 4 with
      | .ok bs => 1 ≤ field bs 0 1 && field bs 0 1 ≤ 3 && (field bs 3 1).testBit 0
      | .error _ => false)

/-- The pool key of a package and an index (R351). -/
def poolKey (p i : Nat) : Nat := p * 256 + i
/-- The pool a handle names, for a requester of package `p`: a nonzero bit of [31:20] names none. -/
def poolOf (s : State) (p : Nat) (h : Nat) : Option Nat :=
  if h / 2 ^ 20 ≠ 0 ∨ h % 4096 ≥ (s.pkg p).n then none
  else (s.route p (h % 4096)).bind fun q => if Map.has s.pools (poolKey q (h / 4096 % 256)) then some (poolKey q (h / 4096 % 256)) else none

end State

def execCtxwReg (h : Hdr) (r : CtxReg) (d : Dst) (a b : SrcD) (s : State) : Outcome :=
  .next (s.ctxw (.ctxwReg h r d a b) d fun s _ xs =>
    let k := (arg xs 0).toNat % 2 ^ 32
    if k = 0 ∨ !Map.has s.contexts k then (s, .ok (BitVec.allOnes 64))
    else
      let s := s.writeCtxReg k r (arg xs 1)
      (s, .ok (ctxRegRead (s.context k).regs r)))
/-- `CTXW.new` (R382): the registers take their reset values. -/
def execCtxwNew (h : Hdr) (d : Dst) (a b : SrcD) (s : State) : Outcome :=
  .next (s.ctxw (.ctxwNew h d a b) d fun s t xs =>
    let va := arg xs 0
    let k := (arg xs 1).toNat
    if k = 0 ∨ k ≥ 65536 ∨ va.toNat % 65536 ≠ 0 then (s, .ok (ctxwWord 3 0))
    else if Map.has s.contexts k then (s, .ok (ctxwWord 2 0))
    else match s.threadRead t va 128 with
      | (s, .error e) => (s, .error e)
      | (s, .ok bs) =>
        match s.globalAddr t .load va with
        | (s, .ok (pa, pte)) =>
          if pte.key ≠ 0 ∨ !State.descOk bs then (s, .ok (ctxwWord 3 0))
          else
            let root := field bs 0x30 8
            let g : CtxRegs := {}
            let s := s.setContext k
              { desc := va, descPa := some pa, rootFrame := root % 2 ^ 27, rootPkg := root / 2 ^ 27 % 4096, rootDie := root / 2 ^ 39 % 8,
                sysPool := BitVec.ofNat 64 (field bs 0x40 8), sysPages := field bs 0x48 4 }
            let e := s.hubEv t.wave.core.pkg .store
            let s := s.agentStore e (.mem (pa + 0x38)) (leBytes k 2)
            let s := [CtxReg.ctxFlags, .fairPeriod, .leaseMax, .schedSeed, .storeSplit, .trapQueue, .spoolBase, .chkHandler].foldl
              (fun (s : State) r => s.agentStore e (.mem (pa + r.offset)) (leBytes (ctxRegRead g r).toNat (ctxRegSize r))) s
            (s, .ok (ctxwWord 0 0))
        | (s, .error (c, n)) => (s, .error (c, n, va)))
def execCtxwDel (h : Hdr) (d : Dst) (a b : SrcD) (s : State) : Outcome :=
  .next (s.ctxw (.ctxwDel h d a b) d fun s t xs =>
    let k := (arg xs 0).toNat % 2 ^ 32
    if !Map.has s.contexts k then (s, .ok (ctxwWord 1 0))
    else if s.ctxBusy k then (s, .ok (ctxwWord 4 0))
    else
      let s := s.invalidateAll t.wave.core.pkg 1 0 k
      ({ s with contexts := Map.erase s.contexts k }, .ok (ctxwWord 0 0)))
def execCtxwQreg (h : Hdr) (d : Dst) (a b : SrcD) (s : State) : Outcome :=
  .next (s.ctxw (.ctxwQreg h d a b) d fun s t xs =>
    match s.threadRead t (arg xs 0) 64 with
    | (s, .error e) => (s, .error e)
    | (s, .ok bs) =>
      if !Map.has s.contexts (field bs 0xC 2) then (s, .ok (ctxwWord 1 0))
      else if !s.queueOk t.wave.core.pkg bs then (s, .ok (ctxwWord 3 0))
      else match State.lowestFree (Map.keys s.queues) (2 ^ 20) with
        | none => (s, .ok (ctxwWord 5 0))
        | some n =>
          ({ s with queues := Map.set s.queues n (s.queueOf t.wave.core.pkg bs) }, .ok (ctxwWord 0 n)))
def execCtxwQdel (h : Hdr) (d : Dst) (a b : SrcD) (s : State) : Outcome :=
  .next (s.ctxw (.ctxwQdel h d a b) d fun s _ xs =>
    let n := (arg xs 0).toNat % 2 ^ 32
    match Map.find s.queues n with
    | none => (s, .ok (ctxwWord 1 0))
    | some q =>
      let w := max q.w ((s.readIndex q q.widx).getD q.w)
      if q.r < w then (s, .ok (ctxwWord 4 0)) else ({ s with queues := Map.erase s.queues n }, .ok (ctxwWord 0 0)))
def execCtxwPnew (h : Hdr) (d : Dst) (a b : SrcD) (s : State) : Outcome :=
  .next (s.ctxw (.ctxwPnew h d a b) d fun s t xs =>
    let k := (arg xs 0).toNat % 2 ^ 32
    let y := (arg xs 1).toNat
    let c := y / 4 % 32
    let owner := y / 2 ^ 16 % 4096
    if !Map.has s.contexts k then (s, .ok (ctxwWord 1 0))
    else if c < 4 ∨ 20 < c ∨ y / 2 ^ 7 % 2 ^ 9 ≠ 0 ∨ y / 2 ^ 28 ≠ 0 ∨ !s.inPartition t.wave.core.pkg owner then (s, .ok (ctxwWord 3 0))
    else
      let q := (s.route t.wave.core.pkg owner).getD t.wave.core.pkg
      let used := (Map.keys s.pools).filterMap fun x => if x / 256 = q then some (x % 256) else none
      match State.lowestFree used 256 with
      | none => (s, .ok (ctxwWord 5 0))
      | some i =>
        ({ s with pools := Map.set s.pools (State.poolKey q i) { ctx := k, recSize := 8 * 2 ^ (y % 4), cap := 2 ^ c } }, .ok (ctxwWord 0 (owner + i * 4096))))
def execCtxwPdel (h : Hdr) (d : Dst) (a b : SrcD) (s : State) : Outcome :=
  .next (s.ctxw (.ctxwPdel h d a b) d fun s t xs =>
    match s.poolOf t.wave.core.pkg ((arg xs 0).toNat % 2 ^ 32) with
    | none => (s, .ok (ctxwWord 1 0))
    | some n =>
      let p := Map.getD s.pools n {}
      if !p.closed || p.records ≠ [] then (s, .ok (ctxwWord 4 0)) else ({ s with pools := Map.erase s.pools n }, .ok (ctxwWord 0 0)))
def execCtxwQst (h : Hdr) (d : Dst) (a b : SrcD) (s : State) : Outcome :=
  .next (s.ctxw (.ctxwQst h d a b) d fun s _ xs =>
    let n := (arg xs 0).toNat % 2 ^ 32
    match Map.find s.queues n with
    | none => (s, .ok (ctxwWord 1 0))
    | some q =>
      let y := (arg xs 1).toNat
      if y / 2 ≠ 0 then (s, .ok (ctxwWord 3 0))
      else if y = 1 ∧ q.state = .overrun then
        let index (s : State) (va : Dword) : State × Option Nat :=
          let r := s.agentRead { s.hubEv q.mapPkg .load with ord := .acq, scp := some .rack, bytewise := false } q.mapPkg (s.ctxRoot q.ctx) none va 8
          (r.1, r.2.toOption.map leNat)
        let (s, r) := index s q.ridx
        let (s, w) := index s q.widx
        match r, w with
        | some r, some w =>
          if r ≤ w ∧ w - r ≤ 2 ^ q.qsz then
            ({ s with queues := Map.set s.queues n { q with state := .mapped, r, w } }, .ok (ctxwWord 0 1))
          else (s, .ok (ctxwWord 3 0))
        | _, _ => (s, .ok (ctxwWord 3 0))
      else (s, .ok (ctxwWord 0 (State.queueWord q (s.ordHolds q)))))

end Sys2Proof.Machine
end

