-- ==== Sys2Proof/Machine/Tob.lean ====
section
/-! DEFINITION. The tile operand buffer: reservation records, their placement, and the words that manage ranges (R184 to R190, R207 to R213). -/

namespace Sys2Proof.Machine

-- formats (Tables 8.2 and 8.4)

/-- Planes of a `.bpiP` format number; 0 for any other. -/
def bpiPlanes (fmt : Nat) : Nat := if 9 ≤ fmt ∧ fmt ≤ 15 then fmt - 7 else 0
/-- A block format (`.mx4`, `.mx8e4`, `.mx8e5`). -/
def isMx (fmt : Nat) : Bool := 5 ≤ fmt && fmt ≤ 7
/-- Bytes of `k` elements of a row (Table 8.4). -/
def rowBytes (fmt k : Nat) : Nat :=
  match fmt with
  | 0 => 4 * k
  | 1 | 2 => 2 * k
  | 3 | 4 | 6 | 7 => k
  | 5 => k / 2
  | _ => bpiPlanes fmt * (k / 8)
/-- Bytes of the scales of `k` elements of a row (Table 8.4). -/
def scaleBytes (fmt skind k : Nat) : Nat :=
  if skind = 0 then 0
  else if isMx fmt then (if skind = 1 then k / 32 else k / 16)
  else k / 32
/-- The combinations of format, scale kind, plane form and planes that R186 allows. -/
def fmtOk (fmt skind : Nat) (pf : Bool) (planes : Nat) : Bool :=
  (if fmt ≤ 4 then skind = 0
   else if fmt ≤ 7 then skind = 1 || skind = 2
   else if fmt = 8 then false
   else skind = 0 || skind = 2)
  && (!pf || fmt = 5)
  && (if bpiPlanes fmt = 0 then planes = 0 else 1 ≤ planes && planes ≤ bpiPlanes fmt)

/-- Bytes of a slot of a ring (R189). -/
def slotBytes (fmt skind scoff : Nat) : Nat :=
  let n := if skind = 0 then 64 * rowBytes fmt 64 else scoff + 64 * scaleBytes fmt skind 64
  (n + 255) / 256 * 256

namespace Tob

/-- The number of slots of a ring (R189). -/
def slots (x : Tob) : Nat := x.len * 1024 / slotBytes x.fmt x.skind x.scoff
/-- Bits [63:0] of the record (Table 8.1). -/
def low (x : Tob) : Nat :=
  x.base % 512 + x.len % 1024 * 2 ^ 10 + x.fmt % 16 * 2 ^ 20 + x.skind % 4 * 2 ^ 24 + (if x.pf then 2 ^ 26 else 0) + (if x.ring then 2 ^ 27 else 0)
    + x.planes % 16 * 2 ^ 28 + x.scoff % 2 ^ 19 * 2 ^ 32 + x.blk % 256 * 2 ^ 56
/-- A word of the record (R209). -/
def word (x : Tob) (n : Nat) : Word :=
  BitVec.ofNat 32 (match n with | 0 => x.low | 1 => x.low / 2 ^ 32 | 2 => x.ppos | _ => x.cpos)
/-- A byte of the range (R184, R211). -/
def byte (x : Tob) (i : Nat) : Byte :=
  match Map.find x.data i with
  | some b => b
  | none => Config.freeByte x.seed i

/-- The request of `TRSV` as a record (R207). -/
def ofRequest (r : Nat) : Tob :=
  { len := r / 2 ^ 10 % 1024, fmt := r / 2 ^ 20 % 16, skind := r / 2 ^ 24 % 4, pf := r.testBit 26, ring := r.testBit 27,
    planes := r / 2 ^ 28 % 16, scoff := r / 2 ^ 32 % 2 ^ 19 }
/-- The conditions of R207 on a request, but for a free range. -/
def requestOk (r : Nat) : Bool :=
  let x := ofRequest r
  r % 2 ^ 10 = 0 && r / 2 ^ 51 = 0
    && 4 ≤ x.len && x.len ≤ 512 && x.len % 4 = 0
    && fmtOk x.fmt x.skind x.pf x.planes
    && (if x.ring then (x.skind = 0 || x.scoff ≥ 64 * rowBytes x.fmt 64) && x.slots ≥ 2 else x.scoff < x.len * 1024)

end Tob

/-- `BLK` of a granted record (R207). -/
def blkOf (fmt skind : Nat) : Nat := if isMx fmt then 32 else if bpiPlanes fmt > 0 ∧ skind ≠ 0 then 64 else 0

/-- Whether an operation has not completed. -/
def Op.pending (o : Op) : Bool := match o.st with | .completed _ | .delivered => false | _ => true

namespace State

/-- Base and length of every range reserved on a core. -/
def coreRanges (s : State) (c : CoreId) : List (Nat × Nat) :=
  s.teams.flatMap fun (_, x) => if x.place = .resident && x.core = c then x.handles.map fun (_, b) => (b.base, b.len) else []
/-- Whether `len` KiB from `base` are free. -/
def rangeFree (rs : List (Nat × Nat)) (base len : Nat) : Bool :=
  base + len ≤ 512 && rs.all fun (b, n) => b + n ≤ base || base + len ≤ b
/-- The lowest base at which a range fits (R184). -/
def placeRange (s : State) (c : CoreId) (len : Nat) : Option Nat :=
  ((List.range 128).map (4 * ·)).find? fun b => rangeFree (s.coreRanges c) b len
/-- The length of the largest free range of a core, in KiB (R222). -/
def largestFree (s : State) (c : CoreId) : Nat :=
  (((List.range 129).map (4 * ·)).filter fun n => n = 0 || (s.placeRange c n).isSome).foldl max 0

/-- The record a handle of a team is bound to. -/
def tob (s : State) (tm b : Nat) : Option Tob := Map.find (s.team tm).handles b
def modTob (s : State) (tm b : Nat) (f : Tob → Tob) : State :=
  match s.tob tm b with
  | some x => s.modTeam tm fun t => { t with handles := Map.set t.handles b (f x) }
  | none => s
/-- The record that an operation numbered `n` finds: a `TREL` under way has taken the handle from the operations issued after it (R208). -/
def tobFor (s : State) (tm b n : Nat) : Option Tob :=
  if s.threads.any fun (t, th) => s.teamOf t = tm && (match th.status with | .blocked (.trel k m) => k = b && m ≤ n | _ => false) then none
  else s.tob tm b

/-- Writes bytes of a range: a unit of 8 bytes written whole loses its poison (R417). -/
def setTob (s : State) (tm b off : Nat) (bs : List Byte) : State :=
  s.modTob tm b fun x =>
    { x with data := ((List.range bs.length).zip bs).foldl (fun m (k, v) => Map.set m (off + k) v) x.data,
             poisoned := x.poisoned.filter fun u => u < off || u + 8 > off + bs.length }
/-- A write into a range while an operation that reads it is pending leaves that operation undefined operand values (R197); one not yet accepted
may turn out to read it. -/
def taintRange (s : State) (tm b : Nat) : State :=
  s.ops.foldl (fun s (n, o) =>
    if o.kind = .mma && o.team = tm && (o.st = .queued || (o.st = .active && o.handles.contains b)) then
      let (k, s) := s.freeIdx
      s.setOp n { o with taint := (b, k) :: o.taint.filter (·.1 ≠ b) }
    else s) s

/-- Whether an earlier operation of a team that names a handle is pending (R208): a matrix operation or a copy not yet accepted may name it. -/
def handleBusy (s : State) (tm b before : Nat) : Bool :=
  s.ops.any fun (n, o) => n < before && o.team = tm && o.pending && (o.handles.contains b || (o.st = .queued && (o.kind = .mma || o.kind = .cpy)))

/-- The end of `TREL` (R208). -/
def freeTob (s : State) (tm b : Nat) : State := s.modTeam tm fun x => { x with handles := Map.erase x.handles b }
/-- The end of `TRNG` (R210). -/
def resetRing (s : State) (tm b : Nat) : State := s.modTob tm b fun x => if x.ring then { x with ppos := 0, cpos := 0 } else x

/-- The threads of a team with a status that a test holds of. -/
def blockedIn (s : State) (tm : Nat) (p : BlockOn → Bool) : List ThreadId :=
  (s.threads.filter fun (t, th) => s.teamOf t = tm && (match th.status with | .blocked on => p on | _ => false)).map (·.1)
def wakeAll (s : State) (ts : List ThreadId) : State := ts.foldl (fun s t => s.wakeThread t) s

end State

/-- `TRSV` (R207, Table 9.2). -/
def execTrsv (h : Hdr) (d : Dst) (b : Nat) (a : Nat) (s : State) : Outcome :=
  let i : Instr := .trsv h d b a
  .next (s.teamOnce i fun s tm t ts _ _ =>
    let w := s.wave t.wave
    let r := (pair64 (w.sreg (a + 1)) (w.sreg a)).toNat
    let x := Tob.ofRequest r
    let answer (s : State) (st base : Nat) : State := s.writeAll d ts (BitVec.ofNat 32 (st * 2 ^ 24 + base))
    (if (s.tob tm b).isSome then answer s 1 0
     else if !Tob.requestOk r then answer s 2 0
     else match s.placeRange t.wave.core x.len with
      | none => answer s 3 0
      | some base =>
        let (k, s) := s.freeIdx
        let x := { x with base, blk := blkOf x.fmt x.skind, seed := k }
        answer (s.modTeam tm fun y => { y with handles := Map.set y.handles b x }) 0 base))

/-- `TREL` (R208): at once when no earlier operation names the handle, else the threads are blocked; of an unbound handle it does nothing. -/
def execTrel (h : Hdr) (b : Nat) (s : State) : Outcome :=
  .next (s.teamOnce (.trel h b) fun s tm _ ts _ _ =>
    if (s.tobFor tm b s.nextId).isNone then s
    else if s.handleBusy tm b s.nextId then ts.foldl (fun s t => s.stopThread t (.blocked (.trel b s.nextId))) s else s.freeTob tm b)
def execTrelDone (tm b : Nat) (s : State) : Outcome :=
  let ts := s.blockedIn tm fun on => match on with | .trel k n => k = b && !s.handleBusy tm b n | _ => false
  if ts = [] then .refused (.notEnabled "no TREL of the handle has ended its wait") else .next ((s.freeTob tm b).wakeAll ts)

/-- `TQRY` (R209). -/
def execTqry (h : Hdr) (d : Dst) (b n : Nat) (s : State) : Outcome :=
  .next (s.valueWord (.tqry h d b n) fun s t => (s.tob (s.teamOf t) b).elim 0 fun x => x.word n)

/-- `TRNG` (R210). -/
def execTrng (h : Hdr) (b : Nat) (s : State) : Outcome :=
  .next (s.teamOnce (.trng h b) fun s tm _ ts _ _ =>
    if s.handleBusy tm b s.nextId then ts.foldl (fun s t => s.stopThread t (.blocked (.trng b s.nextId))) s else s.resetRing tm b)
def execTrngDone (tm b : Nat) (s : State) : Outcome :=
  let ts := s.blockedIn tm fun on => match on with | .trng k n => k = b && !s.handleBusy tm b n | _ => false
  if ts = [] then .refused (.notEnabled "no TRNG of the handle has ended its wait") else .next ((s.resetRing tm b).wakeAll ts)

/-- The fault of an access of `z` bytes at an offset of a range (R211), and of a read that meets poison (Table 17.11). -/
def tobFault (s : State) (tm b off z : Nat) (read : Bool) : Option Cause :=
  if off % z ≠ 0 then some .align
  else match s.tob tm b with
    | none => some .xlat
    | some x =>
      if off + z > x.len * 1024 then some .xlat
      else if read && x.poisoned.any fun u => u < off + z && off < u + 8 then some .poison
      else none

/-- `TWR` (R211): lanes in ascending order, so that the highest-numbered lane's bytes stand. -/
def execTwr (h : Hdr) (b : Nat) (wide : Bool) (off val : SrcD) (s : State) : Outcome :=
  let z := if wide then 8 else 4
  .next (s.control (.twr h b wide off val)
    (fun s t _ xs =>
      let tm := s.teamOf t
      (s.taintRange tm b).setTob tm b (arg xs 0).toNat (leBytes (arg xs 1).toNat z))
    fun s t _ xs => (tobFault s (s.teamOf t) b (arg xs 0).toNat z false).map fun c => (c, 0, 0))

/-- `TRD` (R211): the result arrives 3 cycles after issue. -/
def execTrd (h : Hdr) (d : Dst) (b : Nat) (wide : Bool) (off : SrcD) (s : State) : Outcome :=
  let i : Instr := .trd h d b wide off
  let z := if wide then 8 else 4
  .next (s.control i
    (fun s t pc xs =>
      let bs := (s.tob (s.teamOf t) b).elim [] fun x => (List.range z).map fun k => x.byte ((arg xs 0).toNat + k)
      s.addPend t { s.pendWords t i pc false (wordsOf bs) 0 with kind := .trd })
    fun s t _ xs => (tobFault s (s.teamOf t) b (arg xs 0).toNat z true).map fun c => (c, 0, 0))
/-- `TRD_DELIVERY` (R211). -/
def execTrdDelivery (t : ThreadId) (s : State) : Outcome :=
  let pick (p : Pending) : Bool := p.kind = .trd && decide (p.due ≤ s.now t.wave.core)
  if (s.thread t).pend.any pick then .next (s.settleThat t pick)
  else .refused (.notEnabled "no TRD result is due")

end Sys2Proof.Machine
end

