-- ==== Sys2Proof/Machine/MatrixNum.lean ====
section
/-! DEFINITION. The arithmetic of the matrix unit: element and scale values of every operand format, the accumulation step of R195 and
the chunk of 64 k-positions (R116, R117, R130 to R138, R188, R195, R196). -/

namespace Sys2Proof.Machine

/-- An operand of a matrix operation: where its rows stand and in what format (R187, R188, R190, R217). -/
structure Opnd where
  remote : Bool := false
  handle : Nat := 0
  ring : Bool := false
  fmt : Nat := 0
  skind : Nat := 0
  pf : Bool := false
  planes : Nat := 0
  /-- remote: bases and strides -/
  ebase : Dword := 0
  sbase : Dword := 0
  estr : Nat := 0
  sstr : Nat := 0
  /-- scale offset of a tile area or a slot -/
  scoff : Nat := 0
  deriving DecidableEq, Repr

/-- Group length (Table 8.2). -/
def groupLen (fmt : Nat) : Nat := if fmt = 0 then 8 else if bpiPlanes fmt > 0 then 64 else 32

/-- Plane-major layouts: the number of planes, 0 for a layout of consecutive elements (R135, R138). -/
def planesOf (fmt : Nat) (pf : Bool) : Nat := if fmt = 5 && pf then 4 else bpiPlanes fmt

/-- The stretches (offset, length) of a row of `k` elements that hold the elements of chunk `kc`, in the order of the layout for K = 64 (R135, R138, R188). -/
def elemStretches (fmt : Nat) (pf : Bool) (k kc : Nat) : List (Nat × Nat) :=
  let p := planesOf fmt pf
  if p = 0 then [(rowBytes fmt 64 * kc, rowBytes fmt 64)]
  else (List.range p).map fun j => (j * 8 * (k / 64) + 8 * kc, 8)

/-- Bit `b` of a byte string. -/
def bitAt (bs : List Byte) (b : Nat) : Bool := ((bs.getD (b / 8) 0).getLsbD (b % 8))

/-- The code of element `e` of a chunk in plane form (R138): plane 0 holds its most significant bit. -/
def planeCode (bs : List Byte) (p e : Nat) : Nat :=
  (List.range p).foldl (fun n j => 2 * n + (if bitAt bs (64 * j + e) then 1 else 0)) 0
/-- An element read to `m` of its `p` planes, as a number of full scale (R136, R195). -/
def bpiValue (bs : List Byte) (p m e : Nat) : Int :=
  let q := planeCode (bs.take (8 * m)) m e
  ((q : Int).bmod (2 ^ m)) * 2 ^ (p - m)

/-- The value of element `e` of a chunk row in a floating format (R116, R117, R133). -/
def elemVal (fmt : Nat) (pf : Bool) (planes : Nat) (bs : List Byte) (e : Nat) : FVal :=
  match fmt with
  | 0 => fdecode .f32 (field bs (4 * e) 4)
  | 1 => fdecode .f16 (field bs (2 * e) 2)
  | 2 => fdecode .bf16 (field bs (2 * e) 2)
  | 3 | 6 => fdecode .e4m3 (bs.getD e 0).toNat
  | 4 | 7 => fdecode .e5m2 (bs.getD e 0).toNat
  | 5 => fdecode .e2m1 (if pf then planeCode bs 4 e else (bs.getD (e / 2) 0).toNat / 16 ^ (e % 2) % 16)
  | _ => let v := bpiValue bs (bpiPlanes fmt) planes e; .fin ⟨v < 0, v.natAbs, 0⟩

/-- The value of an S10 container (R130). -/
def s10Val (x : Nat) : FVal :=
  let e := x / 4 % 256
  if e = 255 then .nan false else .fin ⟨false, 4 + x % 4, (e : Int) - 129⟩
/-- The value of an E8M0 byte (R131). -/
def e8m0Val (x : Nat) : FVal := if x = 255 then .nan false else .fin ⟨false, 1, (x : Int) - 127⟩
/-- The exponent of the largest power of two in an element format's largest value (R134). -/
def blockEm (f : FFmt) : Int := match f with
  | .e2m1 => 2
  | .e4m3 => 8
  | _ => 15
/-- v / s of a block element (R134): RNE in the element format, an overflow clamped; `sm × 2^se` is the scale. -/
def blockElem (f : FFmt) (sm : Nat) (se : Int) (v : Dy) : Nat × Flags :=
  let n := v.m * 2 ^ 64
  roundTo .rne true f ⟨v.neg, n / sm, v.e - 64 - se⟩ (n % sm ≠ 0)
/-- The rule for a block produced from floating values (R134): the scale code (S10 or E8M0), the element codes and the flags. No instruction of the
table produces a block, so no meaning calls it. -/
def blockOf (s10 : Bool) (f : FFmt) (xs : List FVal) : Nat × List Nat × Flags :=
  let ds := xs.filterMap fun | .fin d => some d | _ => none
  if ds.length ≠ xs.length then (if s10 then 0x3FC else 0xFF, xs.map fun _ => 0, Flag.nv)
  else
    let amax := ds.foldl (fun (a : Dy) d => if d.m ≠ 0 ∧ a.cmp { d with neg := false } < 0 then { d with neg := false } else a) ⟨false, 0, 0⟩
    let code := if amax.m = 0 then 0
      else if s10 then
        match fdecode f f.maxBits with
        | .fin em => ((List.range 0x3FC).find? fun c => amax.cmp (em.mul ⟨false, 4 + c % 4, ((c / 4 : Nat) : Int) - 129⟩) ≤ 0).getD 0x3FB
        | _ => 0x3FB
      else (max 0 (min 254 ((Nat.log2 amax.m : Int) + amax.e - blockEm f + 127))).toNat
    let r := ds.map (blockElem f (if s10 then 4 + code % 4 else 1) (if s10 then ((code / 4 : Nat) : Int) - 129 else (code : Int) - 127))
    (code, r.map (·.1), if r.any fun x => x.2 &&& Flag.nx ≠ 0 then Flag.nx else 0)

/-- The scale of element `e` of a chunk row whose scales follow its elements (R133, R137); 1 when unscaled. -/
def scaleVal (fmt skind : Nat) (bs : List Byte) (e : Nat) : FVal :=
  let sc := bs.drop (rowBytes fmt 64)
  let g := if isMx fmt then e / 32 else 0
  match skind with
  | 0 => .fin ⟨false, 1, 0⟩
  | 1 => e8m0Val (sc.getD g 0).toNat
  | _ => s10Val (field sc (2 * g) 2)

/-- The exact product of two values that are not NaN; none when it is a zero times an infinity (R195). An integer has no −0 (log entry 21). -/
def prodVal (int : Bool) (a b : FVal) : Option FVal :=
  match a, b with
  | .fin x, .fin y =>
    let p := x.mul y
    some (.fin (if int && p.m = 0 then { p with neg := false } else p))
  | x, y => if x.isZero || y.isZero then none else some (.inf (x.neg != y.neg))

/-- The exact sum of the products of a group (R195): `none` is `Invalid`. -/
def groupSum (int : Bool) : List (FVal × FVal) → Option FVal
  | [] => some (.fin ⟨false, 0, 0⟩)
  | [(a, b)] => prodVal int a b
  | (a, b) :: xs =>
    match prodVal int a b, groupSum int xs with
    | some (.inf p), some (.inf q) => if p = q then some (.inf p) else none
    | some (.inf p), some _ => some (.inf p)
    | some _, some (.inf q) => some (.inf q)
    | some (.fin x), some (.fin y) => some (.fin (x.add .rne y))
    | _, _ => none

/-- One group of R195 with a floating accumulator: the new bits of the accumulator and the flags. -/
def fpStep (int sat : Bool) (xs : List (FVal × FVal)) (sa sb : FVal) (acc : Nat) : Nat × Flags :=
  let c := fdecode .f32 acc
  let isNan := c.isNaN || sa.isNaN || sb.isNaN || xs.any fun (a, b) => a.isNaN || b.isNaN
  let snan := c.isSNaN || xs.any fun (a, b) => a.isSNaN || b.isSNaN
  -- products with a NaN are left out of the search for an invalid one
  let invalid := (groupSum int (xs.filter fun (a, b) => !a.isNaN && !b.isNaN)).isNone
  if isNan || invalid then (FFmt.nanBits .f32, nvIf (snan || invalid))
  else
    match groupSum int xs, c, sa, sb with
    | some (.fin p), .fin a, .fin u, .fin v => roundTo .rne sat .f32 (a.add .rne ((p.mul u).mul v))
    | some (.inf p), .inf q, _, _ => if p = q then (withSign .f32 p (FFmt.infBits .f32 |>.getD 0), 0) else (FFmt.nanBits .f32, Flag.nv)
    | some (.inf p), _, _, _ => (withSign .f32 p (FFmt.infBits .f32 |>.getD 0), 0)
    | _, .inf q, _, _ => (withSign .f32 q (FFmt.infBits .f32 |>.getD 0), 0)
    | _, _, _, _ => (acc, 0)

/-- One group of R195 with an integer accumulator. -/
def intStep (xs : List (Int × Int)) (acc : Nat) : Nat × Flags :=
  let c : Int := ((acc : Nat) : Int).bmod (2 ^ 32) + (xs.map fun (a, b) => a * b).foldl (· + ·) 0
  let r := clampInt .i32 c
  ((r % 2 ^ 32).toNat, if r = c then 0 else Flag.isat)

/-- The element of C at the crossing of a row of A and a column of B, through one chunk of 64 (R195). -/
def chunkStep (a b : Opnd) (sat : Bool) (ra cb : List Byte) (acc : Nat) : Nat × Flags :=
  let g := groupLen a.fmt
  (List.range (64 / g)).foldl (fun (acc, f) j =>
    let es := (List.range g).map (g * j + ·)
    let (r, f') :=
      if bpiPlanes a.fmt > 0 && a.skind = 0 then
        intStep (es.map fun e => (bpiValue ra (bpiPlanes a.fmt) a.planes e, bpiValue cb (bpiPlanes b.fmt) b.planes e)) acc
      else
        fpStep (bpiPlanes a.fmt > 0) sat (es.map fun e => (elemVal a.fmt a.pf a.planes ra e, elemVal b.fmt b.pf b.planes cb e))
          (scaleVal a.fmt a.skind ra (g * j)) (scaleVal b.fmt b.skind cb (g * j)) acc
    (r, f ||| f')) (acc, 0)

-- tiles

namespace Tile

/-- Element (i, j) of a tile at 64 i + j (R47, R182). -/
def elem (x : Tile) (e : Nat) : Word :=
  match Map.find x.data e with
  | some w => w
  | none => if x.zeroed then 0 else Config.freeWord x.seed e
def setElem (x : Tile) (e : Nat) (w : Word) : Tile := { x with data := Map.set x.data e w }

/-- One chunk added to tile (r, c) of C (R195): the 64 rows of A and columns of B. -/
def addChunk (x : Tile) (a b : Opnd) (sat : Bool) (ras cbs : List (List Byte)) : Tile × Flags :=
  let outs := (List.range 4096).map fun e => chunkStep a b sat (ras.getD (e / 64) []) (cbs.getD (e % 64) []) (x.elem e).toNat
  ({ x with data := (List.range 4096).zip (outs.map fun o => BitVec.ofNat 32 o.1) }, outs.foldl (fun f o => f ||| o.2) 0)

end Tile

/-- MACs of a core and cycle for a pair of formats (Table 1.6). -/
def macRate (fa pa fb pb : Nat) : Nat × Nat :=
  if bpiPlanes fa > 0 ∧ bpiPlanes fb > 0 then (262144, pa * pb)
  else (if fa = 5 then 8192 else if fa = 0 then 512 else if fa ≤ 2 then 2048 else 4096, 1)

/-- The least time of an operation on a core with `f` fenced sub-arrays (R204). -/
def mmaCycles (m n k : Nat) (rate : Nat × Nat) (f : Nat) : Nat :=
  (m * n * k * 16 * rate.2 + rate.1 * (16 - f) - 1) / (rate.1 * (16 - f)) + 64

/-- Which pairs of formats the engine accepts (Table 8.3). -/
def pairOk (a b : Opnd) : Bool :=
  let cls (f : Nat) : Nat := if f = 4 then 3 else if f = 7 then 6 else if bpiPlanes f > 0 then 9 else f
  cls a.fmt = cls b.fmt && (bpiPlanes a.fmt = 0 || a.skind = b.skind)

end Sys2Proof.Machine
end

