-- ==== Sys2Proof/Machine/Matrix.lean ====
section
/-! DEFINITION. Matrix operations: issue, acceptance, chunks, streams, completion, faults, pattern products, `MWAIT`, `MSTAT`, and the fragment
multiply (R190 to R203, R215 to R225). -/

namespace Sys2Proof.Machine

-- the parameter block (Table 9.3)

namespace Op

def mmaM (o : Op) : Nat := field o.block 0 2
def mmaN (o : Op) : Nat := field o.block 2 2
def mmaK (o : Op) : Nat := field o.block 4 4
def acc0 (o : Op) : Nat := field o.block 8 1
def mflags (o : Op) : Nat := field o.block 9 1
def sat (o : Op) : Bool := o.mflags.testBit 0
def kdone (o : Op) : Nat := field o.block 0xC 4
/-- Rows of A or columns of B. -/
def rows (o : Op) (b : Bool) : Nat := if b then o.mmaN else o.mmaM
/-- The descriptor area of an operand. -/
def desc (o : Op) (b : Bool) : List Byte := (o.block.drop (if b then 0x30 else 0x10)).take 32
def isRemote (o : Op) (b : Bool) : Bool := o.mflags.testBit (if b then 2 else 1)
def handleOf (o : Op) (b : Bool) : Nat := field o.block (if b then 0xB else 0xA) 1
/-- The staged rows of an operand. -/
def staged (o : Op) (b : Bool) : List (List Byte) := if b then o.rowsB else o.rowsA
def stage (o : Op) (b : Bool) (rs : List (List Byte)) : Op := if b then { o with rowsB := rs } else { o with rowsA := rs }
/-- The tiles of C (R192). -/
def cTiles (o : Op) : List Nat := (List.range (o.mmaM / 64 * (o.mmaN / 64))).map (o.acc0 + ·)

end Op

/-- A remote descriptor as an operand (Table 9.4). -/
def remoteOpnd (d : List Byte) : Opnd :=
  let f := field d 0x18 1
  { remote := true, fmt := f % 16, skind := f / 16 % 4, pf := f.testBit 6, planes := field d 0x19 1, ebase := BitVec.ofNat 64 (field d 0 8),
    sbase := BitVec.ofNat 64 (field d 8 8), estr := field d 0x10 4, sstr := field d 0x14 4 }
/-- A reservation record as an operand. -/
def tobOpnd (b : Nat) (x : Tob) : Opnd :=
  { handle := b, ring := x.ring, fmt := x.fmt, skind := x.skind, pf := x.pf, planes := x.planes, scoff := x.scoff }

/-- What stops the fetch of operand rows: a leased line, for which the engine waits, or a fault (R199, R263). -/
abbrev Stop := Option AFault

namespace State

/-- An operand of an operation, as its number finds it; none for an unbound handle. -/
def opnd (s : State) (n : Nat) (o : Op) (b : Bool) : Option Opnd :=
  if o.isRemote b then some (remoteOpnd (o.desc b))
  else if o.handleOf b ≥ 8 then none
  else (s.tobFor o.team (o.handleOf b) n).map (tobOpnd (o.handleOf b))

-- acceptance (Table 9.5)

/-- Check 3 on a remote descriptor. -/
def remoteOk (d : List Byte) : Bool :=
  let x := remoteOpnd d
  fmtOk x.fmt x.skind x.pf x.planes && field d 0x18 1 < 128 && field d 0x1A 6 = 0
    && x.ebase.toNat % 32 = 0 && x.sbase.toNat % 2 = 0 && x.estr % 32 = 0 && x.sstr % 2 = 0
/-- Bytes of a row that are read: of `.bpiP` only the first `PLANES` slabs (R188). -/
def readBytes (x : Opnd) (k : Nat) : Nat := if bpiPlanes x.fmt > 0 then min x.planes (bpiPlanes x.fmt) * (k / 8) else rowBytes x.fmt k
/-- Check 5 on an operand: every byte of a tile area that is read in its range, strides at least the row size. -/
def reachOk (s : State) (o : Op) (b : Bool) (x : Opnd) : Bool :=
  let k := o.mmaK
  if x.remote then x.estr ≥ rowBytes x.fmt k && (x.skind = 0 || x.sstr ≥ scaleBytes x.fmt x.skind k)
  else x.ring || (match s.tob o.team x.handle with
    | some r => (o.rows b - 1) * rowBytes x.fmt k + readBytes x k ≤ r.len * 1024 && (x.skind = 0 || x.scoff + o.rows b * scaleBytes x.fmt x.skind k ≤ r.len * 1024)
    | none => false)

/-- The acceptance checks of a block in the order of Table 9.5: the failing status, or the two operands. -/
def mmaCheck (s : State) (n : Nat) (o : Op) : Except Nat (Opnd × Opnd) :=
  let dim (x : Nat) : Bool := 64 ≤ x && x ≤ 1024 && x % 64 = 0
  let side (b : Bool) : Bool :=
    if o.isRemote b then o.handleOf b = 0 && remoteOk (o.desc b) else (o.desc b).all (· = 0)
  if !(dim o.mmaM && dim o.mmaN && 64 ≤ o.mmaK && o.mmaK ≤ 2 ^ 24 && o.mmaK % 64 = 0) then .error 0x21
  else if o.mmaM / 64 * (o.mmaN / 64) > 16 ∨ o.acc0 + o.mmaM / 64 * (o.mmaN / 64) > (s.team o.team).nacc then .error 0x22
  else if o.mflags ≥ 8 ∨ field o.block 0x53 5 ≠ 0 ∨ !side false ∨ !side true then .error 0x23
  else match s.opnd n o false, s.opnd n o true with
    | some a, some b =>
      if !pairOk a b then .error 0x24
      else if !(s.reachOk o false a && s.reachOk o true b) then .error 0x25
      else if a.ring && b.ring && a.handle = b.handle then .error 0x26
      else .ok (a, b)
    | _, _ => .error 0x23

/-- An operation completes with a status and its final count; its token follows (R35). -/
def finishOp (s : State) (n : Nat) (o : Op) (status res : Nat) : State := s.setOp n { o with st := .completed (tokenValue status res) }
/-- A record takes its number and waits to be posted to the trap queue of a context (R408). -/
def postRecord (s : State) (k : Nat) (r : TrapRecord) : State :=
  s.modContext k fun c => { c with post := c.post ++ [{ r with tseq := c.tseq }], tseq := if c.tseq + 1 ≥ 2 ^ 32 then 1 else c.tseq + 1 }
/-- An engine record (Tables 17.2 and 17.3). -/
def engineRecord (s : State) (o : Op) (cause : Nat) (faddr : Dword) : TrapRecord :=
  let tm := s.team o.team
  { kind := 2, cause, arg := o.tok, pkg := (s.pkg o.core.pkg).num, die := o.core.die, core := o.core.core, lane := o.issuer.lane,
    wave := o.wnum, tx := tm.x, ty := tm.y, tz := tm.z, fpc := o.epc, aux := o.off.toNat % 2 ^ 32, faddr }

/-- Writes `KDONE` and `FCAUSE` back to the parameter block (R193, R199). -/
def writeBlock (s : State) (o : Op) (kdone fcause : Nat) : State :=
  let a := o.off.toNat
  let s := s.agentStore (s.opEv o) (.scr o.team (a + 0xC)) (leBytes kdone 4)
  s.agentStore (s.opEv o) (.scr o.team (a + 0x50)) (leBytes fcause 1)

-- operand rows

/-- The bytes a pending operation reads of a range: undefined ones where the range was written meanwhile (R197). -/
def rangeBytes (o : Op) (b : Nat) (x : Tob) (off n : Nat) : List Byte :=
  match Map.find o.taint b with
  | some k => (List.range n).map fun j => Config.freeByte k (off + j)
  | none => (List.range n).map fun j => x.byte (off + j)
/-- Poison among the bytes of a range (Table 17.11). -/
def rangePoison (x : Tob) (off n : Nat) : Bool := x.poisoned.any fun u => u < off + n && off < u + 8

/-- A remote fetch of the MX path (R198). -/
def remoteRead (s : State) (o : Op) (va : Dword) (n : Nat) : State × Except Stop (List Byte) :=
  let p := o.core.pkg
  let root := s.ctxRoot o.ctx
  if s.vaLeased p root va n then (s, .error none)
  else match s.agentRead { s.opEv o with ord := .rlx, scp := some .core } p root (some [o.ctx]) va n with
    | (s, .ok bs) => (s, .ok bs)
    | (s, .error e) => (s, .error (some e))

/-- Stretches read one after the other. -/
def readStretches (s : State) (rd : State → Nat → Nat → State × Except Stop (List Byte)) : List (Nat × Nat) → State × Except Stop (List Byte)
  | [] => (s, .ok [])
  | (a, n) :: xs =>
    match rd s a n with
    | (s, .error e) => (s, .error e)
    | (s, .ok bs) =>
      match readStretches s rd xs with
      | (s, .error e) => (s, .error e)
      | (s, .ok cs) => (s, .ok (bs ++ cs))

/-- One row of an operand for one chunk, in the layout for K = 64 with its scales behind its elements: element stretches and scales from byte offsets of
the two areas. Only the leading planes of a `.bpiP` row are read (R188). -/
def readRow (s : State) (x : Opnd) (k kc : Nat) (elem scale : State → Nat → Nat → State × Except Stop (List Byte)) : State × Except Stop (List Byte) :=
  let es := elemStretches x.fmt x.pf k kc
  let es := if bpiPlanes x.fmt > 0 then es.take x.planes else es
  match readStretches s elem es with
  | (s, .error e) => (s, .error e)
  | (s, .ok bs) =>
    let bs := bs ++ List.replicate (rowBytes x.fmt 64 - bs.length) 0
    let n := scaleBytes x.fmt x.skind 64
    if n = 0 then (s, .ok bs)
    else match scale s (n * kc) n with
      | (s, .error e) => (s, .error e)
      | (s, .ok cs) => (s, .ok (bs ++ cs))

/-- The rows of a stretch of a range: a tile area, or one slot of a ring from `base` (R188, R189). -/
def rangeRows (s : State) (o : Op) (x : Opnd) (base k kc rows : Nat) : Except Stop (List (List Byte)) :=
  match s.tob o.team x.handle with
  | none => .error none
  | some r =>
    let rd (area : Nat) : State → Nat → Nat → State × Except Stop (List Byte) := fun s a n =>
      if rangePoison r (area + a) n then (s, .error (some (.poison, 0, 0))) else (s, .ok (rangeBytes o x.handle r (area + a) n))
    (List.range rows).mapM fun i =>
      (s.readRow x k kc (rd (base + i * rowBytes x.fmt k)) (rd (base + x.scoff + i * scaleBytes x.fmt x.skind k))).2

/-- The rows of a remote operand for one chunk, in ascending order (R198, R217). -/
def remoteRows (s : State) (o : Op) (x : Opnd) (kc : Nat) : List Nat → State × Except Stop (List (List Byte))
  | [] => (s, .ok [])
  | i :: is =>
    let rd (base : Dword) (str : Nat) : State → Nat → Nat → State × Except Stop (List Byte) := fun s a n =>
      s.remoteRead o (base + BitVec.ofNat 64 (i * str + a)) n
    match s.readRow x o.mmaK kc (rd x.ebase x.estr) (rd x.sbase x.sstr) with
    | (s, .error e) => (s, .error e)
    | (s, .ok r) =>
      match s.remoteRows o x kc is with
      | (s, .error e) => (s, .error e)
      | (s, .ok rs) => (s, .ok (r :: rs))

/-- The rows of an operand that no ring carries, for one chunk. -/
def fetchRows (s : State) (o : Op) (b : Bool) (x : Opnd) (kc : Nat) : State × Except Stop (List (List Byte)) :=
  if x.remote then s.remoteRows o x kc (List.range (o.rows b)) else (s, s.rangeRows o x 0 o.mmaK kc (o.rows b))

/-- The operands that no ring carries, staged for chunk `done` (R198): none of them when it already is. A fault names its operand. -/
def stageFixed (s : State) (n : Nat) (o : Op) (a b : Opnd) : State × Except (Stop × Bool) Op :=
  let one (s : State) (o : Op) (side : Bool) (x : Opnd) : State × Except (Stop × Bool) Op :=
    if x.ring || (o.staged side).length ≥ o.rows side then (s, .ok o)
    else match s.fetchRows o side x o.done with
      | (s, .error e) => (s, .error (e, side))
      | (s, .ok rs) => (s, .ok (o.stage side rs))
  match one s o false a with
  | (s, .error e) => (s, .error e)
  | (s, .ok o) =>
    match one s o true b with
    | (s, .error e) => (s, .error e)
    | (s, .ok o) => (s.setOp n o, .ok o)

/-- Adds the staged chunk to every tile of C (R195). -/
def addStaged (s : State) (n : Nat) (o : Op) (a b : Opnd) : State × Op :=
  let cols := o.mmaN / 64
  let (s, f) := (List.range (o.mmaM / 64 * cols)).foldl (fun (acc : State × Flags) q =>
    let (s, f) := acc
    let k := o.acc0 + q
    let (x, f') := (Map.getD (s.team o.team).tiles k {}).addChunk a b o.sat ((o.rowsA.drop (64 * (q / cols))).take 64) ((o.rowsB.drop (64 * (q % cols))).take 64)
    (s.modTeam o.team fun t => { t with tiles := Map.set t.tiles k x }, f ||| f')) (s, o.flags)
  let o := { o with done := o.done + 1, rowsA := [], rowsB := [], flags := f }
  (s.setOp n o, o)

/-- Runs chunks that need no ring until the last, or to the one that stops. -/
def runChunks (s : State) (n : Nat) (a b : Opnd) : Nat → Op → State × Op × Option (Stop × Bool)
  | 0, o => (s, o, none)
  | fuel + 1, o =>
    if o.done ≥ o.mmaK / 64 then (s, o, none)
    else match s.stageFixed n o a b with
      | (s, .error e) => (s, o, some e)
      | (s, .ok o) =>
        let (s, o) := s.addStaged n o a b
        s.runChunks n a b fuel o

/-- A word of the team that waits for a tile and was issued before number `before` (R183). -/
def placeBefore (s : State) (tm k before : Nat) : Bool :=
  s.threads.any fun (t, th) => s.teamOf t = tm && !th.exited && th.place.elim false fun (n, j, pc) => n < before && j = k && th.pc = pc
/-- An earlier pending operation of the team, or a word that waits for a tile, keeps an operation from starting: it shares a tile or a ring (R183, R220). -/
def mmaHeld (s : State) (n : Nat) (o : Op) (a b : Opnd) : Bool :=
  let rings := (if a.ring then [a.handle] else []) ++ (if b.ring then [b.handle] else [])
  o.tiles.any (fun k => s.placeBefore o.team k n) || s.ops.any fun (m, q) => m < n && q.team = o.team && q.pending &&
    (q.tiles.any o.tiles.contains || (q.kind = .mma && rings.any q.handles.contains))

/-- The least time of an operation (R204). -/
def mmaTime (s : State) (o : Op) (a b : Opnd) : Nat :=
  mmaCycles o.mmaM o.mmaN o.mmaK (macRate a.fmt a.planes b.fmt b.planes) (((List.range 16).filter ((s.core o.core).fence.testBit ·)).length)

/-- An accepted operation whose team is on its core, with its operands. -/
def mmaAccepted (s : State) (n : Nat) : Option (Op × Opnd × Opnd) :=
  match s.op n with
  | some o =>
    if o.kind = .mma && o.st = .active && (s.team o.team).onCore then
      match s.opnd n o false, s.opnd n o true with
      | some a, some b => some (o, a, b)
      | _, _ => none
    else none
  | none => none
/-- A matrix operation that has started, with its operands. -/
def mmaActive (s : State) (n : Nat) : Option (Op × Opnd × Opnd) :=
  match s.mmaAccepted n with
  | some (o, a, b) => if o.startAt.isSome then some (o, a, b) else none
  | none => none

/-- The ring whose tile is to be consumed next for chunk `done`: of A before B (R191). -/
def nextSide (o : Op) (a : Opnd) : Bool := !(a.ring && o.rowsA.length < o.mmaM)
/-- A started operation that waits for a stream operand; it blocks no other team (R194). -/
def mmaWaits (s : State) (o : Op) (a b : Opnd) : Bool :=
  let x := if nextSide o a then b else a
  x.ring && o.done < o.mmaK / 64 && (s.tob o.team x.handle).elim true fun r => r.cpos ≥ r.ppos
/-- The matrix unit of a core works on an operation (R204). -/
def mmaOccupied (s : State) (c : CoreId) : Bool :=
  s.ops.any fun (n, o) => o.core = c && (s.mmaActive n).elim false fun (o, a, b) => !s.mmaWaits o a b
/-- The accepted operations of a core that may start, each with its team's slot: the oldest of a team that has not started, which no earlier operation
holds (R183, R194). -/
def mmaWaiting (s : State) (c : CoreId) : List (Nat × Nat) :=
  s.ops.filterMap fun (n, o) =>
    if o.core ≠ c || o.startAt.isSome || s.ops.any (fun (m, q) => m < n && q.kind = .mma && q.team = o.team && q.st = .active && q.startAt.isNone) then none
    else (s.mmaAccepted n).bind fun (o, a, b) => if s.mmaHeld n o a b then none else some ((s.team o.team).slot, n)
/-- Operations start while the unit is free: one per team in turn, in ascending order of team slot (R194). -/
def startOps (s : State) (c : CoreId) : Nat → State
  | 0 => s
  | fuel + 1 =>
    if s.mmaOccupied c then s
    else
      let turn := (s.core c).turn
      match (s.mmaWaiting c).foldl (fun (m : Option (Nat × Nat)) x =>
        let rank (y : Nat × Nat) : Nat := (y.1 + 63 - turn) % 64
        match m with
        | none => some x
        | some y => if rank x < rank y then some x else m) none with
      | none => s
      | some (slot, n) =>
        let now := s.now c
        let s := match s.op n with | some o => s.setOp n { o with startAt := some now } | none => s
        (s.modCore c fun x => { x with turn := slot, workSince := now }).startOps c fuel
/-- Starts what may start on a core: after every step that frees the unit or a tile. -/
def startNext (s : State) (c : CoreId) : State := s.startOps c 9

/-- The end of an operation without a fault: block, token (R199). -/
def mmaFinish (s : State) (n : Nat) (o : Op) (status : Nat) : State := ((s.writeBlock o o.done 0).finishOp n o status o.done).startNext o.core

/-- Operations the matrix unit of a core holds: those whose teams are there (R194). -/
def mmaHeldBy (s : State) (c : CoreId) : Nat := (s.ops.filter fun (_, o) => o.kind = .mma && o.core = c && o.pending && (s.team o.team).onCore).length

/-- The tiles read for a chunk that is not added stay in their rings (R219), as far as the producer has not written their slots anew. -/
def returnTiles (s : State) (o : Op) (a b : Opnd) : State :=
  let back (s : State) (x : Opnd) (n : Nat) : State :=
    if x.ring then s.modTob o.team x.handle fun r => { r with cpos := max (r.cpos - n) (r.ppos - r.slots) } else s
  back (back s a (o.rowsA.length / 64)) b (o.rowsB.length / 64)
/-- The next tile of chunk `done` (R190, R191): the state and operation with it staged, and whether it completes the chunk, which is added then; or the
operation that its position refuses. -/
def consumeTile (s : State) (n : Nat) (o : Op) (a b : Opnd) : Except String (State × Op) :=
  if o.done ≥ o.mmaK / 64 ∨ !(a.ring || b.ring) then .error "no tile is to be consumed"
  else match s.stageFixed n o a b with
    | (_, .error _) => .error "an operand of the chunk cannot be fetched"
    | (s, .ok o) =>
      let side := nextSide o a
      let x := if side then b else a
      match s.tob o.team x.handle with
      | none => .error "the handle is unbound"
      | some r =>
        if r.cpos ≥ r.ppos then .error "the ring is empty"
        else if r.cpos ≥ 2 ^ 32 - 1 then
          let o := { o with rowsA := [], rowsB := [] }
          .ok (s.mmaFinish n o 0x27, { o with st := .completed 0 })
        else match s.rangeRows o x (r.cpos % r.slots * slotBytes x.fmt x.skind x.scoff) 64 0 64 with
          | .error _ => .error "the slot is poisoned"
          | .ok rs =>
            let s := s.modTob o.team x.handle fun y => { y with cpos := y.cpos + 1 }
            let o := o.stage side (o.staged side ++ rs)
            let s := s.setOp n o
            if o.rowsA.length ≥ o.mmaM ∧ o.rowsB.length ≥ o.mmaN then .ok (s.addStaged n o a b) else .ok (s, o)

end State

/-- `MMA` (R215): a full queue keeps the word in its issue slot (R194). -/
def execMma (h : Hdr) (tok : Nat) (off : SrcD) (s : State) : Outcome :=
  let i : Instr := .mma h tok off
  let m := microOf i fun _ => ⟨0, 0⟩
  .next (s.issueUnless i (fun s => (s.performer s.group i).isSome && s.mmaHeldBy s.focus ≥ 8) fun s g pc =>
    match s.performer g i with
    | none => s
    | some t =>
      let npc := pc + BitVec.ofNat 64 i.size
      if s.holdsLease t then s.breakLease t 2
      else match s.readOps t m.srcs with
        | .error c => s.defer t (s.trapAt t c pc npc 0 0 false)
        | .ok xs =>
          let a := (arg xs 0).toNat
          let tm := s.teamOf t
          if a % 8 ≠ 0 then s.defer t (s.trapAt t .align pc npc 0 (arg xs 0) false)
          else if a + 96 > s.scrSize tm then s.defer t (s.trapAt t .xlat pc npc 0 (arg xs 0) false)
          else
            let s := s.tookReads t m.srcs
            let (n, s) := s.freshId
            let o : Op := { kind := .mma, issuer := t, team := tm, ctx := s.ctxOf t, grid := (s.team tm).grid, core := t.wave.core, wave := t.wave, wnum := (s.wave t.wave).num,
                            tok, off := arg xs 0, epc := pc, at_ := s.now t.wave.core }
            s.startToken n o)

/-- `MMA_ACCEPT` (R193, R218). -/
def execMmaAccept (n : Nat) (s : State) : Outcome :=
  match s.op n with
  | some o =>
    if o.kind ≠ .mma ∨ o.st ≠ .queued ∨ !(s.team o.team).onCore ∨ !s.running o.core.pkg then .refused (.notEnabled "no queued matrix operation")
    else if s.ops.any fun (m, q) => m < n && q.team = o.team && q.kind = .mma && q.st = .queued then
      .refused (.notEnabled "an earlier operation of the team is not accepted yet")
    else
      let o := { o with block := s.scrBytes o.team o.off.toNat 96 }
      match s.mmaCheck n o with
      | .error st => .next (s.finishOp n o st o.kdone)
      | .ok (a, b) =>
        if o.kdone ≥ o.mmaK / 64 then .next ((s.writeBlock o (o.mmaK / 64) 0).finishOp n o 0 (o.mmaK / 64))
        else
          let hs := ((if a.remote then [] else [a.handle]) ++ (if b.remote then [] else [b.handle])).eraseDups
          .next ((s.setOp n { o with st := .active, done := o.kdone, tiles := o.cTiles, at_ := s.now o.core, handles := hs }).startNext o.core)
  | none => .refused (.notEnabled "no such operation")

/-- `STREAM_TILE_CONSUME` (R190, R191): the next tile of chunk `done`, of A before B. -/
def execStreamTileConsume (n : Nat) (s : State) : Outcome :=
  match s.mmaActive n with
  | none => .refused (.notEnabled "no matrix operation that may go on")
  | some (o, a, b) =>
    match s.consumeTile n o a b with
    | .error e => .refused (.notEnabled e)
    | .ok (s, o) => .next (s.startNext o.core)

/-- `MMA_COMPLETE` (R199, R202): the rest of the operation, not before its least time. -/
def execMmaComplete (n : Nat) (s : State) : Outcome :=
  match s.mmaActive n with
  | none => .refused (.notEnabled "no matrix operation that may go on")
  | some (o, a, b) =>
    if s.now o.core < o.startAt.getD 0 + s.mmaTime o a b then .refused (.notEnabled "the operation is under way")
    else if (a.ring || b.ring) && o.done < o.mmaK / 64 then .refused (.notEnabled "a stream operand is awaited")
    else match s.runChunks n a b (o.mmaK / 64 + 1) o with
      | (_, _, some _) => .refused (.notEnabled "an operand cannot be fetched")
      | (s, o, none) => .next (s.mmaFinish n o 0)

/-- A stop of a matrix operation on a fault (R199): its block, the record, its token. -/
def State.mmaStop (s : State) (n : Nat) (o : Op) (a b : Opnd) (f : AFault) (side : Bool) : State :=
  let (c, lvl, va) := f
  let s := (s.returnTiles o a b).writeBlock o o.done c.code
  let off := o.off.toNat
  let s := s.agentStore (s.opEv o) (.scr o.team (off + 0x51)) (leBytes (if side then 1 else 0) 1)
  let s := s.agentStore (s.opEv o) (.scr o.team (off + 0x52)) (leBytes (if c = .walkf then lvl else 0) 1)
  let s := s.agentStore (s.opEv o) (.scr o.team (off + 0x58)) (leBytes va.toNat 8)
  let s := s.postRecord o.ctx (s.engineRecord o Cause.matres.code va)
  (s.finishOp n { o with rowsA := [], rowsB := [] } 0x0C o.done).startNext o.core
/-- `MMA_FAULT_STOP` (R199): the chunks before the faulting one are added. A poisoned operand buffer stops the operation in the same way (log entry 22). -/
def execMmaFaultStop (n : Nat) (s : State) : Outcome :=
  match s.mmaActive n with
  | none => .refused (.notEnabled "no matrix operation that may go on")
  | some (o, a, b) =>
    let slotFault (s : State) (o : Op) (side : Bool) (x : Opnd) : Option (Stop × Bool) :=
      match s.tob o.team x.handle with
      | some r =>
        if x.ring && r.cpos < r.ppos then
          (match s.rangeRows o x (r.cpos % r.slots * slotBytes x.fmt x.skind x.scoff) 64 0 64 with | .error e => some (e, side) | .ok _ => none)
        else none
      | none => none
    let (s, o, e) :=
      if a.ring || b.ring then
        (match s.stageFixed n o a b with
          | (s, .error e) => (s, o, some e)
          | (s, .ok o) => (s, o, slotFault s o (State.nextSide o a) (if State.nextSide o a then b else a)))
      else s.runChunks n a b (o.mmaK / 64 + 1) o
    match e with
    | some (some f, side) => .next (s.mmaStop n o a b f side)
    | _ => .refused (.notEnabled "no operand faults")

-- pattern products (R201 to R203)

namespace State

/-- Fences sub-arrays of a core; the fifth retires its matrix unit (R203). -/
def fenceArrays (s : State) (c : CoreId) (bad : Nat) : State :=
  let f := ((s.core c).fence ||| bad) % 2 ^ 16
  s.modCore c fun x => { x with fence := f, retired := x.retired || ((List.range 16).filter f.testBit).length ≥ 5 }
/-- A bit mask of numbers. -/
def maskOf (ns : List Nat) : Nat := ns.eraseDups.foldl (fun m k => m + 2 ^ k) 0
/-- The failure of the pattern product that follows an operation: its tiles are poisoned, its token takes status 0x0A, the context gets an error
record (R202). -/
def failProduct (s : State) (n : Nat) (o : Op) : State :=
  let s := s.modTeam o.team fun t =>
    { t with tiles := o.tiles.foldl (fun m k => Map.set m k { Map.getD m k {} with poison := true }) t.tiles }
  let s := s.postRecord o.ctx { kind := 3, cause := Cause.poison.code, tflg := 0x20, arg := o.tiles.foldl min 15, pkg := (s.pkg o.core.pkg).num,
                                die := o.core.die, aux := maskOf o.tiles }
  s.finishOp n o 0x0A o.done
/-- An operation that the matrix unit worked on and whose pattern product has not been run (R202). -/
def Op.untested (o : Op) : Bool := o.kind = .mma && o.tiles ≠ [] && !o.pending && !o.tested
/-- A pattern product on the unfenced sub-arrays of a core, of which those in `bad` mismatch: it follows the operations that ended since the last one. -/
def patternRun (s : State) (c : CoreId) (bad : Nat) : State :=
  let new := (List.range 16).filter fun k => bad.testBit k && !(s.core c).fence.testBit k
  let now := s.now c
  let s := s.modCore c fun x => { x with workSince := now, calls := [] }
  let s := if new = [] then s else s.fenceArrays c (maskOf new)
  s.ops.foldl (fun s (n, o) =>
    if o.core = c && Op.untested o then (if new = [] then s.setOp n { o with tested := true } else s.failProduct n { o with tested := true }) else s) s
/-- A pattern product on the sub-arrays a corrected error calls one for (R201). -/
def patternCalled (s : State) (c : CoreId) (bad : Nat) : State :=
  let new := (s.core c).calls.filter fun k => bad.testBit k && !(s.core c).fence.testBit k
  let s := s.modCore c fun x => { x with calls := [] }
  if new = [] then s else s.fenceArrays c (maskOf new)

end State

/-- `PATTERN_PRODUCT` (R201): after an operation, after 65,536 cycles of matrix work, or on the sub-arrays of corrected errors. -/
def execPatternProduct (c : CoreId) (bad : Nat) (s : State) : Outcome :=
  if (s.mmaOccupied c && (s.core c).workSince + 65536 ≤ s.now c) ∨ s.ops.any fun (_, o) => o.core = c && State.Op.untested o then .next (s.patternRun c bad)
  else if (s.core c).calls ≠ [] then .next (s.patternCalled c bad)
  else .refused (.notEnabled "no matrix work calls for a pattern product")

-- MWAIT, MSTAT (R221, R222)

/-- `MWAIT`: each active thread waits for the matrix operations that its team has issued. -/
def execMwait (h : Hdr) (s : State) : Outcome :=
  .next (s.issue (.mwait h) fun s g _ =>
    let act := g.filter fun t => (s.thread t).passes h.guard
    let s := act.foldl (fun (s : State) t =>
      let ns : List Nat := (s.ops.filter fun (_, o) => o.kind = .mma && o.team = s.teamOf t && o.pending).map (·.1)
      if ns = [] then s else s.stopThread t (.blocked (.mwait ns))) s
    s.endRunIf act)
def execMwaitEnd (tm : Nat) (s : State) : Outcome :=
  let ts := s.blockedIn tm fun on => match on with
    | .mwait ns => ns.all fun n => (s.op n).elim true fun o => !o.pending
    | _ => false
  if ts = [] then .refused (.notEnabled "no MWAIT of the team has ended") else .next (s.wakeAll ts)

/-- A status word of the matrix unit (Table 9.6). -/
def mstatWord (s : State) (t : ThreadId) (n : Nat) : Word :=
  let c := t.wave.core
  let x := s.core c
  BitVec.ofNat 32 (match n with
    | 0 => x.fence % 2 ^ 16 + (if x.retired then 2 ^ 16 else 0)
    | 1 => s.mmaHeldBy c + (s.ops.filter fun (_, o) => o.kind = .mma && o.team = s.teamOf t && o.pending).length * 2 ^ 8
    | 2 => (s.team (s.teamOf t)).nacc
    | _ => s.largestFree c)
def execMstat (h : Hdr) (d : Dst) (n : Nat) (s : State) : Outcome :=
  .next (s.valueWord (.mstat h d n) fun s t => mstatWord s t n)

-- MXR (R223 to R225)

/-- The value of element `k` of a fragment row (R223). -/
def fragVal (f : MxrFmt) (ws : List Word) (k : Nat) : FVal :=
  match f with
  | .f16 => fdecode .f16 ((ws.getD (k / 2) 0).toNat / 2 ^ (16 * (k % 2)))
  | .bf16 => fdecode .bf16 ((ws.getD (k / 2) 0).toNat / 2 ^ (16 * (k % 2)))
  | .e4m3 => fdecode .e4m3 ((ws.getD (k / 4) 0).toNat / 2 ^ (8 * (k % 4)))
  | .e5m2 => fdecode .e5m2 ((ws.getD (k / 4) 0).toNat / 2 ^ (8 * (k % 4)))
/-- One row of C after the step (R224): one group of 16 products, unit scales. -/
def fragRow (fa fb : MxrFmt) (sat : Bool) (ra : List Word) (cols : List (List Word)) (cr : List Word) : List (Nat × Flags) :=
  (List.range 32).map fun j =>
    fpStep false sat ((List.range 16).map fun k => (fragVal fa ra k, fragVal fb (cols.getD j []) k)) (.fin ⟨false, 1, 0⟩) (.fin ⟨false, 1, 0⟩) (cr.getD j 0).toNat

namespace State

/-- The words of a span of v registers of a thread. -/
def readSpan (s : State) (t : ThreadId) (n k : Nat) : Except Cause (List Word) :=
  (List.range k).mapM fun j => (s.thread t).readV (s.chkd t) (n + j)

end State

/-- `MXR` (R224, R225): the C span arrives over 8 cycles that begin 16 cycles after issue. -/
def execMxr (h : Hdr) (fa fb : MxrFmt) (sat : Bool) (d a b : Nat) (deadA deadB : Bool) (s : State) : Outcome :=
  let i : Instr := .mxr h fa fb sat d a b deadA deadB
  let na := if fa.wide then 8 else 4
  let nb := if fb.wide then 8 else 4
  .next (s.issue i fun s g pc =>
    let rows := g.map fun t => (t, s.readSpan t a na, s.readSpan t b nb, s.readSpan t d 32)
    let col (l : Nat) : List Word :=
      match rows.find? fun (t, _) => t.lane = l with
      | some (_, _, .ok ws, _) => ws
      | _ => []
    let cols := (List.range 32).map col
    let dead := (if deadA then (List.range na).map (a + ·) else []) ++ (if deadB then (List.range nb).map (b + ·) else [])
    let issued := (s.core s.focus).readyAt - 1
    rows.foldl (fun s (t, ra, rb, rc) =>
      if !(s.thread t).passes h.guard then s
      else match ra, rb, rc with
        | .ok ra, .ok _, .ok rc =>
          let outs := fragRow fa fb sat ra cols rc
          let s := s.modThread t fun th => th.killAll dead
          (List.range 8).foldl (fun s q =>
            let p := s.pendWords t i pc false [] 0
            s.addPend t { p with
              kind := .mxr, due := issued + 16 + q, flags := if q = 0 then outs.foldl (fun f o => f ||| o.2) 0 else 0
              vw := (List.range 4).map fun r => (d + 4 * q + r, BitVec.ofNat 32 (outs.getD (4 * q + r) (0, 0)).1) }) s
        | .error c, _, _ | _, .error c, _ | _, _, .error c => s.defer t (s.trapAt t c pc (pc + 8) 0 0 false)) s)
/-- `MXR_WRITEBACK` (R225). -/
def execMxrWriteback (t : ThreadId) (s : State) : Outcome :=
  let pick (p : Pending) : Bool := p.kind = .mxr && decide (p.due ≤ s.now t.wave.core)
  if (s.thread t).pend.any pick then .next (s.settleThat t pick)
  else .refused (.notEnabled "no MXR result is due")

end Sys2Proof.Machine
end

