-- ==== Sys2Proof/Machine/Accum.lean ====
section
/-! DEFINITION. Accumulator moves (R183, R226 to R228). -/

namespace Sys2Proof.Machine
namespace State

/-- A tile of a team. -/
def tile (s : State) (tm k : Nat) : Tile := Map.getD (s.team tm).tiles k {}
def setTile (s : State) (tm k : Nat) (x : Tile) : State := s.modTeam tm fun t => { t with tiles := Map.set t.tiles k x }
/-- Whether an operation that names a tile, or a word that waits for it, was issued before number `before` and is pending (R183): a matrix operation not
yet accepted may name any tile. -/
def tileBusy (s : State) (tm k before : Nat) : Bool :=
  s.placeBefore tm k before || s.ops.any fun (n, o) => n < before && o.team = tm && o.pending && (o.tiles.contains k || (o.kind = .mma && o.st = .queued))
/-- The place in the issue order that threads hold for the word at an address (R183). -/
def placeOf (s : State) (ts : List ThreadId) (k : Nat) (pc : Dword) : Option Nat :=
  (ts.filterMap fun t => (s.thread t).place.bind fun (n, j, p) => if j = k ∧ p = pc then some n else none).min?
/-- The threads of a team must wait for a tile: they are blocked at the word and keep its place in the issue order (R183). -/
def holdTile (s : State) (tm : Nat) (ts : List ThreadId) (k : Nat) (pc : Dword) : Option State :=
  let own := s.placeOf ts k pc
  if s.tileBusy tm k (own.getD s.nextId) then
    let (n, s) := match own with | some n => (n, s) | none => s.freshId
    some (ts.foldl (fun s t => (s.blockAt t pc (.tile k n)).modThread t fun th => { th with place := some (n, k, pc) }) s)
  else none
/-- The word has issued: its threads hold no place any more, and a matrix operation may start. -/
def leavePlace (s : State) (ts : List ThreadId) : State :=
  if ts.all fun t => (s.thread t).place.isNone then s
  else (ts.foldl (fun s t => s.modThread t fun th => { th with place := none }) s).startNext s.focus

/-- A word performed once per team that names a tile: after the wait of R183. -/
def tileOnce (s : State) (i : Instr) (k : Nat) (f : State → Nat → ThreadId → List ThreadId → Dword → List Dword → State) : State :=
  s.teamOnceAfter i (fun s tm ts pc => s.holdTile tm ts k pc) fun s tm t ts pc xs => (f s tm t ts pc xs).leavePlace ts

end State

/-- `TILE_WAIT_END` (R183): the threads of the word issue it again. -/
def execTileWaitEnd (t : ThreadId) (s : State) : Outcome :=
  match (s.thread t).status with
  | .blocked (.tile k n) =>
    if s.tileBusy (s.teamOf t) k n then .refused (.notEnabled "an operation that names the tile is pending")
    else .next (s.wakeAll (s.blockedIn (s.teamOf t) (· == .tile k n)))
  | _ => .refused (.notEnabled "the thread waits for no tile")

def execAccz (h : Hdr) (k : Nat) (s : State) : Outcome :=
  .next (s.tileOnce (.accz h k) k fun s tm _ _ _ _ => s.setTile tm k { s.tile tm k with data := [], zeroed := true, poison := false })

namespace State

/-- A whole-tile move (R227): checks, then an operation that the threads of the team wait for. -/
def accMove (s : State) (i : Instr) (kind : OpKind) (g : Bool) (k : Nat) : State :=
  s.tileOnce i k fun s tm t ts pc xs =>
    let stride := (arg xs 1).toNat % 2 ^ 32
    let npc := pc + BitVec.ofNat 64 i.size
    if g && s.holdsLease t then s.breakLease t 2
    else if (arg xs 0).toNat % 4 ≠ 0 ∨ stride % 4 ≠ 0 ∨ stride < 256 then s.defer t (s.trapAt t .align pc npc 0 (arg xs 0) false)
    else if kind = .accst && (s.tile tm k).poison then s.defer t (s.trapAt t .poison pc npc 0 0 false)
    else
      let (n, s) := s.freshId
      let o : Op := { kind, issuer := t, team := tm, ctx := s.ctxOf t, grid := (s.team tm).grid, core := t.wave.core, wave := t.wave, wnum := (s.wave t.wave).num, epc := pc,
                      st := .active, tiles := [k], tile := k, addr := arg xs 0, stride, glob := g, at_ := s.now t.wave.core }
      ts.foldl (fun s u => s.stopThread u (.blocked (.accMove n))) (s.startOp n o)

/-- The place of row `r` of a move: a stretch of memory or of the scratchpad. -/
def rowAddr (o : Op) (r : Nat) : Dword := o.addr + BitVec.ofNat 64 (r * o.stride)
/-- The 256 bytes of a row read (R227). -/
def accRead (s : State) (o : Op) (r : Nat) : State × Except Stop (List Byte) :=
  let a := rowAddr o r
  if o.glob then s.remoteRead o a 256
  else if a.toNat + 256 > s.scrSize o.team then (s, .error (some (.xlat, 0, BitVec.ofNat 64 (max a.toNat (s.scrSize o.team)))))
  else if s.poisonAt (.scr o.team a.toNat) 256 then (s, .error (some (.poison, 0, a)))
  else
    let (s, bs) := s.agentLoad (s.opEv o) (.scr o.team a.toNat) 256
    (s, .ok bs)
/-- The 256 bytes of a row stored. -/
def accWrite (s : State) (o : Op) (r : Nat) (bs : List Byte) : State × Except Stop Unit :=
  let a := rowAddr o r
  if o.glob then
    let p := o.core.pkg
    let root := s.ctxRoot o.ctx
    if s.vaLeased p root a 256 then (s, .error none)
    else match s.vaWrite p root (some [o.ctx]) a bs (s.opEv o) with
      | .error e => (s, .error (some e))
      | .ok s => (s, .ok ())
  else if a.toNat + 256 > s.scrSize o.team then (s, .error (some (.xlat, 0, BitVec.ofNat 64 (max a.toNat (s.scrSize o.team)))))
  else (s.agentStore (s.opEv o) (.scr o.team a.toNat) bs, .ok ())
def accReadAll (s : State) (o : Op) : List Nat → State × Except Stop (List Byte)
  | [] => (s, .ok [])
  | r :: rs =>
    match s.accRead o r with
    | (s, .error e) => (s, .error e)
    | (s, .ok bs) =>
      match s.accReadAll o rs with
      | (s, .error e) => (s, .error e)
      | (s, .ok cs) => (s, .ok (bs ++ cs))
/-- Stores rows in ascending order up to the first that stops; `stride` keeps rows apart, so a row done again stores the same bytes. -/
def accWriteAll (s : State) (o : Op) (x : Tile) : List Nat → State × Except Stop Unit
  | [] => (s, .ok ())
  | r :: rs =>
    match s.accWrite o r ((List.range 64).flatMap fun j => leBytes (x.elem (64 * r + j)).toNat 4) with
    | (s, .error e) => (s, .error e)
    | (s, .ok ()) => s.accWriteAll o x rs

/-- The end of a move: its threads become runnable; a fault is deferred on the performing thread. -/
def endMove (s : State) (n : Nat) (o : Op) (e : Option AFault) : State :=
  let s := { s with ops := Map.erase s.ops n }
  let s := (s.wakeAll (s.blockedIn o.team (· == .accMove n))).startNext o.core
  match e with
  | none => s
  | some (c, lvl, fa) => s.defer o.issuer (s.trapAt o.issuer c o.epc (s.thread o.issuer).pc (if c = .walkf then lvl else 0) fa false)

end State

def execAccld (h : Hdr) (g : Bool) (k : Nat) (addr stride : SrcD) (s : State) : Outcome :=
  .next (s.accMove (.accld h g k addr stride) .accld g k)
def execAccst (h : Hdr) (g : Bool) (k : Nat) (addr stride : SrcD) (s : State) : Outcome :=
  .next (s.accMove (.accst h g k addr stride) .accst g k)
/-- `ACC_MOVE_DONE` (R227). -/
def execAccMoveDone (n : Nat) (s : State) : Outcome :=
  match s.op n with
  | some o =>
    if !(o.kind = .accld || o.kind = .accst) || !(s.team o.team).onCore then .refused (.notEnabled "the operation is no accumulator move")
    else if o.kind = .accld then
      match s.accReadAll o (List.range 64) with
      | (_, .error none) => .refused (.notEnabled "a line is leased")
      | (s, .error (some e)) => .next (s.endMove n o (some e))
      | (s, .ok bs) =>
        let x : Tile := { s.tile o.team o.tile with data := (List.range 4096).zip (wordsOf bs), poison := false }
        .next ((s.setTile o.team o.tile x).endMove n o none)
    else
      match s.accWriteAll o (s.tile o.team o.tile) (List.range 64) with
      | (_, .error none) => .refused (.notEnabled "a line is leased")
      | (s, .error (some e)) => .next (s.endMove n o (some e))
      | (s, .ok ()) => .next (s.endMove n o none)
  | none => .refused (.notEnabled "no such operation")

namespace State

/-- A row move of `ACCMV`, lane by lane after the wait of R183 (R228): `f` gets the state before the word's dead marks, and the one after them (R66). -/
def accRow (s : State) (i : Instr) (k : Nat) (f : State → State → ThreadId → Nat → State × Option Cause) : State :=
  s.issue i fun s g pc =>
    let act := g.filter fun t => activeIn i (s.thread t)
    let vs := s.memberVals g i
    let (s, ts) := (s.teamsOf act).foldl (fun (acc : State × List ThreadId) (n, ts) =>
      match acc.1.holdTile n ts k pc with
      | some s => (s, acc.2)
      | none => (acc.1, acc.2 ++ ts)) (s, [])
    State.leavePlace (ts := ts) <| vs.foldl (fun s (t, _, e) =>
      if !ts.contains t then s
      else match e with
        | .error c => s.defer t (s.trapAt t c pc (pc + BitVec.ofNat 64 i.size) 0 0 false)
        | .ok xs =>
          match f s (s.tookReads t (microOf i fun _ => ⟨0, 0⟩).srcs) t ((arg xs 0).toNat % 64) with
          | (s, none) => s
          | (_, some c) => s.defer t (s.trapAt t c pc (pc + BitVec.ofNat 64 i.size) 0 0 false)) s

end State

def execAccmvRd (h : Hdr) (d : Nat) (k : Nat) (r : SrcD) (s : State) : Outcome :=
  .next (s.accRow (.accmvRd h d k r) k fun _ s t row =>
    let x := s.tile (s.teamOf t) k
    if x.poison then (s, some .poison)
    else (s.modThread t (·.writeVs d [x.elem (64 * row + t.lane), x.elem (64 * row + t.lane + 32)]), none))
def execAccmvWr (h : Hdr) (k : Nat) (a : Nat) (dead : Bool) (r : SrcD) (s : State) : Outcome :=
  .next (s.accRow (.accmvWr h k a dead r) k fun s0 s t row =>
    match s0.readSpan t a 2 with
    | .error c => (s, some c)
    | .ok ws =>
      let tm := s.teamOf t
      let x := ((s.tile tm k).setElem (64 * row + t.lane) (ws.getD 0 0)).setElem (64 * row + t.lane + 32) (ws.getD 1 0)
      let s := s.setTile tm k x
      (if dead then s.modThread t fun th => th.killAll [a, a + 1] else s, none))

end Sys2Proof.Machine
end

