-- ==== Sys2Proof/Machine/Engines.lean ====
section
/-! DEFINITION. What every engine operation shares: its issue, the endpoints it reads and writes, its descriptor's write-back, its stop on a fault, and the
completion of its token (R35, R298 to R301). -/

namespace Sys2Proof.Machine

/-- Operations of hub-die engines (R299). -/
def OpKind.hub : OpKind → Bool
  | .kvx | .coll | .cgrp | .cgrpFree => true
  | _ => false
def OpKind.copy : OpKind → Bool
  | .cpy | .cpyi => true
  | _ => false

namespace Op

/-- Keys the accesses of an operation may name (R298, R387). -/
def keys (o : Op) : Option (List Nat) := some (if o.key0 then [o.ctx, 0] else [o.ctx])

end Op

namespace State

/-- Pending operations of a core's queue (R299). -/
def queueHeld (s : State) (c : CoreId) (hub : Bool) : Nat :=
  (s.ops.filter fun (_, o) => o.core = c && o.pending && (o.glob || (s.team o.team).onCore) && (if hub then o.kind.hub else o.kind.copy)).length
/-- A new operation of a thread. -/
def newOp (s : State) (t : ThreadId) (kind : OpKind) (tok : Nat) (off pc : Dword) (block : List Byte) : Op :=
  let host := isHost t
  { kind, issuer := t, team := s.teamOf t, ctx := s.ctxOf t, grid := (s.team (s.teamOf t)).grid, core := t.wave.core, wave := t.wave,
    wnum := (s.wave t.wave).num, tok, off, epc := pc,
    block, glob := host, root := s.rootOf t, key0 := host && priv (s.host t.wave.core) ≥ 1, at_ := s.now t.wave.core }

/-- A word that starts an engine operation (R298): performed by the highest-numbered active lane, its token marked pending. `size` is the size of the
descriptor, none where SA holds a handle. -/
def engineWord (s : State) (i : Instr) (kind : OpKind) (tok : Nat) (x : SrcD) (size : Option Nat) : State :=
  s.issueUnless i (fun s => (s.performer s.group i).isSome && s.queueHeld s.focus kind.hub ≥ (if kind.hub then 8 else 16)) fun s g pc =>
    match s.performer g i with
    | none => s
    | some t =>
      let npc := pc + BitVec.ofNat 64 i.size
      let ty : OTy := if isHost t && size.isSome then .b64 else .b32
      if s.holdsLease t then s.breakLease t 2
      else match s.readOp t x.src ty with
        | .error c => s.defer t (s.trapAt t c pc npc 0 0 false)
        | .ok a =>
          let start (s : State) (block : List Byte) : State :=
            let s := s.tookReads t [(x, ty)]
            let (n, s) := s.freshId
            s.startToken n (s.newOp t kind tok a pc block)
          match size with
          | none => start s []
          | some z =>
            if a.toNat % 8 ≠ 0 then s.defer t (s.trapAt t .align pc npc 0 a false)
            else if isHost t then
              (match s.threadRead t a z with
                | (s, .error (c, n, fa)) => s.defer t (s.trapAt t c pc npc n fa false)
                | (s, .ok bs) => start s bs)
            else if a.toNat + z > s.scrSize (s.teamOf t) then s.defer t (s.trapAt t .xlat pc npc 0 a false)
            else start s []

/-- The descriptor of an operation, read at its acceptance; a host thread's was read when its word was checked (R193, R298). -/
def readDesc (s : State) (o : Op) (z : Nat) : List Byte := if o.glob then o.block else s.scrBytes o.team o.off.toNat z
/-- Writes of an operation's engine to its team's scratchpad: while the team is spooled the hub die holds them (R300, R368). -/
def putScr (s : State) (o : Op) (off : Nat) (bs : List Byte) : State :=
  let tm := o.team
  if (s.team tm).onCore then s.agentStore (s.opEv o) (.scr tm off) bs else s.modTeam tm fun x => { x with held := x.held ++ [(off, bs)] }
/-- Writes bytes of a descriptor back (R298). -/
def writeDesc (s : State) (o : Op) (at_ : Nat) (bs : List Byte) : State :=
  if o.glob then (s.vaWrite o.core.pkg o.root o.keys (o.off + BitVec.ofNat 64 at_) bs (s.opEv o)).toOption.getD s
  else s.putScr o (o.off.toNat + at_) bs

/-- Whether the team of an operation is on its core; a host thread always is. -/
def opHome (s : State) (o : Op) : Bool := o.glob || (s.team o.team).onCore

-- endpoints (Tables 12.8 and 12.9)

/-- An endpoint of a copy: its space by number and the handle of a TOB range. -/
structure End where
  sp : Nat
  hnd : Nat := 0
  /-- offset of the slot of a ring -/
  slot : Nat := 0
  deriving DecidableEq, Repr

/-- The team and offset a scratchpad address reaches, `.l` or `.c` (R43). -/
def scrPlace (s : State) (o : Op) (sp : Nat) (a : Dword) : Option (Nat × Nat) :=
  if sp = 1 then some (o.team, a.toNat)
  else if a.toNat / 2 ^ 25 ≠ 0 then none
  else (s.clusterTeam o.team (a.toNat / 2 ^ 20)).map fun n => (n, a.toNat % 2 ^ 20)
/-- The first byte of a scratchpad stretch outside its allocation, as an offset from its start. -/
def scrOver (s : State) (tm off n : Nat) : Option Nat := if off + n ≤ s.scrSize tm then none else some (s.scrSize tm - off)

/-- `n` bytes of an endpoint (R303, R304). -/
def endRead (s : State) (o : Op) (e : End) (a : Dword) (n : Nat) : State × Except Stop (List Byte) :=
  match e.sp with
  | 0 | 3 =>
    let p := o.core.pkg
    if s.vaLeased p o.root a n then (s, .error none)
    else match s.agentRead (s.opEv o) p o.root o.keys a n with
      | (s, .ok bs) => (s, .ok bs)
      | (s, .error f) => (s, .error (some f))
  | 1 | 2 =>
    match s.scrPlace o e.sp a with
    | none => (s, .error (some (.xlat, 0, a)))
    | some (tm, off) =>
      match s.scrOver tm off n with
      | some k => (s, .error (some (.xlat, 0, a + BitVec.ofNat 64 k)))
      | none => if s.poisonAt (.scr tm off) n then (s, .error (some (.poison, 0, a)))
        else
          let (s, bs) := s.agentLoad (s.opEv o) (.scr tm off) n
          (s, .ok bs)
  | _ =>
    match s.tob o.team e.hnd with
    | none => (s, .error none)
    | some x =>
      if rangePoison x (e.slot + a.toNat) n then (s, .error (some (.poison, 0, a)))
      else (s, .ok ((List.range n).map fun k => x.byte (e.slot + a.toNat + k)))
/-- A write of an endpoint. -/
def endWrite (s : State) (o : Op) (e : End) (a : Dword) (bs : List Byte) : State × Except Stop Unit :=
  let n := bs.length
  match e.sp with
  | 0 | 3 =>
    let p := o.core.pkg
    if s.vaLeased p o.root a n then (s, .error none)
    else match s.vaWrite p o.root o.keys a bs (s.opEv o) with
      | .ok s => (s, .ok ())
      | .error f => (s, .error (some f))
  | 1 | 2 =>
    match s.scrPlace o e.sp a with
    | none => (s, .error (some (.xlat, 0, a)))
    | some (tm, off) =>
      match s.scrOver tm off n with
      | some k => (s, .error (some (.xlat, 0, a + BitVec.ofNat 64 k)))
      | none => (s.agentStore (s.opEv o) (.scr tm off) bs, .ok ())
  | _ => (s.setTob o.team e.hnd (e.slot + a.toNat) bs, .ok ())

-- stops (R301)

/-- Where the fault fields of a descriptor stand (Tables 12.8 to 12.10, 12.13). -/
def faultAt : OpKind → Nat × Nat
  | .cpy => (0x20, 0x28) | .cpyi => (0x40, 0x48) | _ => (0x30, 0x38)
/-- The place and size of `DONE`. -/
def doneAt : OpKind → Nat × Nat
  | .cpy => (0x18, 8) | .cpyi => (0x38, 4) | _ => (0x0C, 4)
/-- Writes `DONE` back. -/
def writeDone (s : State) (o : Op) : State := s.writeDesc o (doneAt o.kind).1 (leBytes o.done (doneAt o.kind).2)
/-- A completion without a fault: `DONE` and an empty fault cause (R298). -/
def endClean (s : State) (n : Nat) (o : Op) (status res : Nat) : State :=
  (((s.writeDone o).writeDesc o (faultAt o.kind).1 (leBytes 0 1)).finishOp n o status res)
/-- A stop on a fault (R301): fields, engine record, token. `side` is `FSIDE`; a `COLL` has none. -/
def endFault (s : State) (n : Nat) (o : Op) (f : AFault) (side res : Nat) : State :=
  let (c, lvl, va) := f
  let s := if o.kind = .coll then s else s.writeDone o
  let s := s.writeDesc o (faultAt o.kind).1 (leBytes c.code 1)
  let s := if o.kind = .coll then s
    else (s.writeDesc o ((faultAt o.kind).1 + 1) (leBytes side 1)).writeDesc o ((faultAt o.kind).1 + 2) (leBytes (if c = .walkf then lvl else 0) 1)
  let s := s.writeDesc o (faultAt o.kind).2 (leBytes va.toNat 8)
  (s.postRecord o.ctx (s.engineRecord o c.code va)).finishOp n o c.code res

end State

/-- `TOKEN_COMPLETE` (R35, R196, R202): the value reaches the token of the thread that issued the operation, with the flags it raised. -/
def execTokenComplete (n : Nat) (s : State) : Outcome :=
  match s.op n with
  | some o =>
    match o.st with
    | .completed x =>
      if State.Op.untested o then .refused (.notEnabled "the pattern product that follows the operation has not been run")
      else if s.opHome o then
        let s := { s with ops := Map.erase s.ops n }
        let s := if o.flags = 0 ∨ (s.wave o.wave).team ≠ o.team then s else s.modThread o.issuer (·.raise o.flags)
        .next ((s.completeToken o.team o.wave o.tok x).clearTeam o.team)
      else .refused (.notEnabled "the team is not on a core")
    | _ => .refused (.notEnabled "the operation has not completed")
  | none => .refused (.notEnabled "no such operation")

end Sys2Proof.Machine
end

