-- ==== Sys2Proof/Machine/Copy.lean ====
section
/-! DEFINITION. The copy engines: `CPY` and `CPYI` (R302 to R307, R139). -/

namespace Sys2Proof.Machine

-- the descriptor of CPY (Table 12.8)

/-- A signed number of `n` bytes. -/
def sfield (bs : List Byte) (off n : Nat) : Int := ((field bs off n : Nat) : Int).bmod (2 ^ (8 * n))

/-- The descriptor of `CPY` by fields. -/
structure CpyDesc where
  sbase : Dword
  dbase : Dword
  src : State.End
  dst : State.End
  esz : Nat
  conv : Nat
  adv : Bool
  ext : List Nat
  sstr : List Int
  dstr : List Int
  deriving DecidableEq, Repr

def cpyDesc (bs : List Byte) : CpyDesc :=
  let nd := field bs 0x14 1
  { sbase := BitVec.ofNat 64 (field bs 0 8), dbase := BitVec.ofNat 64 (field bs 8 8),
    src := { sp := field bs 0x10 1, hnd := field bs 0x12 1 }, dst := { sp := field bs 0x11 1, hnd := field bs 0x13 1 },
    esz := 2 ^ field bs 0x15 1, conv := field bs 0x16 1, adv := field bs 0x17 1 % 2 = 1,
    ext := (List.range nd).map fun d => field bs (0x30 + 4 * d) 4
    sstr := (List.range nd).map fun d => sfield bs (0x60 + 8 * d) 8
    dstr := (List.range nd).map fun d => sfield bs (0xB0 + 8 * d) 8 }
/-- The element count E (R302). -/
def CpyDesc.count (x : CpyDesc) : Nat := x.ext.foldl (· * ·) 1
/-- The coordinates of a linear index (R303). -/
def coords : List Nat → Nat → List Nat
  | [], _ => []
  | e :: es, i => i % e :: coords es (i / e)
/-- Σ id × stride. -/
def strideSum (str : List Int) (is : List Nat) : Int := ((str.zip is).map fun (k, i) => k * i).foldl (· + ·) 0

/-- Check 1 of R299 on a `CPY` descriptor. -/
def cpyFieldsOk (bs : List Byte) : Bool :=
  let nd := field bs 0x14 1
  let x := cpyDesc bs
  let tail (off n : Nat) : Bool := (List.range 10).all fun d => d < nd || field bs (off + n * d) n = 0
  x.src.sp ≤ 4 && decide (x.dst.sp ∈ [0, 1, 2, 4, 5]) && x.src.hnd < 8 && x.dst.hnd < 8
    && 1 ≤ nd && nd ≤ 10 && field bs 0x15 1 ≤ 4 && x.conv ≤ 2 && field bs 0x17 1 ≤ 1
    && field bs 0x23 5 = 0 && field bs 0x58 8 = 0
    && x.ext.all (1 ≤ ·) && tail 0x30 4 && tail 0x60 8 && tail 0xB0 8
    && x.count ≤ 2 ^ 40 && field bs 0x18 8 ≤ x.count
/-- Check 2: the shape of a converted copy (R305). -/
def cpyShapeOk (x : CpyDesc) : Bool :=
  x.conv = 0 ||
    (x.esz = 1 && x.ext.headD 0 % 64 = 0 && x.sstr.headD 0 = 0 && x.dstr.headD 0 = 0
      && x.sbase.toNat % 8 = 0 && x.dbase.toNat % 8 = 0
      && ((x.ext.zip (x.sstr.zip x.dstr)).drop 1).all fun (e, a, b) => e = 1 || (a % 8 = 0 && b % 8 = 0))
/-- The first byte and the end of what one side of a copy reaches, as offsets (R304). -/
def cpyReach (x : CpyDesc) (base : Dword) (str : List Int) : Int × Int :=
  let len : Nat := if x.conv = 0 then x.esz else x.ext.headD 0 / 2
  let spans := (x.ext.zip str).map fun (e, k) => k * ((e - 1 : Nat) : Int)
  let b : Int := base.toNat
  (b + (spans.map fun k => if k < 0 then k else 0).foldl (· + ·) 0,
    b + (spans.map fun k => if 0 < k then k else 0).foldl (· + ·) 0 + len)

namespace State

/-- Check 3: endpoints a host core refuses, handles, ranges and slots (R299, R304). -/
def cpyEndsOk (s : State) (n : Nat) (o : Op) (x : CpyDesc) : Bool :=
  let host (e : End) : Bool := o.glob && decide (e.sp ∈ [2, 4, 5])
  let inside (e : End) (base : Dword) (str : List Int) : Bool :=
    if e.sp < 4 then true
    else match s.tobFor o.team e.hnd n with
      | none => false
      | some r =>
        let (lo, hi) := cpyReach x base str
        r.ring = (e.sp = 5) && decide (0 ≤ lo) && decide (hi ≤ ((if r.ring then slotBytes r.fmt r.skind r.scoff else r.len * 1024 : Nat) : Int))
  !host x.src && !host x.dst && inside x.src x.sbase x.sstr && inside x.dst x.dbase x.dstr

/-- An earlier copy of the team into the same ring is pending (R299). -/
def ringCopyBefore (s : State) (n : Nat) (o : Op) (h : Nat) : Bool :=
  s.ops.any fun (m, q) => m < n && q.kind = .cpy && q.team = o.team && q.pending && q.st ≠ .queued && (cpyDesc q.block).dst.sp = 5 && (cpyDesc q.block).dst.hnd = h
/-- Whether a ring has a slot to write (R190). -/
def ringRoom (s : State) (o : Op) (h : Nat) : Bool := (s.tob o.team h).elim false fun r => r.ppos - r.cpos < r.slots

/-- Acceptance of a `CPY` (R299, R301, R304). -/
def acceptCpy (s : State) (n : Nat) (o : Op) : State :=
  let o := { o with block := s.readDesc o 256 }
  let x := cpyDesc o.block
  let done := field o.block 0x18 8
  if !cpyFieldsOk o.block then s.finishOp n o 0x40 done
  else if !cpyShapeOk x then s.finishOp n o 0x42 done
  else if !s.cpyEndsOk n o x then s.finishOp n o 0x41 done
  else if done = x.count then s.finishOp n o 0 done
  else
    let hs := (if x.src.sp = 4 then [x.src.hnd] else []) ++ (if x.dst.sp ≥ 4 then [x.dst.hnd] else [])
    let st : OpState := if x.dst.sp = 5 && (!s.ringRoom o x.dst.hnd || s.ringCopyBefore n o x.dst.hnd) then .waitRing else .active
    s.setOp n { o with st, done, handles := hs.eraseDups }

/-- The destination of a copy, with the slot a ring's `PPOS` names (R304). -/
def cpyDst (s : State) (o : Op) (x : CpyDesc) : End :=
  if x.dst.sp = 5 then
    (match s.tob o.team x.dst.hnd with
      | some r => { x.dst with slot := r.ppos % r.slots * slotBytes r.fmt r.skind r.scoff }
      | none => x.dst)
  else x.dst

end State

/-- The plane form of nibble-packed codes, and back (R139): each code unchanged. -/
def convertRow (conv n : Nat) (bs : List Byte) : List Byte :=
  let w := n / 64
  if conv = 1 then
    (List.range 4).flatMap fun j => (List.range w).flatMap fun k =>
      (List.range 8).map fun q => BitVec.ofNat 8 ((List.range 8).foldl (fun m b => m + (if bitAt bs (4 * (64 * k + 8 * q + b) + (3 - j)) then 2 ^ b else 0)) 0)
  else
    (List.range (n / 2)).map fun i => BitVec.ofNat 8 ((List.range 8).foldl (fun m b =>
      let e := 2 * i + b / 4
      let j := 3 - b % 4
      m + (if bitAt bs (64 * (j * w + e / 64) + e % 64) then 2 ^ b else 0)) 0)

namespace State

/-- What stopped an engine: the reason, and the side it met it on (`FSIDE`). -/
abbrev Halt := Stop × Nat

/-- One unit of a copy: an element, or a row of a converted copy. -/
def cpyUnit (s : State) (o : Op) (x : CpyDesc) (dst : End) (i : Nat) : State × Except Halt Unit :=
  let is := coords x.ext i
  let a := x.sbase + BitVec.ofInt 64 (strideSum x.sstr is)
  let b := x.dbase + BitVec.ofInt 64 (strideSum x.dstr is)
  if a.toNat % x.esz ≠ 0 then (s, .error (some (.align, 0, a), 0))
  else if b.toNat % x.esz ≠ 0 then (s, .error (some (.align, 0, b), 1))
  else
    let n := if x.conv = 0 then x.esz else x.ext.headD 0 / 2
    match s.endRead o x.src a n with
    | (s, .error e) => (s, .error (e, 0))
    | (s, .ok bs) =>
      match s.endWrite o dst b (if x.conv = 0 then bs else convertRow x.conv (x.ext.headD 0) bs) with
      | (s, .error e) => (s, .error (e, 1))
      | (s, .ok ()) => (s, .ok ())
/-- The units of a copy from `DONE` in ascending order, to its end or the first that stops; `step` codes or elements each (R303, R305). -/
def cpyRun (s : State) (x : CpyDesc) (dst : End) (step : Nat) : Nat → Op → State × Op × Option Halt
  | 0, o => (s, o, none)
  | fuel + 1, o =>
    if o.done ≥ x.count then (s, o, none)
    else
      let i := o.done / step * step
      match s.cpyUnit o x dst i with
      | (s, .error e) => (s, { o with done := i }, some e)
      | (s, .ok ()) => s.cpyRun x dst step fuel { o with done := i + step }
/-- A copy run from its state, with its descriptor and destination. -/
def cpyGo (s : State) (o : Op) : State × Op × Option Halt :=
  let x := cpyDesc o.block
  let dst := s.cpyDst o x
  let s := if x.dst.sp = 4 then s.taintRange o.team x.dst.hnd else s
  s.cpyRun x dst (if x.conv = 0 then 1 else x.ext.headD 1) (x.count - o.done + 1) o

-- CPYI (Table 12.9)

/-- Rows and their sizes. -/
def cpyiOk (bs : List Byte) : Bool :=
  let mode := field bs 0x1B 1
  field bs 0x18 1 ≤ 3 && field bs 0x19 1 ≤ 2 && field bs 0x1A 1 ≤ 3 && mode ≤ 3 && field bs 0x1C 1 ≤ 1 && field bs 0x1D 3 = 0
    && 1 ≤ field bs 0x20 4 && field bs 0x20 4 < 2 ^ 24
    && 1 ≤ field bs 0x24 4 && field bs 0x24 4 ≤ 65536 && (mode < 2 || field bs 0x24 4 % 4 = 0)
    && field bs 0x3C 4 = 0 && field bs 0x43 5 = 0 && field bs 0x38 4 ≤ field bs 0x20 4

/-- Acceptance of a `CPYI` (R299, R301, R306). -/
def acceptCpyi (s : State) (n : Nat) (o : Op) : State :=
  let bs := s.readDesc o 80
  let o := { o with block := bs }
  let done := field bs 0x38 4
  if !cpyiOk bs then s.finishOp n o 0x40 0
  else if o.glob && (field bs 0x18 1 = 2 || field bs 0x19 1 = 2 || field bs 0x1A 1 = 2) then s.finishOp n o 0x41 0
  else if done = field bs 0x20 4 then s.finishOp n o 0 0
  else s.setOp n { o with st := .active, done }

/-- One 4-byte element of a scatter-add (R307): an RMW of the destination. -/
def addElem (s : State) (o : Op) (e : End) (fp : Bool) (a : Dword) (y : Nat) : State × Except Halt Unit :=
  let add (bs : List Byte) : List Byte := leBytes (if fp then (faddBits .rne false .f32 (leNat bs) y).1 else (leNat bs + y) % 2 ^ 32) 4
  let ev := { s.opEv o with kind := .rmw, ord := .rlx, scp := some .rack, bytewise := false }
  if e.sp = 0 then
    let p := o.core.pkg
    if s.vaLeased p o.root a 4 then (s, .error (none, 1))
    else match s.vaRead p o.root o.keys a 4, s.piecesOf p o.root o.keys .rmw a 4 with
      | .ok bs, .ok ps => ((s.engineTouch p o.root .atm ps (opOf ev)).storePieces ev ps (add bs), .ok ())
      | .error f, _ | _, .error f => (s, .error (some f, 1))
  else match s.endRead o e a 4, s.scrPlace o e.sp a with
    | (s, .error f), _ => (s, .error (f, 1))
    | (s, .ok _), some (tm, off) => (s.agentStore ev (.scr tm off) (add (s.scrBytes tm off 4)), .ok ())
    | (s, .ok _), none => (s, .ok ())
def addElems (s : State) (o : Op) (e : End) (fp : Bool) (a : Dword) : List Nat → State × Except Halt Unit
  | [] => (s, .ok ())
  | y :: ys =>
    match s.addElem o e fp a y with
    | (s, .error f) => (s, .error f)
    | (s, .ok ()) => s.addElems o e fp (a + 4) ys

/-- One row of a `CPYI` (R307); the answer says whether its index was skipped. -/
def cpyiRow (s : State) (o : Op) (i : Nat) : State × Except Halt Bool :=
  let bs := o.block
  let mode := field bs 0x1B 1
  let rlen := field bs 0x24 4
  let isz := if field bs 0x1C 1 = 1 then 8 else 4
  let at_ (base : Nat) (k m : Nat) : Dword := BitVec.ofNat 64 (field bs base 8 + k * m)
  let src : End := { sp := field bs 0x18 1 }
  let dst : End := { sp := field bs 0x19 1 }
  let ia := at_ 0x10 i isz
  if ia.toNat % isz ≠ 0 then (s, .error (some (.align, 0, ia), 2))
  else match s.endRead o { sp := field bs 0x1A 1 } ia isz with
    | (s, .error e) => (s, .error (e, 2))
    | (s, .ok ib) =>
      let j := leNat ib
      if j ≥ field bs 0x28 8 then
        if mode = 0 then
          (match s.endWrite o dst (at_ 8 i rlen) (List.replicate rlen 0) with
            | (s, .error e) => (s, .error (e, 1))
            | (s, .ok ()) => (s, .ok true))
        else (s, .ok true)
      else
        let sa := if mode = 0 then at_ 0 j (field bs 0x30 8) else at_ 0 i rlen
        let da := if mode = 0 then at_ 8 i rlen else at_ 8 j (field bs 0x30 8)
        if mode ≥ 2 && sa.toNat % 4 ≠ 0 then (s, .error (some (.align, 0, sa), 0))
        else if mode ≥ 2 && da.toNat % 4 ≠ 0 then (s, .error (some (.align, 0, da), 1))
        else match s.endRead o src sa rlen with
          | (s, .error e) => (s, .error (e, 0))
          | (s, .ok row) =>
            match (if mode < 2 then
                (match s.endWrite o dst da row with
                  | (s, .error e) => (s, Except.error ((e, 1) : Halt))
                  | (s, .ok ()) => (s, .ok ()))
              else s.addElems o dst (mode = 2) da ((List.range (rlen / 4)).map fun k => field row (4 * k) 4)) with
            | (s, .error e) => (s, .error e)
            | (s, .ok ()) => (s, .ok false)
/-- The rows from `DONE` in ascending order, with the skipped ones counted in `acked` (R307). -/
def cpyiRun (s : State) : Nat → Op → State × Op × Option Halt
  | 0, o => (s, o, none)
  | fuel + 1, o =>
    if o.done ≥ field o.block 0x20 4 then (s, o, none)
    else match s.cpyiRow o o.done with
      | (s, .error e) => (s, o, some e)
      | (s, .ok k) => s.cpyiRun fuel { o with done := o.done + 1, acked := o.acked + (if k then 1 else 0) }

/-- Runs a copy of either kind. -/
def copyGo (s : State) (o : Op) : State × Op × Option Halt :=
  if o.kind = .cpy then s.cpyGo o else s.cpyiRun (field o.block 0x20 4 - o.done + 1) o
/-- The value of [23:0] of a copy's token (R303, R307). -/
def copyResult (o : Op) : Nat := if o.kind = .cpy then o.done % 2 ^ 24 else min o.acked (2 ^ 24 - 1)
/-- A copy that may run now: accepted, its team on a core, a slot free and its turn come for a ring. -/
def copyReady (s : State) (n : Nat) : Option Op :=
  match s.op n with
  | some o =>
    let x := cpyDesc o.block
    if o.kind.copy && o.st = .active && s.opHome o
        && (o.kind = .cpyi || x.dst.sp ≠ 5 || (s.ringRoom o x.dst.hnd && !s.ringCopyBefore n o x.dst.hnd)) then some o
    else none
  | none => none

end State

def execCpy (h : Hdr) (tok : Nat) (off : SrcD) (s : State) : Outcome := .next (s.engineWord (.cpy h tok off) .cpy tok off (some 256))
def execCpyi (h : Hdr) (tok : Nat) (off : SrcD) (s : State) : Outcome := .next (s.engineWord (.cpyi h tok off) .cpyi tok off (some 80))

/-- `COPY_COMPLETE` (R303, R304, R307): the rest of the copy, then the position of a ring, then the token. -/
def execCopyComplete (n : Nat) (s : State) : Outcome :=
  match s.copyReady n with
  | none => .refused (.notEnabled "no copy that may run")
  | some o =>
    match s.copyGo o with
    | (_, _, some _) => .refused (.notEnabled "an access of the copy stops it")
    | (s, o, none) =>
      let x := cpyDesc o.block
      if o.kind = .cpy && x.dst.sp = 5 && x.adv then
        match s.tob o.team x.dst.hnd with
        | some r =>
          if r.ppos ≥ 2 ^ 32 - 1 then .next (s.endClean n o 0x27 (State.copyResult o))
          else .next ((s.modTob o.team x.dst.hnd fun r => { r with ppos := r.ppos + 1 }).endClean n o 0 (State.copyResult o))
        | none => .next (s.endClean n o 0 (State.copyResult o))
      else .next (s.endClean n o 0 (State.copyResult o))

/-- `RING_PRODUCER_RESUME` (R190, R304). -/
def execRingProducerResume (n : Nat) (s : State) : Outcome :=
  match s.op n with
  | some o =>
    let h := (cpyDesc o.block).dst.hnd
    if o.kind = .cpy && o.st = .waitRing && s.opHome o && s.ringRoom o h && !s.ringCopyBefore n o h then .next (s.setOp n { o with st := .active })
    else .refused (.notEnabled "no copy waits for a slot that is free")
  | none => .refused (.notEnabled "no such operation")

end Sys2Proof.Machine
end

