-- ==== Sys2Proof/Machine/KvColl.lean ====
section
/-! DEFINITION. KV transfers and collectives, and the acceptance and stop of every engine operation (R299, R301, R308 to R318). -/

namespace Sys2Proof.Machine
namespace State

-- KV channels (R308 to R312)

def chan (s : State) (p k : Nat) : KvChan := Map.getD (s.pkg p).kv k {}
def modChan (s : State) (p k : Nat) (f : KvChan → KvChan) : State :=
  s.modPkg p fun x => if Map.has x.kv k then { x with kv := Map.set x.kv k (f (Map.getD x.kv k {})) } else x
/-- The channel of a `KVX`. -/
def kvxChan (o : Op) : Nat := field o.block 0 2
/-- Pending `KVX` operations of a package on a channel. -/
def kvxOn (s : State) (p k : Nat) : List (Nat × Op) := s.ops.filter fun (_, o) => o.kind = .kvx && o.core.pkg = p && o.pending && o.st ≠ .queued && kvxChan o = k
/-- The status word of a channel (Table 12.11). -/
def chanWord (s : State) (p k : Nat) : Word :=
  let c := s.chan p k
  BitVec.ofNat 32 (c.state % 4 + min 255 (s.kvxOn p k).length * 2 ^ 8 + c.lerr % 256 * 2 ^ 16)

/-- Check 1 of R299 on a `KVX` descriptor (Table 12.10). -/
def kvxOk (bs : List Byte) : Bool :=
  field bs 0 2 < 4096 && field bs 2 1 ≤ 1 && field bs 3 1 ≤ 1 && 1 ≤ field bs 4 4 && field bs 4 4 ≤ 65535
    && 256 ≤ field bs 8 4 && field bs 8 4 ≤ 2 ^ 24 && field bs 8 4 % 256 = 0 && field bs 0xC 4 ≤ field bs 4 4 && field bs 0x20 8 % 8 = 0
    && field bs 0x33 5 = 0
/-- The end of a `KVX`: its status is the channel's last error unless it is 0 (Table 12.11). -/
def endKvx (s : State) (n : Nat) (o : Op) (status : Nat) : State :=
  let s := s.endClean n o status (o.done % 2 ^ 24)
  if status = 0 then s else s.modChan o.core.pkg (kvxChan o) fun c => { c with lerr := status }
/-- Acceptance of a `KVX` (R299, R301). One that a channel of the context refuses is the channel's last error (R312). -/
def acceptKvx (s : State) (n : Nat) (o : Op) : State :=
  let bs := s.readDesc o 64
  let done := field bs 0xC 4
  let o := { o with block := bs, done }
  let c := s.chan o.core.pkg (kvxChan o)
  let own := c.state ≠ 0 ∧ c.ctx = o.ctx
  let fail (status : Nat) : State := (s.finishOp n o status done).modChan o.core.pkg (kvxChan o) fun c => { c with lerr := status }
  if !kvxOk bs then if own then fail 0x40 else s.finishOp n o 0x40 done
  else if ¬ own then s.finishOp n o 0x50 done
  else if done = field bs 4 4 then s.finishOp n o 0 done
  else if c.state = 2 then fail 0x51
  else s.setOp n { o with st := .active }

/-- The local side of block `done` of a `KVX`: its address from the list, then its bytes read for a push; for a pull the bytes that came from the
peer (free values, log entry 24) are written (R310). -/
def kvBlock (s : State) (o : Op) : State × Except Halt Unit :=
  let bsz := field o.block 8 4
  let la : Dword := BitVec.ofNat 64 (field o.block 0x10 8 + 8 * o.done)
  if la.toNat % 8 ≠ 0 then (s, .error (some (.align, 0, la), 1))
  else match s.endRead o { sp := 0 } la 8 with
    | (s, .error e) => (s, .error (e, 1))
    | (s, .ok bs) =>
      let a : Dword := BitVec.ofNat 64 (leNat bs)
      let ra : Dword := BitVec.ofNat 64 (field o.block 0x18 8 + 8 * o.done)
      match s.endRead o { sp := 0 } ra 8 with
      | (s, .error e) => (s, .error (e, 1))
      | (s, .ok _) =>
        if a.toNat % 256 ≠ 0 then (s, .error (some (.align, 0, a), 0))
        else if field o.block 2 1 = 0 then
          (match s.endRead o { sp := 0 } a bsz with
            | (s, .error e) => (s, .error (e, 0))
            | (s, .ok _) => (s, .ok ()))
        else
          let (k, s) := s.freeIdx
          match s.endWrite o { sp := 0 } a ((List.range bsz).map (Config.freeByte k)) with
          | (s, .error e) => (s, .error (e, 0))
          | (s, .ok ()) => (s, .ok ())
/-- A `KVX` under way with blocks left. -/
def kvxActive (s : State) (n : Nat) : Option Op :=
  match s.op n with
  | some o => if o.kind = .kvx && o.st = .active then some o else none
  | none => none

-- groups (R313 to R318)

/-- A package, by number, as the partition of package `p` names it. -/
def memberIdx (s : State) (p n : Nat) : Nat := (s.route p n).getD p
/-- The planes healthy at every member (R313). -/
def healthyPlanes (s : State) (ps : List Nat) : List Nat :=
  (List.range 18).filter fun k => ps.all fun p => (Map.getD (s.pkg p).ports k {}).up
/-- Check 1 on a `CGRP` descriptor (Table 12.12). -/
def cgrpOk (bs : List Byte) : Bool := 2 ≤ field bs 0 2 && field bs 0 2 ≤ 4096 && field bs 2 6 = 0 && field bs 0x14 4 = 0 && field bs 0x10 4 < 2 ^ 18
/-- Numbers in strictly ascending order. -/
def ascending : List Nat → Bool
  | a :: b :: xs => a < b && ascending (b :: xs)
  | _ => true
/-- Acceptance of a `CGRP` (R299, R313): it joins the call of the other members with the same list and mask, or opens one (log entry 25). While a line of the
list is leased it waits: none. -/
def acceptCgrp (s : State) (n : Nat) (o : Op) : Option State :=
  let bs := s.readDesc o 24
  let o := { o with block := bs }
  let nm := field bs 0 2
  if !cgrpOk bs then some (s.finishOp n o 0x40 0)
  else match s.endRead o { sp := 0 } (BitVec.ofNat 64 (field bs 8 8)) (2 * nm) with
    | (s, .error (some f)) => some ((s.postRecord o.ctx (s.engineRecord o f.1.code f.2.2)).finishOp n o f.1.code 0)
    | (_, .error none) => none
    | (s, .ok ms) =>
      let p := o.core.pkg
      let names := (List.range nm).map fun k => field ms (2 * k) 2
      if !ascending names ∨ !names.contains (s.pkg p).num ∨ names.any fun k => !s.inPartition p k then some (s.finishOp n o 0x60 0)
      else
        let mem := names.map (s.memberIdx p)
        let mask := field bs 0x10 4
        let o := { o with st := .active }
        let s := s.setOp n o
        match s.groupCalls.find? fun (_, c) => c.members = mem && c.mask = mask && !c.ops.any (·.1 = p) with
        | some (k, c) => some { s with groupCalls := Map.set s.groupCalls k { c with ops := c.ops ++ [(p, n)] } }
        | none =>
          let (k, s) := s.freshId
          some { s with groupCalls := Map.set s.groupCalls k { members := mem, mask, ops := [(p, n)], first := s.hubNow p } }
/-- Completes operations with a status and result. -/
def finishAll (s : State) (ns : List Nat) (status res : Nat) : State :=
  ns.foldl (fun s n => match s.op n with | some o => s.finishOp n o status res | none => s) s
/-- Acceptance of `CGRP.free` (R314): the handle, once the package's pending calls on the group have completed. -/
def acceptFree (s : State) (n : Nat) (o : Op) : State :=
  let h := o.off.toNat
  let p := o.core.pkg
  match Map.find s.groups h with
  | some g =>
    if !g.members.contains p ∨ g.freed.contains p then s.finishOp n o 0x60 0
    else
      let g := { g with freed := g.freed ++ [p] }
      let s := s.finishOp n o 0 0
      { s with groups := if g.members.all g.freed.contains then Map.erase s.groups h else Map.set s.groups h g }
  | none => s.finishOp n o 0x60 0
/-- Calls of a package on a group that have not completed. -/
def callsOf (s : State) (h p : Nat) : List Nat :=
  (Map.getD s.groups h {}).calls.filterMap fun (q, n) => if q = p && (s.op n).elim false Op.pending then some n else none

/-- A member of a group, or a plane it uses, is lost (R318). -/
def groupGone (s : State) (g : Group) : Bool :=
  g.members.any fun p => s.lost.contains p || !(s.pkg p).alive || g.planes.any fun k => !(Map.getD (s.pkg p).ports k {}).up

/-- Check 1 on a `COLL` descriptor (Table 12.13). -/
def collOk (bs : List Byte) : Bool :=
  let op := field bs 2 1
  let dty := field bs 3 1
  let outf := field bs 4 1
  op ≤ 3 && dty ≤ 2 && outf ≤ 1 && (outf = 0 || (dty = 1 && op ≤ 1)) && field bs 5 1 = 0 && 1 ≤ field bs 8 4 && field bs 8 4 ≤ 2 ^ 28
    && field bs 0xC 4 = 0 && field bs 0x20 16 = 0 && field bs 0x31 7 = 0
/-- Acceptance of a `COLL` (R299, R315, R318). -/
def acceptColl (s : State) (n : Nat) (o : Op) : State :=
  let bs := s.readDesc o 64
  let o := { o with block := bs }
  let h := field bs 0 2
  if !collOk bs then s.finishOp n o 0x40 0
  else match Map.find s.groups h with
    | some g =>
      if !g.members.contains o.core.pkg ∨ g.freed.contains o.core.pkg then s.finishOp n o 0x60 0
      else if (field bs 2 1 = 1 ∨ field bs 2 1 = 2) ∧ field bs 6 2 ≥ g.members.length then s.finishOp n o 0x40 0
      else if g.broken || s.groupGone g then s.finishOp n o 0x63 0
      else
        let s := s.setOp n { o with st := .active }
        { s with groups := Map.set s.groups h { g with calls := g.calls ++ [(o.core.pkg, n)] } }
    | none => s.finishOp n o 0x60 0

/-- The matched call of a group: the first pending operation of every member, in rank order; none while some member has not issued it (R315). -/
def matched (s : State) (h : Nat) : Option (Group × List (Nat × Op)) :=
  match Map.find s.groups h with
  | some g =>
    let os := g.members.filterMap fun p => (s.callsOf h p).head?.bind fun n => (s.op n).map fun o => (n, o)
    if os.length = g.members.length && os ≠ [] then some (g, os) else none
  | none => none
/-- Matched calls agree (R315). -/
def agree (os : List (Nat × Op)) : Bool :=
  let key (o : Op) : Nat × Nat × Nat × Nat × Nat := (field o.block 2 1, field o.block 3 1, field o.block 4 1, field o.block 6 2, field o.block 8 4)
  match os with
  | [] => true
  | (_, o) :: rest => rest.all fun (_, q) => key q = key o
/-- Bytes of an element (Table 12.13). -/
def collSize (o : Op) : Nat := if field o.block 3 1 = 1 then 2 else 4
/-- Whether a member of rank `r` reads its send buffer. -/
def collSends (o : Op) (r : Nat) : Bool := field o.block 2 1 ≠ 2 || r = field o.block 6 2
/-- Whether it receives a result. -/
def collGets (o : Op) (r : Nat) : Bool := field o.block 2 1 ≠ 1 || r = field o.block 6 2
/-- The bytes of a member's receive buffer. -/
def collRecv (g : Group) (o : Op) : Nat :=
  let k := field o.block 8 4
  if field o.block 2 1 = 3 then g.members.length * k * collSize o else if field o.block 4 1 = 1 then 4 * k else k * collSize o

/-- The combining step of a switch (R316). -/
def collAdd (int : Bool) (x y : Nat) : Nat := if int then (x + y) % 2 ^ 32 else (faddBits .rne false .f32 x y).1
/-- Pairs in ascending order of their key. -/
def sortKey {α : Type} : List (Nat × α) → List (Nat × α)
  | [] => []
  | x :: xs => ins x (sortKey xs)
where
  ins (x : Nat × α) : List (Nat × α) → List (Nat × α)
    | [] => [x]
    | y :: ys => if x.1 ≤ y.1 then x :: y :: ys else y :: ins x ys
/-- Combines inputs in the order of their ports. -/
def combine (int : Bool) (xs : List (Nat × Nat)) : Nat :=
  match sortKey xs with
  | [] => 0
  | (_, x) :: rest => rest.foldl (fun acc (_, y) => collAdd int acc y) x
/-- The value of an element on a plane's tree: leaves, then the spine (R316). The members' values come with their packages. -/
def treeValue (int : Bool) (plane : Nat) (vals : List (Nat × Nat)) : Nat :=
  let placed := vals.map fun (p, x) => (Config.leafPort plane p, x)
  let leaves := (placed.map (·.1.1)).eraseDups
  combine int (leaves.map fun l => (2 * l, combine int (placed.filterMap fun (lp, x) => if lp.1 = l then some (lp.2, x) else none)))
/-- The result of a reduction, from every member's send buffer (R316). -/
def reduceBytes (g : Group) (o : Op) (bufs : List (Nat × List Byte)) : List Byte :=
  let dty := field o.block 3 1
  let np := g.planes.length
  (List.range (field o.block 8 4)).flatMap fun e =>
    let plane := g.planes.getD (e / 64 % np) 0
    let widen (bs : List Byte) : Nat :=
      if dty = 1 then (cvtFF .rne false .bf16 .f32 (field bs (2 * e) 2)).1 else field bs (4 * e) 4
    let x := treeValue (dty = 2) plane (bufs.map fun (p, bs) => (p, widen bs))
    if dty = 1 && field o.block 4 1 = 0 then leBytes (cvtFF .rne false .f32 .bf16 x).1 2 else leBytes x 4
/-- What every receiving member's buffer gets. -/
def collBytes (g : Group) (o : Op) (bufs : List (Nat × List Byte)) : List Byte :=
  match field o.block 2 1 with
  | 2 => ((bufs[0]?).map (·.2)).getD []
  | 3 => bufs.flatMap (·.2)
  | _ => reduceBytes g o bufs

/-- The send buffers of a matched call, in rank order: those that are read, or the faults found on any buffer, by operation. -/
def collRead (s : State) (g : Group) (os : List (Nat × Op)) : State × Bool × List (Nat × AFault) × List (Nat × List Byte) :=
  ((List.range os.length).zip os).foldl (fun (acc : State × Bool × List (Nat × AFault) × List (Nat × List Byte)) (r, n, o) =>
    let (s, wait, fs, bufs) := acc
    let p := o.core.pkg
    let rbuf : Dword := BitVec.ofNat 64 (field o.block 0x18 8)
    let sbuf : Dword := BitVec.ofNat 64 (field o.block 0x10 8)
    let (s, got) := if collSends o r then s.endRead o { sp := 0 } sbuf (field o.block 8 4 * collSize o) else (s, .ok [])
    let wait := wait || (collGets o r && s.vaLeased p o.root rbuf (collRecv g o))
    let wf := if collGets o r then s.piecesOf p o.root o.keys .store rbuf (collRecv g o) else .ok []
    match got, wf with
    | .error none, _ => (s, true, fs, bufs)
    | .error (some f), _ => (s, wait, fs ++ [(n, f)], bufs)
    | .ok _, .error f => (s, wait, fs ++ [(n, f)], bufs)
    | .ok bs, .ok _ => (s, wait, fs, if collSends o r then bufs ++ [(p, bs)] else bufs)) (s, false, [], [])
/-- A call leaves the group's list. -/
def dropCalls (s : State) (h : Nat) (ns : List Nat) : State :=
  match Map.find s.groups h with
  | some g => { s with groups := Map.set s.groups h { g with calls := g.calls.filter fun (_, n) => !ns.contains n } }
  | none => s

end State

def execKvx (h : Hdr) (tok : Nat) (off : SrcD) (s : State) : Outcome := .next (s.engineWord (.kvx h tok off) .kvx tok off (some 64))
def execColl (h : Hdr) (tok : Nat) (off : SrcD) (s : State) : Outcome := .next (s.engineWord (.coll h tok off) .coll tok off (some 64))
def execCgrpCreate (h : Hdr) (tok : Nat) (off : SrcD) (s : State) : Outcome := .next (s.engineWord (.cgrpCreate h tok off) .cgrp tok off (some 24))
def execCgrpFree (h : Hdr) (tok : Nat) (hd : SrcD) (s : State) : Outcome := .next (s.engineWord (.cgrpFree h tok hd) .cgrpFree tok hd none)

/-- `ENGINE_ACCEPT` (R299): the descriptor is read and checked. Copies of a team are accepted in issue order; `CGRP.free` waits for the package's calls (R314). -/
def execEngineAccept (n : Nat) (s : State) : Outcome :=
  match s.op n with
  | some o =>
    if o.st ≠ .queued ∨ !(o.kind.copy || o.kind.hub) ∨ !s.opHome o ∨ !s.running o.core.pkg then .refused (.notEnabled "no queued engine operation")
    else if o.kind.copy && s.ops.any (fun (m, q) => m < n && q.team = o.team && q.kind.copy && q.st = .queued) then
      .refused (.notEnabled "an earlier copy of the team is not accepted yet")
    else match o.kind with
      | .cpy => .next (s.acceptCpy n o)
      | .cpyi => .next (s.acceptCpyi n o)
      | .kvx => .next (s.acceptKvx n o)
      | .coll => .next (s.acceptColl n o)
      | .cgrp =>
        match s.acceptCgrp n o with
        | some s => .next s
        | none => .refused (.notEnabled "a line of the list of members is leased")
      | _ =>
        if s.callsOf o.off.toNat o.core.pkg ≠ [] then .refused (.notEnabled "a call of the package on the group is pending") else .next (s.acceptFree n o)
  | none => .refused (.notEnabled "no such operation")

/-- `ENGINE_FAULT_STOP` (R301): what came before the faulting element, row or block stands. -/
def execEngineFaultStop (n : Nat) (s : State) : Outcome :=
  match s.copyReady n with
  | some o =>
    match s.copyGo o with
    | (s, o, some (some f, side)) => .next (s.endFault n o f side (State.copyResult o))
    | _ => .refused (.notEnabled "no access of the copy faults")
  | none =>
    match s.kvxActive n with
    | some o =>
      if o.done ≥ field o.block 4 4 ∨ !s.opHome o then .refused (.notEnabled "no block is left")
      else match s.kvBlock o with
        | (s, .error (some f, side)) =>
          .next ((s.endFault n o f side (o.done % 2 ^ 24)).modChan o.core.pkg (State.kvxChan o) fun c => { c with lerr := f.1.code })
        | _ => .refused (.notEnabled "no access of the block faults")
    | none => .refused (.notEnabled "no operation under way")

/-- `KV_BLOCK_ACK` (R310): the peer has acknowledged block `done`. -/
def execKvBlockAck (n : Nat) (s : State) : Outcome :=
  match s.kvxActive n with
  | some o =>
    if o.done ≥ field o.block 4 4 then .refused (.notEnabled "every block is acknowledged")
    else match s.kvBlock o with
      | (s, .ok ()) => .next (s.setOp n { o with done := o.done + 1 })
      | (_, .error _) => .refused (.notEnabled "the block's local side cannot be accessed")
  | none => .refused (.notEnabled "no KVX under way")
/-- `KV_NOTIFY` (R310): after every block the peer has written the notify value; its memory lies outside the partition. -/
def execKvNotify (n : Nat) (s : State) : Outcome :=
  match s.kvxActive n with
  | some o =>
    if o.done ≥ field o.block 4 4 && field o.block 3 1 = 1 && !o.notified then .next (s.setOp n { o with notified := true })
    else .refused (.notEnabled "no notify is due")
  | none => .refused (.notEnabled "no KVX under way")
def execKvxComplete (n : Nat) (s : State) : Outcome :=
  match s.kvxActive n with
  | some o =>
    if o.done ≥ field o.block 4 4 && (field o.block 3 1 = 0 || o.notified) && s.opHome o then .next (s.endKvx n o 0)
    else .refused (.notEnabled "a block or the notify is not acknowledged")
  | none => .refused (.notEnabled "no KVX under way")
/-- `KV_PEER_REFUSE` (R311). -/
def execKvPeerRefuse (n : Nat) (s : State) : Outcome :=
  match s.kvxActive n with
  | some o => if s.opHome o then .next (s.endKvx n o 0x52) else .refused (.notEnabled "the team is not on a core")
  | none => .refused (.notEnabled "no KVX under way")
/-- `KV_CHANNEL_FAIL` (R311). -/
def execKvChannelFail (p k : Nat) (s : State) : Outcome :=
  if (s.chan p k).state = 0 then .refused (.notEnabled "the channel is not configured")
  else
    let s := s.modChan p k fun c => { c with state := 2 }
    .next ((s.kvxOn p k).foldl (fun s (n, o) => s.endKvx n o 0x51) s)

/-- `KVQ` (R312): the copy of the status word that the core holds; a channel of another context reads as unconfigured (R308). -/
def kvqRes (s : State) (t : ThreadId) (xs : List Dword) : Res :=
  match Map.find (s.core t.wave.core).kvCopy ((arg xs 0).toNat % 2 ^ 32) with
  | some (c, w) => if c = s.ctxOf t then ⟨w.setWidth 64, 0⟩ else ⟨0, 0⟩
  | none => ⟨0, 0⟩
def execKvq (h : Hdr) (d : Dst) (chan : SrcD) (s : State) : Outcome :=
  let i : Instr := .kvq h d chan
  .next (s.issue i fun s g pc =>
    let outs := g.map fun t => (t, s.evalLane t [microOf i (kvqRes s t)])
    let ms := [microOf i fun _ => ⟨0, 0⟩]
    (outs.foldl (fun s' (t, o) => s'.laneEffect t ms o pc (pc + BitVec.ofNat 64 i.size)) s).writeSregs outs ms)
def execKvqRefresh (c : CoreId) (s : State) : Outcome :=
  if s.now c < (s.core c).kvAt + 1024 then .refused (.notEnabled "the copy is younger than 1,024 cycles")
  else .next (s.modCore c fun x => { x with kvAt := s.now c, kvCopy := (s.pkg c.pkg).kv.filterMap fun (k, y) => if k < 4096 then some (k, y.ctx, s.chanWord c.pkg k) else none })

/-- `COLL_COMPLETE` (R316): every member has issued the call and no buffer faults. -/
def execCollComplete (h : Nat) (s : State) : Outcome :=
  match s.matched h with
  | none => .refused (.notEnabled "some member has not issued the call")
  | some (g, os) =>
    if g.broken ∨ s.groupGone g ∨ !State.agree os then .refused (.notEnabled "the group is broken or the calls differ")
    else match s.collRead g os with
      | (_, true, _, _) | (_, _, _ :: _, _) => .refused (.notEnabled "a buffer cannot be accessed")
      | (s, false, [], bufs) =>
        let s := ((List.range os.length).zip os).foldl (fun s (r, _, o) =>
          if State.collGets o r then
            (s.vaWrite o.core.pkg o.root o.keys (BitVec.ofNat 64 (field o.block 0x18 8)) (State.collBytes g o bufs) (s.opEv o)).toOption.getD s
          else s) (s.recordPoint (s.hubEv (g.members.headD 0) (.coll (os.map (·.1)))))
        .next ((s.dropCalls h (os.map (·.1))).finishAll (os.map (·.1)) 0 0)
/-- `COLL_ABORT` (R315, R318): calls that differ complete with 0x62; a member's fault stops it, the others with 0x64. -/
def execCollAbort (h : Nat) (s : State) : Outcome :=
  match s.matched h with
  | none => .refused (.notEnabled "some member has not issued the call")
  | some (g, os) =>
    let ns := os.map (·.1)
    if s.groupGone g then .refused (.notEnabled "a plane or member of the group is lost")
    else if !State.agree os then .next ((s.dropCalls h ns).finishAll ns 0x62 0)
    else match s.collRead g os with
      | (s, _, f :: fs, _) =>
        let s := os.foldl (fun s (n, o) =>
          match Map.find (f :: fs) n with
          | some e => s.endFault n o e 0 0
          | none => s.finishOp n o 0x64 0) s
        .next (s.dropCalls h ns)
      | _ => .refused (.notEnabled "no call differs and no buffer faults")
/-- `GROUP_BROKEN` (R318): a plane or a member is lost. -/
def execGroupBroken (h : Nat) (s : State) : Outcome :=
  match Map.find s.groups h with
  | some g =>
    if g.broken ∨ !s.groupGone g then .refused (.notEnabled "no plane or member of the group is lost")
    else
      let ns := g.calls.filterMap fun (_, n) => if (s.op n).elim false Op.pending then some n else none
      let s := { s with groups := Map.set s.groups h { g with broken := true, calls := [] } }
      .next (s.finishAll ns 0x63 0)
  | none => .refused (.notEnabled "no such group")
/-- `CGRP_FORMED` (R313): every member has issued its `CGRP`. -/
def execCgrpFormed (k : Nat) (s : State) : Outcome :=
  match Map.find s.groupCalls k with
  | some c =>
    if !c.members.all fun p => c.ops.any (·.1 = p) then .refused (.notEnabled "some member has not issued its CGRP")
    else
      let s := { s with groupCalls := Map.erase s.groupCalls k }
      let planes := if c.mask = 0 then s.healthyPlanes c.members else (List.range 18).filter c.mask.testBit
      let full := planes = [] || planes.any fun q => (s.groups.filter fun (_, g) => g.planes.contains q).length ≥ 256
      match State.lowestFree (Map.keys s.groups) 1024 with
      | some h =>
        if full then .next (s.finishAll (c.ops.map (·.2)) 0x61 0)
        else .next (({ s with groups := Map.set s.groups h { members := c.members, planes } } : State).finishAll (c.ops.map (·.2)) 0 h)
      | none => .next (s.finishAll (c.ops.map (·.2)) 0x61 0)
  | none => .refused (.notEnabled "no such call")
/-- `CGRP_TIMEOUT` (R313). -/
def execCgrpTimeout (k : Nat) (s : State) : Outcome :=
  match Map.find s.groupCalls k with
  | some c =>
    let p := (c.ops.head?.map (·.1)).getD 0
    if c.members.all fun p => c.ops.any (·.1 = p) then .refused (.notEnabled "every member has issued its CGRP")
    else if s.hubNow p < c.first + 2 ^ 24 then .refused (.notEnabled "2^24 cycles have not passed")
    else .next (({ s with groupCalls := Map.erase s.groupCalls k } : State).finishAll (c.ops.map (·.2)) 0x62 0)
  | none => .refused (.notEnabled "no such call")

/-- `KV_PEER_ACCESS` (R310, R432): the receiving package's KV engine writes or reads under the key the channel is bound to; an access that faults is refused to
the peer. -/
def execKvPeerAccess (p k : Nat) (pull : Bool) (va : Dword) (bytes : List Byte) (s : State) : Outcome :=
  let c := s.chan p k
  let root := s.ctxRoot c.ctx
  if c.state ≠ 1 then .refused (.notEnabled "the channel is not ready")
  else if s.vaLeased p root va bytes.length then .refused (.notEnabled "a line is leased")
  else if pull then
    .next (s.agentRead { s.hubEv p .load with path := .kv } p root (some [c.ctx]) va bytes.length).1
  else match s.vaWrite p root (some [c.ctx]) va bytes { s.hubEv p .store with path := .kv } with
    | .ok s => .next s
    | .error _ => .next s

end Sys2Proof.Machine
end

