-- ==== Sys2Proof/Machine/Sched.lean ====
section
/-! DEFINITION. Distributors: how an accepted grid is split into teams, handed to Bobbins, placed on cores, stolen, merged and retired; `LNCH` (R40 to R42,
R47, R48, R252, R320 to R323, R328, R339 to R341, R346 to R350, R366, R367). -/

namespace Sys2Proof.Machine

/-- H (R328). -/
def hashH (k : Nat) : Nat :=
  let x := k % 2 ^ 24
  let x := x ^^^ (x / 2 ^ 12)
  let x := x * 0x9E3779 % 2 ^ 24
  x ^^^ (x / 2 ^ 12)

/-- A kernel descriptor (Table 5.4). -/
def kernelOf (bs : List Byte) : Kernel :=
  { entry := field bs 8 8, coop := field bs 4 4 % 2 = 1, allot := field bs 0x14 2, allotMax := field bs 0x16 2, waves := field bs 0x18 1,
    acc := field bs 0x19 1, clx := field bs 0x1A 1, cly := field bs 0x1B 1, clz := field bs 0x1C 1, scratch := field bs 0x20 4, params := field bs 0x24 4 }

/-- A reserved field of a descriptor is not zero: `FLAGS`[31:1], 0x1D to 0x1F, 0x30 to 0x3F (R5, Table 5.4). -/
def kernelReserved (bs : List Byte) : Bool := field bs 4 4 ≥ 2 || field bs 0x1D 3 ≠ 0 || field bs 0x30 16 ≠ 0

namespace Kernel

/-- A kernel with a cluster shape, and the teams of a cluster (R320). -/
def clustered (k : Kernel) : Bool := k.clx > 0
def clusterSize (k : Kernel) : Nat := if k.clustered then k.clx * k.cly * k.clz else 1

end Kernel

namespace Grid

/-- The number of teams. -/
def teamCount (g : Grid) : Nat := g.gx * g.gy * g.gz
/-- What is handed on as a whole: teams, or clusters (R320, R346). -/
def units (g : Grid) : Nat := g.teamCount / g.kern.clusterSize
/-- The coordinates of the teams of a unit, in the order of their cluster slots. -/
def unitTeams (g : Grid) (u : Nat) : List (Nat × Nat × Nat) :=
  if g.kern.clustered then
    let k := g.kern
    let nx := g.gx / k.clx
    let ny := g.gy / k.cly
    (List.range k.clusterSize).map fun n =>
      (u % nx * k.clx + n % k.clx, u / nx % ny * k.cly + n / k.clx % k.cly, u / (nx * ny) * k.clz + n / (k.clx * k.cly))
  else [(u % g.gx, u / g.gx % g.gy, u / (g.gx * g.gy))]
/-- The linear index of a team. -/
def linear (g : Grid) (x y z : Nat) : Nat := x + g.gx * (y + g.gy * z)
/-- The placement key (R341). -/
def keyAt (g : Grid) (x y z : Nat) : Nat :=
  (match g.keyfn with
    | 0 => g.keyarg + g.linear x y z
    | 1 => g.keyarg
    | 2 => g.keyarg + x
    | _ => g.keyarg + y) % 2 ^ 24

end Grid

namespace State

/-- Package and die that a key selects, as package `p` counts them (R252, R346). -/
def slotOf (s : State) (p key : Nat) : Nat × Nat :=
  let x := hashH key % (8 * (s.pkg p).n)
  ((s.route p (x / 8)).getD p, x % 8)

/-- The registers a core governs a context's teams with, or would load (R48). -/
def coreRegs (s : State) (c : CoreId) (k : Nat) : CtxRegs :=
  match Map.find (s.core c).loaded k with
  | some l => l.regs
  | none => (s.context k).regs
/-- Scratchpad of a split in KiB (R40). -/
def scrKiB (r : CtxRegs) : Nat := r.storeSplit.toNat / 256 % 32 * 32
/-- The resident teams of a core. -/
def residents (s : State) (c : CoreId) : List (Nat × Team) := s.teams.filter fun (_, x) => x.place = .resident && x.core = c
def sumOf (xs : List Nat) : Nat := xs.foldl (· + ·) 0
/-- The live waves of a core. -/
def liveWaves (s : State) (c : CoreId) : List WaveId := (s.waves.filter fun (w, x) => w.core = c && x.live).map (·.1)

/-- Whether a core can admit a team of `waves` waves holding `regs` registers in all, with scratchpad and tiles (R40, R42, R182, R203). -/
def canAdmit (s : State) (c : CoreId) (ctx waves regs scr acc : Nat) : Bool :=
  let g := s.coreRegs c ctx
  let ts := s.residents c
  !(s.core c).coreRetired && !(acc > 0 && (s.core c).retired)
    && ts.all (fun (_, x) => x.ctx = ctx || (s.coreRegs c x.ctx).storeSplit = g.storeSplit)
    && (s.liveWaves c).length + waves ≤ 64
    && regsInUse s c + regs ≤ regFile g
    && sumOf (ts.map (·.2.scrKB)) + scr ≤ scrKiB g
    && sumOf (ts.map (·.2.nacc)) + acc ≤ 16
/-- The free register file of a core for a team of a context: that of the split of its resident teams less their allotments, or all of the context's (R347). -/
def freeFile (s : State) (c : CoreId) (ctx : Nat) : Nat :=
  match s.residents c with
  | [] => regFile (s.context ctx).regs
  | (_, x) :: _ => regFile (s.coreRegs c x.ctx) - regsInUse s c

/-- The first slots from 0 that are not taken. -/
def freeSlots (taken : List Nat) (bound n : Nat) : List Nat := ((List.range bound).filter fun k => !taken.contains k).take n

/-- A core takes up a team of a context: it loads the registers unless it governs teams of the context already; in unified mode no load meets a
copy outside the directory (R48, R244). -/
def loadContext (s : State) (c : CoreId) (ctx : Nat) : State :=
  let x := s.core c
  if Map.has x.loaded ctx then s
  else
    let r := (s.context ctx).regs
    s.setCore c { x with loaded := Map.set x.loaded ctx ⟨r⟩ }

/-- Storage that teams of other contexts alone have used is zero when it is handed over (R383; log entry 26). -/
def storageZero (s : State) (c : CoreId) (ctx : Nat) : Bool := (s.core c).usedBy ≠ [] && !(s.core c).usedBy.contains ctx

/-- The tiles of a new team: free physical tiles of the core (R182). -/
def newTiles (s : State) (c : CoreId) (n seed : Nat) (zero : Bool) : Map Nat Tile :=
  let used := (s.residents c).flatMap fun (_, x) => x.tiles.map (·.2.phys)
  let phys := freeSlots used 16 n
  (List.range n).map fun k => (k, { phys := phys.getD k 0, zeroed := zero, seed := seed + k })

/-- The creation of a team's waves on a core (R26, R47). -/
def placeTeam (s : State) (n : Nat) (c : CoreId) : State :=
  let x := s.team n
  let g := s.grid x.grid
  let s := s.loadContext c x.ctx
  let zero := s.storageZero c x.ctx
  let slot := (freeSlots ((s.residents c).map (·.2.slot)) 64 1).headD 0
  let ws := (freeSlots ((s.liveWaves c).map (·.slot)) 64 x.nwave).map (⟨c, ·⟩)
  let (seed, s) := s.freeIdx
  let s := { s with free := s.free + 16 }
  let tiles := s.newTiles c g.kern.acc seed zero
  let base := sumOf ((s.liveWaves c).map fun w => (s.wave w).allot)
  let s := s.setTeam n { x with core := c, slot, place := .resident, waves := ws, scratch := [], scrSeed := seed, scrZero := zero, bars := [], handles := [],
                                nacc := g.kern.acc, tiles }
  let s := s.modCore c fun y => { y with usedBy := if y.usedBy.contains x.ctx then y.usedBy else x.ctx :: y.usedBy }
  ((List.range ws.length).zip ws).foldl (fun s (k, w) =>
    let s := s.setWave w
      { team := n, num := k, base := base + k * g.kern.allot, allot := g.kern.allot, live := true
        s := [(0, lo32 x.param), (1, hi32 x.param), (2, lo32 x.indir), (3, hi32 x.indir), (4, BitVec.ofNat 32 k)] }
    (lanes w).foldl (fun s t => s.setThread t { pc := g.kbase + BitVec.ofNat 64 g.kern.entry, status := .runnable, waitSince := s.now c }) s) s

/-- The core of a die that admits a team with the most free register file; the lowest number on a tie (R347). -/
def bestCore (s : State) (p d ctx waves regs scr acc : Nat) : Option CoreId :=
  let cs := ((List.range 128).map fun k => (⟨p, d, k⟩ : CoreId)).filter fun c => s.canAdmit c ctx waves regs scr acc
  match cs with
  | [] => none
  | c :: rest => some (rest.foldl (fun b x => if s.freeFile b ctx < s.freeFile x ctx then x else b) c)

/-- Places the teams of one unit on a die: a team on its best core, a cluster on the die's cluster with the most free register file (R320, R347). -/
def placeUnit (s : State) (p d : Nat) (ns : List Nat) : Option State :=
  match ns with
  | [] => none
  | n :: _ =>
    let x := s.team n
    let k := (s.grid x.grid).kern
    if k.clustered then
      let ok (q : Nat) : Bool := (List.range ns.length).all fun j => s.canAdmit ⟨p, d, 32 * q + j⟩ x.ctx k.waves (k.waves * k.allot) k.scratch k.acc
      let free (q : Nat) : Nat := sumOf ((List.range 32).map fun j => s.freeFile ⟨p, d, 32 * q + j⟩ x.ctx)
      match (List.range 4).filter ok with
      | [] => none
      | q :: rest =>
        let b := rest.foldl (fun b q => if free b < free q then q else b) q
        some (((List.range ns.length).zip ns).foldl (fun s (j, m) => s.placeTeam m ⟨p, d, 32 * b + j⟩) s)
    else (s.bestCore p d x.ctx k.waves (k.waves * k.allot) k.scratch k.acc).map fun c => s.placeTeam n c

/-- The unit of a pending team in a Bobbin: a cluster, or the team alone (R320). -/
def unitOf (s : State) (bob : List Nat) (n : Nat) : List Nat :=
  let x := s.team n
  if x.clusterSlot.isSome then bob.filter fun m => (s.team m).grid = x.grid && (s.team m).cluster = x.cluster else [n]

/-- Whether a package may start teams of a context: no quiesce stops it and the context is not stopped there (R415, R427). -/
def mayStart (s : State) (p ctx : Nat) : Bool :=
  s.running p && !Map.has (s.context ctx).stop p
/-- Whether a context may be scheduled (R51). -/
def schedulable (s : State) (ctx : Nat) : Bool :=
  let r := (s.context ctx).regs
  Map.has s.contexts ctx && r.trapQueue.toNat / 4096 ≠ 0 && r.spoolBase ≠ 0 && r.chkHandler ≠ 0
/-- Whether a package may place teams of a context. -/
def mayPlace (s : State) (p ctx : Nat) : Bool := s.mayStart p ctx && s.schedulable ctx

/-- A unit of a grid becomes pending teams (R341, R346, R350). -/
def makeTeams (s : State) (gid u : Nat) : State × List Nat :=
  let g := s.grid gid
  let ts := g.unitTeams u
  ((List.range ts.length).zip ts).foldl (fun (acc : State × List Nat) (j, x, y, z) =>
    let (s, ns) := acc
    let (n, s) := s.freshId
    let tm : Team :=
      { ctx := g.ctx, grid := gid, x, y, z, key := g.keyAt x y z, place := .pending, nwave := g.kern.waves, scrKB := g.kern.scratch,
        clusterSlot := if g.kern.clustered then some j else none, cluster := u, param := g.param,
        indir := if g.mergedInto.isSome then g.indir + BitVec.ofNat 64 (32 * g.linear x y z) else 0, bornAt := g.acceptedAt }
    (s.setTeam n tm, ns ++ [n])) (s, [])
/-- Where a unit goes (R252, R320, R346, R347). -/
def unitTarget (s : State) (g : Grid) (u : Nat) : Nat × Nat :=
  let (x, y, z) := (g.unitTeams u).headD (0, 0, 0)
  if g.ply then (g.pkg, g.linear x y z % 8) else s.slotOf g.pkg (g.keyAt x y z)
/-- The first unit of a grid from `u` on, among `k` at most, whose target a die is and that is not taken. -/
def nextUnit (s : State) (g : Grid) (t : Nat × Nat) (taken : List Nat) : Nat → Nat → Option Nat
  | 0, _ => none
  | k + 1, u => if u ≥ g.units then none else if !taken.contains u && s.unitTarget g u = t then some u else s.nextUnit g t taken k (u + 1)
/-- The next unit of a list held for a die. -/
def listNext (s : State) (t : Nat × Nat) (l : UnitList) : Option Nat :=
  let g := s.grid l.grid
  s.nextUnit g t l.taken (g.units - l.next) l.next
/-- A unit leaves the Skein: its teams are pending. -/
def handUnit (s : State) (gid u : Nat) : State × List Nat :=
  let (s, ns) := s.makeTeams gid u
  (s.modGrid gid fun g => { g with handed := g.handed + 1 }, ns)
/-- Gives a Bobbin its own teams in the order of their arrival, while no more than 64 are pending (R346). -/
def fillBobbin (s : State) (p d : Nat) : Nat → State
  | 0 => s
  | fuel + 1 =>
    match (s.die p d).lists with
    | [] => s
    | l :: ls =>
      match s.listNext (p, d) l with
      | none => (s.modDie p d fun x => { x with lists := ls }).fillBobbin p d fuel
      | some u =>
        if (s.die p d).bobbin.length + (s.grid l.grid).kern.clusterSize > 64 then s.modDie p d fun x => { x with lists := { l with next := u } :: ls }
        else
          let (s, ns) := s.handUnit l.grid u
          (s.modDie p d fun x => { x with lists := { l with next := u + 1 } :: ls, bobbin := x.bobbin ++ ns }).fillBobbin p d fuel
/-- Fills the Bobbins of a package. -/
def fillBobbins (s : State) (p : Nat) : State :=
  (List.range 8).foldl (fun (s : State) d => if (s.die p d).lists = [] then s else s.fillBobbin p d (65 + (s.die p d).lists.length)) s
/-- The dies that units of a grid target. -/
def gridDies (s : State) (g : Grid) : List (Nat × Nat) :=
  let all := (s.partition g.pkg).flatMap fun q => (List.range 8).map fun d => (q, d)
  if g.units ≤ all.length then ((List.range g.units).map (s.unitTarget g)).eraseDups else all.filter fun t => (s.nextUnit g t [] g.units 0).isSome
/-- Whether a team list can be passed from a package's Skein to another's: through the Hank of their tray, or the Reel and the Hank of the target's (R346). -/
def pathUp (s : State) (p q : Nat) : Bool :=
  let up (r : Nat) : Bool := (s.pkg r).alive
  p = q || (up (s.pkg q).hankPkg && ((s.pkg p).tray = (s.pkg q).tray || up (s.pkg p).reelPkg))
/-- A package's part of the team list of a grid arrives at its Skein. -/
def giveList (s : State) (gid q : Nat) : State :=
  (((s.gridDies (s.grid gid)).filter (·.1 = q)).foldl (fun (s : State) (_, d) => s.modDie q d fun x => { x with lists := x.lists ++ [{ grid := gid }] }) s).fillBobbins q
/-- A package's Skein passes on what it can: team lists to other packages, teams to its Bobbins; a grid whose teams have all been passed on to a Bobbin, a Hank or
a Reel is held no more (R344, R346). -/
def passOn (s : State) (p : Nat) : State :=
  let out := (s.pkg p).outbox
  let s := s.modPkg p fun k => { k with outbox := out.filter fun (_, q) => !s.pathUp p q }
  let s := (out.filter fun (_, q) => s.pathUp p q).foldl (fun (s : State) (g, q) => s.giveList g q) s
  let s := s.fillBobbins p
  let held (g : Nat) : Bool := (s.grid g).kern.coop || (s.pkg p).outbox.any (·.1 = g) || (List.range 8).any fun d => (s.die p d).lists.any (·.grid = g)
  s.modPkg p fun k => { k with accepted := k.accepted.filter held }
/-- Splits an accepted grid by target (R346). A cooperative grid stays whole (R321). -/
def splitGrid (s : State) (gid : Nat) : State :=
  let g := s.grid gid
  let p := g.pkg
  if g.kern.coop then s
  else
    let qs := ((s.gridDies g).map (·.1)).eraseDups
    ((if qs.contains p then s.giveList gid p else s).modPkg p fun k => { k with outbox := k.outbox ++ ((qs.filter (· ≠ p)).map fun q => (gid, q)) }).passOn p

/-- Places every team of a cooperative grid at once, each where its key selects when that die admits it, else anywhere in the partition (R321); under `PLY` on the
dies of R347 alone. -/
def placeCoop (s : State) (gid : Nat) : Option State :=
  let g := s.grid gid
  let dies := (s.partition g.pkg).flatMap fun p => (List.range 8).map fun d => (p, d)
  (List.range g.units).foldl (fun (r : Option State) u => r.bind fun s =>
    let (s, ns) := s.makeTeams gid u
    let t := s.unitTarget g u
    (t :: (if g.ply then [] else dies.filter (· ≠ t))).findSome? fun (p, d) => if s.mayPlace p g.ctx then s.placeUnit p d ns else none) (some s)

-- launches (R339, R340)

/-- Whether some core can admit a team of a kernel (R40, R42, R182). -/
def kernelFits (r : CtxRegs) (k : Kernel) : Bool :=
  1 ≤ k.waves && k.waves ≤ 32 && 8 ≤ k.allot && k.allot ≤ 256 && k.allot % 8 = 0 && k.waves * k.allot ≤ regFile r && k.scratch ≤ scrKiB r && k.acc ≤ 16
/-- Teams of a kernel that one core holds with every core free for its context. -/
def corePacks (r : CtxRegs) (k : Kernel) : Nat :=
  let by_ (a b : Nat) : Nat := if b = 0 then 64 else a / b
  min (64 / k.waves) (min (regFile r / (k.waves * k.allot)) (min (by_ (scrKiB r) k.scratch) (by_ 16 k.acc)))
/-- Whether the teams of a cooperative grid could all be resident (R321), under `PLY` on the dies of R347. -/
def coopFits (s : State) (p ctx : Nat) (g : Grid) : Bool :=
  let r := (s.context ctx).regs
  let good (c : CoreId) : Bool := !(s.core c).coreRetired && !(g.kern.acc > 0 && (s.core c).retired)
  let places (q d : Nat) : Nat :=
    (if g.kern.clustered then (List.range 4).filter fun k => (List.range g.kern.clusterSize).all fun j => good ⟨q, d, 32 * k + j⟩
     else (List.range 128).filter fun c => good ⟨q, d, c⟩).length * corePacks r g.kern
  let all := sumOf ((if g.ply then [p] else s.partition p).flatMap fun q => (List.range 8).map (places q))
  g.units ≤ all && (!g.ply || (List.range 8).all fun d => ((List.range g.units).filter fun u => s.unitTarget g u = (p, d)).length ≤ places p d)

/-- The grid a packet describes (Table 14.2). -/
def packetGrid (bs : List Byte) (k : Kernel) (ctx p depth : Nat) (parent queue : Option Nat) : Grid :=
  { ctx, kern := k, kdesc := BitVec.ofNat 64 (field bs 8 8), kbase := BitVec.ofNat 64 (field bs 0x10 8), gx := field bs 0x20 4, gy := field bs 0x24 2,
    gz := field bs 0x26 2, param := BitVec.ofNat 64 (field bs 0x18 8), depth, parent, sigAddr := BitVec.ofNat 64 (field bs 0x28 8),
    sigVal := BitVec.ofNat 64 (field bs 0x30 8), sscope := field bs 2 1, keyfn := field bs 1 1, keyarg := field bs 0x38 4, ply := (field bs 3 1).testBit 2,
    pkg := p, queue }
/-- The packet's own fields (status 0x01): `flags` bounds `PFLAGS`. -/
def packetOk (bs : List Byte) (flags : Nat) : Bool :=
  field bs 0 1 = 1 && field bs 1 1 ≤ 3 && field bs 2 1 ≤ 4 && (field bs 3 1 ||| flags) = flags && field bs 4 4 = 0 && field bs 0x3C 4 = 0
    && field bs 0x28 8 % 8 = 0
/-- Whether a lease covers the kernel descriptor that a packet names: the launch waits (R263). -/
def descHeld (s : State) (p ctx : Nat) (bs : List Byte) : Bool := s.vaLeased p (s.ctxRoot ctx) (BitVec.ofNat 64 (field bs 8 8)) 64
/-- Checks 2 to 9 of R340 on a launch: a status, or the grid. A reserved field of the descriptor takes the status of reserved fields, once it is read (log entry
49, DEDUCED); for values outside Table 5.2 the spec gives no status: a count of waves or an allotment takes 0x05, a cluster shape 0x03, `ALLOTMAX` none (log
entry 48, DESIGN CHOICE). -/
def launchCheck (s : State) (p ctx : Nat) (bs : List Byte) (flags depth : Nat) (parent queue : Option Nat) : Except Nat Grid :=
  let va : Dword := BitVec.ofNat 64 (field bs 8 8)
  if !packetOk bs flags then .error 1
  else if field bs 0x20 4 = 0 ∨ field bs 0x24 2 = 0 ∨ field bs 0x26 2 = 0 then .error 2
  else if !s.schedulable ctx then .error 6
  else match s.vaRead p (s.ctxRoot ctx) none va 64, s.piecesOf p (s.ctxRoot ctx) none .load va 64 with
    | .ok kb, .ok ps =>
      let k := kernelOf kb
      let g := packetGrid bs k ctx p depth parent queue
      if ps.any fun x => x.pte.key ≠ ctx then .error 6
      else if kernelReserved kb then .error 1
      else if k.clustered && (k.cly = 0 || k.clz = 0 || g.gx % k.clx ≠ 0 || g.gy % k.cly ≠ 0 || g.gz % k.clz ≠ 0 || k.clusterSize > 32) then .error 3
      else if !kernelFits (s.context ctx).regs k then .error 5
      else if k.coop && !s.coopFits p ctx g then .error 4
      else .ok g
    | _, _ => .error 7
/-- A grid is launched, by an operation or by its queue's packet: what precedes happens before its accesses (R246). -/
def launchEv (s : State) (n p : Nat) (op : Option Nat) : State := s.recordPoint (s.hubEv p (.launch n op))
/-- A grid is accepted and its teams are handed on. -/
def acceptGrid (s : State) (g : Grid) (op : Option Nat) : State × Nat :=
  let (n, s) := s.freshId
  let s := (s.launchEv n g.pkg op).setGrid n { g with acceptedAt := s.hubNow g.pkg }
  ((s.modPkg g.pkg fun k => { k with accepted := k.accepted ++ [n] }).splitGrid n, n)

/-- Accepted grids a Skein holds (R344): a merged grid counts once. -/
def skeinHolds (s : State) (p : Nat) : Nat :=
  (((s.pkg p).accepted.map fun g => (s.grid g).mergedInto.getD g).eraseDups).length

/-- The scope that a number names (Table 14.2). -/
def scopeNum (n : Nat) : Scope := match n with | 0 => .core | 1 => .die | 2 => .pkg | 3 => .tray | _ => .rack
/-- A release store of 8 bytes by a package's packet engine at a scope, which follows the accesses of some grids (R247); a fault of it is dropped (log entry 27). -/
def engineStore (s : State) (p ctx : Nat) (a v : Dword) (scp : Scope) (sig : List Nat) : State :=
  (s.vaWrite p (s.ctxRoot ctx) none a (leBytes v.toNat 8) { s.hubEv p .store with ord := .rel, scp := some scp, bytewise := false, sig }).toOption.getD s
/-- The write of a signal (R247, R340); address 0 stands for none. -/
def signalWrite (s : State) (p ctx : Nat) (a v : Dword) (scp : Scope) (sig : List Nat) : State := if a = 0 then s else s.engineStore p ctx a v scp sig
/-- A grid with its child grids and theirs (R247). -/
def descendants (s : State) : Nat → List Nat → List Nat
  | 0, gs => gs
  | fuel + 1, gs =>
    let more := (s.grids.filter fun (n, g) => !gs.contains n && g.parent.elim false gs.contains).map (·.1)
    if more = [] then gs else s.descendants fuel (gs ++ more)
/-- Whether a signal's line is leased: its writer waits (R263). -/
def signalHeld (s : State) (p ctx : Nat) (a : Dword) : Bool := a ≠ 0 && s.vaLeased p (s.ctxRoot ctx) a 8

-- retirement (R323)

/-- A grid that meets the conditions of R323. -/
def gridDone (s : State) (n : Nat) : Bool :=
  let g := s.grid n
  Map.has s.grids n && !g.retired && g.handed ≥ g.units && !(s.pkg g.pkg).accepted.contains n
    && s.teams.all (fun (_, x) => x.grid ≠ n || x.place = .ended)
    && s.ops.all (fun (_, o) => o.grid ≠ n || !o.pending || isHost o.issuer)
    && s.grids.all fun (_, c) => c.parent ≠ some n || c.retired
/-- Writes the signal of a grid and retires it; its parent follows when it meets the conditions. -/
def retireGrid (s : State) (n : Nat) : Nat → State
  | 0 => s
  | fuel + 1 =>
    let g := s.grid n
    if !s.gridDone n || s.signalHeld g.pkg g.ctx g.sigAddr then s
    else
      let s := s.signalWrite g.pkg g.ctx g.sigAddr g.sigVal (scopeNum g.sscope) (s.descendants s.grids.length [n])
      let s := s.setGrid n { g with retired := true }
      let s := { s with teams := s.teams.filter fun (_, x) => x.grid ≠ n,
                        queues := Map.mapVals s.queues fun _ q => { q with grids := q.grids.filter (· ≠ n) } }
      let s := match g.mergedInto with
        | some m =>
          if s.grids.all fun (_, c) => c.mergedInto ≠ some m || c.retired then
            s.modContext g.ctx fun c => { c with sysTables := c.sysTables.filter fun (k, _) => k ≠ m }
          else s
        | none => s
      match g.parent with
      | some q => s.retireGrid q fuel
      | none => s

-- the aggregator (R349)

/-- Launches that one window takes. -/
def mergeable (a b : Grid) : Bool :=
  a.kdesc = b.kdesc && a.kbase = b.kbase && a.keyfn = b.keyfn && a.ctx = b.ctx && a.depth = b.depth && a.kern.waves = b.kern.waves
    && a.kern.allot = b.kern.allot && a.kern.scratch = b.kern.scratch && a.kern.acc = b.kern.acc
/-- The first run of free pages of a pool (R349). -/
def freePages (used : List (Nat × Nat × Nat)) (total n : Nat) : Option Nat :=
  (0 :: used.map fun (_, f, k) => f + k).find? fun f => f + n ≤ total && used.all fun (_, g, k) => g + k ≤ f || f + n ≤ g
/-- An entry of the indirection table (Table 14.5). -/
def indirEntry (g : Grid) (child : Nat) (x y z : Nat) : List Byte :=
  leBytes g.param.toNat 8 ++ leBytes x 4 ++ leBytes y 2 ++ leBytes z 2 ++ leBytes g.gx 4 ++ leBytes g.gy 2 ++ leBytes g.gz 2 ++ leBytes child 4 ++ leBytes 0 4
/-- The launches of a closed window become one grid (R349): their indirection entries are written and their teams handed on, child by child. With no room in
the pool of system pages they stay separate grids, all accepted at once (log entry 28). -/
def closeWindow (s : State) (p : Nat) (w : Window) : State :=
  match w.grids with
  | [] => s
  | g0 :: _ =>
    let ctx := (s.grid g0).ctx
    let c := s.context ctx
    let total := sumOf (w.grids.map fun g => (s.grid g).teamCount)
    let pages := (32 * total + 65535) / 65536
    let now := s.hubNow p
    let take (s : State) : State := w.grids.foldl (fun (s : State) g => (s.modGrid g fun x => { x with acceptedAt := now }).splitGrid g)
      (s.modPkg p fun k => { k with accepted := k.accepted ++ w.grids })
    match freePages c.sysTables c.sysPages pages with
    | none => take s
    | some f =>
      let (m, s) := s.freshId
      let base := c.sysPool + BitVec.ofNat 64 (f * 65536)
      let s := s.modContext ctx fun c => { c with sysTables := c.sysTables ++ [(m, f, pages)] }
      let (s, _) := ((List.range w.grids.length).zip w.grids).foldl (fun (acc : State × Nat) (j, gid) =>
        let (s, at_) := acc
        let g := { s.grid gid with mergedInto := some m, indir := base + BitVec.ofNat 64 (32 * at_) }
        let s := s.setGrid gid g
        let bs := (List.range g.teamCount).flatMap fun i => indirEntry g j (i % g.gx) (i / g.gx % g.gy) (i / (g.gx * g.gy))
        ((s.vaWrite p (s.ctxRoot ctx) none g.indir bs).toOption.getD s, at_ + g.teamCount)) (s, 0)
      take s

end State

/-- `LNCH` (R366, R367): the packet is read and goes to the Skein of the package. -/
def execLnch (h : Hdr) (tok : Nat) (off : SrcD) (s : State) : Outcome :=
  let i : Instr := .lnch h tok off
  .next (s.issue i fun s g pc =>
    match s.performer g i with
    | none => s
    | some t =>
      let npc := pc + BitVec.ofNat 64 i.size
      if s.holdsLease t then s.breakLease t 2
      else match s.readOp t off.src .b32 with
        | .error c => s.defer t (s.trapAt t c pc npc 0 0 false)
        | .ok a =>
          let tm := s.teamOf t
          if a.toNat % 8 ≠ 0 then s.defer t (s.trapAt t .align pc npc 0 a false)
          else if a.toNat + 64 > s.scrSize tm then s.defer t (s.trapAt t .xlat pc npc 0 a false)
          else if (s.grid (s.team tm).grid).depth ≥ 10 then s.defer t (s.trapAt t .depth pc npc 0 0 false)
          else if s.poisonAt (.scr tm a.toNat) 64 then s.defer t (s.trapAt t .poison pc npc 0 a false)
          else
            let s := s.tookReads t [(off, .b32)]
            let (n, s) := s.freshId
            let bs := s.scrBytes tm a.toNat 64
            let s := s.startToken n (s.newOp t .lnch tok a pc bs)
            s.modPkg t.wave.core.pkg fun k => { k with launches := k.launches ++ [{ op := n, packet := bs }] })

/-- The oldest waiting `LNCH` grid whose context may start grids on a package (R344, R415). -/
def State.nextLaunch (s : State) (p : Nat) : Option Launch :=
  (s.pkg p).launches.find? fun l => (s.op l.op).elim true fun o => s.mayStart p o.ctx

/-- `LNCH_GRID_ACCEPT` (R344, R367): the oldest `LNCH` grid at a Skein is refused, merged into a window, or accepted. -/
def execLnchGridAccept (p : Nat) (s : State) : Outcome :=
  match s.nextLaunch p with
  | none => .refused (.notEnabled "no LNCH grid waits")
  | some l =>
    match s.op l.op with
    | none => .refused (.notEnabled "the launching operation is gone")
    | some o =>
      let s' := s.modPkg p fun k => { k with launches := k.launches.filter (·.op ≠ l.op) }
      if s.descHeld p o.ctx l.packet then .refused (.notEnabled "a line is leased")
      else match s.launchCheck p o.ctx l.packet 2 ((s.grid o.grid).depth + 1) (some o.grid) none with
      | .error st => .next (s'.finishOp l.op o st 0)
      | .ok g =>
        if (field l.packet 3 1).testBit 1 && !g.kern.coop && !g.kern.clustered then
          let (n, s') := s'.freshId
          let s' := (s'.launchEv n p (some l.op)).setGrid n g
          let ws := (s'.pkg p).windows_
          let takes (w : Window) : Bool := !w.closed && w.grids.length < 4096 && decide (s'.hubNow p < w.opened + 2048) && (w.grids.head?.elim false fun q => State.mergeable (s'.grid q) g)
          let ws := if ws.any takes then ws.map fun w => if takes w then { w with grids := w.grids ++ [n] } else w
            else ws ++ [{ opened := s'.hubNow p, grids := [n] }]
          .next ((s'.modPkg p fun k => { k with windows_ := ws }).finishOp l.op o 0 0)
        else if s.skeinHolds p ≥ 16 then .refused (.notEnabled "the Skein holds 16 grids")
        else .next ((s'.acceptGrid g (some l.op)).1.finishOp l.op o 0 0)

/-- `MERGE_WINDOW_CLOSE` (R349): the merged grid waits like any other while the Skein holds 16 (R344). -/
def execMergeWindowClose (p w : Nat) (s : State) : Outcome :=
  match (s.pkg p).windows_[w]? with
  | none => .refused (.notEnabled "no such window")
  | some x =>
    if s.hubNow p < x.opened + 2048 ∧ x.grids.length < 4096 then .refused (.notEnabled "the window stays open")
    else if s.skeinHolds p ≥ 16 then .refused (.notEnabled "the Skein holds 16 grids")
    else .next ((s.modPkg p fun k => { k with windows_ := k.windows_.eraseIdx w }).closeWindow p x)

/-- `TEAM_PLACE` (R347, R320, R321): the oldest pending unit that some core of the die admits; a team that waits holds back the younger teams of its grid. Else a
cooperative grid of the package's Skein is placed whole. -/
def execTeamPlace (p d : Nat) (s : State) : Outcome :=
  let bob := (s.die p d).bobbin
  let unitOf (n : Nat) : List Nat := s.unitOf bob n
  let (_, found) := bob.foldl (fun (acc : List Nat × Option (List Nat × State)) n =>
    let (held, r) := acc
    let x := s.team n
    if r.isSome || held.contains x.grid then (held, r)
    else match (if s.mayPlace p x.ctx then s.placeUnit p d (unitOf n) else none) with
      | some s' => (held, some (unitOf n, s'))
      | none => (x.grid :: held, none)) ([], none)
  match found with
  | some (ns, s') =>
    let s' := s'.modDie p d fun x => { x with bobbin := x.bobbin.filter fun n => !ns.contains n }
    .next (if ns = [] then s' else s'.passOn p)
  | none =>
    match (s.pkg p).accepted.findSome? fun g => if (s.grid g).kern.coop then (s.placeCoop g).map fun s' => (g, s') else none with
    | some (g, s') =>
      let s' := s'.modGrid g fun x => { x with handed := x.units }
      .next (s'.modPkg p fun k => { k with accepted := k.accepted.filter (· ≠ g) })
    | none => .refused (.notEnabled "no core admits a pending team")

namespace State

/-- The pending units of a Bobbin, oldest first. -/
def bobbinUnits (s : State) (q e : Nat) : List (List Nat) := (((s.die q e).bobbin).map (s.unitOf (s.die q e).bobbin)).eraseDups
/-- Teams of cooperative grids and of `PLY` launches are never stolen (R348). -/
def stealable (s : State) (g : Nat) : Bool := !(s.grid g).kern.coop && !(s.grid g).ply
/-- The units that the Skein of a package holds for a die. -/
def heldUnits (s : State) (q e : Nat) : List (Nat × Nat) :=
  (s.die q e).lists.flatMap fun l =>
    let g := s.grid l.grid
    (((List.range (g.units - l.next)).map (l.next + ·)).filter fun u => !l.taken.contains u && s.unitTarget g u = (q, e)).map fun u => (l.grid, u)

/-- What stealing moves: pending teams of a Bobbin, or a unit its Skein holds. -/
inductive Loot where
  | pending (q e : Nat) (ns : List Nat)
  | held (q e grid u : Nat)

/-- The teams of it. -/
def Loot.teams (s : State) : Loot → Nat
  | .pending _ _ ns => ns.length
  | .held _ _ g _ => (s.grid g).kern.clusterSize
def Loot.pkg : Loot → Nat
  | .pending q _ _ => q
  | .held q _ _ _ => q
/-- Whether it may be stolen. -/
def Loot.ok (s : State) : Loot → Bool
  | .pending _ _ ns => ns.all fun n => s.stealable (s.team n).grid
  | .held _ _ g _ => s.stealable g
/-- What the Bobbins of a package hold, and what its Skein holds; within each the older first. -/
def lootOf (s : State) (q : Nat) (dies : List Nat) (skein : Bool) : List Loot :=
  (dies.flatMap fun e => (s.bobbinUnits q e).map (.pending q e))
    ++ (if skein then dies.flatMap fun e => (s.heldUnits q e).map fun (g, u) => .held q e g u else [])
/-- The youngest of some units, `k` teams at most, oldest first. -/
def youngest (s : State) (k : Nat) (xs : List Loot) : List Loot :=
  (xs.reverse.foldl (fun (acc : List Loot × Nat) x => if x.ok s && acc.2 + x.teams s ≤ k then (x :: acc.1, acc.2 + x.teams s) else acc) ([], 0)).1
/-- A unit becomes pending at a Bobbin. -/
def takeLoot (p d : Nat) (s : State) (x : Loot) : State :=
  let put (s : State) (ns : List Nat) : State := s.modDie p d fun y => { y with bobbin := y.bobbin ++ ns }
  match x with
  | .pending q e ns => put (s.modDie q e fun y => { y with bobbin := y.bobbin.filter fun n => !ns.contains n }) ns
  | .held q e g u =>
    let s := s.modDie q e fun y => { y with lists := y.lists.map fun l => if l.grid = g then { l with taken := u :: l.taken } else l }
    let (s, ns) := s.handUnit g u
    put s ns
/-- Teams not yet placed: pending ones, and those a Skein holds. -/
def unplaced (s : State) (q : Nat) (dies : List Nat) (skein : Bool) : Nat := sumOf ((s.lootOf q dies skein).map (Loot.teams s))
/-- The victim with the most unplaced teams, two at least, the first on a tie. -/
def mostOf (xs : List (α × Nat)) : Option (α × Nat) :=
  (xs.filter (·.2 ≥ 2)).foldl (fun (b : Option (α × Nat)) x =>
    match b with
    | some y => if y.2 < x.2 then some x else b
    | none => some x) none

end State

/-- `TEAM_STEAL` (R348): an idle Bobbin takes half the youngest pending teams of the sibling that has the most; else a unit its Skein holds, the oldest (log entry
53, DESIGN CHOICE: the spec gives no number); else, through the Hank, half the unplaced teams, 64 at most, of the package of its tray that has the most. A
Bobbin steals once in a cycle (log entry 53). -/
def execTeamSteal (p d : Nat) (s : State) : Outcome :=
  let now := (s.die p d).now
  let idle := (s.die p d).bobbin = [] && (s.die p d).stealAt ≠ some now && (List.range 128).any fun k => s.liveWaves ⟨p, d, k⟩ = []
  let take (xs : List State.Loot) : Outcome :=
    let s := (xs.foldl (State.takeLoot p d) s).modDie p d fun x => { x with stealAt := some now }
    .next ((xs.map State.Loot.pkg).eraseDups.foldl State.passOn s)
  let others := (List.range 8).filter (· ≠ d)
  let sibling := (State.mostOf (others.map fun e => (e, (s.die p e).bobbin.length))).elim [] fun (e, n) => s.youngest (n / 2) (s.lootOf p [e] false)
  if !idle then .refused (.notEnabled "the Bobbin is not idle")
  else if !sibling.isEmpty then take sibling
  else match (others.flatMap fun e => (s.heldUnits p e).map fun (g, u) => State.Loot.held p e g u).find? (State.Loot.ok s) with
    | some x => take [x]
    | none =>
      let near := if (s.pkg (s.pkg p).hankPkg).alive then (s.partition p).filter fun q => q ≠ p && (s.pkg q).tray = (s.pkg p).tray else []
      match State.mostOf (near.map fun q => (q, s.unplaced q (List.range 8) true)) with
      | some (q, n) =>
        match s.youngest (min 64 (n / 2)) (s.lootOf q (List.range 8) true) with
        | [] => .refused (.notEnabled "no team can be taken")
        | xs => take xs
      | none => .refused (.notEnabled "no team can be taken")

/-- `GRID_RETIRE` (R323). -/
def execGridRetire (g : Nat) (s : State) : Outcome :=
  if s.gridDone g && !s.signalHeld (s.grid g).pkg (s.grid g).ctx (s.grid g).sigAddr then .next (s.retireGrid g 11)
  else .refused (.notEnabled "the grid does not meet the conditions of retirement")

end Sys2Proof.Machine
end

