-- ==== Sys2Proof/Machine/Pools.lean ====
section
/-! DEFINITION. Work pools: `PAPP`, `DQRY`, `PCLS` and their service at the owner's Skein (R351, R352, R366, R368). -/

namespace Sys2Proof.Machine
namespace State

/-- The package that serves a handle for a requester of package `p`; a handle that names no package is answered at home. -/
def poolOwner (s : State) (p h : Nat) : Nat := if h / 2 ^ 20 ≠ 0 then p else (s.route p (h % 4096)).getD p
/-- The record size of the pool that a handle names, 0 for none. -/
def poolRec (s : State) (p h : Nat) : Nat := (s.poolOf p h).elim 0 fun n => (Map.getD s.pools n {}).recSize

/-- The checks on the place of a record and, for `PAPP`, the record (R366, R368): on a host core it lies in `.g`. -/
def poolRecord (s : State) (t : ThreadId) (append : Bool) (size : Nat) (a : Dword) : State × Except AFault (List Byte) :=
  if a.toNat % 8 ≠ 0 then (s, .error (.align, 0, a))
  else if isHost t then
    if append then s.threadRead t a size
    else if size = 0 then (s, .ok [])
    else match s.globalAddr t .store a with
      | (s, .error (c, n)) => (s, .error (c, n, a))
      | (s, .ok _) =>
        let z := a + BitVec.ofNat 64 (size - 1)
        match s.globalAddr t .store z with
        | (s, .error (c, n)) => (s, .error (c, n, z))
        | (s, .ok _) => (s, .ok [])
  else if !append || a.toNat + size > s.scrSize (s.teamOf t) then (s, .ok [])
  else if s.poisonAt (.scr (s.teamOf t) a.toNat) size then (s, .error (.poison, 0, a))
  else (s, .ok (s.scrBytes (s.teamOf t) a.toNat size))

/-- A pool word: performed by the highest-numbered active lane, its request sent to the owner (R366, R368). -/
def poolWord (s : State) (i : Instr) (kind : OpKind) (tok : Nat) (srcs : List (SrcD × OTy)) : State :=
  s.issue i fun s g pc =>
    match s.performer g i with
    | none => s
    | some t =>
      let npc := pc + BitVec.ofNat 64 i.size
      if s.holdsLease t then s.breakLease t 2
      else match s.readOps t srcs with
        | .error c => s.defer t (s.trapAt t c pc npc 0 0 false)
        | .ok xs =>
          let h := (arg xs 0).toNat % 2 ^ 32
          let a := arg xs 1
          let p := t.wave.core.pkg
          match (if kind = .pcls then (s, .ok []) else s.poolRecord t (kind = .papp) (s.poolRec p h) a) with
          | (s, .error (c, n, fa)) => s.defer t (s.trapAt t c pc npc n fa false)
          | (s, .ok bs) =>
            let s := s.tookReads t srcs
            let (n, s) := s.freshId
            let s := s.startToken n (s.newOp t kind tok a pc [])
            s.modPkg (s.poolOwner p h) fun k => { k with poolReqs := k.poolReqs ++
              [{ op := n, handle := BitVec.ofNat 32 h, ctx := s.ctxOf t, record := bs,
                 alloc := if isHost t then none else some (s.scrSize (s.teamOf t)), off := a }] }

/-- The pool of a request, if its handle names one of the context (Table 14.6). -/
def poolFor (s : State) (r : PoolReq) : Option (Nat × Pool) :=
  (s.op r.op).bind fun o => (s.poolOf o.core.pkg r.handle.toNat).bind fun n =>
    (Map.find s.pools n).bind fun x => if x.ctx = r.ctx then some (n, x) else none
/-- Whether a record would reach past the requesting team's allocation (status 0x74). -/
def poolPast (r : PoolReq) (x : Pool) : Bool := r.alloc.elim false fun z => r.off.toNat + x.recSize > z
/-- The count of a result. -/
def poolCount (n : Nat) : Nat := min n (2 ^ 24 - 1)
/-- What precedes some operations of a pool happens before what follows a claim's token (R352). -/
def gives (s : State) (p : Nat) (from_ : List Nat) (n : Nat) : State := s.recordPoint (s.hubEv p (.gives from_ n))
/-- A claim receives a record: it is written before the token completes; while the team is spooled the hub die holds it (R368). -/
def deliverRecord (s : State) (n : Nat) (rec : List Byte) (left : Nat) : State :=
  match s.op n with
  | none => s
  | some o =>
    if o.glob then (s.vaWrite o.core.pkg o.root o.keys o.off rec (s.opEv o)).toOption.getD s |>.finishOp n o 0 (poolCount left)
    else (s.putScr o o.off.toNat rec).finishOp n o 0 (poolCount left)
/-- Whether the record's place on a host core is leased: the write waits (R263). -/
def recordHeld (s : State) (n : Nat) (size : Nat) : Bool := (s.op n).elim false fun o => o.glob && s.vaLeased o.core.pkg o.root o.off size
/-- Completes a request. -/
def poolEnd (s : State) (n st res : Nat) : State := (s.op n).elim s fun o => s.finishOp n o st (poolCount res)
/-- The oldest request at a Skein, removed. -/
def takeReq (s : State) (p : Nat) : Option (PoolReq × OpKind × State) :=
  match (s.pkg p).poolReqs with
  | [] => none
  | r :: rest => (s.op r.op).map fun o => (r, o.kind, s.modPkg p fun k => { k with poolReqs := rest })
def setPool (s : State) (n : Nat) (x : Pool) : State := { s with pools := Map.set s.pools n x }

end State

def execPapp (h : Hdr) (tok : Nat) (hd off : SrcD) (s : State) : Outcome :=
  .next (s.poolWord (.papp h tok hd off) .papp tok [(hd, .b32), (off, if isHostCore s.focus then .b64 else .b32)])
def execDqry (h : Hdr) (tok : Nat) (hd off : SrcD) (s : State) : Outcome :=
  .next (s.poolWord (.dqry h tok hd off) .dqry tok [(hd, .b32), (off, if isHostCore s.focus then .b64 else .b32)])
def execPcls (h : Hdr) (tok : Nat) (hd : SrcD) (s : State) : Outcome := .next (s.poolWord (.pcls h tok hd) .pcls tok [(hd, .b32)])

/-- `POOL_APPEND` (R351, Table 14.6): the owner refuses the record, hands it to the claim that has waited longest, or keeps it. -/
def execPoolAppend (p : Nat) (s : State) : Outcome :=
  match s.takeReq p with
  | some (r, .papp, s') =>
    match s'.poolFor r with
    | none => .next (s'.poolEnd r.op 0x73 0)
    | some (n, x) =>
      if State.poolPast r x then .next (s'.poolEnd r.op 0x74 0)
      else if x.closed then .next (s'.poolEnd r.op 0x72 0)
      else if x.records.length ≥ x.cap then .next (s'.poolEnd r.op 0x71 0)
      else match x.waiting with
        | c :: rest =>
          if s'.recordHeld c x.recSize then .refused (.notEnabled "the claimant's line is leased")
          else .next ((((s'.setPool n { x with waiting := rest }).deliverRecord c r.record x.records.length).gives p [r.op] c).poolEnd r.op 0 x.records.length)
        | [] => .next ((s'.setPool n { x with records := x.records ++ [r.record], givers := x.givers ++ [r.op] }).poolEnd r.op 0 (x.records.length + 1))
  | _ => .refused (.notEnabled "no append is the oldest request")

/-- `POOL_CLAIM` (R351, Table 14.6): the owner delivers the oldest record, answers that work has ended, or keeps the claim waiting. -/
def execPoolClaim (p : Nat) (s : State) : Outcome :=
  match s.takeReq p with
  | some (r, .dqry, s') =>
    match s'.poolFor r with
    | none => .next (s'.poolEnd r.op 0x73 0)
    | some (n, x) =>
      if State.poolPast r x then .next (s'.poolEnd r.op 0x74 0)
      else match x.records with
        | rec :: rest =>
          if s'.recordHeld r.op x.recSize then .refused (.notEnabled "the claimant's line is leased")
          else .next (((s'.setPool n { x with records := rest, givers := x.givers.drop 1 }).deliverRecord r.op rec rest.length).gives p (x.givers.take 1) r.op)
        | [] =>
          if x.closed then .next ((s'.poolEnd r.op 0x70 0).gives p x.closers r.op)
          else .next (s'.setPool n { x with waiting := x.waiting ++ [r.op] })
  | _ => .refused (.notEnabled "no claim is the oldest request")

/-- `POOL_CLOSE` (R351, R368): every waiting claim receives 0x70. -/
def execPoolClose (p : Nat) (s : State) : Outcome :=
  match s.takeReq p with
  | some (r, .pcls, s') =>
    match s'.poolFor r with
    | none => .next (s'.poolEnd r.op 0x73 0)
    | some (n, x) =>
      let x' : Pool := { x with closed := true, waiting := [], closers := x.closers ++ [r.op] }
      let s' := x.waiting.foldl (fun (s : State) c => (s.poolEnd c 0x70 0).gives p x'.closers c) (s'.setPool n x')
      .next (s'.poolEnd r.op 0 x.records.length)
  | _ => .refused (.notEnabled "no close is the oldest request")

end Sys2Proof.Machine
end

