-- ==== Sys2Proof/Machine/Traps.lean ====
section
/-! DEFINITION. Delivery of deferred traps, the trap queue and the commands that answer its records (R403 to R409). -/

namespace Sys2Proof.Machine

/-- The bytes of a trap record (Table 17.2). -/
def TrapRecord.bytes (r : TrapRecord) (ctx : Nat) : List Byte :=
  leBytes r.kind 1 ++ leBytes r.cause 1 ++ leBytes r.tflg 1 ++ leBytes r.arg 1 ++ leBytes ctx 2 ++ leBytes r.pkg 2 ++ leBytes r.die 1 ++ leBytes r.core 1
    ++ leBytes r.lane 1 ++ leBytes r.wave 1 ++ leBytes r.tseq 4 ++ leBytes r.tx 4 ++ leBytes r.ty 2 ++ leBytes r.tz 2 ++ leBytes r.fpc.toNat 8
    ++ leBytes r.npc.toNat 8 ++ leBytes r.rentry.toNat 8 ++ leBytes r.aux 4 ++ leBytes 0 4 ++ leBytes r.faddr.toNat 8

/-- `TFLG` of a thread record. -/
def Trap.tflg (x : Trap) : Nat :=
  (if x.precise then 1 else 0) + (if x.rentry ≠ 0 then 2 else 0) + (if x.xreg then 4 else 0) + (if x.more then 8 else 0) + (if x.decode then 16 else 0)

namespace State

/-- The package whose agents act for a context: that of its descriptor, or once it is lost another of the partition. -/
def ctxPkg (s : State) (k : Nat) : Nat :=
  let p := ((s.context k).descPa.map physPkg).getD 0
  if (s.pkg p).alive then p else ((s.partition p).find? fun q => (s.pkg q).alive).getD p

/-- The record of a thread's trap (Tables 17.2 and 17.3). -/
def threadRecord (s : State) (t : ThreadId) (x : Trap) : TrapRecord :=
  let w := s.wave t.wave
  let tm := s.team w.team
  { kind := 1, cause := x.cause.code, tflg := x.tflg, arg := if x.cause = .swtrap ∨ x.cause = .brkpt ∨ x.cause = .walkf then x.arg else 0,
    pkg := (s.pkg t.wave.core.pkg).num, die := t.wave.core.die, core := t.wave.core.core, lane := t.lane, wave := w.num, tx := tm.x, ty := tm.y, tz := tm.z,
    fpc := x.fpc, npc := x.npc, rentry := x.rentry, aux := x.rctr.toNat, faddr := x.faddr }
/-- Posts the record of one thread if it has a trap not yet delivered; the thread's accesses stand before its posting (R406). -/
def deliverTrap (s : State) (t : ThreadId) : State :=
  match (s.thread t).trap with
  | some x =>
    if x.delivered then s
    else
      let k := s.ctxOf t
      let n := (s.context k).tseq
      let (p, s) := s.freshId
      ((s.recordPoint (s.threadEv t (.start p))).postRecord k { s.threadRecord t x with start := p }).modThread t fun th => { th with trap := some { x with delivered := true, tseq := some n } }
  | none => s
/-- The recorded traps of a wave, in ascending lane order (R406). -/
def deliverTraps (s : State) (w : WaveId) : State := (lanes w).foldl (fun s t => s.deliverTrap t) s

-- the trap queue (R407, R408)

def tqBase (g : CtxRegs) : Dword := BitVec.ofNat 64 (g.trapQueue.toNat / 4096 * 4096)
def tqCap (g : CtxRegs) : Nat := 2 ^ (g.trapQueue.toNat % 16 + 6)
/-- A weak read and a weak write of the trap queue by the hardware, which no key binds (R407). -/
def tqRead (s : State) (k : Nat) (off n : Nat) : Option (List Byte) :=
  (s.vaRead (s.ctxPkg k) (s.ctxRoot k) none (tqBase (s.context k).regs + BitVec.ofNat 64 off) n).toOption
def tqWrite (s : State) (k : Nat) (off : Nat) (bs : List Byte) (e : Ev := s.hubEv (s.ctxPkg k) .store) : Option State :=
  let a := tqBase (s.context k).regs + BitVec.ofNat 64 off
  if s.vaLeased (s.ctxPkg k) (s.ctxRoot k) a bs.length then none else (s.vaWrite (s.ctxPkg k) (s.ctxRoot k) none a bs e).toOption
/-- An index that the hardware advances: a release store at `rack` scope (R408, R409). -/
def tqIndex (s : State) (k off n : Nat) : Option State :=
  s.tqWrite k off (leBytes n 8) { s.hubEv (s.ctxPkg k) .store with ord := .rel, scp := some .rack, bytewise := false }
/-- Reads `CIDX`, with an acquire at `rack` scope (R407, R409); not while a lease holds its line. -/
def readCidx (s : State) (k : Nat) : State :=
  let p := s.ctxPkg k
  let s := s.modContext k fun c => { c with cread := s.hubNow p }
  let a := tqBase (s.context k).regs + 0x10
  if s.vaLeased p (s.ctxRoot k) a 8 then s
  else match s.agentRead { s.hubEv p .load with ord := .acq, scp := some .rack, bytewise := false } p (s.ctxRoot k) none a 8 with
    | (s, .ok bs) => s.modContext k fun c => { c with cseen := leNat bs }
    | (s, .error _) => s

-- commands (R409)

/-- The next command not carried out: its slot's bytes. -/
def nextCommand (s : State) (k : Nat) : Option (List Byte) :=
  let c := s.context k
  if c.cdone ≥ c.cseen then none else s.tqRead k (0x40 + c.cdone % 64 * 16) 16
/-- The trapped thread of a context that a record number names: resident, or held in a spool image with no command yet. -/
def trappedThread (s : State) (k n : Nat) : Option (Option ThreadId × Trap) :=
  match s.threads.find? fun (t, th) => th.status = .trapped && s.ctxOf t = k && !isHost t && th.trap.elim false (fun x => x.tseq = some n) with
  | some (t, th) => th.trap.map fun x => (some t, x)
  | none =>
    let c := s.context k
    if c.later.any (·.1 = n) then none else (Map.find c.spooledTraps n).map fun x => (none, x)
/-- `STAT` of a command, in the order of R409. -/
def commandStat (x : Option Trap) (bs : List Byte) : Nat :=
  let act := field bs 4 1
  let tpc : Dword := BitVec.ofNat 64 (field bs 8 8)
  if act > 4 ∨ field bs 6 2 ≠ 0 then 4
  else match x with
    | none => 1
    | some x =>
      if act = 3 ∧ (tpc.toNat % 8 ≠ 0 ∨ !sxOk tpc) then 3
      else if act = 0 ∧ !x.precise then 2
      else if act = 2 ∧ (x.rentry = 0 ∨ x.xreg) then 2
      else 0
/-- The effect of a command on a trapped thread (Table 17.5). -/
def resumeThread (s : State) (t : ThreadId) (x : Trap) (act : Nat) (tpc : Dword) : State :=
  if act = 4 then s.exitThread t
  else
    let pc := match act with
      | 0 => x.fpc | 1 => x.npc | 2 => x.rentry | _ => tpc
    (s.wakeThread t).modThread t fun th => { th with trap := none, pc }
/-- Carries out the next command of a context if its action is `act`; an undefined action counts as 4. -/
def command (s : State) (k act : Nat) : Outcome :=
  match s.nextCommand k with
  | none => .refused (.notEnabled "no command is due")
  | some bs =>
    if min 4 (field bs 4 1) ≠ act then .refused (.notEnabled "the command has another action")
    else
      let c := s.context k
      let n := field bs 0 4
      let tpc : Dword := BitVec.ofNat 64 (field bs 8 8)
      let found := s.trappedThread k n
      let stat := commandStat (found.map (·.2)) bs
      let s' := if stat ≠ 0 then s
        else match found with
          | some (some t, x) => s.resumeThread t x act tpc
          | some (none, _) => s.modContext k fun c => { c with later := c.later ++ [(n, act, tpc)] }
          | none => s
      let s' := s'.modContext k fun c => { c with cdone := c.cdone + 1 }
      match (s'.tqWrite k (0x40 + c.cdone % 64 * 16 + 5) (leBytes stat 1)).bind fun s' => s'.tqIndex k 0x18 (c.cdone + 1) with
      | some s' => .next s'
      | none => .refused (.notEnabled "the trap queue cannot be written")

end State

/-- `TRAP_DELIVERY` (R406). -/
def execTrapDelivery (w : WaveId) (s : State) : Outcome :=
  let ts := State.lanes w
  if ts.any (fun t => (s.thread t).runnable) then .refused (.notEnabled "a thread of the wave is runnable")
  else if ts.all (fun t => (s.thread t).trap.elim true (·.delivered)) then .refused (.notEnabled "no trap is recorded")
  else .next (s.deliverTraps w)

/-- `TRAP_RECORD_POST` (R408): the record, `WIDX`, and `HPEND.TRQ` on the host cores of the package that homes the header. -/
def execTrapRecordPost (k : Nat) (s : State) : Outcome :=
  let c := s.context k
  match c.post with
  | [] => .refused (.notEnabled "no record waits")
  | r :: rest =>
    match s.tqRead k 8 8, s.vaAddr (s.ctxPkg k) (s.ctxRoot k) none .store (State.tqBase c.regs) with
    | some rd, .ok (pa, _) =>
      if c.posted ≥ leNat rd + State.tqCap c.regs then .refused (.notEnabled "the trap queue is full")
      else
        let s' := (s.modContext k fun c => { c with post := rest, posted := c.posted + 1 }).recordPoint (s.hubEv (s.ctxPkg k) (.gives [r.start] 0))
        match (s'.tqWrite k (0x1000 + c.posted % State.tqCap c.regs * 64) (r.bytes k)).bind fun s' => s'.tqIndex k 0 (c.posted + 1) with
        | some s' => .next (s'.setHpend (physPkg pa) 0)
        | none => .refused (.notEnabled "the trap queue cannot be written")
    | _, _ => .refused (.notEnabled "the trap queue cannot be read")

/-- `ACT` 0: runnable at `FPC` (R409). -/
def execTrapCmdFpc (k : Nat) (s : State) : Outcome := s.command k 0
/-- `ACT` 1: runnable at `NPC`. -/
def execTrapCmdNpc (k : Nat) (s : State) : Outcome := s.command k 1
/-- `ACT` 2: runnable at `RENTRY`. -/
def execTrapCmdRentry (k : Nat) (s : State) : Outcome := s.command k 2
/-- `ACT` 3: runnable at `TPC`. -/
def execTrapCmdTpc (k : Nat) (s : State) : Outcome := s.command k 3
/-- `ACT` 4: the thread exits. -/
def execTrapCmdExit (k : Nat) (s : State) : Outcome := s.command k 4
/-- `TRAP_CIDX_REREAD` (R407). -/
def execTrapCidxReread (k : Nat) (s : State) : Outcome :=
  if !Map.has s.contexts k || (s.context k).regs.trapQueue.toNat / 4096 = 0 || s.hubNow (s.ctxPkg k) < (s.context k).cread + 512 then
    .refused (.notEnabled "no reread is due")
  else .next (s.readCidx k)

end Sys2Proof.Machine
end

