-- ==== Sys2Proof/Machine/Queues.lean ====
section
/-! DEFINITION. Packet engines: queues, wakes and the lottery (R338 to R345). -/

namespace Sys2Proof.Machine
namespace State

def queue (s : State) (n : Nat) : Queue := Map.getD s.queues n {}
def setQueue (s : State) (n : Nat) (q : Queue) : State := { s with queues := Map.set s.queues n q }

/-- An acquire load of a queue's packet engine, at `rack` where the packet names no scope; it recalls an owner's copy of the lines (R246, R338, R343). -/
def engineLoad (s : State) (q : Queue) (va : Dword) (n : Nat) (scp : Scope := .rack) : State × Except AFault (List Byte) :=
  s.agentRead { s.hubEv q.mapPkg .load with ord := .acq, scp := some scp, bytewise := false } q.mapPkg (s.ctxRoot q.ctx) none va n
def packetVa (q : Queue) : Dword := q.ring + BitVec.ofNat 64 (q.r % 2 ^ q.qsz * 64)
/-- The packet at the read index. -/
def headPacket (s : State) (q : Queue) : Except AFault (List Byte) := s.vaRead q.mapPkg (s.ctxRoot q.ctx) none (packetVa q) 64
def headType (s : State) (q : Queue) : Nat := (s.headPacket q).toOption.elim 0 fun bs => field bs 0 1
/-- A wait or signal packet uses its own fields alone (Table 14.2). -/
def waitOk (bs : List Byte) : Bool :=
  field bs 1 1 = 0 && field bs 2 1 ≤ 4 && field bs 3 1 < 2 && field bs 4 36 = 0 && field bs 0x28 8 % 8 = 0 && field bs 0x38 8 = 0

/-- Whether the lines a packet's end writes are leased: the engine waits (R263). -/
def packetHeld (s : State) (q : Queue) (sig : Dword) : Bool :=
  s.signalHeld q.mapPkg q.ctx sig || s.vaLeased q.mapPkg (s.ctxRoot q.ctx) q.ridx 8 || s.vaLeased q.mapPkg (s.ctxRoot q.ctx) (packetVa q) 64
/-- Whether the line of a queue's write index is leased: a read of it waits (R263). -/
def indexHeld (s : State) (q : Queue) : Bool := s.vaLeased q.mapPkg (s.ctxRoot q.ctx) q.widx 8
/-- Consumes the packet at the read index: `RIDX` is written (R338). -/
def consume (s : State) (n : Nat) (q : Queue) : State :=
  let now := s.hubNow q.mapPkg
  let q := { q with r := q.r + 1, started := false, heldWait := false, lastCheck := now, emptySince := if q.r + 1 ≥ q.w then now else q.emptySince }
  (s.setQueue n q).engineStore q.mapPkg q.ctx q.ridx (BitVec.ofNat 64 q.r) .rack []
def sigOf (bs : List Byte) : Dword := BitVec.ofNat 64 (field bs 0x28 8)
/-- A refused packet: its status at `SIGADDR`, at its `SSCOPE`, and it is consumed (R340). -/
def refusePacket (s : State) (n : Nat) (q : Queue) (bs : List Byte) (st : Nat) : State :=
  (s.signalWrite q.mapPkg q.ctx (sigOf bs) (BitVec.ofNat 64 (2 ^ 63 + st)) (scopeNum (field bs 2 1)) []).consume n q

/-- Reads a mapped queue's write index: packets, an overrun (R338), or still empty. -/
def readQueue (s : State) (n : Nat) : State :=
  let q := s.queue n
  match s.engineLoad q q.widx 8 with
  | (s, .error _) => s
  | (s, .ok bs) =>
    let w := leNat bs
    if w > q.r + 2 ^ q.qsz then (s.setQueue n { q with w, state := .overrun }).setHpend q.mapPkg 3
    else s.setQueue n { q with w, waitingNotify := q.waitingNotify && decide (w ≤ q.r)
                               emptySince := if q.w ≤ q.r ∧ w ≤ q.r then q.emptySince else s.hubNow q.mapPkg }
/-- Whether a core owns the line at an address of a context: its writes raise no wake (R253, R343). -/
def indexOwned (s : State) (q : Queue) : Bool :=
  (s.vaAddr q.mapPkg (s.ctxRoot q.ctx) none .load q.widx).toOption.elim false fun (pa, _) =>
    s.cores.any fun (_, x) => (match Map.find x.l1 (lineOf pa) with | some .m | some .e => true | _ => false)

/-- The queues that occupy slots of a package. -/
def slotted (s : State) (p : Nat) : List (Nat × Queue) := s.queues.filter fun (_, q) => q.mapPkg = p && q.state ≠ .unmapped
/-- Maps a queue in a free slot, or else in the slot of the mapped queue that has been empty longest (R342, R344). -/
def mapQueue (s : State) (n : Nat) : State :=
  let q := s.queue n
  let p := q.mapPkg
  let used := s.slotted p
  let s := if used.any fun (_, x) => x.ctx = q.ctx then s
    else s.modPkg p fun k => { k with lottery := Map.set k.lottery q.ctx (s.context q.ctx).regs.schedSeed }
  let put (s : State) (k : Nat) : State :=
    s.setQueue n { q with state := .mapped, slot := k, floor := 0, waitingNotify := false, emptySince := s.hubNow p, lastCheck := s.hubNow p }
  match lowestFree (used.map (·.2.slot)) 1024 with
  | some k => put s k
  | none =>
    let idle := used.filter fun (_, x) => x.state = .mapped && x.w ≤ x.r
    match idle.foldl (fun (b : Option (Nat × Queue)) x =>
        match b with
        | some y => if x.2.emptySince < y.2.emptySince then some x else b
        | none => some x) none with
    | some (m, x) => put (s.setQueue m { x with state := .unmapped, slot := 0 }) x.slot
    | none => s

-- the lottery

/-- Whether a queue is eligible in a draw (R344). -/
def eligible (s : State) (q : Queue) : Bool :=
  q.state = .mapped && q.r < q.w && !q.heldWait && s.headType q ≠ 2 && !s.ordHolds q && s.mayStart q.mapPkg q.ctx
/-- The generator step (R344). -/
def xorshift (x : Word) : Word :=
  let x := x ^^^ (x <<< 13)
  let x := x ^^^ (x >>> 17)
  x ^^^ (x <<< 5)
/-- The first queue whose cumulative tickets exceed `d`. -/
def drawWinner (d : Nat) : List (Nat × Queue) → Nat → Option Nat
  | [], _ => none
  | (n, q) :: qs, acc => if acc + q.tickets > d then some n else drawWinner d qs (acc + q.tickets)
/-- The context whose turn it is: the next key above the last, or the lowest. -/
def nextTurn (last : Nat) (keys : List Nat) : Option Nat :=
  let least (ks : List Nat) : Option Nat := ks.foldl (fun (m : Option Nat) k => some (m.elim k (min k))) none
  (least (keys.filter (· > last))).or (least keys)
/-- One draw among the queues of a context, in ascending slot: the winner, the generator and the floor counts (R344, R345). -/
def drawIn (x : Word) (fill : Bool) (qs : List (Nat × Queue)) : Option Nat × Word :=
  match (if fill then none else qs.find? fun (_, q) => q.floor ≥ 4096) with
  | some (n, _) => (some n, x)
  | none =>
    let x := xorshift x
    (drawWinner (x.toNat * sumOf (qs.map (·.2.tickets)) / 2 ^ 32) qs 0, x)
/-- Queues by slot. -/
def bySlotOrder : List (Nat × Queue) → List (Nat × Queue)
  | [] => []
  | x :: xs => insert x (bySlotOrder xs)
where
  insert (x : Nat × Queue) : List (Nat × Queue) → List (Nat × Queue)
    | [] => [x]
    | y :: ys => if x.2.slot ≤ y.2.slot then x :: y :: ys else y :: insert x ys

end State

/-- `QUEUE_PACKET_LAUNCH` (R338 to R340): the packet that a draw started launches its grid or is refused, and is consumed. -/
def execQueuePacketLaunch (n : Nat) (s : State) : Outcome :=
  let q := s.queue n
  if !q.started || q.state ≠ .mapped || !s.running q.mapPkg then .refused (.notEnabled "no packet has been started")
  else match s.engineLoad q (State.packetVa q) 64 with
    | (s, .error _) => if s.packetHeld q 0 then .refused (.notEnabled "a line is leased") else .next (s.refusePacket n q [] 7)
    | (s, .ok bs) =>
      let sig := State.sigOf bs
      if s.packetHeld q sig || s.descHeld q.mapPkg q.ctx bs then .refused (.notEnabled "a line is leased")
      else if field bs 0 1 = 2 then .next (s.setQueue n { q with started := false })
      else if field bs 0 1 = 3 ∧ State.waitOk bs then .refused (.notEnabled "the packet is a signal")
      else match s.launchCheck q.mapPkg q.ctx bs 7 1 none (some n) with
        | .error st => .next (s.refusePacket n q bs st)
        | .ok g =>
          let (s, k) := s.acceptGrid g none
          .next (s.consume n { q with grids := q.grids ++ [k] })

/-- `QUEUE_PACKET_WAIT` (R340): a wait packet at the read index holds its queue until its signal reaches `SIGVAL`. -/
def execQueuePacketWait (n : Nat) (s : State) : Outcome :=
  let q := s.queue n
  if q.state ≠ .mapped || q.w ≤ q.r || q.heldWait || s.ordHolds q || !s.running q.mapPkg then .refused (.notEnabled "no packet is due")
  else match s.engineLoad q (State.packetVa q) 64 with
    | (_, .error _) => .refused (.notEnabled "the packet is no wait")
    | (s, .ok bs) =>
      let sig := State.sigOf bs
      if field bs 0 1 ≠ 2 then .refused (.notEnabled "the packet is no wait")
      else if s.packetHeld q sig then .refused (.notEnabled "a line is leased")
      else if !State.waitOk bs then .next (s.refusePacket n q bs 1)
      else match s.engineLoad q sig 8 (State.scopeNum (field bs 2 1)) with
        | (s, .ok x) =>
          if leNat x ≥ field bs 0x30 8 then .next (s.consume n q)
          else .next (s.setQueue n { q with heldWait := true, lastCheck := s.hubNow q.mapPkg })
        | (s, .error _) => .next (s.setQueue n { q with heldWait := true, lastCheck := s.hubNow q.mapPkg })

/-- `WAIT_PACKET_RECHECK` (R340). -/
def execWaitPacketRecheck (n : Nat) (s : State) : Outcome :=
  let q := s.queue n
  if q.state ≠ .mapped || !q.heldWait || s.hubNow q.mapPkg < q.lastCheck + 512 || !s.running q.mapPkg then .refused (.notEnabled "no recheck is due")
  else match s.headPacket q with
    | .error _ => .next (s.setQueue n { q with lastCheck := s.hubNow q.mapPkg })
    | .ok bs =>
      let sig := State.sigOf bs
      if s.packetHeld q sig then .refused (.notEnabled "a line is leased")
      else match s.engineLoad q sig 8 (State.scopeNum (field bs 2 1)) with
        | (s, .ok x) =>
          if leNat x ≥ field bs 0x30 8 then .next (s.consume n q)
          else .next (s.setQueue n { q with lastCheck := s.hubNow q.mapPkg })
        | (s, .error _) => .next (s.setQueue n { q with lastCheck := s.hubNow q.mapPkg })

/-- `QUEUE_PACKET_SIGNAL` (R340): once every earlier launch of the queue has retired. -/
def execQueuePacketSignal (n : Nat) (s : State) : Outcome :=
  let q := s.queue n
  if !q.started || q.state ≠ .mapped || !s.running q.mapPkg then .refused (.notEnabled "no packet has been started")
  else if q.grids.any fun g => !(s.grid g).retired then .refused (.notEnabled "an earlier launch has not retired")
  else match s.engineLoad q (State.packetVa q) 64 with
    | (_, .error _) => .refused (.notEnabled "the packet is no signal")
    | (s, .ok bs) =>
      let sig := State.sigOf bs
      if field bs 0 1 ≠ 3 || !State.waitOk bs then .refused (.notEnabled "the packet is no signal")
      else if s.packetHeld q sig then .refused (.notEnabled "a line is leased")
      else .next ((s.signalWrite q.mapPkg q.ctx sig (BitVec.ofNat 64 (field bs 0x30 8)) (State.scopeNum (field bs 2 1)) []).consume n q)

/-- `NOTIFY_WAKE` (R342, R407): the oldest wake of a package's Skein: every registered queue whose write index lies in the line is mapped and read, and `CIDX` of every
trap queue whose header holds the line is read. -/
def execNotifyWake (p : Nat) (s : State) : Outcome :=
  match (s.pkg p).wakes with
  | [] => .refused (.notEnabled "no wake has come")
  | l :: rest =>
    let hit (q : Queue) : Bool := q.mapPkg = p && q.state ≠ .overrun
      && (s.vaAddr p (s.ctxRoot q.ctx) none .load q.widx).toOption.elim false fun (pa, _) => lineOf pa = l
    if s.queues.any fun (_, q) => hit q && s.indexHeld q then .refused (.notEnabled "the line is leased") else
    let s := s.modPkg p fun k => { k with wakes := rest }
    let page (k : Nat) : Bool :=
      (s.vaAddr (s.ctxPkg k) (s.ctxRoot k) none .load (State.tqBase (s.context k).regs)).toOption.elim false fun (pa, _) => pa ≤ l ∧ l < pa + 128
    let s := ((Map.keys s.contexts).filter page).foldl (fun (s : State) k => s.readCidx k) s
    .next ((s.queues.filter fun (_, q) => hit q).foldl (fun (s : State) (n, q) =>
      let s := if q.state = .unmapped then s.mapQueue n else s
      if (s.queue n).state = .mapped then s.readQueue n else s) s)

/-- `QUEUE_REREAD` (R343). -/
def execQueueReread (n : Nat) (s : State) : Outcome :=
  let q := s.queue n
  if q.state ≠ .mapped || q.r < q.w || s.hubNow q.mapPkg < q.lastCheck + 512 || s.indexHeld q then .refused (.notEnabled "no reread is due")
  else .next ((s.setQueue n { q with lastCheck := s.hubNow q.mapPkg }).readQueue n)

/-- `QUEUE_UNMAP` (R343): the queue is marked as waiting and its index read, which recalls an owner's copy of the line; once no core owns the line the read ends,
and the slot is freed unless a packet is found. -/
def execQueueUnmap (n : Nat) (s : State) : Outcome :=
  let q := s.queue n
  if q.state ≠ .mapped || q.r < q.w || s.hubNow q.mapPkg < q.emptySince + 2 ^ 20 || s.indexHeld q then .refused (.notEnabled "the queue has not been empty for long")
  else if !q.waitingNotify then .next ((s.setQueue n { q with waitingNotify := true }).readQueue n)
  else if s.indexOwned q then .refused (.notEnabled "a core owns the line")
  else
    let s := s.readQueue n
    let q := s.queue n
    .next (if q.state = .mapped ∧ q.w ≤ q.r then s.setQueue n { q with state := .unmapped, slot := 0 } else s)

/-- `LOTTERY_DRAW` (R344, R345). -/
def execLotteryDraw (p : Nat) (s : State) : Outcome :=
  let k := s.pkg p
  let all := State.bySlotOrder (s.queues.filter fun (_, q) => q.mapPkg = p && s.eligible q)
  let ord := all.filter fun (_, q) => !q.fill
  let fill := ord = []
  let qs := if fill then all else ord
  let last := if fill then k.rotFill else k.rotOrd
  if s.hubNow p < k.lastDraw + 16 || (s.nextLaunch p).isSome || s.skeinHolds p ≥ 16 || !s.running p then .refused (.notEnabled "the Skein makes no draw")
  else match State.nextTurn last (qs.map (·.2.ctx)) with
    | none => .refused (.notEnabled "no queue is eligible")
    | some ctx =>
      let mine := qs.filter fun (_, q) => q.ctx = ctx
      match State.drawIn (Map.getD k.lottery ctx 1) fill mine with
      | (none, _) => .refused (.notEnabled "no queue is eligible")
      | (some w, x) =>
        let s := s.modPkg p fun k => { k with lottery := Map.set k.lottery ctx x, lastDraw := s.hubNow p,
                                              rotOrd := if fill then k.rotOrd else ctx, rotFill := if fill then ctx else k.rotFill }
        .next (mine.foldl (fun (s : State) (n, q) =>
          s.setQueue n { q with started := q.started || n = w, floor := if fill then q.floor else if n = w then 0 else q.floor + 1 }) s)

end Sys2Proof.Machine
end

