-- ==== Sys2Proof/Machine/Spool.lean ====
section
/-! DEFINITION. Spool images: their allocation in the spool area, what a pre-empted team's image holds, and how a restore reads it (R411, R412, R414). -/

namespace Sys2Proof.Machine

/-- A multiple of 256 at or above `n`. -/
def align256 (n : Nat) : Nat := (n + 255) / 256 * 256

/-- Stretches of an image: offset and bytes. -/
abbrev Stretches := List (Nat × List Byte)

/-- `EKIND` (Table 17.9); accumulator moves have none. -/
def eKind : OpKind → Nat
  | .mma => 1 | .cpy => 2 | .cpyi => 3 | .kvx => 4 | .coll => 5 | .cgrp | .cgrpFree => 6 | .lnch => 7 | .papp => 8 | .dqry => 9 | .pcls => 10
  | .accld | .accst => 0

namespace State

-- the spool area (R411)

/-- Pages of a context's spool area. -/
def spoolPages (s : State) (k : Nat) : Nat :=
  let c := s.context k
  match s.vaRead (s.ctxPkg k) (s.ctxRoot k) none c.regs.spoolBase 8 with
  | .ok bs => min (leNat bs / 65536 - 1) ((65536 - 16) * 8)
  | .error _ => 0
def spoolRead (s : State) (k : Nat) (va : Dword) (n : Nat) : Option (List Byte) := (s.vaRead (s.ctxPkg k) (s.ctxRoot k) none va n).toOption
def spoolWrite (s : State) (k : Nat) (va : Dword) (bs : List Byte) (e : Ev := s.hubEv (s.ctxPkg k) .store) : State :=
  (s.vaWrite (s.ctxPkg k) (s.ctxRoot k) none va bs e).toOption.getD s
/-- Whether a lease holds a line of the area's header, or of `n` bytes at an address in it: the hardware's access waits (R263). -/
def spoolHeld (s : State) (k : Nat) (va : Dword) (n : Nat) : Bool := s.vaLeased (s.ctxPkg k) (s.ctxRoot k) va n
def headerHeld (s : State) (k : Nat) : Bool := s.spoolHeld k (s.context k).regs.spoolBase (16 + (s.spoolPages k + 63) / 64 * 8)
/-- The bitmap of the area, one byte per eight pages; none where the area cannot be read. -/
def spoolMap (s : State) (k : Nat) : Option (List Byte) :=
  (s.spoolRead k (s.context k).regs.spoolBase 8).bind fun _ => s.spoolRead k ((s.context k).regs.spoolBase + 16) ((s.spoolPages k + 7) / 8)
def pageUsed (bm : List Byte) (i : Nat) : Bool := (bm.getD (i / 8) 0).getLsbD (i % 8)
/-- The first run of `n` free pages. -/
def freeRun (bm : List Byte) (total n : Nat) : Option Nat :=
  (List.range (total + 1 - n)).find? fun f => (List.range n).all fun j => !pageUsed bm (f + j)
/-- Sets or clears the bits of a run: one RMW at `rack` scope for each 8-byte word of the bitmap, in ascending order. A claim is made in one step, so that no word is
found changed since the search. -/
def markRun (s : State) (k first n : Nat) (used : Bool) : State :=
  let base := (s.context k).regs.spoolBase + 16
  (List.range (((first + n - 1) / 64 + 1) - first / 64)).foldl (fun (s : State) j =>
    let i := first / 64 + j
    match s.spoolRead k (base + BitVec.ofNat 64 (8 * i)) 8 with
    | some bs =>
      let new := (List.range 64).foldl (fun x b =>
        let inRun : Bool := first ≤ 64 * i + b && 64 * i + b < first + n
        x + (if (if inRun then used else (leNat bs).testBit b) then 2 ^ b else 0)) 0
      s.spoolWrite k (base + BitVec.ofNat 64 (8 * i)) (leBytes new 8) { s.hubEv (s.ctxPkg k) .rmw with scp := some .rack, bytewise := false }
    | none => s) s
/-- The base of the image whose first page is `f`. -/
def pageBase (s : State) (k f : Nat) : Dword := (s.context k).regs.spoolBase + BitVec.ofNat 64 (65536 * (f + 1))
/-- Claims a run of pages for `size` bytes of a context (R411): its first page and number of pages, or nothing when none is free or the run cannot be written. -/
def claimSpool (s : State) (k size : Nat) : Option (Nat × Nat × State) :=
  let n := (size + 65535) / 65536
  (s.spoolMap k).bind fun bm => (freeRun bm (s.spoolPages k) n).bind fun f =>
    let base := s.pageBase k f
    match s.piecesOf (s.ctxPkg k) (s.ctxRoot k) none .store base (n * 65536) with
    | .ok _ => some (f, n, s.markRun k f n true)
    | .error _ => none
/-- Clears the pages of an image (R414). -/
def freeSpool (s : State) (k base : Nat) : State :=
  match Map.find s.images (k, base) with
  | some (f, n) => { s.markRun k f n false with images := Map.erase s.images (k, base) }
  | none => s

-- the image (Tables 17.6 to 17.9)

/-- The place at which a blocked thread is saved: the word it waits at (R410). -/
def savedPc (th : Thread) : Dword :=
  match th.status with
  | .blocked (.fence _) | .blocked (.pfen _ _) | .blocked (.trel _ _) | .blocked (.trng _ _) | .blocked (.mwait _) => th.pc - 8
  | _ => th.pc
def bindBytes (b : Option Nat) : List Byte := leBytes (b.elim 0 fun n => n + 2 ^ 15) 2
/-- A thread record (Table 17.8). -/
def threadBytes (th : Thread) : List Byte :=
  let (st, on) := match th.status with
    | .parked (.mask k) => (1, k) | .parked (.bar n) => (1, n + 16) | .trapped => (3, 0) | .exited => (4, 0) | _ => (0, 0)
  leBytes (savedPc th).toNat 8 ++ leBytes st 1 ++ leBytes on 1 ++ leBytes th.preds.toNat 1 ++ leBytes th.flags.toNat 1
    ++ leBytes ((th.trap.bind (·.tseq)).getD 0) 4 ++ leBytes th.rentry.toNat 8 ++ leBytes th.rctr.toNat 4 ++ leBytes 0 4
    ++ ((List.range 3).flatMap fun k => bindBytes ((Map.find th.latches k).bind (·.bind))) ++ leBytes 0 2
    ++ ((List.range 8).flatMap fun k => bindBytes ((Map.find th.ocache k).bind (·.bind))) ++ leBytes 0 8
/-- The dead marks of a thread. -/
def deadBytes (th : Thread) : List Byte :=
  leBytes ((List.range 256).foldl (fun m n => if Map.has th.v n then m else m + 2 ^ n) 0) 32
def waveBytes (a : Nat) : Nat := 0x1000 + a * 128
/-- The record of a wave at an offset (Table 17.7): the bytes of a dead register are not written. -/
def waveStretches (s : State) (w : WaveId) (off : Nat) : Stretches :=
  let x := s.wave w
  let ths := (lanes w).map s.thread
  let pend := x.pending.eraseDups.foldl (fun m n => m + 2 ^ n) 0
  [(off, leBytes x.allot 2 ++ leBytes x.num 1 ++ leBytes 0 5 ++ ((List.range 64).flatMap fun n => leBytes (x.sreg n).toNat 4) ++ leBytes pend 8
      ++ ((List.range 8).flatMap fun k => leBytes (Map.getD x.enrolled k 0).toNat 4) ++ ((List.range 8).flatMap fun k => leBytes (Map.getD x.arrived k 0).toNat 4)
      ++ List.replicate 176 0 ++ ths.flatMap deadBytes ++ ths.flatMap threadBytes ++ List.replicate 512 0)]
    ++ ((List.range 32).zip ths).flatMap fun (l, th) =>
      (th.v.filter fun (n, _) => n < x.allot).map fun (n, v) => (off + 0x1000 + 128 * n + 4 * l, leBytes v.toNat 4)

/-- The operations of a team that an image records, in the order they were issued. -/
def teamOps (s : State) (n : Nat) : List (Nat × Op) :=
  State.sortKey (s.ops.filter fun (_, o) => o.team = n && !isHost o.issuer && eKind o.kind ≠ 0)
/-- The accepted copy of an operation with its progress (R193, R298): an operation not yet accepted has none. -/
def acceptedCopy (o : Op) : List Byte :=
  match o.kind with
  | .mma | .cpy | .cpyi =>
    let (at_, z) := doneAt o.kind
    if o.block = [] then [] else o.block.take at_ ++ leBytes o.done z ++ o.block.drop (at_ + z)
  | _ => []
/-- An engine progress record (Table 17.9). -/
def engineBytes (o : Op) : List Byte :=
  let copy := acceptedCopy o
  let (st, v) := match o.st with | .completed v => (1, v) | _ => (0, 0)
  leBytes (eKind o.kind) 1 ++ leBytes st 1 ++ leBytes o.wnum 1 ++ leBytes o.tok 1 ++ leBytes o.issuer.lane 1 ++ leBytes 0 3 ++ leBytes v.toNat 4
    ++ leBytes copy.length 4 ++ leBytes (o.off.toNat % 2 ^ 64) 8 ++ leBytes o.epc.toNat 8 ++ copy ++ List.replicate ((8 - copy.length % 8) % 8) 0

/-- The handles of a team in ascending order. -/
def boundHandles (x : Team) : List (Nat × Tob) := (List.range 8).filterMap fun b => (Map.find x.handles b).map fun r => (b, r)
/-- The 16-byte record of a reservation (Table 8.1). -/
def recordBytes (r : Tob) : List Byte := (List.range 4).flatMap fun n => leBytes (r.word n).toNat 4

/-- The image of a team: its stretches and its size (R411, R412). -/
def image (s : State) (n : Nat) : Stretches × Nat :=
  let x := s.team n
  let g := s.grid x.grid
  let ws := x.waves
  let hs := boundHandles x
  let es := (s.teamOps n).map fun (_, o) => engineBytes o
  let wavOff := 256
  let wavLen := sumOf (ws.map fun w => waveBytes (s.wave w).allot)
  let scrOff := align256 (wavOff + wavLen)
  let tobOff := align256 (scrOff + x.scrKB * 1024)
  let accOff := align256 (tobOff + sumOf (hs.map fun (_, r) => 16 + r.len * 1024))
  let engOff := align256 (accOff + (if x.nacc = 0 then 0 else 16 + x.nacc * 16384))
  let size := align256 (engOff + sumOf (es.map (·.length)))
  let flags := (if g.kern.coop then 1 else 0) + (if g.mergedInto.isSome then 2 else 0) + (if x.clusterSlot.isSome then 4 else 0)
  let header := leBytes 0x3153564C 4 ++ leBytes 1 2 ++ leBytes flags 2 ++ leBytes size 4 ++ leBytes x.ctx 2 ++ leBytes ws.length 1 ++ leBytes x.nacc 1
    ++ leBytes x.grid 8 ++ leBytes x.x 4 ++ leBytes x.y 2 ++ leBytes x.z 2 ++ leBytes x.key 4 ++ leBytes x.scrKB 4
    ++ leBytes (hs.foldl (fun m (b, _) => m + 2 ^ b) 0) 1 ++ leBytes es.length 1 ++ leBytes 0 6
    ++ ((List.range 16).flatMap fun b => leBytes (Map.getD x.bars b {}).phase 4)
    ++ leBytes wavOff 8 ++ leBytes scrOff 8 ++ leBytes tobOff 8 ++ leBytes accOff 8 ++ leBytes engOff 8 ++ List.replicate 104 0
  let place (off : Nat) (zs : List Nat) : List Nat := (zs.foldl (fun (acc : List Nat × Nat) z => (acc.1 ++ [acc.2], acc.2 + z)) ([], off)).1
  let waves := ((place wavOff (ws.map fun w => waveBytes (s.wave w).allot)).zip ws).flatMap fun (off, w) => s.waveStretches w off
  let scr := (List.range (x.scrKB * 4)).map fun k => (scrOff + 256 * k, s.scrBytes n (256 * k) 256)
  let tobs := ((place tobOff (hs.map fun (_, r) => 16 + r.len * 1024)).zip hs).flatMap fun (off, _, r) =>
    (off, recordBytes r) :: (List.range (r.len * 4)).map fun k => (off + 16 + 256 * k, (List.range 256).map fun j => r.byte (256 * k + j))
  let accs := if x.nacc = 0 then [] else
    (accOff, leBytes ((List.range x.nacc).foldl (fun m k => if (s.tile n k).poison then m + 2 ^ k else m) 0) 16)
      :: (List.range x.nacc).flatMap fun k => (List.range 64).map fun i =>
        (accOff + 16 + 16384 * k + 256 * i, (List.range 64).flatMap fun j => leBytes ((s.tile n k).elem (64 * i + j)).toNat 4)
  let engs := (place engOff (es.map (·.length))).zip es
  ((0, header) :: waves ++ scr ++ tobs ++ accs ++ engs, size)

-- reading an image (R413)

/-- `n` bytes of an image at an offset. -/
def imageRead (s : State) (k : Nat) (base : Dword) (off n : Nat) : List Byte := (s.spoolRead k (base + BitVec.ofNat 64 off) n).getD (List.replicate n 0)
/-- A reservation record as the image holds it; its base is placed afresh (R213). -/
def tobOfRecord (bs : List Byte) : Tob :=
  let x := Tob.ofRequest (leNat bs)
  { x with blk := field bs 7 1, ppos := field bs 8 4, cpos := field bs 12 4 }
/-- The reservations of an image in ascending handle order: handle, record without its range, offset of the range. -/
def imageTobs (s : State) (k : Nat) (base : Dword) : List (Nat × Tob × Nat) :=
  let map := leNat (s.imageRead k base 0x28 1)
  let off := leNat (s.imageRead k base 0x80 8)
  (((List.range 8).filter map.testBit).foldl (fun (acc : List (Nat × Tob × Nat) × Nat) b =>
    let r := tobOfRecord (s.imageRead k base acc.2 16)
    (acc.1 ++ [(b, r, acc.2 + 16)], acc.2 + 16 + r.len * 1024)) ([], off)).1
/-- The wave records of an image: offset and allotment. -/
def imageWaves (s : State) (k : Nat) (base : Dword) : List (Nat × Nat) :=
  ((List.range (leNat (s.imageRead k base 0x0E 1))).foldl (fun (acc : List (Nat × Nat) × Nat) _ =>
    let a := leNat (s.imageRead k base acc.2 2)
    (acc.1 ++ [(acc.2, a)], acc.2 + waveBytes a)) ([], leNat (s.imageRead k base 0x70 8))).1
/-- The bases at which ranges of the given lengths fit, one after the other (R184, R213). -/
def placeRanges (rs : List (Nat × Nat)) : List Nat → Option (List Nat)
  | [] => some []
  | z :: zs =>
    (((List.range 128).map (4 * ·)).find? fun b => rangeFree rs b z).bind fun b => (placeRanges ((b, z) :: rs) zs).map (b :: ·)
/-- A thread from its record; its registers come from the `VREG` bytes, the dead ones excepted (R34, R89, R95). -/
def threadOf (s : State) (k : Nat) (base : Dword) (wav a l now : Nat) : Thread :=
  let r := s.imageRead k base (wav + 0x600 + 64 * l) 64
  let dead := leNat (s.imageRead k base (wav + 0x200 + 32 * l) 32)
  let bind (off : Nat) : Option Nat := if field r off 2 ≥ 2 ^ 15 then some (field r off 2 % 256) else none
  let tseq := field r 0xC 4
  let on := field r 9 1
  let st : Status := match field r 8 1 with
    | 1 => .parked (if on ≥ 16 then .bar (on % 16) else .mask (on % 8)) | 3 => .trapped | 4 => .exited | _ => .runnable
  let pc : Dword := BitVec.ofNat 64 (field r 0 8)
  { pc, status := st, preds := BitVec.ofNat 7 (field r 0xA 1), flags := BitVec.ofNat _ (field r 0xB 1), rentry := BitVec.ofNat 64 (field r 0x10 8),
    rctr := BitVec.ofNat 32 (field r 0x18 4),
    v := ((List.range a).filter fun n => !dead.testBit n).map fun n => (n, BitVec.ofNat 32 (leNat (s.imageRead k base (wav + 0x1000 + 128 * n + 4 * l) 4))),
    latches := (List.range 3).filterMap fun j => (bind (0x20 + 2 * j)).map fun n => (j, { bind := some n }),
    ocache := (List.range 8).filterMap fun j => (bind (0x28 + 2 * j)).map fun n => (j, { bind := some n }),
    trap := if st = .trapped then some ((Map.find (s.context k).spooledTraps tseq).getD { cause := .quiesce, fpc := pc, npc := pc, delivered := true, tseq := some tseq })
            else none
    waitSince := now }

end State
end Sys2Proof.Machine
end

