-- ==== Sys2Proof/Machine/Preempt.lean ====
section
/-! DEFINITION. Pre-emption of teams, restore, and the rack-wide stop (R324, R410 to R416). -/

namespace Sys2Proof.Machine
namespace State

/-- The teams that are pre-empted and restored with a team: those of its cooperative grid, or of its cluster (R320, R321, R410). -/
def teamSet (s : State) (n : Nat) : List Nat :=
  let x := s.team n
  let g := s.grid x.grid
  (s.teams.filter fun (m, y) => m = n || (y.grid = x.grid && y.place ≠ .ended && y.place ≠ .pending
    && (g.kern.coop || (x.clusterSlot.isSome && y.cluster = x.cluster)))).map (·.1)

/-- An open latch-only window in the run of a team's thread holds the pre-emption (R85, R410). -/
def preemptHeld (s : State) (n : Nat) : Bool :=
  let g := (s.core (s.team n).core).group
  ((g.any fun t => s.teamOf t = n) && g.any fun t => (s.thread t).holdsRun) || (s.teamThreads n).any fun t => (s.thread t).holdsRun

/-- The end of a run that a pre-empted team's threads take part in (R410, step 1), and every result delivered (step 2). -/
def drainTeam (s : State) (n : Nat) : State :=
  let c := (s.team n).core
  let s := if (s.core c).group.any fun t => s.teamOf t = n then s.endRun c else s
  (s.teamThreads n).foldl (fun s t => s.settle t) s
/-- Accumulator moves complete (step 3); none while a line they need is leased. -/
def finishMoves (s : State) (n : Nat) : Option State :=
  (s.ops.filter fun (_, o) => o.team = n && (o.kind = .accld || o.kind = .accst)).foldl (fun (r : Option State) (k, _) =>
    r.bind fun s => match execAccMoveDone k s with | .next s => some s | _ => none) (some s)
/-- Leases break with the PC at `LEASE` (step 4, R264). -/
def breakForPreempt (s : State) (t : ThreadId) : State :=
  match (s.thread t).lease with
  | some l => ((s.dropLease t true).wakeThread t).modThread t fun th => { th with pc := l.pc }
  | none => s
/-- The tiles of the chunk in progress are consumed until it is added, or one is not there. -/
def finishTiles (s : State) (k d : Nat) (a b : Opnd) : Nat → Op → State × Op
  | 0, o => (s, o)
  | fuel + 1, o =>
    if o.done > d ∨ !o.pending then (s, o)
    else match s.consumeTile k o a b with
      | .ok (s, o) => s.finishTiles k d a b fuel o
      | .error _ => (s, o)
/-- A matrix operation finishes its k-chunk (step 5, R200). At a wait for a ring the tiles read for the chunk go back to their rings; where their slots have
been written anew, the rows stay with the operation. -/
def finishChunk (s : State) (k : Nat) : State :=
  match s.mmaActive k with
  | some (o, a, b) =>
    if o.done ≥ o.mmaK / 64 then s
    else if a.ring || b.ring then
      let (s, o) := s.finishTiles k o.done a b 33 o
      let kept (x : Opnd) (n : Nat) : Bool := x.ring && (s.tob o.team x.handle).elim false fun r => r.cpos - n < r.ppos - r.slots
      if !o.pending || kept a (o.rowsA.length / 64) || kept b (o.rowsB.length / 64) then s
      else (s.returnTiles o a b).setOp k { o with rowsA := [], rowsB := [] }
    else match s.stageFixed k o a b with
      | (s, .ok o) =>
        let (s, o) := s.addStaged k o a b
        if o.done ≥ o.mmaK / 64 then s.mmaFinish k o 0 else s
      | (_, .error _) => s
  | none => s
/-- Steps 1 to 7 of R410, none while something must be awaited; in a quiesce every thread that has not exited is trapped with cause `QUIESCE` (Table 18.2). -/
def stopTeam (s : State) (n : Nat) (quiesce : Bool) : Option State :=
  let open_ (t : ThreadId) : Bool := openOf (s.core t.wave.core) t ≠ ([], [])
  if s.preemptHeld n || (!quiesce && (s.teamThreads n).any open_) then none
  else ((s.drainTeam n).finishMoves n).bind fun s =>
    let s := (s.teamThreads n).foldl breakForPreempt s
    let s := ((s.ops.filter fun (_, o) => o.team = n && o.kind = .mma).map (·.1)).foldl finishChunk s
    if s.ops.any fun (_, o) => o.team = n && Op.untested o then none
    else
    let s := if quiesce then (s.teamThreads n).foldl (fun s t =>
        let th := s.thread t
        let npc := savedPc th
        let fpc := th.abandoned.getD npc
        if th.exited then s
        else s.recordTrap t { cause := .quiesce, fpc, npc, rentry := th.rentry, rctr := th.rctr, precise := decide (npc = fpc) || decide (th.last = fpc) }) s
      else s
    some ((s.team n).waves.foldl deliverTraps s)

/-- A core forgets a context it hosts no more (R48). -/
def forgetContext (s : State) (c : CoreId) (ctx : Nat) : State :=
  if s.teams.any fun (_, y) => y.place = .resident && y.core = c && y.ctx = ctx then s
  else s.modCore c fun x => { x with loaded := Map.erase x.loaded ctx }
/-- The image is written at a base and the team leaves its core (step 8). -/
def saveTeam (s : State) (n first pages : Nat) (hold : Bool) : State :=
  let x := s.team n
  let base := s.pageBase x.ctx first
  let ths := s.teamThreads n
  let poison := x.waves.flatMap fun w => (lanes w).flatMap fun t => (s.thread t).poisoned.map fun r => ((s.wave w).num, t.lane, r)
  let traps := ths.filterMap fun t => (s.thread t).trap.bind fun tr => tr.tseq.map fun q => (q, tr)
  let s := (s.image n).1.foldl (fun (s : State) (off, bs) => s.spoolWrite x.ctx (base + BitVec.ofNat 64 off) bs) s
  let s := { s with images := Map.set s.images (x.ctx, base.toNat) (first, pages) }
  let s := s.modContext x.ctx fun c => { c with spooledTraps := traps.foldl (fun m (q, tr) => Map.set m q tr) c.spooledTraps }
  let s := { s with threads := s.threads.filter fun (t, _) => !x.waves.contains t.wave }
  let s := x.waves.foldl (fun s w => s.setWave w (Wave.initial w)) s
  let s := s.setTeam n { x with place := .spooled base.toNat, waves := [], regPoison := poison, hold, stopping := false, bornAt := s.hubNow (s.grid x.grid).pkg }
  ((s.modPkg x.core.pkg fun k => { k with refusals := k.refusals.filter (· ≠ n) }).forgetContext x.core x.ctx).startNext x.core

/-- How a pre-emption ends: teams saved, refused for want of pages (R411), or not possible yet. -/
inductive PreemptEnd where
  | saved (s : State) | full | waits

/-- The pre-emption of teams together. -/
def preemptTeams (s : State) (ns : List Nat) (quiesce hold : Bool) : PreemptEnd :=
  match ns.foldl (fun (r : Option State) n => r.bind fun s => s.stopTeam n quiesce) (some s) with
  | none => .waits
  | some s =>
    if ns.any fun n => s.headerHeld (s.team n).ctx then .waits else
    let claim := ns.foldl (fun (r : Option (List (Nat × Nat × Nat) × State)) n =>
      r.bind fun (cs, s) => (s.claimSpool (s.team n).ctx (s.image n).2).map fun (f, k, s) => (cs ++ [(n, f, k)], s)) (some ([], s))
    match claim with
    | none => .full
    | some (cs, s) =>
      if cs.any fun (n, f, k) => s.spoolHeld (s.team n).ctx (s.pageBase (s.team n).ctx f) (k * 65536) then .waits
      else .saved (cs.foldl (fun (s : State) (n, f, k) => s.saveTeam n f k hold) s)
/-- Issue stops for teams whose pre-emption has to wait (R410, step 1). -/
def stopIssue (s : State) (ns : List Nat) : State := ns.foldl (fun (s : State) n => s.modTeam n fun x => { x with stopping := true }) s
/-- The refusal of a pre-emption, reported by the Muper control complex; the teams keep running (R411). -/
def refusePreempt (s : State) (n : Nat) : State :=
  ((s.teamSet n).foldl (fun (s : State) m => s.modTeam m fun x => { x with stopping := false }) s).modPkg (s.team n).core.pkg fun k => { k with refusals := n :: k.refusals.filter (· ≠ n) }

-- restore (R413)

/-- The engine records of an image, in their order: 32 bytes and the accepted copy. -/
def imageOps (s : State) (k : Nat) (base : Dword) : List (List Byte × List Byte) :=
  ((List.range (leNat (s.imageRead k base 0x29 1))).foldl (fun (acc : List (List Byte × List Byte) × Nat) _ =>
    let r := s.imageRead k base acc.2 32
    let z := field r 0xC 4
    (acc.1 ++ [(r, s.imageRead k base (acc.2 + 32) z)], acc.2 + 32 + (z + 7) / 8 * 8)) ([], leNat (s.imageRead k base 0x90 8))).1
/-- An operation goes on from its record on the new core (R413, step 4). -/
def resumeOp (o : Op) (c : CoreId) (w : WaveId) (r copy : List Byte) (now : Nat) : Op :=
  let (at_, z) := doneAt o.kind
  { o with core := c, wave := w, issuer := ⟨w, field r 4 1⟩, tok := field r 3 1, off := BitVec.ofNat _ (field r 0x10 8), epc := BitVec.ofNat 64 (field r 0x18 8),
           st := if field r 1 1 = 1 then .completed (BitVec.ofNat 32 (field r 8 4)) else o.st,
           block := if copy = [] then o.block else copy, done := if copy = [] then o.done else field copy at_ z, at_ := now, startAt := none, tested := field r 1 1 = 1 }

/-- The queues of a core have room for the operations of a spooled team (R194, R299). -/
def queuesHold (s : State) (c : CoreId) (n : Nat) : Bool :=
  let own (p : OpKind → Bool) : Nat := (s.ops.filter fun (_, o) => o.team = n && o.pending && p o.kind).length
  s.mmaHeldBy c + own (· == .mma) ≤ 8 && s.queueHeld c false + own OpKind.copy ≤ 16 && s.queueHeld c true + own OpKind.hub ≤ 8
/-- A spooled team placed on a core that admits it and holds its reservations (R413). -/
def restoreOn (s : State) (n : Nat) (c : CoreId) : Option State :=
  let x := s.team n
  let k := x.ctx
  match x.place with
  | .spooled b =>
    let base : Dword := BitVec.ofNat 64 b
    let rd := s.imageRead k base
    let ws := s.imageWaves k base
    let tobs := s.imageTobs k base
    let scr := leNat (rd 0x24 4)
    let acc := leNat (rd 0x0F 1)
    if !s.canAdmit c k ws.length (sumOf (ws.map (·.2))) scr acc || !s.queuesHold c n then none
    else (placeRanges (s.coreRanges c) (tobs.map fun (_, r, _) => r.len)).map fun bases =>
      let now := s.now c
      let ops := s.teamOps n
      let recs := s.imageOps k base
      let scrOff := leNat (rd 0x78 8)
      let accOff := leNat (rd 0x88 8)
      let old := s
      let s := s.loadContext c k
      let slot := (freeSlots ((s.residents c).map (·.2.slot)) 64 1).headD 0
      let ids := (freeSlots ((s.liveWaves c).map (·.slot)) 64 ws.length).map fun j => (⟨c, j⟩ : WaveId)
      let regs := sumOf ((s.liveWaves c).map fun w => (s.wave w).allot)
      let (seed, s) := s.freeIdx
      let tiles := (s.newTiles c acc seed false).map fun (j, t) =>
        (j, { t with data := (List.range 64).flatMap fun i => ((List.range 64).map (64 * i + ·)).zip (wordsOf (rd (accOff + 16 + 16384 * j + 256 * i) 256)),
                     poison := (leNat (rd accOff 2)).testBit j })
      let handles := (bases.zip tobs).map fun (b, h, r, off) =>
        (h, { r with base := b, seed, poisoned := (Map.find x.handles h).elim [] (·.poisoned),
                     data := (List.range (r.len * 4)).flatMap fun q => ((List.range 256).map (256 * q + ·)).zip (rd (off + 256 * q) 256) })
      let waves := ids.zip ws
      let parked (b : Nat) : List ThreadId := waves.flatMap fun (w, off, a) => (lanes w).filter fun t => (old.threadOf k base off a t.lane 0).status = .parked (.bar b)
      let s := s.setTeam n
        { x with core := c, slot, place := .resident, waves := ids, nwave := ws.length, scrKB := scr, nacc := acc, tiles, handles,
                 scratch := (List.range (scr * 4)).flatMap fun q => ((List.range 256).map (256 * q + ·)).zip (rd (scrOff + 256 * q) 256), scrSeed := seed, scrZero := false,
                 bars := (List.range 16).map fun b => (b, { phase := leNat (rd (0x30 + 4 * b) 4), arrived := parked b }), held := [], regPoison := [], hold := false }
      let s := s.modCore c fun y => { y with usedBy := if y.usedBy.contains k then y.usedBy else k :: y.usedBy }
      let (s, _) := waves.foldl (fun (acc : State × Nat) (w, off, a) =>
        let (s, at_) := acc
        let num := leNat (rd (off + 2) 1)
        let ths := (lanes w).map fun t => (t, { old.threadOf k base off a t.lane now with
          poisoned := x.regPoison.filterMap fun (q, l, r) => if q = num ∧ l = t.lane then some r else none })
        let live := (List.range (a / 8)).filter fun g => ths.any fun (_, th) => th.v.any fun (r, _) => r / 8 = g
        let s := s.setWave w
          { team := n, num, base := at_, allot := a, live := true, s := (List.range 64).zip (wordsOf (rd (off + 8) 256)),
            pending := (List.range 64).filter (leNat (rd (off + 0x108) 8)).testBit,
            enrolled := (List.range 8).zip (wordsOf (rd (off + 0x110) 32)), arrived := (List.range 8).zip (wordsOf (rd (off + 0x130) 32)),
            absent := if live = [] then none else some { image := b, granules := live } }
        (ths.foldl (fun (s : State) (t, th) => (s.setThread t th).recordPoint (s.threadEv t .restore)) s, at_ + a)) (s, regs)
      let waveOf (q : Nat) : WaveId := (ids.find? fun w => (s.wave w).num = q).getD (ids.headD ⟨c, 0⟩)
      let s := (ops.zip recs).foldl (fun (s : State) ((m, o), r, copy) => s.setOp m (resumeOp o c (waveOf (field r 2 1)) r copy now)) s
      let s := { s with ops := s.ops.filter fun (m, _) => !((ops.drop recs.length).any (·.1 = m)) }
      let s := x.held.foldl (fun (s : State) (off, bs) => s.agentStore (s.hubEv c.pkg .store) (.scr n off) bs) s
      let qs := (s.teamThreads n).filterMap fun t => ((s.thread t).trap.bind (·.tseq)).map fun q => (q, t)
      let later := (s.context k).later
      let s := s.modContext k fun y => { y with spooledTraps := y.spooledTraps.filter fun (q, _) => !qs.any (·.1 = q),
                                                later := y.later.filter fun (q, _) => !qs.any (·.1 = q) }
      (later.foldl (fun (s : State) (q, act, tpc) =>
        match qs.find? (·.1 = q) with
        | some (_, t) => (s.thread t).trap.elim s fun tr => s.resumeThread t tr act tpc
        | none => s) s).startNext c
  | _ => none

/-- The dies a restore tries: the one the team's key selects, then the others of the partition. -/
def restoreDies (s : State) (n : Nat) : List (Nat × Nat) :=
  let x := s.team n
  let p := (s.grid x.grid).pkg
  let t := s.slotOf p x.key
  let all := (s.partition p).flatMap fun q => (List.range 8).map fun d => (q, d)
  ((t :: all.filter (· ≠ t)).filter fun (q, _) => s.mayPlace q x.ctx)
/-- A team, or a cluster with slot n on core n, placed where it fits. -/
def restoreUnit (s : State) (ns : List Nat) : Option State :=
  match ns with
  | [] => some s
  | n :: _ =>
    (s.restoreDies n).findSome? fun (p, d) =>
      if (s.team n).clusterSlot.isSome then
        (List.range 4).findSome? fun q => ns.foldl (fun (r : Option State) m =>
          r.bind fun s => s.restoreOn m ⟨p, d, 32 * q + ((s.team m).clusterSlot.getD 0)⟩) (some s)
      else
        let cs := ((List.range 128).map fun c => (⟨p, d, c⟩ : CoreId)).filter fun c => (s.restoreOn n c).isSome
        match cs with
        | [] => none
        | c :: rest => s.restoreOn n (rest.foldl (fun b x => if s.freeFile b (s.team n).ctx < s.freeFile x (s.team n).ctx then x else b) c)
/-- A set restored together. -/
def restoreSet (s : State) : List (List Nat) → Option State
  | [] => some s
  | u :: us => (s.restoreUnit u).bind fun s => s.restoreSet us
/-- The units of a set: its clusters, or its teams. -/
def unitsOf (s : State) (ns : List Nat) : List (List Nat) :=
  match ns with
  | [] => []
  | n :: _ =>
    if (s.team n).clusterSlot.isSome then ((ns.map fun m => (s.team m).cluster).eraseDups).map fun c => ns.filter fun m => (s.team m).cluster = c
    else ns.map fun m => [m]
/-- No reserved field of an image's header, wave, thread and engine records is set (Tables 17.6 to 17.9). -/
def imageReservedOk (s : State) (k : Nat) (b : Dword) : Bool :=
  let zero (off n : Nat) : Bool := leNat (s.imageRead k b off n) = 0
  leNat (s.imageRead k b 6 2) < 8 && zero 0x2A 6 && zero 0x98 104
    && (s.imageWaves k b).all (fun (off, _) => zero (off + 3) 5 && zero (off + 0x150) 176 && zero (off + 0xE00) 512
      && (List.range 32).all fun l => zero (off + 0x600 + 64 * l + 0x1C) 4 && zero (off + 0x600 + 64 * l + 0x26) 2 && zero (off + 0x600 + 64 * l + 0x38) 8)
    && (s.imageOps k b).all fun (r, _) => field r 5 3 = 0
/-- The spooled team whose image lies at a base: by its place, or by the grid and the coordinates in the image's header (Table 17.6). An image with a reserved
field set is none (R5; log entry 51, DEDUCED). -/
def imageTeam (s : State) (k base : Nat) : Option Nat :=
  let b : Dword := BitVec.ofNat 64 base
  let rd (off n : Nat) : Nat := leNat (s.imageRead k b off n)
  if rd 0 4 ≠ 0x3153564C ∨ rd 4 2 ≠ 1 ∨ rd 0xC 2 ≠ k ∨ !s.imageReservedOk k b then none
  else
    let is (x : Team) : Bool := x.ctx = k && (match x.place with | .spooled _ => true | _ => false)
    match s.teams.find? fun (_, x) => is x && x.place = .spooled base with
    | some (n, _) => some n
    | none => (s.teams.find? fun (_, x) => is x && x.grid = rd 0x10 8 && x.x = rd 0x18 4 && x.y = rd 0x1C 2 && x.z = rd 0x1E 2).map (·.1)

/-- Whether some wave still takes registers from an image (R414). -/
def imageNeeded (s : State) (k base : Nat) : Bool :=
  (s.teams.any fun (_, x) => x.ctx = k && x.place = .spooled base)
    || s.waves.any fun (w, x) => x.live && (s.team x.team).ctx = k && x.absent.elim false fun a => a.image = base
        && (lanes w).any fun t => !(s.thread t).exited && (s.thread t).v.any fun (r, _) => a.granules.contains (r / 8)

/-- The ancestors of a grid (R322, R324). -/
def ancestors (s : State) (g : Nat) : Nat → List Nat
  | 0 => []
  | fuel + 1 => match (s.grid g).parent with | some p => p :: s.ancestors p fuel | none => []

end State

/-- A pre-emption that has to wait stops the issue of its teams, once. -/
def awaitPreempt (s : State) (ns : List Nat) : Outcome :=
  if ns.all fun n => (s.team n).stopping then .refused (.notEnabled "a hold of the team's run, an access or a lease is awaited") else .next (s.stopIssue ns)

/-- `PREEMPT` (R410, R411): the team, with the teams that go with it; where an access of theirs is not performed, only their issue stops. -/
def execPreempt (tm : Nat) (s : State) : Outcome :=
  if (s.team tm).place ≠ .resident then .refused (.notEnabled "the team is not resident")
  else match s.preemptTeams (s.teamSet tm) false false with
    | .saved s => .next s
    | .full => .next (s.refusePreempt tm)
    | .waits => awaitPreempt s (s.teamSet tm)

/-- `RESTORE` (R413): every image of the set of the team whose image lies at a base. -/
def execRestore (ctx image : Nat) (s : State) : Outcome :=
  match s.imageTeam ctx image with
  | none => .refused (.notEnabled "no team's image lies there")
  | some n =>
    let s := s.modTeam n fun x => { x with place := .spooled image }
    match s.restoreSet (s.unitsOf (s.teamSet n)) with
    | some s => .next s
    | none => .refused (.notEnabled "no core admits the team")

/-- `SPOOL_FREE` (R414). -/
def execSpoolFree (ctx image : Nat) (s : State) : Outcome :=
  if !Map.has s.images (ctx, image) || s.imageNeeded ctx image then .refused (.notEnabled "the image stays in use") else .next (s.freeSpool ctx image)

namespace State

/-- The pending teams that have waited long enough for a team of an ancestor grid to make room: of the same context (R324). -/
def waitingBelow (s : State) (x : Team) : List Nat :=
  (s.teams.filter fun (_, y) => y.place = .pending && y.ctx = x.ctx && (s.ancestors y.grid 10).contains x.grid
    && decide (y.bornAt + 65536 ≤ s.hubNow (s.grid y.grid).pkg)).map (·.1)
/-- Whether other teams of a descendant grid have waited so long: those a Skein still holds or whose cooperative grid waits, and spooled ones. -/
def waitingElse (s : State) (x : Team) : Bool :=
  (s.teams.any fun (_, y) => (match y.place with | .spooled _ => !y.hold | _ => false) && y.ctx = x.ctx && (s.ancestors y.grid 10).contains x.grid
    && decide (y.bornAt + 65536 ≤ s.hubNow (s.grid y.grid).pkg))
  || s.grids.any fun (n, g) => g.ctx = x.ctx && !g.retired && decide (g.handed < g.units) && (s.ancestors n 10).contains x.grid
    && decide (g.acceptedAt + 65536 ≤ s.hubNow g.pkg)
/-- A core that a pre-empted team has left takes the first of some pending teams that it admits, or the die its cluster (R324). -/
def takeFreed (s : State) (c : CoreId) (ns : List Nat) : State :=
  let place (n : Nat) : Option (State × List Nat) :=
    let x := s.team n
    let k := (s.grid x.grid).kern
    let bob := (s.dies.find? fun (_, y) => y.bobbin.contains n).elim [] (·.2.bobbin)
    if !s.mayPlace c.pkg x.ctx then none
    else if k.clustered then (s.placeUnit c.pkg c.die (s.unitOf bob n)).map fun s => (s, s.unitOf bob n)
    else if s.canAdmit c x.ctx k.waves (k.waves * k.allot) k.scratch k.acc then some (s.placeTeam n c, [n]) else none
  match ns.findSome? place with
  | none => s
  | some (s, ms) => { s with dies := Map.mapVals s.dies fun _ y => { y with bobbin := y.bobbin.filter fun m => !ms.contains m } }

end State

/-- `ANCESTOR_PREEMPT` (R324): a team of the descendant grid that waits as pending takes the core; others find it free. -/
def execAncestorPreempt (tm : Nat) (s : State) : Outcome :=
  let x := s.team tm
  let now := s.now x.core
  let idle := (s.teamThreads tm).all fun t =>
    let th := s.thread t
    th.exited || (match th.status with | .parked _ | .blocked _ => decide (th.waitSince + 65536 ≤ now) | _ => false)
  let ns := s.waitingBelow x
  if x.place ≠ .resident || !idle || (ns = [] && !s.waitingElse x) then .refused (.notEnabled "no descendant waits for the team's core")
  else match s.preemptTeams (s.teamSet tm) false false with
    | .saved s => .next (s.takeFreed x.core ns)
    | .full => if (s.pkg x.core.pkg).refusals.contains tm then .refused (.notEnabled "no spool pages are free") else .next (s.refusePreempt tm)
    | .waits => awaitPreempt s (s.teamSet tm)

-- rack-wide pre-emption (R415)

/-- `RACK_STOP` (R415): the package starts nothing of the context, and its teams issue no more. -/
def execRackStop (p ctx epoch : Nat) (s : State) : Outcome :=
  if !Map.has s.contexts ctx || Map.has (s.context ctx).stop p then .refused (.notEnabled "the context is unknown or stopped already")
  else .next (s.modContext ctx fun c => { c with stop := Map.set c.stop p { epoch, at_ := s.hubNow p } })

/-- `RACK_DRAIN_END` (R415): the accesses of the context's teams are performed; their images are written and `STOPPED` is sent. -/
def execRackDrainEnd (p ctx : Nat) (s : State) : Outcome :=
  match Map.find (s.context ctx).stop p with
  | none => .refused (.notEnabled "the context is not stopped")
  | some r =>
    let ns := (s.teams.filter fun (_, x) => x.ctx = ctx && x.place = .resident && x.core.pkg = p).map (·.1)
    if r.sent then .refused (.notEnabled "the package has acknowledged")
    else if ns.any fun n => (s.core (s.team n).core).misses ≠ [] || (s.core (s.team n).core).sent ≠ [] || (s.core (s.team n).core).held ≠ [] then .refused (.notEnabled "an access is not performed")
    else match s.preemptTeams ((ns.flatMap s.teamSet).eraseDups.filter fun n => (s.team n).place = .resident) false false with
      | .saved s => .next (s.modContext ctx fun c => { c with stop := Map.set c.stop p { r with sent := true } })
      | .full =>
        let new := ns.filter fun n => !(s.pkg p).refusals.contains n
        if new = [] then .refused (.notEnabled "no spool pages are free") else .next (new.foldl (fun (s : State) n => s.refusePreempt n) s)
      | .waits => .refused (.notEnabled "a hold of a run or a lease is awaited")

/-- `STOPPED` (R415): the Reel has a package's acknowledgement. -/
def execStopped (p ctx : Nat) (s : State) : Outcome :=
  match Map.find (s.context ctx).stop p with
  | some r =>
    if r.sent && !r.received then .next (s.modContext ctx fun c => { c with stop := Map.set c.stop p { r with received := true } })
    else .refused (.notEnabled "no STOPPED is on its way")
  | none => .refused (.notEnabled "the context is not stopped")

/-- Whether the Reel may send `RESUME` for a stop: every package of the partition has acknowledged it (R415, R416). -/
def State.allStopped (s : State) (p ctx epoch : Nat) : Bool :=
  (s.partition p).all fun q => !(s.pkg q).alive || (Map.find (s.context ctx).stop q).elim false fun r => r.received && r.epoch = epoch
/-- `RESUME` (R415): the package restores the teams of the context again. The first one joins what precedes the stop to what follows it (R416). -/
def execResume (p ctx epoch : Nat) (s : State) : Outcome :=
  match Map.find (s.context ctx).stop p with
  | some r =>
    let first := (s.context ctx).resumed ≠ some epoch
    if r.received && r.epoch = epoch && (!first || s.allStopped p ctx epoch) then
      let s := if first then s.recordPoint { s.hubEv p (.resume ctx) with scp := some .rack } else s
      .next (s.modContext ctx fun c => { c with stop := Map.erase c.stop p, resumed := some epoch })
    else .refused (.notEnabled "a package has not acknowledged the stop")
  | none => .refused (.notEnabled "the context is not stopped")

end Sys2Proof.Machine
end

