-- ==== Sys2Proof/Machine/Directory.lean ====
section
/-! DEFINITION. The directory of the homes: entries, requests, probes, grants and their replies (R251 to R262, R274; log entry 4), and the answers of cores and
proxies. -/

namespace Sys2Proof.Machine

-- entries (R256, R259, R260)

/-- The package of an agent. -/
def Agent.pkg : Agent → Nat
  | .core c => c.pkg | .home p _ => p | .proxy p => p | .engine p => p

namespace DirEntry

/-- Holders named by pointers, in the order of the pointers. -/
def pointers (e : DirEntry) : List CoreId := e.ptr.map (·.2)
/-- The owner of an entry in state O. -/
def owner (e : DirEntry) : Option CoreId := if e.st = .o then e.pointers.head? else none
/-- Whether a coarse bit covers a core: no cluster holds the host cores of the home package itself, which stay named by pointers (R256; log entry 56). -/
def covered (home : Nat) (c : CoreId) : Bool := !(isHostCore c && c.pkg = home)
/-- The coarse bit that covers a core for a home package (R256): a cluster of the home package, or a group of others, by package number. -/
def coarseBit (num : Nat → Nat) (home : Nat) (c : CoreId) : Nat := if c.pkg = home then 4 * (c.die % 8) + c.core / 32 % 4 else 32 + num c.pkg / 128 % 32
/-- Whether an agent is recorded. -/
def records (num : Nat → Nat) (home : Nat) (e : DirEntry) (c : CoreId) : Bool :=
  e.pointers.contains c || (e.coarse && covered home c && e.vec.getLsbD (coarseBit num home c))
/-- A pointer for a core at the lowest free place. -/
def point (e : DirEntry) (c : CoreId) : DirEntry :=
  { e with ptr := Map.set e.ptr (((List.range (e.ptr.length + 1)).find? fun k => !Map.has e.ptr k).getD e.ptr.length) c }
/-- Bits for cores that have one. -/
def mark (num : Nat → Nat) (home : Nat) (e : DirEntry) (cs : List CoreId) : DirEntry :=
  { e with vec := (cs.filter (covered home)).foldl (fun v x => v ||| BitVec.ofNat 64 (2 ^ coarseBit num home x)) e.vec }
/-- Adds a sharer: the lowest free pointer of four; the fifth distinct sharer converts the entry to coarse form (R256). -/
def addSharer (num : Nat → Nat) (home : Nat) (e : DirEntry) (c : CoreId) : DirEntry :=
  if records num home e c then e
  else if !e.coarse && e.ptr.length < 4 then e.point c
  else
    let e := if e.coarse then e else { mark num home e e.pointers with coarse := true, ptr := e.ptr.filter fun (_, x) => !covered home x }
    if covered home c then mark num home e [c] else e.point c
/-- Removes a sharer that a pointer names; the coarse form does not change (Table 11.1). -/
def dropSharer (e : DirEntry) (c : CoreId) : DirEntry := { e with ptr := e.ptr.filter fun (_, x) => x ≠ c }
/-- An entry with no holder. -/
def clear (e : DirEntry) : DirEntry := { e with st := .i, coarse := false, ptr := [], vec := 0 }
/-- Whether some holder is recorded. -/
def empty (e : DirEntry) : Bool := e.ptr = [] && e.vec = 0
def setOwner (e : DirEntry) (c : CoreId) : DirEntry := { e.clear with st := .o, ptr := [(0, c)] }
/-- Equal state and holder record (R259). -/
def same (a b : DirEntry) : Bool := a.st = b.st && a.coarse = b.coarse && a.ptr = b.ptr && a.vec = b.vec

end DirEntry

namespace State

/-- The package number of a package of the model. -/
def num (s : State) (q : Nat) : Nat := (s.pkg q).num
/-- The entry that covers a line in its slice: a listed one, or an unlisted one in state I of the largest region that holds no listed entry of the slice
(R13, R259). -/
def dirFind (s : State) (p d line : Nat) : Nat × DirEntry :=
  let m := (s.die p d).dir
  match (List.range 10).findSome? fun z => (Map.find m (entryBase line z)).bind fun e => if e.size = z then some (entryBase line z, e) else none with
  | some x => x
  | none =>
    let free (z : Nat) : Bool := m.all fun (a, _) => sliceOf a ≠ sliceOf line || a / regionBytes z ≠ line / regionBytes z
    let z := ((List.range 10).reverse.find? free).getD 0
    (entryBase line z, { size := z })
def dirSet (s : State) (p d base : Nat) (e : DirEntry) : State := s.modDie p d fun x => { x with dir := Map.set x.dir base e }
def dirErase (s : State) (p d base : Nat) : State := s.modDie p d fun x => { x with dir := Map.erase x.dir base }
/-- Splits the entry that covers a line down to the line: each half keeps the record of the whole, and the requests that wait for its lines (R259). A half that
holds no line of the slice has no entry. -/
def dirSplit (s : State) (p d line : Nat) : Nat → State
  | 0 => s
  | fuel + 1 =>
    let (b, e) := s.dirFind p d line
    if e.size = 0 then s.dirSet p d b e
    else
      let z := e.size - 1
      let half (b : Nat) : DirEntry := { e with size := z, waiting := e.waiting.filter fun m => (entryLines b z).contains m.line }
      let s := s.dirSet p d b (half b)
      (if e.size ≤ 5 then s else s.dirSet p d (b + regionBytes z) (half (b + regionBytes z))).dirSplit p d line fuel

/-- Who is probed for an entry: cores, and the proxies of the packages of a group (R256, R257). -/
def members (s : State) (p : Nat) (e : DirEntry) : List Agent :=
  let clusters := ((List.range 32).filter e.vec.getLsbD).flatMap fun k => (List.range 32).map fun j => Agent.core ⟨p, k / 4, 32 * (k % 4) + j⟩
  let groups := ((List.range 32).filter fun g => e.vec.getLsbD (32 + g)).flatMap fun g =>
    ((s.partition p).filter fun q => q ≠ p && s.num q / 128 % 32 = g).map Agent.proxy
  (e.pointers.map Agent.core) ++ clusters ++ groups

/-- Sends probes of one kind for a line, or for the lines of an entry of a size, their replies to go to an agent. -/
def probe (s : State) (p d line size : Nat) (kind : MsgKind) (dsts : List Agent) (ackTo : Agent) : State :=
  dsts.foldl (fun (s : State) a => s.send { kind, line, size, src := .home p d, dst := a, ackTo := some ackTo, sentAt := s.now ⟨p, d, 0⟩ }) s

/-- Whether earlier messages between the same two agents are still under way: messages arrive in the order sent. -/
def inOrder (s : State) (n : Nat) (m : Msg) : Bool := s.net.all fun (k, x) => n ≤ k || x.src ≠ m.src || x.dst ≠ m.dst || x.kind = .retry
def dropMsg (s : State) (n : Nat) : State := { s with net := Map.erase s.net n }
/-- Whether messages pass between two packages: some plane has a port of each that is up (R16). -/
def linked (s : State) (p q : Nat) : Bool :=
  let up (p k : Nat) : Bool := (Map.getD (s.pkg p).ports k {}).up
  p = q || (List.range 18).any fun k => up p k && up q k
/-- A message of a kind that may be received now at an agent of a package that is alive. -/
def arrived (s : State) (n : Nat) (kind : MsgKind) : Option (Msg × State) :=
  match Map.find s.net n with
  | some m => if m.kind = kind && (s.pkg m.dst.pkg).alive && s.linked m.src.pkg m.dst.pkg && s.inOrder n m then some (m, s.dropMsg n) else none
  | none => none

-- heat (R274)

/-- A counter of a slice reaches `THRESH`: one notification (R274). -/
def heatNotify (s : State) (p : Nat) (pa key q count : Nat) : State :=
  (s.modPkg p fun k => { k with migQueue := k.migQueue ++ [leBytes pa 8 ++ leBytes (s.pkg q).num 2 ++ leBytes key 2 ++ leBytes count 2 ++ leBytes 0 2] }).setHpend p 1
/-- Counts a request of another package for a line's block (R274). -/
def heatCount (s : State) (p d : Nat) (m : Msg) : State :=
  let q := m.src.pkg
  let x := s.die p d
  let thresh := x.heatCtl.toNat % 65536
  if q = p || !x.heatCtl.getLsbD 31 then s
  else
    let slice := sliceOf m.line
    let block := m.line / 65536
    let is (h : Heat) : Bool := h.slice = slice && h.block = block && h.pkg = q
    let n := min 65535 (((x.heat.find? is).elim 0 (·.count)) + 1)
    let here := x.heat.filter fun h => h.slice = slice
    let least := here.foldl (fun (b : Option Heat) h => match b with | some y => if h.count < y.count then some h else b | none => some h) none
    let rest := if x.heat.any is then x.heat.filter fun h => !is h
      else if here.length ≥ 1024 then x.heat.filter fun h => some h ≠ least
      else x.heat
    if n ≥ thresh then
      (s.setDie p d { x with heat := { slice, block, pkg := q, count := 0 } :: rest }).heatNotify p (block * 65536) m.key q n
    else s.setDie p d { x with heat := { slice, block, pkg := q, count := n } :: rest }

-- requests (Table 11.1)

/-- A wake for a notify line to the Skein of the home's package (R342). -/
def wakeLine (s : State) (p : Nat) (m : Msg) : State := if m.ntf then s.modPkg p fun k => { k with wakes := k.wakes ++ [m.line] } else s
def grantMsg (s : State) (p d : Nat) (m : Msg) (st : L1St) (acks : Nat) : State :=
  s.send { kind := .grant, line := m.line, src := .home p d, dst := m.src, grantState := st, ackCnt := acks, key := m.key, page := m.page, sentAt := s.now ⟨p, d, 0⟩ }
/-- The answer of the home to a streaming store or an RMW (R261, R288). -/
def answer (s : State) (p d : Nat) (m : Msg) : State :=
  match m.src with
  | .core _ | .engine _ => s.send { m with kind := .done, orig := some m.kind, src := .home p d, dst := m.src, sentAt := s.now ⟨p, d, 0⟩ }
  | _ => s

/-- The end of a transaction whose replies have all come: the request is served (Table 11.1). `keep` is the former owner where it keeps an S copy. An entry
larger than the line that a streaming store or an RMW did not split keeps its record for its other lines (log entry 57). -/
def finishTrans (s : State) (p d base : Nat) (e : DirEntry) (t : Trans) (keep : Option CoreId) : State :=
  let now := s.now ⟨p, d, 0⟩
  let e := { e with busy := none, lastUse := now }
  let shared : DirEntry := keep.elim { e.clear with st := .i } fun b => { e.clear with st := .s, ptr := [(0, b)] }
  match t.req.kind, t.req.src with
  | .gets, .core a =>
    let e := { DirEntry.addSharer s.num p shared a with st := .s }
    (s.dirSet p d base { e with busy := some { t with replies := 0, awaitDone := true, since := now } }).grantMsg p d t.req .s 0
  | .getm, .core a =>
    ((s.dirSet p d base { e.setOwner a with busy := some { t with replies := 0, awaitDone := true, since := now } }).grantMsg p d t.req .m 0).wakeLine p t.req
  | .gete, _ => (s.dirSet p d base shared).grantMsg p d t.req .s 0
  | .stm, _ | .atm, _ =>
    ((((if t.req.kind = .stm then t.req.evs else []).foldl mergeLast s).dirSet p d base (if e.size = 0 then e.clear else e)).answer p d t.req).wakeLine p t.req
  | .retire, _ => if e.waiting = [] then s.dirErase p d base else s.dirSet p d base e.clear
  | _, _ => s.dirSet p d base e.clear

/-- A `PUTO` of an owner for a line is on its way to the home. -/
def putoComing (s : State) (p d line : Nat) (a : CoreId) : Bool :=
  s.net.any fun (_, m) => m.kind = .puto && m.line = line && m.src = .core a && m.dst = .home p d

/-- Serves a request at an entry of one line that is not busy, or at a larger one that no conflict splits (Table 11.1). An owner whose own request
finds no `PUTO` in flight is served as from I (log entry 58). -/
def serveAt (s : State) (p d base : Nat) (e : DirEntry) (m : Msg) : State :=
  let now := s.now ⟨p, d, 0⟩
  let e := { e with lastReq := now, lastUse := now, key := match m.src with | .home _ _ => e.key | _ => m.key }
  let open_ (e : DirEntry) (t : Trans) : State := s.dirSet p d base { e with busy := some { t with since := now } }
  let done : Trans := { req := m, awaitDone := true }
  let recallOf (b : CoreId) (kind : MsgKind) : State := (open_ e { req := m, replies := 1, from_ := [.core b] }).probe p d m.line m.size kind [.core b] (.home p d)
  let purge : State :=
    match e.st, e.owner with
    | .o, some b => recallOf b .recallI
    | .s, _ =>
      let dsts := s.members p e
      if dsts = [] then s.finishTrans p d base e { req := m } none
      else (open_ e { req := m, replies := dsts.length, from_ := dsts }).probe p d m.line m.size .inv dsts (.home p d)
    | _, _ => s.finishTrans p d base e { req := m } none
  let own (a : CoreId) (st : L1St) : State := (open_ (e.setOwner a) done).grantMsg p d m st 0
  let awaits (a : CoreId) : State := open_ e { req := m, awaitPuto := true, from_ := [.core a] }
  match m.kind, m.src with
  | .gets, .core a =>
    (match e.st, e.owner with
      | .o, some b => if b ≠ a then recallOf b .recallS else if s.putoComing p d m.line a then awaits a else own a .e
      | .s, _ => (open_ (DirEntry.addSharer s.num p e a) done).grantMsg p d m .s 0
      | _, _ => own a .e)
  | .getm, .core a =>
    (match e.st, e.owner with
      | .o, some b => if b ≠ a then recallOf b .recallI else if s.putoComing p d m.line a then awaits a else (own a .m).wakeLine p m
      | .s, _ =>
        let dsts := (s.members p e).filter (· ≠ .core a)
        (((open_ (e.setOwner a) done).probe p d m.line m.size .inv dsts (.core a)).grantMsg p d m .m dsts.length).wakeLine p m
      | _, _ => (own a .m).wakeLine p m)
  | .gete, _ =>
    (match e.st, e.owner with
      | .o, some b => recallOf b .recallS
      | _, _ => (if Map.has (s.die p d).dir base then s.dirSet p d base e else s).grantMsg p d m .s 0)
  | .stm, _ | .atm, _ | .retire, _ | .inv, _ => purge
  | _, _ => s

/-- Whether a request conflicts with an entry larger than its line: it records another agent in a state the request must change (R259). -/
def conflicts (s : State) (p : Nat) (e : DirEntry) (m : Msg) : Bool :=
  e.size > 0 && e.st ≠ .i &&
    match m.kind, m.src with
    | .gets, .core a => e.st = .o && e.owner ≠ some a
    | .getm, .core a | .stm, .core a | .atm, .core a => (s.members p e).any (· ≠ .core a)
    | .gete, _ => e.st = .o
    | _, _ => s.members p e ≠ []
/-- Whether a message splits the entry that covers its line (R259): a conflict, an owner's request that waits for its `PUTO`, or a notice of a recorded agent. -/
def splits (s : State) (p d : Nat) (e : DirEntry) (m : Msg) : Bool :=
  match m.kind, m.src with
  | .puts, .core a | .puto, .core a | .wbs, .core a => e.size > 0 && e.st ≠ .i && DirEntry.records s.num p e a
  | .gets, .core a | .getm, .core a => s.conflicts p e m || (e.size > 0 && e.owner = some a && s.putoComing p d m.line a)
  | _, _ => s.conflicts p e m

-- room (R260)

/-- Entries of a slice, and the least recently used one that is not busy. -/
def sliceEntries (s : State) (p d line : Nat) : List (Nat × DirEntry) := (s.die p d).dir.filter fun (b, _) => sliceOf b = sliceOf line
def victim (es : List (Nat × DirEntry)) : Option (Nat × DirEntry) :=
  (es.filter fun (_, e) => e.busy.isNone).foldl (fun (b : Option (Nat × DirEntry)) x =>
    match b with | some y => if x.2.lastUse < y.2.lastUse then some x else b | none => some x) none
/-- The new entries that serving a message takes. -/
def newEntries (s : State) (p d : Nat) (m : Msg) : Nat :=
  let (b, e) := s.dirFind p d m.line
  let listed := Map.has (s.die p d).dir b
  if e.busy.isSome then 0
  else if s.splits p d e m then e.size - 5
  else match m.kind with
    | .gets | .getm | .stm | .atm => if listed then 0 else 1
    | _ => 0
/-- Whether the slice has room for them. -/
def room (s : State) (p d : Nat) (m : Msg) : Bool := (s.sliceEntries p d m.line).length + s.newEntries p d m ≤ 32768
/-- A message of a home to itself that clears an entry, for lines it covers. -/
def clearMsg (s : State) (p d base size : Nat) (kind : MsgKind) : Msg :=
  { kind, line := base, size, src := .home p d, dst := .home p d, sentAt := s.now ⟨p, d, 0⟩ }
/-- Frees an entry: its holders are invalidated or recalled first. -/
def evictEntry (s : State) (p d base : Nat) (e : DirEntry) : State := s.serveAt p d base e (s.clearMsg p d base e.size .retire)

/-- A notice of a core (`PUTS`, `PUTO`, `WBS`) at an entry that is not busy (Table 11.1). -/
def notice (s : State) (p d : Nat) (m : Msg) : State :=
  let pack (s : State) : State := s.send { kind := .pack, line := m.line, src := .home p d, dst := m.src, sentAt := s.now ⟨p, d, 0⟩ }
  match m.src with
  | .core a =>
    let (_, e0) := s.dirFind p d m.line
    let known := DirEntry.records s.num p e0 a && e0.st ≠ .i
    let s := if s.splits p d e0 m then s.dirSplit p d m.line 10 else s
    let (b, e) := s.dirFind p d m.line
    (match m.kind with
      | .puts =>
        if known && e.st = .s && !e.coarse then
          let e := e.dropSharer a
          s.dirSet p d b (if e.empty then e.clear else e)
        else s
      | .puto => pack (if known && e.owner = some a then s.dirSet p d b e.clear else s)
      | .wbs => if known && e.owner = some a then s.dirSet p d b { e with st := .s } else s
      | _ => s)
  | _ => s

/-- One message served at the home when its entry is not busy; a busy entry keeps it waiting (R254). -/
def arriveAt (s : State) (p d : Nat) (m : Msg) : State :=
  let (b, e) := s.dirFind p d m.line
  match e.busy with
  | some t =>
    match m.kind, m.src with
    | .puto, .core a =>
      if t.awaitPuto && t.req.line = m.line && t.req.src = .core a then
        let s := s.send { kind := .pack, line := m.line, src := .home p d, dst := m.src, sentAt := s.now ⟨p, d, 0⟩ }
        s.serveAt p d b { e.clear with busy := none } t.req
      else s.dirSet p d b { e with waiting := e.waiting ++ [m] }
    | _, _ => s.dirSet p d b { e with waiting := e.waiting ++ [m] }
  | none =>
    match m.kind with
    | .puts | .puto | .wbs => s.notice p d m
    | _ =>
      let s := if s.splits p d e m then s.dirSplit p d m.line 10 else s
      let (b, e) := s.dirFind p d m.line
      s.serveAt p d b e m

-- freezes (R268, R273)

/-- The page whose requests a home holds that covers a line. -/
def frozenAt (s : State) (p d line : Nat) : Option Frozen := (s.die p d).frozen.find? (·.covers line)
/-- Holds a request. -/
def holdFrozen (s : State) (p d : Nat) (m : Msg) (f : Frozen) : State :=
  s.modDie p d fun x => { x with frozen := x.frozen.map fun y => if y.start = f.start ∧ y.large = f.large then { y with held := y.held ++ [m] } else y }
def isRequest (k : MsgKind) : Bool := match k with | .gets | .getm | .gete | .stm | .atm => true | _ => false
/-- Recalls every copy of the lines of entries that are not busy. -/
def recallHolders (s : State) (p d : Nat) (is : Nat → Bool) : State :=
  ((s.die p d).dir.filter fun (b, e) => is b && e.busy.isNone && e.st ≠ .i).foldl (fun (s : State) (b, e) => s.serveAt p d b e (s.clearMsg p d b e.size .inv)) s

/-- A message that waited is served, held under a freeze, or, where its slice has no free entry, waits on (R254, R260, R268). -/
def serveWaiting (s : State) (p d : Nat) (m : Msg) : State :=
  match (if isRequest m.kind then s.frozenAt p d m.line else none) with
  | some f => s.holdFrozen p d m f
  | none => if s.room p d m then s.arriveAt p d m else s.send m
/-- The entry of a line is not busy any more: waiting messages are served in arrival order until one makes it busy again; under a freeze requests are held and the
holders recalled (R254, R268). -/
def drainEntry (s : State) (p d line : Nat) : State :=
  let (b, e) := s.dirFind p d line
  if e.busy.isSome then s
  else
    let s := if e.waiting = [] then s else s.dirSet p d b { e with waiting := [] }
    let s := e.waiting.foldl (fun (s : State) m => s.serveWaiting p d m) s
    if (s.frozenAt p d line).isNone then s else s.recallHolders p d fun a => (entryLines b e.size).contains a
/-- A reply that a busy entry awaits has come. -/
def replyCome (s : State) (p d line : Nat) (keep : Option CoreId) (a : Agent) : State :=
  let (b, e) := s.dirFind p d line
  match e.busy with
  | some t =>
    let t := { t with replies := t.replies - 1, from_ := t.from_.erase a, keep := if keep.isSome then keep else t.keep }
    if t.replies = 0 && !t.awaitDone && !t.awaitPuto then (s.finishTrans p d b e t t.keep).drainEntry p d line
    else s.dirSet p d b { e with busy := some t }
  | none => s

-- late requests (R269, R270)

/-- A forwarding stub of a die for a message's page; a node read of a walk names a frame (R269, R275). -/
def stubFor (s : State) (p d : Nat) (m : Msg) : Option Stub :=
  (s.die p d).stubs.find? fun x => if m.phys then x.start ≤ m.line && m.line < x.start + pageBytes x.large else stubCovers x m.key m.page
/-- Whether a die is not the home that the page tables name for a message's page (Table 11.6). -/
def notHome (s : State) (p d : Nat) (m : Msg) : Bool :=
  !m.phys &&
    (match s.walk p m.root (BitVec.ofNat 64 (m.page * 65536)) with
      | .ok pte =>
        (s.route p pte.hpkg).elim true fun q =>
          !(q = p && pte.hdie = d && pte.frame + (if pte.large then m.page % 4096 else 0) = m.line % 2 ^ 43 / 65536)
      | .error _ => true)
/-- The line that a stub names for a line of its page: a CXL-tier page lies in the package's CXL memory (R14, R269). -/
def relayLine (x : Stub) (m : Msg) : Nat :=
  physAt x.newPkg (if physDie m.line = 9 then 9 else x.newDie)
    ((if m.phys then x.newFrame + (m.line - x.start) / 65536 else stubFrame x m.page) * 65536 + m.line % 65536)
/-- A request reaches a home: held under a freeze, sent on by a stub, sent back, or served (R268, R269, R274). -/
def requestAt (s : State) (p d : Nat) (m : Msg) : State :=
  let back (kind : MsgKind) : State := s.send { m with kind, orig := some m.kind, src := .home p d, dst := m.src, sentAt := s.now ⟨p, d, 0⟩ }
  match s.frozenAt p d m.line with
  | some f =>
    let (b, e) := s.dirFind p d m.line
    let s := s.heatCount p d m
    if e.busy.isSome then s.dirSet p d b { e with waiting := e.waiting ++ [m] } else s.holdFrozen p d m f
  | none =>
    match s.stubFor p d m with
    | some x =>
      if m.hop ≥ 2 then back .retranslate
      else
        let now := s.now ⟨p, d, 0⟩
        let s := s.modDie p d fun y => { y with stubs := y.stubs.map fun z => if z = x then { z with relays := z.relays + 1, lastRelay := now } else z }
        s.send { m with kind := .relay, orig := some m.kind, line := relayLine x m, dst := .home x.newPkg x.newDie, hop := m.hop + 1, sentAt := now }
    | none =>
      if s.notHome p d m then back .nothome
      else
        let s := s.heatCount p d m
        let s := if m.hop = 0 ∨ m.phys then s else
          s.send { m with kind := .redirect, orig := some m.kind, src := .home p d, dst := m.src, newPkg := p, newDie := d,
                          newFrame := m.line % 2 ^ 43 / 65536, sentAt := s.now ⟨p, d, 0⟩ }
        s.arriveAt p d m

-- cores

/-- A miss that a message from a home answers: of the same line, or of the same place of a page that has moved. -/
def missFor (x : CoreSt) (m : Msg) : Option Miss :=
  match x.misses.find? (·.line = m.line) with
  | some y => some y
  | none => x.misses.find? fun y => y.req.key = m.key && y.req.page = m.page && y.line % 65536 = m.line % 65536 && m.page ≠ 0
/-- Lines that a core's L1 holds: what the split of the contexts it hosts leaves of the 1,536 KiB (R40). -/
def l1Lines (s : State) (c : CoreId) : Nat :=
  let x := ((s.core c).loaded.head?.elim ({} : CtxRegs) (·.2.regs)).storeSplit.toNat
  8 * (1536 - 64 * (x % 32) - 32 * (x / 256 % 32))
/-- Room in a core's L1 for a line: another leaves that no lease keeps there and that the eviction buffer can take (R253, R263); which, is a free choice (log
entry 54). -/
def l1Room (s : State) (c : CoreId) (line : Nat) : Option State :=
  let x := s.core c
  if Map.has x.l1 line || x.l1.length < s.l1Lines c then some s
  else
    match x.l1.filter fun (l, st) => !s.lineLeased l && (st = .s || x.evict.length < 16) with
    | [] => none
    | v :: vs =>
      let (k, s) := s.freeIdx
      let l := ((v :: vs).getD (Config.freeNat k % (vs.length + 1)) v).1
      some (s.evictLine c l ((Map.find x.homes l).getD (.home (physPkg l) (physDie l))))
/-- The access of a miss completes when the grant and its acknowledgements are held and the L1 has room: `DONE` goes to the home (R255), and leases of the line begin
(R263). Ownership wanted beyond an S grant is asked for. -/
def tryComplete (s : State) (c : CoreId) (line : Nat) : State :=
  match (s.core c).misses.find? (·.line = line) with
  | some y =>
    match y.granted with
    | some n =>
      if y.acks < n then s
      else match s.l1Room c line with
      | none => s
      | some s =>
        let s := s.modCore c fun x => { x with misses := x.misses.filter (·.line ≠ line), l1 := Map.set x.l1 line y.grantSt, homes := Map.set x.homes line y.req.dst }
        let s := (s.send { kind := .done, line, src := .core c, dst := y.req.dst, sentAt := s.now c }).accessDone c { y.req with line } false
        let s := if c.pkg = physPkg line then s
          else s.modPkg c.pkg fun k => { k with proxy := Map.set k.proxy line ((c.die * 4 + c.core / 32) :: (Map.getD k.proxy line []).filter (· ≠ c.die * 4 + c.core / 32)) }
        if y.own && y.grantSt = .s then
          let req := { y.req with kind := .getm, line, sentAt := s.now c, hop := 0 }
          (s.modCore c fun x => { x with misses := x.misses ++ [{ line, req, own := true, since := s.now c }] }).sendReq c req
        else s.grantLeases c line
    | none => s
  | none => s
/-- The misses of a core that have all they await and waited for room in the L1. -/
def completeMisses (s : State) (c : CoreId) : State := ((s.core c).misses.map (·.line)).foldl (fun (s : State) l => s.tryComplete c l) s
/-- Threads of a core that wait at `SIGW` on one of some lines look again (R364). -/
def wakeSigw (s : State) (c : CoreId) (ls : List Nat) : State :=
  s.threads.foldl (fun s (t, th) =>
    if t.wave.core ≠ c then s
    else match th.status with
      | .blocked (.sigw cc addr val dst sc dead next _) =>
        (match s.vaAddr c.pkg (s.rootOf t) none .load addr with
          | .ok (pa, _) => if ls.contains (lineOf pa) then s.modThread t fun th => { th with status := .blocked (.sigw cc addr val dst sc dead next 0) } else s
          | .error _ => s)
      | _ => s) s
/-- A probe at a core: held while a line it names is leased, refused when the hold queue is full, else answered (R258, R263, R265). -/
def probeAt (s : State) (c : CoreId) (m : Msg) (reply : State → State) : State :=
  let ls := entryLines m.line m.size
  if s.threads.any fun (t, th) => t.wave.core = c && th.lease.elim false fun l => l.lines.any fun x => ls.contains x.line then
    if (s.core c).holdQ.length < 16 then s.modCore c fun x => { x with holdQ := x.holdQ ++ [m] }
    else s.send { m with kind := .retry, orig := some m.kind, src := .core c, dst := m.src, sentAt := s.now c }
  else (reply s).wakeSigw c ls

/-- The reply of a core to a recall. -/
def recallAt (s : State) (c : CoreId) (m : Msg) : State :=
  let x := s.core c
  let ls := entryLines m.line m.size
  let held := ls.filter fun l => Map.has x.l1 l
  let keepsS : Bool := m.kind = .recallS && held ≠ []
  let present := ls.any fun l => (Map.find x.l1 l).elim (x.evict.contains l) (· ≠ .s)
  let x' := if m.kind = .recallS then { x with l1 := held.foldl (fun m l => Map.set m l .s) x.l1 } else held.foldl CoreSt.drop x
  (s.setCore c x').send { kind := .data, line := m.line, src := .core c, dst := m.src, present, keepsS, sentAt := s.now c }

/-- The acknowledgement of an `INV`. -/
def sendAck (s : State) (src : Agent) (m : Msg) (now : Nat) : State :=
  s.send { kind := .ack, line := m.line, src, dst := m.ackTo.getD m.src, sentAt := now }

end State

/-- What a message that has arrived does, once its slice has the entries it needs: else the least recently used entry is freed first, and the message waits
(R260). -/
def State.withRoom (s : State) (p d : Nat) (m : Msg) (next : State) : Outcome :=
  let es := s.sliceEntries p d m.line
  if s.room p d m then .next next
  else if es.any fun (_, e) => e.busy.elim false fun t => t.req.kind = .retire then .refused (.notEnabled "an entry of the slice is being freed")
  else match State.victim es with
    | some (b, v) => .next (s.evictEntry p d b v)
    | none => .refused (.notEnabled "every entry of the slice is busy")
/-- A request message at its home. -/
def State.atHome (s0 : State) (n : Nat) (kind : MsgKind) : Outcome :=
  match s0.arrived n kind with
  | some (m, s) =>
    match m.dst with
    | .home p d =>
      if (s.frozenAt p d m.line).isSome || (s.stubFor p d m).isSome || s.notHome p d m then .next (s.requestAt p d m)
      else s0.withRoom p d m (s.requestAt p d m)
    | _ => .refused (.notEnabled "the message is not at a home")
  | none => .refused (.notEnabled "no such message has arrived")
/-- A notice of a core at the home. -/
def State.noticeAt (s0 : State) (n : Nat) (kind : MsgKind) : Outcome :=
  match s0.arrived n kind with
  | some (m, s) => match m.dst with
    | .home p d => s0.withRoom p d m ((s.arriveAt p d m).drainEntry p d m.line)
    | _ => .refused (.notEnabled "the message is not at a home")
  | none => .refused (.notEnabled "no such message has arrived")

def execGets (m : Nat) (s : State) : Outcome := s.atHome m .gets
def execGetm (m : Nat) (s : State) : Outcome := s.atHome m .getm
def execGete (m : Nat) (s : State) : Outcome := s.atHome m .gete
def execStm (m : Nat) (s : State) : Outcome := s.atHome m .stm
def execAtm (m : Nat) (s : State) : Outcome := s.atHome m .atm
def execPuts (m : Nat) (s : State) : Outcome := s.noticeAt m .puts
def execPuto (m : Nat) (s : State) : Outcome := s.noticeAt m .puto
def execWbs (m : Nat) (s : State) : Outcome := s.noticeAt m .wbs

/-- `PACK` (R253): the eviction-buffer entry is free, and what waited for it goes on. -/
def execPack (n : Nat) (s : State) : Outcome :=
  match s.arrived n .pack with
  | some (m, s) => match m.dst with
    | .core c => .next ((s.modCore c fun x => { x with evict := x.evict.erase m.line }).cacheWork c |>.completeMisses c)
    | _ => .refused (.notEnabled "the message is not at a core")
  | none => .refused (.notEnabled "no such message has arrived")

/-- The cores of a cluster of a package; the host cores are one of the hub die. -/
def State.clusterCores (q k : Nat) : List CoreId := (List.range (if k < 32 then 32 else 16)).map fun j => ⟨q, k / 4, 32 * (k % 4) + j⟩
/-- `INV` at a core or a proxy (R257, R258). -/
def execInv (n : Nat) (s : State) : Outcome :=
  match s.arrived n .inv with
  | some (m, s) => match m.dst with
    | .core c => .next (s.probeAt c m fun s => (s.modCore c fun x => (entryLines m.line m.size).foldl CoreSt.drop x).sendAck (.core c) m (s.now c))
    | .proxy q =>
      let ls := entryLines m.line m.size
      let clusters := (ls.flatMap fun l => Map.getD (s.pkg q).proxy l []).eraseDups
      let dsts := (clusters.flatMap (State.clusterCores q)).filter fun c => m.ackTo ≠ some (.core c)
      if dsts = [] then .next (s.sendAck (.proxy q) m (s.hubNow q))
      else
        let s := s.modPkg q fun k => { k with proxy := ls.foldl Map.erase k.proxy, proxyWait := k.proxyWait ++ [(m.line, dsts.length, m.ackTo.getD m.src)] }
        .next (dsts.foldl (fun (s : State) c =>
          s.send { kind := .inv, line := m.line, size := m.size, src := .proxy q, dst := .core c, ackTo := some (.proxy q), sentAt := s.hubNow q }) s)
    | _ => .refused (.notEnabled "the message is not at a core")
  | none => .refused (.notEnabled "no such message has arrived")

/-- `RECALL_S` at an owner (Table 11.1, R258). -/
def execRecallS (n : Nat) (s : State) : Outcome :=
  match s.arrived n .recallS with
  | some (m, s) => match m.dst with
    | .core c => .next (s.probeAt c m fun s => s.recallAt c m)
    | _ => .refused (.notEnabled "the message is not at a core")
  | none => .refused (.notEnabled "no such message has arrived")
/-- `RECALL_I` at an owner. -/
def execRecallI (n : Nat) (s : State) : Outcome :=
  match s.arrived n .recallI with
  | some (m, s) => match m.dst with
    | .core c => .next (s.probeAt c m fun s => s.recallAt c m)
    | _ => .refused (.notEnabled "the message is not at a core")
  | none => .refused (.notEnabled "no such message has arrived")

/-- `RECALL_REPLY` (R254): the owner's reply reaches the home. -/
def execRecallReply (n : Nat) (s : State) : Outcome :=
  match s.arrived n .data with
  | some (m, s) => match m.dst, m.src with
    | .home p d, .core c => .next (s.replyCome p d m.line (if m.keepsS then some c else none) m.src)
    | _, _ => .refused (.notEnabled "the message is not at a home")
  | none => .refused (.notEnabled "no such message has arrived")

/-- `ACK` (R255, R257): at the requester, at a proxy, or at the home that awaits it. -/
def execAck (n : Nat) (s : State) : Outcome :=
  match s.arrived n .ack with
  | some (m, s) => match m.dst with
    | .core c =>
      .next ((s.modCore c fun x => { x with misses := x.misses.map fun y => if y.line = m.line then { y with acks := y.acks + 1 } else y }).tryComplete c m.line)
    | .home p d => .next (s.replyCome p d m.line none m.src)
    | .proxy q =>
      (match (s.pkg q).proxyWait.find? (·.1 = m.line) with
        | some (l, k, a) =>
          let s := s.modPkg q fun x => { x with proxyWait := (if k ≤ 1 then [] else [(l, k - 1, a)]) ++ x.proxyWait.erase (l, k, a) }
          .next (if k ≤ 1 then s.send { kind := .ack, line := l, src := .proxy q, dst := a, sentAt := s.hubNow q } else s)
        | none => .next s)
    | .engine _ => .next s
  | none => .refused (.notEnabled "no such message has arrived")

/-- `GRANT` (R255): at the requester, whose awaited acknowledgements are timed from the messages that asked for them (R262); or the line for an engine (R254). -/
def execGrant (n : Nat) (s : State) : Outcome :=
  match s.arrived n .grant with
  | some (m, s) => match m.dst with
    | .core c =>
      match State.missFor (s.core c) m with
      | some y =>
        let s := s.modCore c fun x =>
          { x with misses := x.misses.map fun z => if z = y then { z with line := m.line, granted := some m.ackCnt, grantSt := m.grantState, since := m.sentAt, req := { z.req with dst := m.src } } else z }
        let s := if y.line = m.line then s else s.threads.foldl (fun (s : State) (t, th) =>
          if t.wave.core = c && th.lease.elim false (fun l => l.want.elim false (·.1 = y.line)) then
            s.modThread t fun th => { th with lease := th.lease.map fun l => { l with want := l.want.map fun (_, va, k) => (m.line, va, k) } }
          else s) s
        .next (s.tryComplete c m.line)
      | none => .next (s.send { kind := .done, line := m.line, src := .core c, dst := m.src, sentAt := s.now c })
    | .engine _ => .next s
    | _ => .refused (.notEnabled "the message is not at a core")
  | none => .refused (.notEnabled "no such message has arrived")

/-- `DONE` (R254, R261): of a requester at the home, whose entry is busy no more; or of the home at the storer of an `STM` or an RMW. -/
def execDone (n : Nat) (s : State) : Outcome :=
  match s.arrived n .done with
  | some (m, s) => match m.dst with
    | .home p d =>
      let (b, e) := s.dirFind p d m.line
      (match e.busy with
        | some t => if t.awaitDone then .next ((s.dirSet p d b { e with busy := none }).drainEntry p d m.line) else .next s
        | none => .next s)
    | .core c =>
      let x := s.core c
      (match x.sent.find? (·.line = m.line) <|> x.sent.find? (fun y => y.key = m.key && y.page = m.page && y.line % 65536 = m.line % 65536) with
        | some y => .next ((s.setCore c { x with sent := x.sent.erase y }).accessDone c y true)
        | none => .next s)
    | _ => .next s
  | none => .refused (.notEnabled "no such message has arrived")

/-- `PROBE_RESEND` (R265): 64 cycles after a `RETRY` the sender resends the probe; the awaited reply's time starts again (R262). -/
def execProbeResend (n : Nat) (s : State) : Outcome :=
  match s.arrived n .retry with
  | some (m, s) =>
    let now := match m.dst with | .home p d => s.now ⟨p, d, 0⟩ | .proxy q => s.hubNow q | .core c => s.now c | .engine q => s.hubNow q
    if now < m.sentAt + 64 then .refused (.notEnabled "the probe is not due")
    else
      let s := match m.dst with
        | .home p d =>
          let (b, e) := s.dirFind p d m.line
          s.dirSet p d b { e with busy := e.busy.map fun (t : Trans) => { t with since := now } }
        | _ => s
      let s := match m.ackTo with
        | some (.core c) => s.modCore c fun x => { x with misses := x.misses.map fun (y : Miss) => if y.line = m.line then { y with since := s.now c } else y }
        | _ => s
      .next (s.send { m with kind := m.orig.getD .inv, orig := none, src := m.dst, dst := m.src, sentAt := now })
  | none => .refused (.notEnabled "no such message has arrived")

/-- `DIRECTORY_MERGE` (R259): two sibling entries with equal state and holders, idle for 2^20 cycles. The sibling of an entry of less than 4 KiB holds no line of
the slice. -/
def execDirectoryMerge (p d line : Nat) (s : State) : Outcome :=
  let (b, e) := s.dirFind p d line
  let half := regionBytes e.size
  let c := if b / half % 2 = 0 then b + half else b - half
  let now := s.now ⟨p, d, 0⟩
  let idle (x : DirEntry) : Bool := x.busy.isNone && x.waiting = [] && decide (x.lastReq + 2 ^ 20 ≤ now)
  let m := (s.die p d).dir
  let larger : DirEntry := { e with size := e.size + 1 }
  if !Map.has m b || e.size ≥ 9 || !idle e then .refused (.notEnabled "no idle entry that may merge")
  else if e.size < 5 then .next (s.dirSet p d b larger)
  else match Map.find m c with
    | some f =>
      if f.size = e.size && e.same f && e.ind = f.ind && idle f then
        .next (((s.dirErase p d b).dirErase p d c).dirSet p d (min b c) { larger with lastReq := max e.lastReq f.lastReq, lastUse := max e.lastUse f.lastUse })
      else .refused (.notEnabled "the entries do not merge")
    | none => .refused (.notEnabled "no such entries")

/-- A write of `HEAT_CTL` (Table 11.7). -/
def execHeatCtlWrite (p d : Nat) (x : Word) (s : State) : Outcome :=
  let n := x.toNat
  let t := if n % 65536 = 0 then 1 else n % 65536
  .next (s.modDie p d fun y => { y with heatCtl := BitVec.ofNat 32 (t + clampNat 16 30 (n / 2 ^ 16 % 32) * 2 ^ 16 + n / 2 ^ 31 * 2 ^ 31) })
/-- `HEAT_DECAY` (R274): every counter of a die is halved. -/
def execHeatDecay (p d : Nat) (s : State) : Outcome :=
  let x := s.die p d
  if x.now < x.heatDecayAt + 2 ^ (x.heatCtl.toNat / 2 ^ 16 % 32) then .refused (.notEnabled "no halving is due")
  else .next (s.setDie p d { x with heatDecayAt := x.now, heat := x.heat.map fun h => { h with count := h.count / 2 } })

end Sys2Proof.Machine
end

