-- ==== Sys2Proof/Machine/Migration.lean ====
section
/-! DEFINITION. Migration of pages and forwarding stubs (R268 to R273). -/

namespace Sys2Proof.Machine
namespace State

/-- The leaf entry of an address: its physical address and whether it maps a large page (R385, R386). -/
def leafFrom (s : State) (p : Nat) (va : Nat) : List (Nat × Nat) → Nat → Nat → Nat → Nat → Option (Nat × Bool)
  | [], _, _, _, _ => none
  | (lo, bits) :: rest, n, hpkg, hdie, frame =>
    (s.route p hpkg).bind fun q =>
      let a := physAt q hdie (frame * 65536 + 16 * (va / 2 ^ lo % 2 ^ bits))
      let e := leNat (memBytes s.mem a 16)
      if e % 2 = 0 then none
      else if e.testBit 4 then some (a, n = 2)
      else s.leafFrom p va rest (n + 1) (e / 2 ^ 32 % 2 ^ 12) (e / 2 ^ 44 % 8) (e / 2 ^ 64 % 2 ^ 27)
def leafAt (s : State) (p ctx : Nat) (va : Dword) : Option (Nat × Bool) :=
  let r := s.ctxRoot ctx
  s.leafFrom p va.toNat [(52, 5), (40, 12), (28, 12), (16, 12)] 0 r.1 r.2.1 r.2.2
/-- Writes a leaf entry anew from its old value. -/
def setLeaf (s : State) (a : Nat) (f : Nat → Nat) : State :=
  s.agentStore (s.hubEv (physPkg a) .store) (.mem a) (leBytes (f (leNat (memBytes s.mem a 16))) 16)
/-- The moving bit of an entry, set or cleared (R268). -/
def withMov (mov : Bool) (e : Nat) : Nat := e - (if e.testBit 6 then 64 else 0) + (if mov then 64 else 0)
/-- An entry that names another home and frame. -/
def withHome (hpkg hdie frame : Nat) (e : Nat) : Nat :=
  e % 2 ^ 32 + hpkg % 4096 * 2 ^ 32 + hdie % 8 * 2 ^ 44 + e / 2 ^ 47 % 2 ^ 17 * 2 ^ 47 + frame % 2 ^ 27 * 2 ^ 64 + e / 2 ^ 91 * 2 ^ 91

/-- The contents of a stretch of memory copied to another (R268). -/
def copyBytes (s : State) (src dst n : Nat) : State :=
  let cells := s.mem.filter fun c => src ≤ c.1 && c.1 < src + n
  let mem := s.mem.filter fun c => !(dst ≤ c.1 && c.1 < dst + n)
  let lines := (s.poison.filter fun l => src ≤ l && l < src + n).map fun l => l - src + dst
  { s with mem := cells.foldl (fun m c => memWrite m (c.1 - src + dst) c.2) mem, poison := lines ++ s.poison.filter fun l => !(dst ≤ l && l < dst + n) }
/-- The stretch stands at its new place, and so do the accesses of its history: the coherence order of each byte goes on (R273). -/
def moveStretch (s : State) (src dst n : Nat) : State :=
  let moved (e : Ev) : Ev := match e.base with
    | .mem a => if src ≤ a && decide (a < src + n) then { e with base := .mem (a - src + dst) } else if dst ≤ a && decide (a < dst + n) then { e with len := 0 } else e
    | _ => e
  { s.copyBytes src dst n with trace := s.trace.map moved }

/-- Directory entries that cover lines of a page at its home: no entry reaches beyond a page (R259). -/
def pageEntries (s : State) (p d start n : Nat) : List (Nat × DirEntry) := (s.die p d).dir.filter fun (b, _) => start ≤ b && b < start + n
/-- The old frame's first physical address. -/
def oldPlace (s : State) (g : Migration) : Nat :=
  match s.leafAt g.oldPkg g.ctx g.va with
  | some (a, large) => placeIn (pteOf (leNat (memBytes s.mem a 16)) large) (g.oldPkg, g.oldDie, g.oldFrame) 0
  | none => physAt g.oldPkg g.oldDie (g.oldFrame * 65536)
def mig (s : State) (n : Nat) : Option Migration := (Map.find s.migrations n).bind fun g => if g.ended then none else some g
def setMig (s : State) (n : Nat) (g : Migration) : State := { s with migrations := Map.set s.migrations n g }
/-- The new frame's first physical address. -/
def newPlace (s : State) (g : Migration) : Nat :=
  match s.leafAt g.oldPkg g.ctx g.va with
  | some (a, large) => placeIn (pteOf (leNat (memBytes s.mem a 16)) large) (g.newPkg, g.newDie, g.newFrame) 0
  | none => physAt g.newPkg g.newDie (g.newFrame * 65536)
/-- A home holds the requests for a page no more: those held arrive again in their order, and walks that waited go on (R268, R275). -/
def release (s : State) (p d start : Nat) (large : Bool) : State :=
  let is (f : Frozen) : Bool := f.start = start && f.large = large
  let fs := (s.die p d).frozen.filter is
  let s := s.modDie p d fun x => { x with frozen := x.frozen.filter fun f => !is f }
  ((fs.flatMap (·.held)).foldl (fun (s : State) m => s.send m) s).wakeLeaseWaiters fun l => fs.any (·.covers l)
/-- The end of a freeze. -/
def unfreeze (s : State) (g : Migration) : State := s.release g.oldPkg g.oldDie (s.oldPlace g) g.large
/-- A migration is abandoned: the old home serves again and the moving bit is cleared (R268). -/
def abandon (s : State) (n : Nat) (g : Migration) : State :=
  let s := match s.leafAt g.oldPkg g.ctx g.va with
    | some (a, _) => s.setLeaf a (withMov false)
    | none => s
  (s.unfreeze g).setMig n { g with ended := true }

/-- A requester's package forgets what it knows of a page (R270). -/
def forgetPage (s : State) (p key page : Nat) (c : Option CoreId) : State :=
  let s := s.modPkg p fun k => { k with owners := k.owners.filter fun o => !(o.key = key && o.page = page) }
  match c with
  | some c =>
    let s := s.modCore c fun x => { x with tlb := x.tlb.filter fun e => !tlbHit key page e }
    s.threads.foldl (fun s (t, th) => if t.wave.core = c && th.lastPage.elim false (tlbHit key page) then s.modThread t fun th => { th with lastPage := none } else s) s
  | none => s
/-- A request that ends without an answer: its miss or its place among the unanswered is gone. -/
def dropRequest (s : State) (c : CoreId) (m : Msg) : State :=
  let is (y : Msg) : Bool := y.page = m.page && y.key = m.key && y.line % 65536 = m.line % 65536
  let x := s.core c
  if m.orig = some .gets ∨ m.orig = some .getm then (s.setCore c { x with misses := x.misses.filter fun y => !is y.req }).accessDone c m false
  else match x.sent.find? is with
    | some y => (s.setCore c { x with sent := x.sent.erase y }).accessDone c y true
    | none => s
/-- The operation whose access ends in a fault after it was sent stops on it (R199, R227, R270, R301). -/
def engineFault (s : State) (m : Msg) (f : AFault) : State :=
  match m.op with
  | none => s
  | some n =>
    match s.op n with
    | none => s
    | some o =>
      match o.kind with
      | .mma => (match s.mmaActive n with | some (o, a, b) => s.mmaStop n o a b f false | none => s)
      | .accld | .accst => s.endMove n o (some f)
      | _ => s.endFault n o f (if m.orig = some .gete then 0 else 1) (copyResult o)
/-- The requester walks again and resends its request; the fourth refusal in a row traps `XLAT` (R270). -/
def resend (s : State) (m : Msg) : State :=
  let kind := m.orig.getD .gets
  match m.dst with
  | .core c =>
    let s := s.forgetPage c.pkg m.key m.page (some c)
    let fault (e : Cause) (n : Nat) : State :=
      let s := s.dropRequest c m
      match m.by_ with
      | some t => if (s.thread t).exited then s
        else s.defer t { cause := e, arg := n, fpc := m.at_, npc := (s.thread t).pc, rentry := (s.thread t).rentry, rctr := (s.thread t).rctr, precise := false, faddr := m.va }
      | none => s
    if m.bounces ≥ 3 then fault .xlat 0
    else
      (match s.walk c.pkg m.root m.va with
        | .error (e, n) => fault e n
        | .ok pte =>
          match s.physOf c.pkg pte m.va with
          | none => fault .xlat 0
          | some pa =>
            let (dst, line) := s.firstHome c.pkg pte m.va pa
            let req : Msg := { m with kind, orig := none, src := .core c, dst, line, hop := 0, bounces := m.bounces + 1, sentAt := s.now c }
            (s.modCore c fun x => { x with misses := x.misses.map fun y =>
              if y.req.page = m.page ∧ y.req.key = m.key ∧ y.line % 65536 = m.line % 65536 then { y with req } else y }).send req)
  | .engine p =>
    if m.phys then s
    else
      let s := s.forgetPage p m.key m.page none
      (match s.walk p m.root m.va with
        | .error (e, n) => s.engineFault m (e, n, m.va)
        | .ok pte =>
          match s.physOf p pte m.va with
          | some pa =>
            let (dst, line) := s.firstHome p pte m.va pa
            if m.bounces ≥ 3 then s.engineFault m (.xlat, 0, m.va)
            else s.send { m with kind, orig := none, src := .engine p, dst, line, hop := 0, bounces := m.bounces + 1, sentAt := s.hubNow p }
          | none => s.engineFault m (.xlat, 0, m.va))
  | _ => s

/-- The first `REDIRECT` for a page at a core: accesses it sent elsewhere than to the new home are to complete before new ones go out (R271). -/
def redirectAt (s : State) (c : CoreId) (m : Msg) : State :=
  let x := s.core c
  let old (y : Msg) : Bool := y.key = m.key && y.page = m.page && y.dst ≠ .home m.newPkg m.newDie
  let opens := ((x.misses.filter fun y => old y.req).map fun y => (false, y.line % 65536)) ++ ((x.sent.filter old).map fun y => (true, y.line % 65536))
  if opens = [] ∨ (x.redirs.any fun r => r.key = m.key && r.page = m.page) then s
  else s.setCore c { x with redirs := x.redirs ++ [{ key := m.key, page := m.page, open_ := opens }] }

end State

/-- `MIGRATION_FREEZE` (R268): firmware moves the page of an address in a context to a frame of a die. -/
def execMigrationFreeze (ctx : Nat) (va : Dword) (pkg die frame : Nat) (s : State) : Outcome :=
  let p := s.ctxPkg ctx
  match s.leafAt p ctx va with
  | none => .refused (.notEnabled "the page is not mapped")
  | some (a, large) =>
    let pte := State.pteOf (leNat (memBytes s.mem a 16)) large
    match s.route p pte.hpkg with
    | none => .refused (.notEnabled "the home cannot be reached")
    | some q =>
      let d := pte.hdie
      if pte.mov || (s.pkg q).phase ≠ .none || die ≥ 8 || (s.die pkg die).retiredFrames.contains frame || (s.die q d).stubs.length ≥ 1024 then .refused (.notEnabled "the page moves already, no stub is free, or the frame is retired")
      else
        let va : Dword := BitVec.ofNat 64 (va.toNat / pageBytes large * pageBytes large)
        let (n, s) := s.freshId
        let g : Migration := { ctx, va, large, oldPkg := q, oldDie := d, oldFrame := pte.frame, newPkg := pkg, newDie := die, newFrame := frame, started := s.now ⟨q, d, 0⟩ }
        let s := (s.setLeaf a (State.withMov true)).setMig n g
        let start := s.oldPlace g
        let s := s.modDie q d fun x => { x with frozen := x.frozen ++ [{ start, large }] }
        .next (s.recallHolders q d fun b => start ≤ b && b < start + pageBytes large)

/-- `MIGRATION_COPY_DONE` (R268): every copy has been recalled and the page is copied. What accesses that are held at the home still write follows at the
flip (log entry 4). -/
def execMigrationCopyDone (n : Nat) (s : State) : Outcome :=
  match s.mig n with
  | some g =>
    if g.copied then .refused (.notEnabled "the page has been copied")
    else if (s.pageEntries g.oldPkg g.oldDie (s.oldPlace g) (pageBytes g.large)).any fun (_, e) => e.busy.isSome || e.st ≠ .i then
      .refused (.notEnabled "a copy of a line is still held")
    else .next ((s.copyBytes (s.oldPlace g) (s.newPlace g) (pageBytes g.large)).setMig n { g with copied := true })
  | none => .refused (.notEnabled "no such migration")

/-- `MIGRATION_FLIP` (R268): the new entry, the stub, `OPEN`. The new home holds the requests for the page until `OPEN` reaches it. -/
def execMigrationFlip (n : Nat) (s : State) : Outcome :=
  match s.mig n with
  | some g =>
    let now := s.now ⟨g.oldPkg, g.oldDie, 0⟩
    if !g.copied || g.flipped || now ≥ g.started + 320000 then .refused (.notEnabled "the page is not copied, or the migration is late")
    else match s.leafAt g.oldPkg g.ctx g.va with
      | none => .refused (.notEnabled "the page is not mapped")
      | some (a, large) =>
        let pte := State.pteOf (leNat (memBytes s.mem a 16)) large
        let old := s.oldPlace g
        let start := s.newPlace g
        let s := s.moveStretch old start (pageBytes g.large)
        let s := s.setLeaf a fun e => State.withMov false (State.withHome (s.pkg g.newPkg).num g.newDie g.newFrame e)
        let page := pageOf g.va
        let s := s.modDie g.oldPkg g.oldDie fun x => { x with stubs := x.stubs ++
          [{ key := pte.key, page, newPkg := g.newPkg, newDie := g.newDie, newFrame := g.newFrame, start := old, large, lastRelay := now }] }
        let s := s.modDie g.newPkg g.newDie fun x => { x with frozen := x.frozen ++ [{ start, large }] }
        .next ((s.setMig n { g with flipped := true }).send
          { kind := .openReq, src := .home g.oldPkg g.oldDie, dst := .home g.newPkg g.newDie, key := pte.key, page, line := start, large, sentAt := now })
  | none => .refused (.notEnabled "no such migration")

/-- `OPEN` at the new home (R268), which serves the page from here on. -/
def execOpenHome (n : Nat) (s : State) : Outcome :=
  match s.arrived n .openReq with
  | some (m, s) => match m.dst with
    | .home p d =>
      let s := s.modDie p d fun x => { x with stubs := x.stubs.filter fun u => !State.stubCovers u m.key m.page }
      .next ((s.release p d m.line m.large).send { kind := .opened, src := m.dst, dst := m.src, key := m.key, page := m.page, sentAt := s.now ⟨p, d, 0⟩ })
    | _ => .refused (.notEnabled "the message is not at a home")
  | none => .refused (.notEnabled "no such message has arrived")

/-- `OPENED` at the old home (R268): held requests become late requests. -/
def execOpened (n : Nat) (s : State) : Outcome :=
  match s.arrived n .opened with
  | some (m, s) =>
    match s.migrations.find? fun (_, g) => g.flipped && !g.ended && pageOf g.va = m.page && m.dst = .home g.oldPkg g.oldDie with
    | some (k, g) => .next ((s.unfreeze g).setMig k { g with ended := true })
    | none => .next s
  | none => .refused (.notEnabled "no such message has arrived")

/-- `MIGRATION_ABANDON` (R268). -/
def execMigrationAbandon (n : Nat) (s : State) : Outcome :=
  match s.mig n with
  | some g =>
    if g.flipped || s.now ⟨g.oldPkg, g.oldDie, 0⟩ < g.started + 320000 then .refused (.notEnabled "the migration is in time")
    else .next (s.abandon n g)
  | none => .refused (.notEnabled "no such migration")

/-- `RELAY` at the home a stub names (Table 11.6). -/
def execRelay (n : Nat) (s : State) : Outcome :=
  match s.arrived n .relay with
  | some (m, s) => match m.dst with
    | .home p d => .next (s.requestAt p d { m with kind := m.orig.getD .gets, orig := none })
    | _ => .refused (.notEnabled "the message is not at a home")
  | none => .refused (.notEnabled "no such message has arrived")

/-- `REDIRECT` (R270): the requester's package writes an owner-cache entry. -/
def execRedirect (n : Nat) (s : State) : Outcome :=
  match s.arrived n .redirect with
  | some (m, s) =>
    let s := match m.dst with | .core c => s.redirectAt c m | _ => s
    let p := match m.dst with | .core c => c.pkg | .engine p => p | .home p _ => p | .proxy p => p
    let large := match s.walk p m.root (BitVec.ofNat 64 (m.page * 65536)) with | .ok pte => pte.large | .error _ => false
    let o : Owner := { key := m.key, page := m.page, hpkg := s.num m.newPkg, hdie := m.newDie, frame := m.newFrame, large }
    .next (s.modPkg p fun k => { k with owners := (o :: k.owners.filter fun x => !(x.key = m.key && x.page = m.page)).take 4096 })
  | none => .refused (.notEnabled "no such message has arrived")

/-- `RETRANSLATE` (R270). -/
def execRetranslate (n : Nat) (s : State) : Outcome :=
  match s.arrived n .retranslate with
  | some (m, s) => .next (s.resend m)
  | none => .refused (.notEnabled "no such message has arrived")
/-- `NOTHOME` (R270). -/
def execNothome (n : Nat) (s : State) : Outcome :=
  match s.arrived n .nothome with
  | some (m, s) => .next (s.resend m)
  | none => .refused (.notEnabled "no such message has arrived")

/-- `STUB_RETIRE` (R272). -/
def execStubRetire (p d page : Nat) (s : State) : Outcome :=
  let now := s.now ⟨p, d, 0⟩
  match (s.die p d).stubs.find? fun x => x.page = page && x.invalidated && !x.retiring && decide (x.lastRelay + 65536 ≤ now) with
  | some x =>
    let s := s.modDie p d fun y => { y with stubs := y.stubs.map fun z => if z = x then { z with retiring := true } else z }
    .next (s.send { kind := .retire, src := .home p d, dst := .home x.newPkg x.newDie, key := x.key, page, large := x.large, sentAt := now })
  | none => .refused (.notEnabled "no stub of the page may retire")
/-- Requests that stubs sent on to a home and that wait there (R272). -/
def State.relaysWaiting (s : State) (p d : Nat) (m : Msg) : Bool :=
  let x := s.die p d
  ((x.dir.flatMap fun (_, e) => e.waiting ++ (e.busy.map (·.req)).toList) ++ x.frozen.flatMap (·.held)).any fun y =>
    y.hop ≠ 0 && y.key = m.key && (y.page = m.page || m.large && y.page / 4096 = m.page / 4096)
/-- `RETIRE` at the new home (R272): earlier relays have been served. -/
def execRetire (n : Nat) (s : State) : Outcome :=
  match s.arrived n .retire with
  | some (m, s') =>
    match m.dst with
    | .home p d =>
      if (s.net.any fun (k, x) => k < n && x.kind = .relay && x.dst = m.dst) || s.relaysWaiting p d m then .refused (.notEnabled "an earlier relay is not served")
      else .next (s'.send { kind := .confirm, src := m.dst, dst := m.src, key := m.key, page := m.page, sentAt := s.now ⟨p, d, 0⟩ })
    | _ => .refused (.notEnabled "the message is not at a home")
  | none => .refused (.notEnabled "no such message has arrived")
/-- `CONFIRM` at the old home (R272): the stub is freed. -/
def execConfirm (n : Nat) (s : State) : Outcome :=
  match s.arrived n .confirm with
  | some (m, s) => match m.dst with
    | .home p d => .next (s.modDie p d fun x => { x with stubs := x.stubs.filter fun u => !(u.retiring && u.key = m.key && u.page = m.page) })
    | _ => .refused (.notEnabled "the message is not at a home")
  | none => .refused (.notEnabled "no such message has arrived")

end Sys2Proof.Machine
end

