-- ==== Sys2Proof/Machine/Quiesce.lean ====
section
/-! DEFINITION. The loss of a package and the partition quiesce (R262, R398, R415, R427 to R431, R434). -/

namespace Sys2Proof.Machine

/-- The order of the phases of Table 18.2. -/
def QPhase.rank : QPhase → Nat
  | .none => 0 | .stop => 1 | .cut => 2 | .settle => 3 | .save => 4 | .record => 5 | .sweep => 6 | .rebuild => 7 | .handler => 8

namespace State

/-- The packages of a package's partition that are not lost. -/
def survivors (s : State) (p : Nat) : List Nat := (s.partition p).filter fun q => (s.pkg q).alive
/-- Reports a package lost to the fabric manager. -/
def reportLost (s : State) (p : Nat) : State := { s with reports := if s.reports.contains p then s.reports else s.reports ++ [p] }
/-- The fabric manager sends `QUIESCE` with a new epoch to the surviving packages of a partition (R427). -/
def sendQuiesce (s : State) (p : Nat) : State :=
  let ps := s.survivors p
  let e := ps.foldl (fun e q => max e (max (s.pkg q).epoch ((s.pkg q).quiesce.getD 0))) 0 + 1
  ps.foldl (fun (s : State) q => s.modPkg q fun k => { k with quiesce := some e }) s
/-- Whether a quiesce of a partition is under way. -/
def quiescing (s : State) (p : Nat) : Bool := (s.survivors p).any fun q => (s.pkg q).phase ≠ .none || (s.pkg q).quiesce.isSome
/-- A package is lost: it takes no more part, and the partition quiesces (R427). -/
def losePackage (s : State) (p : Nat) : State :=
  let others := (s.partition p).filter (· ≠ p)
  let q := others.headD p
  let s := { s with lost := if s.quiescing q then s.lost ++ [p] else [p] }
  (s.modPkg p fun k => { k with alive := false }).sendQuiesce q

/-- Every survivor has ended a phase, and a package may begin the next one (Table 18.2). -/
def phaseOpen (s : State) (p : Nat) (prev : QPhase) : Bool :=
  (s.pkg p).alive && (s.pkg p).phase = prev
    && (s.survivors p).all fun q => (s.pkg q).quiesce.isNone && QPhase.rank prev ≤ ((s.pkg q).phase).rank
def setPhase (s : State) (p : Nat) (f : QPhase) : State := s.modPkg p fun k => { k with phase := f }

-- the Cut (R427, R429)

/-- Requests that have not been applied at their homes: on their way, or waiting for an entry or a freeze. -/
def openRequests (s : State) : List Msg :=
  (s.net.map (·.2)).filter (fun m => isRequest m.kind || m.kind = .relay)
    ++ s.dies.flatMap fun (_, x) => (x.dir.flatMap fun (_, e) => e.waiting ++ (e.busy.map (·.req)).toList) ++ x.frozen.flatMap (·.held)
def isWrite (k : MsgKind) : Bool := match k with | .stm | .atm => true | _ => false
/-- The store entry of an unacknowledged write (Table 18.4), with its state. -/
def storeEntry (s : State) (m : Msg) (state : Nat) : List Byte :=
  let kind := match m.src with | .engine _ => 4 | _ => if m.kind = .getm then 1 else if m.kind = .stm ∨ m.orig = some .stm then 2 else 3
  leBytes m.va.toNat 8 ++ leBytes (s.pkg (physPkg m.line)).num 2 ++ leBytes kind 1 ++ leBytes state 1 ++ leBytes m.len 1
    ++ leBytes (m.by_.elim 0 (·.lane)) 1 ++ leBytes (m.by_.elim 0 fun t => (s.wave t.wave).num) 1 ++ leBytes 0 1 ++ leBytes m.at_.toNat 8 ++ leBytes 0 8
/-- Requests on their way between a package and another. -/
def crossing (s : State) (p : Nat) : List (Nat × Msg) := s.net.filter fun (_, m) => (isRequest m.kind || m.kind = .relay) && (m.src.pkg == p) != (m.dst.pkg == p)
/-- The stores for which a core asks for the line of a request. -/
def storesFor (s : State) (m : Msg) : List Msg :=
  match m.src with
  | .core c => (missFor (s.core c) m).elim [] fun y => (y.uses.filter (·.len > 0)).map fun u => { u with line := m.line }
  | _ => []
/-- The writes that a request carries: its own, or the stores that wait for it. -/
def writesOf (s : State) (m : Msg) : List Msg :=
  if isWrite m.kind || m.orig.elim false isWrite then [m] else if m.kind = .getm || m.orig = some .getm then s.storesFor m else []
/-- The writes of a package's agents that have arrived at other packages and are not acknowledged: waiting or being served there, or their answer is on its way. -/
def arrivedWrites (s : State) (p : Nat) : List Msg :=
  let far (m : Msg) : Bool := m.src.pkg = p && physPkg m.line ≠ p
  let way (m : Msg) : Bool := s.net.any fun (_, x) => (isRequest x.kind || x.kind = .relay) && x.src = m.src && x.line = m.line
  (s.openRequests.filter fun m => (isWrite m.kind || m.orig.elim false isWrite) && far m && !way m)
    ++ (s.net.map (·.2)).filter (fun m => m.kind = .done && m.orig.elim false isWrite && m.dst.pkg = p && m.src.pkg ≠ p)
    ++ s.cores.flatMap fun (_, x) => x.misses.flatMap fun y =>
      if y.own && far y.req && !way y.req && !x.redirs.any (fun r => r.held.any fun h => h.line = y.req.line) then s.storesFor y.req else []
/-- A store whose request is never applied takes no effect (R428): each byte holds the newest other store's, or what it held before. -/
def takeBack (s : State) (n : Nat) : State :=
  match s.trace.find? (·.id = n) with
  | none => s
  | some e =>
    let tr := s.trace.filter (·.id ≠ n)
    ({ s with trace := tr }).writeLoc e.base ((Order.bytesOf e).map fun b =>
      (Order.newest tr b).elim (((Order.idx e b).bind fun k => e.old[k]?).getD 0) fun w => Order.byteOf w b)
/-- Whether a load has returned what a write wrote: it took effect. -/
def observed (s : State) (m : Msg) : Bool := s.trace.any fun e => m.evs.any fun n => e.rf.contains (some n)
/-- Larger numbers first. -/
def descending (ns : List Nat) : List Nat := ns.foldl (fun out n => out.takeWhile (· > n) ++ n :: out.dropWhile (· > n)) []
/-- Writes that had not arrived at their target by the Cut: NOT APPLIED, and taken back; one that a load has returned, and an engine's, counts as applied (R428;
log entry 65). -/
def cutWrites (s : State) (ms : List Msg) : State :=
  let kept (m : Msg) : Bool := m.evs = [] || s.observed m
  let state (m : Msg) : Nat := if !(s.pkg (physPkg m.line)).alive then 2 else if kept m then 1 else 0
  let s' := { s with unacked := s.unacked ++ ms.map fun m => (m.key, s.storeEntry m (state m)) }
  (descending ((ms.filter fun m => !kept m).flatMap (·.evs))).foldl takeBack s'

-- Settle

/-- Whether an agent is on a lost package. -/
def gone (s : State) (a : Agent) : Bool := !(s.pkg a.pkg).alive
/-- An entry that still waits, or that records an agent of a lost package: nothing will come of it any more, and its record is indeterminate (Table 11.2). -/
def unsettled (s : State) (p : Nat) (e : DirEntry) : Bool := e.busy.isSome || (s.members p e).any s.gone
def settleEntry (s : State) (p : Nat) (e : DirEntry) : DirEntry :=
  if s.unsettled p e then { e with busy := none, waiting := [], ind := true } else { e with waiting := [] }
/-- The accesses a core still waits for are abandoned; each thread keeps the oldest word of one (R427). -/
def abandonMisses (s : State) (c : CoreId) : State :=
  let x := s.core c
  let open_ := (x.misses.flatMap (·.uses) ++ x.sent).map fun y => (y.sentAt, y)
  let oldest (t : ThreadId) : Option (Nat × Msg) := (open_.filter (·.2.by_ = some t)).foldl (fun b y =>
    match b with | some z => if y.1 < z.1 then some y else b | none => some y) none
  let s := (open_.filterMap (·.2.by_)).foldl (fun (s : State) t => s.modThread t fun th => { th with abandoned := (oldest t).map (·.2.at_) }) s
  let s := s.threads.foldl (fun (s : State) (t, th) =>
    if t.wave.core = c && th.lease.elim false (fun l => l.want.isSome) then s.modThread t fun th => { th with lease := th.lease.map fun l => { l with want := none } } else s) s
  s.modCore c fun x => { x with misses := [], sent := [], redirs := [], held := [] }

-- Record (R429)

/-- A host of hardware accesses for a context that survives, and the epoch of its partition. -/
def ctxEpoch (s : State) (k : Nat) : Nat := (s.pkg (s.ctxPkg k)).epoch
/-- The contexts of a package's partition. -/
def partitionContexts (s : State) (p : Nat) : List Nat := (s.contexts.filter fun (k, _) => (s.partition p).contains (s.ctxPkg k)).map (·.1)
/-- Lines of a context that the sweep will invalidate. -/
def indLines (s : State) (k : Nat) : Nat :=
  sumOf (s.dies.flatMap fun ((p, _), x) => if (s.pkg p).alive then x.dir.map fun (_, e) => if e.ind && e.key = k then (entryLines 0 e.size).length else 0 else [])
/-- The trap queue header is homed on a lost package. -/
def queueLost (s : State) (k : Nat) : Bool :=
  match s.vaAddr (s.ctxPkg k) (s.ctxRoot k) none .load (tqBase (s.context k).regs) with
  | .ok (pa, _) => !(s.pkg (physPkg pa)).alive
  | .error _ => false
/-- The checkpoint record (Tables 18.3 and 18.4). -/
def checkpointBytes (s : State) (k : Nat) : List Byte :=
  let es := (s.unacked.filter (·.1 = k)).map (·.2)
  let storeOff := (0x40 + 2 * s.lost.length + 31) / 32 * 32
  leBytes 0x314B4843 4 ++ leBytes 1 2 ++ leBytes k 2 ++ leBytes (s.ctxEpoch k) 4 ++ leBytes s.lost.length 2 ++ leBytes (if s.queueLost k then 1 else 0) 2
    ++ leBytes es.length 4 ++ leBytes (s.indLines k) 4 ++ leBytes 0x40 8 ++ leBytes storeOff 8 ++ leBytes 0 24
    ++ (s.lost.flatMap fun q => leBytes (s.pkg q).num 2) ++ List.replicate (storeOff - 0x40 - 2 * s.lost.length) 0 ++ es.flatten

-- errors (R397, R398)

/-- Charges an error to a key: an error record for its context, or for key 0 a machine check. -/
def charge (s : State) (key : Nat) (r : TrapRecord) : State :=
  if key = 0 then { s with mcheck := true } else if Map.has s.contexts key then s.postRecord key r else s
/-- The error record of a line (Table 17.2). -/
def lineRecord (s : State) (line : Nat) : TrapRecord :=
  { kind := 3, cause := Cause.poison.code, pkg := (s.pkg (physPkg line)).num, die := physDie line, faddr := BitVec.ofNat 64 line }
/-- A line is poisoned and charged (R397). -/
def poisonLine (s : State) (line key : Nat) : State :=
  ({ s with poison := if s.poison.contains line then s.poison else line :: s.poison }).charge key (s.lineRecord line)

-- Sweep (R430)

/-- The sweep of one entry: no core and no proxy keeps a line of it, and a line that a lost owner had is poisoned. -/
def sweepEntry (s : State) (p d base : Nat) (e : DirEntry) : State :=
  let in_ : Nat → Bool := (entryLines base e.size).contains
  let s := s.cores.foldl (fun (s : State) (c, _) =>
    if (s.pkg c.pkg).alive then s.modCore c fun x => { x with l1 := x.l1.filter fun (l, _) => !in_ l, evict := x.evict.filter fun l => !in_ l } else s) s
  let s := s.pkgs.foldl (fun (s : State) (q, _) => s.modPkg q fun k => { k with proxy := k.proxy.filter fun (l, _) => !in_ l, proxyWait := k.proxyWait.filter fun (l, _) => !in_ l }) s
  let s := if e.owner.elim false fun c => !(s.pkg c.pkg).alive then
      (entryLines base e.size).foldl (fun (s : State) l => s.poisonLine l e.key) s
    else s
  s.dirSet p d base { e.clear with busy := none, ind := false }

-- Rebuild (R346, R427, R434)

/-- The election of Hank and Reel: the healthy package of the lowest number in each tray and in the partition (R346). -/
def elect (s : State) (p : Nat) : State :=
  let qs := s.survivors p
  let lowest (xs : List Nat) : Nat := xs.foldl (fun b q => if (s.pkg q).num < (s.pkg b).num then q else b) (xs.headD p)
  (p :: qs).foldl (fun (s : State) r =>
    s.modPkg r fun k => { k with hankPkg := lowest (qs.filter fun q => (s.pkg q).tray = k.tray), reelPkg := lowest qs }) s
/-- A standby whose primary is lost takes over (R434). -/
def takeOver (s : State) (p : Nat) : State :=
  match (s.pkg p).mirror with
  | some m =>
    if m.role = 2 && s.lost.contains m.peer then
      let s := s.modPkg p fun k => { k with mirror := some { m with role := 1 } }
      let c : CoreId := ⟨p, 8, 0⟩
      let s := s.modHost c fun h => { h with hpend := h.hpend ||| 16 }
      let t := hostThread c
      let s := match (s.thread t).status with | .runnable => s.endRun c | _ => s.wakeThread t
      s.hostEnter c 2 (s.thread t).pc (State.ecause 0x80 0 0) 0
    else s
  | none => s
/-- The quiesce is over when every survivor has rebuilt and every context's handler is launched. -/
def endQuiesce (s : State) (p : Nat) : State :=
  let qs := s.survivors p
  if qs.all (fun q => (s.pkg q).phase = .rebuild && (s.pkg q).quiesce.isNone) && (s.partitionContexts p).all (fun k => (s.context k).handled) then
    qs.foldl (fun (s : State) q => s.setPhase q .none) s
  else s

end State

/-- The package from which an agent awaits a reply to an `INV`: where the probe, or its refusal, is under way, where a core holds it, or where a proxy
waits for its cores (R257, R265). -/
def State.silent (s : State) (line : Nat) (a : Agent) : Option Nat :=
  ((s.net.find? fun (_, m) => m.line = line && (m.kind = .inv || m.kind = .retry) && m.ackTo = some a).map fun (_, m) => if m.kind = .retry then m.src.pkg else m.dst.pkg)
    <|> (s.cores.findSome? fun (c, x) => if x.holdQ.any (fun m => m.line = line && m.ackTo = some a) then some c.pkg else none)
    <|> s.pkgs.findSome? fun (q, k) => if k.proxyWait.any (fun (l, _, b) => l = line && b = a) then some q else none
/-- `REPLY_TIMEOUT` (R262): a reply awaited for 4,608 cycles at a line's home, or by the requester it granted, has not come. -/
def execReplyTimeout (p d line : Nat) (s : State) : Outcome :=
  let (_, e) := s.dirFind p d line
  let late (at_ now : Nat) : Bool := at_ + 4608 ≤ now
  let home : Option Nat := e.busy.bind fun t => if t.replies > 0 && late t.since (s.now ⟨p, d, 0⟩) then t.from_.head?.map Agent.pkg else none
  let requester : Option Nat := s.cores.findSome? fun (c, x) =>
    x.misses.findSome? fun y =>
      if y.line = line && y.granted.elim false (fun n => y.acks < n) && late y.since (s.now c) then
        s.silent line (.core c)
      else none
  match home <|> requester with
  | some q => if (s.pkg q).alive && !s.reports.contains q then .next (s.reportLost q) else .refused (.notEnabled "the silent agent is reported or lost")
  | none => .refused (.notEnabled "no awaited reply is late")

/-- `STOP_ACK_TIMEOUT` (R415). -/
def execStopAckTimeout (p ctx : Nat) (s : State) : Outcome :=
  match Map.find (s.context ctx).stop p with
  | some r => if !r.received && r.at_ + 2 ^ 25 ≤ s.hubNow p && (s.pkg p).alive && !s.reports.contains p then .next (s.reportLost p) else .refused (.notEnabled "the package is in time, or reported")
  | none => .refused (.notEnabled "the context is not stopped")

/-- `PACKAGE_LOST` (R427): the fabric manager acts on a report. -/
def execPackageLost (p : Nat) (s : State) : Outcome :=
  if !s.reports.contains p then .refused (.notEnabled "the package is not reported lost")
  else
    let s := { s with reports := s.reports.filter (· ≠ p) }
    .next (if (s.pkg p).alive then s.losePackage p else s)

/-- `MACHINE_CHECK` (R398): the partition of every package quiesces; none is lost. -/
def execMachineCheck (s : State) : Outcome :=
  if !s.mcheck then .refused (.notEnabled "no machine check was raised")
  else
    let p := (s.pkgs.find? fun (_, k) => k.alive).elim 0 (·.1)
    let s := { s with mcheck := false, lost := if s.quiescing p then s.lost else [] }
    .next (s.sendQuiesce p)

/-- `QUIESCE_STOP` (Table 18.2): issue stops for every team, and `HPEND.QSCE` is set. -/
def execQuiesceStop (p : Nat) (s : State) : Outcome :=
  match (s.pkg p).quiesce with
  | some e =>
    if !(s.pkg p).alive then .refused (.notEnabled "the package is lost")
    else .next ((s.modPkg p fun k => { k with quiesce := none, epoch := e, phase := .stop }).setHpend p 4)
  | none => .refused (.notEnabled "no QUIESCE has arrived")

/-- `QUIESCE_CUT` (R428): nothing of an earlier epoch is applied here any more, and the windows are frozen. -/
def execQuiesceCut (p : Nat) (s : State) : Outcome :=
  if !s.phaseOpen p .stop then .refused (.notEnabled "the Stop phase has not ended")
  else
    let way := s.crossing p
    let arrived := (s.arrivedWrites p).map fun m => (m.key, s.storeEntry m (if (s.pkg (physPkg m.line)).alive then 1 else 2))
    let cut (m : Msg) : Bool := (m.dst.pkg = p || s.writesOf m ≠ []) && way.any (·.2 = m)
    let dead (m : Msg) : Bool := (m.dst.pkg = p && s.gone m.src) || (m.src.pkg = p && s.gone m.dst)
    let s' := ({ s with unacked := s.unacked ++ arrived } : State).cutWrites (way.flatMap fun x => s.writesOf x.2)
    let asked (y : Miss) : Bool := way.any fun x => x.2.src = y.req.src && x.2.line = y.req.line
    let listed (y : Miss) : Miss := if asked y then { y with uses := y.uses.map fun (u : Msg) => { u with len := 0 } } else y
    let s' := { s' with cores := Map.mapVals s'.cores fun _ (x : CoreSt) => { x with misses := x.misses.map listed } }
    let s := { s' with net := s'.net.filter fun (_, m) => !(cut m || dead m), packets := s.packets.filter fun (_, m) => !(m.dst = p && m.epoch < (s.pkg p).epoch) }
    .next (s.modPkg p fun k => { k with phase := .cut, recv := Map.mapVals k.recv fun _ r => { r with frozen := true } })

/-- `QUIESCE_SETTLE` (Table 18.2): what could complete has; the rest is abandoned. -/
def execQuiesceSettle (p : Nat) (s : State) : Outcome :=
  if !s.phaseOpen p .cut then .refused (.notEnabled "the Cut has not ended")
  else if s.net.any fun (_, m) => !s.gone m.src && !s.gone m.dst then .refused (.notEnabled "a transaction is not complete")
  else
    let s := (s.migrations.filter fun (_, g) => g.oldPkg = p && !g.ended && (!g.flipped || !(s.pkg g.newPkg).alive)).foldl (fun (s : State) (n, g) => s.abandon n g) s
    let s := s.dies.foldl (fun (s : State) ((q, d), _) =>
      if q = p then s.modDie q d fun x => { x with dir := Map.mapVals x.dir fun _ e => s.settleEntry p e, frozen := x.frozen.map fun f => { f with held := [] } } else s) s
    let s := s.cores.foldl (fun (s : State) (c, _) => if c.pkg = p then s.abandonMisses c else s) s
    .next ((s.modPkg p fun k => { k with proxyWait := [] }).setPhase p .settle)

/-- `QUIESCE_SAVE` (R411, R427): the teams of the package are spooled, their threads trapped `QUIESCE`. -/
def execQuiesceSave (p : Nat) (s : State) : Outcome :=
  if !s.phaseOpen p .settle then .refused (.notEnabled "the Settle phase has not ended")
  else
    let here (s : State) : List Nat := (s.teams.filter fun (_, x) => x.place = .resident && x.core.pkg = p).map (·.1)
    let one (s : State) (n : Nat) : State :=
      match s.preemptTeams [n] true true with
      | .saved s => s
      | .full => if (s.pkg p).refusals.contains n then s else s.refusePreempt n
      | .waits => s
    let s' := (here s).foldl one s
    if here s' = [] then .next (s'.setPhase p .save)
    else if here s' = here s && (s'.pkg p).refusals = (s.pkg p).refusals then .refused (.notEnabled "a hold, a lease or the want of spool pages is awaited")
    else .next s'

/-- `QUIESCE_RECORD` (R429): a context's checkpoint record. -/
def execQuiesceRecord (k : Nat) (s : State) : Outcome :=
  let p := s.ctxPkg k
  let e := s.ctxEpoch k
  if !Map.has s.contexts k || !s.phaseOpen p .save || (s.context k).recorded.elim false (·.1 = e) then .refused (.notEnabled "no record of the context is due")
  else
    let bs := s.checkpointBytes k
    let lost := s.queueLost k
    let store : Option (State × Option Dword) :=
      match s.spoolMap k with
      | none => some (s, none)
      | some _ => (s.claimSpool k bs.length).map fun (f, _, s) => (s.spoolWrite k (s.pageBase k f) bs, some (s.pageBase k f))
    match store with
    | none => .refused (.notEnabled "no spool pages are free")
    | some (s, a) =>
      let s := { s with unacked := s.unacked.filter (·.1 ≠ k) }
      let s := s.modContext k fun c => { c with recorded := some (e, a), handled := false, post := if lost then [] else c.post }
      let done := (s.partitionContexts p).all fun j => (s.context j).recorded.elim false (·.1 = s.ctxEpoch j)
      .next (if done then (s.survivors p).foldl (fun (s : State) q => s.setPhase q .record) s else s)

/-- `QUIESCE_SWEEP` (R430): at the homes of a package. With no context there is no record to wait for. -/
def execQuiesceSweep (p : Nat) (s : State) : Outcome :=
  if !(s.phaseOpen p .record || (s.phaseOpen p .save && s.partitionContexts p = [])) then .refused (.notEnabled "the Record phase has not ended")
  else
    let s := s.dies.foldl (fun (s : State) ((q, d), x) =>
      if q = p then x.dir.foldl (fun (s : State) (b, e) => if e.ind then s.sweepEntry q d b e else s) s else s) s
    .next (s.setPhase p .sweep)

/-- `QUIESCE_REBUILD` (R346, R392, R427, R434). -/
def execQuiesceRebuild (p : Nat) (s : State) : Outcome :=
  if !s.phaseOpen p .sweep then .refused (.notEnabled "the Sweep phase has not ended")
  else
    let s := (s.elect p).takeOver p
    let s := s.modPkg p fun k => { k with pmap := k.pmap.filter fun (_, q) => (s.pkg q).alive, recv := Map.mapVals k.recv fun _ r => { r with frozen := false } }
    let s := (s.invalidatePkg p 2 0 0).stubsInvalidated p 2 0 0
    .next (((s.passOn p).setPhase p .rebuild).endQuiesce p)

/-- `CHECKPOINT_HANDLER` (R431): one wave of one team on the surviving package of the lowest number. -/
def execCheckpointHandler (k : Nat) (s : State) : Outcome :=
  let p := s.ctxPkg k
  let c := s.context k
  if !Map.has s.contexts k || c.handled || !s.phaseOpen p .rebuild then .refused (.notEnabled "no handler of the context is due")
  else
    let qs := s.survivors p
    let q := qs.foldl (fun b x => if (s.pkg x).num < (s.pkg b).num then x else b) (qs.headD p)
    let s := s.modContext k fun c => { c with handled := true }
    let s := match c.recorded.bind (·.2) with
      | some a =>
        if s.schedulable k then
          (s.acceptGrid { ctx := k, kern := { entry := c.regs.chkHandler.toNat, allot := 32, allotMax := 32, waves := 1 }, param := a, ply := true, pkg := q, handler := true } none).1
        else s
      | none => s
    .next (s.endQuiesce p)

end Sys2Proof.Machine
end

