-- ==== Sys2Proof/Machine/Links.lean ====
section
/-! DEFINITION. Flits, retry, and end-to-end delivery (R391, R420 to R426; log entry 30). -/

namespace Sys2Proof.Machine

-- flits (R420)

/-- One bit of CRC-32. -/
def crcBit (c : Nat) : Nat := if c % 2 = 1 then (c / 2) ^^^ 0xEDB88320 else c / 2
/-- CRC-32 of IEEE 802.3. -/
def crc32 (bs : List Byte) : Nat :=
  bs.foldl (fun c b => (List.range 8).foldl (fun c _ => crcBit c) (c ^^^ b.toNat)) 0xFFFFFFFF ^^^ 0xFFFFFFFF
/-- A flit (Table 18.1). -/
def flitOf (ftype lseq wseq : Nat) (wm : List Nat) (payload : List Byte) : List Byte :=
  let body := leBytes ftype 1 ++ leBytes 0 1 ++ leBytes (lseq % 4096) 2 ++ leBytes (wseq % 4096) 2 ++ (wm.flatMap fun n => leBytes n 2) ++ leBytes 0 4
    ++ payload ++ List.replicate (236 - payload.length) 0
  body ++ leBytes (crc32 body) 4
def flitType (f : List Byte) : Nat := field f 0 1
def flitOk (f : List Byte) : Bool := f.length = 256 && field f 0xFC 4 = crc32 (f.take 0xFC) && flitType f ≤ 2

/-- 64 flit times in hub cycles: a flit takes 2 cycles of 875 MHz, the hub runs at 1.6 GHz (R19). -/
def flitTimes64 : Nat := 234

namespace Port

/-- What the port sends now: its acknowledgement and its empty receive buffers ride in every flit. -/
def send (p : Port) (ftype lseq now : Nat) (payload : List Byte) : Port :=
  { p with tx := p.tx ++ [flitOf ftype lseq p.wseq [0, 0, 0] payload], lastTx := now }
/-- Whether a class has room (R421), and fewer than 2,048 flits are unacknowledged (R423). -/
def room (p : Port) (c : Nat) : Bool :=
  p.peerWm.getD c 0 + (p.unacked.filter fun (_, k, _) => k = c).length < 1024 && p.unacked.length < 2048
/-- Sends what may be sent, in order within a class: a full class holds no other back (R420). -/
def pump (p : Port) (now : Nat) : Nat → Port
  | 0 => p
  | fuel + 1 =>
    match p.waiting.find? fun (c, _) => p.room c with
    | some (c, bs) =>
      let n := p.txSeq
      (({ p with waiting := p.waiting.erase (c, bs), txSeq := (n + 1) % 4096, unacked := p.unacked ++ [(n, c, bs)] }.send 1 n now bs).pump now fuel)
    | none => p
/-- The header of an accepted flit: acknowledgement and watermarks (R421, R422). -/
def header (p : Port) (f : List Byte) (now : Nat) : Port :=
  let w := field f 4 2 % 4096
  let rest := (p.unacked.dropWhile fun (n, _, _) => n ≠ w).drop 1
  let p := { p with peerWm := [field f 6 2, field f 8 2, field f 10 2], unacked := if p.unacked.any fun (n, _, _) => n = w then rest else p.unacked }
  p.pump now (p.waiting.length + 1)
def nack (p : Port) (now : Nat) : Port := { p.send 2 0 now [] with nacking := true, lastNack := now }

end Port

namespace State

def port (s : State) (p k : Nat) : Port := Map.getD (s.pkg p).ports k {}
def setPort (s : State) (p k : Nat) (x : Port) : State := s.modPkg p fun y => { y with ports := Map.set y.ports k x }
/-- The flit at the head of a port's receiver, when a test holds of its type. -/
def headFlit (s : State) (p k : Nat) (is : Nat → Bool) : Option (List Byte × Port) :=
  let x := s.port p k
  match x.rx with
  | f :: rest => if x.up && is (flitType f) then some (f, { x with rx := rest }) else none
  | [] => none

/-- The healthy port for a packet: the lowest watermark plus unacknowledged flits of its class, not the plane it failed on (R424, R426). -/
def choosePort (s : State) (p cls avoid : Nat) : Option Nat :=
  let load (k : Nat) : Nat :=
    let x := s.port p k
    x.peerWm.getD cls 0 + (x.unacked.filter fun (_, c, _) => c = cls).length
  let ks := (List.range 18).filter fun k => (s.port p k).up
  let ks := if ks.any (· ≠ avoid) then ks.filter (· ≠ avoid) else ks
  match ks with
  | [] => none
  | k :: rest => some (rest.foldl (fun b x => if load x < load b then x else b) k)
/-- Payloads of 236 bytes. -/
def cutPayload (bs : List Byte) : Nat → List (List Byte)
  | 0 => []
  | fuel + 1 => if bs = [] then [] else bs.take 236 :: cutPayload (bs.drop 236) fuel
/-- A packet goes out on a plane; a package whose `PID` is unset sends nothing (R391). -/
def sendPacket (s : State) (x : Packet) (k : Nat) : State :=
  match (s.pkg x.src).pid with
  | none => s
  | some pid =>
    let (n, s) := s.freshId
    let bytes := Config.packetBytes x.src x.dst x.cls x.eseq x.epoch pid x.payload
    let q := s.port x.src k
    let q := { q with waiting := q.waiting ++ (cutPayload bytes (bytes.length / 236 + 1)).map fun bs => (x.cls, bs) }
    let s := { s with packets := Map.set s.packets n { x with pid, plane := k } }
    s.setPort x.src k (q.pump (s.hubNow x.src) (q.waiting.length + 1))

-- end to end (R425, R426)

/-- Delivery in `ESEQ` order: the packet, then early arrivals that follow it. -/
def deliverStream (r : Stream) : Nat → Stream
  | 0 => r
  | fuel + 1 =>
    match r.held.find? fun x => x.eseq = r.expect with
    | some x =>
      deliverStream { r with expect := (r.expect + 1) % 2 ^ 32, held := r.held.filter fun y => y.eseq ≠ x.eseq, applied := r.applied ++ [x.payload],
                             replies := Map.set r.replies x.eseq (Config.packetReply x.payload) } fuel
    | none => r
/-- How far an `ESEQ` lies beyond another. -/
def ahead (a b : Nat) : Nat := (a + 2 ^ 32 - b % 2 ^ 32) % 2 ^ 32

end State

/-- `FLIT_DATA` (R423): accepted in sequence, or discarded with a `NACK`. A flit of no defined type counts as one that fails its CRC. -/
def execFlitData (p k : Nat) (s : State) : Outcome :=
  let now := s.hubNow p
  match s.headFlit p k fun n => n = 1 || n > 2 with
  | some (f, x) =>
    if flitOk f && field f 2 2 % 4096 = (x.wseq + 1) % 4096 then
      .next (s.setPort p k ({ x with wseq := (x.wseq + 1) % 4096, nacking := false, received := x.received ++ [(f.drop 16).take 236] }.header f now))
    else .next (s.setPort p k (x.nack now))
  | none => .refused (.notEnabled "no data flit has arrived")

/-- `FLIT_IDLE` (R422): its watermarks and acknowledgement; a corrupted one is discarded whole. -/
def execFlitIdle (p k : Nat) (s : State) : Outcome :=
  match s.headFlit p k (· = 0) with
  | some (f, x) => .next (s.setPort p k (if flitOk f then x.header f (s.hubNow p) else x))
  | none => .refused (.notEnabled "no idle flit has arrived")

/-- `FLIT_NACK` (R423): every data flit after `WSEQ` is sent again, in order. -/
def execFlitNack (p k : Nat) (s : State) : Outcome :=
  let now := s.hubNow p
  match s.headFlit p k (· = 2) with
  | some (f, x) =>
    if !flitOk f then .next (s.setPort p k x)
    else
      let w := (field f 4 2 + 1) % 4096
      let n := if x.nackFor = w then x.nacks + 1 else 1
      let again := ((x.unacked.dropWhile fun (n, _, _) => n ≠ field f 4 2 % 4096).drop 1)
      let again := if x.unacked.any fun (n, _, _) => n = field f 4 2 % 4096 then again else x.unacked
      let x := again.foldl (fun (x : Port) (n, _, bs) => x.send 1 n now bs) x
      .next (s.setPort p k { x.header f now with nackFor := w, nacks := n })
  | none => .refused (.notEnabled "no NACK has arrived")

/-- `IDLE_FLIT_SEND` (R422). -/
def execIdleFlitSend (p k : Nat) (s : State) : Outcome :=
  let x := s.port p k
  let now := s.hubNow p
  if !x.up || now < x.lastTx + flitTimes64 then .refused (.notEnabled "the link has sent a flit within 64 flit times")
  else .next (s.setPort p k (x.send 0 0 now []))

/-- `NACK_REPEAT` (R423). -/
def execNackRepeat (p k : Nat) (s : State) : Outcome :=
  let x := s.port p k
  let now := s.hubNow p
  if !x.up || !x.nacking || now < x.lastNack + flitTimes64 then .refused (.notEnabled "no NACK is due")
  else .next (s.setPort p k (x.nack now))

/-- `PORT_RETRAIN` (R423): after 16 `NACK`s for one `LSEQ`, the failing lanes are dropped; a port without a lane goes down. -/
def execPortRetrain (p k failed : Nat) (s : State) : Outcome :=
  let x := s.port p k
  if !x.up || x.nacks < 16 then .refused (.notEnabled "the port has not had 16 NACKs for one LSEQ")
  else .next (s.setPort p k { x with nacks := 0, lanes := x.lanes - failed, up := decide (failed < x.lanes) })

/-- Whether a packet bears another `PID` than its destination's (R391). -/
def State.foreign (s : State) (x : Packet) : Bool := (s.pkg x.dst).pid ≠ some x.pid

/-- `E2E_DELIVER` (R425, R426, R428): the destination's port on the packet's plane receives it (R16). -/
def execE2eDeliver (n : Nat) (s : State) : Outcome :=
  match Map.find s.packets n with
  | some x =>
    let k := s.pkg x.dst
    if x.isAck || s.foreign x || !k.alive || !(s.port x.dst x.plane).up then .refused (.notEnabled "no packet of the partition to deliver")
    else
      let s := { s with packets := Map.erase s.packets n }
      let r := Map.getD k.recv (x.src, x.cls) {}
      let set (r : Stream) (s : State) : State := s.modPkg x.dst fun k => { k with recv := Map.set k.recv (x.src, x.cls) r }
      let answer (r : Stream) (payload : List Byte) (s : State) : State :=
        let (m, s) := s.freshId
        let a : Packet := { src := x.dst, dst := x.src, cls := x.cls, eseq := (r.expect + 2 ^ 32 - 1) % 2 ^ 32, epoch := k.epoch, pid := x.pid, payload,
                            plane := x.plane, sentAt := s.hubNow x.dst, isAck := true }
        { s with packets := Map.set s.packets m a }
      if x.epoch < k.epoch ∨ r.frozen then .next s
      else if State.ahead x.eseq r.expect ≥ 2 ^ 31 ∨ r.held.any fun y => y.eseq = x.eseq then .next (answer r (Map.getD r.replies x.eseq []) s)
      else if State.ahead x.eseq r.expect ≥ 256 then .next s
      else
        let r' := State.deliverStream { r with held := r.held ++ [x] } 256
        .next (answer r' (Config.packetReply x.payload) (set r' s))
  | none => .refused (.notEnabled "no such packet")

/-- `E2E_ACK` (R426): packets and replies up to the acknowledged `ESEQ` are released. -/
def execE2eAck (n : Nat) (s : State) : Outcome :=
  match Map.find s.packets n with
  | some x =>
    if !x.isAck || s.foreign x || !(s.pkg x.dst).alive || !(s.port x.dst x.plane).up then .refused (.notEnabled "no acknowledgement of the partition to deliver")
    else
      let s := { s with packets := Map.erase s.packets n }
      let past (e : Nat) : Bool := State.ahead x.eseq e < 2 ^ 31
      let s := s.modPkg x.dst fun k => { k with send := Map.mapVals k.send fun (q, c) y => if q = x.src ∧ c = x.cls then { y with unacked := y.unacked.filter fun z => !past z.eseq } else y }
      .next (s.modPkg x.src fun k => { k with recv := Map.mapVals k.recv fun (q, c) r => if q = x.dst ∧ c = x.cls then { r with replies := r.replies.filter fun (e, _) => !past e } else r })
  | none => .refused (.notEnabled "no such packet")

/-- `E2E_RESEND` (R426): on a different plane, at most three times. -/
def execE2eResend (p dst cls eseq : Nat) (s : State) : Outcome :=
  let y := Map.getD (s.pkg p).send (dst, cls) {}
  let now := s.hubNow p
  match y.unacked.find? fun x => x.eseq = eseq with
  | some x =>
    if now < x.sentAt + 1024 ∨ x.resends ≥ 3 then .refused (.notEnabled "the packet is not due, or has been sent again three times")
    else match s.choosePort p cls x.plane with
      | some k =>
        let x' := { x with resends := x.resends + 1, sentAt := now, plane := k }
        let s := s.modPkg p fun k => { k with send := Map.set k.send (dst, cls) { y with unacked := y.unacked.map fun z => if z.eseq = eseq then x' else z } }
        .next (s.sendPacket x' k)
      | none => .refused (.notEnabled "no port is up")
  | none => .refused (.notEnabled "no such packet is unacknowledged")

/-- `FABRIC_PACKET_DROP` (R391): a packet of another partition is dropped and counted. -/
def execFabricPacketDrop (n : Nat) (s : State) : Outcome :=
  match Map.find s.packets n with
  | some x =>
    if !s.foreign x then .refused (.notEnabled "the packet bears the package's PID")
    else .next ({ s with packets := Map.erase s.packets n }.modPkg x.dst fun k => { k with dropped := k.dropped + 1 })
  | none => .refused (.notEnabled "no such packet")

end Sys2Proof.Machine
end

