-- ==== Sys2Proof/Machine/Security.lean ====
section
/-! DEFINITION. The security engine, reset and the Muper control complex (R374, R375, R391 to R396, R400 to R402; log entries 20, 32). -/

namespace Sys2Proof.Machine

-- signed commands (Tables 16.4, 16.5)

/-- Operation and payload length of a command. -/
def cmdOp (bs : List Byte) : Nat := field bs 0x18 2
def cmdLen (bs : List Byte) : Nat := field bs 0x1A 2
/-- The pairs of a `PMAP` payload: index and entry. -/
def pmapEntries (bs : List Byte) : List (Nat × Nat) :=
  (List.range (field bs 0x22 2)).map fun j => (field bs 0x20 2 + j, field bs (0x24 + 4 * j) 4)
/-- Whether an address lies in some egress window (R392). -/
def inWindows (w : Map Nat (Nat × Nat)) (a : Nat) : Bool := w.any fun (_, lo, hi) => lo ≤ a && a ≤ hi
/-- Check 0x06: reserved bytes, `OP`, `PLEN`, fields in range, and `PMAP` entries inside the windows. -/
def cmdFormed (k : Package) (bs : List Byte) : Bool :=
  field bs 0x1C 4 = 0 &&
    match cmdOp bs with
    | 1 => cmdLen bs = 8 && field bs 0x20 2 < 4096 && 1 ≤ field bs 0x26 2 && field bs 0x26 2 ≤ 4096 && field bs 0x22 2 < field bs 0x26 2 && field bs 0x24 2 < 4096
    | 2 => cmdLen bs = 4 + 4 * field bs 0x22 2 && field bs 0x22 2 ≤ 63 && field bs 0x20 2 + field bs 0x22 2 ≤ 4096
        && (pmapEntries bs).all fun (_, e) => e / 2 ^ 24 % 2 ^ 7 = 0 && (!e.testBit 31 || inWindows k.windows (e % 2 ^ 24))
    | 3 => cmdLen bs = 10 && field bs 0x20 2 < 16 && field bs 0x22 4 ≤ field bs 0x26 4 && field bs 0x26 4 < 2 ^ 24
    | 4 => cmdLen bs = 0
    | _ => false
/-- The status of a command, in the order of Table 16.5. -/
def cmdStatusOf (p : Nat) (k : Package) (bs : List Byte) : Nat :=
  match k.authHash with
  | none => 1
  | some h =>
    let pub := (bs.drop 0x120).take 32
    if Config.sha512 pub ≠ h then 2
    else if !Config.ed25519Verify pub (bs.take 0x140) ((bs.drop 0x140).take 64) then 3
    else if field bs 8 8 ≠ (Config.pkgSerial p).toNat ∨ field bs 0x10 8 ≠ k.bnonce.toNat then 4
    else if k.lastSeq.elim false fun n => field bs 0 8 ≤ n then 5
    else if !cmdFormed k bs then 6
    else 0

namespace State

/-- The security engine takes the command at the head of its mailbox, when its operation is as a test says: it reports a status, and applies the command only
with status 0 (R393). -/
def securityCmd (s : State) (p : Nat) (is : Nat → Bool) (f : Package → List Byte → Package) (after : State → State) : Outcome :=
  let k := s.pkg p
  match k.mailbox with
  | [] => .refused (.notEnabled "the mailbox is empty")
  | bs :: rest =>
    if !is (cmdOp bs) then .refused (.notEnabled "the command at the head has another operation")
    else
      let st := cmdStatusOf p k bs
      let k := { k with mailbox := rest, cmdStatus := some st }
      if st = 0 then .next (after (s.setPkg p (f { k with lastSeq := some (field bs 0 8) } bs))) else .next (s.setPkg p k)

/-- The host cores of a package leave reset: monitor level, at the measured entry address (R374). -/
def resetHosts (s : State) (p : Nat) : State :=
  (List.range 16).foldl (fun (s : State) j =>
    let c : CoreId := ⟨p, 8, j⟩
    let t := hostThread c
    ((s.setHost c {}).setWave t.wave (Wave.initial t.wave)).setThread t (Thread.initial t)) s
/-- What a reset leaves of a package's cores, dies and agents: fence masks and repairs are kept (R203), identity and partition are the security engine's. -/
def resetPackage (s : State) (p : Nat) : State :=
  let here (n : Nat) : Bool := (s.team n).place = .resident && (s.team n).core.pkg = p
  let gone := (s.teams.filter fun (n, _) => here n).map (·.1)
  let s := { s with
    threads := s.threads.filter fun (t, _) => t.wave.core.pkg ≠ p
    waves := s.waves.filter fun (w, _) => w.core.pkg ≠ p
    teams := Map.mapVals s.teams fun n x => if gone.contains n then { x with place := .ended, waves := [] } else x
    ops := s.ops.filter fun (_, o) => !gone.contains o.team && !(isHost o.issuer && o.core.pkg = p)
    cores := Map.mapVals s.cores fun c x => if c.pkg = p then { fence := x.fence, retired := x.retired, coreRetired := x.coreRetired, spared := x.spared, ways := x.ways } else x
    dies := Map.mapVals s.dies fun (q, _) x => if q = p then { now := x.now, ways := x.ways, spared := x.spared, retiredFrames := x.retiredFrames } else x
    net := s.net.filter fun (_, m) => m.src.pkg ≠ p && m.dst.pkg ≠ p }
  let s := s.modPkg p fun k => { k with launches := [], windows_ := [], wakes := [], poolReqs := [], accepted := [], outbox := [], proxy := [], proxyWait := [], owners := [], kv := [],
                                        mirror := none, mirrorQ := [], messages := [], migQueue := [], mailbox := [], watchdog := s.hubNow p, phase := .none, quiesce := none }
  s.resetHosts p

end State

/-- `JOIN_CMD` (R391, R393): identity in a partition; Hank and Reel are elected (R346). -/
def execJoinCmd (p : Nat) (s : State) : Outcome :=
  s.securityCmd p (· = 1)
    (fun k bs => { k with pid := some (field bs 0x20 2), num := field bs 0x22 2, tray := field bs 0x24 2, n := field bs 0x26 2 })
    fun s => (s.elect p).passOn p
/-- `WRITE_PMAP` (R392, R393). -/
def execWritePmap (p : Nat) (s : State) : Outcome :=
  s.securityCmd p (· = 2)
    (fun k bs => { k with pmap := (pmapEntries bs).foldl (fun m (j, e) => if e.testBit 31 then Map.set m j (e % 2 ^ 24) else Map.erase m j) k.pmap })
    fun s => s.elect p
/-- `WRITE_WINDOW` (R392): entries that the windows no longer cover become invalid. -/
def execWriteWindow (p : Nat) (s : State) : Outcome :=
  s.securityCmd p (· = 3)
    (fun k bs =>
      let w := Map.set k.windows (field bs 0x20 2) (field bs 0x22 4, field bs 0x26 4)
      { k with windows := w, pmap := k.pmap.filter fun (_, a) => inWindows w a })
    id
/-- `LEAVE_CMD` (R393): `PID`, `PMAP` and the windows are cleared. A command of no defined operation is refused here. -/
def execLeaveCmd (p : Nat) (s : State) : Outcome :=
  s.securityCmd p (fun n => n = 4 || n = 0 || n > 4) (fun k _ => { k with pid := none, pmap := [], windows := [] }) id

/-- `QUOTE` (R402). -/
def execQuote (p nonce : Nat) (s : State) : Outcome :=
  let k := s.pkg p
  let body := leBytes nonce 32 ++ leBytes (Config.pkgSerial p).toNat 8 ++ leBytes k.bnonce.toNat 8
    ++ ((List.range 8).flatMap fun i => Map.getD k.mr i (List.replicate 64 0)) ++ leBytes (k.pid.getD 0) 2
  .next (s.setPkg p { k with quotes := k.quotes ++ [body ++ Config.ed25519Sign p body] })

/-- `MRi` := SHA-512(`MRi` ++ d) (R401). -/
def extendMr (k : Package) (i : Nat) (d : List Byte) : Package :=
  { k with mr := Map.set k.mr i (Config.sha512 (Map.getD k.mr i (List.replicate 64 0) ++ d)) }
/-- `MEASURE_EXTEND` (R401): on request from level 2, one of `MR3` to `MR7`. -/
def execMeasureExtend (p i digest : Nat) (s : State) : Outcome :=
  if i < 3 ∨ i > 7 ∨ !(List.range 16).any fun c => State.priv (s.host ⟨p, 8, c⟩) = 2 then .refused (.notEnabled "no host core at level 2 may extend the register")
  else .next (s.modPkg p fun k => extendMr k i (leBytes digest 64))

/-- The bring-up self-test of a package's matrix units (R203): which fenced sub-arrays it clears is a free value (log entry 55). -/
def State.bringUpTest (s : State) (p : Nat) : State :=
  let (n, s) := s.freeIdx
  let test (j : Nat) (c : CoreId) (x : CoreSt) : CoreId × CoreSt :=
    let f := x.fence &&& Config.freeNat (n + j)
    if c.pkg ≠ p then (c, x) else (c, { x with fence := f, retired := decide (((List.range 16).filter f.testBit).length ≥ 5) })
  let cores := ((List.range s.cores.length).zip s.cores).map fun (j, c, x) => test j c x
  { s with cores, free := s.free + cores.length }
/-- `POWER_ON` (R203, R391, R400, R401): a fresh `BNONCE`; the bring-up self-test; the firmware images are measured before they start. -/
def execPowerOn (p : Nat) (s : State) : Outcome :=
  let k := s.pkg p
  let s := (s.resetPackage p).bringUpTest p
  let fresh : Package := { authHash := k.authHash, powerOns := k.powerOns + 1, bnonce := Config.bootNonce p k.powerOns, watchdog := s.hubNow p }
  let measured := [0, 1, 2].foldl (fun k i => extendMr k i (Config.imageDigest p i)) fresh
  .next (s.setPkg p measured)

/-- `PACKAGE_RESET` (R374, R427): in a partition of several packages the reset is reported. -/
def execPackageReset (p : Nat) (s : State) : Outcome :=
  let others := (s.partition p).any (· ≠ p)
  let s := s.resetPackage p
  .next (if others then s.reportLost p else s)

/-- `WATCHDOG_EXPIRY` (R396). -/
def execWatchdogExpiry (p : Nat) (s : State) : Outcome :=
  if s.hubNow p < (s.pkg p).watchdog + 2 ^ 24 then .refused (.notEnabled "the watchdog was written within 2^24 cycles")
  else .next ((s.modPkg p fun k => { k with watchdog := s.hubNow p }).reportLost p)

/-- `LOCKSTEP_MISMATCH` (R396): both cores restart from the measured image. -/
def execLockstepMismatch (p : Nat) (s : State) : Outcome := .next (s.modPkg p fun k => { k with restarts := k.restarts + 1 })

/-- `FABRIC_MANAGER_MESSAGE` (R375, R394). -/
def execFabricManagerMessage (p msg : Nat) (s : State) : Outcome := .next ((s.modPkg p fun k => { k with messages := k.messages ++ [msg] }).setHpend p 2)

/-- `PCIE_INBOUND_WRITE` (R432): a release store at `rack` scope under the key that level 2 set; one that faults writes nothing. -/
def execPcieInboundWrite (p : Nat) (va : Dword) (bytes : List Byte) (s : State) : Outcome :=
  let k := (s.pkg p).bar2Key
  if s.vaLeased p (s.ctxRoot k) va bytes.length then .refused (.notEnabled "a line is leased")
  else .next ((s.vaWrite p (s.ctxRoot k) (some [k]) va bytes { s.hubEv p .store with ord := .rel, scp := some .rack }).toOption.getD s)

/-- `MIRROR_APPLY` (R433): the standby makes the oldest mirrored write at the same offset from `SBASE`. -/
def execMirrorApply (p : Nat) (s : State) : Outcome :=
  match (s.pkg p).mirror, (s.pkg p).mirrorQ with
  | some m, (off, bs, _) :: rest =>
    let a := m.sbase + BitVec.ofNat 64 off
    let root := s.rootOf (hostThread ⟨p, 8, 0⟩)
    if s.vaLeased p root a bs.length then .refused (.notEnabled "a line is leased")
    else .next (((s.vaWrite p root none a bs).toOption.getD s).modPkg p fun k => { k with mirrorQ := rest })
  | _, _ => .refused (.notEnabled "no mirrored write has arrived")

/-- `ARITHMETIC_CLOCK_STEP` (R21): cycle counts do not change. A lowered clock is not raised again, and stays above 0 (log entry 47, DESIGN CHOICE). -/
def execArithmeticClockStep (p d : Nat) (s : State) : Outcome :=
  if d ≥ 8 || (s.die p d).mhz ≤ 25 then .refused (.notEnabled "the hub clock is never lowered, and a clock stays above 0")
  else .next (s.modDie p d fun x => { x with mhz := x.mhz - 25 })

end Sys2Proof.Machine
end

