-- ==== Sys2Proof/Machine/SoftErr.lean ====
section
/-! DEFINITION. Soft errors: self-tests, repair, poison and scrubbing (R201, R397, R398, R417, R418, Table 17.11; log entry 31). -/

namespace Sys2Proof.Machine

/-- The package and the die of a unit; a link belongs to the hub die. -/
def State.eccPlace : EccUnit → Nat × Nat
  | .coreStore c => (c.pkg, c.die) | .l1 c => (c.pkg, c.die) | .subArray c _ => (c.pkg, c.die)
  | .l2 p d _ => (p, d) | .directory p d _ => (p, d) | .hbm p d _ => (p, d) | .link p _ => (p, 8)

namespace State

/-- A core is retired: no team is placed there, and its teams are pre-empted, to be restored elsewhere (Table 17.11). -/
def retireCore (s : State) (c : CoreId) : State :=
  let s := s.modCore c fun x => { x with coreRetired := true }
  (s.residents c).foldl (fun (s : State) (n, _) =>
    if (s.team n).place ≠ .resident then s
    else match s.preemptTeams (s.teamSet n) false false with
      | .saved s => s
      | .full => s.refusePreempt n
      | .waits => s.stopIssue (s.teamSet n)) s
/-- The repair of a lasting fault (Table 17.11). -/
def repair (s : State) (u : EccUnit) (loc : Nat) : State :=
  match u with
  | .coreStore c => if (s.core c).spared < Config.spareRows 0 then s.modCore c fun x => { x with spared := x.spared + 1 } else s.retireCore c
  | .l1 c => s.modCore c fun x => { x with ways := x.ways + 1 }
  | .l2 p d k | .directory p d k => s.modDie p d fun x => { x with ways := Map.set x.ways k (Map.getD x.ways k 0 + 1) }
  | .hbm p d f =>
    if (s.die p d).spared < Config.spareRows 1 then s.modDie p d fun x => { x with spared := x.spared + 1 }
    else s.modDie p d fun x => { x with retiredFrames := if x.retiredFrames.contains f then x.retiredFrames else f :: x.retiredFrames }
  | .link p k =>
    let x := s.port p k
    s.setPort p k { x with lanes := x.lanes - 1, up := x.up && decide (1 < x.lanes) }
  | .subArray c _ => s.fenceArrays c (2 ^ (loc % 16))

end State

/-- `CORRECTED_ERROR` (R201, R417, R418): a self-test starts; the die's scrub rate doubles; a sub-array gets a pattern product. -/
def execCorrectedError (u : EccUnit) (loc : Nat) (s : State) : Outcome :=
  let (p, d) := (State.eccPlace u)
  let now := (s.die p d).now
  let s := s.modPkg p fun k => { k with errorLog := k.errorLog ++ [(u, loc, now)], tests := if k.tests.contains (u, loc) then k.tests else k.tests ++ [(u, loc)] }
  let s := s.modDie p d fun x => { x with scrub := min 4 (x.scrub + 1), scrubQuietSince := now }
  .next (match u with
    | .subArray c _ => s.modCore c fun x => { x with calls := if x.calls.contains (loc % 16) then x.calls else (loc % 16) :: x.calls }
    | _ => s)

/-- `SELF_TEST_DONE` (R417): the fault is lasting when the test fails, or at the third report of the location within 2^34 cycles. -/
def execSelfTestDone (u : EccUnit) (loc : Nat) (fails : Bool) (s : State) : Outcome :=
  let (p, d) := (State.eccPlace u)
  let k := s.pkg p
  if !k.tests.contains (u, loc) then .refused (.notEnabled "no self-test of the location is under way")
  else
    let now := (s.die p d).now
    let reports := k.errorLog.filter fun (v, l, t) => v = u && l = loc && decide (now < t + 2 ^ 34)
    let s := s.setPkg p { k with tests := k.tests.filter (· ≠ (u, loc)) }
    .next (if fails || reports.length ≥ 3 then s.repair u (match u with | .subArray _ i => i | _ => loc) else s)

/-- `UNCORRECTABLE_ERROR` (R202, R397, R398, R417): the storage is poisoned; a line and a tile are charged. A line is charged to the key of the translation that filled
it, which its directory entry keeps; one that no entry covers, to the key the event names. -/
def execUncorrectableError (x : EccHit) (s : State) : Outcome :=
  match x with
  | .line pa key =>
    let (b, e) := s.dirFind (physPkg pa) (physDie pa) (lineOf pa)
    .next (s.poisonLine (lineOf pa) (if Map.has (s.die (physPkg pa) (physDie pa)).dir b then e.key else key))
  | .directory _ _ _ => .next { s with mcheck := true }
  | .register t n => .next (s.modThread t fun th => { th with poisoned := if th.poisoned.contains n then th.poisoned else n :: th.poisoned })
  | .scratch tm off =>
    let u := off / 8 * 8
    .next (s.modTeam tm fun y => { y with scrPoison := if y.scrPoison.contains u then y.scrPoison else u :: y.scrPoison })
  | .operandBuffer tm b off =>
    let u := off / 8 * 8
    match Map.find (s.team tm).handles b with
    | some r => .next (s.modTeam tm fun y => { y with handles := Map.set y.handles b { r with poisoned := if r.poisoned.contains u then r.poisoned else u :: r.poisoned } })
    | none => .refused (.notEnabled "the handle is not bound")
  | .tile tm k =>
    let y := s.team tm
    let s := s.modTeam tm fun y => { y with tiles := Map.set y.tiles k { Map.getD y.tiles k {} with poison := true } }
    .next (s.charge y.ctx { kind := 3, cause := Cause.poison.code, tflg := 0x20, arg := k, pkg := (s.pkg y.core.pkg).num, die := y.core.die, aux := 2 ^ k })

/-- `SCRUB` (R418): a row is read and corrected; programs see only time. -/
def execScrub (p d row : Nat) (s : State) : Outcome := .next (s.modDie p d fun x => { x with scrubbed := Map.set x.scrubbed row x.now })
/-- `SCRUB_RATE_HALVE` (R418). -/
def execScrubRateHalve (p d : Nat) (s : State) : Outcome :=
  let x := s.die p d
  if x.scrub = 0 || x.now < x.scrubQuietSince + 2 ^ 32 then .refused (.notEnabled "the rate is the base rate, or an error was corrected within 2^32 cycles")
  else .next (s.setDie p d { x with scrub := x.scrub - 1, scrubQuietSince := x.now })

end Sys2Proof.Machine
end

