-- ==== Sys2Proof/Machine/Dispatch.lean ====
section
/-! DEFINITION. One arm per instruction: its meaning. -/

namespace Sys2Proof.Machine

def exec (i : Instr) (s : State) : Host.Outcome State Fault Refusal :=
  match i with
  | .nop => Sys2Proof.Machine.execNop s
  | .unassignedOpcode w => Sys2Proof.Machine.execUnassignedOpcode w s
  | .pairWord a b => Sys2Proof.Machine.execPairWord a b s
  | .iadd h t sat d a b => Sys2Proof.Machine.execIadd h t sat d a b s
  | .isub h t sat d a b => Sys2Proof.Machine.execIsub h t sat d a b s
  | .imul h t sat d a b => Sys2Proof.Machine.execImul h t sat d a b s
  | .imulh h t d a b => Sys2Proof.Machine.execImulh h t d a b s
  | .imad h t d a b c => Sys2Proof.Machine.execImad h t d a b c s
  | .imin h t d a b => Sys2Proof.Machine.execImin h t d a b s
  | .imax h t d a b => Sys2Proof.Machine.execImax h t d a b s
  | .iabs h t sat d a => Sys2Proof.Machine.execIabs h t sat d a s
  | .ineg h t sat d a => Sys2Proof.Machine.execIneg h t sat d a s
  | .idif h t d a b => Sys2Proof.Machine.execIdif h t d a b s
  | .isad h t d a b c => Sys2Proof.Machine.execIsad h t d a b c s
  | .and h t d a b => Sys2Proof.Machine.execAnd h t d a b s
  | .or h t d a b => Sys2Proof.Machine.execOr h t d a b s
  | .xor h t d a b => Sys2Proof.Machine.execXor h t d a b s
  | .not h t d a => Sys2Proof.Machine.execNot h t d a s
  | .andn h t d a b => Sys2Proof.Machine.execAndn h t d a b s
  | .shl h t d a b => Sys2Proof.Machine.execShl h t d a b s
  | .shr h t d a b => Sys2Proof.Machine.execShr h t d a b s
  | .sar h t d a b => Sys2Proof.Machine.execSar h t d a b s
  | .rol h t d a b => Sys2Proof.Machine.execRol h t d a b s
  | .bfx h t d a f => Sys2Proof.Machine.execBfx h t d a f s
  | .bfi h t d a b f => Sys2Proof.Machine.execBfi h t d a b f s
  | .popc h t d a => Sys2Proof.Machine.execPopc h t d a s
  | .clz h t d a => Sys2Proof.Machine.execClz h t d a s
  | .brev h t d a => Sys2Proof.Machine.execBrev h t d a s
  | .ffs h t d a => Sys2Proof.Machine.execFfs h t d a s
  | .bysel h d a b c => Sys2Proof.Machine.execBysel h d a b c s
  | .icmp h cc t p a b => Sys2Proof.Machine.execIcmp h cc t p a b s
  | .sel h t d a b pc => Sys2Proof.Machine.execSel h t d a b pc s
  | .plop h pd pa pb tt => Sys2Proof.Machine.execPlop h pd pa pb tt s
  | .lea h n32 k d a b c => Sys2Proof.Machine.execLea h n32 k d a b c s
  | .mov h t d a => Sys2Proof.Machine.execMov h t d a s
  | .movFlg h d a => Sys2Proof.Machine.execMovFlg h d a s
  | .ocl h k n dead => Sys2Proof.Machine.execOcl h k n dead s
  | .fadd h f r sat d a b => Sys2Proof.Machine.execFadd h f r sat d a b s
  | .fsub h f r sat d a b => Sys2Proof.Machine.execFsub h f r sat d a b s
  | .fmul h f r sat d a b => Sys2Proof.Machine.execFmul h f r sat d a b s
  | .ffma h f r d a b c => Sys2Proof.Machine.execFfma h f r d a b c s
  | .fmin h f d a b => Sys2Proof.Machine.execFmin h f d a b s
  | .fmax h f d a b => Sys2Proof.Machine.execFmax h f d a b s
  | .fabs h f d a => Sys2Proof.Machine.execFabs h f d a s
  | .fneg h f d a => Sys2Proof.Machine.execFneg h f d a s
  | .fcmp h cc f p a b => Sys2Proof.Machine.execFcmp h cc f p a b s
  | .fcls h f d a => Sys2Proof.Machine.execFcls h f d a s
  | .ffrc h f d a => Sys2Proof.Machine.execFfrc h f d a s
  | .frnd h f r d a => Sys2Proof.Machine.execFrnd h f r d a s
  | .fscl h f r sat d a n => Sys2Proof.Machine.execFscl h f r sat d a n s
  | .cvt h r sat dt st d a => Sys2Proof.Machine.execCvt h r sat dt st d a s
  | .cvpk h r sat f k d a b => Sys2Proof.Machine.execCvpk h r sat f k d a b s
  | .cvup h f k d a => Sys2Proof.Machine.execCvup h f k d a s
  | .frcp h d a => Sys2Proof.Machine.execFrcp h d a s
  | .frsq h d a => Sys2Proof.Machine.execFrsq h d a s
  | .fsqrt h d a => Sys2Proof.Machine.execFsqrt h d a s
  | .fexp2 h d a => Sys2Proof.Machine.execFexp2 h d a s
  | .flog2 h d a => Sys2Proof.Machine.execFlog2 h d a s
  | .fsin h d a => Sys2Proof.Machine.execFsin h d a s
  | .fcos h d a => Sys2Proof.Machine.execFcos h d a s
  | .ftanh h d a => Sys2Proof.Machine.execFtanh h d a s
  | .idiv h t d a b => Sys2Proof.Machine.execIdiv h t d a b s
  | .irem h t d a b => Sys2Proof.Machine.execIrem h t d a b s
  | .xget h t g d a b => Sys2Proof.Machine.execXget h t g d a b s
  | .xrot h t g d a b => Sys2Proof.Machine.execXrot h t g d a b s
  | .xflip h t g d a b => Sys2Proof.Machine.execXflip h t g d a b s
  | .xrev h t g d a => Sys2Proof.Machine.execXrev h t g d a s
  | .bcst h t d a b => Sys2Proof.Machine.execBcst h t d a b s
  | .pcol h op neg d pa => Sys2Proof.Machine.execPcol h op neg d pa s
  | .lmat h t d a => Sys2Proof.Machine.execLmat h t d a s
  | .lred h op t sat d a => Sys2Proof.Machine.execLred h op t sat d a s
  | .sbc h t d a => Sys2Proof.Machine.execSbc h t d a s
  | .lget h t d a b => Sys2Proof.Machine.execLget h t d a b s
  | .lset h t d a b => Sys2Proof.Machine.execLset h t d a b s
  | .sadd h t sat d a b => Sys2Proof.Machine.execSadd h t sat d a b s
  | .ssub h t sat d a b => Sys2Proof.Machine.execSsub h t sat d a b s
  | .smul h t sat d a b => Sys2Proof.Machine.execSmul h t sat d a b s
  | .sand h t d a b => Sys2Proof.Machine.execSand h t d a b s
  | .sor h t d a b => Sys2Proof.Machine.execSor h t d a b s
  | .sxor h t d a b => Sys2Proof.Machine.execSxor h t d a b s
  | .sshl h t d a b => Sys2Proof.Machine.execSshl h t d a b s
  | .sshr h t d a b => Sys2Proof.Machine.execSshr h t d a b s
  | .ssar h t d a b => Sys2Proof.Machine.execSsar h t d a b s
  | .smin h t d a b => Sys2Proof.Machine.execSmin h t d a b s
  | .smax h t d a b => Sys2Proof.Machine.execSmax h t d a b s
  | .scmp h cc t p a b => Sys2Proof.Machine.execScmp h cc t p a b s
  | .smov h t d a => Sys2Proof.Machine.execSmov h t d a s
  | .ssel h t d a b c => Sys2Proof.Machine.execSsel h t d a b c s
  | .slea h n32 k d a b c => Sys2Proof.Machine.execSlea h n32 k d a b c s
  | .trsv h d b a => Sys2Proof.Machine.execTrsv h d b a s
  | .trel h b => Sys2Proof.Machine.execTrel h b s
  | .trelDone team b => Sys2Proof.Machine.execTrelDone team b s
  | .tqry h d b n => Sys2Proof.Machine.execTqry h d b n s
  | .trng h b => Sys2Proof.Machine.execTrng h b s
  | .trngDone team b => Sys2Proof.Machine.execTrngDone team b s
  | .twr h b wide off val => Sys2Proof.Machine.execTwr h b wide off val s
  | .trd h d b wide off => Sys2Proof.Machine.execTrd h d b wide off s
  | .mma h tok off => Sys2Proof.Machine.execMma h tok off s
  | .mmaAccept op => Sys2Proof.Machine.execMmaAccept op s
  | .mmaComplete op => Sys2Proof.Machine.execMmaComplete op s
  | .mmaFaultStop op => Sys2Proof.Machine.execMmaFaultStop op s
  | .streamTileConsume op => Sys2Proof.Machine.execStreamTileConsume op s
  | .mxr h fa fb sat d a b deadA deadB => Sys2Proof.Machine.execMxr h fa fb sat d a b deadA deadB s
  | .mxrWriteback t => Sys2Proof.Machine.execMxrWriteback t s
  | .mwait h => Sys2Proof.Machine.execMwait h s
  | .mwaitEnd team => Sys2Proof.Machine.execMwaitEnd team s
  | .mstat h d n => Sys2Proof.Machine.execMstat h d n s
  | .elect h p => Sys2Proof.Machine.execElect h p s
  | .accz h k => Sys2Proof.Machine.execAccz h k s
  | .accld h g k addr stride => Sys2Proof.Machine.execAccld h g k addr stride s
  | .accst h g k addr stride => Sys2Proof.Machine.execAccst h g k addr stride s
  | .accMoveDone op => Sys2Proof.Machine.execAccMoveDone op s
  | .accmvRd h d k r => Sys2Proof.Machine.execAccmvRd h d k r s
  | .accmvWr h k a dead r => Sys2Proof.Machine.execAccmvWr h k a dead r s
  | .tileWaitEnd t => Sys2Proof.Machine.execTileWaitEnd t s
  | .patternProduct c bad => Sys2Proof.Machine.execPatternProduct c bad s
  | .ld h t m d base off => Sys2Proof.Machine.execLd h t m d base off s
  | .st h t m data base off => Sys2Proof.Machine.execSt h t m data base off s
  | .atom h op wide m d base val => Sys2Proof.Machine.execAtom h op wide m d base val s
  | .atomn h op wide m base val => Sys2Proof.Machine.execAtomn h op wide m base val s
  | .cas h wide m d base cn => Sys2Proof.Machine.execCas h wide m d base cn s
  | .fence h m => Sys2Proof.Machine.execFence h m s
  | .fenceDone t => Sys2Proof.Machine.execFenceDone t s
  | .pfen h p q => Sys2Proof.Machine.execPfen h p q s
  | .pfenDone t => Sys2Proof.Machine.execPfenDone t s
  | .lease h m d base disp => Sys2Proof.Machine.execLease h m d base disp s
  | .leaseGrant t => Sys2Proof.Machine.execLeaseGrant t s
  | .leaseDeferredBegin t => Sys2Proof.Machine.execLeaseDeferredBegin t s
  | .leaseExpiry t => Sys2Proof.Machine.execLeaseExpiry t s
  | .nestedLeaseTimeout t => Sys2Proof.Machine.execNestedLeaseTimeout t s
  | .lrel h m => Sys2Proof.Machine.execLrel h m s
  | .pref h lvl m base off => Sys2Proof.Machine.execPref h lvl m base off s
  | .cinv h m base off => Sys2Proof.Machine.execCinv h m base off s
  | .cwb h m base off => Sys2Proof.Machine.execCwb h m base off s
  | .cpy h tok off => Sys2Proof.Machine.execCpy h tok off s
  | .cpyi h tok off => Sys2Proof.Machine.execCpyi h tok off s
  | .engineAccept op => Sys2Proof.Machine.execEngineAccept op s
  | .copyComplete op => Sys2Proof.Machine.execCopyComplete op s
  | .engineFaultStop op => Sys2Proof.Machine.execEngineFaultStop op s
  | .ringProducerResume op => Sys2Proof.Machine.execRingProducerResume op s
  | .kvx h tok off => Sys2Proof.Machine.execKvx h tok off s
  | .kvBlockAck op => Sys2Proof.Machine.execKvBlockAck op s
  | .kvNotify op => Sys2Proof.Machine.execKvNotify op s
  | .kvxComplete op => Sys2Proof.Machine.execKvxComplete op s
  | .kvPeerRefuse op => Sys2Proof.Machine.execKvPeerRefuse op s
  | .kvChannelFail pkg chan => Sys2Proof.Machine.execKvChannelFail pkg chan s
  | .kvq h d chan => Sys2Proof.Machine.execKvq h d chan s
  | .kvqRefresh c => Sys2Proof.Machine.execKvqRefresh c s
  | .coll h tok off => Sys2Proof.Machine.execColl h tok off s
  | .collComplete grp => Sys2Proof.Machine.execCollComplete grp s
  | .collAbort grp => Sys2Proof.Machine.execCollAbort grp s
  | .groupBroken grp => Sys2Proof.Machine.execGroupBroken grp s
  | .cgrpCreate h tok off => Sys2Proof.Machine.execCgrpCreate h tok off s
  | .cgrpFormed call => Sys2Proof.Machine.execCgrpFormed call s
  | .cgrpTimeout call => Sys2Proof.Machine.execCgrpTimeout call s
  | .cgrpFree h tok hd => Sys2Proof.Machine.execCgrpFree h tok hd s
  | .bra h disp => Sys2Proof.Machine.execBra h disp s
  | .brx h a => Sys2Proof.Machine.execBrx h a s
  | .call h d disp => Sys2Proof.Machine.execCall h d disp s
  | .callx h d a => Sys2Proof.Machine.execCallx h d a s
  | .ret h a => Sys2Proof.Machine.execRet h a s
  | .exit h => Sys2Proof.Machine.execExit h s
  | .enrol h m => Sys2Proof.Machine.execEnrol h m s
  | .join h m => Sys2Proof.Machine.execJoin h m s
  | .strike h m => Sys2Proof.Machine.execStrike h m s
  | .bar h n => Sys2Proof.Machine.execBar h n s
  | .yld h => Sys2Proof.Machine.execYld h s
  | .yldExclusionEnd t => Sys2Proof.Machine.execYldExclusionEnd t s
  | .sigw h cc m d base val => Sys2Proof.Machine.execSigw h cc m d base val s
  | .sigwRecheck t => Sys2Proof.Machine.execSigwRecheck t s
  | .sigs h add m base val => Sys2Proof.Machine.execSigs h add m base val s
  | .lnch h tok off => Sys2Proof.Machine.execLnch h tok off s
  | .papp h tok hd off => Sys2Proof.Machine.execPapp h tok hd off s
  | .dqry h tok hd off => Sys2Proof.Machine.execDqry h tok hd off s
  | .pcls h tok hd => Sys2Proof.Machine.execPcls h tok hd s
  | .poolAppend pkg => Sys2Proof.Machine.execPoolAppend pkg s
  | .poolClaim pkg => Sys2Proof.Machine.execPoolClaim pkg s
  | .poolClose pkg => Sys2Proof.Machine.execPoolClose pkg s
  | .rgn h => Sys2Proof.Machine.execRgn h s
  | .grow h d n => Sys2Proof.Machine.execGrow h d n s
  | .shrk h d n => Sys2Proof.Machine.execShrk h d n s
  | .srd h d n => Sys2Proof.Machine.execSrd h d n s
  | .swi h n => Sys2Proof.Machine.execSwi h n s
  | .brk h n => Sys2Proof.Machine.execBrk h n s
  | .sysr h d r => Sys2Proof.Machine.execSysr h d r s
  | .sysw h r a => Sys2Proof.Machine.execSysw h r a s
  | .scall h n => Sys2Proof.Machine.execScall h n s
  | .mcall h n => Sys2Proof.Machine.execMcall h n s
  | .eret h => Sys2Proof.Machine.execEret h s
  | .tlbi h kind a b => Sys2Proof.Machine.execTlbi h kind a b s
  | .tlbiInvalidation pkg id => Sys2Proof.Machine.execTlbiInvalidation pkg id s
  | .tlbiDone id => Sys2Proof.Machine.execTlbiDone id s
  | .wait h => Sys2Proof.Machine.execWait h s
  | .ctxwReg h r d a b => Sys2Proof.Machine.execCtxwReg h r d a b s
  | .ctxwNew h d a b => Sys2Proof.Machine.execCtxwNew h d a b s
  | .ctxwDel h d a b => Sys2Proof.Machine.execCtxwDel h d a b s
  | .ctxwQreg h d a b => Sys2Proof.Machine.execCtxwQreg h d a b s
  | .ctxwQdel h d a b => Sys2Proof.Machine.execCtxwQdel h d a b s
  | .ctxwPnew h d a b => Sys2Proof.Machine.execCtxwPnew h d a b s
  | .ctxwPdel h d a b => Sys2Proof.Machine.execCtxwPdel h d a b s
  | .ctxwQst h d a b => Sys2Proof.Machine.execCtxwQst h d a b s
  | .registerWrite ctx r x => Sys2Proof.Machine.execRegisterWrite ctx r x s
  | .heatCtlWrite pkg die x => Sys2Proof.Machine.execHeatCtlWrite pkg die x s
  | .resultDelivery t => Sys2Proof.Machine.execResultDelivery t s
  | .longWaitExpiry c => Sys2Proof.Machine.execLongWaitExpiry c s
  | .granuleFill w g => Sys2Proof.Machine.execGranuleFill w g s
  | .tokenComplete op => Sys2Proof.Machine.execTokenComplete op s
  | .fairnessUrgent t => Sys2Proof.Machine.execFairnessUrgent t s
  | .trapDelivery w => Sys2Proof.Machine.execTrapDelivery w s
  | .trapRecordPost ctx => Sys2Proof.Machine.execTrapRecordPost ctx s
  | .trapCmdFpc ctx => Sys2Proof.Machine.execTrapCmdFpc ctx s
  | .trapCmdNpc ctx => Sys2Proof.Machine.execTrapCmdNpc ctx s
  | .trapCmdRentry ctx => Sys2Proof.Machine.execTrapCmdRentry ctx s
  | .trapCmdTpc ctx => Sys2Proof.Machine.execTrapCmdTpc ctx s
  | .trapCmdExit ctx => Sys2Proof.Machine.execTrapCmdExit ctx s
  | .trapCidxReread ctx => Sys2Proof.Machine.execTrapCidxReread ctx s
  | .preempt team => Sys2Proof.Machine.execPreempt team s
  | .restore ctx image => Sys2Proof.Machine.execRestore ctx image s
  | .spoolFree ctx image => Sys2Proof.Machine.execSpoolFree ctx image s
  | .ancestorPreempt team => Sys2Proof.Machine.execAncestorPreempt team s
  | .rackStop pkg ctx epoch => Sys2Proof.Machine.execRackStop pkg ctx epoch s
  | .rackDrainEnd pkg ctx => Sys2Proof.Machine.execRackDrainEnd pkg ctx s
  | .stopped pkg ctx => Sys2Proof.Machine.execStopped pkg ctx s
  | .stopAckTimeout pkg ctx => Sys2Proof.Machine.execStopAckTimeout pkg ctx s
  | .resume pkg ctx epoch => Sys2Proof.Machine.execResume pkg ctx epoch s
  | .queuePacketLaunch q => Sys2Proof.Machine.execQueuePacketLaunch q s
  | .queuePacketWait q => Sys2Proof.Machine.execQueuePacketWait q s
  | .waitPacketRecheck q => Sys2Proof.Machine.execWaitPacketRecheck q s
  | .queuePacketSignal q => Sys2Proof.Machine.execQueuePacketSignal q s
  | .notifyWake pkg => Sys2Proof.Machine.execNotifyWake pkg s
  | .queueReread q => Sys2Proof.Machine.execQueueReread q s
  | .queueUnmap q => Sys2Proof.Machine.execQueueUnmap q s
  | .lotteryDraw pkg => Sys2Proof.Machine.execLotteryDraw pkg s
  | .teamPlace pkg die => Sys2Proof.Machine.execTeamPlace pkg die s
  | .teamSteal pkg die => Sys2Proof.Machine.execTeamSteal pkg die s
  | .mergeWindowClose pkg win => Sys2Proof.Machine.execMergeWindowClose pkg win s
  | .gridRetire g => Sys2Proof.Machine.execGridRetire g s
  | .gets m => Sys2Proof.Machine.execGets m s
  | .getm m => Sys2Proof.Machine.execGetm m s
  | .gete m => Sys2Proof.Machine.execGete m s
  | .directoryMerge pkg die line => Sys2Proof.Machine.execDirectoryMerge pkg die line s
  | .puts m => Sys2Proof.Machine.execPuts m s
  | .puto m => Sys2Proof.Machine.execPuto m s
  | .pack m => Sys2Proof.Machine.execPack m s
  | .wbs m => Sys2Proof.Machine.execWbs m s
  | .stm m => Sys2Proof.Machine.execStm m s
  | .atm m => Sys2Proof.Machine.execAtm m s
  | .inv m => Sys2Proof.Machine.execInv m s
  | .recallS m => Sys2Proof.Machine.execRecallS m s
  | .recallI m => Sys2Proof.Machine.execRecallI m s
  | .ack m => Sys2Proof.Machine.execAck m s
  | .done m => Sys2Proof.Machine.execDone m s
  | .probeResend m => Sys2Proof.Machine.execProbeResend m s
  | .replyTimeout pkg die line => Sys2Proof.Machine.execReplyTimeout pkg die line s
  | .migrationFreeze ctx va pkg die frame => Sys2Proof.Machine.execMigrationFreeze ctx va pkg die frame s
  | .migrationCopyDone mg => Sys2Proof.Machine.execMigrationCopyDone mg s
  | .migrationFlip mg => Sys2Proof.Machine.execMigrationFlip mg s
  | .openHome m => Sys2Proof.Machine.execOpenHome m s
  | .opened m => Sys2Proof.Machine.execOpened m s
  | .migrationAbandon mg => Sys2Proof.Machine.execMigrationAbandon mg s
  | .relay m => Sys2Proof.Machine.execRelay m s
  | .redirect m => Sys2Proof.Machine.execRedirect m s
  | .retranslate m => Sys2Proof.Machine.execRetranslate m s
  | .nothome m => Sys2Proof.Machine.execNothome m s
  | .stubRetire pkg die page => Sys2Proof.Machine.execStubRetire pkg die page s
  | .retire m => Sys2Proof.Machine.execRetire m s
  | .confirm m => Sys2Proof.Machine.execConfirm m s
  | .heatDecay pkg die => Sys2Proof.Machine.execHeatDecay pkg die s
  | .flitData pkg port => Sys2Proof.Machine.execFlitData pkg port s
  | .flitIdle pkg port => Sys2Proof.Machine.execFlitIdle pkg port s
  | .flitNack pkg port => Sys2Proof.Machine.execFlitNack pkg port s
  | .idleFlitSend pkg port => Sys2Proof.Machine.execIdleFlitSend pkg port s
  | .nackRepeat pkg port => Sys2Proof.Machine.execNackRepeat pkg port s
  | .portRetrain pkg port failed => Sys2Proof.Machine.execPortRetrain pkg port failed s
  | .e2eDeliver m => Sys2Proof.Machine.execE2eDeliver m s
  | .e2eAck m => Sys2Proof.Machine.execE2eAck m s
  | .e2eResend pkg dst cls eseq => Sys2Proof.Machine.execE2eResend pkg dst cls eseq s
  | .packageLost pkg => Sys2Proof.Machine.execPackageLost pkg s
  | .quiesceStop pkg => Sys2Proof.Machine.execQuiesceStop pkg s
  | .quiesceCut pkg => Sys2Proof.Machine.execQuiesceCut pkg s
  | .quiesceSettle pkg => Sys2Proof.Machine.execQuiesceSettle pkg s
  | .quiesceSave pkg => Sys2Proof.Machine.execQuiesceSave pkg s
  | .quiesceRecord ctx => Sys2Proof.Machine.execQuiesceRecord ctx s
  | .quiesceSweep pkg => Sys2Proof.Machine.execQuiesceSweep pkg s
  | .quiesceRebuild pkg => Sys2Proof.Machine.execQuiesceRebuild pkg s
  | .checkpointHandler ctx => Sys2Proof.Machine.execCheckpointHandler ctx s
  | .machineCheck => Sys2Proof.Machine.execMachineCheck s
  | .joinCmd pkg => Sys2Proof.Machine.execJoinCmd pkg s
  | .writePmap pkg => Sys2Proof.Machine.execWritePmap pkg s
  | .writeWindow pkg => Sys2Proof.Machine.execWriteWindow pkg s
  | .leaveCmd pkg => Sys2Proof.Machine.execLeaveCmd pkg s
  | .quote pkg nonce => Sys2Proof.Machine.execQuote pkg nonce s
  | .measureExtend pkg mr digest => Sys2Proof.Machine.execMeasureExtend pkg mr digest s
  | .powerOn pkg => Sys2Proof.Machine.execPowerOn pkg s
  | .packageReset pkg => Sys2Proof.Machine.execPackageReset pkg s
  | .watchdogExpiry pkg => Sys2Proof.Machine.execWatchdogExpiry pkg s
  | .lockstepMismatch pkg => Sys2Proof.Machine.execLockstepMismatch pkg s
  | .hostEventEntry c => Sys2Proof.Machine.execHostEventEntry c s
  | .fabricPacketDrop m => Sys2Proof.Machine.execFabricPacketDrop m s
  | .correctedError u loc => Sys2Proof.Machine.execCorrectedError u loc s
  | .selfTestDone u loc fails => Sys2Proof.Machine.execSelfTestDone u loc fails s
  | .uncorrectableError x => Sys2Proof.Machine.execUncorrectableError x s
  | .scrub pkg die row => Sys2Proof.Machine.execScrub pkg die row s
  | .scrubRateHalve pkg die => Sys2Proof.Machine.execScrubRateHalve pkg die s
  | .pcieInboundWrite pkg va bytes => Sys2Proof.Machine.execPcieInboundWrite pkg va bytes s
  | .mirrorApply pkg => Sys2Proof.Machine.execMirrorApply pkg s
  | .grant m => Sys2Proof.Machine.execGrant m s
  | .recallReply m => Sys2Proof.Machine.execRecallReply m s
  | .lnchGridAccept pkg => Sys2Proof.Machine.execLnchGridAccept pkg s
  | .kvPeerAccess pkg chan pull va bytes => Sys2Proof.Machine.execKvPeerAccess pkg chan pull va bytes s
  | .fabricManagerMessage pkg msg => Sys2Proof.Machine.execFabricManagerMessage pkg msg s
  | .trdDelivery t => Sys2Proof.Machine.execTrdDelivery t s
  | .arithmeticClockStep pkg die => Sys2Proof.Machine.execArithmeticClockStep pkg die s

end Sys2Proof.Machine
end

