-- ==== Sys2Proof/Machine/Events.lean ====
section
/-! DEFINITION. The steps that the part's own agents may take in a state, in the order in which the model looks at them (log entry 7). Each is listed where
it may be enabled; its meaning decides. Events that only the outside or firmware brings come through the agenda. -/

namespace Sys2Proof.Machine
namespace State

/-- Events of one thread. -/
def threadEvents (s : State) (t : ThreadId) (th : Thread) : List (State → Outcome) :=
  let n := s.now t.wave.core
  let tm := s.teamOf t
  (match th.lease with
    | some l => (if l.lines ≠ [] && l.deadline ≤ n then [execLeaseExpiry t] else [])
        ++ (if l.lines ≠ [] && l.want.isSome then [execNestedLeaseTimeout t] else [])
        ++ (if l.want.isSome then [execLeaseGrant t, execLeaseDeferredBegin t] else [])
    | none => [])
  ++ (match th.status with
    | .blocked (.fence _) => [execFenceDone t]
    | .blocked (.pfen _ _) => [execPfenDone t]
    | .blocked (.result _) => [execResultDelivery t]
    | .blocked (.fill gs) => gs.map (execGranuleFill t.wave)
    | .blocked (.sigw _ _ _ _ _ _ _ k) => if k + 1024 ≤ n ∨ (k = 0 ∧ n > 0) then [execSigwRecheck t] else []
    | .blocked (.tile _ _) => [execTileWaitEnd t]
    | .blocked (.trel b _) => [execTrelDone tm b]
    | .blocked (.trng b _) => [execTrngDone tm b]
    | .blocked (.mwait _) => [execMwaitEnd tm]
    | _ => [])
  ++ (if th.yldUntil.isSome then [execYldExclusionEnd t] else [])
  ++ (if th.pend = [] then [] else [execTrdDelivery t, execMxrWriteback t, execResultDelivery t])
  ++ (if th.runnable && th.urgent.isNone then [execFairnessUrgent t] else [])
  ++ (if th.trap.elim false fun x => !x.delivered then [execTrapDelivery t.wave] else [])

/-- Events of a core. -/
def coreEvents (s : State) (c : CoreId) : List (State → Outcome) :=
  let x := s.core c
  (if isHostCore c then [execHostEventEntry c] else [])
  ++ (if x.group = [] then [] else [execLongWaitExpiry c])
  ++ (if x.calls ≠ [] || s.ops.any (fun (_, o) => o.core = c && o.kind = .mma) then [execPatternProduct c 0] else [])
  ++ (if (s.pkg c.pkg).kv = [] then [] else [execKvqRefresh c])

/-- The time of a matrix operation has passed, or it takes its operands from a ring: a step looks for a fault of its operands then. -/
def mmaTimeOver (s : State) (n : Nat) : Bool :=
  (s.mmaActive n).elim false fun (o, a, b) => a.ring || b.ring || o.startAt.getD 0 + s.mmaTime o a b ≤ s.now o.core
/-- Events of an engine operation. -/
def opEvents (s : State) (n : Nat) (o : Op) : List (State → Outcome) :=
  match o.st, o.kind with
  | .completed _, _ => [execTokenComplete n]
  | _, .accld | _, .accst => [execAccMoveDone n]
  | .queued, .mma => [execMmaAccept n]
  | .active, .mma => if s.mmaTimeOver n then [execStreamTileConsume n, execMmaComplete n, execMmaFaultStop n] else []
  | .queued, .cpy | .queued, .cpyi | .queued, .kvx | .queued, .coll | .queued, .cgrp | .queued, .cgrpFree => [execEngineAccept n]
  | .active, .cpy | .active, .cpyi => [execCopyComplete n, execEngineFaultStop n]
  | .active, .kvx => [execKvxComplete n, execEngineFaultStop n]
  | .waitRing, .cpy => [execRingProducerResume n]
  | _, _ => []

/-- What a message of the network does where it arrives. -/
def msgEvent (n : Nat) (m : Msg) : State → Outcome :=
  match m.kind with
  | .gets => execGets n | .getm => execGetm n | .gete => execGete n | .stm => execStm n | .atm => execAtm n | .puts => execPuts n | .puto => execPuto n
  | .wbs => execWbs n | .pack => execPack n | .inv => execInv n | .recallS => execRecallS n | .recallI => execRecallI n | .ack => execAck n
  | .data => execRecallReply n | .done => execDone n | .retry => execProbeResend n | .grant => execGrant n | .openReq => execOpenHome n
  | .opened => execOpened n | .relay => execRelay n | .redirect => execRedirect n | .retranslate => execRetranslate n | .nothome => execNothome n
  | .retire => execRetire n | .confirm => execConfirm n

/-- Events of a context's trap queue. -/
def contextEvents (s : State) (k : Nat) (c : Context) : List (State → Outcome) :=
  (if c.regs.trapQueue.toNat / 4096 = 0 then []
    else (if c.post = [] then [] else [execTrapRecordPost k])
      ++ (if c.cdone < c.cseen then [execTrapCmdFpc k, execTrapCmdNpc k, execTrapCmdRentry k, execTrapCmdTpc k, execTrapCmdExit k] else [])
      ++ [execTrapCidxReread k])
  ++ c.stop.flatMap (fun (p, _) => [execRackDrainEnd p k, execStopped p k, execStopAckTimeout p k])
  ++ (if (s.pkg (s.ctxPkg k)).phase = .none then [] else [execQuiesceRecord k, execCheckpointHandler k])

/-- Events of a package's ports. -/
def portEvents (p k : Nat) (x : Port) : List (State → Outcome) :=
  (if x.rx = [] then [] else [execFlitData p k, execFlitIdle p k, execFlitNack p k]) ++ [execNackRepeat p k, execIdleFlitSend p k]

/-- Events of a package. -/
def pkgEvents (p : Nat) (k : Package) : List (State → Outcome) :=
  (if k.quiesce.isSome then [execQuiesceStop p] else [])
  ++ (if k.phase = .none then [] else [execQuiesceCut p, execQuiesceSettle p, execQuiesceSave p, execQuiesceSweep p, execQuiesceRebuild p])
  ++ (if k.wakes = [] then [] else [execNotifyWake p])
  ++ (if k.launches = [] then [] else [execLnchGridAccept p])
  ++ (List.range k.windows_.length).map (execMergeWindowClose p)
  ++ (if k.poolReqs = [] then [] else [execPoolAppend p, execPoolClaim p, execPoolClose p])
  ++ (if k.mirrorQ = [] then [] else [execMirrorApply p])
  ++ k.ports.flatMap (fun (j, x) => portEvents p j x)
  ++ k.send.flatMap fun ((q, c), y) => y.unacked.map fun x => execE2eResend p q c x.eseq

/-- Events of a die. -/
def dieEvents (p d : Nat) (x : Die) : List (State → Outcome) :=
  (x.dir.filterMap fun (b, e) => if e.busy.isSome then some (execReplyTimeout p d b) else none)
  ++ (x.stubs.filterMap fun u => if u.invalidated && !u.retiring then some (execStubRetire p d u.page) else none)
  ++ (if x.heat = [] then [] else [execHeatDecay p d])
  ++ (if x.scrub = 0 then [] else [execScrubRateHalve p d])

/-- Placement of pending teams: at the Bobbins that hold some, and of a package that holds a cooperative grid; then idle Bobbins steal. -/
def placeEvents (s : State) : List (State → Outcome) :=
  let coop := s.pkgs.filterMap fun (p, k) => if k.accepted.any fun g => (s.grid g).kern.coop then some (execTeamPlace p 0) else none
  let some_ := s.dies.any fun (_, x) => x.bobbin ≠ [] || x.lists ≠ []
  (s.dies.filterMap fun ((p, d), x) => if x.bobbin = [] then none else some (execTeamPlace p d))
  ++ coop
  ++ (if some_ then s.pkgs.flatMap fun (p, _) => (List.range 8).map fun d => execTeamSteal p d else [])

/-- The events that may be enabled. -/
def events (s : State) : List (State → Outcome) :=
  s.reports.map execPackageLost
  ++ (if s.mcheck then [execMachineCheck] else [])
  ++ s.pkgs.flatMap (fun (p, k) => pkgEvents p k)
  ++ s.net.map (fun (n, m) => msgEvent n m)
  ++ s.packets.flatMap (fun (n, x) => if x.isAck then [execE2eAck n, execFabricPacketDrop n] else [execE2eDeliver n, execFabricPacketDrop n])
  ++ s.threads.flatMap (fun (t, th) => s.threadEvents t th)
  ++ s.liveCores.flatMap s.coreEvents
  ++ s.ops.flatMap (fun (n, o) => s.opEvents n o)
  ++ s.groups.flatMap (fun (h, _) => [execCollComplete h, execCollAbort h, execGroupBroken h])
  ++ s.groupCalls.flatMap (fun (k, _) => [execCgrpFormed k, execCgrpTimeout k])
  ++ s.shootdowns.flatMap (fun (n, x) => x.todo.map (fun p => execTlbiInvalidation p n) ++ [execTlbiDone n])
  ++ s.migrations.flatMap (fun (n, g) => if g.ended then [] else [execMigrationCopyDone n, execMigrationFlip n, execMigrationAbandon n])
  ++ s.contexts.flatMap (fun (k, c) => s.contextEvents k c)
  ++ s.queues.flatMap (fun (n, _) => [execQueuePacketLaunch n, execQueuePacketWait n, execQueuePacketSignal n, execWaitPacketRecheck n, execQueueReread n, execQueueUnmap n])
  ++ (if s.queues = [] then [] else s.pkgs.map fun (p, _) => execLotteryDraw p)
  ++ s.grids.flatMap (fun (g, x) => if x.retired then [] else [execGridRetire g])
  ++ s.placeEvents
  ++ (s.teams.filterMap fun (n, x) => if x.place = .resident then some (execAncestorPreempt n) else none)
  ++ s.teams.flatMap (fun (_, x) => match x.place with | .spooled b => if x.hold then [] else [execRestore x.ctx b] | _ => [])
  ++ s.images.map (fun ((k, b), _) => execSpoolFree k b)
  ++ s.dies.flatMap fun ((p, d), x) => dieEvents p d x

end State
end Sys2Proof.Machine
end

