-- ==== Sys2Proof/Machine/Loader.lean ====
section
/-! DEFINITION. How an instruction comes to stand where the next step fetches (log entry 9): a small code page with its page table, one thread at its
word, the thread's core the next to move. It stands for the load of a program from outside. -/

namespace Sys2Proof.Machine
namespace State

/-- A page-table entry as bytes (Table 16.2): flags, key, frame; home package 0, die 0. -/
def pteBytes (flags key frame : Nat) : List Byte := leBytes (flags + key * 2 ^ 16 + frame * 2 ^ 64) 16

/-- The virtual address of the placed word. -/
def placedPc : Dword := 0x10000

/-- The code page of frame 5 of die 0 of package 0 at virtual page 1, under the root node of frame 1, for a context key. -/
def placePage (s : State) (key : Nat) (bytes : List Byte) : State :=
  let m := memStore s.mem (physAt 0 0 (1 * 65536)) (pteBytes 1 0 2)
  let m := memStore m (physAt 0 0 (2 * 65536)) (pteBytes 1 0 3)
  let m := memStore m (physAt 0 0 (3 * 65536)) (pteBytes 1 0 4)
  let m := memStore m (physAt 0 0 (4 * 65536 + 16)) (pteBytes 0x1F key 5)
  { s with mem := memStore m (physAt 0 0 (5 * 65536)) bytes }

/-- Whether a word is one of the host profile's (0x1E0 to 0x1E7). -/
def hostOnly (bytes : List Byte) : Bool :=
  let w := (wordOfBytes bytes).toNat
  w / 2 ^ 62 = 0 && 0x1E0 ≤ w / 2 ^ 53 && w / 2 ^ 53 ≤ 0x1E7

/-- A host core at the word. -/
def placeHost (s : State) (bytes : List Byte) : State :=
  let c : CoreId := ⟨0, 8, 0⟩
  let t := hostThread c
  let s := s.placePage 0 bytes
  let s := s.modDie 0 8 fun x => { x with walker := [] }
  let s := s.modHost c fun h => { h with hptb := 0x10000 }
  let s := s.setThread t { s.thread t with pc := placedPc, status := .runnable, lastPage := none }
  let s := s.modCore c fun x => { x with group := [t], runOpen := true, tlb := [] }
  { s with focus := c, agenda := [] }

/-- A thread of a compute core at the word: lane 0 of the one wave of a team of context 1. -/
def placeLane (s : State) (bytes : List Byte) : State :=
  let c : CoreId := ⟨0, 0, 0⟩
  let w : WaveId := ⟨c, 0⟩
  let t : ThreadId := ⟨w, 0⟩
  let s := s.placePage 1 bytes
  let s := s.modDie 0 0 fun x => { x with walker := [] }
  let s := s.setContext 1 { rootFrame := 1, sysPages := 0 }
  let s := s.setGrid 1 { ctx := 1, kern := { allot := 256, allotMax := 256, acc := 16, scratch := 64 } }
  let s := s.setTeam 1 { ctx := 1, grid := 1, core := c, place := .resident, waves := [w], scrKB := 64, scrZero := true, nacc := 16 }
  let s := s.setWave w { team := 1, allot := 256, live := true }
  let s := s.setThread t { pc := placedPc, status := .runnable }
  let s := s.modCore c fun x => { x with group := [t], runOpen := true, tlb := [] }
  { s with focus := c, agenda := [], nextId := max s.nextId 2 }

def placeInstr (s : State) (bytes : List Byte) : State := if hostOnly bytes then s.placeHost bytes else s.placeLane bytes

end State
end Sys2Proof.Machine
end

