-- ==== Sys2Proof/Machine/Step.lean ====
section
/-! DEFINITION. One step of the machine (log entry 7): an event that the agenda brings; else an event of the part's own agents; else the next word of the
core whose turn it is; else a cycle passes. -/

namespace Sys2Proof.Machine

/-- The state after the first of some events that is enabled. -/
def firstEnabled (s : State) : List (State → Outcome) → Option State
  | [] => none
  | e :: es =>
    match e s with
    | .next s' => some s'
    | _ => firstEnabled s es

/-- What follows the turn of the focus core, which was free to issue at cycle `r`: where a word issued, its cycles have passed on its own die and one
passes on the others; where none issued, one passes on every die; and another core's turn comes (log entries 7 and 8). -/
def afterWord (r : Nat) (s : State) : State :=
  (s.tickBut (if (s.core s.focus).readyAt = r then none else some (s.focus.pkg, s.focus.die))).rotate

/-- The next word of the core whose turn it is. -/
def issueStep (s : State) (c : CoreId) : Outcome :=
  let r := ((s.formGroup c).core c).readyAt
  match (s.formGroup c).fetchInstr with
  | (s, none) => .next (afterWord r s)
  | (s, some (.bad k n)) => .next (afterWord r (decodeFail k n s))
  | (s, some (.ok i)) =>
    match exec i s with
    | .next s => .next (afterWord r s)
    | .fault r => .fault r
    | .refused r => .refused r

def step (s : State) : Host.Outcome State Fault Refusal :=
  match s.agenda with
  | i :: rest => exec i { s with agenda := rest }
  | [] =>
    match firstEnabled s s.events with
    | some s' => .next s'
    | none =>
      match s.nextCore with
      | some c => issueStep s c
      | none => .next (s.tickBut none)

/-- The state with an instruction placed where the next step fetches (log entry 9). -/
def State.withFetchWord (s : State) (nbits w : Nat) : State := s.placeInstr (tableBytes nbits w)

end Sys2Proof.Machine
end

