-- ==== Sys2Proof/Safety.lean ====
section
/-! DEFINITION. What counts as a safe run, in the terms the statements use: when a word issues at once, what it leaves in the lanes, and what it leaves
as it was. -/

namespace Sys2Proof.Machine

/-- The invariant every step keeps: memory stays in its canonical form (R3, log entry 1). -/
abbrev State.MemOk (s : State) : Prop := Memory.wf s.mem = true

namespace State

-- when a word issues at once

/-- The address of the word that the group of the focus core issues. -/
abbrev wordPc (s : State) : Dword := (s.group.head?.map fun t => (s.thread t).pc).getD 0

/-- A thread of the group need not wait before a word: no decode trap (R71), no pending token (R36), no absent granule (R96), no result in flight that the word
must wait for (R97, R371), and none whose destination the word reads or writes (R98, R211, R225). -/
abbrev FreeToIssue (s : State) (i : Instr) (t : ThreadId) : Prop :=
  s.decodeTrap t i = none ∧ s.pendingFor t i = [] ∧ s.absentFor t i = [] ∧ s.waitUntil i t ≤ s.coreTime s.focus
    ∧ ∀ p ∈ (s.thread t).pend, touches (s.thread t) i p = false

/-- The focus core issues the word at once: it has a group, each member is a runnable thread of the core, listed once, at the word's address, and free to
issue; and no result of a thread of the core is due, which would arrive before the word. -/
abbrev Ready (s : State) (i : Instr) : Prop :=
  s.group ≠ [] ∧ s.group.Nodup
    ∧ (∀ t ∈ s.group, t.wave.core = s.focus ∧ (s.thread t).pc = s.wordPc ∧ s.FreeToIssue i t ∧ (s.thread t).runnable = true)
    ∧ ∀ t ∈ s.awaiting s.focus, ∀ p ∈ (s.thread t).pend, s.coreTime s.focus < p.due

/-- One thread of the group performs the word; the guards of the others bar it. -/
abbrev Solo (s : State) (i : Instr) (u : ThreadId) : Prop :=
  s.Ready i ∧ u ∈ s.group ∧ ∀ t ∈ s.group, activeIn i (s.thread t) = decide (t = u)

-- what lanes compute

/-- The operation whose sources a word reads; it writes nothing at issue. -/
abbrev readsOf (i : Instr) (_ : Thread) : List Micro := [{ microOf i fun _ => ⟨0, 0⟩ with dst := .zero }]

/-- What one operation of a word gives on a lane: none where its guard bars it or a source traps. -/
def outcome (s : State) (u : ThreadId) (m : Micro) : Option Res :=
  if (s.thread u).passes m.guard then
    match s.readOps u m.srcs with
    | .ok xs => some (m.f xs)
    | .error _ => none
  else none

/-- Every source an active operation reads can be read. -/
abbrev Readable (s : State) (ms : Thread → List Micro) : Prop :=
  ∀ u ∈ s.group, ∀ m ∈ ms (s.thread u), (s.thread u).passes m.guard = true → (s.readOps u m.srcs).isOk = true

/-- The sticky flags the operations of a word raise on a lane. -/
def raised (s : State) (u : ThreadId) (ms : List Micro) : Flags := ms.foldl (fun f m => (s.outcome u m).elim f fun r => f ||| r.flags) 0

end State

/-- A thread holds a result in its destination: v registers low word first, or a predicate other than `pt`. -/
def Thread.Holds (th : Thread) (d : DFld) (x : Dword) : Prop :=
  match d with
  | .reg (.v n) k _ _ | .vreg n k => ∀ j < (resWords k x).length, Map.find th.v (n + j) = some ((resWords k x).getD j 0)
  | .pred p => p < 7 → th.pred p = x.getLsbD 0
  | _ => True
/-- A wave holds a result in an s destination. -/
def Wave.Holds (w : Wave) (d : DFld) (x : Dword) : Prop :=
  match d with
  | .reg (.s n) k _ _ | .sreg n k => ∀ j < (resWords k x).length, w.sreg (n + j) = (resWords k x).getD j 0
  | _ => True

/-- The v registers an operation writes. -/
def Micro.vdst (m : Micro) : List Nat :=
  match m.dst with
  | .reg (.v n) k _ _ | .vreg n k => (List.range (if k = 2 then 2 else 1)).map (n + ·)
  | _ => []
/-- The s registers an operation writes. -/
def Micro.sdst (m : Micro) : List Nat :=
  match m.dst with
  | .reg (.s n) k _ _ | .sreg n k => (List.range (if k = 2 then 2 else 1)).map (n + ·)
  | _ => []

namespace State

/-- What a word of lanes leaves in its group: every active operation's result in its destination, an s destination with the result of the wave's last
active lane, the flags raised, and every member at the next word. -/
structure LaneDone (i : Instr) (ms : Thread → List Micro) (s t : State) : Prop where
  results : ∀ u ∈ s.group, ∀ m ∈ ms (s.thread u), ∀ r, s.outcome u m = some r → (t.thread u).Holds m.dst r.val
  scalars : ∀ u ∈ s.group, ∀ m ∈ ms (s.thread u), ∀ r, s.outcome u m = some r →
    (s.group.filter fun x => x.wave = u.wave && (s.thread x).passes m.guard).getLast? = some u → (t.wave u.wave).Holds m.dst r.val
  flags : ∀ u ∈ s.group, (t.thread u).flags = (s.thread u).flags ||| s.raised u (ms (s.thread u))
  pcs : ∀ u ∈ s.group, (t.thread u).pc = s.wordPc + BitVec.ofNat 64 i.size

end State

/-- A result in flight brings a value to a destination: `last` says whether the thread is the one whose value an s destination takes. -/
def Pending.Brings (p : Pending) (d : DFld) (last : Bool) (x : Dword) : Prop :=
  match d with
  | .reg (.v n) k _ _ | .vreg n k => p.vw = (List.range (resWords k x).length).map fun j => (n + j, (resWords k x).getD j 0)
  | .reg (.s n) k _ _ | .sreg n k => last = true → p.sw = (List.range (resWords k x).length).map fun j => (n + j, (resWords k x).getD j 0)
  | .pred q => p.pw = [(q, x.getLsbD 0)]
  | _ => True

namespace State

/-- The last thread of a wave in the group that has a result (R29). -/
abbrev lastWith (s : State) (o : ThreadId → Option Res) (u : ThreadId) : Bool :=
  (s.group.filter fun x => x.wave = u.wave && (o x).isSome).getLast? = some u

/-- What a long-latency word leaves in its group: each lane's result in flight, due `latency` cycles after the word's last issue cycle (R97, R144), with the
flags it will raise; no flag raised yet; and every member at the next word. -/
structure LongDone (i : Instr) (o : ThreadId → Option Res) (s t : State) : Prop where
  results : ∀ u ∈ s.group, ∀ r, o u = some r → ∃ p ∈ (t.thread u).pend, p.fault = none ∧ p.flags = r.flags
    ∧ p.due = (t.core s.focus).readyAt - 1 + latency i ∧ p.Brings (microOf i fun _ => r).dst (s.lastWith o u) r.val
  flags : ∀ u ∈ s.group, (t.thread u).flags = (s.thread u).flags
  pcs : ∀ u ∈ s.group, (t.thread u).pc = s.wordPc + BitVec.ofNat 64 i.size

end State

-- what a word leaves as it was

/-- A thread without its registers, predicates, flags, PC, upper operand levels and issue bookkeeping. -/
def Thread.others (th : Thread) : Thread :=
  { th with v := [], poisoned := [], preds := 0, flags := 0, pc := 0, latches := [], ocache := [], pend := [], issued := 0, last := 0, waitAcc := 0, waitSince := 0,
            urgent := none }
/-- A wave without its s registers and the record of uniform form. -/
def Wave.others (w : Wave) : Wave := { w with s := [], uniform := [] }
/-- A core without its run and its pipes. -/
def CoreSt.others (x : CoreSt) : CoreSt := { x with group := [], runOpen := false, lastGroup := [], readyAt := 0, wbHold := [], pipeCFree := 0 }
/-- A die without its cycle counter. -/
def Die.others (x : Die) : Die := { x with now := 0 }
/-- A state without the history of accesses and what registers depend on (log entry 3). -/
def State.present (s : State) : State := { s with trace := [], nextEv := 0, deps := [], tokens := [], wordEv := 0 }

namespace State

/-- A word of a group changes nothing but its threads' and waves' own registers: memory, teams (scratchpads, accumulators, operand buffers), contexts,
host registers, packages, operations and messages are as they were, and so is every other thread. The history of accesses may grow. -/
structure Kept (g : List ThreadId) (s t : State) : Prop where
  rest : { t.present with threads := s.threads, waves := s.waves, cores := s.cores, dies := s.dies } = s.present
  away : ∀ u, u ∉ g → t.thread u = s.thread u
  threads : ∀ u, (t.thread u).others = (s.thread u).others
  waves : ∀ w, (t.wave w).others = (s.wave w).others
  cores : ∀ c, (t.core c).others = (s.core c).others
  dies : ∀ p d, (t.die p d).others = (s.die p d).others

/-- Registers, predicates and s registers that no operation of a word names as destination or marks dead keep their values. -/
structure LaneKept (ms : Thread → List Micro) (s t : State) : Prop where
  regs : ∀ u n, (∀ m ∈ ms (s.thread u), (s.thread u).passes m.guard = true → n ∉ m.vdst ∧ n ∉ deadRegs m.srcs) →
    Map.find (t.thread u).v n = Map.find (s.thread u).v n ∧ (n ∈ (t.thread u).poisoned ↔ n ∈ (s.thread u).poisoned)
  preds : ∀ u p, (∀ m ∈ ms (s.thread u), (s.thread u).passes m.guard = true → m.dst ≠ .pred p) → (t.thread u).pred p = (s.thread u).pred p
  sregs : ∀ w n, (∀ th, ∀ m ∈ ms th, n ∉ m.sdst) → (t.wave w).sreg n = (s.wave w).sreg n

end State

-- the effect of a word that one thread performs

/-- A thread without its upper operand levels, and without the marks of uniform form and the dependencies of its results in flight. -/
def Thread.plain (th : Thread) : Thread := { th with latches := [], ocache := [], pend := th.pend.map fun p => { p with uni := false, deps := [] } }
/-- A wave without the record of uniform form. -/
def Wave.plain (w : Wave) : Wave := { w with uniform := [] }

namespace State

/-- Two states are alike: they differ at most in the upper operand levels, the records of uniform form (R93), the bookkeeping of runs and pipes, and the history of
accesses. -/
structure Alike (a b : State) : Prop where
  rest : { b.present with threads := a.threads, waves := a.waves, cores := a.cores } = a.present
  threads : ∀ u, (b.thread u).plain = (a.thread u).plain
  waves : ∀ w, (b.wave w).plain = (a.wave w).plain
  cores : ∀ c, (b.core c).others = (a.core c).others

/-- The threads of a word's group that perform it. -/
abbrev performers (s : State) (i : Instr) : List ThreadId := s.group.filter fun t => activeIn i (s.thread t)
/-- The state in which a word takes its effect: its cycles have passed, the PC of every member of its group is at the next word (R53, R91), and tokens it reads count
as read (R245). -/
abbrev begun (s : State) (i : Instr) : State :=
  (s.performers i).foldl (fun (s : State) t => s.readTokens t (sregsRead i)) (s.beginWord i s.group)
/-- The sources of a word. -/
abbrev srcsOf (i : Instr) : List (SrcD × OTy) := (microOf i fun _ => ⟨0, 0⟩).srcs
/-- The state in which the one thread that performs a word takes the word's effect: its dead marks are made (R66). -/
def readBy (s : State) (i : Instr) (u : ThreadId) : State := (s.begun i).tookReads u (srcsOf i)
/-- The same state, in which a memory word makes its access: accesses from here on are the word's own (log entry 3). -/
def accessBy (s : State) (i : Instr) (u : ThreadId) : State := { s.readBy i u with wordEv := (s.begun i).nextEv }


/-- The registers of threads and waves are the same. -/
structure SameRegs (s t : State) : Prop where
  v : ∀ u, (t.thread u).v = (s.thread u).v
  poisoned : ∀ u, (t.thread u).poisoned = (s.thread u).poisoned
  preds : ∀ u, (t.thread u).preds = (s.thread u).preds
  flags : ∀ u, (t.thread u).flags = (s.thread u).flags
  pc : ∀ u, (t.thread u).pc = (s.thread u).pc
  s : ∀ w, (t.wave w).s = (s.wave w).s

/-- What a memory word leaves of the access of its one lane: a result in flight, where the word has one, with the load it is the value of. -/
def landed (s : State) (i : Instr) (u : ThreadId) (pc : Dword) (ws : List Word) (fl : Flags) (ld : Option LoadOf) (es : List Nat) : State :=
  if i.shape.elim false (·.long) then s.addPend u { s.pendWords u i pc true ws fl with load := ld, deps := es } else s

end State

-- the operations of the words of lanes, from the tables of chapter 7

/-- Integer arithmetic (Table 7.2): the exact result, wrapped or clamped (R146). -/
def Spec.intOp : Instr → Option (Thread → List Dword → Res)
  | .iadd _ t sat _ _ _ => some fun _ xs => intRes t sat (intOf t (arg xs 0) + intOf t (arg xs 1))
  | .isub _ t sat _ _ _ => some fun _ xs => intRes t sat (intOf t (arg xs 0) - intOf t (arg xs 1))
  | .imul _ t sat _ _ _ => some fun _ xs => intRes t sat (intOf t (arg xs 0) * intOf t (arg xs 1))
  | .imulh _ t _ _ _ => some fun _ xs => intRes t false (intOf t (arg xs 0) * intOf t (arg xs 1) / 2 ^ t.width)
  | .imad _ t _ _ _ _ => some fun _ xs => intRes t false (intOf t (arg xs 0) * intOf t (arg xs 1) + intOf t (arg xs 2))
  | .imin _ t _ _ _ => some fun _ xs => intRes t false (min (intOf t (arg xs 0)) (intOf t (arg xs 1)))
  | .imax _ t _ _ _ => some fun _ xs => intRes t false (max (intOf t (arg xs 0)) (intOf t (arg xs 1)))
  | .iabs _ t sat _ _ => some fun _ xs => intRes t sat (intOf t (arg xs 0)).natAbs
  | .ineg _ t sat _ _ => some fun _ xs => intRes t sat (-intOf t (arg xs 0))
  | .idif _ t _ _ _ => some fun _ xs => bitRes t (intOf t (arg xs 0) - intOf t (arg xs 1)).natAbs
  | .isad _ t _ _ _ _ => some fun _ xs => intRes t false ((intOf t (arg xs 0) - intOf t (arg xs 1)).natAbs + intOf t (arg xs 2))
  | _ => none

/-- Logic and bit operations (Table 7.3, R148 to R150). -/
def Spec.bitOp : Instr → Option (Thread → List Dword → Res)
  | .and _ t _ _ _ => some fun _ xs => bitRes t (arg xs 0 &&& arg xs 1).toNat
  | .or _ t _ _ _ => some fun _ xs => bitRes t (arg xs 0 ||| arg xs 1).toNat
  | .xor _ t _ _ _ => some fun _ xs => bitRes t (arg xs 0 ^^^ arg xs 1).toNat
  | .not _ t _ _ => some fun _ xs => bitRes t (~~~arg xs 0).toNat
  | .andn _ t _ _ _ => some fun _ xs => bitRes t (arg xs 0 &&& ~~~arg xs 1).toNat
  | .shl _ t _ _ _ => some fun _ xs =>
    bitRes t (if (arg xs 1).toNat % 256 ≥ t.width then 0 else (arg xs 0).toNat * 2 ^ ((arg xs 1).toNat % 256))
  | .shr _ t _ _ _ => some fun _ xs =>
    bitRes t (if (arg xs 1).toNat % 256 ≥ t.width then 0 else (arg xs 0).toNat / 2 ^ ((arg xs 1).toNat % 256))
  | .sar _ t _ _ _ => some fun _ xs => sarRes t xs
  | .rol _ t _ _ _ => some fun _ xs => rolRes t xs
  | .bfx _ t _ _ _ => some fun _ xs => bfxRes t xs
  | .bfi _ t _ _ _ _ => some fun _ xs => bfiRes t xs
  | .popc _ t _ _ => some fun _ xs => popcRes t xs
  | .clz _ t _ _ => some fun _ xs => clzRes t xs
  | .brev _ t _ _ => some fun _ xs => brevRes t xs
  | .ffs _ t _ _ => some fun _ xs => ffsRes t xs
  | .bysel _ _ _ _ _ => some fun _ xs => byselRes xs
  | _ => none

/-- Compares, selects, predicate logic, addresses and moves (R151 to R155). -/
def Spec.moveOp : Instr → Option (Thread → List Dword → Res)
  | .icmp _ cc t _ _ _ => some fun _ xs => boolRes (iccHolds cc (intOf t (arg xs 0)) (intOf t (arg xs 1)))
  | .sel _ _ _ _ _ pc => some fun th xs => ⟨if th.pred pc then arg xs 0 else arg xs 1, 0⟩
  | .plop _ _ pa pb tt => some fun th _ => boolRes (tt.testBit ((if th.pred pa then 2 else 0) + (if th.pred pb then 1 else 0)))
  | .lea _ n32 k _ _ _ _ => some fun _ xs =>
    ⟨arg xs 0 + BitVec.ofInt 64 (intOf (if n32 then .n32 else .i32) (arg xs 1) * 2 ^ k + intOf .i32 (arg xs 2)), 0⟩
  | .mov _ t _ _ => some fun _ xs => ⟨extend t (intOf t (arg xs 0)), 0⟩
  | _ => none

/-- Floating arithmetic and conversions (R157 to R168). -/
def Spec.floatOp : Instr → Option (Thread → List Dword → Res)
  | .fadd _ f r sat _ _ _ => some fun _ xs => fltRes (faddBits r sat f (arg xs 0).toNat (arg xs 1).toNat)
  | .fsub _ f r sat _ _ _ => some fun _ xs => fltRes (fsubBits r sat f (arg xs 0).toNat (arg xs 1).toNat)
  | .fmul _ f r sat _ _ _ => some fun _ xs => fltRes (fmulBits r sat f (arg xs 0).toNat (arg xs 1).toNat)
  | .ffma _ f r _ _ _ _ => some fun _ xs => fltRes (ffmaBits r f (arg xs 0).toNat (arg xs 1).toNat (arg xs 2).toNat)
  | .fmin _ f _ _ _ => some fun _ xs => fltRes (fminmaxBits false f (arg xs 0).toNat (arg xs 1).toNat)
  | .fmax _ f _ _ _ => some fun _ xs => fltRes (fminmaxBits true f (arg xs 0).toNat (arg xs 1).toNat)
  | .fabs _ f _ _ => some fun _ xs => ⟨BitVec.ofNat 64 ((arg xs 0).toNat % f.signBit), 0⟩
  | .fneg _ f _ _ => some fun _ xs => ⟨BitVec.ofNat 64 (fnegBits f (arg xs 0).toNat), 0⟩
  | .fcmp _ cc f _ _ _ => some fun _ xs =>
    boolRes (fcmpBits cc f (arg xs 0).toNat (arg xs 1).toNat).1 (fcmpBits cc f (arg xs 0).toNat (arg xs 1).toNat).2
  | .fcls _ f _ _ => some fun _ xs => ⟨BitVec.ofNat 64 (fclsBits f (arg xs 0).toNat), 0⟩
  | .ffrc _ f _ _ => some fun _ xs => fltRes (ffrcBits f (arg xs 0).toNat)
  | .frnd _ f r _ _ => some fun _ xs => fltRes (frndBits r f (arg xs 0).toNat)
  | .fscl _ f r sat _ _ _ => some fun _ xs => fltRes (fsclBits r sat f (arg xs 0).toNat (intOf .i32 (arg xs 1)))
  | .cvt _ r sat dt st _ _ => some fun _ xs => cvtRes r sat dt st (arg xs 0)
  | .cvup _ f k _ _ => some fun _ xs => fltRes (cvtFF .rne false f .f32 ((arg xs 0).toNat / 2 ^ (f.width * k) % 2 ^ f.width))
  | _ => none

/-- The scalar unit (R179 to R181). -/
def Spec.scalarOp : Instr → Option (Thread → List Dword → Res)
  | .sadd _ t sat _ _ _ => some fun _ xs => intRes t sat (intOf t (arg xs 0) + intOf t (arg xs 1))
  | .ssub _ t sat _ _ _ => some fun _ xs => intRes t sat (intOf t (arg xs 0) - intOf t (arg xs 1))
  | .smul _ t sat _ _ _ => some fun _ xs => intRes t sat (intOf t (arg xs 0) * intOf t (arg xs 1))
  | .sand _ t _ _ _ => some fun _ xs => bitRes t (arg xs 0 &&& arg xs 1).toNat
  | .sor _ t _ _ _ => some fun _ xs => bitRes t (arg xs 0 ||| arg xs 1).toNat
  | .sxor _ t _ _ _ => some fun _ xs => bitRes t (arg xs 0 ^^^ arg xs 1).toNat
  | .sshl _ t _ _ _ => some fun _ xs => shlRes t xs
  | .sshr _ t _ _ _ => some fun _ xs => shrRes t xs
  | .ssar _ t _ _ _ => some fun _ xs => sarRes t xs
  | .smin _ t _ _ _ => some fun _ xs => intRes t false (min (intOf t (arg xs 0)) (intOf t (arg xs 1)))
  | .smax _ t _ _ _ => some fun _ xs => intRes t false (max (intOf t (arg xs 0)) (intOf t (arg xs 1)))
  | .scmp _ cc t _ _ _ => some fun _ xs => boolRes (iccHolds cc (intOf t (arg xs 0)) (intOf t (arg xs 1)))
  | .smov _ t _ _ => some fun _ xs => ⟨extend t (intOf t (arg xs 0)), 0⟩
  | .ssel _ _ _ _ _ _ => some fun _ xs => ⟨if arg xs 2 ≠ 0 then arg xs 0 else arg xs 1, 0⟩
  | .slea _ n32 k _ _ _ _ => some fun _ xs =>
    ⟨arg xs 0 + BitVec.ofInt 64 (intOf (if n32 then .n32 else .i32) (arg xs 1) * 2 ^ k + intOf .i32 (arg xs 2)), 0⟩
  | _ => none

/-- Special functions and integer division (R169, R170). -/
def Spec.pipeCOp : Instr → Option (List Dword → Res)
  | .frcp _ _ _ => some fun xs => fltRes (Special.frcp (arg xs 0).toNat)
  | .frsq _ _ _ => some fun xs => fltRes (Special.frsq (arg xs 0).toNat)
  | .fsqrt _ _ _ => some fun xs => fltRes (Special.fsqrt (arg xs 0).toNat)
  | .fexp2 _ _ _ => some fun xs => fltRes (Special.fexp2 (arg xs 0).toNat)
  | .flog2 _ _ _ => some fun xs => fltRes (Special.flog2 (arg xs 0).toNat)
  | .fsin _ _ _ => some fun xs => fltRes (Special.fsin (arg xs 0).toNat)
  | .fcos _ _ _ => some fun xs => fltRes (Special.fcos (arg xs 0).toNat)
  | .ftanh _ _ _ => some fun xs => fltRes (Special.ftanh (arg xs 0).toNat)
  | .idiv _ t _ _ _ => some fun xs => idivRes t xs
  | .irem _ t _ _ _ => some fun xs => iremRes t xs
  | _ => none

/-- The value of operand 0 that a member of a lane-exchange word supplies: zero where its read of that operand traps (R171). -/
def Spec.suppliedBy (s : State) (i : Instr) (v : ThreadId) : Dword :=
  match (microOf i fun _ => ⟨0, 0⟩).srcs.head? with
  | some (x, ty) => (match s.readOp v x.src ty with | .ok y => y | .error _ => 0)
  | none => 0

/-- The value operand 0 has in lane `l`; `dflt` where the lane is no member of the group (R171, R172). -/
def Spec.supplied (s : State) (i : Instr) (l : Nat) (dflt : Dword) : Dword :=
  match s.group.find? fun v => v.lane = l with
  | none => dflt
  | some v => Spec.suppliedBy s i v

/-- The values of the active lanes of a word, in lane order (R174 to R176). -/
def Spec.actives (s : State) (i : Instr) : List (Nat × Dword) :=
  (s.group.filter fun v => (s.thread v).passes (microOf i fun _ => ⟨0, 0⟩).guard).map fun v => (v.lane, Spec.suppliedBy s i v)

/-- Lane exchange (R171 to R178): what a word gives on an active lane from its own operands; none where it leaves the lane as it is. -/
def Spec.exchangeOp (s : State) : Instr → Option (ThreadId → List Dword → Option Res)
  | i@(.xget _ _ g _ _ _) => some fun u xs =>
    let w := Seg.width g
    some ⟨Spec.supplied s i (u.lane / w * w + index (arg xs 1) % w) (arg xs 0), 0⟩
  | i@(.xrot _ _ g _ _ _) => some fun u xs =>
    let w := Seg.width g
    some ⟨Spec.supplied s i (u.lane / w * w + (u.lane % w + index (arg xs 1)) % w) (arg xs 0), 0⟩
  | i@(.xflip _ _ g _ _ _) => some fun u xs =>
    let w := Seg.width g
    some ⟨Spec.supplied s i (u.lane / w * w + (u.lane % w ^^^ index (arg xs 1) % w) % w) (arg xs 0), 0⟩
  | i@(.xrev _ _ g _ _) => some fun u xs =>
    let w := Seg.width g
    some ⟨Spec.supplied s i (u.lane / w * w + (w - 1 - u.lane % w) % w) (arg xs 0), 0⟩
  | i@(.bcst _ _ _ _ _) => some fun u xs => some ⟨Spec.supplied s i (u.lane / 32 * 32 + index (arg xs 1) % 32) (arg xs 0), 0⟩
  | .pcol h op neg _ pa => some fun _ _ =>
    some (pcolRes op ((s.group.filter fun v => (s.thread v).passes h.guard).map fun v => (v.lane, (s.thread v).pred pa != neg)))
  | i@(.lmat _ _ _ _) => some fun _ xs =>
    some ⟨BitVec.ofNat 64 (((Spec.actives s i).filter fun y => y.2 = arg xs 0).foldl (fun n y => n + 2 ^ y.1) 0), 0⟩
  | i@(.lred _ op t sat _ _) => some fun _ _ => some (lredRes op t sat ((Spec.actives s i).map (·.2)))
  | .sbc _ t _ a => some fun u _ => some ⟨sregVal s u.wave a t.regs, 0⟩
  | i@(.lget _ _ _ _ _) => some fun u xs => some ⟨Spec.supplied s i (u.lane / 32 * 32 + index (arg xs 1) % 32) (arg xs 0), 0⟩
  | .lset _ t _ a _ => some fun u xs => if u.lane = index (arg xs 0) % 32 then some ⟨sregVal s u.wave a t.regs, 0⟩ else none
  | _ => none

/-- Every word of a table completes where it can issue and its sources can be read, and leaves its results. -/
def Spec.LaneWords (op : Instr → Option (Thread → List Dword → Res)) : Prop :=
  ∀ (i : Instr) (f : Thread → List Dword → Res) (s : State), op i = some f → s.Ready i → s.Readable (fun th => [microOf i (f th)]) →
    ∃ t, exec i s = .next t ∧ State.LaneDone i (fun th => [microOf i (f th)]) s t

/-- The operations of every word that writes one result per lane at issue. -/
def Spec.laneOp (i : Instr) : Option (Thread → List Dword → Res) :=
  Spec.intOp i <|> Spec.bitOp i <|> Spec.moveOp i <|> Spec.floatOp i <|> Spec.scalarOp i

/-- The operations of a pair word. -/
def Spec.halves (a b : Option Half) (_ : Thread) : List Micro := a.toList.map Half.micro ++ b.toList.map Half.micro

/-- The result of a word of pipe C on a lane. -/
def Spec.pipeCRes (s : State) (i : Instr) (f : List Dword → Res) (u : ThreadId) : Option Res := s.outcome u (microOf i f)

/-- The result of a lane-exchange word on a lane: none where its guard bars it. -/
def Spec.exchangeRes (s : State) (i : Instr) (f : ThreadId → List Dword → Option Res) (u : ThreadId) : Option Res :=
  if (s.thread u).passes (microOf i fun _ => ⟨0, 0⟩).guard then
    match s.readOps u (microOf i fun _ => ⟨0, 0⟩).srcs with
    | .ok xs => f u xs
    | .error _ => none
  else none

-- control

/-- Where a transfer goes: the address of the word, and its operands (R355, R357). -/
def Spec.goes : Instr → Option (Dword → List Dword → Dword)
  | .bra _ n | .call _ _ n => some fun pc _ => pc + BitVec.ofInt 64 (8 * n)
  | .brx _ _ | .callx _ _ _ | .ret _ _ => some fun _ xs => arg xs 0
  | _ => none
/-- The pair that receives the link (R357). -/
def Spec.links : Instr → Option Nat
  | .call _ d _ | .callx _ d _ => some d
  | _ => none
/-- A target whose low bits are zero and whose top bits repeat bit 56 (R43, R53). -/
def Spec.targetOk (x : Dword) : Prop := x.toNat % 8 = 0 ∧ sxOk x = true

/-- A word that one thread performs leaves an effect: from the state in which the word has begun and made its dead marks, the performing thread, the word's
address and its operands. -/
def Spec.Does (i : Instr) (need : State → ThreadId → Dword → List Dword → Prop) (eff : State → ThreadId → Dword → List Dword → State) : Prop :=
  ∀ (s : State) (u : ThreadId) (xs : List Dword), s.Solo i u → s.readOps u (State.srcsOf i) = .ok xs → need (s.readBy i u) u s.wordPc xs →
    ∃ t, exec i s = .next t ∧ State.Alike (eff (s.readBy i u) u s.wordPc xs) t

/-- The same, where what the word finds decides what it leaves. -/
def Spec.Leaves (i : Instr) (rel : State → ThreadId → Dword → List Dword → State → Prop) : Prop :=
  ∀ (s : State) (u : ThreadId) (xs : List Dword) (x : State), s.Solo i u → s.readOps u (State.srcsOf i) = .ok xs → rel (s.readBy i u) u s.wordPc xs x →
    ∃ t, exec i s = .next t ∧ State.Alike x t

/-- The level of a host thread. -/
abbrev Spec.level (s : State) (u : ThreadId) : Nat := State.priv (s.host u.wave.core)
/-- Where `ERET` goes (R378). -/
abbrev Spec.returnPc (s : State) (u : ThreadId) : Dword := if Spec.level s u = 1 then (s.host u.wave.core).epcK else (s.host u.wave.core).epcM
/-- No demand on the state. -/
abbrev Spec.always (_ : State) (_ : ThreadId) (_ : Dword) (_ : List Dword) : Prop := True

-- system words

/-- The 64-bit answer of a `CTXW` command in its pair. -/
abbrev Spec.answer (s : State) (u : ThreadId) (d : Dst) (x : Dword) : State := s.writeDst u d [lo32 x, hi32 x]
/-- A `CTXW` answer of status and result (R381). -/
abbrev Spec.status (s : State) (u : ThreadId) (d : Dst) (st res : Nat) : State := Spec.answer s u d (BitVec.ofNat 64 (st * 2 ^ 24 + res))
/-- The number that a 32-bit field of a source gives. -/
abbrev Spec.num (x : Dword) : Nat := x.toNat % 2 ^ 32

/-- The level that a system word needs (R374, Table 15.3). -/
def Spec.needsLevel : Instr → Option Nat
  | .sysr _ _ r => some (match r with | .hcore | .htime => 0 | .mvec | .epcM | .ecauseM | .eaddrM | .mscr => 2 | _ => 1)
  | .sysw _ r _ => some (match r with | .hcore | .htime => 0 | .kvec | .mvec | .epcM | .ecauseM | .eaddrM | .mscr => 2 | _ => 1)
  | .mcall _ _ | .eret _ | .tlbi _ _ _ _ | .wait _ | .ctxwReg _ _ _ _ _ | .ctxwNew _ _ _ _ | .ctxwDel _ _ _ _ | .ctxwQreg _ _ _ _ | .ctxwQdel _ _ _ _
  | .ctxwPnew _ _ _ _ | .ctxwPdel _ _ _ _ | .ctxwQst _ _ _ _ => some 1
  | _ => none

/-- The bits of a system register that a write sets from its operand (Tables 15.4 to 15.6, R377). -/
def Spec.writable (h : HostRegs) : SysReg → Nat
  | .hstat => if State.priv h = 2 then 0x1FC else 0x03C
  | .hcore | .htime | .hpend => 0
  | .ecauseK | .ecauseM => 0x7FFFF
  | .hmask => 0x1F
  | .hptb => 0x1FFFFFFFFFFFFFF
  | _ => 2 ^ 64 - 1
/-- The field of the host registers that holds a system register. -/
def Spec.hostReg (h : HostRegs) : SysReg → Dword
  | .hstat => h.hstat | .kvec => h.kvec | .mvec => h.mvec | .epcK => h.epcK | .epcM => h.epcM | .ecauseK => h.ecauseK | .ecauseM => h.ecauseM
  | .eaddrK => h.eaddrK | .eaddrM => h.eaddrM | .kscr => h.kscr | .mscr => h.mscr | .hpend => h.hpend | .hmask => h.hmask | .hptb => h.hptb
  | .hcore | .htime => 0

/-- The 64-bit record of `CTXW` register writes: the value stored, by the limits of Tables 2.4 to 2.12 (R49, R50). -/
def Spec.ctxStored (old : CtxRegs) : CtxReg → Nat → Nat
  | .ctxFlags, x => x % 8
  | .fairPeriod, x => min 65536 (max 256 (x % 2 ^ 17))
  | .leaseMax, x => min 512 (max 16 (x % 1024))
  | .schedSeed, x => if x % 2 ^ 32 = 0 then 1 else x % 2 ^ 32
  | .storeSplit, x =>
    let r := x % 32
    let c := x / 256 % 32
    let err : Nat := if old.storeSplit.getLsbD 31 && !(x.testBit 31) then 2 ^ 31 else 0
    if 4 ≤ r ∧ r ≤ 16 ∧ c ≤ 24 ∧ 64 * r + 32 * c + 128 ≤ 1536 then r + 256 * c + err else old.storeSplit.toNat % 2 ^ 31 + 2 ^ 31
  | .trapQueue, x => (BitVec.ofNat 57 (min 10 (x % 16) + x / 4096 * 4096)).signExtend 64 |>.toNat
  | .spoolBase, x => (BitVec.ofNat 57 (x / 65536 * 65536)).signExtend 64 |>.toNat
  | .chkHandler, x => (BitVec.ofNat 57 (x / 8 * 8)).signExtend 64 |>.toNat

/-- A pool as `CTXW.pnew` makes it: the record size in [1:0] and the capacity in [6:2] of its second operand (R351, Table 15.7). -/
def Spec.newPool (ctx y : Nat) : Pool := { ctx, recSize := 8 * 2 ^ (y % 4), cap := 2 ^ (y / 4 % 32) }

-- memory words

/-- The address of a memory word: base, and offset times the access size where indexed; 32 bits outside `.g`, `.s` and `.k` (R278). -/
def Spec.address (m : MOp) (z : Nat) (base off : Dword) : Dword :=
  let x : Int := (off.setWidth 32).toInt * (if m.idx then (z : Int) else 1)
  if m.spc = .g ∨ m.spc = .s ∨ m.spc = .k then base + BitVec.ofInt 64 x else BitVec.ofNat 64 ((base + BitVec.ofInt 64 x).toNat % 2 ^ 32)

/-- A word of one lane has a result in flight, without a fault: the words of its destination (R97, R281). -/
def Spec.InFlight (t : State) (i : Instr) (u : ThreadId) (ws : List Word) : Prop :=
  ∃ p ∈ (t.thread u).pend, p.fault = none ∧ (match (microOf i fun _ => ⟨0, 0⟩).dst with
    | .reg (.v n) _ _ _ | .vreg n _ | .data (.v n) _ => p.vw = (List.range ws.length).map fun j => (n + j, ws.getD j 0)
    | .reg (.s n) _ _ _ | .sreg n _ | .data (.s n) _ => p.sw = (List.range ws.length).map fun j => (n + j, ws.getD j 0)
    | _ => True)

/-- The words that a load of a type leaves: sign- or zero-extended to a register or a pair; four words for `.b128` (R115, R281). -/
def Spec.loaded (ty : OTy) (bs : List Byte) : List Word :=
  if ty = .b128 then [0, 1, 2, 3].map fun k => BitVec.ofNat 32 (leNat ((bs.drop (4 * k)).take 4))
  else resWords ty.regs (if ty.signed then BitVec.ofInt 64 (((leNat bs : Nat) : Int).bmod (2 ^ ty.width)) else BitVec.ofNat 64 (leNat bs))

/-- The new value of an RMW of `w` bits (Table 12.5). -/
def Spec.rmw (op : AtomOp) (wide : Bool) (o y : Nat) : Nat :=
  let w := if wide then 64 else 32
  let f : FFmt := if wide then .f64 else .f32
  let sg (x : Nat) : Int := (x : Int).bmod (2 ^ w)
  match op with
  | .add => (o + y) % 2 ^ w
  | .mins => if sg y < sg o then y else o
  | .maxs => if sg o < sg y then y else o
  | .minu => min o y
  | .maxu => max o y
  | .and => o &&& y
  | .or => o ||| y
  | .xor => o ^^^ y
  | .exch => y
  | .fadd => (faddBits .rne false f o y).1 % 2 ^ w
  | .fmin => (fminmaxBits false f o y).1 % 2 ^ w
  | .fmax => (fminmaxBits true f o y).1 % 2 ^ w
  | .inc => if o ≥ y then 0 else o + 1

/-- Memory but for `n` bytes from an address reads as before. -/
def Spec.MemBut (s t : State) (a n : Nat) : Prop := ∀ k, ¬(a ≤ k ∧ k < a + n) → memRead t.mem k = memRead s.mem k

/-- Bytes stand at a place, and every other byte of memory, of scratchpads and of registers reads as before. -/
def Spec.Placed (s t : State) (l : Loc) (bs : List Byte) : Prop :=
  match l with
  | .mem pa => memBytes t.mem pa bs.length = bs ∧ Spec.MemBut s t pa bs.length ∧ ∀ tm k, t.scrByte tm k = s.scrByte tm k
  | .scr tm off => t.scrBytes tm off bs.length = bs ∧ t.mem = s.mem ∧ ∀ n k, ¬(n = tm ∧ off ≤ k ∧ k < off + bs.length) → t.scrByte n k = s.scrByte n k
  | .win v n k => t.winBytes v n k bs.length = bs ∧ t.mem = s.mem ∧ (∀ tm j, t.scrByte tm j = s.scrByte tm j)
    ∧ (∀ j < 4, ¬(k ≤ j ∧ j < k + bs.length) → t.winBytes v n j 1 = s.winBytes v n j 1)
    ∧ ∀ w r, ¬(w = v ∧ r = n) → Map.find (t.thread w).v r = Map.find (s.thread w).v r

/-- A store of the history that an access of a place may meet in another order than that of their performance: another agent's, or one on another path (R235, R244). -/
def Spec.contested (s : State) (e : Ev) (l : Loc) (z : Nat) : Prop := ∃ w ∈ s.trace, Order.foreign { e with base := l, len := z } w = true
/-- A byte is one of a history's versions of a location: some store wrote it, or it was there before all. -/
def Spec.version (s : State) (b : Loc) (x : Byte) : Prop := x ∈ (Order.versions s.trace b).map (·.2)
/-- The bytes that a load of a place returns: those that stand there; where the place is contested, each may be another version of its byte (R239, log entry 3). -/
def Spec.returns (s : State) (e : Ev) (l : Loc) (z : Nat) (bs : List Byte) : Prop :=
  bs.length = (s.readLoc l z).length ∧ (¬ Spec.contested s e l z → bs = s.readLoc l z)
    ∧ ∀ j < bs.length, bs[j]? = (s.readLoc l z)[j]? ∨ Spec.version s (Order.byteAt l j) (bs.getD j 0)
/-- What a store leaves at a place: its bytes; where the place is contested, each byte may be another version, whose store stands later in the coherence order (R234,
log entry 3). -/
def Spec.Stored (s t : State) (e : Ev) (l : Loc) (bs : List Byte) : Prop :=
  ∃ out, out.length = bs.length ∧ Spec.Placed s t l out ∧ (¬ Spec.contested s e l bs.length → out = bs)
    ∧ ∀ j < out.length, out[j]? = bs[j]? ∨ Spec.version s (Order.byteAt l j) (out.getD j 0)

/-- What an agent has written at a place stands there, where the place is not contested (log entry 3). -/
def Spec.wrote (s t : State) (e : Ev) (l : Loc) (bs : List Byte) : Prop := ¬ Spec.contested s e l bs.length → t.readLoc l bs.length = bs

-- words that start an operation, and traps

/-- A thread is trapped with a record: cause, argument, the address of the faulting word and of the next word it would have issued (R405). -/
def Spec.Trapped (t : State) (u : ThreadId) (c : Cause) (n : Nat) (pc npc : Dword) : Prop :=
  (t.thread u).status = .trapped ∧ (t.thread u).pc = pc ∧ ∃ x, (t.thread u).trap = some x ∧ x.cause = c ∧ x.arg = n ∧ x.fpc = pc ∧ x.npc = npc

/-- The words that start an operation from a descriptor or a handle: kind, token, source, size of the descriptor, and how many operations of the kind's
queue a core holds at most (R194, R298, R299). -/
def Spec.engine : Instr → Option (OpKind × Nat × SrcD × Option Nat × Nat)
  | .mma _ tok a => some (.mma, tok, a, some 96, 8)
  | .cpy _ tok a => some (.cpy, tok, a, some 256, 16)
  | .cpyi _ tok a => some (.cpyi, tok, a, some 80, 16)
  | .kvx _ tok a => some (.kvx, tok, a, some 64, 8)
  | .coll _ tok a => some (.coll, tok, a, some 64, 8)
  | .cgrpCreate _ tok a => some (.cgrp, tok, a, some 24, 8)
  | .cgrpFree _ tok a => some (.cgrpFree, tok, a, none, 8)
  | _ => none
/-- Pending operations in the queue of a core that an operation of a kind joins (R194, R299). -/
def Spec.queued (s : State) (c : CoreId) (k : OpKind) : Nat :=
  (s.ops.filter fun (_, o) => o.core = c && o.pending && (o.kind ≠ .mma && o.glob || (s.team o.team).onCore) && (match k with
    | .mma => o.kind = .mma
    | .cpy | .cpyi => decide (o.kind ∈ [OpKind.cpy, .cpyi])
    | _ => decide (o.kind ∈ [OpKind.kvx, .coll, .cgrp, .cgrpFree]))).length

/-- A word has started an operation for a thread: it is listed under the number `n`, its token is pending beside those that were, and nothing else of what programs
see has changed but the PCs of the group and the registers that its sources `ds` mark dead (R35, R215, R298). -/
def Spec.Started (i : Instr) (s t : State) (u : ThreadId) (k : OpKind) (tok : Nat) (a : Dword) (n : Nat) (ds : List (SrcD × OTy)) : Prop :=
  (∃ o, t.op n = some o ∧ o.kind = k ∧ o.issuer = u ∧ o.team = s.teamOf u ∧ o.ctx = s.ctxOf u ∧ o.wave = u.wave ∧ o.tok = tok ∧ o.off = a ∧ o.epc = s.wordPc
    ∧ o.st = .queued)
  ∧ (∀ m, m ≠ n → t.op m = s.op m) ∧ (∀ w r, (t.wave w).isPending r = (decide (w = u.wave ∧ r = tok) || (s.wave w).isPending r))
  ∧ t.mem = s.mem ∧ t.teams = s.teams ∧ t.contexts = s.contexts ∧ t.hosts = s.hosts ∧ State.SameRegs ((s.begun i).tookReads u ds) t
  ∧ ∀ v ∈ s.group, (t.thread v).pc = s.wordPc + BitVec.ofNat 64 i.size

/-- The words of work pools and their sources: handle, and place of the record (R366, R368). -/
def Spec.pool : Instr → Option (OpKind × Nat × SrcD × Option SrcD)
  | .papp _ tok a b => some (.papp, tok, a, some b)
  | .dqry _ tok a b => some (.dqry, tok, a, some b)
  | .pcls _ tok a => some (.pcls, tok, a, none)
  | _ => none

/-- A request of a pool word has been handed to a package's Skein, and nothing else of the package has changed. -/
def Spec.Requested (s t : State) (p : Nat) (r : PoolReq) : Prop := t.pkg p = { s.pkg p with poolReqs := (s.pkg p).poolReqs ++ [r] }

/-- Bytes `off` to `off + z - 1` of a reserved range can be accessed: aligned, inside it, and unpoisoned where they are read (R211). -/
def Spec.inRange (s : State) (tm b off z : Nat) (read : Bool) : Prop :=
  off % z = 0 ∧ ∃ x, s.tob tm b = some x ∧ off + z ≤ x.len * 1024 ∧ (read = true → ∀ p ∈ x.poisoned, p + 8 ≤ off ∨ off + z ≤ p)

/-- The words that name an accumulator tile (R183). -/
def Spec.tileWord : Instr → Option Nat
  | .accz _ k | .accld _ _ k _ _ | .accst _ _ k _ _ | .accmvRd _ _ k _ | .accmvWr _ k _ _ _ => some k
  | _ => none
/-- The place in the issue order that a thread has kept for the word at an address, which waited for a tile (R183). -/
def Spec.kept (s : State) (u : ThreadId) (k : Nat) (pc : Dword) : Option Nat :=
  (s.thread u).place.bind fun (n, j, p) => if j = k ∧ p = pc then some n else none
/-- The place in the issue order of such a word: the one it has kept, or the next. -/
def Spec.turnAt (s : State) (u : ThreadId) (k : Nat) (pc : Dword) : Nat := (Spec.kept s u k pc).getD s.nextId
/-- No operation and no word issued before it keeps a word from its tile. -/
abbrev Spec.tileFree (s : State) (u : ThreadId) (k : Nat) (pc : Dword) : Prop := s.tileBusy (s.teamOf u) k (Spec.turnAt s u k pc) = false
/-- The word waits for its tile: its thread is blocked at the word, and keeps its place in the issue order. -/
def Spec.tileHeld (s : State) (u : ThreadId) (k : Nat) (pc : Dword) : State :=
  let n := Spec.turnAt s u k pc
  (({ s with nextId := if (Spec.kept s u k pc).isSome then s.nextId else s.nextId + 1 } : State).blockAt u pc (.tile k n)).modThread u fun th =>
    { th with place := some (n, k, pc) }

/-- The status that `TRSV` answers, and the base of a granted range (R184, R207). -/
def Spec.reserve (s : State) (u : ThreadId) (b r : Nat) : Nat × Nat :=
  if (s.tob (s.teamOf u) b).isSome then (1, 0)
  else if Tob.requestOk r = false then (2, 0)
  else match s.placeRange u.wave.core (r / 2 ^ 10 % 1024) with
    | none => (3, 0)
    | some base => (0, base)

/-- An element of C after `MXR`: one group of 16 products with unit scales (R223, R224). -/
def Spec.fragElem (fa fb : MxrFmt) (sat : Bool) (row col : List Word) (c : Word) : Nat × Flags :=
  fpStep false sat ((List.range 16).map fun k => (fragVal fa row k, fragVal fb col k)) (.fin ⟨false, 1, 0⟩) (.fin ⟨false, 1, 0⟩) c.toNat

-- events (log entry 6)

/-- An event comes about exactly where it is due, and leaves what `eff` says. -/
def Spec.Event (i : Instr) (due : State → Prop) (eff : State → State → Prop) : Prop :=
  ∀ s, (due s → ∃ t, exec i s = .next t ∧ eff s t) ∧ (¬due s → ∃ why, exec i s = .refused (.notEnabled why))
/-- An event comes about where it is due, and leaves what `eff` says. -/
def Spec.Occurs (i : Instr) (due : State → Prop) (eff : State → State → Prop) : Prop := ∀ s, due s → ∃ t, exec i s = .next t ∧ eff s t

/-- The absent granules without one (R96). -/
def Absent.without (a : Absent) (g : Nat) : Option Absent :=
  if a.granules.filter (· ≠ g) = [] then none else some { a with granules := a.granules.filter (· ≠ g) }
/-- Nothing but one thread has changed. -/
def Spec.OnlyThread (u : ThreadId) (s t : State) : Prop := { t with threads := s.threads } = s ∧ ∀ v, v ≠ u → t.thread v = s.thread v
/-- A thread has become runnable, and nothing else has changed. -/
def Spec.Woken (u : ThreadId) (s t : State) : Prop :=
  Spec.OnlyThread u s t ∧ t.thread u = { s.thread u with status := .runnable, waitSince := s.now u.wave.core }
/-- The listed threads of a team that wait for one of some things (R27). -/
def Spec.Waits (s : State) (tm : Nat) (u : ThreadId) (on : BlockOn) : Prop := ∃ th, (u, th) ∈ s.threads ∧ s.teamOf u = tm ∧ th.status = .blocked on
/-- Threads have become runnable, and nothing else has changed. -/
def Spec.WokenAll (is : ThreadId → Prop) (s t : State) : Prop :=
  { t with threads := s.threads } = s ∧ (∀ u, is u → (s.thread u).runnable = false → t.thread u = { s.thread u with status := .runnable, waitSince := s.now u.wave.core })
    ∧ ∀ u, ¬ is u → t.thread u = s.thread u
/-- A result in flight whose value is certain: that of no load, or of one that no store of another agent has met since (R239, log entry 3). -/
def Spec.settled (s : State) (p : Pending) : Prop :=
  ∀ x, p.load = some x → (∀ e ∈ x.evs, ∀ w ∈ s.trace, Order.foreign e w = true → w.id ≤ e.id) ∧ (x.evs.map (·.len)).sum = x.bytes.length
/-- Results have arrived in a thread's v registers: each that is certain and that no other of them contradicts; and the registers that none of them names are as they
were. -/
def Spec.Arrived (u : ThreadId) (ps : List Pending) (s t : State) : Prop :=
  (∀ p ∈ ps, Spec.settled s p → ∀ y ∈ p.vw, (∀ q ∈ ps, ∀ z ∈ q.vw, z.1 = y.1 → Spec.settled s q ∧ z.2 = y.2) → Map.find (t.thread u).v y.1 = some y.2)
  ∧ ∀ n, (∀ p ∈ ps, ∀ y ∈ p.vw, y.1 ≠ n) → Map.find (t.thread u).v n = Map.find (s.thread u).v n
/-- A lease has begun on a line: its snapshot is taken, the thread runs on with 0 in the destination of its `LEASE` (R263, R292). -/
def Spec.LeaseBegun (u : ThreadId) (l : Lease) (line : Nat) (va : Dword) (s t : State) : Prop :=
  (∃ k, (t.thread u).lease = some k ∧ k.lines = l.lines ++ [{ line, va, snapshot := memBytes s.mem line 128 }] ∧ k.want = none ∧ k.failTarget = l.failTarget
      ∧ k.dst = l.dst
      ∧ (l.lines = [] → k.granted = s.now u.wave.core ∧ k.deadline = s.now u.wave.core + (s.regsOf u).leaseMax.toNat)
      ∧ (l.lines ≠ [] → k.granted = l.granted ∧ k.deadline = l.deadline))
  ∧ (t.thread u).status = .runnable ∧ (t.thread u).pc = (s.thread u).pc ∧ t.mem = s.mem ∧ (t.thread u).Holds (.reg l.wantDst 1 true true) 0
  ∧ (t.wave u.wave).Holds (.reg l.wantDst 1 true true) 0

/-- An operation has completed with a token value of a status and a result; its token follows (R35). -/
def Spec.Completed (t : State) (n st : Nat) : Prop := ∃ q k, t.op n = some q ∧ q.st = .completed (BitVec.ofNat 32 (st * 2 ^ 24 + k % 2 ^ 24))
/-- The same, of an operation that is otherwise as it was started. -/
def Spec.Ended (t : State) (n : Nat) (o : Op) (st res : Nat) : Prop :=
  ∃ q, t.op n = some q ∧ q.st = .completed (BitVec.ofNat 32 (st * 2 ^ 24 + res % 2 ^ 24)) ∧ q.issuer = o.issuer ∧ q.wave = o.wave ∧ q.tok = o.tok ∧ q.team = o.team

/-- The acceptance checks of a queued engine operation on its descriptor, in their order, and the status of each; 0 where nothing is left to do (R299, R301). -/
def Spec.checks (s : State) (n : Nat) (o : Op) (bs : List Byte) : List (Bool × Nat) :=
  match o.kind with
  | .cpy => [(cpyFieldsOk bs, 0x40), (cpyShapeOk (cpyDesc bs), 0x42), (s.cpyEndsOk n { o with block := bs } (cpyDesc bs), 0x41), (field bs 0x18 8 ≠ (cpyDesc bs).count, 0)]
  | .cpyi => [(State.cpyiOk bs, 0x40), (!(o.glob && [0x18, 0x19, 0x1A].any fun k => decide (field bs k 1 = 2)), 0x41), (field bs 0x38 4 ≠ field bs 0x20 4, 0)]
  | .kvx =>
    let c := s.chan o.core.pkg (field bs 0 2)
    [(State.kvxOk bs, 0x40), (c.state ≠ 0 && c.ctx = o.ctx, 0x50), (field bs 0xC 4 ≠ field bs 4 4, 0), (c.state ≠ 2, 0x51)]
  | .coll =>
    let g := Map.find s.groups (field bs 0 2)
    let p := o.core.pkg
    [(State.collOk bs, 0x40), (g.elim false fun g => g.members.contains p && !g.freed.contains p, 0x60),
      (g.elim true fun g => !((field bs 2 1 = 1 || field bs 2 1 = 2) && field bs 6 2 ≥ g.members.length), 0x40), (g.elim true fun g => !(g.broken || s.groupGone g), 0x63)]
  | _ => []
/-- The size of a descriptor (Tables 12.8 to 12.10, 12.13). -/
def Spec.descSize : OpKind → Nat
  | .cpy => 256 | .cpyi => 80 | .cgrp => 24 | _ => 64
/-- A queued engine operation whose turn to be accepted has come (R299). -/
def Spec.turn (s : State) (n : Nat) (o : Op) : Prop :=
  s.op n = some o ∧ o.st = .queued ∧ s.opHome o = true ∧ s.running o.core.pkg = true
  ∧ (o.kind.copy = true → ∀ y ∈ s.ops, y.1 < n → y.2.team = o.team → y.2.kind.copy = true → y.2.st ≠ .queued)

/-- A dimension of a matrix operation (Table 9.3). -/
def Spec.dimOk (x : Nat) : Prop := 64 ≤ x ∧ x ≤ 1024 ∧ x % 64 = 0
/-- The oldest request at a Skein, and its operation. -/
def Spec.oldest (s : State) (p : Nat) (k : OpKind) (r : PoolReq) (rest : List PoolReq) (o : Op) : Prop :=
  (s.pkg p).poolReqs = r :: rest ∧ s.op r.op = some o ∧ o.kind = k
/-- The count of 24 bits that a token of a pool word carries (Table 14.6). -/
def Spec.count (n : Nat) : Nat := min n (2 ^ 24 - 1)

/-- The commands of the trap queue: the context, and the action (Table 17.5). -/
def Spec.trapCmd : Instr → Option (Nat × Nat)
  | .trapCmdFpc k => some (k, 0)
  | .trapCmdNpc k => some (k, 1)
  | .trapCmdRentry k => some (k, 2)
  | .trapCmdTpc k => some (k, 3)
  | .trapCmdExit k => some (k, 4)
  | _ => none
/-- A grid may retire (R323). -/
def Spec.retirable (s : State) (n : Nat) : Prop :=
  let g := s.grid n
  Map.has s.grids n = true ∧ g.retired = false ∧ g.units ≤ g.handed ∧ n ∉ (s.pkg g.pkg).accepted
  ∧ (∀ y ∈ s.teams, y.2.grid = n → y.2.place = .ended) ∧ (∀ y ∈ s.ops, y.2.grid = n → y.2.pending = false ∨ isHost y.2.issuer = true)
  ∧ ∀ y ∈ s.grids, y.2.parent = some n → y.2.retired = true
/-- A mapped queue whose write index has been read (R338, R343). -/
def Spec.IndexRead (s t : State) (n : Nat) (x : Nat) : Prop :=
  let q := s.queue n
  (x ≤ q.r + 2 ^ q.qsz → (t.queue n).state = .mapped ∧ (t.queue n).w = x)
  ∧ (q.r + 2 ^ q.qsz < x → (t.queue n).state = .overrun ∧ ∀ k < 16, (t.host ⟨q.mapPkg, 8, k⟩).hpend.getLsbD 3 = true)
/-- A queue has gone on to its next packet (R338). -/
def Spec.Consumed (s t : State) (n : Nat) : Prop :=
  (t.queue n).r = (s.queue n).r + 1 ∧ (t.queue n).started = false ∧ (t.queue n).heldWait = false ∧ (t.queue n).w = (s.queue n).w
/-- The packet at the read index of a queue, read by its packet engine, and no line of its signal or index is leased. -/
def Spec.packet (s : State) (n : Nat) (bs : List Byte) (s1 : State) : Prop :=
  s.engineLoad (s.queue n) (State.packetVa (s.queue n)) 64 = (s1, .ok bs) ∧ s1.packetHeld (s.queue n) (BitVec.ofNat 64 (field bs 0x28 8)) = false
/-- The physical page of a context's trap queue header holds a line (R342, R407). -/
def Spec.headerAt (s : State) (k l : Nat) : Bool :=
  (s.vaAddr (s.ctxPkg k) (s.ctxRoot k) none .load (State.tqBase (s.context k).regs)).toOption.elim false fun (pa, _) => pa ≤ l ∧ l < pa + 128
/-- A grid that was checked stands in the state as it is, but for the cycle of its acceptance and the units handed on since. -/
def Spec.Launched (g g' : Grid) : Prop := { g' with handed := 0, acceptedAt := 0 } = { g with handed := 0, acceptedAt := 0 }

/-- The team waits, every thread of it exited, parked or blocked for 65,536 cycles, and a team of a descendant grid has waited as long for a core (R324). -/
def Spec.starves (s : State) (tm : Nat) : Prop :=
  (s.team tm).place = .resident
  ∧ (∀ u ∈ s.teamThreads tm, (s.thread u).status = .exited
      ∨ ((∃ x, (s.thread u).status = .parked x) ∨ ∃ x, (s.thread u).status = .blocked x) ∧ (s.thread u).waitSince + 65536 ≤ s.now (s.team tm).core)
  ∧ ((∃ y ∈ s.teams, y.2.place = .pending ∧ y.2.ctx = (s.team tm).ctx ∧ (s.team tm).grid ∈ s.ancestors y.2.grid 10
      ∧ y.2.bornAt + 65536 ≤ s.hubNow (s.grid y.2.grid).pkg) ∨ s.waitingElse (s.team tm) = true)
/-- No thread of a team issues on a package. -/
def Spec.silent (t : State) (p : Nat) : Prop := ∀ u, u.wave.core.pkg = p → isHost u = false → t.issueOpen u = false
/-- The resident teams of a context on a package, with those that go with them (R415). -/
def Spec.drains (s : State) (p ctx : Nat) : List Nat :=
  ((((s.teams.filter fun y => y.2.ctx = ctx && y.2.place = .resident && y.2.core.pkg = p).map (·.1)).flatMap s.teamSet).eraseDups).filter fun n =>
    (s.team n).place = .resident

/-- A message of a kind may be received: its destination's package is alive and linked to its source's (R16), and no earlier message between the two agents is
under way but one to be resent. -/
def Spec.arrives (s : State) (n : Nat) (k : MsgKind) (m : Msg) : Prop :=
  Map.find s.net n = some m ∧ m.kind = k ∧ (s.pkg m.dst.pkg).alive = true ∧ s.linked m.src.pkg m.dst.pkg = true
    ∧ ∀ y ∈ s.net, y.1 < n → y.2.src = m.src → y.2.dst = m.dst → y.2.kind = .retry
/-- A message of a kind for a line is under way to an agent. -/
def Spec.Sends (t : State) (k : MsgKind) (line : Nat) (dst : Agent) (f : Msg → Prop) : Prop :=
  ∃ y ∈ t.net, y.2.kind = k ∧ y.2.line = line ∧ y.2.dst = dst ∧ f y.2
/-- A request is granted: state, and acknowledgements to await (R255). -/
def Spec.Grants (t : State) (m : Msg) (st : L1St) (n : Nat) : Prop := Spec.Sends t .grant m.line m.src fun x => x.grantState = st ∧ x.ackCnt = n
/-- A request has come to its home, where nothing holds it: no freeze, no stub, no other home of its page, a free entry, of its one line or with no holder, and
room in the slice (R254, R259, R260, R268, R270). -/
def Spec.quietHome (s : State) (n : Nat) (k : MsgKind) (m : Msg) (p d b : Nat) (e : DirEntry) : Prop :=
  Spec.arrives s n k m ∧ m.dst = .home p d ∧ m.hop = 0 ∧ s.frozenAt p d m.line = none ∧ s.stubFor p d m = none ∧ s.notHome p d m = false
    ∧ s.dirFind p d m.line = (b, e) ∧ e.busy = none ∧ (e.size = 0 ∨ e.st = .i) ∧ (s.sliceEntries p d m.line).length < 32768
/-- The wakes that a request for ownership of a line of a notify page leaves at its home's package (R342). -/
def Spec.Wakes (s t : State) (p : Nat) (m : Msg) : Prop := (t.pkg p).wakes = (s.pkg p).wakes ++ if m.ntf then [m.line] else []
/-- A thread of a core holds a lease on a line. -/
def Spec.leased (s : State) (c : CoreId) (line : Nat) : Prop :=
  ∃ y ∈ s.threads, y.1.wave.core = c ∧ ∃ l, y.2.lease = some l ∧ ∃ x ∈ l.lines, x.line = line
/-- The cycle that an agent counts. -/
def Spec.clock (s : State) : Agent → Nat
  | .core c => s.now c | .home p d => s.now ⟨p, d, 0⟩ | .proxy q => s.hubNow q | .engine q => s.hubNow q

/-- The checks of a signed command in their order, each with the status it gives where it fails (Table 16.5). -/
def Spec.cmdChecks (p : Nat) (k : Package) (bs : List Byte) : List (Bool × Nat) :=
  let pub := (bs.drop 0x120).take 32
  [(k.authHash.isNone, 1), (some (Config.sha512 pub) ≠ k.authHash, 2), (!Config.ed25519Verify pub (bs.take 0x140) ((bs.drop 0x140).take 64), 3),
    (field bs 8 8 ≠ (Config.pkgSerial p).toNat || field bs 0x10 8 ≠ k.bnonce.toNat, 4), (k.lastSeq.elim false fun n => field bs 0 8 ≤ n, 5), (!cmdFormed k bs, 6)]

end Sys2Proof.Machine
end

