-- ==== Sys2Proof/Certificates/Slice0/Obligations.lean ====
section
/-! DEFINITION. The statements. Each says in its docstring which rules of spec/ it rests on or states, and which choice of the model (a log entry) it uses. -/

open Sys2Proof Sys2Proof.Machine

/-- Integer words complete and write the exact result, wrapped or clamped. Every word of Table 7.2 that can issue and whose sources can be read completes;
each active lane gets the exact result in its destination, the flags it raises and the next PC. An integer result without .sat is the exact one modulo
2^W and raises nothing; with .sat it is the exact one clamped to the type, and ISAT is raised exactly where the clamp changes it. (Rests on R146,
R142, R115, R66.) -/
def Obligations.IntegerRules : Prop :=  Spec.LaneWords Spec.intOp
  ∧ ∀ (t : OTy) (x : Int), t ∈ [OTy.i8, .n8, .i16, .n16, .i32, .n32, .i64, .n64] →
    let w := t.width
    let lo : Int := if t.signed then -(2 ^ (w - 1)) else 0
    let hi : Int := if t.signed then 2 ^ (w - 1) - 1 else 2 ^ w - 1
    let y := intOf t (intRes t true x).val
    (intRes t false x).flags = 0 ∧ (intOf t (intRes t false x).val - x) % 2 ^ w = 0
    ∧ y = max lo (min hi x) ∧ (intRes t true x).flags = if y = x then 0 else Flag.isat

/-- Logic and bit words complete; shifts, fields and BYSEL bit by bit. Every word of Table 7.3 completes with its result where it can issue. SHL, SHR, SAR
and ROL by the low eight bits of a 32-bit count, BFX and BFI by position and length in a 32-bit operand, and BYSEL by index and mode are given bit by
bit; the pair halves SHL.b32, SHR.b32 and SAR.b32 compute the same. Operands are below 2^W, which the last clause says of every operand read. (States
R148, R149, R150.) -/
def Obligations.BitRules : Prop :=  Spec.LaneWords Spec.bitOp
  ∧ ∀ (h : Hdr) (g : Guard) (hold : Option Nat) (t : OTy) (d : Dst) (a b c : SrcD) (th : Thread) (x n y : Dword), x.toNat < 2 ^ t.width → y.toNat < 2 ^ t.width →
    let w := t.width
    let op (i : Instr) (xs : List Dword) : Res := (Spec.bitOp i).elim ⟨0, 0⟩ fun f => f th xs
    let types (i : Instr) : List OTy := (microOf i fun _ => ⟨0, 0⟩).srcs.map (·.2)
    let k := n.toNat % 256
    let len := n.toNat / 256 % 256
    let len' := min len (w - k)
    (t = .b32 ∨ t = .b64 →
      (∀ i ∈ [Instr.shl h t d a b, .shr h t d a b, .sar h t d a b, .rol h t d a b], types i = [t, .b32] ∧ (op i [x, n]).flags = 0)
      ∧ (∀ j < w, (op (.shl h t d a b) [x, n]).val.getLsbD j = (decide (k ≤ j) && x.getLsbD (j - k)))
      ∧ (∀ j < w, (op (.shr h t d a b) [x, n]).val.getLsbD j = (decide (j + k < w) && x.getLsbD (j + k)))
      ∧ (∀ j < w, (op (.sar h t d a b) [x, n]).val.getLsbD j = x.getLsbD (min (j + k) (w - 1)))
      ∧ (∀ j < w, (op (.rol h t d a b) [x, n]).val.getLsbD ((j + k) % w) = x.getLsbD j)
      ∧ types (.bfi h t d a b c) = [t, t, .b32] ∧ (op (.bfi h t d a b c) [x, y, n]).flags = 0
      ∧ ∀ j < w, (op (.bfi h t d a b c) [x, y, n]).val.getLsbD j = if k ≤ j ∧ j < k + len' then y.getLsbD (j - k) else x.getLsbD j)
    ∧ (t ∈ [OTy.i32, .n32, .i64, .n64] → types (.bfx h t d a b) = [t, .b32] ∧ (op (.bfx h t d a b) [x, n]).flags = 0
      ∧ ∀ j < w, (op (.bfx h t d a b) [x, n]).val.getLsbD j =
          (decide (0 < len') && if j < len' then x.getLsbD (k + j) else t.signed && x.getLsbD (k + len' - 1)))
    ∧ (∀ p q, (p, q) ∈ [(Pop.shl, Instr.shl h .b32 d a b), (.shr, .shr h .b32 d a b), (.sar, .sar h .b32 d a b)] → (Half.micro ⟨p, g, 0, a, hold⟩).f [x, n] = op q [x, n])
    ∧ (types (.bysel h d a b c) = [.b32, .b32, .b32] ∧ (op (.bysel h d a b c) [x, y, n]).flags = 0 ∧ ∀ j < 4,
        let from_ (q : Nat) : Nat := if q < 4 then x.toNat / 2 ^ (8 * q) % 256 else y.toNat / 2 ^ (8 * (q - 4)) % 256
        let idx := n.toNat / 2 ^ (3 * j) % 8
        (op (.bysel h d a b c) [x, y, n]).val.toNat / 2 ^ (8 * j) % 256 = match n.toNat / 2 ^ (12 + 2 * j) % 4 with
          | 0 => from_ idx
          | 1 => 0
          | 2 => 255
          | _ => 255 - from_ idx)
    ∧ ∀ (s : State) (u : ThreadId) (z : Src) (v : Dword), t ∈ [OTy.b32, .b64, .i32, .n32, .i64, .n64] → s.readOp u z t = .ok v → v.toNat < 2 ^ t.width

/-- Compares, selects, predicate logic, LEA, MOV and the scalar unit complete with their results. Every word ICMP, SEL, PLOP, LEA and MOV, and every word
of the scalar unit, completes where it can issue and its sources can be read, and leaves on each active lane (for the scalar unit: in the s register)
the result the rules give, the flags and the next PC. (Rests on R151, R152, R153, R154, R155, R179, R180, R181.) -/
def Obligations.MoveAndScalarWords : Prop :=
  (Spec.LaneWords Spec.moveOp)
  ∧ (Spec.LaneWords Spec.scalarOp)

/-- Floating words, conversions and CVUP complete with their results and flags. Every floating word of 0x040 to 0x04C, CVT and CVUP completes where it can
issue and its sources can be read, with the result and the sticky flags of the model’s one arithmetic of exact values rounded once (fdecode, roundTo)
on each active lane. (Rests on R157, R158, R159, R160, R161, R162, R163, R164, R165, R166, R168.) -/
def Obligations.FloatWords : Prop := Spec.LaneWords Spec.floatOp

/-- CVPK and pair words complete with the results of their operations. CVPK writes its two converted fields and keeps the others of its destination; a
pair word performs its two halves, all sources of both read before either writes. Both complete where they can issue, leave results, flags and the
next PC, and change nothing else. (Rests on R167, R68, R69, R77.) -/
def Obligations.PackAndPairWords : Prop :=
  (∀ (h : Hdr) (r : Rnd) (sat : Bool) (f : FFmt) (k : Nat) (d : Dst) (a b : SrcD) (s : State),
    s.Ready (.cvpk h r sat f k d a b) → s.Readable (fun _ => [cvpkMicro h r sat f k d a b]) →
      ∃ t, exec (.cvpk h r sat f k d a b) s = .next t
        ∧ State.LaneDone (.cvpk h r sat f k d a b) (fun _ => [cvpkMicro h r sat f k d a b]) s t
        ∧ State.Kept s.group s t ∧ State.LaneKept (fun _ => [cvpkMicro h r sat f k d a b]) s t)
  ∧ (∀ (a b : Option Half) (s : State), (Instr.pairWord a b).wf = true → s.Ready (.pairWord a b) → s.Readable (Spec.halves a b) →
    ∃ t, exec (.pairWord a b) s = .next t ∧ State.LaneDone (.pairWord a b) (Spec.halves a b) s t
      ∧ State.Kept s.group s t ∧ State.LaneKept (Spec.halves a b) s t)

/-- Frame of the words that write one result per lane. A word of the integer, logic, move, floating or scalar tables changes no memory, team, context,
host, package, operation or message, no other thread, and no register, predicate or s register that it does not name as destination or mark dead.
(Rests on R66, R55, R56, R91.) -/
def Obligations.LaneWordFrame : Prop :=  ∀ (i : Instr) (f : Thread → List Dword → Res) (s t : State), Spec.laneOp i = some f → s.Ready i → s.Readable (fun th => [microOf i (f th)]) →
    exec i s = .next t → State.Kept s.group s t ∧ State.LaneKept (fun th => [microOf i (f th)]) s t

/-- NOP: one form, one cycle, nothing but the PC. The word 0x000E000000000000 decodes to NOP and every other word with opcode 0 decodes as ILLOP. NOP
completes where it can issue; it moves the PC of each member to the next word, changes no register, predicate, flag or memory, does not end the run
and takes one issue cycle. (States R75.) -/
def Obligations.NopWord : Prop :=  decode 0x000E000000000000 none = .ok .nop
  ∧ (∀ (w : Dword) (l : Option Dword), w.toNat / 2 ^ 53 = 0 → w ≠ 0x000E000000000000 → decode w l = .bad .illop 8)
  ∧ ∀ s : State, s.Ready .nop → ∃ t, exec .nop s = .next t ∧ State.LaneDone .nop (fun _ => []) s t ∧ State.Kept s.group s t ∧ State.LaneKept (fun _ => []) s t
    ∧ t.group = s.group ∧ (t.core s.focus).readyAt = max (s.now s.focus) (s.core s.focus).readyAt + 1

/-- MOV.flg and OCL complete with their effects. Each of the constructors movFlg and ocl completes: exec answers a next state wherever its word can issue.
MOV.flg puts the sticky flags into its destination and clears those its source names (where no result in flight raises flags, so that R156 leaves
nothing open); OCL binds an operand-cache entry to a v register with a copy of its value, or an empty copy where the register is marked dead. Neither
changes anything else. (Rests on R156, R87.) -/
def Obligations.MoveFlagsOcl : Prop :=
  (∀ (h : Hdr) (d : Dst) (a : SrcD) (s : State),
      let m (th : Thread) : Micro := microOf (.movFlg h d a) fun _ => ⟨th.flags.setWidth 64, 0⟩
      s.Ready (.movFlg h d a) → s.Readable (fun th => [m th]) → ∃ t, exec (.movFlg h d a) s = .next t
        ∧ (∀ u ∈ s.group, (s.thread u).passes h.guard = true → (t.thread u).Holds (m {}).dst ((s.thread u).flags.setWidth 64)
            ∧ ∀ x, s.readOp u a.src .b32 = .ok x → (t.thread u).flags = (s.thread u).flags &&& ~~~(x.setWidth 6))
        ∧ (∀ u ∈ s.group, (s.thread u).passes h.guard = false → (t.thread u).flags = (s.thread u).flags)
        ∧ State.Kept s.group s t ∧ State.LaneKept (fun th => [m th]) s t)
  ∧ (∀ (h : Hdr) (k n : Nat) (dead : Bool) (s : State), s.Ready (.ocl h k n dead) →
      (∀ u ∈ s.group, (s.thread u).passes h.guard = true → ((s.thread u).readV (s.chkd u) n).isOk = true) →
      ∃ t, exec (.ocl h k n dead) s = .next t
        ∧ (∀ u ∈ s.group, (s.thread u).passes h.guard = true → ∀ x, (s.thread u).readV (s.chkd u) n = .ok x →
            Map.find (t.thread u).ocache k = some { bind := some n, copy := if dead then none else some x }
              ∧ (dead = true → Map.find (t.thread u).v n = none) ∧ ∀ j, j ≠ k → Map.find (t.thread u).ocache j = (Map.find (s.thread u).ocache j).map fun e =>
                if dead ∧ e.bind = some n then { e with copy := none } else e)
        ∧ (∀ u ∈ s.group, (t.thread u).flags = (s.thread u).flags) ∧ State.Kept s.group s t
        ∧ State.LaneKept (fun _ => [{ guard := h.guard, srcs := [(⟨.v n, dead⟩, .b32)], dst := .zero, f := fun _ => ⟨0, 0⟩ }]) s t)

/-- IDIV and IREM: quotient, remainder and edge cases. IDIV and IREM have opcodes 0x088 and 0x089, the four types, SC 0 and any LA. The quotient truncates
toward zero, the remainder is a - b x quotient with the sign of a, and the cases of Table 7.12 give their results and flags. Both complete where they
can issue: each active lane has its result in flight, due the latency after the last issue cycle, and nothing else changes. (States R170.) -/
def Obligations.DivisionRules : Prop :=  (∀ (h : Hdr) (t : OTy) (d : Dst) (a b : SrcD) (i : Instr) (f : List Dword → Res) (s : State),
    i = .idiv h t d a b ∧ f = idivRes t ∨ i = .irem h t d a b ∧ f = iremRes t → s.Ready i → s.Readable (State.readsOf i) →
    ∃ t, exec i s = .next t ∧ State.LongDone i (Spec.pipeCRes s i f) s t ∧ State.Kept s.group s t ∧ State.LaneKept (State.readsOf i) s t)
  ∧ (∀ (h : Hdr) (t : OTy) (d : Dst) (a b : SrcD) (i : Instr) (opc : Nat), i = .idiv h t d a b ∧ opc = 0x088 ∨ i = .irem h t d a b ∧ opc = 0x089 → i.wf = true →
    t ∈ [OTy.i32, .n32, .i64, .n64] ∧ ∀ w, i.encode.head? = some w → w.toNat / 2 ^ 53 = opc ∧ w.toNat / 2 ^ 13 % 2 ^ 9 = 0 ∧ w.toNat / 2 ^ 4 % 16 = h.la)
  ∧ (∀ la < 16, (Instr.idiv ⟨⟨false, 7⟩, none, la⟩ .i32 (.v 0) ⟨.v 1, false⟩ ⟨.v 2, false⟩).wf = true
    ∧ (Instr.irem ⟨⟨false, 7⟩, none, la⟩ .i32 (.v 0) ⟨.v 1, false⟩ ⟨.v 2, false⟩).wf = true)
  ∧ ∀ (t : OTy) (x y : Dword), t ∈ [OTy.i32, .n32, .i64, .n64] →
    let a := intOf t x
    let b := intOf t y
    let q := intOf t (idivRes t [x, y]).val
    let r := intOf t (iremRes t [x, y]).val
    let least : Int := -(2 ^ (t.width - 1))
    let most : Int := if t.signed then 2 ^ (t.width - 1) - 1 else 2 ^ t.width - 1
    (b = 0 → q = (if t.signed = true ∧ a < 0 then least else most) ∧ r = a ∧ (idivRes t [x, y]).flags = Flag.dz ∧ (iremRes t [x, y]).flags = Flag.dz)
    ∧ (t.signed = true → a = least → b = -1 → q = least ∧ r = 0 ∧ (idivRes t [x, y]).flags = Flag.isat ∧ (iremRes t [x, y]).flags = Flag.isat)
    ∧ (b ≠ 0 → ¬(t.signed = true ∧ a = least ∧ b = -1) → a = b * q + r ∧ r.natAbs < b.natAbs ∧ (0 ≤ a → 0 ≤ r) ∧ (a ≤ 0 → r ≤ 0)
      ∧ (idivRes t [x, y]).flags = 0 ∧ (iremRes t [x, y]).flags = 0)

/-- Special functions, division and lane exchange complete with their results in flight. FRCP, FRSQ, FSQRT, FEXP2, FLOG2, FSIN, FCOS, FTANH, IDIV and IREM
complete where they can issue, each active lane’s result (for the special functions as log entry 10 computes it) in flight. XGET, XROT, XFLIP, XREV,
BCST, PCOL, LMAT, LRED, SBC, LGET and LSET complete where they can issue; each active lane has in flight the value its rule takes from the lanes of
the group (its own where the lane named is no member), and nothing else changes. (Rests on R169, R170, R144, R171, R172, R173, R174, R175, R176, R177,
R178.) -/
def Obligations.LongLatencyWords : Prop :=
  (∀ (i : Instr) (f : List Dword → Res) (s : State), Spec.pipeCOp i = some f → s.Ready i → s.Readable (State.readsOf i) →
    ∃ t, exec i s = .next t ∧ State.LongDone i (Spec.pipeCRes s i f) s t ∧ State.Kept s.group s t ∧ State.LaneKept (State.readsOf i) s t)
  ∧ (∀ (i : Instr) (f : ThreadId → List Dword → Option Res) (s : State), Spec.exchangeOp s i = some f → s.Ready i → s.Readable (State.readsOf i) →
    ∃ t, exec i s = .next t ∧ State.LongDone i (Spec.exchangeRes s i f) s t ∧ State.Kept s.group s t ∧ State.LaneKept (State.readsOf i) s t)

/-- Branches, calls and returns; a target that is no word address traps. BRA, BRX, CALL, CALLX and RET set the PC of each active thread to the target,
write the link before it, and leave a thread whose guard fails at the next word; nothing else changes. An indirect or call target with low bits set
defers ALIGN, one outside the sign-extended range XLAT, with no transfer and no link. (Rests on R355, R356, R357, R53, R43.) -/
def Obligations.ControlTransfers : Prop :=
  (∀ (i : Instr) (f : Dword → List Dword → Dword) (s : State), Spec.goes i = some f → s.Ready i → s.Readable (State.readsOf i) →
    (∀ u ∈ s.group, activeIn i (s.thread u) = true → ∀ xs, s.readOps u (State.srcsOf i) = .ok xs → (∃ h n, i = .bra h n) ∨ Spec.targetOk (f s.wordPc xs)) →
    ∃ t, exec i s = .next t
      ∧ (∀ u ∈ s.group, activeIn i (s.thread u) = true → ∀ xs, s.readOps u (State.srcsOf i) = .ok xs → (t.thread u).pc = f s.wordPc xs
          ∧ ∀ d, Spec.links i = some d → (t.thread u).Holds (.vreg d 2) (s.wordPc + 8))
      ∧ (∀ u ∈ s.group, activeIn i (s.thread u) = false → (t.thread u).pc = s.wordPc + 8) ∧ (∀ u, (t.thread u).flags = (s.thread u).flags)
      ∧ State.Kept s.group s t ∧ State.LaneKept (fun _ => [microOf i fun _ => ⟨0, 0⟩]) s t)
  ∧ (∀ (i : Instr) (f : Dword → List Dword → Dword) (s : State) (u : ThreadId) (xs : List Dword), Spec.goes i = some f → (∀ h n, i ≠ .bra h n) → s.Solo i u →
    s.readOps u (State.srcsOf i) = .ok xs → isHost u = false → s.holdsLease u = false → (s.thread u).trap = none → (s.thread u).pend = [] →
    ¬ Spec.targetOk (f s.wordPc xs) →
      ∃ t, exec i s = .next t ∧ (t.thread u).status = .trapped ∧ (t.thread u).pc = s.wordPc ∧ (t.thread u).v = (s.thread u).v
        ∧ ∃ x, (t.thread u).trap = some x ∧ x.fpc = s.wordPc ∧ x.cause = if (f s.wordPc xs).toNat % 8 ≠ 0 then .align else .xlat)

/-- RGN marks the region entry; EXIT ends a thread or enters the monitor. RGN sets the region entry point to its own address and counts a region; EXIT
makes the thread exit on a compute core, and on a host core enters level 2 with cause 0x22 and the next word as resume address. (Rests on R369, R358,
R376.) -/
def Obligations.RegionAndExit : Prop :=
  (∀ h : Hdr, Spec.Does (.rgn h) Spec.always fun s u pc _ => s.modThread u fun th => { th with rentry := pc, rctr := th.rctr + 1 })
  ∧ (∀ h : Hdr,
    Spec.Does (.exit h) (fun _ u _ _ => isHost u = false) (fun s u _ _ => s.exitThread u)
    ∧ Spec.Does (.exit h) (fun _ u _ _ => isHost u = true) (fun s u pc _ => s.hostEnter u.wave.core 2 (pc + 8) 0x22 0))

/-- ENROL, STRIKE, JOIN and the completion of a rejoin. The enrolled and arrived sets change as R359 says, a joining thread that is enrolled parks, one
that is not goes on. A mask completes exactly where its arrived set is not empty and contains the enrolled set: both become empty and every thread
parked at it becomes runnable; otherwise nothing happens. (Rests on R359, R333.) -/
def Obligations.RejoinMasks : Prop :=
  (∀ (h : Hdr) (m : Nat),
    Spec.Does (.enrol h m) Spec.always (fun s u _ _ =>
      s.modWave u.wave fun w => { w with enrolled := Map.set w.enrolled m (Map.getD w.enrolled m 0 ||| State.laneBit u.lane) })
    ∧ Spec.Does (.strike h m) Spec.always (fun s u _ _ =>
      (s.modWave u.wave fun w => { w with enrolled := Map.set w.enrolled m (Map.getD w.enrolled m 0 &&& ~~~State.laneBit u.lane),
                                          arrived := Map.set w.arrived m (Map.getD w.arrived m 0 &&& ~~~State.laneBit u.lane) }).completeMask u.wave m)
    ∧ Spec.Does (.join h m) (fun s u _ _ => s.holdsLease u = false ∧ (Map.getD (s.wave u.wave).enrolled m 0).getLsbD u.lane = true) (fun s u _ _ =>
      ((s.modWave u.wave fun w => { w with arrived := Map.set w.arrived m (Map.getD w.arrived m 0 ||| State.laneBit u.lane) }).parkThread u (.mask m)).completeMask
        u.wave m)
    ∧ Spec.Does (.join h m) (fun s u _ _ => s.holdsLease u = false ∧ (Map.getD (s.wave u.wave).enrolled m 0).getLsbD u.lane = false)
      (fun s u _ _ => s.completeMask u.wave m))
  ∧ (∀ (s : State) (w : WaveId) (k : Nat),
    let e := Map.getD (s.wave w).enrolled k 0
    let a := Map.getD (s.wave w).arrived k 0
    (a ≠ 0 ∧ e &&& a = e →
      Map.getD ((s.completeMask w k).wave w).enrolled k 0 = 0 ∧ Map.getD ((s.completeMask w k).wave w).arrived k 0 = 0
      ∧ ∀ t : ThreadId, t.wave = w → t.lane < 32 → (s.thread t).status = .parked (.mask k) → ((s.completeMask w k).thread t).status = .runnable)
    ∧ (¬(a ≠ 0 ∧ e &&& a = e) → s.completeMask w k = s)
    ∧ ∀ t : ThreadId, (s.thread t).status ≠ .parked (.mask k) → (s.completeMask w k).thread t = s.thread t)

/-- BAR parks a thread at its team’s barrier; the last arrival begins the next phase. BAR marks the arrival and parks the thread. A phase completes
exactly where someone has arrived and every thread of the team has arrived or exited: the phase counts up, and every thread parked at it becomes
runnable. (Rests on R361, R335.) -/
def Obligations.BarrierWord : Prop :=  (∀ (h : Hdr) (n : Nat), Spec.Does (.bar h n) (fun s u _ _ => s.holdsLease u = false) (fun s u _ _ =>
    ((s.arriveBarrier u n).parkThread u (.bar n)).completeBarrier (s.teamOf u) n))
  ∧ ∀ (s : State) (tm n : Nat),
    let b := Map.getD (s.team tm).bars n {}
    (b.arrived ≠ [] ∧ (∀ t ∈ s.teamThreads tm, (s.thread t).status = .exited ∨ t ∈ b.arrived) →
      Map.getD ((s.completeBarrier tm n).team tm).bars n {} = { phase := b.phase + 1, arrived := [] }
      ∧ ∀ t ∈ b.arrived, (s.thread t).status = .parked (.bar n) → ((s.completeBarrier tm n).thread t).status = .runnable)
    ∧ (¬(b.arrived ≠ [] ∧ ∀ t ∈ s.teamThreads tm, (s.thread t).status = .exited ∨ t ∈ b.arrived) → s.completeBarrier tm n = s)

/-- YLD and ELECT complete: the run ends with an exclusion for 32 cycles; one lane is elected. YLD ends the run; on a compute core with PROG set it places
the thread that issues it under exclusion for 32 cycles, and elsewhere it leaves exclusions alone; registers stay. ELECT sets its predicate in the
lowest active lane of the group and clears it in every other active lane (into pt it discards the result); nothing else changes. (Rests on R362, R331,
R214.) -/
def Obligations.YieldAndElect : Prop :=  (∀ (h : Hdr) (s : State) (u : ThreadId), s.Solo (.yld h) u →
    ∃ t, exec (.yld h) s = .next t ∧ (t.thread u).yldUntil = (if isHost u = false ∧ s.prog u = true then some ((t.core s.focus).readyAt + 32) else (s.thread u).yldUntil) ∧ (t.core s.focus).group = []
      ∧ State.SameRegs (s.begun (.yld h)) t)
  ∧ (∀ (h : Hdr) (p : Nat) (s : State), p < 8 → s.Ready (.elect h p) →
    ∃ t, exec (.elect h p) s = .next t
      ∧ (p = 7 → ∀ u, (t.thread u).preds = (s.thread u).preds)
      ∧ (p < 7 → ∀ u ∈ s.group, (s.thread u).passes h.guard = true →
          (t.thread u).pred p = decide ((s.group.filter fun v => (s.thread v).passes h.guard).head? = some u))
      ∧ (∀ u ∈ s.group, (t.thread u).flags = (s.thread u).flags) ∧ State.Kept s.group s t ∧ State.LaneKept (fun _ => [microOf (.elect h p) fun _ => ⟨0, 0⟩]) s t)

/-- SRD, TQRY and MSTAT complete and deliver their words. Each of the constructors srd, tqry and mstat completes: exec answers a next state wherever its
word can issue. SRD has in flight, for each active lane, the special source it names as it stands in the issue cycle; TQRY and MSTAT write the word of
the operand buffer and of the matrix unit that they name. Nothing else changes. (Rests on R38, R372, R209, R222.) -/
def Obligations.SpecialSourceWords : Prop :=  (∀ (h : Hdr) (d : Dst) (n : Nat) (s : State), s.Ready (.srd h d n) →
    ∃ t, exec (.srd h d n) s = .next t
      ∧ State.LongDone (.srd h d n) (fun u => if (s.thread u).passes h.guard then some ⟨specialSource (s.begun (.srd h d n)) u n, 0⟩ else none) s t
      ∧ State.Kept s.group s t ∧ State.LaneKept (fun _ => []) s t)
  ∧ (∀ (h : Hdr) (d : Dst) (b n : Nat) (s : State), s.Ready (.tqry h d b n) →
    ∃ t, exec (.tqry h d b n) s = .next t
      ∧ (∀ u ∈ s.group, (s.thread u).passes h.guard = true →
          (t.thread u).Holds (microOf (.tqry h d b n) fun _ => ⟨0, 0⟩).dst (((s.tob (s.teamOf u) b).elim 0 fun x => x.word n).setWidth 64))
      ∧ (∀ u ∈ s.group, (t.thread u).flags = (s.thread u).flags)
      ∧ State.Kept s.group s t ∧ State.LaneKept (fun _ => [microOf (.tqry h d b n) fun _ => ⟨0, 0⟩]) s t)
  ∧ (∀ (h : Hdr) (d : Dst) (n : Nat) (s : State), s.Ready (.mstat h d n) →
    ∃ t, exec (.mstat h d n) s = .next t
      ∧ (∀ u ∈ s.group, (s.thread u).passes h.guard = true →
          (t.thread u).Holds (microOf (.mstat h d n) fun _ => ⟨0, 0⟩).dst ((mstatWord (s.begun (.mstat h d n)) u n).setWidth 64))
      ∧ (∀ u ∈ s.group, (t.thread u).flags = (s.thread u).flags)
      ∧ State.Kept s.group s t ∧ State.LaneKept (fun _ => [microOf (.mstat h d n) fun _ => ⟨0, 0⟩]) s t)

/-- SYSR reads a system register, SYSW writes its writable fields. At the level that Table 15.3 asks for, SYSR answers the register’s value and SYSW
writes it: bits that are reserved or read-only keep their value, bits that clear on one are cleared where the operand has a one, the fields PPM and
PIEM of HSTAT change only at level 2, and no other register changes. The value stands in the state the next word issues in. (States R377.) -/
def Obligations.SystemRegisterWords : Prop :=
  ((∀ (h : Hdr) (d : Dst) (r : SysReg) (n : Nat), Spec.needsLevel (.sysr h d r) = some n → Spec.Does (.sysr h d r) (fun s u _ _ => n ≤ Spec.level s u) fun s u _ _ =>
    Spec.answer s u d (match r with
      | .hcore => BitVec.ofNat 64 (u.wave.core.core % 16 + (s.pkg u.wave.core.pkg).num % 4096 * 2 ^ 16)
      | .htime => BitVec.ofNat 64 (s.hubNow u.wave.core.pkg)
      | r => Spec.hostReg (s.host u.wave.core) r))
  ∧ ∀ (h : Hdr) (r : SysReg) (a : SrcD) (n : Nat), Spec.needsLevel (.sysw h r a) = some n →
    Spec.Does (.sysw h r a) (fun s u _ _ => n ≤ Spec.level s u) fun s u _ xs => s.modHost u.wave.core fun g => sysWrite g r (arg xs 0))
  ∧ (∀ (h : HostRegs) (r q : SysReg) (x : Dword),
    (q ≠ r → Spec.hostReg (sysWrite h r x) q = Spec.hostReg h q)
    ∧ (r ≠ .hstat → r ≠ .hpend → r ≠ .hcore → r ≠ .htime → Spec.hostReg (sysWrite h r x) r = x &&& BitVec.ofNat 64 (Spec.writable h r))
    ∧ Spec.hostReg (sysWrite h .hstat x) .hstat =
        (x &&& BitVec.ofNat 64 (Spec.writable h .hstat)) ||| (h.hstat &&& ~~~BitVec.ofNat 64 (Spec.writable h .hstat))
    ∧ Spec.hostReg (sysWrite h .hpend x) .hpend = h.hpend &&& ~~~(x &&& 0x1F)
    ∧ sysWrite h .hcore x = h ∧ sysWrite h .htime x = h)

/-- SCALL, MCALL and ERET enter and return. SCALL enters level 1 (level 2 from level 2) and MCALL level 2, with the next word as resume address, the cause
code and the argument; ERET returns from the current level. Each completes where its level is met. (Rests on R378, R376.) -/
def Obligations.HostCallsAndReturn : Prop :=  (∀ (h : Hdr) (n : Nat), Spec.Does (.scall h n) Spec.always fun s u pc _ =>
    s.hostEnter u.wave.core (if Spec.level s u = 2 then 2 else 1) (pc + 8) (0x20 + n % 256 * 256) 0)
  ∧ (∀ (h : Hdr) (n : Nat), Spec.Does (.mcall h n) (fun s u _ _ => 1 ≤ Spec.level s u) fun s u pc _ =>
    s.hostEnter u.wave.core 2 (pc + 8) (0x21 + n % 256 * 256) 0)
  ∧ (∀ h : Hdr, Spec.Does (.eret h) (fun s u _ _ => 1 ≤ Spec.level s u ∧ (Spec.returnPc s u).toNat % 8 = 0) fun s u _ _ => s.hostReturn u.wave.core)
  ∧ ∀ h : Hdr, Spec.Does (.eret h) (fun s u _ _ => 1 ≤ Spec.level s u ∧ (Spec.returnPc s u).toNat % 8 ≠ 0 ∧ isHost u = true ∧ s.holdsLease u = false) fun s u pc _ =>
      s.hostEnter u.wave.core 2 pc 0x06 (Spec.returnPc s u)

/-- What an entry saves and where it goes; what a return restores. An entry to level L puts the resume address, cause and address into EPC_L, ECAUSE_L and
EADDR_L, the level and event enable into L’s saved fields, sets PRIV to L and IE to 0 and the PC to the vector of L, and leaves the registers of the
other level and memory alone. A return sets PRIV, IE and the PC from the saved fields of the current level and changes no other host register. (Rests
on R376, R378, Table 15.4.) -/
def Obligations.HostEntryAndReturn : Prop :=
  (∀ (s : State) (c : CoreId) (resume : Dword) (cause : Nat) (ea : Dword),
    let h := s.host c
    let k := (s.hostEnter c 1 resume cause ea).host c
    let m := (s.hostEnter c 2 resume cause ea).host c
    (k.epcK = resume ∧ k.ecauseK = BitVec.ofNat 64 cause ∧ k.eaddrK = ea ∧ State.priv k = 1 ∧ State.hostIE k = false ∧ State.ppk k = State.priv h
      ∧ State.piek k = State.hostIE h ∧ State.ppm k = State.ppm h ∧ State.piem k = State.piem h ∧ k.epcM = h.epcM ∧ k.ecauseM = h.ecauseM ∧ k.eaddrM = h.eaddrM
      ∧ ((s.hostEnter c 1 resume cause ea).thread (hostThread c)).pc = h.kvec)
    ∧ (m.epcM = resume ∧ m.ecauseM = BitVec.ofNat 64 cause ∧ m.eaddrM = ea ∧ State.priv m = 2 ∧ State.hostIE m = false ∧ State.ppm m = State.priv h
      ∧ State.piem m = State.hostIE h ∧ State.ppk m = State.ppk h ∧ State.piek m = State.piek h ∧ m.epcK = h.epcK ∧ m.ecauseK = h.ecauseK ∧ m.eaddrK = h.eaddrK
      ∧ ((s.hostEnter c 2 resume cause ea).thread (hostThread c)).pc = h.mvec)
    ∧ (s.hostEnter c 1 resume cause ea).mem = s.mem ∧ (s.hostEnter c 2 resume cause ea).mem = s.mem)
  ∧ (∀ (s : State) (c : CoreId),
    let h := s.host c
    let g := (s.hostReturn c).host c
    (State.priv h = 1 → State.priv g = State.ppk h ∧ State.hostIE g = State.piek h ∧ ((s.hostReturn c).thread (hostThread c)).pc = h.epcK)
    ∧ (State.priv h = 2 → State.priv g = State.ppm h ∧ State.hostIE g = State.piem h ∧ ((s.hostReturn c).thread (hostThread c)).pc = h.epcM)
    ∧ State.ppk g = State.ppk h ∧ State.piek g = State.piek h ∧ State.ppm g = State.ppm h ∧ State.piem g = State.piem h
    ∧ { g with hstat := h.hstat } = h)

/-- A system word below its level traps PERM and has no effect. A host thread below the level that a word of 0x1E0 to 0x1E7 or its register asks for
enters level 1 (from level 0) or 2 with cause PERM at the word itself; no memory and no other host register changes. (Rests on R374, R375, R376.) -/
def Obligations.LevelTraps : Prop :=  ∀ (i : Instr) (n : Nat) (s : State) (u : ThreadId) (xs : List Dword), Spec.needsLevel i = some n → s.Solo i u → s.readOps u (State.srcsOf i) = .ok xs →
    isHost u = true → s.holdsLease u = false → Spec.level s u < n →
    ∃ t, exec i s = .next t ∧ t.mem = s.mem
      ∧ t.host u.wave.core = State.hostEnterRegs (s.host u.wave.core) (if Spec.level s u = 0 then 1 else 2) s.wordPc 0x08 0
      ∧ (t.thread u).pc = if Spec.level s u = 0 then (s.host u.wave.core).kvec else (s.host u.wave.core).mvec

/-- TLBI starts a shootdown and blocks; WAIT blocks until an enabled event is pending. TLBI blocks the host thread on an invalidation that every package
of the partition has still to confirm; WAIT goes on at once where a masked event is pending and blocks otherwise. (Rests on R379, R380, R390.) -/
def Obligations.ShootdownAndWait : Prop :=  (∀ (h : Hdr) (kind : Nat) (a b : SrcD), Spec.Does (.tlbi h kind a b) (fun s u _ _ => 1 ≤ Spec.level s u) fun s u _ xs =>
    ({ s with nextId := s.nextId + 1,
              shootdowns := Map.set s.shootdowns s.nextId { host := some u.wave.core, kind, va := arg xs 0, key := (arg xs 1).toNat % 65536,
                                                            todo := s.partition u.wave.core.pkg } } : State).stopThread u (.blocked (.tlbi s.nextId)))
  ∧ ∀ h : Hdr,
    Spec.Does (.wait h) (fun s u _ _ => 1 ≤ Spec.level s u ∧ (s.host u.wave.core).hpend &&& (s.host u.wave.core).hmask ≠ 0) (fun s _ _ _ => s)
    ∧ Spec.Does (.wait h) (fun s u _ _ => 1 ≤ Spec.level s u ∧ (s.host u.wave.core).hpend &&& (s.host u.wave.core).hmask = 0)
      (fun s u _ _ => s.stopThread u (.blocked .hostWait))

/-- CTXW.reg writes one context register within its limits and answers the stored value. For a known key CTXW.reg stores the value by the limits of the
register and answers it; for key 0 or an unknown key it answers all ones and writes nothing. The register then reads as stored, no other register of
the context and no other context changes. (Rests on R381, R48, R49, R50.) -/
def Obligations.ContextRegisterWords : Prop :=  (∀ (h : Hdr) (r : CtxReg) (d : Dst) (a b : SrcD),
    Spec.Does (.ctxwReg h r d a b) (fun s u _ xs => 1 ≤ Spec.level s u ∧ Spec.num (arg xs 0) ≠ 0 ∧ Map.has s.contexts (Spec.num (arg xs 0)) = true) (fun s u _ xs =>
      Spec.answer (s.writeCtxReg (Spec.num (arg xs 0)) r (arg xs 1)) u d
        (BitVec.ofNat 64 (Spec.ctxStored (s.context (Spec.num (arg xs 0))).regs r (arg xs 1).toNat)))
    ∧ Spec.Does (.ctxwReg h r d a b) (fun s u _ xs => 1 ≤ Spec.level s u ∧ (Spec.num (arg xs 0) = 0 ∨ Map.has s.contexts (Spec.num (arg xs 0)) = false))
      (fun s u _ _ => Spec.answer s u d (BitVec.allOnes 64)))
  ∧ ∀ (s : State) (k : Nat) (r : CtxReg) (x : Dword),
    (ctxRegRead ((s.writeCtxReg k r x).context k).regs r).toNat = Spec.ctxStored (s.context k).regs r x.toNat
    ∧ (∀ q, q ≠ r → ctxRegRead ((s.writeCtxReg k r x).context k).regs q = ctxRegRead (s.context k).regs q)
    ∧ ∀ j, j ≠ k → (s.writeCtxReg k r x).context j = s.context j

/-- CTXW.new, del, qreg, qdel, pnew, pdel and qst carry out their commands. Creating a context checks key and descriptor, records root, pool and pages,
and writes the descriptor’s key back within its 128 bytes only; deleting, registering and unregistering queues, creating and deleting pools, and
reading or re-enabling a queue change what Table 15.7 says and answer the status of Table 15.8. The registers of a new context hold the reset values
of Table 2.4 (log entry 2). (Rests on R381, R382, R337, R351, R338, Table 15.7, Table 15.8.) -/
def Obligations.ContextCommands : Prop :=
  (∀ (h : Hdr) (d : Dst) (a b : SrcD),
    Spec.Does (.ctxwDel h d a b) (fun s u _ xs => 1 ≤ Spec.level s u ∧ Map.has s.contexts (Spec.num (arg xs 0)) = false) (fun s u _ _ => Spec.status s u d 1 0)
    ∧ Spec.Does (.ctxwDel h d a b) (fun s u _ xs => 1 ≤ Spec.level s u ∧ Map.has s.contexts (Spec.num (arg xs 0)) = true
        ∧ ((∃ g, g ∈ s.grids ∧ g.2.ctx = Spec.num (arg xs 0) ∧ g.2.retired = false) ∨ ∃ q, q ∈ s.queues ∧ q.2.ctx = Spec.num (arg xs 0)))
      (fun s u _ _ => Spec.status s u d 4 0)
    ∧ Spec.Does (.ctxwDel h d a b) (fun s u _ xs => 1 ≤ Spec.level s u ∧ Map.has s.contexts (Spec.num (arg xs 0)) = true
        ∧ (∀ g ∈ s.grids, g.2.ctx = Spec.num (arg xs 0) → g.2.retired = true) ∧ ∀ q ∈ s.queues, q.2.ctx ≠ Spec.num (arg xs 0)) (fun s u _ xs =>
      let r := s.invalidateAll u.wave.core.pkg 1 0 (Spec.num (arg xs 0))
      Spec.status { r with contexts := Map.erase r.contexts (Spec.num (arg xs 0)) } u d 0 0)
    ∧ Spec.Leaves (.ctxwQreg h d a b) (fun s u _ xs x => ∃ s1 bs n, 1 ≤ Spec.level s u ∧ s.threadRead u (arg xs 0) 64 = (s1, .ok bs)
        ∧ Map.has s1.contexts (field bs 0xC 2) = true ∧ s1.queueOk u.wave.core.pkg bs = true ∧ State.lowestFree (Map.keys s1.queues) (2 ^ 20) = some n
        ∧ x = Spec.status { s1 with queues := Map.set s1.queues n (s1.queueOf u.wave.core.pkg bs) } u d 0 n)
    ∧ Spec.Does (.ctxwQdel h d a b) (fun s u _ xs => 1 ≤ Spec.level s u ∧ Map.find s.queues (Spec.num (arg xs 0)) = none) (fun s u _ _ => Spec.status s u d 1 0)
    ∧ Spec.Does (.ctxwQdel h d a b) (fun s u _ xs => 1 ≤ Spec.level s u ∧ ∃ q, Map.find s.queues (Spec.num (arg xs 0)) = some q
        ∧ q.w ≤ q.r ∧ ∀ n, s.readIndex q q.widx = some n → n ≤ q.r)
      (fun s u _ xs => Spec.status { s with queues := Map.erase s.queues (Spec.num (arg xs 0)) } u d 0 0)
    ∧ Spec.Leaves (.ctxwPnew h d a b) (fun s u _ xs x => ∃ p q n, 1 ≤ Spec.level s u ∧ Map.has s.contexts (Spec.num (arg xs 0)) = true
        ∧ 4 ≤ (arg xs 1).toNat / 4 % 32 ∧ (arg xs 1).toNat / 4 % 32 ≤ 20 ∧ (arg xs 1).toNat / 2 ^ 7 % 2 ^ 9 = 0 ∧ (arg xs 1).toNat / 2 ^ 28 = 0
        ∧ p = (arg xs 1).toNat / 2 ^ 16 % 4096 ∧ s.inPartition u.wave.core.pkg p = true ∧ s.route u.wave.core.pkg p = some q
        ∧ State.lowestFree ((Map.keys s.pools).filterMap fun x => if x / 256 = q then some (x % 256) else none) 256 = some n
        ∧ x = Spec.status { s with pools := Map.set s.pools (State.poolKey q n) (Spec.newPool (Spec.num (arg xs 0)) (arg xs 1).toNat) } u d 0 (p + n * 4096))
    ∧ Spec.Leaves (.ctxwPdel h d a b) (fun s u _ xs x => ∃ n p, 1 ≤ Spec.level s u ∧ s.poolOf u.wave.core.pkg (Spec.num (arg xs 0)) = some n ∧ Map.find s.pools n = some p
        ∧ (p.closed = true ∧ p.records = [] ∧ x = Spec.status { s with pools := Map.erase s.pools n } u d 0 0
          ∨ (p.closed = false ∨ p.records ≠ []) ∧ x = Spec.status s u d 4 0))
    ∧ Spec.Leaves (.ctxwQst h d a b) (fun s u _ xs x => ∃ q, 1 ≤ Spec.level s u ∧ Map.find s.queues (Spec.num (arg xs 0)) = some q ∧ arg xs 1 = 0
        ∧ x = Spec.status s u d 0 ((match q.state with | .unmapped => 0 | .mapped => 1 | .overrun => 2) + (if q.heldWait then 4 else 0) + (if s.ordHolds q then 8 else 0)))
    ∧ Spec.Leaves (.ctxwQst h d a b) (fun s u _ xs x => ∃ q r w, 1 ≤ Spec.level s u ∧ Map.find s.queues (Spec.num (arg xs 0)) = some q ∧ arg xs 1 = 1 ∧ q.state = .overrun
        ∧ s.readIndex q q.ridx = some r ∧ s.readIndex q q.widx = some w ∧ r ≤ w ∧ w - r ≤ 2 ^ q.qsz
        ∧ x = Spec.status { s with queues := Map.set s.queues (Spec.num (arg xs 0)) { q with state := .mapped, r, w } } u d 0 1))
  ∧ (∀ (h : Hdr) (d : Dst) (a b : SrcD),
    Spec.Leaves (.ctxwNew h d a b) (fun s u _ xs x => 1 ≤ Spec.level s u
      ∧ ((arg xs 1 = 0 ∨ 65536 ≤ (arg xs 1).toNat ∨ (arg xs 0).toNat % 65536 ≠ 0) ∧ x = Spec.status s u d 3 0
        ∨ 1 ≤ (arg xs 1).toNat ∧ (arg xs 1).toNat < 65536 ∧ (arg xs 0).toNat % 65536 = 0 ∧ Map.has s.contexts (arg xs 1).toNat = true ∧ x = Spec.status s u d 2 0))
    ∧ ∀ (s : State) (u : ThreadId) (xs : List Dword) (s1 s2 : State) (bs : List Byte) (pa : Nat) (pte : Pte), s.Solo (.ctxwNew h d a b) u →
        s.readOps u (State.srcsOf (.ctxwNew h d a b)) = .ok xs → 1 ≤ Spec.level s u → 1 ≤ (arg xs 1).toNat → (arg xs 1).toNat < 65536 → (arg xs 0).toNat % 65536 = 0 →
        Map.has s.contexts (arg xs 1).toNat = false → (s.readBy (.ctxwNew h d a b) u).threadRead u (arg xs 0) 128 = (s1, .ok bs) →
        s1.globalAddr u .load (arg xs 0) = (s2, .ok (pa, pte)) → pte.key = 0 → State.descOk bs = true →
        ∃ t, exec (.ctxwNew h d a b) s = .next t
          ∧ Map.find t.contexts (arg xs 1).toNat = some
              { desc := arg xs 0, descPa := some pa, regs := {}, rootFrame := field bs 0x30 8 % 2 ^ 27, rootPkg := field bs 0x30 8 / 2 ^ 27 % 2 ^ 12,
                rootDie := field bs 0x30 8 / 2 ^ 39 % 8, sysPool := BitVec.ofNat 64 (field bs 0x40 8), sysPages := field bs 0x48 4 }
          ∧ leNat (memBytes t.mem (pa + 0x38) 2) = (arg xs 1).toNat
          ∧ (∀ k, k ≠ (arg xs 1).toNat → Map.find t.contexts k = Map.find s.contexts k)
          ∧ (∀ n, memRead t.mem n = memRead s2.mem n ∨ pa ≤ n ∧ n < pa + 0x80))

/-- LD puts the bytes of its address in flight to its destination. Where the access finds its place and no poison, LD completes with the bytes it returns,
extended by the type, in flight; memory, scratchpads and registers are unchanged. The bytes are those that stand there; where a store of another
agent, or one on another path, contests the place, each may be another version of its byte (log entry 3). (Rests on R278, R281, R115, R244, R290.) -/
def Obligations.LoadWord : Prop :=  ∀ (h : Hdr) (ty : OTy) (m : MOp) (d : Dst) (base off : SrcD) (s s1 : State) (u : ThreadId) (xs : List Dword) (l : Loc) (pte : Option Pte),
    let i : Instr := .ld h ty m d base off
    let z := ty.width / 8
    s.Solo i u → s.readOps u (State.srcsOf i) = .ok xs →
    (s.accessBy i u).accessAddr u m.spc .load (Spec.address m z (arg xs 0) (arg xs 1)) z = (s1, .loc l pte) → s1.poisonAt l z = false →
    ∃ t bs, exec i s = .next t ∧ Spec.InFlight t i u (Spec.loaded ty bs) ∧ Spec.returns s1 { s1.threadEv u .load with path := State.pathOf m.spc } l z bs
      ∧ t.mem = s.mem ∧ t.teams = s.teams ∧ State.SameRegs s1 t ∧ ((∀ v n k, l ≠ .win v n k) → State.SameRegs (s.readBy i u) t)

/-- ST stores its data at its address and changes no other byte. Where the access finds its place, ST completes: the data’s bytes, low byte first, stand
there (where another agent’s store contests the place, each byte may be another version, later in the coherence order: log entry 3), every other byte
of memory and of scratchpads reads as before, and registers are unchanged. The place is computed by accessAddr from the address of R278, as the
meaning computes it. (Rests on R278, R282.) -/
def Obligations.StoreWord : Prop :=
  (∀ (h : Hdr) (ty : OTy) (m : MOp) (data : Src) (base off : SrcD) (s s1 : State) (u : ThreadId) (xs : List Dword) (bs : List Byte) (l : Loc) (pte : Option Pte),
    let i : Instr := .st h ty m data base off
    let z := ty.width / 8
    s.Solo i u → s.readOps u (State.srcsOf i) = .ok xs → s.storeData u ty data = .ok bs →
    ((s.accessBy i u).tookReads u [(⟨data, false⟩, ty)]).accessAddr u m.spc .store (Spec.address m z (arg xs 0) (arg xs 1)) bs.length = (s1, .loc l pte) →
    ∃ t, exec i s = .next t ∧ s1.mem = s.mem ∧ ((∀ v n k, l ≠ .win v n k) → Spec.Stored s1 t (s1.threadEv u .store) l bs ∧ State.SameRegs (s.readBy i u) t)
      ∧ ∀ v n k, l = .win v n k → Spec.Placed s1 t l bs)
  ∧ (∀ (s : State) (u : ThreadId) (ty : OTy) (x : Src) (v : Dword), ty ≠ .b128 → s.readOp u x ty = .ok v →
    s.storeData u ty x = .ok ((List.range (ty.width / 8)).map fun k => BitVec.ofNat 8 (v.toNat / 2 ^ (8 * k))))

/-- ATOM, ATOMN, CAS and SIGS: old value, new value, nothing else. Where the access finds its place unpoisoned, the word completes: ATOM and CAS have the
old value in flight, the new value of Table 12.5 (for CAS: the new word where the compare holds) stands at the place, and every other byte reads as
before. ATOM, ATOMN, CAS and SIGS complete, and the old value is one that a load of the place may return (log entry 3). (Rests on R285, R286, R287,
R365, R232.) -/
def Obligations.AtomicWords : Prop :=  (∀ (h : Hdr) (op : AtomOp) (wide : Bool) (m : MOp) (d : Dst) (base val : SrcD) (s s1 : State) (u : ThreadId) (xs : List Dword) (l : Loc) (pte : Option Pte),
    let i : Instr := .atom h op wide m d base val
    let z := if wide then 8 else 4
    s.Solo i u → s.readOps u (State.srcsOf i) = .ok xs →
    (s.accessBy i u).accessAddr u m.spc .rmw (baseAddr m (arg xs 0)) z = (s1, .loc l pte) → s1.poisonAt l z = false →
    ∃ t, exec i s = .next t ∧ Spec.InFlight t i u (resWords (z / 4) (BitVec.ofNat 64 (leNat (s1.readLoc l z)))) ∧ s1.mem = s.mem ∧ State.SameRegs (s.readBy i u) t
      ∧ Spec.Placed s1 t l (leBytes (Spec.rmw op wide (leNat (s1.readLoc l z)) ((arg xs 1).toNat % 2 ^ (8 * z))) z))
  ∧ (∀ (h : Hdr) (op : AtomOp) (wide : Bool) (m : MOp) (base val : SrcD) (s s1 : State) (u : ThreadId) (xs : List Dword) (l : Loc) (pte : Option Pte),
    let i : Instr := .atomn h op wide m base val
    let z := if wide then 8 else 4
    s.Solo i u → s.readOps u (State.srcsOf i) = .ok xs →
    (s.accessBy i u).accessAddr u m.spc .rmw (baseAddr m (arg xs 0)) z = (s1, .loc l pte) → s1.poisonAt l z = false →
    ∃ t, exec i s = .next t ∧ s1.mem = s.mem ∧ Spec.Placed s1 t l (leBytes (Spec.rmw op wide (leNat (s1.readLoc l z)) ((arg xs 1).toNat % 2 ^ (8 * z))) z)
      ∧ State.SameRegs (s.readBy i u) t)
  ∧ (∀ (h : Hdr) (wide : Bool) (m : MOp) (d : Dst) (base cn : SrcD) (s s1 : State) (u : ThreadId) (xs : List Dword) (c n : Dword) (l : Loc) (pte : Option Pte),
    let i : Instr := .cas h wide m d base cn
    let z := if wide then 8 else 4
    s.Solo i u → s.readOps u (State.srcsOf i) = .ok xs → casOperands s u wide cn.src = .ok (c, n) →
    (s.accessBy i u).accessAddr u m.spc .rmw (baseAddr m (arg xs 0)) z = (s1, .loc l pte) → s1.poisonAt l z = false →
    ∃ t, exec i s = .next t ∧ Spec.InFlight t i u (resWords (z / 4) (BitVec.ofNat 64 (leNat (s1.readLoc l z)))) ∧ s1.mem = s.mem ∧ State.SameRegs (s.readBy i u) t
      ∧ (leNat (s1.readLoc l z) = c.toNat → Spec.Placed s1 t l (leBytes n.toNat z))
      ∧ (leNat (s1.readLoc l z) ≠ c.toNat → t.mem = s1.mem ∧ t.teams = s1.teams))
  ∧ (∀ (h : Hdr) (add : Bool) (m : MOp) (base val : SrcD) (s s1 : State) (u : ThreadId) (xs : List Dword) (l : Loc) (pte : Option Pte),
    let i : Instr := .sigs h add m base val
    s.Solo i u → s.readOps u (State.srcsOf i) = .ok xs →
    (s.accessBy i u).accessAddr u m.spc .rmw (baseAddr m (arg xs 0)) 8 = (s1, .loc l pte) → s1.poisonAt l 8 = false →
    ∃ t, exec i s = .next t ∧ s1.mem = s.mem ∧ State.SameRegs (s.readBy i u) t
      ∧ Spec.Placed s1 t l (leBytes (if add then (leNat (s1.readLoc l 8) + (arg xs 1).toNat) % 2 ^ 64 else (arg xs 1).toNat) 8))

/-- Accesses that fault and sources that cannot be read have no effect but the trap. A load that faults leaves a fault in flight and no register value; a
store that faults traps its thread at the word with cause and address; a lane whose source cannot be read traps with that cause. Memory, scratchpads
and registers are unchanged. That a load’s fault comes due with its result is the model’s reading (log entry 11). (Rests on R81, R97, R405, R41, R66.) -/
def Obligations.AccessFaults : Prop :=
  ((∀ (h : Hdr) (ty : OTy) (m : MOp) (d : Dst) (base off : SrcD) (s s1 : State) (u : ThreadId) (xs : List Dword) (c : Cause) (n : Nat),
    let i : Instr := .ld h ty m d base off
    let a := Spec.address m (ty.width / 8) (arg xs 0) (arg xs 1)
    s.Solo i u → s.readOps u (State.srcsOf i) = .ok xs → isHost u = false →
    (s.accessBy i u).accessAddr u m.spc .load a (ty.width / 8) = (s1, .fault c n) →
    ∃ t, exec i s = .next t ∧ (∃ p ∈ (t.thread u).pend, p.fault = some (c, n, a) ∧ p.vw = [] ∧ p.sw = []) ∧ t.mem = s.mem ∧ State.SameRegs (s.readBy i u) t)
  ∧ (∀ (h : Hdr) (ty : OTy) (m : MOp) (data : Src) (base off : SrcD) (s s1 s2 : State) (u : ThreadId) (xs : List Dword) (bs : List Byte) (c c' : Cause) (n n' : Nat),
    let i : Instr := .st h ty m data base off
    let a := Spec.address m (ty.width / 8) (arg xs 0) (arg xs 1)
    s.Solo i u → s.readOps u (State.srcsOf i) = .ok xs → isHost u = false → s.holdsLease u = false → (s.thread u).trap = none → (s.thread u).pend = [] →
    s.storeData u ty data = .ok bs → ((s.accessBy i u).tookReads u [(⟨data, false⟩, ty)]).accessAddr u m.spc .store a bs.length = (s1, .fault c n) →
    (({ s.begun i with wordEv := (s.begun i).nextEv } : State).tookReads u [(⟨data, false⟩, ty)]).accessAddr u m.spc .store a bs.length = (s2, .fault c' n') →
    ∃ t, exec i s = .next t ∧ (t.thread u).status = .trapped ∧ (t.thread u).pc = s.wordPc ∧ t.mem = s.mem ∧ t.teams = s.teams
      ∧ ∃ x, (t.thread u).trap = some x ∧ x.cause = c' ∧ x.fpc = s.wordPc ∧ x.faddr = a))
  ∧ (∀ (i : Instr) (f : Thread → List Dword → Res) (s : State) (u : ThreadId) (c : Cause), Spec.laneOp i = some f → s.Solo i u →
    s.readOps u (State.srcsOf i) = .error c → isHost u = false → s.holdsLease u = false → (s.thread u).trap = none → (s.thread u).pend = [] →
    ∃ t, exec i s = .next t ∧ Spec.Trapped t u c 0 s.wordPc (s.wordPc + BitVec.ofNat 64 i.size) ∧ (t.thread u).v = (s.thread u).v ∧ (t.thread u).preds = (s.thread u).preds
      ∧ t.mem = s.mem ∧ t.teams = s.teams)

/-- A translation checks range, walk, key and permission in this order. An address out of range gives XLAT, a failing walk its own cause, a wrong key or
permission PERM, and otherwise the access reaches the physical address of its page; a thread of a context that is no handler may only use pages of its
own key. (Rests on R43, R387, R384.) -/
def Obligations.TranslationChecks : Prop :=  ∀ (s : State) (u : ThreadId) (k : Acc) (va : Dword),
    (sxOk va = false → (s.globalAddr u k va).2 = .error (.xlat, 0))
    ∧ (sxOk va = true → ∀ s1 e, s.translate u va = (s1, .error e) → s.globalAddr u k va = (s1, .error e))
    ∧ (sxOk va = true → ∀ s1 pte, s.translate u va = (s1, .ok pte) → s1.keyOk u k va pte.key = false ∨ State.permOk k pte = false →
        s.globalAddr u k va = (s1, .error (.perm, 0)))
    ∧ (sxOk va = true → ∀ s1 pte pa, s.translate u va = (s1, .ok pte) → s1.keyOk u k va pte.key = true → State.permOk k pte = true →
        s1.physOf u.wave.core.pkg pte va = some pa → s.globalAddr u k va = (s1, .ok (pa, pte)))
    ∧ (isHost u = false → (s.grid (s.team (s.teamOf u)).grid).handler = false → ∀ key, s.keyOk u k va key = decide (key = s.ctxOf u))

/-- FENCE and PFEN complete or block their thread. A fence of core scope has no further effect; a wider one blocks the thread until its accesses are
performed. PFEN has no effect in uniform form and otherwise blocks until the two paths are in step. A fence leaves an event with its side and its
scope in the history of accesses, after every earlier one; what it orders is what the history’s rules say (log entry 3). (Rests on R289, R290.) -/
def Obligations.FenceWords : Prop :=  (∀ (h : Hdr) (m : MOp),
    ((m.scp = none ∨ m.scp = some .core) → Spec.Does (.fence h m) Spec.always fun s _ _ _ => s)
    ∧ ∀ sc, m.scp = some sc → sc ≠ .core → Spec.Does (.fence h m) Spec.always fun s u _ _ => s.stopThread u (.blocked (.fence sc)))
  ∧ (∀ (h : Hdr) (m : MOp) (s : State) (u : ThreadId), s.Solo (.fence h m) u → s.trace ≠ [] →
    ∃ t, exec (.fence h m) s = .next t
      ∧ ∃ e ∈ t.trace, e.kind = .fence ∧ e.who = s.whoOf u ∧ e.ord = m.ord ∧ e.scp = some (m.scp.getD .core) ∧ ∀ w ∈ s.trace, w.id < s.nextEv → w.id < e.id)
  ∧ ∀ (h : Hdr) (p q : Path),
    Spec.Does (.pfen h p q) (fun s u _ _ => s.unif u = true) (fun s _ _ _ => s)
    ∧ Spec.Does (.pfen h p q) (fun s u _ _ => s.unif u = false) fun s u _ _ => s.stopThread u (.blocked (.pfen p q))

/-- PREF, CINV and CWB complete and act on the core’s copy of a line, never on memory. PREF asks for the line where the core lacks the copy it wants, and
has no effect where its access would fault; CINV drops a copy with the notice its state asks for, CWB writes an owned copy back to S, and neither does
anything to a line its own thread leases. Memory does not change. (Rests on R296, R297, R256, R258.) -/
def Obligations.CacheWords : Prop :=  (∀ (h : Hdr) (lvl : PrefLvl) (m : MOp) (base off : SrcD),
    Spec.Leaves (.pref h lvl m base off) (fun s u _ xs x => ∃ s1 pa pte, s.spaceAddr u m.spc .load (memAddr m 1 (arg xs 0) (arg xs 1)) 1 false = (s1, .loc (.mem pa) (some pte))
      ∧ x = if lvl = .l2 ∨ Map.has (s1.core u.wave.core).l1 (lineOf pa) = true ∧ (lvl = .l1 ∨ s1.ownsLine u.wave.core (lineOf pa) = true) then s1
            else s1.miss u [] (lvl = .l1x) pte (memAddr m 1 (arg xs 0) (arg xs 1)) pa)
    ∧ Spec.Leaves (.pref h lvl m base off) (fun s u _ xs x => ∃ r, s.spaceAddr u m.spc .load (memAddr m 1 (arg xs 0) (arg xs 1)) 1 false = (x, r)
      ∧ ((∃ c n, r = .fault c n) ∨ ∃ l, r = .loc l none)))
  ∧ (∀ (h : Hdr) (m : MOp) (base off : SrcD) (inv : Bool) (i : Instr), i = .cinv h m base off ∧ inv = true ∨ i = .cwb h m base off ∧ inv = false →
    Spec.Leaves i (fun s u _ xs x => ∃ s1 pa pte, s.spaceAddr u m.spc .load (memAddr m 1 (arg xs 0) (arg xs 1)) 1 false = (s1, .loc (.mem pa) (some pte))
      ∧ lineOf pa ∉ s1.poison
      ∧ x = if lineOf pa ∈ s1.ownLines u then s1
            else s1.cacheOp u.wave.core (lineOf pa) inv (s1.firstHome u.wave.core.pkg pte (memAddr m 1 (arg xs 0) (arg xs 1)) pa).1)
    ∧ Spec.Leaves i (fun s u _ xs x => ∃ l, s.spaceAddr u m.spc .load (memAddr m 1 (arg xs 0) (arg xs 1)) 1 false = (x, .loc l none)))
  ∧ ∀ (s : State) (c : CoreId) (line : Nat) (home : Agent), s.lineLeased line = false → (s.core c).evict.length < 16 →
    Map.find ((s.cacheOp c line true home).core c).l1 line = none
    ∧ (Map.find (s.core c).l1 line = some .s → ∃ n m, Map.find (s.cacheOp c line true home).net n = some m ∧ m.kind = .puts ∧ m.line = line ∧ m.dst = home)
    ∧ (Map.find (s.core c).l1 line = some .m ∨ Map.find (s.core c).l1 line = some .e →
        (∃ n m, Map.find (s.cacheOp c line true home).net n = some m ∧ m.kind = .puto ∧ m.line = line ∧ m.dst = home)
        ∧ Map.find ((s.cacheOp c line false home).core c).l1 line = some .s
        ∧ ∃ n m, Map.find (s.cacheOp c line false home).net n = some m ∧ m.kind = .wbs ∧ m.line = line ∧ m.dst = home)
    ∧ (s.cacheOp c line true home).mem = s.mem ∧ (s.cacheOp c line false home).mem = s.mem

/-- LEASE asks for a line, LREL commits, a broken lease restores its snapshot. LEASE blocks its thread until the line is granted, first or nested; LREL
ends the lease with its stores kept and one read-modify-write of each leased line in the history of accesses, and has no effect without a lease. A
broken lease puts the snapshot bytes back and no others, writes the reason code to the destination of the LEASE and goes to the fail target. (Rests on
R291, R292, R294, R264, R266.) -/
def Obligations.LeaseWords : Prop :=
  ((∀ (h : Hdr) (m : MOp) (d : Dst) (base : SrcD) (disp : Src),
    Spec.Leaves (.lease h m d base disp) (fun s u pc xs x => ∃ s1 pa pte, s.spaceAddr u .g .rmw (arg xs 0) 1 false = (s1, .loc (.mem pa) (some pte))
      ∧ (s1.thread u).lease = none ∧ sxOk (pc + BitVec.ofInt 64 (8 * (lo32 (arg xs 1)).toInt)) = true
      ∧ x = s1.wantLease u { failTarget := pc + BitVec.ofInt 64 (8 * (lo32 (arg xs 1)).toInt), dst := d, pc, ord := m.ord, scp := m.scp.getD .core } pte (arg xs 0) pa d)
    ∧ Spec.Leaves (.lease h m d base disp) (fun s u _ xs x => ∃ s1 pa pte l, s.spaceAddr u .g .rmw (arg xs 0) 1 false = (s1, .loc (.mem pa) (some pte))
      ∧ (s1.thread u).lease = some l ∧ l.lines.length < 2 ∧ (∀ y ∈ l.lines, y.line ≠ lineOf pa) ∧ x = s1.wantLease u l pte (arg xs 0) pa d))
  ∧ (∀ (h : Hdr) (m : MOp),
    Spec.Does (.lrel h m) (fun s u _ _ => s.holdsLease u = true) (fun s u _ _ => s.dropLease u false)
    ∧ Spec.Does (.lrel h m) (fun s u _ _ => s.holdsLease u = false) fun s _ _ _ => s)
  ∧ (∀ (h : Hdr) (m : MOp) (s : State) (u : ThreadId) (l : Lease), s.Solo (.lrel h m) u → (s.thread u).lease = some l →
    ∃ t, exec (.lrel h m) s = .next t ∧ ∀ y ∈ l.lines, ∃ e ∈ t.trace, e.kind = .rmw ∧ e.who = s.whoOf u ∧ e.base = .mem y.line ∧ e.old = y.snapshot
      ∧ e.new = memBytes s.mem y.line 128 ∧ e.ord = m.ord ∧ e.scp = some (m.scp.getD .core))
  ∧ ∀ (s : State) (u : ThreadId) (l : Lease) (pte : Pte) (va : Dword) (pa : Nat) (d : Dst),
    ((s.wantLease u l pte va pa d).thread u).status = .blocked .grant
    ∧ ((s.wantLease u l pte va pa d).thread u).lease = some { l with want := some (lineOf pa, va, s.now u.wave.core), wantDst := d }
    ∧ (s.wantLease u l pte va pa d).mem = s.mem ∧ State.SameRegs s (s.wantLease u l pte va pa d))
  ∧ (∀ (s : State) (u : ThreadId) (l : Lease), (s.thread u).lease = some l →
    ((s.dropLease u false).thread u).lease = none ∧ (s.dropLease u false).mem = s.mem
    ∧ ((s.dropLease u true).thread u).lease = none
    ∧ (∀ y ∈ l.lines, l.lines = [y] → memBytes (s.dropLease u true).mem y.line y.snapshot.length = y.snapshot)
    ∧ (∀ n, (∀ y ∈ l.lines, ¬(y.line ≤ n ∧ n < y.line + y.snapshot.length)) → memRead (s.dropLease u true).mem n = memRead s.mem n)
    ∧ ∀ r, ((s.breakLease u r).thread u).pc = l.failTarget ∧ ((s.breakLease u r).thread u).lease = none ∧ (s.breakLease u r).mem = (s.dropLease u true).mem
        ∧ (∀ n, l.dst = .v n → Map.find ((s.breakLease u r).thread u).v n = some (BitVec.ofNat 32 r))
        ∧ ∀ n, l.dst = .s n → ((s.breakLease u r).wave u.wave).sreg n = BitVec.ofNat 32 r)

/-- SIGW completes where the condition holds and blocks where it does not. Where the eight bytes satisfy the condition, SIGW completes at once with the
value in its destination; otherwise its thread blocks at the word. Memory does not change. (Rests on R363.) -/
def Obligations.SignalWait : Prop :=  ∀ (h : Hdr) (cc : SigCc) (m : MOp) (d : Dst) (base val : SrcD) (s s1 : State) (u : ThreadId) (xs : List Dword) (l : Loc) (pte : Option Pte) (b : State),
    let i : Instr := .sigw h cc m d base val
    s.Solo i u → s.readOps u (State.srcsOf i) = .ok xs → s.holdsLease u = false → b = (s.begun i).modThread u (fun th => th.touch (State.srcsOf i)) →
    b.accessAddr u .g .load (arg xs 0) 8 = (s1, .loc l pte) → s1.poisonAt l 8 = false →
    ∃ t bs, exec i s = .next t ∧ Spec.returns s1 (s1.threadEv u .load) l 8 bs ∧ t.mem = s.mem ∧
      let x := leNat bs
      let holds : Prop := match cc with | .ge => (arg xs 1).toNat ≤ x | .eq => x = (arg xs 1).toNat | .ne => x ≠ (arg xs 1).toNat
      (holds → (t.thread u).status = .runnable ∧ (t.thread u).pc = s.wordPc + BitVec.ofNat 64 i.size
        ∧ (t.thread u).Holds (.reg d 2 true true) (BitVec.ofNat 64 x) ∧ (t.wave u.wave).Holds (.reg d 2 true true) (BitVec.ofNat 64 x))
      ∧ (¬holds → ∃ k, (t.thread u).status = .blocked (.sigw cc (arg xs 0) (arg xs 1) d (m.scp.getD .core) (deadRegs (State.srcsOf i))
          (s.wordPc + BitVec.ofNat 64 i.size) k) ∧ (t.thread u).pc = s.wordPc ∧ (t.thread u).v = (s.thread u).v)

/-- SWI, BRK and unassigned opcodes take their traps. On a compute core SWI, BRK and an unassigned opcode trap their threads with SWTRAP, BRKPT and ILLOP,
the code, the address of the word and of the next; on a host core SWI and BRK enter level 1 or 2 with the cause and the code. Memory does not change.
(Rests on R373, R405, R376, R71.) -/
def Obligations.SoftwareTraps : Prop :=  (∀ (h : Hdr) (n : Nat) (s : State) (u : ThreadId), n < 256 → (s.thread u).trap = none → s.holdsLease u = false → isHost u = false →
    (s.Solo (.swi h n) u → ∃ t, exec (.swi h n) s = .next t ∧ Spec.Trapped t u .swtrap n s.wordPc (s.wordPc + 8) ∧ t.mem = s.mem)
    ∧ (s.Solo (.brk h n) u → ∃ t, exec (.brk h n) s = .next t ∧ Spec.Trapped t u .brkpt n s.wordPc s.wordPc ∧ t.mem = s.mem))
  ∧ (∀ (h : Hdr) (n : Nat) (s : State) (u : ThreadId), n < 256 → isHost u = true → s.holdsLease u = false →
    let lvl := if Spec.level s u = 0 then 1 else 2
    let vec := if Spec.level s u = 0 then (s.host u.wave.core).kvec else (s.host u.wave.core).mvec
    (s.Solo (.swi h n) u → ∃ t, exec (.swi h n) s = .next t ∧ (t.thread u).pc = vec ∧ t.mem = s.mem
      ∧ t.host u.wave.core = State.hostEnterRegs (s.host u.wave.core) lvl (s.wordPc + 8) (BitVec.ofNat 64 (0x0E + 256 * n)) 0)
    ∧ (s.Solo (.brk h n) u → ∃ t, exec (.brk h n) s = .next t ∧ (t.thread u).pc = vec ∧ t.mem = s.mem
      ∧ t.host u.wave.core = State.hostEnterRegs (s.host u.wave.core) lvl s.wordPc (BitVec.ofNat 64 (0x0F + 256 * n)) 0))
  ∧ ∀ (w : Dword) (s : State), s.group.Nodup → (∀ u ∈ s.group, (s.thread u).trap = none ∧ s.holdsLease u = false ∧ isHost u = false) →
    ∃ t, exec (.unassignedOpcode w) s = .next t ∧ t.mem = s.mem
      ∧ ∀ u ∈ s.group, Spec.Trapped t u .illop 0 (s.thread u).pc ((s.thread u).pc + 8)

/-- GROW and SHRK complete: they change a wave’s allotment, or answer why not. Each of the constructors grow and shrk completes wherever its word can
issue. GROW answers the status and the allotment after it, and the grown registers come with its result; SHRK drops the top registers at once with
their values, keeps the others, and refuses to go below eight. (Rests on R370, R371, R41.) -/
def Obligations.AllotmentWords : Prop :=  (∀ (h : Hdr) (d : Dst) (k : Src) (s : State) (u : ThreadId), s.Solo (.grow h d k) u →
    let n := countOf k
    let a := (s.wave u.wave).allot + growing s u.wave
    let most := if isHostCore u.wave.core then 256 else (s.grid (s.team (s.teamOf u)).grid).kern.allotMax
    let st := if most < a + n then 1 else if regFile (s.regsOf ⟨u.wave, 0⟩) < regsInUse s u.wave.core + n then 2 else 0
    ∃ t, exec (.grow h d k) s = .next t ∧ State.Kept s.group s t ∧ State.LaneKept (fun _ => []) s t ∧ (∀ v, (t.thread v).flags = (s.thread v).flags)
      ∧ ∃ p ∈ (t.thread u).pend, p.due = (t.core s.focus).readyAt - 1 + 8 ∧ p.fault = none
        ∧ p.Brings (microOf (.grow h d k) fun _ => ⟨0, 0⟩).dst true (BitVec.ofNat 64 (st * 2 ^ 24 + (if st = 0 then a + n else a) % 512))
        ∧ (st = 0 → p.kind = .grow n))
  ∧ (∀ (s : State) (u : ThreadId) (p : Pending) (n : Nat), p.kind = .grow n →
    ((s.deliver u p).wave u.wave).allot = (s.wave u.wave).allot + n)
  ∧ ∀ (h : Hdr) (d : Dst) (k : Src) (s : State) (u : ThreadId), s.Solo (.shrk h d k) u →
    let a := (s.wave u.wave).allot
    let ok : Prop := countOf k + 8 ≤ a
    let a' := a - countOf k
    (∀ l < 32, ∀ p ∈ (s.thread ⟨u.wave, l⟩).pend, ∀ x ∈ p.vw, x.1 < a') →
    ∃ t, exec (.shrk h d k) s = .next t ∧ t.mem = s.mem ∧ t.teams = s.teams
      ∧ (∀ v, (t.thread v).flags = (s.thread v).flags ∧ (t.thread v).preds = (s.thread v).preds) ∧ (∀ v, v.wave ≠ u.wave → (t.thread v).v = (s.thread v).v)
      ∧ (∀ w r, ¬(w = u.wave ∧ d = .s r) → (t.wave w).sreg r = (s.wave w).sreg r) ∧ (∀ w, w ≠ u.wave → (t.wave w).allot = (s.wave w).allot)
      ∧ (∀ l < 32, ∀ r, ¬(ok ∧ a' ≤ r ∧ r < a) → ¬(⟨u.wave, l⟩ = u ∧ d = .v r) → Map.find (t.thread ⟨u.wave, l⟩).v r = Map.find (s.thread ⟨u.wave, l⟩).v r)
      ∧ (ok → (t.wave u.wave).allot = a' ∧ (∀ l < 32, ∀ r, a' ≤ r → r < a → Map.find (t.thread ⟨u.wave, l⟩).v r = none)
        ∧ (∀ r, d = .v r → r < a' → Map.find (t.thread u).v r = some (BitVec.ofNat 32 (a' % 512)))
        ∧ ∀ r, d = .s r → (t.wave u.wave).sreg r = BitVec.ofNat 32 (a' % 512))
      ∧ (¬ok → (t.wave u.wave).allot = a
        ∧ (∀ r, d = .v r → r < a → Map.find (t.thread u).v r = some (BitVec.ofNat 32 (2 ^ 24 + a % 512)))
        ∧ ∀ r, d = .s r → (t.wave u.wave).sreg r = BitVec.ofNat 32 (2 ^ 24 + a % 512))

/-- MMA, CPY, CPYI, KVX, COLL, CGRP.create and CGRP.free complete; they wait for room or trap on the descriptor. Each of the constructors mma, cpy, cpyi,
kvx, coll, cgrpCreate and cgrpFree completes: where the queue has room and the descriptor’s place is good, exec answers a next state in which the
operation is listed and its token is pending (Spec.engine names the seven; on a host core the six that it may run); with no room the word waits a
cycle; a descriptor misaligned or outside the scratchpad traps ALIGN or XLAT and starts nothing. Nothing else changes. (Rests on R194, R215, R298,
R299, R35.) -/
def Obligations.EngineWords : Prop :=  (∀ (i : Instr) (k : OpKind) (tok : Nat) (x : SrcD) (z : Option Nat) (lim : Nat) (s : State) (u : ThreadId) (a : Dword),
    Spec.engine i = some (k, tok, x, z, lim) → s.Solo i u → isHost u = false → s.holdsLease u = false → s.readOp u x.src .b32 = .ok a →
    Spec.queued s s.focus k < lim → (∀ n, z = some n → a.toNat % 8 = 0 ∧ a.toNat + n ≤ s.scrSize (s.teamOf u)) →
    ∃ t, exec i s = .next t ∧ Spec.Started i s t u k tok a s.nextId [(x, .b32)] ∧ t.pkgs = s.pkgs ∧ ∀ o, t.op s.nextId = some o → o.glob = false)
  ∧ (∀ (i : Instr) (k : OpKind) (tok : Nat) (x : SrcD) (n lim : Nat) (s s1 : State) (u : ThreadId) (a : Dword) (bs : List Byte),
    Spec.engine i = some (k, tok, x, some n, lim) → k ≠ .mma → s.Solo i u → isHost u = true → s.holdsLease u = false → s.readOp u x.src .b64 = .ok a →
    Spec.queued s s.focus k < lim → a.toNat % 8 = 0 → (s.begun i).threadRead u a n = (s1, .ok bs) →
    ∃ t, exec i s = .next t ∧ Spec.Started i s t u k tok a s.nextId [(x, .b64)] ∧ ∀ o, t.op s.nextId = some o → o.glob = true ∧ o.block = bs)
  ∧ (∀ (h : Hdr) (tok : Nat) (x : SrcD) (s : State) (u : ThreadId) (a : Dword), s.Solo (.cgrpFree h tok x) u → isHost u = true → s.holdsLease u = false →
    s.readOp u x.src .b32 = .ok a → Spec.queued s s.focus .cgrpFree < 8 →
    ∃ t, exec (.cgrpFree h tok x) s = .next t ∧ Spec.Started (.cgrpFree h tok x) s t u .cgrpFree tok a s.nextId [(x, .b32)] ∧ t.pkgs = s.pkgs)
  ∧ (∀ (i : Instr) (k : OpKind) (tok : Nat) (x : SrcD) (z : Option Nat) (lim : Nat) (s : State) (u : ThreadId),
    Spec.engine i = some (k, tok, x, z, lim) → s.Solo i u → lim ≤ Spec.queued s s.focus k →
    ∃ t, exec i s = .next t ∧ { t with dies := s.dies } = s ∧ t.now s.focus = s.now s.focus + 1)
  ∧ ∀ (i : Instr) (k : OpKind) (tok : Nat) (x : SrcD) (n lim : Nat) (s : State) (u : ThreadId) (a : Dword),
    Spec.engine i = some (k, tok, x, some n, lim) → s.Solo i u → isHost u = false → s.holdsLease u = false → (s.thread u).trap = none →
    s.readOp u x.src .b32 = .ok a → Spec.queued s s.focus k < lim → (a.toNat % 8 ≠ 0 ∨ s.scrSize (s.teamOf u) < a.toNat + n) →
    ∃ t, exec i s = .next t ∧ Spec.Trapped t u (if a.toNat % 8 ≠ 0 then .align else .xlat) 0 s.wordPc (s.wordPc + BitVec.ofNat 64 i.size) ∧ t.ops = s.ops ∧ t.mem = s.mem

/-- LNCH, PAPP, DQRY and PCLS complete: their request is handed on, a token pending. Each of the constructors lnch, papp, dqry and pcls completes: exec
answers a next state on a compute core, papp, dqry and pcls on a host core too. LNCH hands its packet to the package’s Skein, and traps DEPTH at depth
10; PAPP, DQRY and PCLS hand a request with handle, record and place to the pool’s owner. Each lists an operation and changes nothing else. That the
record is read at issue with the pool’s record size is the model’s choice (log entry 38). (Rests on R366, R367, R368, R352.) -/
def Obligations.LaunchAndPoolWords : Prop :=
  ((∀ (h : Hdr) (tok : Nat) (x : SrcD) (s : State) (u : ThreadId) (a : Dword), s.Solo (.lnch h tok x) u → s.holdsLease u = false →
    s.readOp u x.src .b32 = .ok a → a.toNat % 8 = 0 → a.toNat + 64 ≤ s.scrSize (s.teamOf u) → s.poisonAt (.scr (s.teamOf u) a.toNat) 64 = false →
    (s.grid (s.team (s.teamOf u)).grid).depth < 10 →
    ∃ t, exec (.lnch h tok x) s = .next t ∧ Spec.Started (.lnch h tok x) s t u .lnch tok a s.nextId [(x, .b32)]
      ∧ t.pkg u.wave.core.pkg = { s.pkg u.wave.core.pkg with
          launches := (s.pkg u.wave.core.pkg).launches ++ [{ op := s.nextId, packet := s.scrBytes (s.teamOf u) a.toNat 64 }] }
      ∧ ∀ q, q ≠ u.wave.core.pkg → t.pkg q = s.pkg q)
  ∧ ∀ (h : Hdr) (tok : Nat) (x : SrcD) (s : State) (u : ThreadId) (a : Dword), s.Solo (.lnch h tok x) u → s.holdsLease u = false → (s.thread u).trap = none →
    s.readOp u x.src .b32 = .ok a → a.toNat % 8 = 0 → a.toNat + 64 ≤ s.scrSize (s.teamOf u) → s.poisonAt (.scr (s.teamOf u) a.toNat) 64 = false →
    10 ≤ (s.grid (s.team (s.teamOf u)).grid).depth →
    ∃ t, exec (.lnch h tok x) s = .next t ∧ Spec.Trapped t u .depth 0 s.wordPc (s.wordPc + BitVec.ofNat 64 (Instr.lnch h tok x).size) ∧ t.ops = s.ops ∧ t.mem = s.mem)
  ∧ ((∀ (i : Instr) (k : OpKind) (tok : Nat) (x y : SrcD) (s : State) (u : ThreadId) (hd a : Dword),
    Spec.pool i = some (k, tok, x, some y) → s.Solo i u → isHostCore u.wave.core = false → s.holdsLease u = false → s.readOps u [(x, .b32), (y, .b32)] = .ok [hd, a] →
    let p := u.wave.core.pkg
    let z := s.poolRec p (Spec.num hd)
    a.toNat % 8 = 0 → (k = .papp → a.toNat + z ≤ s.scrSize (s.teamOf u) → s.poisonAt (.scr (s.teamOf u) a.toNat) z = false) →
    ∃ t r, exec i s = .next t ∧ Spec.Started i s t u k tok a s.nextId [(x, .b32), (y, .b32)] ∧ Spec.Requested s t (s.poolOwner p (Spec.num hd)) r
      ∧ (∀ q, q ≠ s.poolOwner p (Spec.num hd) → t.pkg q = s.pkg q)
      ∧ r.op = s.nextId ∧ r.handle = lo32 hd ∧ r.ctx = s.ctxOf u ∧ r.alloc = some (s.scrSize (s.teamOf u)) ∧ r.off = a
      ∧ (k = .papp → a.toNat + z ≤ s.scrSize (s.teamOf u) → r.record = s.scrBytes (s.teamOf u) a.toNat z))
  ∧ (∀ (h : Hdr) (tok : Nat) (x y : SrcD) (s s1 : State) (u : ThreadId) (hd a : Dword) (bs : List Byte),
    s.Solo (.papp h tok x y) u → isHost u = true → s.holdsLease u = false → s.readOps u [(x, .b32), (y, .b64)] = .ok [hd, a] →
    let p := u.wave.core.pkg
    a.toNat % 8 = 0 → (s.begun (.papp h tok x y)).threadRead u a (s.poolRec p (Spec.num hd)) = (s1, .ok bs) →
    ∃ t r, exec (.papp h tok x y) s = .next t ∧ Spec.Started (.papp h tok x y) s t u .papp tok a s.nextId [(x, .b32), (y, .b64)]
      ∧ Spec.Requested s1 t (s.poolOwner p (Spec.num hd)) r
      ∧ r.op = s.nextId ∧ r.handle = lo32 hd ∧ r.ctx = s.ctxOf u ∧ r.alloc = none ∧ r.off = a ∧ r.record = bs)
  ∧ (∀ (h : Hdr) (tok : Nat) (x y : SrcD) (s s1 s2 : State) (u : ThreadId) (hd a : Dword) (l1 l2 : Nat × Pte),
    s.Solo (.dqry h tok x y) u → isHost u = true → s.holdsLease u = false → s.readOps u [(x, .b32), (y, .b64)] = .ok [hd, a] →
    let p := u.wave.core.pkg
    let z := s.poolRec p (Spec.num hd)
    a.toNat % 8 = 0 → (z = 0 ∧ s2 = s.begun (.dqry h tok x y) ∨ 0 < z ∧ (s.begun (.dqry h tok x y)).globalAddr u .store a = (s1, .ok l1)
      ∧ s1.globalAddr u .store (a + BitVec.ofNat 64 (z - 1)) = (s2, .ok l2)) →
    ∃ t r, exec (.dqry h tok x y) s = .next t ∧ Spec.Started (.dqry h tok x y) s t u .dqry tok a s.nextId [(x, .b32), (y, .b64)]
      ∧ Spec.Requested s2 t (s.poolOwner p (Spec.num hd)) r ∧ r.op = s.nextId ∧ r.handle = lo32 hd ∧ r.ctx = s.ctxOf u ∧ r.alloc = none ∧ r.off = a)
  ∧ ∀ (h : Hdr) (tok : Nat) (x : SrcD) (s : State) (u : ThreadId) (hd : Dword), s.Solo (.pcls h tok x) u → s.holdsLease u = false →
    s.readOps u [(x, .b32)] = .ok [hd] →
    ∃ t r, exec (.pcls h tok x) s = .next t ∧ Spec.Started (.pcls h tok x) s t u .pcls tok 0 s.nextId [(x, .b32)]
      ∧ Spec.Requested s t (s.poolOwner u.wave.core.pkg (Spec.num hd)) r ∧ (∀ q, q ≠ s.poolOwner u.wave.core.pkg (Spec.num hd) → t.pkg q = s.pkg q)
      ∧ r.op = s.nextId ∧ r.handle = lo32 hd ∧ r.ctx = s.ctxOf u)

/-- TRSV, TREL, TRNG, TRD, TWR, ACCZ, ACCLD, ACCST, ACCMV and MWAIT complete. A reservation answers its status and base and makes a range that overlaps no
other; release and ring reset act at once or wait for the operations that use the handle; reads and writes touch the bytes named and no others.
Accumulator tiles are zeroed, moved element by element, or moved by an operation the thread waits for; MWAIT waits for the team’s MMAs. (Rests on
R207, R208, R210, R211, R226, R227, R228, R221, R183, R184.) -/
def Obligations.OperandBuffersAndTiles : Prop :=
  ((∀ (h : Hdr) (d : Dst) (b a : Nat) (s : State) (u : ThreadId), s.Solo (.trsv h d b a) u →
    let r := (pair64 ((s.wave u.wave).sreg (a + 1)) ((s.wave u.wave).sreg a)).toNat
    let (st, base) := Spec.reserve s u b r
    let w : Word := BitVec.ofNat 32 (st * 2 ^ 24 + base)
    ∃ t, exec (.trsv h d b a) s = .next t ∧ t.mem = s.mem ∧ (∀ n, d = .v n → Map.find (t.thread u).v n = some w) ∧ (∀ n, d = .s n → (t.wave u.wave).sreg n = w)
      ∧ (st ≠ 0 → t.teams = s.teams)
      ∧ (st = 0 → ∃ x, t.tob (s.teamOf u) b = some x ∧ x.base = base ∧ x.len = r / 2 ^ 10 % 1024 ∧ x.fmt = r / 2 ^ 20 % 16 ∧ x.skind = r / 2 ^ 24 % 4
          ∧ x.pf = r.testBit 26 ∧ x.ring = r.testBit 27 ∧ x.planes = r / 2 ^ 28 % 16 ∧ x.scoff = r / 2 ^ 32 % 2 ^ 19 ∧ x.ppos = 0 ∧ x.cpos = 0
          ∧ (∀ y ∈ s.coreRanges u.wave.core, y.1 + y.2 ≤ base ∨ base + x.len ≤ y.1)
          ∧ ∀ c, c ≠ b → t.tob (s.teamOf u) c = s.tob (s.teamOf u) c))
  ∧ (∀ (h : Hdr) (b : Nat),
    Spec.Does (.trel h b) (fun s u _ _ => s.tobFor (s.teamOf u) b s.nextId = none) (fun s _ _ _ => s)
    ∧ Spec.Does (.trel h b) (fun s u _ _ => s.tobFor (s.teamOf u) b s.nextId ≠ none ∧ s.handleBusy (s.teamOf u) b s.nextId = false)
      (fun s u _ _ => s.freeTob (s.teamOf u) b)
    ∧ Spec.Does (.trel h b) (fun s u _ _ => s.tobFor (s.teamOf u) b s.nextId ≠ none ∧ s.handleBusy (s.teamOf u) b s.nextId = true)
      (fun s u _ _ => s.stopThread u (.blocked (.trel b s.nextId)))
    ∧ Spec.Does (.trng h b) (fun s u _ _ => s.handleBusy (s.teamOf u) b s.nextId = false) (fun s u _ _ => s.resetRing (s.teamOf u) b)
    ∧ Spec.Does (.trng h b) (fun s u _ _ => s.handleBusy (s.teamOf u) b s.nextId = true) fun s u _ _ => s.stopThread u (.blocked (.trng b s.nextId)))
  ∧ (∀ (s : State) (tm b : Nat), (s.freeTob tm b).tob tm b = none
    ∧ ∀ x, s.tob tm b = some x → (s.resetRing tm b).tob tm b = some (if x.ring then { x with ppos := 0, cpos := 0 } else x))
  ∧ (∀ (h : Hdr) (b : Nat) (wide : Bool) (x y : SrcD), Spec.Does (.twr h b wide x y)
      (fun s u _ xs => Spec.inRange s (s.teamOf u) b (arg xs 0).toNat (if wide then 8 else 4) false) fun s u _ xs =>
        (s.taintRange (s.teamOf u) b).setTob (s.teamOf u) b (arg xs 0).toNat (leBytes (arg xs 1).toNat (if wide then 8 else 4)))
  ∧ (∀ (s : State) (tm b off : Nat) (bs : List Byte) (x : Tob), s.tob tm b = some x →
    ∃ y, (s.setTob tm b off bs).tob tm b = some y ∧ (∀ k, k < bs.length → y.byte (off + k) = bs.getD k 0)
      ∧ ∀ k, k < off ∨ off + bs.length ≤ k → y.byte k = x.byte k)
  ∧ ∀ (h : Hdr) (d : Dst) (b : Nat) (wide : Bool) (a : SrcD) (s : State) (u : ThreadId) (xs : List Dword) (x : Tob),
    let i : Instr := .trd h d b wide a
    let z := if wide then 8 else 4
    s.Solo i u → s.readOps u (State.srcsOf i) = .ok xs → Spec.inRange s (s.teamOf u) b (arg xs 0).toNat z true → s.tob (s.teamOf u) b = some x →
    ∃ t, exec i s = .next t ∧ t.mem = s.mem ∧ t.teams = s.teams ∧ State.SameRegs (s.readBy i u) t
      ∧ ∃ p ∈ (t.thread u).pend, p.kind = .trd ∧ p.due = (t.core s.focus).readyAt - 1 + 3
        ∧ ∀ n, d = .v n → p.vw = (List.range (z / 4)).map fun j =>
            (n + j, BitVec.ofNat 32 (leNat ((List.range 4).map fun k => x.byte ((arg xs 0).toNat + 4 * j + k)))))
  ∧ ((∀ (i : Instr) (k : Nat) (s : State) (u : ThreadId), Spec.tileWord i = some k → s.Solo i u → ¬ Spec.tileFree s u k s.wordPc →
    ∃ t, exec i s = .next t ∧ State.Alike (Spec.tileHeld (s.begun i) u k s.wordPc) t)
  ∧ (∀ (s : State) (u : ThreadId), ((s.thread u).place = none → s.leavePlace [u] = s) ∧ ((s.leavePlace [u]).thread u).place = none)
  ∧ (∀ (h : Hdr) (k : Nat), Spec.Does (.accz h k) (fun s u pc _ => Spec.tileFree s u k pc) fun s u _ _ =>
      (s.setTile (s.teamOf u) k { s.tile (s.teamOf u) k with data := [], zeroed := true, poison := false }).leavePlace [u])
  ∧ (∀ (h : Hdr) (g : Bool) (k : Nat) (x y : SrcD) (i : Instr) (kind : OpKind),
      i = .accld h g k x y ∧ kind = .accld ∨ i = .accst h g k x y ∧ kind = .accst →
    Spec.Does i (fun s u pc xs => Spec.tileFree s u k pc ∧ (g = false ∨ s.holdsLease u = false) ∧ (arg xs 0).toNat % 4 = 0 ∧ Spec.num (arg xs 1) % 4 = 0
        ∧ 256 ≤ Spec.num (arg xs 1) ∧ (kind = .accst → (s.tile (s.teamOf u) k).poison = false)) fun s u pc xs =>
      ((({ s with nextId := s.nextId + 1 } : State).startOp s.nextId
        { kind, issuer := u, team := s.teamOf u, ctx := s.ctxOf u, grid := (s.team (s.teamOf u)).grid, core := u.wave.core, wave := u.wave,
          wnum := (s.wave u.wave).num, epc := pc, st := .active, tiles := [k], tile := k, addr := arg xs 0, stride := Spec.num (arg xs 1), glob := g,
          at_ := s.now u.wave.core }).stopThread u (.blocked (.accMove s.nextId))).leavePlace [u])
  ∧ (∀ (h : Hdr) (d k : Nat) (r : SrcD),
    Spec.Does (.accmvRd h d k r) (fun s u pc _ => Spec.tileFree s u k pc ∧ (s.tile (s.teamOf u) k).poison = false) fun s u _ xs =>
      (s.modThread u (·.writeVs d [(s.tile (s.teamOf u) k).elem (64 * ((arg xs 0).toNat % 64) + u.lane),
        (s.tile (s.teamOf u) k).elem (64 * ((arg xs 0).toNat % 64) + u.lane + 32)])).leavePlace [u])
  ∧ (∀ (h : Hdr) (k a : Nat) (dead : Bool) (r : SrcD),
    ∀ (s : State) (u : ThreadId) (xs : List Dword) (w0 w1 : Word), s.Solo (.accmvWr h k a dead r) u →
      s.readOps u (State.srcsOf (.accmvWr h k a dead r)) = .ok xs → Spec.tileFree s u k s.wordPc → s.readSpan u a 2 = .ok [w0, w1] →
      let b := s.readBy (.accmvWr h k a dead r) u
      let n := 64 * ((arg xs 0).toNat % 64) + u.lane
      let x := b.setTile (s.teamOf u) k (((s.tile (s.teamOf u) k).setElem n w0).setElem (n + 32) w1)
      ∃ t, exec (.accmvWr h k a dead r) s = .next t
        ∧ State.Alike ((if dead then x.modThread u fun th => th.killAll [a, a + 1] else x).leavePlace [u]) t)
  ∧ (∀ (x : Tile) (n m : Nat) (w : Word), (x.setElem n w).elem m = if m = n then w else x.elem m)
  ∧ ∀ h : Hdr,
    Spec.Does (.mwait h) (fun s u _ _ => ∀ y ∈ s.ops, y.2.kind = .mma → y.2.team = s.teamOf u → y.2.pending = false) (fun s _ _ _ => s)
    ∧ Spec.Does (.mwait h) (fun s u _ _ => ∃ y ∈ s.ops, y.2.kind = .mma ∧ y.2.team = s.teamOf u ∧ y.2.pending = true) fun s u _ _ =>
      s.stopThread u (.blocked (.mwait ((s.ops.filter fun y => y.2.kind = .mma && y.2.team = s.teamOf u && y.2.pending).map (·.1)))))

/-- MXR completes with every element of its product in flight. For each active lane i and column j, MXR has in flight the rounded sum of the 16 products
of the lane’s row and the column that lane j supplies (zero where it is no member) and the accumulated element, due 16 + j/4 cycles after issue;
memory and teams are unchanged. (Rests on R223, R224, R225.) -/
def Obligations.FragmentMultiply : Prop :=  ∀ (h : Hdr) (fa fb : MxrFmt) (sat : Bool) (d a b : Nat) (da db : Bool) (s : State),
    let i : Instr := .mxr h fa fb sat d a b da db
    let na := if fa.wide then 8 else 4
    let nb := if fb.wide then 8 else 4
    s.Ready i → (s.group.map (·.lane)).Nodup → (∀ u ∈ s.group, (s.thread u).passes h.guard = true →
      (s.readSpan u a na).isOk = true ∧ (s.readSpan u b nb).isOk = true ∧ (s.readSpan u d 32).isOk = true) →
    let span (d n : Nat) (dead : Bool) : List (SrcD × OTy) := (List.range n).map fun j => (⟨.v (d + j), dead⟩, .b32)
    ∃ t, exec i s = .next t ∧ State.Kept s.group s t ∧ (∀ u ∈ s.group, (t.thread u).pc = s.wordPc + 8 ∧ (t.thread u).flags = (s.thread u).flags)
      ∧ State.LaneKept (fun _ => [{ guard := h.guard, srcs := span a na da ++ span b nb db, dst := .zero, f := fun _ => ⟨0, 0⟩ }]) s t
      ∧ ∀ u ∈ s.group, (s.thread u).passes h.guard = true → ∀ row crow, s.readSpan u a na = .ok row → s.readSpan u d 32 = .ok crow →
        ∀ j < 32, ∀ col, (∃ v ∈ s.group, v.lane = j ∧ s.readSpan v b nb = .ok col) ∨ (∀ v ∈ s.group, v.lane ≠ j) ∧ col = [] →
          ∃ p ∈ (t.thread u).pend, p.kind = .mxr ∧ p.due = (t.core s.focus).readyAt - 1 + 16 + j / 4
            ∧ (d + j, BitVec.ofNat 32 (Spec.fragElem fa fb sat row col (crow.getD j 0)).1) ∈ p.vw

/-- KVQ completes with the core’s copy of a channel word. KVQ writes the core’s copy of the status word of a channel of the thread’s context, and 0 for
any other channel; nothing else changes. (Rests on R312.) -/
def Obligations.ChannelQuery : Prop :=  ∀ (h : Hdr) (d : Dst) (c : SrcD) (s : State),
    let i : Instr := .kvq h d c
    s.Ready i → s.Readable (State.readsOf i) →
    ∃ t, exec i s = .next t ∧ State.Kept s.group s t ∧ State.LaneKept (fun _ => [microOf i fun _ => ⟨0, 0⟩]) s t
      ∧ (∀ u ∈ s.group, (t.thread u).flags = (s.thread u).flags)
      ∧ ∀ u ∈ s.group, (s.thread u).passes h.guard = true → ∀ xs, s.readOps u (State.srcsOf i) = .ok xs →
        (t.thread u).Holds (microOf i fun _ => ⟨0, 0⟩).dst
          (match Map.find (s.core u.wave.core).kvCopy (Spec.num (arg xs 0)) with
            | some (c, w) => if c = s.ctxOf u then w.setWidth 64 else 0
            | none => 0)

/-- Events of threads: waits end, results arrive, leases begin and break. The end of an exclusion, a recheck of SIGW, the end of FENCE and PFEN, the
arrival of results and faults, urgency, TRD and MXR results, the end of a tile wait, the grant, deferred begin, expiry and nested timeout of a lease
come about exactly where they are due and leave what their rules say. An event is an instruction of the model (log entry 6): where it is not due it is
refused by name. (Rests on R331, R364, R289, R290, R97, R80, R329, R211, R225, R183, R263, R266.) -/
def Obligations.ThreadEvents : Prop :=  ∀ (u : ThreadId) (s : State),
    let now := s.now u.wave.core
    let th := s.thread u
    (Spec.Event (.yldExclusionEnd u) (fun s => ∃ n, (s.thread u).yldUntil = some n ∧ n ≤ s.now u.wave.core) fun s t =>
      Spec.OnlyThread u s t ∧ t.thread u = { s.thread u with yldUntil := none })
    ∧ (∀ cc addr val d sc dead next k s1 l pte, th.status = .blocked (.sigw cc addr val d sc dead next k) → s.accessAddr u .g .load addr 8 = (s1, .loc l pte) →
        s1.poisonAt l 8 = false → ∃ t bs, exec (.sigwRecheck u) s = .next t ∧ Spec.returns s1 (s1.threadEv u .load) l 8 bs ∧ t.mem = s.mem ∧
        let x := leNat bs
        let holds : Prop := match cc with | .ge => val.toNat ≤ x | .eq => x = val.toNat | .ne => x ≠ val.toNat
        (holds → (t.thread u).status = .runnable ∧ (t.thread u).pc = next
          ∧ (t.thread u).Holds (.reg d 2 true true) (BitVec.ofNat 64 x) ∧ (t.wave u.wave).Holds (.reg d 2 true true) (BitVec.ofNat 64 x))
        ∧ (¬holds → (∃ k', (t.thread u).status = .blocked (.sigw cc addr val d sc dead next k')) ∧ (t.thread u).pc = th.pc ∧ (t.thread u).v = th.v))
    ∧ Spec.Event (.fenceDone u) (fun s => (∃ sc, (s.thread u).status = .blocked (.fence sc)) ∧ State.openOf (s.core u.wave.core) u = ([], []) ∧ s.mirroring u = false)
      (fun s t => { t.present with threads := s.threads, free := s.free } = s.present ∧ (∀ v, v ≠ u → t.thread v = s.thread v)
        ∧ (∀ p ∈ (t.thread u).pend, p.load = none)
        ∧ t.thread u = { s.thread u with status := .runnable, waitSince := s.now u.wave.core, pend := (t.thread u).pend })
    ∧ (∀ p q, th.status = .blocked (.pfen p q) → ∃ t, exec (.pfenDone u) s = .next t ∧ { t.present with threads := s.threads } = s.present
        ∧ (∀ v, v ≠ u → t.thread v = s.thread v) ∧ t.thread u = { th with status := .runnable, waitSince := now })
    ∧ Spec.Event (.resultDelivery u)
      (fun s => u ∉ (s.core u.wave.core).group ∧ ((∃ k, (s.thread u).status = .blocked (.result k) ∧ k ≤ s.now u.wave.core)
        ∨ ∃ p ∈ (s.thread u).longPends, p.due ≤ s.now u.wave.core))
      (fun s t =>
        let due : Pending → Bool := fun p => !p.kind.quick && decide (p.due ≤ s.now u.wave.core)
        (∀ p ∈ (s.thread u).pend.filter due, p.fault = none) →
          (t.thread u).pend = (s.thread u).pend.filter (!due ·) ∧ Spec.Arrived u ((s.thread u).pend.filter due) s t ∧ t.mem = s.mem
          ∧ (∀ k, (s.thread u).status = .blocked (.result k) → k ≤ s.now u.wave.core → (t.thread u).status = .runnable)
          ∧ ((∀ k, (s.thread u).status = .blocked (.result k) → s.now u.wave.core < k) → (t.thread u).status = (s.thread u).status))
    ∧ (∀ p c a fa, u ∉ (s.core u.wave.core).group → (th.pend.filter fun q => !q.kind.quick && decide (q.due ≤ now)) = [p] → p.fault = some (c, a, fa) →
        isHost u = false → s.holdsLease u = false → th.trap = none → ∃ t, exec (.resultDelivery u) s = .next t ∧ Spec.Trapped t u c a p.fpc th.pc)
    ∧ Spec.Event (.fairnessUrgent u)
      (fun s => (s.thread u).status = .runnable ∧ (s.thread u).urgent = none ∧ s.prog u = true ∧ (s.regsOf u).fairPeriod.toNat ≤ s.waitCount u)
      (fun s t => (t.thread u).urgent = some (s.coreTime u.wave.core - (s.waitCount u - (s.regsOf u).fairPeriod.toNat)) ∧ (t.thread u).v = (s.thread u).v ∧ t.mem = s.mem)
    ∧ (∀ i k, i = Instr.trdDelivery u ∧ k = PendKind.trd ∨ i = .mxrWriteback u ∧ k = .mxr →
      Spec.Event i (fun s => ∃ p ∈ (s.thread u).pend, p.kind = k ∧ p.due ≤ s.now u.wave.core) fun s t =>
        let due : Pending → Bool := fun p => p.kind.quick && decide (p.due ≤ s.now u.wave.core)
        (t.thread u).pend = (s.thread u).pend.filter (!due ·) ∧ Spec.Arrived u ((s.thread u).pend.filter due) s t ∧ t.mem = s.mem)
    ∧ Spec.Event (.tileWaitEnd u) (fun s => ∃ k n, (s.thread u).status = .blocked (.tile k n) ∧ s.tileBusy (s.teamOf u) k n = false)
      (fun s t => Spec.WokenAll (fun v => Spec.Waits s (s.teamOf u) v (match (s.thread u).status with | .blocked on => on | _ => .hostWait)) s t)
    ∧ (∀ l line va since, th.status = .blocked .grant → th.lease = some l → l.want = some (line, va, since) →
        let free : Prop := l.deferred = false ∧ s.ownsLine u.wave.core line = true ∧ s.lineLeased line = false ∧ s.turnBefore u line since = false
          ∧ (l.lines = [] → s.leasesOn u.wave.core < 8)
        let later : Prop := l.lines = [] ∧ s.defersLeases u.wave.core = true
        let gone : Prop := l.deferred = false ∧ s.ownsLine u.wave.core line = false ∧ ∀ m ∈ (s.core u.wave.core).misses, m.line ≠ line
        (free → ¬later → ∃ t, exec (.leaseGrant u) s = .next t ∧ Spec.LeaseBegun u l line va s t)
        ∧ (free → later → ∃ t, exec (.leaseGrant u) s = .next t ∧ Spec.OnlyThread u s t ∧ t.thread u = { th with lease := some { l with deferred := true } })
        ∧ (gone → exec (.leaseGrant u) s = .next (s.askLease u l va)) ∧ (¬free → ¬gone → ∃ why, exec (.leaseGrant u) s = .refused (.notEnabled why)))
    ∧ (∀ l line va since, th.status = .blocked .grant → th.lease = some l → l.want = some (line, va, since) → l.deferred = true → s.defersLeases u.wave.core = false →
        s.lineLeased line = false → s.leasesOn u.wave.core < 8 →
        (s.ownsLine u.wave.core line = true → l.lines = [] → ∃ t, exec (.leaseDeferredBegin u) s = .next t ∧ Spec.LeaseBegun u l line va s t)
        ∧ (s.ownsLine u.wave.core line = false → exec (.leaseDeferredBegin u) s = .next (s.askLease u l va)))
    ∧ (∀ (l : Lease) va s1 pa pte, (s.modThread u fun th => { th with lease := some { l with deferred := false } }).globalAddr u .rmw va = (s1, .ok (pa, pte)) →
        s.askLease u l va = (s1.modThread u fun th => { th with lease := th.lease.map fun l => { l with want := l.want.map fun (_, x) => (lineOf pa, x) } }).miss u [u] true pte va pa)
    ∧ Spec.Event (.leaseExpiry u) (fun s => ∃ l, (s.thread u).lease = some l ∧ l.lines ≠ [] ∧ l.deadline ≤ s.now u.wave.core) (fun s t => t = s.breakLease u 1)
    ∧ Spec.Event (.nestedLeaseTimeout u)
      (fun s => ∃ l a b n, (s.thread u).lease = some l ∧ l.lines ≠ [] ∧ l.want = some (a, b, n) ∧ n + 64 ≤ s.now u.wave.core) fun s t => t = s.breakLease u 4

/-- Events of cores, waves and teams: long waits, granules, releases, tile moves. A group that waits too long ends its run, absent granules fill, waiting
releases, ring resets and MWAITs end, and a tile move between accumulator and scratchpad copies its 64 rows of 64 words, other bytes untouched. An
event is an instruction of the model (log entry 6): where it is not due it is refused by name. (Rests on R80, R96, R208, R210, R221, R227.) -/
def Obligations.TeamEvents : Prop :=  (∀ c : CoreId,
    let due (s : State) (u : ThreadId) : Nat := (s.thread u).longPends.foldl (fun m p => if p.la = 0 then max m p.due else m) 0
    Spec.Event (.longWaitExpiry c)
      (fun s => (∃ u ∈ (s.core c).group, s.coreTime c + 16 < due s u) ∧ ∀ u ∈ (s.core c).group, (s.thread u).latchOnly = false) fun s t =>
      let waits (u : ThreadId) : Prop := u ∈ (s.core c).group ∧ s.coreTime c < due s u
      (t.core c).group = [] ∧ (∀ u, waits u → (t.thread u).status = .blocked (.result (due s u))) ∧ (∀ u, ¬waits u → (t.thread u).status = (s.thread u).status)
      ∧ (∀ u, (t.thread u).v = (s.thread u).v ∧ (t.thread u).pend = (s.thread u).pend) ∧ t.mem = s.mem)
  ∧ (∀ (w : WaveId) (g : Nat),
    Spec.Event (.granuleFill w g) (fun s => ∃ a, (s.wave w).absent = some a ∧ g ∈ a.granules) fun s t =>
      { t with waves := s.waves, threads := s.threads } = s ∧ (∀ v, v ≠ w → t.wave v = s.wave v)
      ∧ (∀ a, (s.wave w).absent = some a → t.wave w = { s.wave w with absent := a.without g })
      ∧ ∀ u, let woken : Prop := u.wave = w ∧ u.lane < 32 ∧ ∃ gs, (s.thread u).status = .blocked (.fill gs) ∧ ∀ k ∈ gs, ∀ a, (t.wave w).absent = some a → k ∉ a.granules
        (woken → t.thread u = { s.thread u with status := .runnable, waitSince := s.now w.core }) ∧ (¬woken → t.thread u = s.thread u))
  ∧ (∀ tm b : Nat,
    let ready (s : State) (u : ThreadId) : Prop := ∃ n, Spec.Waits s tm u (.trel b n) ∧ s.handleBusy tm b n = false
    Spec.Event (.trelDone tm b) (fun s => ∃ u, ready s u) fun s t =>
      (∀ u, ready s u → (t.thread u).status = .runnable) ∧ t.tob tm b = none ∧ (∀ c, c ≠ b → t.tob tm c = s.tob tm c) ∧ t.mem = s.mem)
  ∧ (∀ tm b : Nat,
    let ready (s : State) (u : ThreadId) : Prop := ∃ n, Spec.Waits s tm u (.trng b n) ∧ s.handleBusy tm b n = false
    Spec.Event (.trngDone tm b) (fun s => ∃ u, ready s u) fun s t =>
      (∀ u, ready s u → (t.thread u).status = .runnable) ∧ (∀ x, s.tob tm b = some x → x.ring = true → t.tob tm b = some { x with ppos := 0, cpos := 0 })
      ∧ (∀ c, c ≠ b → t.tob tm c = s.tob tm c) ∧ t.mem = s.mem)
  ∧ (∀ tm : Nat,
    let ready (s : State) (u : ThreadId) : Prop := ∃ ns, Spec.Waits s tm u (.mwait ns) ∧ ∀ n ∈ ns, ∀ o, s.op n = some o → o.pending = false
    Spec.Event (.mwaitEnd tm) (fun s => ∃ u, ready s u) fun s t =>
      (∀ u, ready s u → (t.thread u).status = .runnable) ∧ { t with threads := s.threads } = s)
  ∧ ∀ (n : Nat) (o : Op) (s : State), s.op n = some o → (s.team o.team).onCore = true → o.glob = false → 256 ≤ o.stride → o.stride < 2 ^ 32 →
    let at_ (r : Nat) : Nat := (o.addr + BitVec.ofNat 64 (r * o.stride)).toNat
    (∀ r < 64, at_ r + 256 ≤ s.scrSize o.team) →
    (o.kind = .accld → (∀ r < 64, s.poisonAt (.scr o.team (at_ r)) 256 = false) → ∃ t, ∃ bs : Nat → List Byte, exec (.accMoveDone n) s = .next t ∧ t.op n = none ∧ t.mem = s.mem
      ∧ (∀ r < 64, Spec.returns s (s.opEv o) (.scr o.team (at_ r)) 256 (bs r))
      ∧ (∀ r < 64, ∀ j < 64, (t.tile o.team o.tile).elem (64 * r + j) = BitVec.ofNat 32 (field (bs r) (4 * j) 4)) ∧ (∀ k, t.scrByte o.team k = s.scrByte o.team k)
      ∧ ∀ u, Spec.Waits s o.team u (.accMove n) → (t.thread u).status = .runnable)
    ∧ (o.kind = .accst → ∃ t, exec (.accMoveDone n) s = .next t ∧ t.op n = none ∧ t.mem = s.mem ∧ t.tile o.team o.tile = s.tile o.team o.tile
      ∧ (∀ r < 64, Spec.wrote s t (s.opEv o) (.scr o.team (at_ r)) ((List.range 64).flatMap fun j => leBytes ((s.tile o.team o.tile).elem (64 * r + j)).toNat 4))
      ∧ (∀ k, (∀ r < 64, ¬(at_ r ≤ k ∧ k < at_ r + 256)) → t.scrByte o.team k = s.scrByte o.team k)
      ∧ ∀ u, Spec.Waits s o.team u (.accMove n) → (t.thread u).status = .runnable)

/-- Events of the matrix unit: acceptance, completion, faults, streams, self-test. An MMA at the head of its queue ends with the status of the first check
that fails or becomes active; the operations of a core start in turn, one at a time for the time R204 gives; one completes with its chunks added and
its descriptor’s progress written, stops at a fault with the record of it, takes stream tiles in order, and delivers its token once a pattern product
has followed it; the product fences failing sub-arrays and marks the results they touched. An event is an instruction of the model (log entry 6):
where it is not due it is refused by name. (Rests on R193, R194, R195, R198, R199, R190, R191, R201, R202, R203, R218.) -/
def Obligations.MatrixEvents : Prop :=  (∀ n : Nat,
    Spec.Event (.mmaAccept n) (fun s => ∃ o, s.op n = some o ∧ o.kind = .mma ∧ o.st = .queued ∧ (s.team o.team).onCore = true ∧ s.running o.core.pkg = true
        ∧ ∀ y ∈ s.ops, y.1 < n → y.2.team = o.team → y.2.kind = .mma → y.2.st ≠ .queued) fun s t =>
      t.mem = s.mem ∧ (∀ tm k, t.tile tm k = s.tile tm k) ∧ ∀ o q, s.op n = some o → q = { o with block := s.scrBytes o.team o.off.toNat 96 } →
        let shape : Prop := Spec.dimOk q.mmaM ∧ Spec.dimOk q.mmaN ∧ 64 ≤ q.mmaK ∧ q.mmaK ≤ 2 ^ 24 ∧ q.mmaK % 64 = 0
        (¬shape → Spec.Ended t n o 0x21 q.kdone)
        ∧ (shape → 16 < q.mmaM / 64 * (q.mmaN / 64) ∨ (s.team o.team).nacc < q.acc0 + q.mmaM / 64 * (q.mmaN / 64) → Spec.Ended t n o 0x22 q.kdone)
        ∧ (∀ st, s.mmaCheck n q = .error st → Spec.Ended t n o st q.kdone ∧ t.teams = s.teams)
        ∧ ∀ a b, s.mmaCheck n q = .ok (a, b) →
          (q.mmaK / 64 ≤ q.kdone → Spec.Ended t n o 0 (q.mmaK / 64) ∧ Spec.wrote s t (s.opEv o) (.scr o.team (o.off.toNat + 0xC)) (leBytes (q.mmaK / 64) 4)
            ∧ Spec.wrote s t (s.opEv o) (.scr o.team (o.off.toNat + 0x50)) [0])
          ∧ (q.kdone < q.mmaK / 64 → t.teams = s.teams ∧ ∃ x, t.op n = some x ∧ x.st = .active ∧ x.block = q.block ∧ x.done = q.kdone
              ∧ x.tiles = (List.range (q.mmaM / 64 * (q.mmaN / 64))).map (q.acc0 + ·)))
  ∧ (∀ (s : State) (c : CoreId), s.mmaOccupied c = true → s.startNext c = s)
  ∧ (∀ (s : State) (c : CoreId) (n : Nat) (o : Op), s.mmaOccupied c = false → s.mmaWaiting c = [((s.team o.team).slot, n)] → s.op n = some o →
    ∃ x, (s.startNext c).op n = some x ∧ x.startAt = some (s.now c) ∧ x.done = o.done ∧ x.st = o.st ∧ (s.startNext c).mem = s.mem ∧ (s.startNext c).teams = s.teams)
  ∧ (∀ (n : Nat) (s s1 : State) (o o1 : Op) (a b : Opnd), s.mmaActive n = some (o, a, b) → (a.ring = false ∧ b.ring = false ∨ o.mmaK / 64 ≤ o.done) →
    o.startAt.getD 0 + s.mmaTime o a b ≤ s.now o.core → s.runChunks n a b (o.mmaK / 64 + 1) o = (s1, o1, none) →
    ∃ t, exec (.mmaComplete n) s = .next t ∧ Spec.Ended t n o1 0 o1.done ∧ Spec.wrote s1 t (s1.opEv o1) (.scr o1.team (o1.off.toNat + 0xC)) (leBytes o1.done 4)
      ∧ Spec.wrote s1 t (s1.opEv o1) (.scr o1.team (o1.off.toNat + 0x50)) [0] ∧ t.mem = s1.mem ∧ ∀ tm k, t.tile tm k = s1.tile tm k)
  ∧ (∀ (n : Nat) (s s1 : State) (o o1 : Op) (a b : Opnd) (c : Cause) (lvl : Nat) (va : Dword) (side : Bool), s.mmaActive n = some (o, a, b) → a.ring = false →
    b.ring = false → s.runChunks n a b (o.mmaK / 64 + 1) o = (s1, o1, some (some (c, lvl, va), side)) →
    let w (t : State) (k : Nat) (bs : List Byte) : Prop := Spec.wrote s1 t (s1.opEv o1) (.scr o1.team (o1.off.toNat + k)) bs
    ∃ t, exec (.mmaFaultStop n) s = .next t ∧ Spec.Ended t n o1 0x0C o1.done ∧ w t 0xC (leBytes o1.done 4) ∧ w t 0x50 [BitVec.ofNat 8 c.code]
      ∧ w t 0x51 [if side then 1 else 0] ∧ w t 0x52 [BitVec.ofNat 8 (if c = .walkf then lvl else 0)] ∧ w t 0x58 (leBytes va.toNat 8) ∧ t.mem = s1.mem
      ∧ (∀ tm k, t.tile tm k = s1.tile tm k)
      ∧ ∃ r, (t.context o1.ctx).post = (s1.context o1.ctx).post ++ [r] ∧ r.kind = 2 ∧ r.cause = 0x0C ∧ r.arg = o1.tok ∧ r.faddr = va)
  ∧ (∀ (n : Nat) (s s1 : State) (o o1 : Op) (a b x : Opnd) (r : Tob), s.mmaActive n = some (o, a, b) → o.done < o.mmaK / 64 → a.ring = true ∨ b.ring = true →
    s.stageFixed n o a b = (s1, .ok o1) → x = (if a.ring = true ∧ o1.rowsA.length < o1.mmaM then a else b) → s1.tob o1.team x.handle = some r →
    (r.ppos ≤ r.cpos → ∃ why, exec (.streamTileConsume n) s = .refused (.notEnabled why))
    ∧ (r.cpos < r.ppos → r.cpos = 2 ^ 32 - 1 → ∃ t, exec (.streamTileConsume n) s = .next t ∧ Spec.Ended t n o1 0x27 o1.done)
    ∧ ∀ rs, r.cpos < r.ppos → r.cpos < 2 ^ 32 - 1 → s1.rangeRows o1 x (r.cpos % r.slots * slotBytes x.fmt x.skind x.scoff) 64 0 64 = .ok rs →
        ∃ t, exec (.streamTileConsume n) s = .next t ∧ t.tob o1.team x.handle = some { r with cpos := r.cpos + 1 } ∧ t.mem = s1.mem)
  ∧ (∀ (c : CoreId) (bad : Nat),
    let hit (y : Nat × Op) : Prop := y.2.kind = .mma ∧ y.2.core = c ∧ y.2.tiles ≠ [] ∧ y.2.pending = false ∧ y.2.tested = false
    let all (s : State) : Prop := (s.mmaOccupied c = true ∧ (s.core c).workSince + 65536 ≤ s.now c) ∨ ∃ y ∈ s.ops, hit y
    let new (s : State) (k : Nat) : Prop := k < 16 ∧ bad.testBit k = true ∧ (s.core c).fence.testBit k = false ∧ (all s ∨ k ∈ (s.core c).calls)
    Spec.Event (.patternProduct c bad) (fun s => all s ∨ (s.core c).calls ≠ []) fun s t =>
      (t.core c).calls = [] ∧ (all s → (t.core c).workSince = s.now c) ∧ t.mem = s.mem
      ∧ ((∀ k, ¬new s k) → (t.core c).fence = (s.core c).fence ∧ t.teams = s.teams ∧ ∀ n o, s.op n = some o → ∃ q, t.op n = some q ∧ q.st = o.st)
      ∧ ((∃ k, new s k) → (∀ k < 16, (t.core c).fence.testBit k = true ↔ ((s.core c).fence.testBit k = true ∨ new s k))
          ∧ (5 ≤ ((List.range 16).filter (t.core c).fence.testBit).length → (t.core c).retired = true)
          ∧ (all s → ∀ n o, (n, o) ∈ s.ops → hit (n, o) → Spec.Completed t n 0x0A ∧ ∀ k ∈ o.tiles, (t.tile o.team k).poison = true)))
  ∧ (∀ (s : State) (n : Nat) (o : Op) (a b : Opnd) (q : Nat), q < o.mmaM / 64 * (o.mmaN / 64) →
    let cols := o.mmaN / 64
    (s.addStaged n o a b).1.tile o.team (o.acc0 + q) =
        ((s.tile o.team (o.acc0 + q)).addChunk a b o.sat ((o.rowsA.drop (64 * (q / cols))).take 64) ((o.rowsB.drop (64 * (q % cols))).take 64)).1
      ∧ (s.addStaged n o a b).2.done = o.done + 1 ∧ (s.addStaged n o a b).1.mem = s.mem)
  ∧ ∀ (x : Tile) (a b : Opnd) (sat : Bool) (ras cbs : List (List Byte)) (i j : Nat), i < 64 → j < 64 →
    (x.addChunk a b sat ras cbs).1.elem (64 * i + j) = BitVec.ofNat 32 (chunkStep a b sat (ras.getD i []) (cbs.getD j []) (x.elem (64 * i + j)).toNat).1

/-- Events of the engines: tokens, acceptance, copies, pools. A completed operation delivers its token value and wakes the threads that wait for it;
acceptance applies the checks in order; a copy moves its elements and no other bytes, or stops at a fault with the record of it; a pool’s owner
appends, claims and closes with the statuses and counts of Table 14.6. Copies take effect whole at completion (log entry 4). An event is an
instruction of the model (log entry 6): where it is not due it is refused by name. (Rests on R35, R299, R301, R303, R304, R305, R190, R366, R368,
R351.) -/
def Obligations.EngineEvents : Prop :=  (∀ n : Nat,
    Spec.Event (.tokenComplete n) (fun s => ∃ o x, s.op n = some o ∧ o.st = .completed x ∧ State.Op.untested o = false ∧ s.opHome o = true) fun s t =>
      ∀ o x, s.op n = some o → o.st = .completed x → t.op n = none ∧ t.mem = s.mem
        ∧ ((s.wave o.wave).team ≠ o.team → t.waves = s.waves ∧ t.threads = s.threads)
        ∧ ((s.wave o.wave).team = o.team → (t.wave o.wave).isPending o.tok = false ∧ (t.wave o.wave).sreg o.tok = x
          ∧ (∀ r, r ≠ o.tok → (t.wave o.wave).sreg r = (s.wave o.wave).sreg r) ∧ (t.thread o.issuer).flags = (s.thread o.issuer).flags ||| o.flags
          ∧ ∀ u th, (u, th) ∈ s.threads → th.status = .blocked (.token o.wave o.tok) → (t.thread u).status = .runnable))
  ∧ (∀ (n : Nat) (s : State) (o : Op), Spec.turn s n o → o.kind = .cpy ∨ o.kind = .cpyi ∨ o.kind = .kvx ∨ o.kind = .coll →
    ∃ t, exec (.engineAccept n) s = .next t ∧ t.mem = s.mem
      ∧ match (Spec.checks s n o (s.readDesc o (Spec.descSize o.kind))).find? (·.1 = false) with
        | some (_, st) => Spec.Completed t n st ∧ (o.kind = .kvx → st = 0x40 ∨ st = 0x51 → ∀ c, c = s.chan o.core.pkg (field (s.readDesc o 64) 0 2) → c.state ≠ 0 → c.ctx = o.ctx →
            Map.has (s.pkg o.core.pkg).kv (field (s.readDesc o 64) 0 2) = true → (t.chan o.core.pkg (field (s.readDesc o 64) 0 2)).lerr = st)
        | none => ∃ q, t.op n = some q ∧ (q.st = .active ∨ o.kind = .cpy ∧ q.st = .waitRing) ∧ q.block = s.readDesc o (Spec.descSize o.kind))
  ∧ (∀ (n : Nat) (s s1 : State) (o o1 : Op), s.copyReady n = some o → s.copyGo o = (s1, o1, none) →
    let x := cpyDesc o1.block
    let ringed : Prop := o1.kind = .cpy ∧ x.dst.sp = 5 ∧ x.adv = true
    (¬ringed → ∃ t, exec (.copyComplete n) s = .next t ∧ Spec.Ended t n o1 0 (State.copyResult o1))
    ∧ ∀ r, ringed → s1.tob o1.team x.dst.hnd = some r →
      (r.ppos < 2 ^ 32 - 1 → ∃ t, exec (.copyComplete n) s = .next t ∧ Spec.Ended t n o1 0 (State.copyResult o1)
        ∧ t.tob o1.team x.dst.hnd = some { r with ppos := r.ppos + 1 })
      ∧ (r.ppos = 2 ^ 32 - 1 → ∃ t, exec (.copyComplete n) s = .next t ∧ Spec.Ended t n o1 0x27 (State.copyResult o1)))
  ∧ (∀ (n : Nat) (s s1 : State) (o o1 : Op) (c : Cause) (lvl : Nat) (va : Dword) (side : Nat), s.copyReady n = some o →
    s.copyGo o = (s1, o1, some (some (c, lvl, va), side)) →
    ∃ t, exec (.engineFaultStop n) s = .next t ∧ Spec.Ended t n o1 c.code (State.copyResult o1)
      ∧ ∃ r, (t.context o1.ctx).post = (s1.context o1.ctx).post ++ [r] ∧ r.kind = 2 ∧ r.cause = c.code ∧ r.arg = o1.tok ∧ r.faddr = va)
  ∧ (∀ (s : State) (o : Op) (x : CpyDesc) (i : Nat), x.conv = 0 → x.src.sp = 1 →
    let a := (x.sbase + BitVec.ofInt 64 (strideSum x.sstr (coords x.ext i))).toNat
    let b := (x.dbase + BitVec.ofInt 64 (strideSum x.dstr (coords x.ext i))).toNat
    a % x.esz = 0 → b % x.esz = 0 → a + x.esz ≤ s.scrSize o.team → b + x.esz ≤ s.scrSize o.team → s.poisonAt (.scr o.team a) x.esz = false →
    ∃ t bs, s.cpyUnit o x { sp := 1 } i = (t, .ok ()) ∧ Spec.returns s (s.opEv o) (.scr o.team a) x.esz bs ∧ Spec.Stored s t (s.opEv o) (.scr o.team b) bs)
  ∧ (∀ n : Nat,
    Spec.Event (.ringProducerResume n) (fun s => ∃ o, s.op n = some o ∧ o.kind = .cpy ∧ o.st = .waitRing ∧ s.opHome o = true
        ∧ s.ringRoom o (cpyDesc o.block).dst.hnd = true ∧ s.ringCopyBefore n o (cpyDesc o.block).dst.hnd = false) fun s t =>
      { t with ops := s.ops } = s ∧ ∀ o, s.op n = some o → t.op n = some { o with st := .active, num := n })
  ∧ (∀ (p : Nat) (s : State) (r : PoolReq) (rest : List PoolReq) (o : Op), Spec.oldest s p .papp r rest o →
    (s.poolFor r = none → ∃ t, exec (.poolAppend p) s = .next t ∧ Spec.Ended t r.op o 0x73 0 ∧ (t.pkg p).poolReqs = rest)
    ∧ ∀ k x, s.poolFor r = some (k, x) → (∀ c cs, x.waiting = c :: cs → s.recordHeld c x.recSize = false) →
      ∃ t, exec (.poolAppend p) s = .next t ∧ (t.pkg p).poolReqs = rest
        ∧ (if State.poolPast r x = true then Spec.Ended t r.op o 0x74 0 ∧ t.pools = s.pools
           else if x.closed = true then Spec.Ended t r.op o 0x72 0 ∧ t.pools = s.pools
           else if x.cap ≤ x.records.length then Spec.Ended t r.op o 0x71 0 ∧ t.pools = s.pools
           else match x.waiting with
            | [] => Spec.Ended t r.op o 0 (Spec.count (x.records.length + 1)) ∧ Map.find t.pools k = some { x with records := x.records ++ [r.record], givers := x.givers ++ [r.op] }
            | c :: cs => Spec.Ended t r.op o 0 (Spec.count x.records.length) ∧ Map.find t.pools k = some { x with waiting := cs }
                ∧ ((s.op c).isSome = true → Spec.Completed t c 0)
                ∧ ∀ q, s.op c = some q → q.glob = false → (s.team q.team).onCore = true → Spec.wrote s t (s.opEv q) (.scr q.team q.off.toNat) r.record))
  ∧ (∀ (p : Nat) (s : State) (r : PoolReq) (rest : List PoolReq) (o : Op), Spec.oldest s p .dqry r rest o →
    (s.poolFor r = none → ∃ t, exec (.poolClaim p) s = .next t ∧ Spec.Ended t r.op o 0x73 0 ∧ (t.pkg p).poolReqs = rest)
    ∧ ∀ k x, s.poolFor r = some (k, x) → s.recordHeld r.op x.recSize = false →
      ∃ t, exec (.poolClaim p) s = .next t ∧ (t.pkg p).poolReqs = rest
        ∧ (if State.poolPast r x = true then Spec.Ended t r.op o 0x74 0 ∧ t.pools = s.pools
           else match x.records with
            | y :: ys => Spec.Ended t r.op o 0 (Spec.count ys.length) ∧ Map.find t.pools k = some { x with records := ys, givers := x.givers.drop 1 }
                ∧ (o.glob = false → (s.team o.team).onCore = true → Spec.wrote s t (s.opEv o) (.scr o.team o.off.toNat) y)
            | [] => (x.closed = true → Spec.Ended t r.op o 0x70 0 ∧ t.pools = s.pools)
                ∧ (x.closed = false → t.op r.op = some o ∧ Map.find t.pools k = some { x with waiting := x.waiting ++ [r.op] })))
  ∧ ∀ (p : Nat) (s : State) (r : PoolReq) (rest : List PoolReq) (o : Op), Spec.oldest s p .pcls r rest o →
    (s.poolFor r = none → ∃ t, exec (.poolClose p) s = .next t ∧ Spec.Ended t r.op o 0x73 0 ∧ (t.pkg p).poolReqs = rest)
    ∧ ∀ k x, s.poolFor r = some (k, x) → ∃ t, exec (.poolClose p) s = .next t ∧ (t.pkg p).poolReqs = rest
      ∧ Spec.Ended t r.op o 0 (Spec.count x.records.length) ∧ Map.find t.pools k = some { x with closed := true, waiting := [], closers := x.closers ++ [r.op] }
      ∧ ∀ c ∈ x.waiting, c ≠ r.op → (s.op c).isSome = true → Spec.Completed t c 0x70

/-- Events of KV channels, collectives and groups. Blocks of a KV transfer are sent and acknowledged, notices and completions follow, failures end
transfers with their status; groups form, time out, break and are freed; a collective completes for all its members or aborts with the first fault’s
status at each. An event is an instruction of the model (log entry 6): where it is not due it is refused by name. (Rests on R310, R311, R312, R313,
R314, R315, R316, R318, R301, R432.) -/
def Obligations.ChannelEvents : Prop :=  (∀ (n : Nat) (s s1 : State) (o : Op), s.op n = some o → o.kind = .kvx → o.st = .active → o.done < field o.block 4 4 → s.kvBlock o = (s1, .ok ()) →
    ∃ t, exec (.kvBlockAck n) s = .next t ∧ t.op n = some { o with done := o.done + 1, num := n } ∧ t.mem = s1.mem)
  ∧ (∀ (n : Nat) (s s1 : State) (o : Op) (c : Cause) (lvl side : Nat) (va : Dword), s.op n = some o → o.kind = .kvx → o.st = .active → o.done < field o.block 4 4 →
    s.opHome o = true → s.kvBlock o = (s1, .error (some (c, lvl, va), side)) →
    ∃ t, exec (.engineFaultStop n) s = .next t ∧ Spec.Ended t n o c.code o.done
      ∧ (Map.has (s1.pkg o.core.pkg).kv (State.kvxChan o) = true → (t.chan o.core.pkg (State.kvxChan o)).lerr = c.code))
  ∧ (∀ n : Nat,
    let ready (s : State) (o : Op) : Prop := s.op n = some o ∧ o.kind = .kvx ∧ o.st = .active
    Spec.Event (.kvNotify n) (fun s => ∃ o, ready s o ∧ field o.block 4 4 ≤ o.done ∧ field o.block 3 1 = 1 ∧ o.notified = false) (fun s t =>
      { t with ops := s.ops } = s ∧ ∀ o, s.op n = some o → t.op n = some { o with notified := true, num := n })
    ∧ Spec.Event (.kvxComplete n) (fun s => ∃ o, ready s o ∧ field o.block 4 4 ≤ o.done ∧ (field o.block 3 1 = 0 ∨ o.notified = true)
        ∧ s.opHome o = true) (fun s t => ∀ o, s.op n = some o → Spec.Ended t n o 0 o.done)
    ∧ Spec.Event (.kvPeerRefuse n) (fun s => ∃ o, ready s o ∧ s.opHome o = true) fun s t =>
      ∀ o, s.op n = some o → Spec.Ended t n o 0x52 o.done
        ∧ (Map.has (s.pkg o.core.pkg).kv (State.kvxChan o) = true → (t.chan o.core.pkg (State.kvxChan o)).lerr = 0x52))
  ∧ (∀ p k : Nat,
    Spec.Event (.kvChannelFail p k) (fun s => (s.chan p k).state ≠ 0) fun s t =>
      (t.chan p k).state = 2 ∧ ∀ n o, s.op n = some o → o.kind = .kvx → o.core.pkg = p → o.pending = true → o.st ≠ .queued → State.kvxChan o = k → Spec.Completed t n 0x51)
  ∧ (∀ (p k : Nat) (pull : Bool) (va : Dword) (bs : List Byte),
    Spec.Event (.kvPeerAccess p k pull va bs) (fun s => (s.chan p k).state = 1 ∧ s.vaLeased p (s.ctxRoot (s.chan p k).ctx) va bs.length = false) fun s t =>
      (pull = true → t.mem = s.mem)
      ∧ (pull = false → (∀ x, s.vaWrite p (s.ctxRoot (s.chan p k).ctx) (some [(s.chan p k).ctx]) va bs { s.hubEv p .store with path := .kv } = .ok x → t = x)
          ∧ ∀ e, s.vaWrite p (s.ctxRoot (s.chan p k).ctx) (some [(s.chan p k).ctx]) va bs { s.hubEv p .store with path := .kv } = .error e → t = s))
  ∧ (∀ c : CoreId,
    Spec.Event (.kvqRefresh c) (fun s => (s.core c).kvAt + 1024 ≤ s.now c) fun s t =>
      { t with cores := s.cores } = s ∧ (∀ d, d ≠ c → t.core d = s.core d) ∧ (t.core c).kvAt = s.now c
      ∧ ∀ k, Map.find (t.core c).kvCopy k = if k < 4096 ∧ Map.has (s.pkg c.pkg).kv k = true then some ((s.chan c.pkg k).ctx, s.chanWord c.pkg k) else none)
  ∧ (∀ (n : Nat) (s : State) (o : Op), Spec.turn s n o → o.kind = .cgrpFree → s.callsOf o.off.toNat o.core.pkg = [] →
    ∃ t, exec (.engineAccept n) s = .next t
      ∧ ((∀ g, Map.find s.groups o.off.toNat = some g → o.core.pkg ∉ g.members ∨ o.core.pkg ∈ g.freed) → Spec.Ended t n o 0x60 0 ∧ t.groups = s.groups)
      ∧ ∀ g, Map.find s.groups o.off.toNat = some g → o.core.pkg ∈ g.members → o.core.pkg ∉ g.freed → Spec.Ended t n o 0 0
          ∧ Map.find t.groups o.off.toNat =
              if g.members.all (g.freed ++ [o.core.pkg]).contains then none else some { g with freed := g.freed ++ [o.core.pkg] })
  ∧ (∀ (n : Nat) (s : State) (o : Op), Spec.turn s n o → o.kind = .cgrp →
    let bs := s.readDesc o 24
    (State.cgrpOk bs = false → ∃ t, exec (.engineAccept n) s = .next t ∧ Spec.Ended t n o 0x40 0)
    ∧ ∀ s1 ms, State.cgrpOk bs = true → s.endRead { o with block := bs } { sp := 0 } (BitVec.ofNat 64 (field bs 8 8)) (2 * field bs 0 2) = (s1, .ok ms) →
        let names := (List.range (field bs 0 2)).map fun k => field ms (2 * k) 2
        let good : Prop := State.ascending names = true ∧ (s.pkg o.core.pkg).num ∈ names ∧ ∀ k ∈ names, s.inPartition o.core.pkg k = true
        (¬good → ∃ t, exec (.engineAccept n) s = .next t ∧ Spec.Ended t n o 0x60 0)
        ∧ (good → ∃ t, exec (.engineAccept n) s = .next t ∧ t.mem = s.mem ∧ (∃ q, t.op n = some q ∧ q.st = .active)
            ∧ ∃ k c, Map.find t.groupCalls k = some c ∧ c.members = names.map (s.memberIdx o.core.pkg) ∧ c.mask = field bs 0x10 4 ∧ (o.core.pkg, n) ∈ c.ops))
  ∧ (∀ k : Nat,
    let all (c : GroupCall) : Prop := ∀ p ∈ c.members, ∃ y ∈ c.ops, y.1 = p
    let planes (s : State) (c : GroupCall) : List Nat := if c.mask = 0 then s.healthyPlanes c.members else (List.range 18).filter c.mask.testBit
    Spec.Event (.cgrpFormed k) (fun s => ∃ c, Map.find s.groupCalls k = some c ∧ all c) (fun s t =>
      Map.find t.groupCalls k = none ∧ ∀ c, Map.find s.groupCalls k = some c →
        let room : Prop := planes s c ≠ [] ∧ ∀ q ∈ planes s c, (s.groups.filter fun y => y.2.planes.contains q).length < 256
        (∀ h, State.lowestFree (Map.keys s.groups) 1024 = some h → room → Map.find t.groups h = some { members := c.members, planes := planes s c }
          ∧ ∀ y ∈ c.ops, ∀ o, s.op y.2 = some o → Spec.Ended t y.2 o 0 h)
        ∧ (State.lowestFree (Map.keys s.groups) 1024 = none ∨ ¬room → t.groups = s.groups ∧ ∀ y ∈ c.ops, ∀ o, s.op y.2 = some o → Spec.Ended t y.2 o 0x61 0))
    ∧ Spec.Event (.cgrpTimeout k)
      (fun s => ∃ c, Map.find s.groupCalls k = some c ∧ ¬all c ∧ c.first + 2 ^ 24 ≤ s.hubNow ((c.ops.head?.map (·.1)).getD 0)) fun s t =>
        Map.find t.groupCalls k = none ∧ ∀ c, Map.find s.groupCalls k = some c → ∀ y ∈ c.ops, ∀ o, s.op y.2 = some o → Spec.Ended t y.2 o 0x62 0)
  ∧ (∀ (h : Nat) (s : State) (g : Group) (os : List (Nat × Op)), s.matched h = some (g, os) →
    s.groupGone g = false →
    (State.agree os = false → ∃ t, exec (.collAbort h) s = .next t ∧ ∀ y ∈ os, Spec.Completed t y.1 0x62)
    ∧ (∀ s1 w f fs bufs, State.agree os = true → s.collRead g os = (s1, w, f :: fs, bufs) →
        ∃ t, exec (.collAbort h) s = .next t ∧ ∀ y ∈ os, Spec.Completed t y.1 ((Map.find (f :: fs) y.1).elim 0x64 fun e => e.1.code))
    ∧ ∀ s1 bufs, State.agree os = true → g.broken = false → s.collRead g os = (s1, false, [], bufs) →
        ∃ t, exec (.collComplete h) s = .next t ∧ ∀ y ∈ os, Spec.Completed t y.1 0)
  ∧ ∀ h : Nat,
    Spec.Event (.groupBroken h) (fun s => ∃ g, Map.find s.groups h = some g ∧ g.broken = false
        ∧ ∃ p ∈ g.members, p ∈ s.lost ∨ (s.pkg p).alive = false ∨ ∃ k ∈ g.planes, (Map.getD (s.pkg p).ports k {}).up = false) fun s t =>
      ∀ g, Map.find s.groups h = some g → Map.find t.groups h = some { g with broken := true, calls := [] }
        ∧ ∀ y ∈ g.calls, ∀ o, s.op y.2 = some o → o.pending = true → Spec.Ended t y.2 o 0x63 0

/-- Shootdowns, host events, and the trap queue: delivery, records, commands. Each package invalidates and confirms, host events enter or wake, deferred
traps are delivered with their records, a record goes to its slot of the trap queue where there is room, and a command resumes, moves or ends its
thread with the status of Table 17.5. An event is an instruction of the model (log entry 6): where it is not due it is refused by name. (Rests on
R379, R390, R376, R380, R49, R405, R406, R407, R408, R409.) -/
def Obligations.HostAndTrapEvents : Prop :=  (∀ p n : Nat,
    Spec.Event (.tlbiInvalidation p n) (fun s => ∃ x, Map.find s.shootdowns n = some x ∧ p ∈ x.todo ∧ s.unsentUnder p x = false
        ∧ ∀ c, x.host = some c → State.openOf (s.core c) (hostThread c) = ([], []) ∧ s.mirroring (hostThread c) = false) fun s t =>
      ∀ x, Map.find s.shootdowns n = some x → Map.find t.shootdowns n = some { x with todo := x.todo.filter (· ≠ p) } ∧ t.mem = s.mem
        ∧ (∀ c e, e ∈ (t.core c).tlb ↔ e ∈ (s.core c).tlb ∧ (c.pkg = p → invMatches x.kind x.va x.key e.ctx e.page e.pte.large = false))
        ∧ ∀ u e, u.wave.core.pkg = p → (t.thread u).lastPage = some e → invMatches x.kind x.va x.key e.ctx e.page e.pte.large = false)
  ∧ (∀ n : Nat,
    Spec.Event (.tlbiDone n) (fun s => ∃ x, Map.find s.shootdowns n = some x ∧ x.todo = []) fun s t =>
      Map.find t.shootdowns n = none ∧ t.mem = s.mem ∧ ∀ x c, Map.find s.shootdowns n = some x → x.host = some c →
        (s.thread (hostThread c)).status = .blocked (.tlbi n) → (t.thread (hostThread c)).status = .runnable)
  ∧ (∀ c : CoreId,
    let may (s : State) : Prop := State.hostIE (s.host c) = true ∧ State.priv (s.host c) ≤ 1
    Spec.Event (.hostEventEntry c) (fun s => isHostCore c = true ∧ (s.host c).hpend &&& (s.host c).hmask ≠ 0
        ∧ ((s.thread (hostThread c)).status = .blocked .hostWait ∨ may s ∧ (s.thread (hostThread c)).status = .runnable)) fun s t =>
      (t.thread (hostThread c)).status = .runnable ∧ t.mem = s.mem
      ∧ (may s → t.host c = State.hostEnterRegs (s.host c) 1 (s.thread (hostThread c)).pc 0x80 0 ∧ (t.thread (hostThread c)).pc = (s.host c).kvec)
      ∧ (¬may s → t.hosts = s.hosts ∧ (t.thread (hostThread c)).pc = (s.thread (hostThread c)).pc))
  ∧ (∀ (k : Nat) (r : CtxReg) (x : Dword), Spec.Event (.registerWrite k r x) (fun s => Map.has s.contexts k = true) fun s t => t = s.writeCtxReg k r x)
  ∧ (∀ w : WaveId,
    Spec.Event (.trapDelivery w) (fun s => (∀ l < 32, (s.thread ⟨w, l⟩).status ≠ .runnable)
        ∧ ∃ l x, l < 32 ∧ (s.thread ⟨w, l⟩).trap = some x ∧ x.delivered = false) fun s t =>
      t.mem = s.mem ∧ ∀ l x, l < 32 → (s.thread ⟨w, l⟩).trap = some x → x.delivered = false →
        ∃ n p, (t.thread ⟨w, l⟩).trap = some { x with delivered := true, tseq := some n } ∧ (t.thread ⟨w, l⟩).status = (s.thread ⟨w, l⟩).status
          ∧ { s.threadRecord ⟨w, l⟩ x with tseq := n, start := p } ∈ (t.context (s.ctxOf ⟨w, l⟩)).post)
  ∧ (∀ (k : Nat) (s : State) (r : TrapRecord) (rest : List TrapRecord) (rd : List Byte) (pa : Nat) (pte : Pte), (s.context k).post = r :: rest →
    s.tqRead k 8 8 = some rd → s.vaAddr (s.ctxPkg k) (s.ctxRoot k) none .store (State.tqBase (s.context k).regs) = .ok (pa, pte) →
    let cap := State.tqCap (s.context k).regs
    let n := (s.context k).posted
    (leNat rd + cap ≤ n → ∃ why, exec (.trapRecordPost k) s = .refused (.notEnabled why))
    ∧ ∀ s1 s2, n < leNat rd + cap →
      ((s.modContext k fun c => { c with post := rest, posted := c.posted + 1 }).recordPoint (s.hubEv (s.ctxPkg k) (.gives [r.start] 0))).tqWrite k (0x1000 + n % cap * 64) (r.bytes k) = some s1 →
      s1.tqIndex k 0 (n + 1) = some s2 →
      ∃ t, exec (.trapRecordPost k) s = .next t ∧ t.mem = s2.mem ∧ (t.context k).post = rest ∧ (t.context k).posted = n + 1
        ∧ ∀ j < 16, (t.host ⟨physPkg pa, 8, j⟩).hpend = (s.host ⟨physPkg pa, 8, j⟩).hpend ||| 1)
  ∧ (∀ (r : TrapRecord) (k : Nat), (r.bytes k).length = 64 ∧ (r.bytes k).getD 0 0 = BitVec.ofNat 8 r.kind ∧ (r.bytes k).getD 1 0 = BitVec.ofNat 8 r.cause
      ∧ field (r.bytes k) 4 2 = k % 2 ^ 16 ∧ field (r.bytes k) 0xC 4 = r.tseq % 2 ^ 32 ∧ field (r.bytes k) 0x18 8 = r.fpc.toNat ∧ field (r.bytes k) 0x20 8 = r.npc.toNat
      ∧ field (r.bytes k) 0x28 8 = r.rentry.toNat ∧ field (r.bytes k) 0x38 8 = r.faddr.toNat)
  ∧ (∀ (i : Instr) (k act : Nat) (s s1 s2 : State) (u : ThreadId) (x : Trap) (bs : List Byte), Spec.trapCmd i = some (k, act) → s.nextCommand k = some bs →
    min 4 (field bs 4 1) = act → s.trappedThread k (field bs 0 4) = some (some u, x) →
    let n := (s.context k).cdone
    let tpc : Dword := BitVec.ofNat 64 (field bs 8 8)
    let st := State.commandStat (some x) bs
    ((if st = 0 then s.resumeThread u x act tpc else s).modContext k fun c => { c with cdone := c.cdone + 1 }).tqWrite k (0x40 + n % 64 * 16 + 5) (leBytes st 1)
      = some s1 → s1.tqIndex k 0x18 (n + 1) = some s2 →
    ∃ t, exec i s = .next t ∧ (t.context k).cdone = n + 1 ∧ t.mem = s2.mem
      ∧ (st ≠ 0 → t.threads = s.threads)
      ∧ (st = 0 → act = 4 → (t.thread u).status = .exited)
      ∧ (st = 0 → act < 4 → (t.thread u).status = .runnable ∧ (t.thread u).trap = none ∧ (t.thread u).v = (s.thread u).v
          ∧ (t.thread u).pc = match act with | 0 => x.fpc | 1 => x.npc | 2 => x.rentry | _ => tpc))
  ∧ (∀ (x : Option Trap) (bs : List Byte),
    let act := field bs 4 1
    let tpc : Dword := BitVec.ofNat 64 (field bs 8 8)
    (4 < act ∨ field bs 6 2 ≠ 0 → State.commandStat x bs = 4)
    ∧ (act ≤ 4 → field bs 6 2 = 0 → (x = none → State.commandStat x bs = 1)
      ∧ ∀ y, x = some y → (act = 3 → (State.commandStat x bs = 3 ↔ ¬Spec.targetOk tpc) ∧ (Spec.targetOk tpc → State.commandStat x bs = 0))
        ∧ (act = 0 → State.commandStat x bs = if y.precise then 0 else 2) ∧ (act = 2 → State.commandStat x bs = if y.rentry ≠ 0 ∧ y.xreg = false then 0 else 2)
        ∧ (act = 1 ∨ act = 4 → State.commandStat x bs = 0)))
  ∧ ∀ k : Nat,
    Spec.Event (.trapCidxReread k) (fun s => Map.has s.contexts k = true ∧ 4096 ≤ (s.context k).regs.trapQueue.toNat ∧ (s.context k).cread + 512 ≤ s.hubNow (s.ctxPkg k))
      fun s t => t.mem = s.mem ∧ t.threads = s.threads ∧ (t.context k).cread = s.hubNow (s.ctxPkg k) ∧ (∀ j, j ≠ k → t.context j = s.context j)
        ∧ let p := s.ctxPkg k
          let b := s.modContext k fun c => { c with cread := s.hubNow p }
          let a := State.tqBase (s.context k).regs + 0x10
          (b.vaLeased p (b.ctxRoot k) a 8 = true → (t.context k).cseen = (s.context k).cseen)
          ∧ ∀ x bs, b.vaLeased p (b.ctxRoot k) a 8 = false →
              b.agentRead { b.hubEv p .load with ord := .acq, scp := some .rack, bytewise := false } p (b.ctxRoot k) none a 8 = (x, .ok bs) → (t.context k).cseen = leNat bs

/-- Queues, the lottery, launches, merge windows, placement, stealing and retirement. Packets launch, wait and signal in order, indices are read again on
wakes, polls and before a slot is freed, while no lease covers them, the lottery draws with the 32-bit xorshift, launches are checked and merged,
teams are placed with the registers their start gives, stolen between the Bobbins of a package, and grids retire with their signal. An event is an
instruction of the model (log entry 6): where it is not due it is refused by name. (Rests on R338, R340, R342, R343, R344, R345, R346, R347, R348,
R349, R323.) -/
def Obligations.QueueAndTeamEvents : Prop :=  (∀ (n : Nat) (s s1 : State) (bs : List Byte),
    let q := s.queue n
    q.started = true → q.state = .mapped → s.running q.mapPkg = true → Spec.packet s n bs s1 → s1.descHeld q.mapPkg q.ctx bs = false →
    field bs 0 1 ≠ 2 → ¬(field bs 0 1 = 3 ∧ State.waitOk bs = true) →
    (∀ st, s1.launchCheck q.mapPkg q.ctx bs 7 1 none (some n) = .error st → ∃ t, exec (.queuePacketLaunch n) s = .next t ∧ Spec.Consumed s t n ∧ t.grids = s.grids)
    ∧ ∀ g, s1.launchCheck q.mapPkg q.ctx bs 7 1 none (some n) = .ok g → ∃ t k, exec (.queuePacketLaunch n) s = .next t ∧ Spec.Consumed s t n
        ∧ (t.queue n).grids = q.grids ++ [k] ∧ Map.has t.grids k = true ∧ Spec.Launched g (t.grid k))
  ∧ (∀ (n : Nat) (s s1 s2 : State) (bs xs : List Byte),
    let q := s.queue n
    q.state = .mapped → s.running q.mapPkg = true → Spec.packet s n bs s1 → field bs 0 1 = 2 → State.waitOk bs = true →
    s1.engineLoad q (BitVec.ofNat 64 (field bs 0x28 8)) 8 (State.scopeNum (field bs 2 1)) = (s2, .ok xs) →
    (q.r < q.w → q.heldWait = false → s.ordHolds q = false →
      (field bs 0x30 8 ≤ leNat xs → ∃ t, exec (.queuePacketWait n) s = .next t ∧ Spec.Consumed s t n)
      ∧ (leNat xs < field bs 0x30 8 → ∃ t, exec (.queuePacketWait n) s = .next t ∧ (t.queue n).heldWait = true ∧ (t.queue n).r = q.r ∧ t.mem = s.mem)))
  ∧ (∀ (n : Nat) (s s2 : State) (bs xs : List Byte),
    let q := s.queue n
    let sig : Dword := BitVec.ofNat 64 (field bs 0x28 8)
    q.state = .mapped → s.running q.mapPkg = true → q.heldWait = true → q.lastCheck + 512 ≤ s.hubNow q.mapPkg → s.headPacket q = .ok bs →
    s.packetHeld q sig = false → s.engineLoad q sig 8 (State.scopeNum (field bs 2 1)) = (s2, .ok xs) →
    (field bs 0x30 8 ≤ leNat xs → ∃ t, exec (.waitPacketRecheck n) s = .next t ∧ Spec.Consumed s t n)
    ∧ (leNat xs < field bs 0x30 8 → ∃ t, exec (.waitPacketRecheck n) s = .next t ∧ t.queue n = { q with lastCheck := s.hubNow q.mapPkg } ∧ t.mem = s.mem))
  ∧ (∀ (n : Nat) (s s1 : State) (bs : List Byte),
    let q := s.queue n
    q.started = true → q.state = .mapped → s.running q.mapPkg = true → Spec.packet s n bs s1 → field bs 0 1 = 3 → State.waitOk bs = true →
    ((∃ g ∈ q.grids, (s.grid g).retired = false) → ∃ why, exec (.queuePacketSignal n) s = .refused (.notEnabled why))
    ∧ ((∀ g ∈ q.grids, (s.grid g).retired = true) → ∃ t, exec (.queuePacketSignal n) s = .next t ∧ Spec.Consumed s t n))
  ∧ (∀ (p l n : Nat) (rest : List Nat) (s s1 : State) (q : Queue) (pa : Nat) (pte : Pte) (xs : List Byte), (s.pkg p).wakes = l :: rest → s.queues = [(n, q)] →
    q.mapPkg = p → q.state = .mapped → s.vaAddr p (s.ctxRoot q.ctx) none .load q.widx = .ok (pa, pte) → lineOf pa = l → s.indexHeld q = false →
    (∀ k ∈ Map.keys s.contexts, Spec.headerAt s k l = false) →
    let s0 := s.modPkg p fun k => { k with wakes := rest }
    s0.engineLoad q q.widx 8 = (s1, .ok xs) →
    ∃ t, exec (.notifyWake p) s = .next t ∧ (t.pkg p).wakes = rest ∧ Spec.IndexRead s t n (leNat xs) ∧ t.mem = s.mem)
  ∧ (∀ (p l : Nat) (rest : List Nat) (s : State), (s.pkg p).wakes = l :: rest → s.queues = [] →
    exec (.notifyWake p) s
      = .next (((Map.keys s.contexts).filter fun k => Spec.headerAt s k l).foldl (fun (s : State) k => s.readCidx k) (s.modPkg p fun k => { k with wakes := rest })))
  ∧ (∀ (p : Nat) (s : State), (s.pkg p).wakes = [] → ∃ why, exec (.notifyWake p) s = .refused (.notEnabled why))
  ∧ (∀ n : Nat,
    let reads (s : State) (xs : List Byte) : Prop := ∃ s1, s.engineLoad (s.queue n) (s.queue n).widx 8 = (s1, .ok xs)
    Spec.Event (.queueReread n)
      (fun s => (s.queue n).state = .mapped ∧ (s.queue n).w ≤ (s.queue n).r ∧ (s.queue n).lastCheck + 512 ≤ s.hubNow (s.queue n).mapPkg ∧ s.indexHeld (s.queue n) = false)
      (fun s t => t.mem = s.mem ∧ ∀ xs, reads (s.setQueue n { s.queue n with lastCheck := s.hubNow (s.queue n).mapPkg }) xs → Spec.IndexRead s t n (leNat xs))
    ∧ Spec.Event (.queueUnmap n)
      (fun s => (s.queue n).state = .mapped ∧ (s.queue n).w ≤ (s.queue n).r ∧ (s.queue n).emptySince + 2 ^ 20 ≤ s.hubNow (s.queue n).mapPkg
        ∧ s.indexHeld (s.queue n) = false ∧ ((s.queue n).waitingNotify = true → s.indexOwned (s.queue n) = false)) fun s t =>
        t.mem = s.mem
        ∧ ((s.queue n).waitingNotify = false → ∀ xs, reads (s.setQueue n { s.queue n with waitingNotify := true }) xs →
          Spec.IndexRead s t n (leNat xs) ∧ (leNat xs ≤ (s.queue n).r → (t.queue n).waitingNotify = true))
        ∧ ((s.queue n).waitingNotify = true → ∀ xs, reads s xs → (leNat xs ≤ (s.queue n).r → (t.queue n).state = .unmapped)
          ∧ ((s.queue n).r < leNat xs → Spec.IndexRead s t n (leNat xs))))
  ∧ (∀ (p ctx w : Nat) (s : State) (x : Word),
    let all := State.bySlotOrder (s.queues.filter fun y => y.2.mapPkg = p && s.eligible y.2)
    let ord := all.filter fun y => !y.2.fill
    let fill : Bool := ord = []
    let mine := (if fill then all else ord).filter fun y => y.2.ctx = ctx
    (s.queues.map (·.1)).Nodup → (s.pkg p).lastDraw + 16 ≤ s.hubNow p → s.nextLaunch p = none → s.skeinHolds p < 16 → s.running p = true →
    State.nextTurn (if fill then (s.pkg p).rotFill else (s.pkg p).rotOrd) ((if fill then all else ord).map (·.2.ctx)) = some ctx →
    State.drawIn (Map.getD (s.pkg p).lottery ctx 1) fill mine = (some w, x) →
    ∃ t, exec (.lotteryDraw p) s = .next t ∧ Map.find (t.pkg p).lottery ctx = some x ∧ (t.pkg p).lastDraw = s.hubNow p
      ∧ (∀ y ∈ mine, (t.queue y.1).started = (y.2.started || decide (y.1 = w))) ∧ ∀ n, (∀ y ∈ mine, y.1 ≠ n) → t.queue n = s.queue n)
  ∧ (∀ x : Word,
    let a := x ^^^ (x <<< 13)
    let b := a ^^^ (a >>> 17)
    State.xorshift x = b ^^^ (b <<< 5))
  ∧ (∀ (p : Nat) (s : State) (l : Launch) (o : Op), s.nextLaunch p = some l → s.op l.op = some o → s.descHeld p o.ctx l.packet = false →
    let check := s.launchCheck p o.ctx l.packet 2 ((s.grid o.grid).depth + 1) (some o.grid) none
    (∀ st, check = .error st → ∃ t, exec (.lnchGridAccept p) s = .next t ∧ Spec.Ended t l.op o st 0 ∧ ∀ y ∈ (t.pkg p).launches, y.op ≠ l.op)
    ∧ ∀ g, check = .ok g →
      let merge : Prop := (field l.packet 3 1).testBit 1 = true ∧ g.kern.coop = false ∧ g.kern.clustered = false
      (merge → ∃ t, exec (.lnchGridAccept p) s = .next t ∧ Spec.Ended t l.op o 0 0 ∧ t.grid s.nextId = g ∧ ∃ w ∈ (t.pkg p).windows_, s.nextId ∈ w.grids)
      ∧ (¬merge → s.skeinHolds p < 16 → ∃ t, exec (.lnchGridAccept p) s = .next t ∧ Spec.Ended t l.op o 0 0 ∧ Spec.Launched g (t.grid s.nextId)))
  ∧ (∀ p w : Nat,
    Spec.Event (.mergeWindowClose p w)
      (fun s => ∃ x, (s.pkg p).windows_[w]? = some x ∧ (x.opened + 2048 ≤ s.hubNow p ∨ 4096 ≤ x.grids.length) ∧ s.skeinHolds p < 16) fun s t =>
      (t.pkg p).windows_ = (s.pkg p).windows_.eraseIdx w ∧ ∀ x g0 gs f, (s.pkg p).windows_[w]? = some x → x.grids = g0 :: gs →
        let ctx := (s.grid g0).ctx
        let pages := (32 * State.sumOf (x.grids.map fun g => (s.grid g).teamCount) + 65535) / 65536
        State.freePages (s.context ctx).sysTables (s.context ctx).sysPages pages = some f →
          ∃ m, (∀ g ∈ x.grids, (t.grid g).mergedInto = some m) ∧ (m, f, pages) ∈ (t.context ctx).sysTables)
  ∧ (∀ (p d n : Nat) (rest : List Nat) (s : State) (c : CoreId),
    let x := s.team n
    let k := (s.grid x.grid).kern
    (s.die p d).bobbin = n :: rest → x.clusterSlot = none → k.clustered = false → s.mayPlace p x.ctx = true → n < s.nextId →
    s.bestCore p d x.ctx k.waves (k.waves * k.allot) k.scratch k.acc = some c →
    ∃ t, exec (.teamPlace p d) s = .next t ∧ (t.team n).place = .resident ∧ (t.team n).core = c ∧ n ∉ (t.die p d).bobbin ∧ t.mem = s.mem
      ∧ ∀ j w, (t.team n).waves[j]? = some w → w.core = c ∧ (t.wave w).team = n ∧ (t.wave w).allot = k.allot ∧ (t.wave w).sreg 0 = lo32 x.param
          ∧ (t.wave w).sreg 1 = hi32 x.param ∧ (t.wave w).sreg 2 = lo32 x.indir ∧ (t.wave w).sreg 3 = hi32 x.indir ∧ (t.wave w).sreg 4 = BitVec.ofNat 32 j
          ∧ ∀ l < 32, (t.thread ⟨w, l⟩).status = .runnable ∧ (t.thread ⟨w, l⟩).v = [] ∧ (t.thread ⟨w, l⟩).preds = 0
              ∧ (t.thread ⟨w, l⟩).pc = (s.grid x.grid).kbase + BitVec.ofNat 64 k.entry)
  ∧ (∀ (p d e : Nat) (s : State), (s.die p d).bobbin = [] → (s.die p d).stealAt ≠ some (s.die p d).now → (∃ k < 128, s.liveWaves ⟨p, d, k⟩ = []) → e < 8 → e ≠ d →
    let b := (s.die p e).bobbin
    2 ≤ b.length → (∀ f < 8, f ≠ d → f ≠ e → (s.die p f).bobbin.length < b.length) → b.Nodup →
    (∀ n ∈ b, n < s.nextId ∧ (s.team n).clusterSlot = none) → (∃ n ∈ b, s.stealable (s.team n).grid = true) →
    let ns := ((b.filter fun n => s.stealable (s.team n).grid).reverse.take (b.length / 2)).reverse
    ∃ t, exec (.teamSteal p d) s = .next t ∧ ns <+: (t.die p d).bobbin ∧ b.filter (fun n => !ns.contains n) <+: (t.die p e).bobbin
      ∧ (∀ n ∈ ns, n ∉ (t.die p e).bobbin ∧ t.team n = s.team n) ∧ t.mem = s.mem)
  ∧ ∀ g : Nat,
    Spec.Event (.gridRetire g) (fun s => Spec.retirable s g ∧ s.signalHeld (s.grid g).pkg (s.grid g).ctx (s.grid g).sigAddr = false) fun s t =>
      (t.grid g).retired = true ∧ (∀ y ∈ t.teams, y.2.grid ≠ g)
      ∧ ((s.grid g).parent = none → t.mem = (s.signalWrite (s.grid g).pkg (s.grid g).ctx (s.grid g).sigAddr (s.grid g).sigVal (State.scopeNum (s.grid g).sscope)
          (s.descendants s.grids.length [g])).mem)

/-- Pre-emption, restore, rack stop, losses and the phases of a quiesce. A team set is saved whole or not at all, or only stops issuing while something of
it is open, restored resident, images freed; a rack stop silences a context’s teams until its resume; losses, timeouts and machine checks are reported
and begin a quiesce, whose phases stop, cut, settle, save, record, sweep and rebuild as their rules say, and the checkpoint handler is launched once.
An event is an instruction of the model (log entry 6): where it is not due it is refused by name. (Rests on R410, R413, R414, R415, R324, R397, R427,
R428, R429, R430, R431.) -/
def Obligations.PreemptionAndQuiesce : Prop :=  (∀ (i : Instr) (tm : Nat) (s : State), i = .preempt tm ∧ (s.team tm).place = .resident ∨ i = .ancestorPreempt tm ∧ Spec.starves s tm ∧ tm ∉ (s.pkg (s.team tm).core.pkg).refusals →
    (∀ s1, s.preemptTeams (s.teamSet tm) false false = .saved s1 →
      exec i s = .next (if i = .preempt tm then s1 else s1.takeFreed (s.team tm).core (s.waitingBelow (s.team tm)))
      ∧ ∀ n ∈ s.teamSet tm, (∃ b, (s1.team n).place = .spooled b) ∧ (s1.team n).waves = [])
    ∧ (s.preemptTeams (s.teamSet tm) false false = .full → ∃ t, exec i s = .next t ∧ tm ∈ (t.pkg (s.team tm).core.pkg).refusals
        ∧ (∀ n ∈ s.teamSet tm, t.team n = { s.team n with stopping := false }) ∧ { t with pkgs := s.pkgs, teams := s.teams } = s)
    ∧ (s.preemptTeams (s.teamSet tm) false false = .waits →
      ((∀ n ∈ s.teamSet tm, (s.team n).stopping = true) → ∃ why, exec i s = .refused (.notEnabled why))
      ∧ ((∃ n ∈ s.teamSet tm, (s.team n).stopping = false) → ∃ t, exec i s = .next t ∧ (∀ n ∈ s.teamSet tm, t.team n = { s.team n with stopping := true })
          ∧ { t with teams := s.teams } = s)))
  ∧ (∀ (k b n : Nat) (s s1 : State), s.imageTeam k b = some n → (s.team n).clusterSlot = none → (s.context (s.team n).ctx).later = [] →
    (s.modTeam n fun x => { x with place := .spooled b }).teamSet n = [n] → (s.modTeam n fun x => { x with place := .spooled b }).restoreUnit [n] = some s1 →
    ∃ t, exec (.restore k b) s = .next t ∧ (t.team n).place = .resident)
  ∧ (∀ k b : Nat, Spec.Event (.spoolFree k b) (fun s => Map.has s.images (k, b) = true ∧ s.imageNeeded k b = false) fun s t =>
      Map.find t.images (k, b) = none ∧ ∀ x, x ≠ (k, b) → Map.find t.images x = Map.find s.images x)
  ∧ (∀ p k e : Nat,
    Spec.Event (.rackStop p k e) (fun s => Map.has s.contexts k = true ∧ Map.has (s.context k).stop p = false) (fun s t =>
      Map.find (t.context k).stop p = some { epoch := e, at_ := s.hubNow p } ∧ { t with contexts := s.contexts } = s
      ∧ ∀ u, u.wave.core.pkg = p → isHost u = false → t.ctxOf u = k → t.issueOpen u = false)
    ∧ Spec.Event (.resume p k e) (fun s => ∃ r, Map.find (s.context k).stop p = some r ∧ r.received = true ∧ r.epoch = e ∧ ((s.context k).resumed ≠ some e → s.allStopped p k e = true)) fun s t =>
      Map.find (t.context k).stop p = none ∧ (t.context k).resumed = some e ∧ { t with contexts := s.contexts, trace := s.trace, nextEv := s.nextEv } = s)
  ∧ (∀ p k : Nat,
    Spec.Event (.stopped p k) (fun s => ∃ r, Map.find (s.context k).stop p = some r ∧ r.sent = true ∧ r.received = false) (fun s t =>
      { t with contexts := s.contexts } = s ∧ ∀ r, Map.find (s.context k).stop p = some r → Map.find (t.context k).stop p = some { r with received := true })
    ∧ Spec.Event (.stopAckTimeout p k)
      (fun s => ∃ r, Map.find (s.context k).stop p = some r ∧ r.received = false ∧ r.at_ + 2 ^ 25 ≤ s.hubNow p ∧ (s.pkg p).alive = true ∧ p ∉ s.reports)
      fun s t => p ∈ t.reports ∧ { t with reports := s.reports } = s)
  ∧ (∀ (p k : Nat) (s s1 : State) (r : StopRec), Map.find (s.context k).stop p = some r → r.sent = false →
    (∀ y ∈ s.teams, y.2.ctx = k → y.2.place = .resident → y.2.core.pkg = p → (s.core (s.team y.1).core).misses = [] ∧ (s.core (s.team y.1).core).sent = []
      ∧ (s.core (s.team y.1).core).held = []) →
    s.preemptTeams (Spec.drains s p k) false false = .saved s1 →
    ∃ t, exec (.rackDrainEnd p k) s = .next t ∧ t.teams = s1.teams ∧ Map.find (t.context k).stop p = some { r with sent := true })
  ∧ (∀ p : Nat,
    Spec.Event (.packageLost p) (fun s => p ∈ s.reports) fun s t => p ∉ t.reports
      ∧ ((s.pkg p).alive = true → (t.pkg p).alive = false ∧ p ∈ t.lost
          ∧ ∀ r ∈ s.partition (((s.partition p).filter (· ≠ p)).headD p), r ≠ p → (s.pkg r).alive = true → ∃ e, (t.pkg r).quiesce = some e ∧ (s.pkg r).epoch < e))
  ∧ Spec.Event .machineCheck (fun s => s.mcheck = true) (fun s t => t.mcheck = false
      ∧ ∀ r ∈ s.partition ((s.pkgs.find? fun y => y.2.alive).elim 0 (·.1)), (s.pkg r).alive = true → ∃ e, (t.pkg r).quiesce = some e ∧ (s.pkg r).epoch < e)
  ∧ (∀ (p d line q : Nat) (s : State) (x : Trans) (a : Agent), (s.dirFind p d line).2.busy = some x → 0 < x.replies → x.since + 4608 ≤ s.now ⟨p, d, 0⟩ →
    x.from_.head? = some a → a.pkg = q → (s.pkg q).alive = true → q ∉ s.reports →
    ∃ t, exec (.replyTimeout p d line) s = .next t ∧ q ∈ t.reports ∧ { t with reports := s.reports } = s)
  ∧ (∀ p : Nat,
    Spec.Event (.quiesceStop p) (fun s => (s.pkg p).quiesce.isSome = true ∧ (s.pkg p).alive = true) (fun s t =>
      (t.pkg p).quiesce = none ∧ (t.pkg p).phase = .stop ∧ some (t.pkg p).epoch = (s.pkg p).quiesce ∧ Spec.silent t p ∧ t.mem = s.mem
      ∧ ∀ j < 16, (t.host ⟨p, 8, j⟩).hpend.getLsbD 4 = true)
    ∧ Spec.Event (.quiesceCut p) (fun s => s.phaseOpen p .stop = true) (fun s t =>
      (t.pkg p).phase = .cut ∧ ((∀ y ∈ s.crossing p, ∀ m ∈ s.writesOf y.2, m.evs = []) → t.mem = s.mem) ∧ (∀ y ∈ (t.pkg p).recv, y.2.frozen = true)
      ∧ (∀ y ∈ t.net, y ∈ s.net ∧ ¬(y.2.dst.pkg = p ∧ y.2.src.pkg ≠ p ∧ State.isRequest y.2.kind = true)) ∧ ∀ y ∈ t.packets, y.2.dst = p → (s.pkg p).epoch ≤ y.2.epoch)
    ∧ Spec.Event (.quiesceSettle p) (fun s => s.phaseOpen p .cut = true ∧ ∀ y ∈ s.net, s.gone y.2.src = true ∨ s.gone y.2.dst = true) (fun _ t =>
      (t.pkg p).phase = .settle ∧ (∀ d, ∀ y ∈ (t.die p d).dir, y.2.busy = none ∧ y.2.waiting = [])
      ∧ ∀ c : CoreId, c.pkg = p → (t.core c).misses = [] ∧ (t.core c).sent = [])
    ∧ Spec.Occurs (.quiesceSave p) (fun s => s.phaseOpen p .settle = true ∧ ∀ y ∈ s.teams, y.2.place = .resident → y.2.core.pkg ≠ p) (fun s t =>
      (t.pkg p).phase = .save ∧ { t with pkgs := s.pkgs } = s)
    ∧ (∀ (n : Nat) (s s1 : State), s.phaseOpen p .settle = true → (s.teams.map (·.1)).Nodup →
      (s.teams.filter fun y => y.2.place = .resident && y.2.core.pkg = p).map (·.1) = [n] → s.preemptTeams [n] true true = .saved s1 →
      ∃ t, exec (.quiesceSave p) s = .next t ∧ (t.pkg p).phase = .save ∧ (∃ b, (t.team n).place = .spooled b) ∧ (t.team n).hold = true ∧ t.mem = s1.mem)
    ∧ Spec.Event (.quiesceSweep p) (fun s => s.phaseOpen p .record = true ∨ s.phaseOpen p .save = true ∧ s.partitionContexts p = []) (fun _ t =>
      (t.pkg p).phase = .sweep ∧ ∀ d b e, Map.find (t.die p d).dir b = some e → e.ind = false)
    ∧ Spec.Event (.quiesceRebuild p) (fun s => s.phaseOpen p .sweep = true) fun s t =>
      ((t.pkg p).phase = .rebuild ∨ (t.pkg p).phase = .none) ∧ (∀ y ∈ (t.pkg p).pmap, y ∈ (s.pkg p).pmap ∧ (s.pkg y.2).alive = true) ∧ t.mem = s.mem
      ∧ ∀ y ∈ (t.pkg p).recv, y.2.frozen = false)
  ∧ ∀ k : Nat,
    (∀ s : State, Map.has s.contexts k = true → s.phaseOpen (s.ctxPkg k) .save = true → (∀ x, (s.context k).recorded = some x → x.1 ≠ s.ctxEpoch k) →
      (s.spoolMap k = none → ∃ t, exec (.quiesceRecord k) s = .next t ∧ (t.context k).recorded = some (s.ctxEpoch k, none) ∧ (t.context k).handled = false ∧ t.mem = s.mem)
      ∧ ∀ f n s1, (s.spoolMap k).isSome = true → s.claimSpool k (s.checkpointBytes k).length = some (f, n, s1) →
        ∃ t, exec (.quiesceRecord k) s = .next t ∧ (t.context k).recorded = some (s.ctxEpoch k, some (s1.pageBase k f)) ∧ (t.context k).handled = false
          ∧ t.mem = (s1.spoolWrite k (s1.pageBase k f) (s.checkpointBytes k)).mem ∧ ∀ y ∈ t.unacked, y.1 ≠ k)
    ∧ Spec.Event (.checkpointHandler k) (fun s => Map.has s.contexts k = true ∧ (s.context k).handled = false ∧ s.phaseOpen (s.ctxPkg k) .rebuild = true) fun s t =>
      (t.context k).handled = true ∧ ∀ e a, (s.context k).recorded = some (e, some a) → s.schedulable k = true →
        ∃ g, Map.has t.grids g = true ∧ (t.grid g).handler = true ∧ (t.grid g).param = a ∧ (t.grid g).ctx = k ∧ (t.grid g).kern.waves = 1
          ∧ (t.grid g).teamCount = 1 ∧ (t.grid g).kern.entry = (s.context k).regs.chkHandler.toNat

/-- Requests, notices and replies at a home: what is granted, probed and recorded. A request that nothing holds is granted, or starts the recalls or
invalidations its entry asks for, and the entry records the new owner or sharers; a busy entry queues it; notices of dropped and written-back copies,
replies and confirmations move the entry on; entries merge when idle and heat counters decay. The directory of a slice keeps one entry a region; only
the entry’s own line or an idle region is treated here, and a request behind a busy entry waits in its queue. The messages carry no data but for the
bytes of a streaming store (log entries 4 and 30). An event is an instruction of the model (log entry 6): where it is not due it is refused by name.
(Rests on R254, R255, R256, R257, R259, R260, R261, R274, R342.) -/
def Obligations.HomeEvents : Prop :=  (∀ (n p d b : Nat) (m : Msg) (e : DirEntry) (s : State),
    let at_ (t : State) (f : DirEntry) : Prop := Map.find (t.die p d).dir b = some f
    (∀ a, Spec.quietHome s n .gets m p d b e → m.src = .core a →
      ∃ t f x, exec (.gets n) s = .next t ∧ at_ t f ∧ f.busy = some x ∧ x.req = m ∧ t.mem = s.mem ∧ (n < s.nextId → Map.find t.net n = none) ∧
        match e.st, e.owner with
        | .i, _ => x.awaitDone = true ∧ f.st = .o ∧ f.pointers = [a] ∧ f.coarse = false ∧ Spec.Grants t m .e 0
        | .s, _ => x.awaitDone = true ∧ f.st = .s ∧ DirEntry.records s.num p f a = true ∧ Spec.Grants t m .s 0
            ∧ (e.coarse = false → ∀ c ∈ e.pointers, DirEntry.records s.num p f c = true) ∧ (e.coarse = true → f.vec &&& e.vec = e.vec)
        | .o, some c => f.st = .o ∧
          (c ≠ a → f.ptr = e.ptr ∧ x.replies = 1 ∧ Spec.Sends t .recallS m.line (.core c) fun _ => True)
          ∧ (c = a → if (s.dropMsg n).putoComing p d m.line a then f.ptr = e.ptr ∧ x.awaitPuto = true else f.pointers = [a] ∧ x.awaitDone = true ∧ Spec.Grants t m .e 0)
        | .o, none => True)
    ∧ (∀ a, Spec.quietHome s n .getm m p d b e → m.src = .core a →
      ∃ t f x, exec (.getm n) s = .next t ∧ at_ t f ∧ f.busy = some x ∧ x.req = m ∧ t.mem = s.mem ∧ (n < s.nextId → Map.find t.net n = none) ∧
        let owned : Prop := x.awaitDone = true ∧ f.st = .o ∧ f.pointers = [a] ∧ f.coarse = false ∧ Spec.Wakes s t p m
        match e.st, e.owner with
        | .i, _ => owned ∧ Spec.Grants t m .m 0
        | .s, _ =>
          let others := (s.members p e).filter (· ≠ .core a)
          owned ∧ Spec.Grants t m .m others.length ∧ ∀ q ∈ others, Spec.Sends t .inv m.line q fun y => y.ackTo = some (.core a)
        | .o, some c => f.st = .o ∧
          (c ≠ a → f.ptr = e.ptr ∧ x.replies = 1 ∧ Spec.Sends t .recallI m.line (.core c) fun _ => True)
          ∧ (c = a → if (s.dropMsg n).putoComing p d m.line a then f.ptr = e.ptr ∧ x.awaitPuto = true else owned ∧ Spec.Grants t m .m 0)
        | .o, none => True)
    ∧ (∀ q, Spec.quietHome s n .gete m p d b e → m.src = .engine q →
      ∃ t, exec (.gete n) s = .next t ∧ t.mem = s.mem ∧ (∀ f, at_ t f → f.st = e.st ∧ f.ptr = e.ptr ∧ f.vec = e.vec) ∧
        match e.st, e.owner with
        | .o, some c => (∃ f x, at_ t f ∧ f.busy = some x ∧ x.req = m ∧ x.replies = 1) ∧ Spec.Sends t .recallS m.line (.core c) fun _ => True
        | _, _ => (∀ f, at_ t f → f.busy = none) ∧ Spec.Grants t m .s 0)
    ∧ (∀ i k, i = Instr.stm n ∧ k = .stm ∨ i = .atm n ∧ k = .atm → Spec.quietHome s n k m p d b e →
      ∃ t f, exec i s = .next t ∧ at_ t f ∧ (k = .atm ∨ m.evs = [] → t.mem = s.mem) ∧
        match e.st, e.owner with
        | .i, _ => f.st = .i ∧ f.busy = none ∧ Spec.Wakes s t p m
            ∧ ((∃ a, m.src = .core a) ∨ (∃ q, m.src = .engine q) → Spec.Sends t .done m.line m.src fun y => y.orig = some k)
        | .s, _ => s.members p e ≠ [] → (∃ x, f.busy = some x ∧ x.req = m ∧ x.replies = (s.members p e).length)
            ∧ ∀ q ∈ s.members p e, Spec.Sends t .inv m.line q fun y => y.ackTo = some (.home p d)
        | .o, some c => (∃ x, f.busy = some x ∧ x.req = m ∧ x.replies = 1) ∧ Spec.Sends t .recallI m.line (.core c) fun _ => True
        | .o, none => True)
    ∧ (∀ i k x, i = Instr.gets n ∧ k = .gets ∨ i = .getm n ∧ k = .getm ∨ i = .gete n ∧ k = .gete ∨ i = .stm n ∧ k = .stm ∨ i = .atm n ∧ k = .atm →
      Spec.arrives s n k m → m.dst = .home p d → m.hop = 0 → s.frozenAt p d m.line = none → s.stubFor p d m = none → s.notHome p d m = false →
      (s.sliceEntries p d m.line).length ≤ 32768 → s.dirFind p d m.line = (b, e) → e.busy = some x → ∃ t, exec i s = .next t ∧ at_ t { e with waiting := e.waiting ++ [m] } ∧ t.mem = s.mem))
  ∧ (∀ (n p d b : Nat) (m : Msg) (e : DirEntry) (a : CoreId) (s : State),
    let at_ (t : State) (f : DirEntry) : Prop := Map.find (t.die p d).dir b = some f
    let packed (t : State) : Prop := Spec.Sends t .pack m.line (.core a) fun _ => True
    m.dst = .home p d → m.src = .core a → (s.sliceEntries p d m.line).length ≤ 32768 → s.dirFind p d m.line = (b, e) → e.size = 0 →
    (e.busy = none → e.waiting = [] → s.frozenAt p d m.line = none →
      (Spec.arrives s n .puts m →
        (e.st = .s → e.coarse = false → a ∈ e.pointers → ∃ t f, exec (.puts n) s = .next t ∧ at_ t f ∧ t.mem = s.mem ∧
          let rest := e.pointers.filter (· ≠ a)
          (rest ≠ [] → f.st = .s ∧ f.pointers = rest) ∧ (rest = [] → e.vec = 0 → f.st = .i))
        ∧ (e.st ≠ .s ∨ e.coarse = true ∨ a ∉ e.pointers → exec (.puts n) s = .next (s.dropMsg n)))
      ∧ (Spec.arrives s n .puto m →
        (e.owner = some a → ∃ t f, exec (.puto n) s = .next t ∧ at_ t f ∧ f.st = .i ∧ f.ptr = [] ∧ packed t ∧ t.mem = s.mem)
        ∧ (e.owner ≠ some a → ∃ t, exec (.puto n) s = .next t ∧ packed t ∧ t.dies = s.dies ∧ t.mem = s.mem))
      ∧ (Spec.arrives s n .wbs m →
        (e.owner = some a → ∃ t f, exec (.wbs n) s = .next t ∧ at_ t f ∧ f.st = .s ∧ f.ptr = e.ptr ∧ t.mem = s.mem)
        ∧ (e.owner ≠ some a → exec (.wbs n) s = .next (s.dropMsg n))))
    ∧ (∀ x, e.busy = some x → Spec.arrives s n .puto m → x.req.line = m.line → x.req.src = .core a →
      (x.awaitPuto = true → ∀ st, x.req.kind = .gets ∧ st = .e ∨ x.req.kind = .getm ∧ st = .m →
        ∃ t f y, exec (.puto n) s = .next t ∧ at_ t f ∧ f.st = .o ∧ f.pointers = [a] ∧ f.busy = some y ∧ y.req = x.req ∧ y.awaitDone = true
          ∧ packed t ∧ Spec.Grants t x.req st 0)
      ∧ (x.awaitPuto = false → ∃ t, exec (.puto n) s = .next t ∧ at_ t { e with waiting := e.waiting ++ [m] })))
  ∧ (∀ (i : Instr) (k : MsgKind) (n p d b : Nat) (m : Msg) (e : DirEntry) (x : Trans) (s : State),
    let at_ (t : State) (f : DirEntry) : Prop := Map.find (t.die p d).dir b = some f
    i = .recallReply n ∧ k = .data ∧ (∃ c, m.src = .core c) ∨ i = .ack n ∧ k = .ack →
    Spec.arrives s n k m → m.dst = .home p d → s.dirFind p d m.line = (b, e) → e.size = 0 → e.busy = some x → x.awaitDone = false → x.awaitPuto = false →
    (2 ≤ x.replies → ∃ t f y, exec i s = .next t ∧ at_ t f ∧ f.st = e.st ∧ f.busy = some y ∧ y.req = x.req ∧ y.replies + 1 = x.replies ∧ t.mem = s.mem)
    ∧ (x.replies = 1 → e.waiting = [] → s.frozenAt p d m.line = none → x.keep = none → x.req.line = m.line →
      let kept (c : CoreId) : Prop := k = .data ∧ m.keepsS = true ∧ m.src = .core c
      (∀ a, x.req.kind = .gets → x.req.src = .core a → ∃ t f y, exec i s = .next t ∧ at_ t f ∧ f.st = .s ∧ f.busy = some y ∧ y.awaitDone = true
          ∧ DirEntry.records s.num p f a = true ∧ (∀ c, kept c → DirEntry.records s.num p f c = true) ∧ Spec.Grants t x.req .s 0)
      ∧ (∀ a, x.req.kind = .getm → x.req.src = .core a → ∃ t f y, exec i s = .next t ∧ at_ t f ∧ f.st = .o ∧ f.busy = some y ∧ y.awaitDone = true
          ∧ f.pointers = [a] ∧ Spec.Grants t x.req .m 0 ∧ Spec.Wakes s t p x.req)
      ∧ (x.req.kind = .gete → ∃ t f, exec i s = .next t ∧ at_ t f ∧ f.busy = none ∧ (∀ c, kept c → f.st = .s ∧ f.pointers = [c]) ∧ ((∀ c, ¬kept c) → f.st = .i))
      ∧ (x.req.kind = .stm ∨ x.req.kind = .atm → ∃ t f, exec i s = .next t ∧ at_ t f ∧ f.busy = none ∧ f.st = .i ∧ Spec.Wakes s t p x.req
          ∧ ((∃ a, x.req.src = .core a) ∨ (∃ q, x.req.src = .engine q) → Spec.Sends t .done x.req.line x.req.src fun _ => True))))
  ∧ (∀ (n p d b : Nat) (m : Msg) (e : DirEntry) (x : Trans) (s : State), Spec.arrives s n .done m → m.dst = .home p d → s.dirFind p d m.line = (b, e) → e.size = 0 →
    e.busy = some x → x.awaitDone = true → e.waiting = [] → s.frozenAt p d m.line = none →
    ∃ t, exec (.done n) s = .next t ∧ Map.find (t.die p d).dir b = some { e with busy := none } ∧ t.net = (s.dropMsg n).net ∧ t.mem = s.mem)
  ∧ (∀ (p d line z b : Nat) (e f : DirEntry) (s : State), s.dirFind p d line = (b, e) → e.size = z → 5 ≤ z → z < 9 → b / regionBytes z % 2 = 0 →
    Map.find (s.die p d).dir b = some e → Map.find (s.die p d).dir (b + regionBytes z) = some f → f.size = z → e.same f = true → e.busy = none → f.busy = none →
    e.waiting = [] → f.waiting = [] → e.ind = f.ind → e.lastReq + 2 ^ 20 ≤ s.now ⟨p, d, 0⟩ → f.lastReq + 2 ^ 20 ≤ s.now ⟨p, d, 0⟩ →
    ∃ t g, exec (.directoryMerge p d line) s = .next t ∧ Map.find (t.die p d).dir b = some g ∧ g.size = z + 1 ∧ g.same e = true
      ∧ Map.find (t.die p d).dir (b + regionBytes z) = none ∧ { t with dies := s.dies } = s)
  ∧ (∀ (p d line b : Nat) (e : DirEntry) (s : State), s.dirFind p d line = (b, e) → e.size < 5 → Map.has (s.die p d).dir b = true → e.busy = none → e.waiting = [] →
    e.lastReq + 2 ^ 20 ≤ s.now ⟨p, d, 0⟩ →
    ∃ t, exec (.directoryMerge p d line) s = .next t ∧ Map.find (t.die p d).dir b = some { e with size := e.size + 1 } ∧ { t with dies := s.dies } = s)
  ∧ (∀ (p d : Nat) (x : Word) (s : State), ∃ t, exec (.heatCtlWrite p d x) s = .next t ∧ { t with dies := s.dies } = s ∧
      let c := (t.die p d).heatCtl.toNat
      c % 65536 = max 1 (x.toNat % 65536) ∧ c / 2 ^ 16 % 32 = max 16 (min 30 (x.toNat / 2 ^ 16 % 32)) ∧ (t.die p d).heatCtl.getLsbD 31 = x.getLsbD 31)
  ∧ ∀ p d : Nat,
    Spec.Event (.heatDecay p d) (fun s => (s.die p d).heatDecayAt + 2 ^ ((s.die p d).heatCtl.toNat / 2 ^ 16 % 32) ≤ (s.die p d).now) fun s t =>
      { t with dies := s.dies } = s ∧ (t.die p d).heat = (s.die p d).heat.map (fun h => { h with count := h.count / 2 }) ∧ (t.die p d).heatDecayAt = (s.die p d).now

/-- Probes, grants and acknowledgements at cores and proxies. A core answers invalidations and recalls with its copy’s state, holds them while a lease
covers the line, and takes a granted state once every acknowledgement has come; a proxy spreads an invalidation and answers for its cores; a refused
probe is sent again after 64 cycles. The messages carry no data (log entry 4). An event is an instruction of the model (log entry 6): where it is not
due it is refused by name. (Rests on R255, R256, R257, R258, R262, R265.) -/
def Obligations.CopyEvents : Prop :=  (∀ (n : Nat) (m : Msg) (c : CoreId) (s : State), m.dst = .core c →
    (Spec.arrives s n .pack m → (s.core c).cacheOps = [] → (∀ y ∈ (s.core c).misses, y.granted = none) → ∃ t, exec (.pack n) s = .next t ∧ (t.core c).evict = (s.core c).evict.erase m.line
      ∧ (t.core c).l1 = (s.core c).l1 ∧ t.net = (s.dropMsg n).net ∧ t.mem = s.mem)
    ∧ (∀ i k, i = Instr.inv n ∧ k = .inv ∨ i = .recallS n ∧ k = .recallS ∨ i = .recallI n ∧ k = .recallI → Spec.arrives s n k m → (∃ l ∈ entryLines m.line m.size, Spec.leased s c l) →
      ((s.core c).holdQ.length < 16 → ∃ t, exec i s = .next t ∧ (t.core c).holdQ = (s.core c).holdQ ++ [m] ∧ (t.core c).l1 = (s.core c).l1
        ∧ t.net = (s.dropMsg n).net ∧ t.mem = s.mem)
      ∧ (16 ≤ (s.core c).holdQ.length → ∃ t, exec i s = .next t ∧ t.cores = s.cores ∧ Spec.Sends t .retry m.line m.src fun y => y.orig = some k))
    ∧ ((∀ l ∈ entryLines m.line m.size, ¬Spec.leased s c l) →
      (Spec.arrives s n .inv m → ∃ t, exec (.inv n) s = .next t
        ∧ (∀ l, Map.find (t.core c).l1 l = if l ∈ entryLines m.line m.size then none else Map.find (s.core c).l1 l)
        ∧ Spec.Sends t .ack m.line (m.ackTo.getD m.src) (fun y => y.src = .core c) ∧ t.mem = s.mem)
      ∧ ∀ i k, i = Instr.recallS n ∧ k = .recallS ∨ i = .recallI n ∧ k = .recallI → Spec.arrives s n k m → m.size = 0 →
        (∀ st, Map.find (s.core c).l1 m.line = some st → ∃ t, exec i s = .next t ∧ t.mem = s.mem
          ∧ (∀ l, Map.find (t.core c).l1 l = if l = m.line then (if k = .recallS then some .s else none) else Map.find (s.core c).l1 l)
          ∧ Spec.Sends t .data m.line m.src fun y => y.src = .core c ∧ y.present = decide (st ≠ .s) ∧ y.keepsS = decide (k = .recallS))
        ∧ (Map.find (s.core c).l1 m.line = none → ∃ t, exec i s = .next t ∧ t.mem = s.mem ∧ (t.core c).l1 = (s.core c).l1
          ∧ Spec.Sends t .data m.line m.src fun y => y.src = .core c ∧ y.present = (s.core c).evict.contains m.line ∧ y.keepsS = false))
    ∧ (∀ y, (s.core c).misses = [y] → y.line = m.line →
      let free : Prop := (Map.has (s.core c).l1 m.line = true ∨ (s.core c).l1.length < s.l1Lines c) ∧ (s.core c).redirs = [] ∧ (s.core c).held = []
      (Spec.arrives s n .ack m →
        (y.granted = none → ∃ t, exec (.ack n) s = .next t ∧ (t.core c).misses = [{ y with acks := y.acks + 1 }] ∧ (t.core c).l1 = (s.core c).l1 ∧ t.mem = s.mem)
        ∧ ∀ k, y.granted = some k →
          (y.acks + 1 < k → ∃ t, exec (.ack n) s = .next t ∧ (t.core c).misses = [{ y with acks := y.acks + 1 }] ∧ (t.core c).l1 = (s.core c).l1)
          ∧ (k ≤ y.acks + 1 → free → y.own = false ∨ y.grantSt ≠ .s → ∃ t, exec (.ack n) s = .next t ∧ (t.core c).misses = []
              ∧ Map.find (t.core c).l1 m.line = some y.grantSt ∧ (Spec.Sends t .done m.line y.req.dst fun z => z.src = .core c) ∧ t.mem = s.mem))
      ∧ (Spec.arrives s n .grant m →
        (y.acks < m.ackCnt → ∃ t, exec (.grant n) s = .next t ∧ t.mem = s.mem ∧ (t.core c).l1 = (s.core c).l1
          ∧ (t.core c).misses = [{ y with granted := some m.ackCnt, grantSt := m.grantState, since := m.sentAt, req := { y.req with dst := m.src } }])
        ∧ (m.ackCnt ≤ y.acks → free → ∃ t, exec (.grant n) s = .next t ∧ t.mem = s.mem ∧ Map.find (t.core c).l1 m.line = some m.grantState
          ∧ (Spec.Sends t .done m.line m.src fun z => z.src = .core c)
          ∧ (y.own = false ∨ m.grantState ≠ .s → (t.core c).misses = [])
          ∧ (y.own = true → m.grantState = .s → Spec.Sends t .getm m.line m.src fun z => z.src = y.req.src))))
    ∧ (Spec.arrives s n .grant m → (s.core c).misses = [] → ∃ t, exec (.grant n) s = .next t ∧ t.cores = s.cores
      ∧ Spec.Sends t .done m.line m.src fun z => z.src = .core c)
    ∧ (∀ y rest, Spec.arrives s n .done m → (s.core c).sent = y :: rest → y.line = m.line → (s.core c).held = [] → ∃ t, exec (.done n) s = .next t ∧ (t.core c).sent = rest
      ∧ (t.core c).l1 = (s.core c).l1 ∧ t.mem = s.mem))
  ∧ (∀ (n q : Nat) (m : Msg) (s : State), m.dst = .proxy q →
    (Spec.arrives s n .inv m →
      let cores := (((entryLines m.line m.size).flatMap fun l => Map.getD (s.pkg q).proxy l []).eraseDups.flatMap (State.clusterCores q)).filter fun c => m.ackTo ≠ some (.core c)
      (cores = [] → ∃ t, exec (.inv n) s = .next t ∧ t.pkgs = s.pkgs ∧ Spec.Sends t .ack m.line (m.ackTo.getD m.src) fun y => y.src = .proxy q)
      ∧ (cores ≠ [] → ∃ t, exec (.inv n) s = .next t ∧ (∀ l ∈ entryLines m.line m.size, Map.find (t.pkg q).proxy l = none)
          ∧ (t.pkg q).proxyWait = (s.pkg q).proxyWait ++ [(m.line, cores.length, m.ackTo.getD m.src)]
          ∧ ∀ c ∈ cores, Spec.Sends t .inv m.line (.core c) fun y => y.src = .proxy q ∧ y.ackTo = some (.proxy q)))
    ∧ (∀ k a, Spec.arrives s n .ack m → (s.pkg q).proxyWait = [(m.line, k, a)] →
      (k ≤ 1 → ∃ t, exec (.ack n) s = .next t ∧ (t.pkg q).proxyWait = [] ∧ Spec.Sends t .ack m.line a fun y => y.src = .proxy q)
      ∧ (2 ≤ k → ∃ t, exec (.ack n) s = .next t ∧ (t.pkg q).proxyWait = [(m.line, k - 1, a)] ∧ t.net = (s.dropMsg n).net)))
  ∧ ∀ n : Nat,
    Spec.Event (.probeResend n) (fun s => ∃ m, Spec.arrives s n .retry m ∧ m.sentAt + 64 ≤ Spec.clock s m.dst) fun s t =>
      t.mem = s.mem ∧ (∀ c, (t.core c).l1 = (s.core c).l1) ∧ ∀ m, Spec.arrives s n .retry m → Spec.Sends t (m.orig.getD .inv) m.line m.src fun y =>
        y.src = m.dst ∧ y.sentAt = Spec.clock s m.dst ∧ y.ackTo = m.ackTo

/-- Migration of a page and the requests that come late. A freeze sets the moving bit and holds requests; the page is copied once no copy of it is held,
and again as it flips; the flip changes the entry to the new place and leaves a stub; late requests are relayed twice at most, then translated anew,
redirected or refused, and a core holds its own until older ones are done; a migration opens, ends or is abandoned, and a stub retires when idle. That
the data that stores put in the old place until the flip moves with it is the model’s choice (log entry 4). An event is an instruction of the model
(log entry 6): where it is not due it is refused by name. (Rests on R268, R269, R270, R271, R272, R385.) -/
def Obligations.MigrationEvents : Prop :=  (∀ (i : Instr) (k : MsgKind) (n p d : Nat) (m : Msg) (s : State),
    i = .gets n ∧ k = .gets ∨ i = .getm n ∧ k = .getm ∨ i = .gete n ∧ k = .gete ∨ i = .stm n ∧ k = .stm ∨ i = .atm n ∧ k = .atm →
    Spec.arrives s n k m → m.dst = .home p d →
    (∀ f, s.frozenAt p d m.line = some f → (s.dirFind p d m.line).2.busy = none → ∃ t, exec i s = .next t ∧ t.net = (s.dropMsg n).net ∧ t.mem = s.mem
      ∧ { f with held := f.held ++ [m] } ∈ (t.die p d).frozen)
    ∧ (∀ x, s.frozenAt p d m.line = none → s.stubFor p d m = some x → m.phys = false →
      (m.hop < 2 → ∃ t, exec i s = .next t ∧ t.mem = s.mem ∧ { x with relays := x.relays + 1, lastRelay := s.now ⟨p, d, 0⟩ } ∈ (t.die p d).stubs
        ∧ Spec.Sends t .relay (physAt x.newPkg (if physDie m.line = 9 then 9 else x.newDie) (State.stubFrame x m.page * 65536 + m.line % 65536)) (.home x.newPkg x.newDie) fun y =>
            y.src = m.src ∧ y.hop = m.hop + 1 ∧ y.orig = some k ∧ y.key = m.key ∧ y.page = m.page)
      ∧ (2 ≤ m.hop → ∃ t, exec i s = .next t ∧ t.mem = s.mem ∧ Spec.Sends t .retranslate m.line m.src fun y => y.orig = some k ∧ y.page = m.page))
    ∧ (s.frozenAt p d m.line = none → s.stubFor p d m = none → s.notHome p d m = true →
      ∃ t, exec i s = .next t ∧ t.mem = s.mem ∧ Spec.Sends t .nothome m.line m.src fun y => y.orig = some k ∧ y.page = m.page))
  ∧ (∀ (n p d b : Nat) (m : Msg) (e : DirEntry) (a : CoreId) (s : State), Spec.arrives s n .relay m → m.orig = some .gets → m.src = .core a → m.dst = .home p d → m.hop ≠ 0 → m.phys = false →
    s.frozenAt p d m.line = none → s.stubFor p d m = none → s.notHome p d m = false → s.dirFind p d m.line = (b, e) → e.busy = none → e.st = .i →
    ∃ t f, exec (.relay n) s = .next t ∧ t.mem = s.mem ∧ Map.find (t.die p d).dir b = some f ∧ f.st = .o ∧ f.pointers = [a] ∧ Spec.Grants t m .e 0
      ∧ Spec.Sends t .redirect m.line m.src fun y => y.newPkg = p ∧ y.newDie = d ∧ y.newFrame = m.line % 2 ^ 43 / 65536 ∧ y.key = m.key ∧ y.page = m.page)
  ∧ (∀ (n : Nat) (m : Msg) (c : CoreId) (s : State), Spec.arrives s n .redirect m → m.dst = .core c →
    ∃ t, exec (.redirect n) s = .next t ∧ t.mem = s.mem ∧ t.net = (s.dropMsg n).net
      ∧ (∃ o, (t.pkg c.pkg).owners.head? = some o ∧ o.key = m.key ∧ o.page = m.page ∧ o.hpkg = (s.pkg m.newPkg).num ∧ o.hdie = m.newDie ∧ o.frame = m.newFrame)
      ∧ (t.pkg c.pkg).owners.length ≤ 4096 ∧ (∀ x ∈ (t.pkg c.pkg).owners.tail, ¬(x.key = m.key ∧ x.page = m.page))
      ∧ ∀ y ∈ (s.core c).misses, y.req.key = m.key → y.req.page = m.page → y.req.dst ≠ .home m.newPkg m.newDie →
          ∃ r ∈ (t.core c).redirs, r.key = m.key ∧ r.page = m.page)
  ∧ (∀ (c : CoreId) (m : Msg) (s : State) (r : Redir), r ∈ (s.core c).redirs → r.key = m.key → r.page = m.page → (s.sendReq c m).net = s.net)
  ∧ (∀ (i : Instr) (k : MsgKind) (n : Nat) (m : Msg) (c : CoreId) (u : ThreadId) (s : State), i = .retranslate n ∧ k = .retranslate ∨ i = .nothome n ∧ k = .nothome →
    Spec.arrives s n k m → m.dst = .core c → m.by_ = some u →
    let s1 := (s.dropMsg n).forgetPage c.pkg m.key m.page (some c)
    (∀ pte pa, m.bounces < 3 → s1.walk c.pkg m.root m.va = .ok pte → s1.physOf c.pkg pte m.va = some pa →
      ∃ t, exec i s = .next t ∧ t.mem = s.mem ∧ (∀ e ∈ (t.core c).tlb, State.tlbHit m.key m.page e = false)
        ∧ (∀ y ∈ (t.pkg c.pkg).owners, ¬(y.key = m.key ∧ y.page = m.page))
        ∧ Spec.Sends t (m.orig.getD .gets) (s1.firstHome c.pkg pte m.va pa).2 (s1.firstHome c.pkg pte m.va pa).1 fun y =>
            y.src = .core c ∧ y.hop = 0 ∧ y.bounces = m.bounces + 1)
    ∧ (3 ≤ m.bounces → isHost u = false → s.holdsLease u = false → (s.thread u).trap = none → (s.thread u).exited = false →
      ∃ t, exec i s = .next t ∧ Spec.Trapped t u .xlat 0 m.at_ (s.thread u).pc))
  ∧ (∀ (ctx : Nat) (va : Dword) (pkg die frame a q : Nat) (large : Bool) (s : State),
    let pte := State.pteOf (leNat (memBytes s.mem a 16)) large
    s.leafAt (s.ctxPkg ctx) ctx va = some (a, large) → s.route (s.ctxPkg ctx) pte.hpkg = some q → pte.mov = false → (s.pkg q).phase = .none → die < 8 →
    frame ∉ (s.die pkg die).retiredFrames → (s.die q pte.hdie).stubs.length < 1024 →
    ∃ t g, exec (.migrationFreeze ctx va pkg die frame) s = .next t ∧ Map.find t.migrations s.nextId = some g
      ∧ g.ctx = ctx ∧ g.oldPkg = q ∧ g.oldDie = pte.hdie ∧ g.oldFrame = pte.frame ∧ g.newPkg = pkg ∧ g.newDie = die ∧ g.newFrame = frame ∧ g.copied = false ∧ g.flipped = false
      ∧ Spec.wrote s t (s.hubEv (physPkg a) .store) (.mem a) (leBytes (State.withMov true (leNat (memBytes s.mem a 16))) 16) ∧ Spec.MemBut s t a 16
      ∧ { start := t.oldPlace g, large } ∈ (t.die q pte.hdie).frozen)
  ∧ (∀ (n : Nat) (g : Migration) (s : State), s.mig n = some g → g.copied = false →
    let held : Prop := ∃ y ∈ s.pageEntries g.oldPkg g.oldDie (s.oldPlace g) (pageBytes g.large), y.2.busy.isSome = true ∨ y.2.st ≠ .i
    (¬held → s.MemOk → ∃ t, exec (.migrationCopyDone n) s = .next t ∧ Map.find t.migrations n = some { g with copied := true }
      ∧ (∀ k < pageBytes g.large, memRead t.mem (s.newPlace g + k) = memRead s.mem (s.oldPlace g + k)) ∧ Spec.MemBut s t (s.newPlace g) (pageBytes g.large)
      ∧ { t with migrations := s.migrations, mem := s.mem, poison := s.poison } = s)
    ∧ (held → ∃ why, exec (.migrationCopyDone n) s = .refused (.notEnabled why)))
  ∧ (∀ (n a : Nat) (large : Bool) (g : Migration) (s : State),
    let pte := State.pteOf (leNat (memBytes s.mem a 16)) large
    let old := s.oldPlace g
    let new := State.placeIn pte (g.newPkg, g.newDie, g.newFrame) 0
    s.MemOk → s.mig n = some g → g.copied = true → g.flipped = false → s.now ⟨g.oldPkg, g.oldDie, 0⟩ < g.started + 320000 →
    s.leafAt g.oldPkg g.ctx g.va = some (a, large) → (a + 16 ≤ new ∨ new + pageBytes g.large ≤ a) →
    ∃ t, exec (.migrationFlip n) s = .next t ∧ Map.find t.migrations n = some { g with flipped := true }
      ∧ (∀ k < pageBytes g.large, memRead t.mem (new + k) = memRead s.mem (old + k))
      ∧ Spec.wrote (s.moveStretch old new (pageBytes g.large)) t (s.hubEv (physPkg a) .store) (.mem a)
          (leBytes (State.withMov false (State.withHome (s.pkg g.newPkg).num g.newDie g.newFrame (leNat (memBytes s.mem a 16)))) 16)
      ∧ (∃ x ∈ (t.die g.oldPkg g.oldDie).stubs, x.key = pte.key ∧ x.page = pageOf g.va ∧ x.newPkg = g.newPkg ∧ x.newDie = g.newDie ∧ x.newFrame = g.newFrame ∧ x.start = old)
      ∧ { start := new, large } ∈ (t.die g.newPkg g.newDie).frozen
      ∧ Spec.Sends t .openReq new (.home g.newPkg g.newDie) fun y => y.src = .home g.oldPkg g.oldDie ∧ y.key = pte.key ∧ y.page = pageOf g.va ∧ y.large = large)
  ∧ (∀ (n p d : Nat) (m : Msg) (s : State), Spec.arrives s n .openReq m → m.dst = .home p d →
    ∃ t, exec (.openHome n) s = .next t ∧ t.mem = s.mem ∧ (t.die p d).stubs = (s.die p d).stubs.filter (fun x => !State.stubCovers x m.key m.page)
      ∧ (t.die p d).frozen = (s.die p d).frozen.filter (fun f => !(f.start = m.line && f.large = m.large))
      ∧ (∀ f ∈ (s.die p d).frozen, f.start = m.line → f.large = m.large → ∀ h ∈ f.held, ∃ y ∈ t.net, y.2 = h)
      ∧ Spec.Sends t .opened 0 m.src fun y => y.src = m.dst ∧ y.key = m.key ∧ y.page = m.page)
  ∧ (∀ (i : Instr) (n k : Nat) (g : Migration) (s : State),
    let ended (t : State) : Prop := t.migrations = [(k, { g with ended := true })]
      ∧ (t.die g.oldPkg g.oldDie).frozen = (s.die g.oldPkg g.oldDie).frozen.filter (fun f => !(f.start = t.oldPlace g && f.large = g.large))
      ∧ ∀ f ∈ (s.die g.oldPkg g.oldDie).frozen, f.start = t.oldPlace g → f.large = g.large → ∀ h ∈ f.held, ∃ y ∈ t.net, y.2 = h
    s.migrations = [(k, g)] → g.ended = false →
    (∀ m, i = .opened n → Spec.arrives s n .opened m → m.dst = .home g.oldPkg g.oldDie → g.flipped = true → pageOf g.va = m.page →
      ∃ t, exec i s = .next t ∧ ended t ∧ t.mem = s.mem)
    ∧ (i = .migrationAbandon k → g.flipped = false → g.started + 320000 ≤ s.now ⟨g.oldPkg, g.oldDie, 0⟩ →
      ∃ t, exec i s = .next t ∧ ended t ∧ ∀ a large, s.leafAt g.oldPkg g.ctx g.va = some (a, large) →
        Spec.wrote s t (s.hubEv (physPkg a) .store) (.mem a) (leBytes (State.withMov false (leNat (memBytes s.mem a 16))) 16) ∧ Spec.MemBut s t a 16)
    ∧ (i = .migrationAbandon k → g.flipped = true ∨ s.now ⟨g.oldPkg, g.oldDie, 0⟩ < g.started + 320000 → ∃ why, exec i s = .refused (.notEnabled why)))
  ∧ (∀ p d page : Nat,
    let may (s : State) (x : Stub) : Prop :=
      x ∈ (s.die p d).stubs ∧ x.page = page ∧ x.invalidated = true ∧ x.retiring = false ∧ x.lastRelay + 65536 ≤ s.now ⟨p, d, 0⟩
    Spec.Event (.stubRetire p d page) (fun s => ∃ x, may s x) fun s t => t.mem = s.mem ∧ ∃ x, may s x ∧ { x with retiring := true } ∈ (t.die p d).stubs
      ∧ Spec.Sends t .retire 0 (.home x.newPkg x.newDie) fun y => y.src = .home p d ∧ y.key = x.key ∧ y.page = page)
  ∧ (∀ (n p d : Nat) (m : Msg) (s : State), Spec.arrives s n .retire m → m.dst = .home p d →
    let before : Prop := (∃ y ∈ s.net, y.1 < n ∧ y.2.kind = .relay ∧ y.2.dst = m.dst) ∨ s.relaysWaiting p d m = true
    (before → ∃ why, exec (.retire n) s = .refused (.notEnabled why))
    ∧ (¬before → ∃ t, exec (.retire n) s = .next t ∧ t.mem = s.mem ∧ t.dies = s.dies
        ∧ Spec.Sends t .confirm 0 m.src fun y => y.src = m.dst ∧ y.key = m.key ∧ y.page = m.page))
  ∧ ∀ (n p d : Nat) (m : Msg) (s : State), Spec.arrives s n .confirm m → m.dst = .home p d →
    ∃ t, exec (.confirm n) s = .next t ∧ { t with dies := s.dies } = s.dropMsg n
      ∧ (t.die p d).stubs = (s.die p d).stubs.filter fun x => !(x.retiring && x.key = m.key && x.page = m.page)

/-- Links and end-to-end delivery: flits, NACKs, resends, drops. A data flit in order is received once, any other one is refused with a NACK; idle and
NACK flits free and replay what is unacknowledged; packets of another partition are dropped and counted, packets in order are applied once and
answered, duplicates answered again, and unacknowledged ones resent on another plane. The layout of packets inside flits is not in the spec (log entry
30). An event is an instruction of the model (log entry 6): where it is not due it is refused by name. (Rests on R421, R422, R423, R424, R425, R426,
R391, R428.) -/
def Obligations.LinkEvents : Prop :=  (∀ (p k : Nat) (f : List Byte) (rest : List (List Byte)) (s : State),
    let x := s.port p k
    let ends (i : Instr) (ok : Port → Prop) : Prop := ∃ t, exec i s = .next t ∧ { t with pkgs := s.pkgs } = s ∧ (t.port p k).rx = rest ∧ ok (t.port p k)
    let heard (y : Port) : Prop := y.peerWm = [field f 6 2, field f 8 2, field f 10 2]
    let w := field f 4 2 % 4096
    let after := if x.unacked.any (fun y => y.1 = w) then (x.unacked.dropWhile fun y => y.1 ≠ w).drop 1 else x.unacked
    x.rx = f :: rest → x.up = true →
    (flitType f = 1 ∨ 2 < flitType f →
      (flitOk f = true ∧ field f 2 2 % 4096 = (x.wseq + 1) % 4096 →
        ends (.flitData p k) fun y => y.wseq = (x.wseq + 1) % 4096 ∧ y.received = x.received ++ [(f.drop 16).take 236] ∧ y.nacking = false ∧ heard y
          ∧ (x.waiting = [] → y.unacked = after))
      ∧ (¬(flitOk f = true ∧ field f 2 2 % 4096 = (x.wseq + 1) % 4096) →
        ends (.flitData p k) fun y => y.wseq = x.wseq ∧ y.received = x.received ∧ y.nacking = true ∧ y.peerWm = x.peerWm ∧ y.unacked = x.unacked
          ∧ y.tx = x.tx ++ [flitOf 2 0 x.wseq [0, 0, 0] []]))
    ∧ (flitType f = 0 → ends (.flitIdle p k) fun y => y.wseq = x.wseq ∧ y.received = x.received
        ∧ (flitOk f = true → heard y ∧ (x.waiting = [] → y.unacked = after)) ∧ (flitOk f = false → y.peerWm = x.peerWm ∧ y.unacked = x.unacked))
    ∧ (flitType f = 2 → ends (.flitNack p k) fun y => y.wseq = x.wseq ∧ y.received = x.received
        ∧ (flitOk f = true → heard y ∧ (x.waiting = [] → y.unacked = after ∧ y.tx = x.tx ++ after.map fun z => flitOf 1 z.1 x.wseq [0, 0, 0] z.2.2)
            ∧ y.nacks = if x.nackFor = (field f 4 2 + 1) % 4096 then x.nacks + 1 else 1)
        ∧ (flitOk f = false → y.peerWm = x.peerWm ∧ y.tx = x.tx)))
  ∧ (∀ p k : Nat,
    Spec.Event (.idleFlitSend p k) (fun s => (s.port p k).up = true ∧ (s.port p k).lastTx + 234 ≤ s.hubNow p) (fun s t => { t with pkgs := s.pkgs } = s
      ∧ t.port p k = { s.port p k with tx := (s.port p k).tx ++ [flitOf 0 0 (s.port p k).wseq [0, 0, 0] []], lastTx := s.hubNow p })
    ∧ Spec.Event (.nackRepeat p k) (fun s => (s.port p k).up = true ∧ (s.port p k).nacking = true ∧ (s.port p k).lastNack + 234 ≤ s.hubNow p) (fun s t =>
      { t with pkgs := s.pkgs } = s ∧ (t.port p k).tx = (s.port p k).tx ++ [flitOf 2 0 (s.port p k).wseq [0, 0, 0] []] ∧ (t.port p k).lastNack = s.hubNow p
      ∧ (t.port p k).wseq = (s.port p k).wseq)
    ∧ ∀ j, Spec.Event (.portRetrain p k j) (fun s => (s.port p k).up = true ∧ 16 ≤ (s.port p k).nacks) fun s t => { t with pkgs := s.pkgs } = s
      ∧ t.port p k = { s.port p k with nacks := 0, lanes := (s.port p k).lanes - j, up := decide (j < (s.port p k).lanes) })
  ∧ (∀ (n : Nat) (x : Packet) (s : State), Map.find s.packets n = some x →
    let foreign : Prop := (s.pkg x.dst).pid ≠ some x.pid
    let gone : State := { s with packets := Map.erase s.packets n }
    let r : Stream := Map.getD (s.pkg x.dst).recv (x.src, x.cls) {}
    let recv (t : State) : Stream := Map.getD (t.pkg x.dst).recv (x.src, x.cls) {}
    let answers (t : State) (bs : List Byte) : Prop := ∃ y ∈ t.packets, y.2.isAck = true ∧ y.2.src = x.dst ∧ y.2.dst = x.src ∧ y.2.cls = x.cls ∧ y.2.payload = bs
    (foreign → ∃ t, exec (.fabricPacketDrop n) s = .next t ∧ t.packets = gone.packets ∧ (t.pkg x.dst).dropped = (s.pkg x.dst).dropped + 1 ∧ { t with pkgs := s.pkgs } = gone)
    ∧ (¬foreign → ∃ why, exec (.fabricPacketDrop n) s = .refused (.notEnabled why))
    ∧ (x.isAck = false → ¬foreign → (s.pkg x.dst).alive = true → (s.port x.dst x.plane).up = true →
      (x.epoch < (s.pkg x.dst).epoch ∨ r.frozen = true → exec (.e2eDeliver n) s = .next gone)
      ∧ ((s.pkg x.dst).epoch ≤ x.epoch → r.frozen = false →
        (2 ^ 31 ≤ State.ahead x.eseq r.expect → ∃ t, exec (.e2eDeliver n) s = .next t ∧ t.pkgs = s.pkgs ∧ answers t (Map.getD r.replies x.eseq []))
        ∧ (256 ≤ State.ahead x.eseq r.expect → State.ahead x.eseq r.expect < 2 ^ 31 → (∀ y ∈ r.held, y.eseq ≠ x.eseq) → exec (.e2eDeliver n) s = .next gone)
        ∧ (0 < State.ahead x.eseq r.expect → State.ahead x.eseq r.expect < 256 → (∀ y ∈ r.held, y.eseq ≠ x.eseq ∧ y.eseq ≠ r.expect) →
            ∃ t, exec (.e2eDeliver n) s = .next t ∧ recv t = { r with held := r.held ++ [x] })
        ∧ (x.eseq = r.expect → r.held = [] → ∃ t, exec (.e2eDeliver n) s = .next t ∧ (recv t).expect = (r.expect + 1) % 2 ^ 32 ∧ (recv t).applied = r.applied ++ [x.payload]
            ∧ (recv t).held = [] ∧ Map.find (recv t).replies x.eseq = some (Config.packetReply x.payload) ∧ answers t (Config.packetReply x.payload))))
    ∧ (∀ y, x.isAck = true → ¬foreign → (s.pkg x.dst).alive = true → (s.port x.dst x.plane).up = true → Map.find (s.pkg x.dst).send (x.src, x.cls) = some y →
      ∃ t, exec (.e2eAck n) s = .next t ∧ t.mem = s.mem ∧
        Map.find (t.pkg x.dst).send (x.src, x.cls) = some { y with unacked := y.unacked.filter fun z => 2 ^ 31 ≤ State.ahead x.eseq z.eseq }))
  ∧ ∀ (p dst cls e k pid : Nat) (x : Packet) (s : State), Map.getD (s.pkg p).send (dst, cls) {} = { (Map.getD (s.pkg p).send (dst, cls) {} : SendStream) with unacked := [x] } →
    x.eseq = e → x.src = p → x.sentAt + 1024 ≤ s.hubNow p → x.resends < 3 → s.choosePort p cls x.plane = some k → (s.pkg p).pid = some pid →
    ((∃ j < 18, (s.port p j).up = true ∧ j ≠ x.plane) → k ≠ x.plane) ∧
    let x' : Packet := { x with resends := x.resends + 1, sentAt := s.hubNow p, plane := k }
    ∃ t, exec (.e2eResend p dst cls e) s = .next t ∧ (Map.getD (t.pkg p).send (dst, cls) {}).unacked = [x'] ∧ ∃ y ∈ t.packets, y.2 = { x' with pid }

/-- Security engine, firmware, ports and resets. A signed command applies exactly where every check of Table 16.5 passes, and otherwise answers the first
failing one; quotes sign nonce, serial and boot nonce; measurements extend; power-on and package reset leave what their rules say; watchdogs,
messages, inbound and mirrored writes and clock steps have their effects. Signature and digest functions are opaque (log entry 20). An event is an
instruction of the model (log entry 6): where it is not due it is refused by name. (Rests on R392, R393, R394, R396, R400, R401, R402, R432, R433,
R374, R21.) -/
def Obligations.SystemEvents : Prop :=  (∀ (i : Instr) (p : Nat) (bs : List Byte) (rest : List (List Byte)) (s : State),
    let k := s.pkg p
    let op := cmdOp bs
    let st := ((Spec.cmdChecks p k bs).find? (·.1)).elim 0 (·.2)
    k.mailbox = bs :: rest → (i = .joinCmd p ∧ op = 1 ∨ i = .writePmap p ∧ op = 2 ∨ i = .writeWindow p ∧ op = 3 ∨ i = .leaveCmd p ∧ ¬(1 ≤ op ∧ op ≤ 3)) →
    (st ≠ 0 → exec i s = .next (s.setPkg p { k with mailbox := rest, cmdStatus := some st }))
    ∧ (st = 0 → ∃ t, exec i s = .next t ∧ t.mem = s.mem ∧
        let y := t.pkg p
        y.mailbox = rest ∧ y.cmdStatus = some 0 ∧ y.lastSeq = some (field bs 0 8)
        ∧ (op = 1 → y.pid = some (field bs 0x20 2) ∧ y.num = field bs 0x22 2 ∧ y.tray = field bs 0x24 2 ∧ y.n = field bs 0x26 2 ∧ y.pmap = k.pmap ∧ y.windows = k.windows)
        ∧ (op ≠ 1 → y.num = k.num ∧ y.tray = k.tray ∧ y.n = k.n)
        ∧ (op = 2 → y.pid = k.pid ∧ y.windows = k.windows ∧ ∀ j, Map.find y.pmap j =
            if field bs 0x20 2 ≤ j ∧ j < field bs 0x20 2 + field bs 0x22 2 then
              let e := field bs (0x24 + 4 * (j - field bs 0x20 2)) 4
              if e.testBit 31 then some (e % 2 ^ 24) else none
            else Map.find k.pmap j)
        ∧ (op = 3 → y.pid = k.pid ∧ (∀ j, Map.find y.windows j = if j = field bs 0x20 2 then some (field bs 0x22 4, field bs 0x26 4) else Map.find k.windows j)
            ∧ (∀ e ∈ y.pmap, e ∈ k.pmap ∧ inWindows y.windows e.2 = true) ∧ ∀ e ∈ k.pmap, inWindows y.windows e.2 = true → e ∈ y.pmap)
        ∧ (op = 4 → y.pid = none ∧ y.pmap = [] ∧ y.windows = [])))
  ∧ (∀ (p nonce : Nat) (s : State),
    let k := s.pkg p
    ∃ t body, exec (.quote p nonce) s = .next t ∧ t = s.setPkg p { k with quotes := k.quotes ++ [body ++ Config.ed25519Sign p body] }
      ∧ body.take 32 = leBytes nonce 32 ∧ (body.drop 32).take 8 = leBytes (Config.pkgSerial p).toNat 8 ∧ (body.drop 40).take 8 = leBytes k.bnonce.toNat 8)
  ∧ (∀ p i d : Nat,
    let zeros : List Byte := List.replicate 64 0
    Spec.Event (.measureExtend p i d) (fun s => 3 ≤ i ∧ i ≤ 7 ∧ ∃ c < 16, State.priv (s.host ⟨p, 8, c⟩) = 2) fun s t => { t with pkgs := s.pkgs } = s
      ∧ Map.getD (t.pkg p).mr i zeros = Config.sha512 (Map.getD (s.pkg p).mr i zeros ++ leBytes d 64)
      ∧ ∀ j, j ≠ i → Map.getD (t.pkg p).mr j zeros = Map.getD (s.pkg p).mr j zeros)
  ∧ (∀ (i : Instr) (p : Nat) (s : State), i = .powerOn p ∨ i = .packageReset p → ∃ t, exec i s = .next t ∧ t.mem = s.mem
      ∧ (∀ j < 16, t.host ⟨p, 8, j⟩ = {} ∧ t.thread (hostThread ⟨p, 8, j⟩) = Thread.initial (hostThread ⟨p, 8, j⟩))
      ∧ (∀ u, u.wave.core.pkg = p → isHost u = false → t.thread u = Thread.initial u) ∧ (∀ c : CoreId, c.pkg = p → isHostCore c = false → (t.core c).l1 = [] ∧ (t.core c).misses = []
          ∧ (i = .packageReset p → (t.core c).fence = (s.core c).fence) ∧ (t.core c).fence &&& (s.core c).fence = (t.core c).fence)
      ∧ (i = .packageReset p → (t.pkg p).pid = (s.pkg p).pid ∧ (t.pkg p).pmap = (s.pkg p).pmap ∧ ((∃ q ∈ s.partition p, q ≠ p) → p ∈ t.reports))
      ∧ (i = .powerOn p → (t.pkg p).pid = none ∧ (t.pkg p).pmap = [] ∧ (t.pkg p).windows = [] ∧ (t.pkg p).lastSeq = none ∧ (t.pkg p).authHash = (s.pkg p).authHash
          ∧ (t.pkg p).bnonce = Config.bootNonce p (s.pkg p).powerOns ∧ (t.pkg p).powerOns = (s.pkg p).powerOns + 1
          ∧ (∀ j < 3, Map.find (t.pkg p).mr j = some (Config.sha512 (List.replicate 64 0 ++ Config.imageDigest p j))) ∧ ∀ j, 3 ≤ j → Map.find (t.pkg p).mr j = none))
  ∧ (∀ p : Nat,
    Spec.Event (.watchdogExpiry p) (fun s => (s.pkg p).watchdog + 2 ^ 24 ≤ s.hubNow p) (fun s t => p ∈ t.reports ∧ t.mem = s.mem)
    ∧ Spec.Event (.lockstepMismatch p) (fun _ => True) (fun s t => { t with pkgs := s.pkgs } = s ∧ t.pkg p = { s.pkg p with restarts := (s.pkg p).restarts + 1 })
    ∧ ∀ msg, Spec.Event (.fabricManagerMessage p msg) (fun _ => True) fun s t => (t.pkg p).messages = (s.pkg p).messages ++ [msg] ∧ t.mem = s.mem
        ∧ ∀ j < 16, (t.host ⟨p, 8, j⟩).hpend.getLsbD 2 = true)
  ∧ (∀ (p : Nat) (va : Dword) (bs : List Byte),
    Spec.Event (.pcieInboundWrite p va bs) (fun s => s.vaLeased p (s.ctxRoot (s.pkg p).bar2Key) va bs.length = false) fun s t =>
      match s.vaWrite p (s.ctxRoot (s.pkg p).bar2Key) (some [(s.pkg p).bar2Key]) va bs { s.hubEv p .store with ord := .rel, scp := some .rack } with
      | .ok x => t = x
      | .error _ => t = s)
  ∧ (∀ (p : Nat) (m : Mirror) (off : Nat) (bs : List Byte) (c : CoreId) (rest : List (Nat × List Byte × CoreId)) (s : State), (s.pkg p).mirror = some m →
    (s.pkg p).mirrorQ = (off, bs, c) :: rest →
    let root := s.rootOf (hostThread ⟨p, 8, 0⟩)
    let a := m.sbase + BitVec.ofNat 64 off
    s.vaLeased p root a bs.length = false → ∃ t, exec (.mirrorApply p) s = .next t ∧ (t.pkg p).mirrorQ = rest ∧ ∀ x, s.vaWrite p root none a bs = .ok x → t.mem = x.mem)
  ∧ ∀ p d : Nat,
    Spec.Event (.arithmeticClockStep p d) (fun s => d < 8 ∧ 25 < (s.die p d).mhz) fun s t => { t with dies := s.dies } = s
      ∧ t.die p d = { s.die p d with mhz := (s.die p d).mhz - 25 }

/-- Corrected and uncorrectable errors, self-tests and scrubbing. A corrected error is logged and asks for a self-test, in a sub-array for a pattern
product too; a failing or repeated one takes the unit’s spare or retires it; an uncorrectable error poisons exactly the place it strikes or raises a
machine check; scrubbing raises and halves its rate. How many spares there are is a free constant (log entry 31). An event is an instruction of the
model (log entry 6): where it is not due it is refused by name. (Rests on R417, R418, R398, R397, R202, R203.) -/
def Obligations.SoftErrors : Prop :=  (∀ (u : EccUnit) (loc : Nat) (s : State),
    let p := (State.eccPlace u).1
    let d := (State.eccPlace u).2
    ∃ t, exec (.correctedError u loc) s = .next t ∧ t.mem = s.mem ∧ t.poison = s.poison ∧ (t.pkg p).errorLog = (s.pkg p).errorLog ++ [(u, loc, (s.die p d).now)]
      ∧ (u, loc) ∈ (t.pkg p).tests ∧ (t.die p d).scrub = min 4 ((s.die p d).scrub + 1) ∧ (t.die p d).scrubQuietSince = (s.die p d).now
      ∧ ∀ c k, u = .subArray c k → loc % 16 ∈ (t.core c).calls)
  ∧ (∀ (u : EccUnit) (loc : Nat) (fails : Bool) (s : State),
    let p := (State.eccPlace u).1
    let d := (State.eccPlace u).2
    let seen := ((s.pkg p).errorLog.filter fun y => y.1 = u && y.2.1 = loc && decide ((s.die p d).now < y.2.2 + 2 ^ 34)).length
    ((u, loc) ∉ (s.pkg p).tests → ∃ why, exec (.selfTestDone u loc fails) s = .refused (.notEnabled why))
    ∧ ((u, loc) ∈ (s.pkg p).tests → fails = false → seen < 3 → ∃ t, exec (.selfTestDone u loc fails) s = .next t ∧ { t with pkgs := s.pkgs } = s ∧ (u, loc) ∉ (t.pkg p).tests)
    ∧ ((u, loc) ∈ (s.pkg p).tests → fails = true ∨ 3 ≤ seen → (∀ c, u = .coreStore c → s.residents c = []) → ∃ t, exec (.selfTestDone u loc fails) s = .next t ∧ (u, loc) ∉ (t.pkg p).tests ∧
        match u with
        | .coreStore c => if (s.core c).spared < Config.spareRows 0 then (t.core c).spared = (s.core c).spared + 1 else (t.core c).coreRetired = true
        | .l1 c => (t.core c).ways = (s.core c).ways + 1
        | .l2 _ _ k | .directory _ _ k => Map.getD (t.die p d).ways k 0 = Map.getD (s.die p d).ways k 0 + 1
        | .hbm _ _ f => if (s.die p d).spared < Config.spareRows 1 then (t.die p d).spared = (s.die p d).spared + 1 else f ∈ (t.die p d).retiredFrames
        | .link _ k => (t.port p k).lanes = (s.port p k).lanes - 1 ∧ (t.port p k).up = ((s.port p k).up && decide (1 < (s.port p k).lanes))
        | .subArray c k => (t.core c).fence.testBit (k % 16) = true
            ∧ (5 ≤ ((List.range 16).filter (t.core c).fence.testBit).length → (t.core c).retired = true)))
  ∧ (∀ (pa key : Nat) (s : State), ∃ t, exec (.uncorrectableError (.line pa key)) s = .next t ∧ lineOf pa ∈ t.poison ∧ (∀ l ∈ s.poison, l ∈ t.poison)
      ∧ let x := s.dirFind (physPkg pa) (physDie pa) (lineOf pa)
        (if Map.has (s.die (physPkg pa) (physDie pa)).dir x.1 then x.2.key else key) = 0 → t.mcheck = true)
  ∧ (∀ (p d l : Nat) (s : State), exec (.uncorrectableError (.directory p d l)) s = .next { s with mcheck := true })
  ∧ (∀ (u : ThreadId) (n : Nat) (s : State), ∃ t, exec (.uncorrectableError (.register u n)) s = .next t ∧ Spec.OnlyThread u s t ∧ n ∈ (t.thread u).poisoned
      ∧ { t.thread u with poisoned := (s.thread u).poisoned } = s.thread u)
  ∧ (∀ (tm off : Nat) (s : State), ∃ t, exec (.uncorrectableError (.scratch tm off)) s = .next t ∧ off / 8 * 8 ∈ (t.team tm).scrPoison ∧ { t with teams := s.teams } = s)
  ∧ (∀ (tm b off : Nat) (s : State),
    (∀ r, Map.find (s.team tm).handles b = some r → ∃ t, exec (.uncorrectableError (.operandBuffer tm b off)) s = .next t ∧ { t with teams := s.teams } = s
      ∧ ∃ r', Map.find (t.team tm).handles b = some r' ∧ off / 8 * 8 ∈ r'.poisoned)
    ∧ (Map.find (s.team tm).handles b = none → ∃ why, exec (.uncorrectableError (.operandBuffer tm b off)) s = .refused (.notEnabled why)))
  ∧ (∀ (tm k : Nat) (s : State), ∃ t x, exec (.uncorrectableError (.tile tm k)) s = .next t ∧ Map.find (t.team tm).tiles k = some x ∧ x.poison = true)
  ∧ ∀ p d : Nat,
    (∀ row, Spec.Event (.scrub p d row) (fun _ => True) fun s t => { t with dies := s.dies } = s ∧ Map.find (t.die p d).scrubbed row = some (s.die p d).now)
    ∧ Spec.Event (.scrubRateHalve p d) (fun s => 0 < (s.die p d).scrub ∧ (s.die p d).scrubQuietSince + 2 ^ 32 ≤ (s.die p d).now) fun s t => { t with dies := s.dies } = s
      ∧ t.die p d = { s.die p d with scrub := (s.die p d).scrub - 1, scrubQuietSince := (s.die p d).now }

/-- Words the spec writes out decode to their instructions. The worked encodings of the spec for IADD with a literal, FFMA, a pair word, OCL, CVT, LD, ST,
TRSV, MMA, BRA and SIGW decode to the instruction, operands and options they stand for; the zero word decodes as ILLOP. (Rests on R54, R55, R63, R64,
R68, R87, R165, R278, R207, R216, R355, R363.) -/
def Obligations.DecodesSpecWords : Prop :=  let no : Hdr := ⟨⟨false, 7⟩, none, 0⟩
  let r (n : Nat) : SrcD := ⟨.v n, false⟩
  decode 0x002E0201D4000000 (some 0xC000000012345678) = .ok (.iadd no .i32 false (.v 2) (r 3) ⟨.lit 0x12345678, false⟩)
  ∧ decode 0x087208020301AA00 none = .ok (.ffma ⟨⟨true, 1⟩, some 0, 0⟩ .f32 .rne (.v 8) (r 4) ⟨.v 12, true⟩ (r 13))
  ∧ decode 0x4181014040057480 none = .ok (.pairWord (some ⟨.fmulF32, ⟨false, 7⟩, 4, r 5, none⟩) (some ⟨.iadd, ⟨false, 7⟩, 10, ⟨.imm 1, false⟩, none⟩))
  ∧ decode 0x04AE000880000003 none = .ok (.ocl no 3 17 false)
  ∧ decode 0x0A0E060380358000 none = .ok (.cvt no .rne true .e4m3 .f32 (.v 6) (r 7))
  ∧ decode 0x280E060174000038 none = .ok (.ld ⟨⟨false, 7⟩, none, 3⟩ .b32 ⟨.g, .rlx, none, false⟩ (.v 6) (r 2) ⟨.imm 16, false⟩)
  ∧ decode 0x282E070142760008 none = .ok (.st no .b32 ⟨.g, .rel, some .rack, true⟩ (.v 7) (r 2) ⟨.s 9, false⟩)
  ∧ decode 0x200E058A00000001 none = .ok (.trsv no (.v 5) 1 20)
  ∧ decode 0x21070A8600000000 none = .ok (.mma ⟨⟨false, 3⟩, none, 0⟩ 10 ⟨.s 12, false⟩)
  ∧ decode 0x380E00FFFFFF8000 none = .ok (.bra no (-4))
  ∧ decode 0x39AE0A0270550000 none = .ok (.sigw no .ge ⟨.g, .acq, some .rack, false⟩ (.v 10) (r 4) ⟨.imm 1, false⟩)
  ∧ decode 0 none = .bad .illop 8

/-- Decoding the encoding of a well-formed instruction gives it back. For every well-formed instruction the decoder reads from its word (and literal)
exactly that instruction, with every operand and option; a word without a literal does so whatever follows it, and no instruction is longer than two
words. (Rests on R52, R54, R55, R57, R58, R61, R62, R63, R68, R71.) -/
def Obligations.DecodeEncode : Prop :=  ∀ i : Instr, i.wf = true →
    (∀ w, i.encode = [w] → ∀ next, decode w next = .ok i) ∧ (∀ w l, i.encode = [w, l] → decode w (some l) = .ok i) ∧ i.encode.length ≤ 2

/-- A word that decodes is the encoding of a well-formed instruction. Whatever the decoder accepts is well-formed and encodes to the word (and the
literal) it was read from: no bit is dropped and no second word has the same meaning. (Rests on R57, R58, R61, R62, R63, R68, R71.) -/
def Obligations.DecodeExact : Prop :=  ∀ (w : Dword) (next : Option Dword) (i : Instr), decode w next = .ok i → i.wf = true ∧ (i.encode = [w] ∨ ∃ l, next = some l ∧ i.encode = [w, l])

/-- A step runs the decoded instruction. A step with an agenda runs its first instruction; else the first enabled event of the part; else the core whose
turn it is forms its group, fetches the word at its PC (and the literal where the word wants one) through translation (the bytes that stand there, or
another version where a store of another agent has changed them: log entry 46), and the step is exec of the decoded instruction, followed by a cycle
(on the other dies where a word issued, else on all) and the turn of the next core; a word that does not decode on this kind of core takes its decode
trap. The order of events and cores and the passing of time are the model’s choice (log entries 7 and 8). (Rests on R53, R54, R63, R387.) -/
def Obligations.StepRunsDecoded : Prop :=  (∀ (s : State) (i : Instr) (rest : List Instr), s.agenda = i :: rest → step s = exec i { s with agenda := rest })
  ∧ (∀ (s t : State), s.agenda = [] → firstEnabled s s.events = some t → step s = .next t)
  ∧ (∀ (s s1 : State) (c : CoreId), s.agenda = [] → firstEnabled s s.events = none → s.nextCore = some c →
    (∀ i, (s.formGroup c).fetchInstr = (s1, some (.ok i)) → (∀ t, exec i s1 = .next t → step s = .next (afterWord ((s.formGroup c).core c).readyAt t)))
    ∧ (∀ k n, (s.formGroup c).fetchInstr = (s1, some (.bad k n)) → step s = .next (afterWord ((s.formGroup c).core c).readyAt (decodeFail k n s1)))
    ∧ ((s.formGroup c).fetchInstr = (s1, none) → step s = .next (afterWord ((s.formGroup c).core c).readyAt s1)))
  ∧ (∀ (s s1 s2 : State) (u : ThreadId) (w l : Dword),
    let pc := (s.thread u).pc
    let host := isHostCore s.focus
    s.group = [u] → s.fetchWord u pc = (s1, .word w) →
    (wantsLiteral w = false → s.fetchInstr = (s1, some (decodeOn host w none)))
    ∧ (wantsLiteral w = true → s1.group = [u] → s1.fetchWord u (pc + 8) = (s2, .word l) → s.fetchInstr = (s2, some (decodeOn host w (some l)))))
  ∧ (∀ (s s1 : State) (u : ThreadId) (va : Dword) (pa : Nat) (pte : Pte), va.toNat % 8 = 0 → s.walkHeld u va = none → s.globalAddr u .fetch va = (s1, .ok (pa, pte)) →
    s1.leasedByOther u (lineOf pa) = false → lineOf pa ∉ s1.poison →
    ∃ s2 bs, s.fetchWord u va = (s2, .word (BitVec.ofNat 64 (leNat bs))) ∧ Spec.returns s1 { s1.threadEv u .load with path := .kc } (.mem pa) 8 bs)
  ∧ (∀ (host : Bool) (w : Dword) (next : Option Dword) (i : Instr), decode w next = .ok i → decodeOn host w next = .ok i)
  ∧ ∀ s : State, s.agenda = [] → firstEnabled s s.events = none → s.nextCore = none → step s = .next (s.tickBut none)

/-- What reset leaves. Memory is in canonical form and reads as zero (log entry 1); the host cores of a package are at monitor level at the entry address
with no event pending or enabled; every other thread has exited; there are no teams, grids, contexts, operations, messages, queues or pools; the
package belongs to no partition; heat control and the registers of a context hold their reset values. Values the spec does not give are the model’s
(log entry 2). (Rests on R374, R48, Table 15.4, Table 2.4, R274, R393.) -/
def Obligations.ResetState : Prop :=  let s := State.reset
  s.MemOk ∧ (∀ a, memRead s.mem a = 0)
  ∧ (∀ (p j : Nat), j < 16 →
    let c : CoreId := ⟨p, 8, j⟩
    State.priv (s.host c) = 2 ∧ (s.thread (hostThread c)).pc = Config.monitorEntry ∧ (s.thread (hostThread c)).status = .runnable ∧ (s.wave ⟨c, 0⟩).allot = 256
    ∧ (s.host c).hpend = 0 ∧ (s.host c).hmask = 0)
  ∧ (∀ u, isHost u = false → (s.thread u).exited = true)
  ∧ s.teams = [] ∧ s.grids = [] ∧ s.contexts = [] ∧ s.ops = [] ∧ s.net = [] ∧ s.queues = [] ∧ s.pools = [] ∧ s.poison = []
  ∧ (∀ p, (s.pkg p).pid = none ∧ (s.pkg p).pmap = [] ∧ (s.pkg p).windows = [] ∧ (s.pkg p).lastSeq = none ∧ (s.pkg p).mr = [])
  ∧ (∀ p d, (s.die p d).heatCtl.toNat = 0x1000 + 24 * 2 ^ 16 + 2 ^ 31 ∧ (s.die p d).dir = [] ∧ (s.die p d).stubs = [])
  ∧ ∀ k, (s.context k).regs.ctxFlags = 3 ∧ (s.context k).regs.fairPeriod = 2048 ∧ (s.context k).regs.leaseMax = 256 ∧ (s.context k).regs.schedSeed = 1
    ∧ (s.context k).regs.storeSplit = 0x808 ∧ (s.context k).regs.trapQueue = 0 ∧ (s.context k).regs.spoolBase = 0 ∧ (s.context k).regs.chkHandler = 0

/-- Every step keeps memory in its canonical form. From every state whose memory lists rising addresses with no byte that an unlisted address would read
as, every step that answers a next state, whatever word or event it is, answers one whose memory does too. The form is the model’s (log entry 1).
(Rests on R3, R4, R5.) -/
def Obligations.StepKeepsMemory : Prop := ∀ s t : State, s.MemOk → step s = .next t → t.MemOk

/-- Memory reads back what was stored, and equal memories are equal data. After bytes are stored at an address they read back there and every other
address reads as before; two memories in canonical form that read alike are equal; numbers and their little-endian bytes determine each other. (Rests
on R3, R4, R5.) -/
def Obligations.MemoryReadsBack : Prop :=  (∀ (m : List Host.Cell) (a : Nat) (bs : List Byte), memBytes (memStore m a bs) a bs.length = bs
    ∧ ∀ k, ¬(a ≤ k ∧ k < a + bs.length) → memRead (memStore m a bs) k = memRead m k)
  ∧ (∀ (m m' : List Host.Cell), Memory.wf m = true → Memory.wf m' = true → (∀ a, memRead m a = memRead m' a) → m = m')
  ∧ (∀ x n : Nat, leNat (leBytes x n) = x % 2 ^ (8 * n)) ∧ ∀ bs : List Byte, leBytes (leNat bs) bs.length = bs
end

