-- ==== Sys2Proof/Laws/Maps.lean ====
section
/-! SUPPORT. What the sparse stores answer after an update. -/

namespace Sys2Proof

variable {κ α : Type} [DecidableEq κ]

@[simp] theorem Map.find_nil (k : κ) : Map.find ([] : Map κ α) k = none := rfl
@[simp] theorem Map.getD_nil (k : κ) (d : α) : Map.getD ([] : Map κ α) k d = d := rfl

theorem Map.find_set (m : Map κ α) (k j : κ) (x : α) : Map.find (Map.set m k x) j = if j = k then some x else Map.find m j := by
  induction m with
  | nil =>
    by_cases h : j = k
    · simp [Map.set, Map.find, h]
    · simp [Map.set, Map.find, h, Ne.symm h]
  | cons a m ih =>
    obtain ⟨k', x'⟩ := a
    simp only [Map.set]
    by_cases h : k' = k
    · subst h
      by_cases hj : j = k'
      · simp [Map.find, hj]
      · simp [Map.find, hj, Ne.symm hj]
    · simp only [h, if_false, Map.find, ih]
      by_cases hj : k' = j
      · subst hj; simp [h]
      · simp [hj]

@[simp] theorem Map.find_set_self (m : Map κ α) (k : κ) (x : α) : Map.find (Map.set m k x) k = some x := by simp [Map.find_set]

theorem Map.getD_set (m : Map κ α) (k j : κ) (x d : α) : Map.getD (Map.set m k x) j d = if j = k then x else Map.getD m j d := by
  unfold Map.getD; rw [Map.find_set]; split <;> rfl

@[simp] theorem Map.getD_set_self (m : Map κ α) (k : κ) (x d : α) : Map.getD (Map.set m k x) k d = x := by simp [Map.getD_set]

/-- A second write of a key replaces the first. -/
theorem Map.set_set (m : Map κ α) (k : κ) (x y : α) : Map.set (Map.set m k x) k y = Map.set m k y := by
  induction m with
  | nil => simp [Map.set]
  | cons a m ih =>
    obtain ⟨k', x'⟩ := a
    by_cases h : k' = k
    · simp [Map.set, h]
    · simp [Map.set, h, ih]

theorem Map.find_erase (m : Map κ α) (k j : κ) : Map.find (Map.erase m k) j = if j = k then none else Map.find m j := by
  induction m with
  | nil => simp [Map.erase]
  | cons a m ih =>
    obtain ⟨k', x'⟩ := a
    simp only [Map.erase]
    by_cases h : k' = k
    · subst h; simp only [if_true, ih, Map.find]; by_cases hj : j = k'
      · simp [hj]
      · simp [hj, Ne.symm hj]
    · simp only [h, if_false, Map.find, ih]
      by_cases hj : k' = j
      · subst hj; simp [h]
      · simp [hj]

@[simp] theorem Map.find_erase_self (m : Map κ α) (k : κ) : Map.find (Map.erase m k) k = none := by simp [Map.find_erase]

theorem Map.find_mapVals (m : Map κ α) (f : κ → α → α) (k : κ) : Map.find (Map.mapVals m f) k = (Map.find m k).map (f k) := by
  induction m with
  | nil => rfl
  | cons a m ih =>
    obtain ⟨k', x'⟩ := a
    simp only [Map.mapVals, List.map_cons, Map.find]
    by_cases h : k' = k
    · subst h; simp
    · simp only [h, if_false]; exact ih

end Sys2Proof
end

