-- ==== Sys2Proof/Laws/State.lean ====
section
/-! SUPPORT. What each record and each field of the state is after each update. -/

namespace Sys2Proof.Machine.State


section
variable (s : State) (t : ThreadId) (x : Thread)
theorem thread_setThread (t' : ThreadId) : (s.setThread t x).thread t' = if t' = t then x else s.thread t' := by
  simp only [State.setThread, State.thread, Map.getD_set]
@[simp] theorem thread_setThread_self : (s.setThread t x).thread t = x := by simp [thread_setThread]
@[simp] theorem wave_setThread (w' : WaveId) : (s.setThread t x).wave w' = s.wave w' := rfl
@[simp] theorem team_setThread (n' : Nat) : (s.setThread t x).team n' = s.team n' := rfl
@[simp] theorem grid_setThread (n' : Nat) : (s.setThread t x).grid n' = s.grid n' := rfl
@[simp] theorem context_setThread (k' : Nat) : (s.setThread t x).context k' = s.context k' := rfl
@[simp] theorem core_setThread (c' : CoreId) : (s.setThread t x).core c' = s.core c' := rfl
@[simp] theorem die_setThread (p' : Nat) (d' : Nat) : (s.setThread t x).die p' d' = s.die p' d' := rfl
@[simp] theorem pkg_setThread (p' : Nat) : (s.setThread t x).pkg p' = s.pkg p' := rfl
@[simp] theorem host_setThread (c' : CoreId) : (s.setThread t x).host c' = s.host c' := rfl
@[simp] theorem op_setThread (n' : Nat) : (s.setThread t x).op n' = s.op n' := rfl
@[simp] theorem focus_setThread : (s.setThread t x).focus = s.focus := rfl
@[simp] theorem agenda_setThread : (s.setThread t x).agenda = s.agenda := rfl
@[simp] theorem free_setThread : (s.setThread t x).free = s.free := rfl
@[simp] theorem nextId_setThread : (s.setThread t x).nextId = s.nextId := rfl
@[simp] theorem trace_setThread : (s.setThread t x).trace = s.trace := rfl
@[simp] theorem nextEv_setThread : (s.setThread t x).nextEv = s.nextEv := rfl
@[simp] theorem deps_setThread : (s.setThread t x).deps = s.deps := rfl
@[simp] theorem tokens_setThread : (s.setThread t x).tokens = s.tokens := rfl
@[simp] theorem wordEv_setThread : (s.setThread t x).wordEv = s.wordEv := rfl
@[simp] theorem mem_setThread : (s.setThread t x).mem = s.mem := rfl
@[simp] theorem poison_setThread : (s.setThread t x).poison = s.poison := rfl
@[simp] theorem waves_setThread : (s.setThread t x).waves = s.waves := rfl
@[simp] theorem teams_setThread : (s.setThread t x).teams = s.teams := rfl
@[simp] theorem grids_setThread : (s.setThread t x).grids = s.grids := rfl
@[simp] theorem contexts_setThread : (s.setThread t x).contexts = s.contexts := rfl
@[simp] theorem cores_setThread : (s.setThread t x).cores = s.cores := rfl
@[simp] theorem dies_setThread : (s.setThread t x).dies = s.dies := rfl
@[simp] theorem pkgs_setThread : (s.setThread t x).pkgs = s.pkgs := rfl
@[simp] theorem hosts_setThread : (s.setThread t x).hosts = s.hosts := rfl
@[simp] theorem ops_setThread : (s.setThread t x).ops = s.ops := rfl
@[simp] theorem net_setThread : (s.setThread t x).net = s.net := rfl
@[simp] theorem packets_setThread : (s.setThread t x).packets = s.packets := rfl
@[simp] theorem queues_setThread : (s.setThread t x).queues = s.queues := rfl
@[simp] theorem pools_setThread : (s.setThread t x).pools = s.pools := rfl
@[simp] theorem groupCalls_setThread : (s.setThread t x).groupCalls = s.groupCalls := rfl
@[simp] theorem groups_setThread : (s.setThread t x).groups = s.groups := rfl
@[simp] theorem shootdowns_setThread : (s.setThread t x).shootdowns = s.shootdowns := rfl
@[simp] theorem migrations_setThread : (s.setThread t x).migrations = s.migrations := rfl
@[simp] theorem images_setThread : (s.setThread t x).images = s.images := rfl
@[simp] theorem lost_setThread : (s.setThread t x).lost = s.lost := rfl
@[simp] theorem reports_setThread : (s.setThread t x).reports = s.reports := rfl
@[simp] theorem mcheck_setThread : (s.setThread t x).mcheck = s.mcheck := rfl
@[simp] theorem unacked_setThread : (s.setThread t x).unacked = s.unacked := rfl
end

section
variable (s : State) (t : ThreadId) (f : Thread → Thread)
theorem thread_modThread (t' : ThreadId) : (s.modThread t f).thread t' = if t' = t then f (s.thread t) else s.thread t' := by
  simp only [State.modThread, State.thread, State.setThread, Map.getD_set]
@[simp] theorem thread_modThread_self : (s.modThread t f).thread t = f (s.thread t) := by simp [thread_modThread]
@[simp] theorem wave_modThread (w' : WaveId) : (s.modThread t f).wave w' = s.wave w' := rfl
@[simp] theorem team_modThread (n' : Nat) : (s.modThread t f).team n' = s.team n' := rfl
@[simp] theorem grid_modThread (n' : Nat) : (s.modThread t f).grid n' = s.grid n' := rfl
@[simp] theorem context_modThread (k' : Nat) : (s.modThread t f).context k' = s.context k' := rfl
@[simp] theorem core_modThread (c' : CoreId) : (s.modThread t f).core c' = s.core c' := rfl
@[simp] theorem die_modThread (p' : Nat) (d' : Nat) : (s.modThread t f).die p' d' = s.die p' d' := rfl
@[simp] theorem pkg_modThread (p' : Nat) : (s.modThread t f).pkg p' = s.pkg p' := rfl
@[simp] theorem host_modThread (c' : CoreId) : (s.modThread t f).host c' = s.host c' := rfl
@[simp] theorem op_modThread (n' : Nat) : (s.modThread t f).op n' = s.op n' := rfl
@[simp] theorem focus_modThread : (s.modThread t f).focus = s.focus := rfl
@[simp] theorem agenda_modThread : (s.modThread t f).agenda = s.agenda := rfl
@[simp] theorem free_modThread : (s.modThread t f).free = s.free := rfl
@[simp] theorem nextId_modThread : (s.modThread t f).nextId = s.nextId := rfl
@[simp] theorem trace_modThread : (s.modThread t f).trace = s.trace := rfl
@[simp] theorem nextEv_modThread : (s.modThread t f).nextEv = s.nextEv := rfl
@[simp] theorem deps_modThread : (s.modThread t f).deps = s.deps := rfl
@[simp] theorem tokens_modThread : (s.modThread t f).tokens = s.tokens := rfl
@[simp] theorem wordEv_modThread : (s.modThread t f).wordEv = s.wordEv := rfl
@[simp] theorem mem_modThread : (s.modThread t f).mem = s.mem := rfl
@[simp] theorem poison_modThread : (s.modThread t f).poison = s.poison := rfl
@[simp] theorem waves_modThread : (s.modThread t f).waves = s.waves := rfl
@[simp] theorem teams_modThread : (s.modThread t f).teams = s.teams := rfl
@[simp] theorem grids_modThread : (s.modThread t f).grids = s.grids := rfl
@[simp] theorem contexts_modThread : (s.modThread t f).contexts = s.contexts := rfl
@[simp] theorem cores_modThread : (s.modThread t f).cores = s.cores := rfl
@[simp] theorem dies_modThread : (s.modThread t f).dies = s.dies := rfl
@[simp] theorem pkgs_modThread : (s.modThread t f).pkgs = s.pkgs := rfl
@[simp] theorem hosts_modThread : (s.modThread t f).hosts = s.hosts := rfl
@[simp] theorem ops_modThread : (s.modThread t f).ops = s.ops := rfl
@[simp] theorem net_modThread : (s.modThread t f).net = s.net := rfl
@[simp] theorem packets_modThread : (s.modThread t f).packets = s.packets := rfl
@[simp] theorem queues_modThread : (s.modThread t f).queues = s.queues := rfl
@[simp] theorem pools_modThread : (s.modThread t f).pools = s.pools := rfl
@[simp] theorem groupCalls_modThread : (s.modThread t f).groupCalls = s.groupCalls := rfl
@[simp] theorem groups_modThread : (s.modThread t f).groups = s.groups := rfl
@[simp] theorem shootdowns_modThread : (s.modThread t f).shootdowns = s.shootdowns := rfl
@[simp] theorem migrations_modThread : (s.modThread t f).migrations = s.migrations := rfl
@[simp] theorem images_modThread : (s.modThread t f).images = s.images := rfl
@[simp] theorem lost_modThread : (s.modThread t f).lost = s.lost := rfl
@[simp] theorem reports_modThread : (s.modThread t f).reports = s.reports := rfl
@[simp] theorem mcheck_modThread : (s.modThread t f).mcheck = s.mcheck := rfl
@[simp] theorem unacked_modThread : (s.modThread t f).unacked = s.unacked := rfl
end

section
variable (s : State) (w : WaveId) (x : Wave)
theorem wave_setWave (w' : WaveId) : (s.setWave w x).wave w' = if w' = w then x else s.wave w' := by
  simp only [State.setWave, State.wave, Map.getD_set]
@[simp] theorem wave_setWave_self : (s.setWave w x).wave w = x := by simp [wave_setWave]
@[simp] theorem thread_setWave (t' : ThreadId) : (s.setWave w x).thread t' = s.thread t' := rfl
@[simp] theorem team_setWave (n' : Nat) : (s.setWave w x).team n' = s.team n' := rfl
@[simp] theorem grid_setWave (n' : Nat) : (s.setWave w x).grid n' = s.grid n' := rfl
@[simp] theorem context_setWave (k' : Nat) : (s.setWave w x).context k' = s.context k' := rfl
@[simp] theorem core_setWave (c' : CoreId) : (s.setWave w x).core c' = s.core c' := rfl
@[simp] theorem die_setWave (p' : Nat) (d' : Nat) : (s.setWave w x).die p' d' = s.die p' d' := rfl
@[simp] theorem pkg_setWave (p' : Nat) : (s.setWave w x).pkg p' = s.pkg p' := rfl
@[simp] theorem host_setWave (c' : CoreId) : (s.setWave w x).host c' = s.host c' := rfl
@[simp] theorem op_setWave (n' : Nat) : (s.setWave w x).op n' = s.op n' := rfl
@[simp] theorem focus_setWave : (s.setWave w x).focus = s.focus := rfl
@[simp] theorem agenda_setWave : (s.setWave w x).agenda = s.agenda := rfl
@[simp] theorem free_setWave : (s.setWave w x).free = s.free := rfl
@[simp] theorem nextId_setWave : (s.setWave w x).nextId = s.nextId := rfl
@[simp] theorem trace_setWave : (s.setWave w x).trace = s.trace := rfl
@[simp] theorem nextEv_setWave : (s.setWave w x).nextEv = s.nextEv := rfl
@[simp] theorem deps_setWave : (s.setWave w x).deps = s.deps := rfl
@[simp] theorem tokens_setWave : (s.setWave w x).tokens = s.tokens := rfl
@[simp] theorem wordEv_setWave : (s.setWave w x).wordEv = s.wordEv := rfl
@[simp] theorem mem_setWave : (s.setWave w x).mem = s.mem := rfl
@[simp] theorem poison_setWave : (s.setWave w x).poison = s.poison := rfl
@[simp] theorem threads_setWave : (s.setWave w x).threads = s.threads := rfl
@[simp] theorem teams_setWave : (s.setWave w x).teams = s.teams := rfl
@[simp] theorem grids_setWave : (s.setWave w x).grids = s.grids := rfl
@[simp] theorem contexts_setWave : (s.setWave w x).contexts = s.contexts := rfl
@[simp] theorem cores_setWave : (s.setWave w x).cores = s.cores := rfl
@[simp] theorem dies_setWave : (s.setWave w x).dies = s.dies := rfl
@[simp] theorem pkgs_setWave : (s.setWave w x).pkgs = s.pkgs := rfl
@[simp] theorem hosts_setWave : (s.setWave w x).hosts = s.hosts := rfl
@[simp] theorem ops_setWave : (s.setWave w x).ops = s.ops := rfl
@[simp] theorem net_setWave : (s.setWave w x).net = s.net := rfl
@[simp] theorem packets_setWave : (s.setWave w x).packets = s.packets := rfl
@[simp] theorem queues_setWave : (s.setWave w x).queues = s.queues := rfl
@[simp] theorem pools_setWave : (s.setWave w x).pools = s.pools := rfl
@[simp] theorem groupCalls_setWave : (s.setWave w x).groupCalls = s.groupCalls := rfl
@[simp] theorem groups_setWave : (s.setWave w x).groups = s.groups := rfl
@[simp] theorem shootdowns_setWave : (s.setWave w x).shootdowns = s.shootdowns := rfl
@[simp] theorem migrations_setWave : (s.setWave w x).migrations = s.migrations := rfl
@[simp] theorem images_setWave : (s.setWave w x).images = s.images := rfl
@[simp] theorem lost_setWave : (s.setWave w x).lost = s.lost := rfl
@[simp] theorem reports_setWave : (s.setWave w x).reports = s.reports := rfl
@[simp] theorem mcheck_setWave : (s.setWave w x).mcheck = s.mcheck := rfl
@[simp] theorem unacked_setWave : (s.setWave w x).unacked = s.unacked := rfl
end

section
variable (s : State) (w : WaveId) (f : Wave → Wave)
theorem wave_modWave (w' : WaveId) : (s.modWave w f).wave w' = if w' = w then f (s.wave w) else s.wave w' := by
  simp only [State.modWave, State.wave, State.setWave, Map.getD_set]
@[simp] theorem wave_modWave_self : (s.modWave w f).wave w = f (s.wave w) := by simp [wave_modWave]
@[simp] theorem thread_modWave (t' : ThreadId) : (s.modWave w f).thread t' = s.thread t' := rfl
@[simp] theorem team_modWave (n' : Nat) : (s.modWave w f).team n' = s.team n' := rfl
@[simp] theorem grid_modWave (n' : Nat) : (s.modWave w f).grid n' = s.grid n' := rfl
@[simp] theorem context_modWave (k' : Nat) : (s.modWave w f).context k' = s.context k' := rfl
@[simp] theorem core_modWave (c' : CoreId) : (s.modWave w f).core c' = s.core c' := rfl
@[simp] theorem die_modWave (p' : Nat) (d' : Nat) : (s.modWave w f).die p' d' = s.die p' d' := rfl
@[simp] theorem pkg_modWave (p' : Nat) : (s.modWave w f).pkg p' = s.pkg p' := rfl
@[simp] theorem host_modWave (c' : CoreId) : (s.modWave w f).host c' = s.host c' := rfl
@[simp] theorem op_modWave (n' : Nat) : (s.modWave w f).op n' = s.op n' := rfl
@[simp] theorem focus_modWave : (s.modWave w f).focus = s.focus := rfl
@[simp] theorem agenda_modWave : (s.modWave w f).agenda = s.agenda := rfl
@[simp] theorem free_modWave : (s.modWave w f).free = s.free := rfl
@[simp] theorem nextId_modWave : (s.modWave w f).nextId = s.nextId := rfl
@[simp] theorem trace_modWave : (s.modWave w f).trace = s.trace := rfl
@[simp] theorem nextEv_modWave : (s.modWave w f).nextEv = s.nextEv := rfl
@[simp] theorem deps_modWave : (s.modWave w f).deps = s.deps := rfl
@[simp] theorem tokens_modWave : (s.modWave w f).tokens = s.tokens := rfl
@[simp] theorem wordEv_modWave : (s.modWave w f).wordEv = s.wordEv := rfl
@[simp] theorem mem_modWave : (s.modWave w f).mem = s.mem := rfl
@[simp] theorem poison_modWave : (s.modWave w f).poison = s.poison := rfl
@[simp] theorem threads_modWave : (s.modWave w f).threads = s.threads := rfl
@[simp] theorem teams_modWave : (s.modWave w f).teams = s.teams := rfl
@[simp] theorem grids_modWave : (s.modWave w f).grids = s.grids := rfl
@[simp] theorem contexts_modWave : (s.modWave w f).contexts = s.contexts := rfl
@[simp] theorem cores_modWave : (s.modWave w f).cores = s.cores := rfl
@[simp] theorem dies_modWave : (s.modWave w f).dies = s.dies := rfl
@[simp] theorem pkgs_modWave : (s.modWave w f).pkgs = s.pkgs := rfl
@[simp] theorem hosts_modWave : (s.modWave w f).hosts = s.hosts := rfl
@[simp] theorem ops_modWave : (s.modWave w f).ops = s.ops := rfl
@[simp] theorem net_modWave : (s.modWave w f).net = s.net := rfl
@[simp] theorem packets_modWave : (s.modWave w f).packets = s.packets := rfl
@[simp] theorem queues_modWave : (s.modWave w f).queues = s.queues := rfl
@[simp] theorem pools_modWave : (s.modWave w f).pools = s.pools := rfl
@[simp] theorem groupCalls_modWave : (s.modWave w f).groupCalls = s.groupCalls := rfl
@[simp] theorem groups_modWave : (s.modWave w f).groups = s.groups := rfl
@[simp] theorem shootdowns_modWave : (s.modWave w f).shootdowns = s.shootdowns := rfl
@[simp] theorem migrations_modWave : (s.modWave w f).migrations = s.migrations := rfl
@[simp] theorem images_modWave : (s.modWave w f).images = s.images := rfl
@[simp] theorem lost_modWave : (s.modWave w f).lost = s.lost := rfl
@[simp] theorem reports_modWave : (s.modWave w f).reports = s.reports := rfl
@[simp] theorem mcheck_modWave : (s.modWave w f).mcheck = s.mcheck := rfl
@[simp] theorem unacked_modWave : (s.modWave w f).unacked = s.unacked := rfl
end

section
variable (s : State) (n : Nat) (x : Team)
theorem team_setTeam (n' : Nat) : (s.setTeam n x).team n' = if n' = n then x else s.team n' := by
  simp only [State.setTeam, State.team, Map.getD_set]
@[simp] theorem team_setTeam_self : (s.setTeam n x).team n = x := by simp [team_setTeam]
@[simp] theorem thread_setTeam (t' : ThreadId) : (s.setTeam n x).thread t' = s.thread t' := rfl
@[simp] theorem wave_setTeam (w' : WaveId) : (s.setTeam n x).wave w' = s.wave w' := rfl
@[simp] theorem grid_setTeam (n' : Nat) : (s.setTeam n x).grid n' = s.grid n' := rfl
@[simp] theorem context_setTeam (k' : Nat) : (s.setTeam n x).context k' = s.context k' := rfl
@[simp] theorem core_setTeam (c' : CoreId) : (s.setTeam n x).core c' = s.core c' := rfl
@[simp] theorem die_setTeam (p' : Nat) (d' : Nat) : (s.setTeam n x).die p' d' = s.die p' d' := rfl
@[simp] theorem pkg_setTeam (p' : Nat) : (s.setTeam n x).pkg p' = s.pkg p' := rfl
@[simp] theorem host_setTeam (c' : CoreId) : (s.setTeam n x).host c' = s.host c' := rfl
@[simp] theorem op_setTeam (n' : Nat) : (s.setTeam n x).op n' = s.op n' := rfl
@[simp] theorem focus_setTeam : (s.setTeam n x).focus = s.focus := rfl
@[simp] theorem agenda_setTeam : (s.setTeam n x).agenda = s.agenda := rfl
@[simp] theorem free_setTeam : (s.setTeam n x).free = s.free := rfl
@[simp] theorem nextId_setTeam : (s.setTeam n x).nextId = s.nextId := rfl
@[simp] theorem trace_setTeam : (s.setTeam n x).trace = s.trace := rfl
@[simp] theorem nextEv_setTeam : (s.setTeam n x).nextEv = s.nextEv := rfl
@[simp] theorem deps_setTeam : (s.setTeam n x).deps = s.deps := rfl
@[simp] theorem tokens_setTeam : (s.setTeam n x).tokens = s.tokens := rfl
@[simp] theorem wordEv_setTeam : (s.setTeam n x).wordEv = s.wordEv := rfl
@[simp] theorem mem_setTeam : (s.setTeam n x).mem = s.mem := rfl
@[simp] theorem poison_setTeam : (s.setTeam n x).poison = s.poison := rfl
@[simp] theorem threads_setTeam : (s.setTeam n x).threads = s.threads := rfl
@[simp] theorem waves_setTeam : (s.setTeam n x).waves = s.waves := rfl
@[simp] theorem grids_setTeam : (s.setTeam n x).grids = s.grids := rfl
@[simp] theorem contexts_setTeam : (s.setTeam n x).contexts = s.contexts := rfl
@[simp] theorem cores_setTeam : (s.setTeam n x).cores = s.cores := rfl
@[simp] theorem dies_setTeam : (s.setTeam n x).dies = s.dies := rfl
@[simp] theorem pkgs_setTeam : (s.setTeam n x).pkgs = s.pkgs := rfl
@[simp] theorem hosts_setTeam : (s.setTeam n x).hosts = s.hosts := rfl
@[simp] theorem ops_setTeam : (s.setTeam n x).ops = s.ops := rfl
@[simp] theorem net_setTeam : (s.setTeam n x).net = s.net := rfl
@[simp] theorem packets_setTeam : (s.setTeam n x).packets = s.packets := rfl
@[simp] theorem queues_setTeam : (s.setTeam n x).queues = s.queues := rfl
@[simp] theorem pools_setTeam : (s.setTeam n x).pools = s.pools := rfl
@[simp] theorem groupCalls_setTeam : (s.setTeam n x).groupCalls = s.groupCalls := rfl
@[simp] theorem groups_setTeam : (s.setTeam n x).groups = s.groups := rfl
@[simp] theorem shootdowns_setTeam : (s.setTeam n x).shootdowns = s.shootdowns := rfl
@[simp] theorem migrations_setTeam : (s.setTeam n x).migrations = s.migrations := rfl
@[simp] theorem images_setTeam : (s.setTeam n x).images = s.images := rfl
@[simp] theorem lost_setTeam : (s.setTeam n x).lost = s.lost := rfl
@[simp] theorem reports_setTeam : (s.setTeam n x).reports = s.reports := rfl
@[simp] theorem mcheck_setTeam : (s.setTeam n x).mcheck = s.mcheck := rfl
@[simp] theorem unacked_setTeam : (s.setTeam n x).unacked = s.unacked := rfl
end

section
variable (s : State) (n : Nat) (f : Team → Team)
theorem team_modTeam (n' : Nat) : (s.modTeam n f).team n' = if n' = n then f (s.team n) else s.team n' := by
  simp only [State.modTeam, State.team, State.setTeam, Map.getD_set]
@[simp] theorem team_modTeam_self : (s.modTeam n f).team n = f (s.team n) := by simp [team_modTeam]
@[simp] theorem thread_modTeam (t' : ThreadId) : (s.modTeam n f).thread t' = s.thread t' := rfl
@[simp] theorem wave_modTeam (w' : WaveId) : (s.modTeam n f).wave w' = s.wave w' := rfl
@[simp] theorem grid_modTeam (n' : Nat) : (s.modTeam n f).grid n' = s.grid n' := rfl
@[simp] theorem context_modTeam (k' : Nat) : (s.modTeam n f).context k' = s.context k' := rfl
@[simp] theorem core_modTeam (c' : CoreId) : (s.modTeam n f).core c' = s.core c' := rfl
@[simp] theorem die_modTeam (p' : Nat) (d' : Nat) : (s.modTeam n f).die p' d' = s.die p' d' := rfl
@[simp] theorem pkg_modTeam (p' : Nat) : (s.modTeam n f).pkg p' = s.pkg p' := rfl
@[simp] theorem host_modTeam (c' : CoreId) : (s.modTeam n f).host c' = s.host c' := rfl
@[simp] theorem op_modTeam (n' : Nat) : (s.modTeam n f).op n' = s.op n' := rfl
@[simp] theorem focus_modTeam : (s.modTeam n f).focus = s.focus := rfl
@[simp] theorem agenda_modTeam : (s.modTeam n f).agenda = s.agenda := rfl
@[simp] theorem free_modTeam : (s.modTeam n f).free = s.free := rfl
@[simp] theorem nextId_modTeam : (s.modTeam n f).nextId = s.nextId := rfl
@[simp] theorem trace_modTeam : (s.modTeam n f).trace = s.trace := rfl
@[simp] theorem nextEv_modTeam : (s.modTeam n f).nextEv = s.nextEv := rfl
@[simp] theorem deps_modTeam : (s.modTeam n f).deps = s.deps := rfl
@[simp] theorem tokens_modTeam : (s.modTeam n f).tokens = s.tokens := rfl
@[simp] theorem wordEv_modTeam : (s.modTeam n f).wordEv = s.wordEv := rfl
@[simp] theorem mem_modTeam : (s.modTeam n f).mem = s.mem := rfl
@[simp] theorem poison_modTeam : (s.modTeam n f).poison = s.poison := rfl
@[simp] theorem threads_modTeam : (s.modTeam n f).threads = s.threads := rfl
@[simp] theorem waves_modTeam : (s.modTeam n f).waves = s.waves := rfl
@[simp] theorem grids_modTeam : (s.modTeam n f).grids = s.grids := rfl
@[simp] theorem contexts_modTeam : (s.modTeam n f).contexts = s.contexts := rfl
@[simp] theorem cores_modTeam : (s.modTeam n f).cores = s.cores := rfl
@[simp] theorem dies_modTeam : (s.modTeam n f).dies = s.dies := rfl
@[simp] theorem pkgs_modTeam : (s.modTeam n f).pkgs = s.pkgs := rfl
@[simp] theorem hosts_modTeam : (s.modTeam n f).hosts = s.hosts := rfl
@[simp] theorem ops_modTeam : (s.modTeam n f).ops = s.ops := rfl
@[simp] theorem net_modTeam : (s.modTeam n f).net = s.net := rfl
@[simp] theorem packets_modTeam : (s.modTeam n f).packets = s.packets := rfl
@[simp] theorem queues_modTeam : (s.modTeam n f).queues = s.queues := rfl
@[simp] theorem pools_modTeam : (s.modTeam n f).pools = s.pools := rfl
@[simp] theorem groupCalls_modTeam : (s.modTeam n f).groupCalls = s.groupCalls := rfl
@[simp] theorem groups_modTeam : (s.modTeam n f).groups = s.groups := rfl
@[simp] theorem shootdowns_modTeam : (s.modTeam n f).shootdowns = s.shootdowns := rfl
@[simp] theorem migrations_modTeam : (s.modTeam n f).migrations = s.migrations := rfl
@[simp] theorem images_modTeam : (s.modTeam n f).images = s.images := rfl
@[simp] theorem lost_modTeam : (s.modTeam n f).lost = s.lost := rfl
@[simp] theorem reports_modTeam : (s.modTeam n f).reports = s.reports := rfl
@[simp] theorem mcheck_modTeam : (s.modTeam n f).mcheck = s.mcheck := rfl
@[simp] theorem unacked_modTeam : (s.modTeam n f).unacked = s.unacked := rfl
end

section
variable (s : State) (n : Nat) (x : Grid)
theorem grid_setGrid (n' : Nat) : (s.setGrid n x).grid n' = if n' = n then x else s.grid n' := by
  simp only [State.setGrid, State.grid, Map.getD_set]
@[simp] theorem grid_setGrid_self : (s.setGrid n x).grid n = x := by simp [grid_setGrid]
@[simp] theorem thread_setGrid (t' : ThreadId) : (s.setGrid n x).thread t' = s.thread t' := rfl
@[simp] theorem wave_setGrid (w' : WaveId) : (s.setGrid n x).wave w' = s.wave w' := rfl
@[simp] theorem team_setGrid (n' : Nat) : (s.setGrid n x).team n' = s.team n' := rfl
@[simp] theorem context_setGrid (k' : Nat) : (s.setGrid n x).context k' = s.context k' := rfl
@[simp] theorem core_setGrid (c' : CoreId) : (s.setGrid n x).core c' = s.core c' := rfl
@[simp] theorem die_setGrid (p' : Nat) (d' : Nat) : (s.setGrid n x).die p' d' = s.die p' d' := rfl
@[simp] theorem pkg_setGrid (p' : Nat) : (s.setGrid n x).pkg p' = s.pkg p' := rfl
@[simp] theorem host_setGrid (c' : CoreId) : (s.setGrid n x).host c' = s.host c' := rfl
@[simp] theorem op_setGrid (n' : Nat) : (s.setGrid n x).op n' = s.op n' := rfl
@[simp] theorem focus_setGrid : (s.setGrid n x).focus = s.focus := rfl
@[simp] theorem agenda_setGrid : (s.setGrid n x).agenda = s.agenda := rfl
@[simp] theorem free_setGrid : (s.setGrid n x).free = s.free := rfl
@[simp] theorem nextId_setGrid : (s.setGrid n x).nextId = s.nextId := rfl
@[simp] theorem trace_setGrid : (s.setGrid n x).trace = s.trace := rfl
@[simp] theorem nextEv_setGrid : (s.setGrid n x).nextEv = s.nextEv := rfl
@[simp] theorem deps_setGrid : (s.setGrid n x).deps = s.deps := rfl
@[simp] theorem tokens_setGrid : (s.setGrid n x).tokens = s.tokens := rfl
@[simp] theorem wordEv_setGrid : (s.setGrid n x).wordEv = s.wordEv := rfl
@[simp] theorem mem_setGrid : (s.setGrid n x).mem = s.mem := rfl
@[simp] theorem poison_setGrid : (s.setGrid n x).poison = s.poison := rfl
@[simp] theorem threads_setGrid : (s.setGrid n x).threads = s.threads := rfl
@[simp] theorem waves_setGrid : (s.setGrid n x).waves = s.waves := rfl
@[simp] theorem teams_setGrid : (s.setGrid n x).teams = s.teams := rfl
@[simp] theorem contexts_setGrid : (s.setGrid n x).contexts = s.contexts := rfl
@[simp] theorem cores_setGrid : (s.setGrid n x).cores = s.cores := rfl
@[simp] theorem dies_setGrid : (s.setGrid n x).dies = s.dies := rfl
@[simp] theorem pkgs_setGrid : (s.setGrid n x).pkgs = s.pkgs := rfl
@[simp] theorem hosts_setGrid : (s.setGrid n x).hosts = s.hosts := rfl
@[simp] theorem ops_setGrid : (s.setGrid n x).ops = s.ops := rfl
@[simp] theorem net_setGrid : (s.setGrid n x).net = s.net := rfl
@[simp] theorem packets_setGrid : (s.setGrid n x).packets = s.packets := rfl
@[simp] theorem queues_setGrid : (s.setGrid n x).queues = s.queues := rfl
@[simp] theorem pools_setGrid : (s.setGrid n x).pools = s.pools := rfl
@[simp] theorem groupCalls_setGrid : (s.setGrid n x).groupCalls = s.groupCalls := rfl
@[simp] theorem groups_setGrid : (s.setGrid n x).groups = s.groups := rfl
@[simp] theorem shootdowns_setGrid : (s.setGrid n x).shootdowns = s.shootdowns := rfl
@[simp] theorem migrations_setGrid : (s.setGrid n x).migrations = s.migrations := rfl
@[simp] theorem images_setGrid : (s.setGrid n x).images = s.images := rfl
@[simp] theorem lost_setGrid : (s.setGrid n x).lost = s.lost := rfl
@[simp] theorem reports_setGrid : (s.setGrid n x).reports = s.reports := rfl
@[simp] theorem mcheck_setGrid : (s.setGrid n x).mcheck = s.mcheck := rfl
@[simp] theorem unacked_setGrid : (s.setGrid n x).unacked = s.unacked := rfl
end

section
variable (s : State) (n : Nat) (f : Grid → Grid)
theorem grid_modGrid (n' : Nat) : (s.modGrid n f).grid n' = if n' = n then f (s.grid n) else s.grid n' := by
  simp only [State.modGrid, State.grid, State.setGrid, Map.getD_set]
@[simp] theorem grid_modGrid_self : (s.modGrid n f).grid n = f (s.grid n) := by simp [grid_modGrid]
@[simp] theorem thread_modGrid (t' : ThreadId) : (s.modGrid n f).thread t' = s.thread t' := rfl
@[simp] theorem wave_modGrid (w' : WaveId) : (s.modGrid n f).wave w' = s.wave w' := rfl
@[simp] theorem team_modGrid (n' : Nat) : (s.modGrid n f).team n' = s.team n' := rfl
@[simp] theorem context_modGrid (k' : Nat) : (s.modGrid n f).context k' = s.context k' := rfl
@[simp] theorem core_modGrid (c' : CoreId) : (s.modGrid n f).core c' = s.core c' := rfl
@[simp] theorem die_modGrid (p' : Nat) (d' : Nat) : (s.modGrid n f).die p' d' = s.die p' d' := rfl
@[simp] theorem pkg_modGrid (p' : Nat) : (s.modGrid n f).pkg p' = s.pkg p' := rfl
@[simp] theorem host_modGrid (c' : CoreId) : (s.modGrid n f).host c' = s.host c' := rfl
@[simp] theorem op_modGrid (n' : Nat) : (s.modGrid n f).op n' = s.op n' := rfl
@[simp] theorem focus_modGrid : (s.modGrid n f).focus = s.focus := rfl
@[simp] theorem agenda_modGrid : (s.modGrid n f).agenda = s.agenda := rfl
@[simp] theorem free_modGrid : (s.modGrid n f).free = s.free := rfl
@[simp] theorem nextId_modGrid : (s.modGrid n f).nextId = s.nextId := rfl
@[simp] theorem trace_modGrid : (s.modGrid n f).trace = s.trace := rfl
@[simp] theorem nextEv_modGrid : (s.modGrid n f).nextEv = s.nextEv := rfl
@[simp] theorem deps_modGrid : (s.modGrid n f).deps = s.deps := rfl
@[simp] theorem tokens_modGrid : (s.modGrid n f).tokens = s.tokens := rfl
@[simp] theorem wordEv_modGrid : (s.modGrid n f).wordEv = s.wordEv := rfl
@[simp] theorem mem_modGrid : (s.modGrid n f).mem = s.mem := rfl
@[simp] theorem poison_modGrid : (s.modGrid n f).poison = s.poison := rfl
@[simp] theorem threads_modGrid : (s.modGrid n f).threads = s.threads := rfl
@[simp] theorem waves_modGrid : (s.modGrid n f).waves = s.waves := rfl
@[simp] theorem teams_modGrid : (s.modGrid n f).teams = s.teams := rfl
@[simp] theorem contexts_modGrid : (s.modGrid n f).contexts = s.contexts := rfl
@[simp] theorem cores_modGrid : (s.modGrid n f).cores = s.cores := rfl
@[simp] theorem dies_modGrid : (s.modGrid n f).dies = s.dies := rfl
@[simp] theorem pkgs_modGrid : (s.modGrid n f).pkgs = s.pkgs := rfl
@[simp] theorem hosts_modGrid : (s.modGrid n f).hosts = s.hosts := rfl
@[simp] theorem ops_modGrid : (s.modGrid n f).ops = s.ops := rfl
@[simp] theorem net_modGrid : (s.modGrid n f).net = s.net := rfl
@[simp] theorem packets_modGrid : (s.modGrid n f).packets = s.packets := rfl
@[simp] theorem queues_modGrid : (s.modGrid n f).queues = s.queues := rfl
@[simp] theorem pools_modGrid : (s.modGrid n f).pools = s.pools := rfl
@[simp] theorem groupCalls_modGrid : (s.modGrid n f).groupCalls = s.groupCalls := rfl
@[simp] theorem groups_modGrid : (s.modGrid n f).groups = s.groups := rfl
@[simp] theorem shootdowns_modGrid : (s.modGrid n f).shootdowns = s.shootdowns := rfl
@[simp] theorem migrations_modGrid : (s.modGrid n f).migrations = s.migrations := rfl
@[simp] theorem images_modGrid : (s.modGrid n f).images = s.images := rfl
@[simp] theorem lost_modGrid : (s.modGrid n f).lost = s.lost := rfl
@[simp] theorem reports_modGrid : (s.modGrid n f).reports = s.reports := rfl
@[simp] theorem mcheck_modGrid : (s.modGrid n f).mcheck = s.mcheck := rfl
@[simp] theorem unacked_modGrid : (s.modGrid n f).unacked = s.unacked := rfl
end

section
variable (s : State) (k : Nat) (x : Context)
theorem context_setContext (k' : Nat) : (s.setContext k x).context k' = if k' = k then x else s.context k' := by
  simp only [State.setContext, State.context, Map.getD_set]
@[simp] theorem context_setContext_self : (s.setContext k x).context k = x := by simp [context_setContext]
@[simp] theorem thread_setContext (t' : ThreadId) : (s.setContext k x).thread t' = s.thread t' := rfl
@[simp] theorem wave_setContext (w' : WaveId) : (s.setContext k x).wave w' = s.wave w' := rfl
@[simp] theorem team_setContext (n' : Nat) : (s.setContext k x).team n' = s.team n' := rfl
@[simp] theorem grid_setContext (n' : Nat) : (s.setContext k x).grid n' = s.grid n' := rfl
@[simp] theorem core_setContext (c' : CoreId) : (s.setContext k x).core c' = s.core c' := rfl
@[simp] theorem die_setContext (p' : Nat) (d' : Nat) : (s.setContext k x).die p' d' = s.die p' d' := rfl
@[simp] theorem pkg_setContext (p' : Nat) : (s.setContext k x).pkg p' = s.pkg p' := rfl
@[simp] theorem host_setContext (c' : CoreId) : (s.setContext k x).host c' = s.host c' := rfl
@[simp] theorem op_setContext (n' : Nat) : (s.setContext k x).op n' = s.op n' := rfl
@[simp] theorem focus_setContext : (s.setContext k x).focus = s.focus := rfl
@[simp] theorem agenda_setContext : (s.setContext k x).agenda = s.agenda := rfl
@[simp] theorem free_setContext : (s.setContext k x).free = s.free := rfl
@[simp] theorem nextId_setContext : (s.setContext k x).nextId = s.nextId := rfl
@[simp] theorem trace_setContext : (s.setContext k x).trace = s.trace := rfl
@[simp] theorem nextEv_setContext : (s.setContext k x).nextEv = s.nextEv := rfl
@[simp] theorem deps_setContext : (s.setContext k x).deps = s.deps := rfl
@[simp] theorem tokens_setContext : (s.setContext k x).tokens = s.tokens := rfl
@[simp] theorem wordEv_setContext : (s.setContext k x).wordEv = s.wordEv := rfl
@[simp] theorem mem_setContext : (s.setContext k x).mem = s.mem := rfl
@[simp] theorem poison_setContext : (s.setContext k x).poison = s.poison := rfl
@[simp] theorem threads_setContext : (s.setContext k x).threads = s.threads := rfl
@[simp] theorem waves_setContext : (s.setContext k x).waves = s.waves := rfl
@[simp] theorem teams_setContext : (s.setContext k x).teams = s.teams := rfl
@[simp] theorem grids_setContext : (s.setContext k x).grids = s.grids := rfl
@[simp] theorem cores_setContext : (s.setContext k x).cores = s.cores := rfl
@[simp] theorem dies_setContext : (s.setContext k x).dies = s.dies := rfl
@[simp] theorem pkgs_setContext : (s.setContext k x).pkgs = s.pkgs := rfl
@[simp] theorem hosts_setContext : (s.setContext k x).hosts = s.hosts := rfl
@[simp] theorem ops_setContext : (s.setContext k x).ops = s.ops := rfl
@[simp] theorem net_setContext : (s.setContext k x).net = s.net := rfl
@[simp] theorem packets_setContext : (s.setContext k x).packets = s.packets := rfl
@[simp] theorem queues_setContext : (s.setContext k x).queues = s.queues := rfl
@[simp] theorem pools_setContext : (s.setContext k x).pools = s.pools := rfl
@[simp] theorem groupCalls_setContext : (s.setContext k x).groupCalls = s.groupCalls := rfl
@[simp] theorem groups_setContext : (s.setContext k x).groups = s.groups := rfl
@[simp] theorem shootdowns_setContext : (s.setContext k x).shootdowns = s.shootdowns := rfl
@[simp] theorem migrations_setContext : (s.setContext k x).migrations = s.migrations := rfl
@[simp] theorem images_setContext : (s.setContext k x).images = s.images := rfl
@[simp] theorem lost_setContext : (s.setContext k x).lost = s.lost := rfl
@[simp] theorem reports_setContext : (s.setContext k x).reports = s.reports := rfl
@[simp] theorem mcheck_setContext : (s.setContext k x).mcheck = s.mcheck := rfl
@[simp] theorem unacked_setContext : (s.setContext k x).unacked = s.unacked := rfl
end

section
variable (s : State) (k : Nat) (f : Context → Context)
theorem context_modContext (k' : Nat) : (s.modContext k f).context k' = if k' = k then f (s.context k) else s.context k' := by
  simp only [State.modContext, State.context, State.setContext, Map.getD_set]
@[simp] theorem context_modContext_self : (s.modContext k f).context k = f (s.context k) := by simp [context_modContext]
@[simp] theorem thread_modContext (t' : ThreadId) : (s.modContext k f).thread t' = s.thread t' := rfl
@[simp] theorem wave_modContext (w' : WaveId) : (s.modContext k f).wave w' = s.wave w' := rfl
@[simp] theorem team_modContext (n' : Nat) : (s.modContext k f).team n' = s.team n' := rfl
@[simp] theorem grid_modContext (n' : Nat) : (s.modContext k f).grid n' = s.grid n' := rfl
@[simp] theorem core_modContext (c' : CoreId) : (s.modContext k f).core c' = s.core c' := rfl
@[simp] theorem die_modContext (p' : Nat) (d' : Nat) : (s.modContext k f).die p' d' = s.die p' d' := rfl
@[simp] theorem pkg_modContext (p' : Nat) : (s.modContext k f).pkg p' = s.pkg p' := rfl
@[simp] theorem host_modContext (c' : CoreId) : (s.modContext k f).host c' = s.host c' := rfl
@[simp] theorem op_modContext (n' : Nat) : (s.modContext k f).op n' = s.op n' := rfl
@[simp] theorem focus_modContext : (s.modContext k f).focus = s.focus := rfl
@[simp] theorem agenda_modContext : (s.modContext k f).agenda = s.agenda := rfl
@[simp] theorem free_modContext : (s.modContext k f).free = s.free := rfl
@[simp] theorem nextId_modContext : (s.modContext k f).nextId = s.nextId := rfl
@[simp] theorem trace_modContext : (s.modContext k f).trace = s.trace := rfl
@[simp] theorem nextEv_modContext : (s.modContext k f).nextEv = s.nextEv := rfl
@[simp] theorem deps_modContext : (s.modContext k f).deps = s.deps := rfl
@[simp] theorem tokens_modContext : (s.modContext k f).tokens = s.tokens := rfl
@[simp] theorem wordEv_modContext : (s.modContext k f).wordEv = s.wordEv := rfl
@[simp] theorem mem_modContext : (s.modContext k f).mem = s.mem := rfl
@[simp] theorem poison_modContext : (s.modContext k f).poison = s.poison := rfl
@[simp] theorem threads_modContext : (s.modContext k f).threads = s.threads := rfl
@[simp] theorem waves_modContext : (s.modContext k f).waves = s.waves := rfl
@[simp] theorem teams_modContext : (s.modContext k f).teams = s.teams := rfl
@[simp] theorem grids_modContext : (s.modContext k f).grids = s.grids := rfl
@[simp] theorem cores_modContext : (s.modContext k f).cores = s.cores := rfl
@[simp] theorem dies_modContext : (s.modContext k f).dies = s.dies := rfl
@[simp] theorem pkgs_modContext : (s.modContext k f).pkgs = s.pkgs := rfl
@[simp] theorem hosts_modContext : (s.modContext k f).hosts = s.hosts := rfl
@[simp] theorem ops_modContext : (s.modContext k f).ops = s.ops := rfl
@[simp] theorem net_modContext : (s.modContext k f).net = s.net := rfl
@[simp] theorem packets_modContext : (s.modContext k f).packets = s.packets := rfl
@[simp] theorem queues_modContext : (s.modContext k f).queues = s.queues := rfl
@[simp] theorem pools_modContext : (s.modContext k f).pools = s.pools := rfl
@[simp] theorem groupCalls_modContext : (s.modContext k f).groupCalls = s.groupCalls := rfl
@[simp] theorem groups_modContext : (s.modContext k f).groups = s.groups := rfl
@[simp] theorem shootdowns_modContext : (s.modContext k f).shootdowns = s.shootdowns := rfl
@[simp] theorem migrations_modContext : (s.modContext k f).migrations = s.migrations := rfl
@[simp] theorem images_modContext : (s.modContext k f).images = s.images := rfl
@[simp] theorem lost_modContext : (s.modContext k f).lost = s.lost := rfl
@[simp] theorem reports_modContext : (s.modContext k f).reports = s.reports := rfl
@[simp] theorem mcheck_modContext : (s.modContext k f).mcheck = s.mcheck := rfl
@[simp] theorem unacked_modContext : (s.modContext k f).unacked = s.unacked := rfl
end

section
variable (s : State) (c : CoreId) (x : CoreSt)
theorem core_setCore (c' : CoreId) : (s.setCore c x).core c' = if c' = c then x else s.core c' := by
  simp only [State.setCore, State.core, Map.getD_set]
@[simp] theorem core_setCore_self : (s.setCore c x).core c = x := by simp [core_setCore]
@[simp] theorem thread_setCore (t' : ThreadId) : (s.setCore c x).thread t' = s.thread t' := rfl
@[simp] theorem wave_setCore (w' : WaveId) : (s.setCore c x).wave w' = s.wave w' := rfl
@[simp] theorem team_setCore (n' : Nat) : (s.setCore c x).team n' = s.team n' := rfl
@[simp] theorem grid_setCore (n' : Nat) : (s.setCore c x).grid n' = s.grid n' := rfl
@[simp] theorem context_setCore (k' : Nat) : (s.setCore c x).context k' = s.context k' := rfl
@[simp] theorem die_setCore (p' : Nat) (d' : Nat) : (s.setCore c x).die p' d' = s.die p' d' := rfl
@[simp] theorem pkg_setCore (p' : Nat) : (s.setCore c x).pkg p' = s.pkg p' := rfl
@[simp] theorem host_setCore (c' : CoreId) : (s.setCore c x).host c' = s.host c' := rfl
@[simp] theorem op_setCore (n' : Nat) : (s.setCore c x).op n' = s.op n' := rfl
@[simp] theorem focus_setCore : (s.setCore c x).focus = s.focus := rfl
@[simp] theorem agenda_setCore : (s.setCore c x).agenda = s.agenda := rfl
@[simp] theorem free_setCore : (s.setCore c x).free = s.free := rfl
@[simp] theorem nextId_setCore : (s.setCore c x).nextId = s.nextId := rfl
@[simp] theorem trace_setCore : (s.setCore c x).trace = s.trace := rfl
@[simp] theorem nextEv_setCore : (s.setCore c x).nextEv = s.nextEv := rfl
@[simp] theorem deps_setCore : (s.setCore c x).deps = s.deps := rfl
@[simp] theorem tokens_setCore : (s.setCore c x).tokens = s.tokens := rfl
@[simp] theorem wordEv_setCore : (s.setCore c x).wordEv = s.wordEv := rfl
@[simp] theorem mem_setCore : (s.setCore c x).mem = s.mem := rfl
@[simp] theorem poison_setCore : (s.setCore c x).poison = s.poison := rfl
@[simp] theorem threads_setCore : (s.setCore c x).threads = s.threads := rfl
@[simp] theorem waves_setCore : (s.setCore c x).waves = s.waves := rfl
@[simp] theorem teams_setCore : (s.setCore c x).teams = s.teams := rfl
@[simp] theorem grids_setCore : (s.setCore c x).grids = s.grids := rfl
@[simp] theorem contexts_setCore : (s.setCore c x).contexts = s.contexts := rfl
@[simp] theorem dies_setCore : (s.setCore c x).dies = s.dies := rfl
@[simp] theorem pkgs_setCore : (s.setCore c x).pkgs = s.pkgs := rfl
@[simp] theorem hosts_setCore : (s.setCore c x).hosts = s.hosts := rfl
@[simp] theorem ops_setCore : (s.setCore c x).ops = s.ops := rfl
@[simp] theorem net_setCore : (s.setCore c x).net = s.net := rfl
@[simp] theorem packets_setCore : (s.setCore c x).packets = s.packets := rfl
@[simp] theorem queues_setCore : (s.setCore c x).queues = s.queues := rfl
@[simp] theorem pools_setCore : (s.setCore c x).pools = s.pools := rfl
@[simp] theorem groupCalls_setCore : (s.setCore c x).groupCalls = s.groupCalls := rfl
@[simp] theorem groups_setCore : (s.setCore c x).groups = s.groups := rfl
@[simp] theorem shootdowns_setCore : (s.setCore c x).shootdowns = s.shootdowns := rfl
@[simp] theorem migrations_setCore : (s.setCore c x).migrations = s.migrations := rfl
@[simp] theorem images_setCore : (s.setCore c x).images = s.images := rfl
@[simp] theorem lost_setCore : (s.setCore c x).lost = s.lost := rfl
@[simp] theorem reports_setCore : (s.setCore c x).reports = s.reports := rfl
@[simp] theorem mcheck_setCore : (s.setCore c x).mcheck = s.mcheck := rfl
@[simp] theorem unacked_setCore : (s.setCore c x).unacked = s.unacked := rfl
end

section
variable (s : State) (c : CoreId) (f : CoreSt → CoreSt)
theorem core_modCore (c' : CoreId) : (s.modCore c f).core c' = if c' = c then f (s.core c) else s.core c' := by
  simp only [State.modCore, State.core, State.setCore, Map.getD_set]
@[simp] theorem core_modCore_self : (s.modCore c f).core c = f (s.core c) := by simp [core_modCore]
@[simp] theorem thread_modCore (t' : ThreadId) : (s.modCore c f).thread t' = s.thread t' := rfl
@[simp] theorem wave_modCore (w' : WaveId) : (s.modCore c f).wave w' = s.wave w' := rfl
@[simp] theorem team_modCore (n' : Nat) : (s.modCore c f).team n' = s.team n' := rfl
@[simp] theorem grid_modCore (n' : Nat) : (s.modCore c f).grid n' = s.grid n' := rfl
@[simp] theorem context_modCore (k' : Nat) : (s.modCore c f).context k' = s.context k' := rfl
@[simp] theorem die_modCore (p' : Nat) (d' : Nat) : (s.modCore c f).die p' d' = s.die p' d' := rfl
@[simp] theorem pkg_modCore (p' : Nat) : (s.modCore c f).pkg p' = s.pkg p' := rfl
@[simp] theorem host_modCore (c' : CoreId) : (s.modCore c f).host c' = s.host c' := rfl
@[simp] theorem op_modCore (n' : Nat) : (s.modCore c f).op n' = s.op n' := rfl
@[simp] theorem focus_modCore : (s.modCore c f).focus = s.focus := rfl
@[simp] theorem agenda_modCore : (s.modCore c f).agenda = s.agenda := rfl
@[simp] theorem free_modCore : (s.modCore c f).free = s.free := rfl
@[simp] theorem nextId_modCore : (s.modCore c f).nextId = s.nextId := rfl
@[simp] theorem trace_modCore : (s.modCore c f).trace = s.trace := rfl
@[simp] theorem nextEv_modCore : (s.modCore c f).nextEv = s.nextEv := rfl
@[simp] theorem deps_modCore : (s.modCore c f).deps = s.deps := rfl
@[simp] theorem tokens_modCore : (s.modCore c f).tokens = s.tokens := rfl
@[simp] theorem wordEv_modCore : (s.modCore c f).wordEv = s.wordEv := rfl
@[simp] theorem mem_modCore : (s.modCore c f).mem = s.mem := rfl
@[simp] theorem poison_modCore : (s.modCore c f).poison = s.poison := rfl
@[simp] theorem threads_modCore : (s.modCore c f).threads = s.threads := rfl
@[simp] theorem waves_modCore : (s.modCore c f).waves = s.waves := rfl
@[simp] theorem teams_modCore : (s.modCore c f).teams = s.teams := rfl
@[simp] theorem grids_modCore : (s.modCore c f).grids = s.grids := rfl
@[simp] theorem contexts_modCore : (s.modCore c f).contexts = s.contexts := rfl
@[simp] theorem dies_modCore : (s.modCore c f).dies = s.dies := rfl
@[simp] theorem pkgs_modCore : (s.modCore c f).pkgs = s.pkgs := rfl
@[simp] theorem hosts_modCore : (s.modCore c f).hosts = s.hosts := rfl
@[simp] theorem ops_modCore : (s.modCore c f).ops = s.ops := rfl
@[simp] theorem net_modCore : (s.modCore c f).net = s.net := rfl
@[simp] theorem packets_modCore : (s.modCore c f).packets = s.packets := rfl
@[simp] theorem queues_modCore : (s.modCore c f).queues = s.queues := rfl
@[simp] theorem pools_modCore : (s.modCore c f).pools = s.pools := rfl
@[simp] theorem groupCalls_modCore : (s.modCore c f).groupCalls = s.groupCalls := rfl
@[simp] theorem groups_modCore : (s.modCore c f).groups = s.groups := rfl
@[simp] theorem shootdowns_modCore : (s.modCore c f).shootdowns = s.shootdowns := rfl
@[simp] theorem migrations_modCore : (s.modCore c f).migrations = s.migrations := rfl
@[simp] theorem images_modCore : (s.modCore c f).images = s.images := rfl
@[simp] theorem lost_modCore : (s.modCore c f).lost = s.lost := rfl
@[simp] theorem reports_modCore : (s.modCore c f).reports = s.reports := rfl
@[simp] theorem mcheck_modCore : (s.modCore c f).mcheck = s.mcheck := rfl
@[simp] theorem unacked_modCore : (s.modCore c f).unacked = s.unacked := rfl
end

section
variable (s : State) (p : Nat) (d : Nat) (x : Die)
theorem die_setDie (p' : Nat) (d' : Nat) : (s.setDie p d x).die p' d' = if p' = p ∧ d' = d then x else s.die p' d' := by
  simp only [State.setDie, State.die, Map.getD_set, Prod.mk.injEq]
@[simp] theorem die_setDie_self : (s.setDie p d x).die p d = x := by simp [die_setDie]
@[simp] theorem thread_setDie (t' : ThreadId) : (s.setDie p d x).thread t' = s.thread t' := rfl
@[simp] theorem wave_setDie (w' : WaveId) : (s.setDie p d x).wave w' = s.wave w' := rfl
@[simp] theorem team_setDie (n' : Nat) : (s.setDie p d x).team n' = s.team n' := rfl
@[simp] theorem grid_setDie (n' : Nat) : (s.setDie p d x).grid n' = s.grid n' := rfl
@[simp] theorem context_setDie (k' : Nat) : (s.setDie p d x).context k' = s.context k' := rfl
@[simp] theorem core_setDie (c' : CoreId) : (s.setDie p d x).core c' = s.core c' := rfl
@[simp] theorem pkg_setDie (p' : Nat) : (s.setDie p d x).pkg p' = s.pkg p' := rfl
@[simp] theorem host_setDie (c' : CoreId) : (s.setDie p d x).host c' = s.host c' := rfl
@[simp] theorem op_setDie (n' : Nat) : (s.setDie p d x).op n' = s.op n' := rfl
@[simp] theorem focus_setDie : (s.setDie p d x).focus = s.focus := rfl
@[simp] theorem agenda_setDie : (s.setDie p d x).agenda = s.agenda := rfl
@[simp] theorem free_setDie : (s.setDie p d x).free = s.free := rfl
@[simp] theorem nextId_setDie : (s.setDie p d x).nextId = s.nextId := rfl
@[simp] theorem trace_setDie : (s.setDie p d x).trace = s.trace := rfl
@[simp] theorem nextEv_setDie : (s.setDie p d x).nextEv = s.nextEv := rfl
@[simp] theorem deps_setDie : (s.setDie p d x).deps = s.deps := rfl
@[simp] theorem tokens_setDie : (s.setDie p d x).tokens = s.tokens := rfl
@[simp] theorem wordEv_setDie : (s.setDie p d x).wordEv = s.wordEv := rfl
@[simp] theorem mem_setDie : (s.setDie p d x).mem = s.mem := rfl
@[simp] theorem poison_setDie : (s.setDie p d x).poison = s.poison := rfl
@[simp] theorem threads_setDie : (s.setDie p d x).threads = s.threads := rfl
@[simp] theorem waves_setDie : (s.setDie p d x).waves = s.waves := rfl
@[simp] theorem teams_setDie : (s.setDie p d x).teams = s.teams := rfl
@[simp] theorem grids_setDie : (s.setDie p d x).grids = s.grids := rfl
@[simp] theorem contexts_setDie : (s.setDie p d x).contexts = s.contexts := rfl
@[simp] theorem cores_setDie : (s.setDie p d x).cores = s.cores := rfl
@[simp] theorem pkgs_setDie : (s.setDie p d x).pkgs = s.pkgs := rfl
@[simp] theorem hosts_setDie : (s.setDie p d x).hosts = s.hosts := rfl
@[simp] theorem ops_setDie : (s.setDie p d x).ops = s.ops := rfl
@[simp] theorem net_setDie : (s.setDie p d x).net = s.net := rfl
@[simp] theorem packets_setDie : (s.setDie p d x).packets = s.packets := rfl
@[simp] theorem queues_setDie : (s.setDie p d x).queues = s.queues := rfl
@[simp] theorem pools_setDie : (s.setDie p d x).pools = s.pools := rfl
@[simp] theorem groupCalls_setDie : (s.setDie p d x).groupCalls = s.groupCalls := rfl
@[simp] theorem groups_setDie : (s.setDie p d x).groups = s.groups := rfl
@[simp] theorem shootdowns_setDie : (s.setDie p d x).shootdowns = s.shootdowns := rfl
@[simp] theorem migrations_setDie : (s.setDie p d x).migrations = s.migrations := rfl
@[simp] theorem images_setDie : (s.setDie p d x).images = s.images := rfl
@[simp] theorem lost_setDie : (s.setDie p d x).lost = s.lost := rfl
@[simp] theorem reports_setDie : (s.setDie p d x).reports = s.reports := rfl
@[simp] theorem mcheck_setDie : (s.setDie p d x).mcheck = s.mcheck := rfl
@[simp] theorem unacked_setDie : (s.setDie p d x).unacked = s.unacked := rfl
end

section
variable (s : State) (p : Nat) (d : Nat) (f : Die → Die)
theorem die_modDie (p' : Nat) (d' : Nat) : (s.modDie p d f).die p' d' = if p' = p ∧ d' = d then f (s.die p d) else s.die p' d' := by
  simp only [State.modDie, State.die, State.setDie, Map.getD_set, Prod.mk.injEq]
@[simp] theorem die_modDie_self : (s.modDie p d f).die p d = f (s.die p d) := by simp [die_modDie]
@[simp] theorem thread_modDie (t' : ThreadId) : (s.modDie p d f).thread t' = s.thread t' := rfl
@[simp] theorem wave_modDie (w' : WaveId) : (s.modDie p d f).wave w' = s.wave w' := rfl
@[simp] theorem team_modDie (n' : Nat) : (s.modDie p d f).team n' = s.team n' := rfl
@[simp] theorem grid_modDie (n' : Nat) : (s.modDie p d f).grid n' = s.grid n' := rfl
@[simp] theorem context_modDie (k' : Nat) : (s.modDie p d f).context k' = s.context k' := rfl
@[simp] theorem core_modDie (c' : CoreId) : (s.modDie p d f).core c' = s.core c' := rfl
@[simp] theorem pkg_modDie (p' : Nat) : (s.modDie p d f).pkg p' = s.pkg p' := rfl
@[simp] theorem host_modDie (c' : CoreId) : (s.modDie p d f).host c' = s.host c' := rfl
@[simp] theorem op_modDie (n' : Nat) : (s.modDie p d f).op n' = s.op n' := rfl
@[simp] theorem focus_modDie : (s.modDie p d f).focus = s.focus := rfl
@[simp] theorem agenda_modDie : (s.modDie p d f).agenda = s.agenda := rfl
@[simp] theorem free_modDie : (s.modDie p d f).free = s.free := rfl
@[simp] theorem nextId_modDie : (s.modDie p d f).nextId = s.nextId := rfl
@[simp] theorem trace_modDie : (s.modDie p d f).trace = s.trace := rfl
@[simp] theorem nextEv_modDie : (s.modDie p d f).nextEv = s.nextEv := rfl
@[simp] theorem deps_modDie : (s.modDie p d f).deps = s.deps := rfl
@[simp] theorem tokens_modDie : (s.modDie p d f).tokens = s.tokens := rfl
@[simp] theorem wordEv_modDie : (s.modDie p d f).wordEv = s.wordEv := rfl
@[simp] theorem mem_modDie : (s.modDie p d f).mem = s.mem := rfl
@[simp] theorem poison_modDie : (s.modDie p d f).poison = s.poison := rfl
@[simp] theorem threads_modDie : (s.modDie p d f).threads = s.threads := rfl
@[simp] theorem waves_modDie : (s.modDie p d f).waves = s.waves := rfl
@[simp] theorem teams_modDie : (s.modDie p d f).teams = s.teams := rfl
@[simp] theorem grids_modDie : (s.modDie p d f).grids = s.grids := rfl
@[simp] theorem contexts_modDie : (s.modDie p d f).contexts = s.contexts := rfl
@[simp] theorem cores_modDie : (s.modDie p d f).cores = s.cores := rfl
@[simp] theorem pkgs_modDie : (s.modDie p d f).pkgs = s.pkgs := rfl
@[simp] theorem hosts_modDie : (s.modDie p d f).hosts = s.hosts := rfl
@[simp] theorem ops_modDie : (s.modDie p d f).ops = s.ops := rfl
@[simp] theorem net_modDie : (s.modDie p d f).net = s.net := rfl
@[simp] theorem packets_modDie : (s.modDie p d f).packets = s.packets := rfl
@[simp] theorem queues_modDie : (s.modDie p d f).queues = s.queues := rfl
@[simp] theorem pools_modDie : (s.modDie p d f).pools = s.pools := rfl
@[simp] theorem groupCalls_modDie : (s.modDie p d f).groupCalls = s.groupCalls := rfl
@[simp] theorem groups_modDie : (s.modDie p d f).groups = s.groups := rfl
@[simp] theorem shootdowns_modDie : (s.modDie p d f).shootdowns = s.shootdowns := rfl
@[simp] theorem migrations_modDie : (s.modDie p d f).migrations = s.migrations := rfl
@[simp] theorem images_modDie : (s.modDie p d f).images = s.images := rfl
@[simp] theorem lost_modDie : (s.modDie p d f).lost = s.lost := rfl
@[simp] theorem reports_modDie : (s.modDie p d f).reports = s.reports := rfl
@[simp] theorem mcheck_modDie : (s.modDie p d f).mcheck = s.mcheck := rfl
@[simp] theorem unacked_modDie : (s.modDie p d f).unacked = s.unacked := rfl
end

section
variable (s : State) (p : Nat) (x : Package)
theorem pkg_setPkg (p' : Nat) : (s.setPkg p x).pkg p' = if p' = p then x else s.pkg p' := by
  simp only [State.setPkg, State.pkg, Map.getD_set]
@[simp] theorem pkg_setPkg_self : (s.setPkg p x).pkg p = x := by simp [pkg_setPkg]
@[simp] theorem thread_setPkg (t' : ThreadId) : (s.setPkg p x).thread t' = s.thread t' := rfl
@[simp] theorem wave_setPkg (w' : WaveId) : (s.setPkg p x).wave w' = s.wave w' := rfl
@[simp] theorem team_setPkg (n' : Nat) : (s.setPkg p x).team n' = s.team n' := rfl
@[simp] theorem grid_setPkg (n' : Nat) : (s.setPkg p x).grid n' = s.grid n' := rfl
@[simp] theorem context_setPkg (k' : Nat) : (s.setPkg p x).context k' = s.context k' := rfl
@[simp] theorem core_setPkg (c' : CoreId) : (s.setPkg p x).core c' = s.core c' := rfl
@[simp] theorem die_setPkg (p' : Nat) (d' : Nat) : (s.setPkg p x).die p' d' = s.die p' d' := rfl
@[simp] theorem host_setPkg (c' : CoreId) : (s.setPkg p x).host c' = s.host c' := rfl
@[simp] theorem op_setPkg (n' : Nat) : (s.setPkg p x).op n' = s.op n' := rfl
@[simp] theorem focus_setPkg : (s.setPkg p x).focus = s.focus := rfl
@[simp] theorem agenda_setPkg : (s.setPkg p x).agenda = s.agenda := rfl
@[simp] theorem free_setPkg : (s.setPkg p x).free = s.free := rfl
@[simp] theorem nextId_setPkg : (s.setPkg p x).nextId = s.nextId := rfl
@[simp] theorem trace_setPkg : (s.setPkg p x).trace = s.trace := rfl
@[simp] theorem nextEv_setPkg : (s.setPkg p x).nextEv = s.nextEv := rfl
@[simp] theorem deps_setPkg : (s.setPkg p x).deps = s.deps := rfl
@[simp] theorem tokens_setPkg : (s.setPkg p x).tokens = s.tokens := rfl
@[simp] theorem wordEv_setPkg : (s.setPkg p x).wordEv = s.wordEv := rfl
@[simp] theorem mem_setPkg : (s.setPkg p x).mem = s.mem := rfl
@[simp] theorem poison_setPkg : (s.setPkg p x).poison = s.poison := rfl
@[simp] theorem threads_setPkg : (s.setPkg p x).threads = s.threads := rfl
@[simp] theorem waves_setPkg : (s.setPkg p x).waves = s.waves := rfl
@[simp] theorem teams_setPkg : (s.setPkg p x).teams = s.teams := rfl
@[simp] theorem grids_setPkg : (s.setPkg p x).grids = s.grids := rfl
@[simp] theorem contexts_setPkg : (s.setPkg p x).contexts = s.contexts := rfl
@[simp] theorem cores_setPkg : (s.setPkg p x).cores = s.cores := rfl
@[simp] theorem dies_setPkg : (s.setPkg p x).dies = s.dies := rfl
@[simp] theorem hosts_setPkg : (s.setPkg p x).hosts = s.hosts := rfl
@[simp] theorem ops_setPkg : (s.setPkg p x).ops = s.ops := rfl
@[simp] theorem net_setPkg : (s.setPkg p x).net = s.net := rfl
@[simp] theorem packets_setPkg : (s.setPkg p x).packets = s.packets := rfl
@[simp] theorem queues_setPkg : (s.setPkg p x).queues = s.queues := rfl
@[simp] theorem pools_setPkg : (s.setPkg p x).pools = s.pools := rfl
@[simp] theorem groupCalls_setPkg : (s.setPkg p x).groupCalls = s.groupCalls := rfl
@[simp] theorem groups_setPkg : (s.setPkg p x).groups = s.groups := rfl
@[simp] theorem shootdowns_setPkg : (s.setPkg p x).shootdowns = s.shootdowns := rfl
@[simp] theorem migrations_setPkg : (s.setPkg p x).migrations = s.migrations := rfl
@[simp] theorem images_setPkg : (s.setPkg p x).images = s.images := rfl
@[simp] theorem lost_setPkg : (s.setPkg p x).lost = s.lost := rfl
@[simp] theorem reports_setPkg : (s.setPkg p x).reports = s.reports := rfl
@[simp] theorem mcheck_setPkg : (s.setPkg p x).mcheck = s.mcheck := rfl
@[simp] theorem unacked_setPkg : (s.setPkg p x).unacked = s.unacked := rfl
end

section
variable (s : State) (p : Nat) (f : Package → Package)
theorem pkg_modPkg (p' : Nat) : (s.modPkg p f).pkg p' = if p' = p then f (s.pkg p) else s.pkg p' := by
  simp only [State.modPkg, State.pkg, State.setPkg, Map.getD_set]
@[simp] theorem pkg_modPkg_self : (s.modPkg p f).pkg p = f (s.pkg p) := by simp [pkg_modPkg]
@[simp] theorem thread_modPkg (t' : ThreadId) : (s.modPkg p f).thread t' = s.thread t' := rfl
@[simp] theorem wave_modPkg (w' : WaveId) : (s.modPkg p f).wave w' = s.wave w' := rfl
@[simp] theorem team_modPkg (n' : Nat) : (s.modPkg p f).team n' = s.team n' := rfl
@[simp] theorem grid_modPkg (n' : Nat) : (s.modPkg p f).grid n' = s.grid n' := rfl
@[simp] theorem context_modPkg (k' : Nat) : (s.modPkg p f).context k' = s.context k' := rfl
@[simp] theorem core_modPkg (c' : CoreId) : (s.modPkg p f).core c' = s.core c' := rfl
@[simp] theorem die_modPkg (p' : Nat) (d' : Nat) : (s.modPkg p f).die p' d' = s.die p' d' := rfl
@[simp] theorem host_modPkg (c' : CoreId) : (s.modPkg p f).host c' = s.host c' := rfl
@[simp] theorem op_modPkg (n' : Nat) : (s.modPkg p f).op n' = s.op n' := rfl
@[simp] theorem focus_modPkg : (s.modPkg p f).focus = s.focus := rfl
@[simp] theorem agenda_modPkg : (s.modPkg p f).agenda = s.agenda := rfl
@[simp] theorem free_modPkg : (s.modPkg p f).free = s.free := rfl
@[simp] theorem nextId_modPkg : (s.modPkg p f).nextId = s.nextId := rfl
@[simp] theorem trace_modPkg : (s.modPkg p f).trace = s.trace := rfl
@[simp] theorem nextEv_modPkg : (s.modPkg p f).nextEv = s.nextEv := rfl
@[simp] theorem deps_modPkg : (s.modPkg p f).deps = s.deps := rfl
@[simp] theorem tokens_modPkg : (s.modPkg p f).tokens = s.tokens := rfl
@[simp] theorem wordEv_modPkg : (s.modPkg p f).wordEv = s.wordEv := rfl
@[simp] theorem mem_modPkg : (s.modPkg p f).mem = s.mem := rfl
@[simp] theorem poison_modPkg : (s.modPkg p f).poison = s.poison := rfl
@[simp] theorem threads_modPkg : (s.modPkg p f).threads = s.threads := rfl
@[simp] theorem waves_modPkg : (s.modPkg p f).waves = s.waves := rfl
@[simp] theorem teams_modPkg : (s.modPkg p f).teams = s.teams := rfl
@[simp] theorem grids_modPkg : (s.modPkg p f).grids = s.grids := rfl
@[simp] theorem contexts_modPkg : (s.modPkg p f).contexts = s.contexts := rfl
@[simp] theorem cores_modPkg : (s.modPkg p f).cores = s.cores := rfl
@[simp] theorem dies_modPkg : (s.modPkg p f).dies = s.dies := rfl
@[simp] theorem hosts_modPkg : (s.modPkg p f).hosts = s.hosts := rfl
@[simp] theorem ops_modPkg : (s.modPkg p f).ops = s.ops := rfl
@[simp] theorem net_modPkg : (s.modPkg p f).net = s.net := rfl
@[simp] theorem packets_modPkg : (s.modPkg p f).packets = s.packets := rfl
@[simp] theorem queues_modPkg : (s.modPkg p f).queues = s.queues := rfl
@[simp] theorem pools_modPkg : (s.modPkg p f).pools = s.pools := rfl
@[simp] theorem groupCalls_modPkg : (s.modPkg p f).groupCalls = s.groupCalls := rfl
@[simp] theorem groups_modPkg : (s.modPkg p f).groups = s.groups := rfl
@[simp] theorem shootdowns_modPkg : (s.modPkg p f).shootdowns = s.shootdowns := rfl
@[simp] theorem migrations_modPkg : (s.modPkg p f).migrations = s.migrations := rfl
@[simp] theorem images_modPkg : (s.modPkg p f).images = s.images := rfl
@[simp] theorem lost_modPkg : (s.modPkg p f).lost = s.lost := rfl
@[simp] theorem reports_modPkg : (s.modPkg p f).reports = s.reports := rfl
@[simp] theorem mcheck_modPkg : (s.modPkg p f).mcheck = s.mcheck := rfl
@[simp] theorem unacked_modPkg : (s.modPkg p f).unacked = s.unacked := rfl
end

section
variable (s : State) (c : CoreId) (x : HostRegs)
theorem host_setHost (c' : CoreId) : (s.setHost c x).host c' = if c' = c then x else s.host c' := by
  simp only [State.setHost, State.host, Map.getD_set]
@[simp] theorem host_setHost_self : (s.setHost c x).host c = x := by simp [host_setHost]
@[simp] theorem thread_setHost (t' : ThreadId) : (s.setHost c x).thread t' = s.thread t' := rfl
@[simp] theorem wave_setHost (w' : WaveId) : (s.setHost c x).wave w' = s.wave w' := rfl
@[simp] theorem team_setHost (n' : Nat) : (s.setHost c x).team n' = s.team n' := rfl
@[simp] theorem grid_setHost (n' : Nat) : (s.setHost c x).grid n' = s.grid n' := rfl
@[simp] theorem context_setHost (k' : Nat) : (s.setHost c x).context k' = s.context k' := rfl
@[simp] theorem core_setHost (c' : CoreId) : (s.setHost c x).core c' = s.core c' := rfl
@[simp] theorem die_setHost (p' : Nat) (d' : Nat) : (s.setHost c x).die p' d' = s.die p' d' := rfl
@[simp] theorem pkg_setHost (p' : Nat) : (s.setHost c x).pkg p' = s.pkg p' := rfl
@[simp] theorem op_setHost (n' : Nat) : (s.setHost c x).op n' = s.op n' := rfl
@[simp] theorem focus_setHost : (s.setHost c x).focus = s.focus := rfl
@[simp] theorem agenda_setHost : (s.setHost c x).agenda = s.agenda := rfl
@[simp] theorem free_setHost : (s.setHost c x).free = s.free := rfl
@[simp] theorem nextId_setHost : (s.setHost c x).nextId = s.nextId := rfl
@[simp] theorem trace_setHost : (s.setHost c x).trace = s.trace := rfl
@[simp] theorem nextEv_setHost : (s.setHost c x).nextEv = s.nextEv := rfl
@[simp] theorem deps_setHost : (s.setHost c x).deps = s.deps := rfl
@[simp] theorem tokens_setHost : (s.setHost c x).tokens = s.tokens := rfl
@[simp] theorem wordEv_setHost : (s.setHost c x).wordEv = s.wordEv := rfl
@[simp] theorem mem_setHost : (s.setHost c x).mem = s.mem := rfl
@[simp] theorem poison_setHost : (s.setHost c x).poison = s.poison := rfl
@[simp] theorem threads_setHost : (s.setHost c x).threads = s.threads := rfl
@[simp] theorem waves_setHost : (s.setHost c x).waves = s.waves := rfl
@[simp] theorem teams_setHost : (s.setHost c x).teams = s.teams := rfl
@[simp] theorem grids_setHost : (s.setHost c x).grids = s.grids := rfl
@[simp] theorem contexts_setHost : (s.setHost c x).contexts = s.contexts := rfl
@[simp] theorem cores_setHost : (s.setHost c x).cores = s.cores := rfl
@[simp] theorem dies_setHost : (s.setHost c x).dies = s.dies := rfl
@[simp] theorem pkgs_setHost : (s.setHost c x).pkgs = s.pkgs := rfl
@[simp] theorem ops_setHost : (s.setHost c x).ops = s.ops := rfl
@[simp] theorem net_setHost : (s.setHost c x).net = s.net := rfl
@[simp] theorem packets_setHost : (s.setHost c x).packets = s.packets := rfl
@[simp] theorem queues_setHost : (s.setHost c x).queues = s.queues := rfl
@[simp] theorem pools_setHost : (s.setHost c x).pools = s.pools := rfl
@[simp] theorem groupCalls_setHost : (s.setHost c x).groupCalls = s.groupCalls := rfl
@[simp] theorem groups_setHost : (s.setHost c x).groups = s.groups := rfl
@[simp] theorem shootdowns_setHost : (s.setHost c x).shootdowns = s.shootdowns := rfl
@[simp] theorem migrations_setHost : (s.setHost c x).migrations = s.migrations := rfl
@[simp] theorem images_setHost : (s.setHost c x).images = s.images := rfl
@[simp] theorem lost_setHost : (s.setHost c x).lost = s.lost := rfl
@[simp] theorem reports_setHost : (s.setHost c x).reports = s.reports := rfl
@[simp] theorem mcheck_setHost : (s.setHost c x).mcheck = s.mcheck := rfl
@[simp] theorem unacked_setHost : (s.setHost c x).unacked = s.unacked := rfl
end

section
variable (s : State) (c : CoreId) (f : HostRegs → HostRegs)
theorem host_modHost (c' : CoreId) : (s.modHost c f).host c' = if c' = c then f (s.host c) else s.host c' := by
  simp only [State.modHost, State.host, State.setHost, Map.getD_set]
@[simp] theorem host_modHost_self : (s.modHost c f).host c = f (s.host c) := by simp [host_modHost]
@[simp] theorem thread_modHost (t' : ThreadId) : (s.modHost c f).thread t' = s.thread t' := rfl
@[simp] theorem wave_modHost (w' : WaveId) : (s.modHost c f).wave w' = s.wave w' := rfl
@[simp] theorem team_modHost (n' : Nat) : (s.modHost c f).team n' = s.team n' := rfl
@[simp] theorem grid_modHost (n' : Nat) : (s.modHost c f).grid n' = s.grid n' := rfl
@[simp] theorem context_modHost (k' : Nat) : (s.modHost c f).context k' = s.context k' := rfl
@[simp] theorem core_modHost (c' : CoreId) : (s.modHost c f).core c' = s.core c' := rfl
@[simp] theorem die_modHost (p' : Nat) (d' : Nat) : (s.modHost c f).die p' d' = s.die p' d' := rfl
@[simp] theorem pkg_modHost (p' : Nat) : (s.modHost c f).pkg p' = s.pkg p' := rfl
@[simp] theorem op_modHost (n' : Nat) : (s.modHost c f).op n' = s.op n' := rfl
@[simp] theorem focus_modHost : (s.modHost c f).focus = s.focus := rfl
@[simp] theorem agenda_modHost : (s.modHost c f).agenda = s.agenda := rfl
@[simp] theorem free_modHost : (s.modHost c f).free = s.free := rfl
@[simp] theorem nextId_modHost : (s.modHost c f).nextId = s.nextId := rfl
@[simp] theorem trace_modHost : (s.modHost c f).trace = s.trace := rfl
@[simp] theorem nextEv_modHost : (s.modHost c f).nextEv = s.nextEv := rfl
@[simp] theorem deps_modHost : (s.modHost c f).deps = s.deps := rfl
@[simp] theorem tokens_modHost : (s.modHost c f).tokens = s.tokens := rfl
@[simp] theorem wordEv_modHost : (s.modHost c f).wordEv = s.wordEv := rfl
@[simp] theorem mem_modHost : (s.modHost c f).mem = s.mem := rfl
@[simp] theorem poison_modHost : (s.modHost c f).poison = s.poison := rfl
@[simp] theorem threads_modHost : (s.modHost c f).threads = s.threads := rfl
@[simp] theorem waves_modHost : (s.modHost c f).waves = s.waves := rfl
@[simp] theorem teams_modHost : (s.modHost c f).teams = s.teams := rfl
@[simp] theorem grids_modHost : (s.modHost c f).grids = s.grids := rfl
@[simp] theorem contexts_modHost : (s.modHost c f).contexts = s.contexts := rfl
@[simp] theorem cores_modHost : (s.modHost c f).cores = s.cores := rfl
@[simp] theorem dies_modHost : (s.modHost c f).dies = s.dies := rfl
@[simp] theorem pkgs_modHost : (s.modHost c f).pkgs = s.pkgs := rfl
@[simp] theorem ops_modHost : (s.modHost c f).ops = s.ops := rfl
@[simp] theorem net_modHost : (s.modHost c f).net = s.net := rfl
@[simp] theorem packets_modHost : (s.modHost c f).packets = s.packets := rfl
@[simp] theorem queues_modHost : (s.modHost c f).queues = s.queues := rfl
@[simp] theorem pools_modHost : (s.modHost c f).pools = s.pools := rfl
@[simp] theorem groupCalls_modHost : (s.modHost c f).groupCalls = s.groupCalls := rfl
@[simp] theorem groups_modHost : (s.modHost c f).groups = s.groups := rfl
@[simp] theorem shootdowns_modHost : (s.modHost c f).shootdowns = s.shootdowns := rfl
@[simp] theorem migrations_modHost : (s.modHost c f).migrations = s.migrations := rfl
@[simp] theorem images_modHost : (s.modHost c f).images = s.images := rfl
@[simp] theorem lost_modHost : (s.modHost c f).lost = s.lost := rfl
@[simp] theorem reports_modHost : (s.modHost c f).reports = s.reports := rfl
@[simp] theorem mcheck_modHost : (s.modHost c f).mcheck = s.mcheck := rfl
@[simp] theorem unacked_modHost : (s.modHost c f).unacked = s.unacked := rfl
end

section
variable (s : State) (n : Nat) (x : Op)
theorem op_setOp (n' : Nat) : (s.setOp n x).op n' = if n' = n then some { x with num := n } else s.op n' := by unfold State.setOp State.op; exact Map.find_set _ _ _ _
@[simp] theorem op_setOp_self : (s.setOp n x).op n = some { x with num := n } := by simp [op_setOp]
@[simp] theorem thread_setOp (t' : ThreadId) : (s.setOp n x).thread t' = s.thread t' := rfl
@[simp] theorem wave_setOp (w' : WaveId) : (s.setOp n x).wave w' = s.wave w' := rfl
@[simp] theorem team_setOp (n' : Nat) : (s.setOp n x).team n' = s.team n' := rfl
@[simp] theorem grid_setOp (n' : Nat) : (s.setOp n x).grid n' = s.grid n' := rfl
@[simp] theorem context_setOp (k' : Nat) : (s.setOp n x).context k' = s.context k' := rfl
@[simp] theorem core_setOp (c' : CoreId) : (s.setOp n x).core c' = s.core c' := rfl
@[simp] theorem die_setOp (p' : Nat) (d' : Nat) : (s.setOp n x).die p' d' = s.die p' d' := rfl
@[simp] theorem pkg_setOp (p' : Nat) : (s.setOp n x).pkg p' = s.pkg p' := rfl
@[simp] theorem host_setOp (c' : CoreId) : (s.setOp n x).host c' = s.host c' := rfl
@[simp] theorem focus_setOp : (s.setOp n x).focus = s.focus := rfl
@[simp] theorem agenda_setOp : (s.setOp n x).agenda = s.agenda := rfl
@[simp] theorem free_setOp : (s.setOp n x).free = s.free := rfl
@[simp] theorem nextId_setOp : (s.setOp n x).nextId = s.nextId := rfl
@[simp] theorem trace_setOp : (s.setOp n x).trace = s.trace := rfl
@[simp] theorem nextEv_setOp : (s.setOp n x).nextEv = s.nextEv := rfl
@[simp] theorem deps_setOp : (s.setOp n x).deps = s.deps := rfl
@[simp] theorem tokens_setOp : (s.setOp n x).tokens = s.tokens := rfl
@[simp] theorem wordEv_setOp : (s.setOp n x).wordEv = s.wordEv := rfl
@[simp] theorem mem_setOp : (s.setOp n x).mem = s.mem := rfl
@[simp] theorem poison_setOp : (s.setOp n x).poison = s.poison := rfl
@[simp] theorem threads_setOp : (s.setOp n x).threads = s.threads := rfl
@[simp] theorem waves_setOp : (s.setOp n x).waves = s.waves := rfl
@[simp] theorem teams_setOp : (s.setOp n x).teams = s.teams := rfl
@[simp] theorem grids_setOp : (s.setOp n x).grids = s.grids := rfl
@[simp] theorem contexts_setOp : (s.setOp n x).contexts = s.contexts := rfl
@[simp] theorem cores_setOp : (s.setOp n x).cores = s.cores := rfl
@[simp] theorem dies_setOp : (s.setOp n x).dies = s.dies := rfl
@[simp] theorem pkgs_setOp : (s.setOp n x).pkgs = s.pkgs := rfl
@[simp] theorem hosts_setOp : (s.setOp n x).hosts = s.hosts := rfl
@[simp] theorem net_setOp : (s.setOp n x).net = s.net := rfl
@[simp] theorem packets_setOp : (s.setOp n x).packets = s.packets := rfl
@[simp] theorem queues_setOp : (s.setOp n x).queues = s.queues := rfl
@[simp] theorem pools_setOp : (s.setOp n x).pools = s.pools := rfl
@[simp] theorem groupCalls_setOp : (s.setOp n x).groupCalls = s.groupCalls := rfl
@[simp] theorem groups_setOp : (s.setOp n x).groups = s.groups := rfl
@[simp] theorem shootdowns_setOp : (s.setOp n x).shootdowns = s.shootdowns := rfl
@[simp] theorem migrations_setOp : (s.setOp n x).migrations = s.migrations := rfl
@[simp] theorem images_setOp : (s.setOp n x).images = s.images := rfl
@[simp] theorem lost_setOp : (s.setOp n x).lost = s.lost := rfl
@[simp] theorem reports_setOp : (s.setOp n x).reports = s.reports := rfl
@[simp] theorem mcheck_setOp : (s.setOp n x).mcheck = s.mcheck := rfl
@[simp] theorem unacked_setOp : (s.setOp n x).unacked = s.unacked := rfl
end

end Sys2Proof.Machine.State
end

