-- ==== Sys2Proof/Laws/Issue.lean ====
section
/-! SUPPORT. What the issue of a word does around its effect. -/

namespace Sys2Proof.Machine
namespace State

theorem foldl_const {α β : Type} (f : β → α → β) (b : β) (l : List α) (h : ∀ a ∈ l, f b a = b) : l.foldl f b = b := by
  induction l with
  | nil => rfl
  | cons a l ih =>
    rw [List.foldl_cons, h a List.mem_cons_self]
    exact ih fun x hx => h x (List.mem_cons_of_mem _ hx)

/-- With nothing due, no result arrives. -/
theorem settleDue_none {s : State} {t : ThreadId} {n : Nat} (h : ∀ p ∈ (s.thread t).pend, n < p.due) : s.settleDue t n = s := by
  have e : (s.thread t).pend.filter (fun p => decide (p.due ≤ n)) = [] := by
    rw [List.filter_eq_nil_iff]; intro p hp; have := h p hp; simp; omega
  unfold settleDue settleThat
  simp only [e, if_true]

/-- With nothing due and nothing touched, no result arrives before a word. -/
theorem arriveFor_none {s : State} {i : Instr} {n : Nat} {t : ThreadId} (h : ∀ p ∈ (s.thread t).pend, n < p.due)
    (ht : t ∈ s.group → ∀ p ∈ (s.thread t).pend, touches (s.thread t) i p = false) : s.arriveFor i n t = s := by
  have e : (s.thread t).pend.any (s.undecided i t) = false := by
    rw [List.any_eq_false]; intro p hp
    unfold undecided
    by_cases hg : t ∈ s.group
    · simp [ht hg p hp]
    · simp [hg]
  unfold arriveFor
  simp only [e, Bool.false_eq_true, if_false]
  exact settleDue_none h

theorem tokenWaits_ready {s : State} {i : Instr} (h : ∀ t ∈ s.group, s.pendingFor t i = []) : s.tokenWaits s.group i = [] := by
  unfold tokenWaits
  split
  · split
    · rfl
    · next t hp =>
      have ht : t ∈ s.group := by
        unfold performer at hp
        exact (List.mem_filter.mp (List.mem_of_getLast? hp)).1
      simp [h t ht]
  · rw [List.filterMap_eq_nil_iff]; intro t ht; simp [h t ht]

/-- A word that may issue at once waits for nothing. -/
theorem prepare_ready {s : State} {i : Instr} (h : s.Ready i) : s.prepare i = (s, true) := by
  obtain ⟨hne, -, hall, hdue⟩ := h
  have late : (s.group.map fun t => (t, s.waitUntil i t)).filter (fun x => decide (s.coreTime s.focus < x.2)) = [] := by
    rw [List.filter_eq_nil_iff]
    intro x hx
    obtain ⟨t, ht, rfl⟩ := List.mem_map.mp hx
    have := (hall t ht).2.2.1.2.2.2.1
    simp only [decide_eq_true_eq]; omega
  have quick : s.quickDue i s.group = 0 := by
    unfold quickDue
    apply foldl_const; intro t ht
    apply foldl_const; intro p hp
    simp [(hall t ht).2.2.1.2.2.2.2 p hp]
  have arrive : (s.awaiting s.focus).foldl (fun s' t => s'.arriveFor i (s.coreTime s.focus) t) s = s := by
    apply foldl_const; intro t ht
    exact arriveFor_none (hdue t ht) fun hg => (hall t hg).2.2.1.2.2.2.2
  have toks : s.tokenWaits s.group i = [] := tokenWaits_ready fun t ht => (hall t ht).2.2.1.2.1
  have fills : s.fillFor i = (s, true) := by
    unfold fillFor
    refine if_pos ?_
    rw [List.filterMap_eq_nil_iff]; intro t ht; rw [(hall t ht).2.2.1.2.2.1]
  have far : ¬ s.coreTime s.focus > s.coreTime s.focus + 16 := by omega
  unfold prepare
  simp only [late, List.foldl_nil, quick, Nat.max_zero, Nat.le_refl, if_true, arrive, far, decide_false, Bool.false_and, Bool.false_eq_true, if_false]
  rw [foldl_const (b := s) (l := s.group)]
  · simp [toks, fills, hne]
  · intro t ht; rw [(hall t ht).2.2.1.1]

/-- What a word leaves behind once it has had its effect: dependencies, uniform form, write-backs, and the end of the run. -/
abbrev wound (s : State) (i : Instr) (ends : Bool) (x : State) : State :=
  let c := (s.beginWord i s.group).focus
  (((x.trackDeps (s.begun i) i s.group).noteUniform i s.group (s.performers i)).leaveHolds c i s.group (s.performers i) (((s.beginWord i s.group).core c).readyAt)).endWord
    s.group (s.wordPc + BitVec.ofNat 64 i.size) ends

/-- A word that issues at once: its cycles pass and PCs move on, it has its effect, and the run goes on or ends. -/
theorem issue_ready {s : State} {i : Instr} (h : s.Ready i) (body : State → List ThreadId → Dword → State) (ends : Bool) :
    s.issue i body ends = s.wound i ends (body (s.begun i) s.group s.wordPc) := by
  unfold issue
  rw [prepare_ready h]
  rfl

end State
end Sys2Proof.Machine
end

