-- ==== Sys2Proof/Laws/Frame.lean ====
section
/-! SUPPORT. What the steps around a word's effect leave as it was. -/

namespace Sys2Proof.Machine
namespace State

theorem SameRegs.refl (s : State) : SameRegs s s := ⟨fun _ => rfl, fun _ => rfl, fun _ => rfl, fun _ => rfl, fun _ => rfl, fun _ => rfl⟩
theorem SameRegs.trans {a b c : State} (h : SameRegs a b) (k : SameRegs b c) : SameRegs a c :=
  ⟨fun u => (k.v u).trans (h.v u), fun u => (k.poisoned u).trans (h.poisoned u), fun u => (k.preds u).trans (h.preds u),
    fun u => (k.flags u).trans (h.flags u), fun u => (k.pc u).trans (h.pc u), fun w => (k.s w).trans (h.s w)⟩

theorem Kept.focus {g : List ThreadId} {s t : State} (h : Kept g s t) : t.focus = s.focus := by
  have := congrArg State.focus h.rest
  exact this
theorem Kept.refl (g : List ThreadId) (s : State) : Kept g s s :=
  ⟨rfl, fun _ _ => rfl, fun _ => rfl, fun _ => rfl, fun _ => rfl, fun _ _ => rfl⟩
theorem Kept.trans {g : List ThreadId} {a b c : State} (h : Kept g a b) (k : Kept g b c) : Kept g a c where
  rest := (congrArg (fun x : State => { x with threads := a.threads, waves := a.waves, cores := a.cores, dies := a.dies }) k.rest).trans h.rest
  away u hu := (k.away u hu).trans (h.away u hu)
  threads u := (k.threads u).trans (h.threads u)
  waves u := (k.waves u).trans (h.waves u)
  cores u := (k.cores u).trans (h.cores u)
  dies p d := (k.dies p d).trans (h.dies p d)

theorem kept_modThread {g : List ThreadId} (s : State) {u : ThreadId} {f : Thread → Thread} (hu : u ∈ g)
    (hf : (f (s.thread u)).others = (s.thread u).others) : Kept g s (s.modThread u f) where
  rest := rfl
  away x hx := by rw [thread_modThread, if_neg]; rintro rfl; exact hx hu
  threads x := by rw [thread_modThread]; split <;> simp_all
  waves _ := rfl
  cores _ := rfl
  dies _ _ := rfl

theorem kept_modWave {g : List ThreadId} (s : State) {w : WaveId} {f : Wave → Wave}
    (hf : (f (s.wave w)).others = (s.wave w).others) : Kept g s (s.modWave w f) where
  rest := rfl
  away _ _ := rfl
  threads _ := rfl
  waves x := by rw [wave_modWave]; split <;> simp_all
  cores _ := rfl
  dies _ _ := rfl

theorem kept_modCore {g : List ThreadId} (s : State) {c : CoreId} {f : CoreSt → CoreSt}
    (hf : (f (s.core c)).others = (s.core c).others) : Kept g s (s.modCore c f) where
  rest := rfl
  away _ _ := rfl
  threads _ := rfl
  waves _ := rfl
  cores x := by rw [core_modCore]; split <;> simp_all
  dies _ _ := rfl

theorem kept_modDie {g : List ThreadId} (s : State) {p d : Nat} {f : Die → Die}
    (hf : (f (s.die p d)).others = (s.die p d).others) : Kept g s (s.modDie p d f) where
  rest := rfl
  away _ _ := rfl
  threads _ := rfl
  waves _ := rfl
  cores _ := rfl
  dies q e := by rw [die_modDie]; split <;> simp_all

theorem kept_foldl {g : List ThreadId} {α : Type} {F : State → α → State} (l : List α) (s : State)
    (h : ∀ s, ∀ a ∈ l, Kept g s (F s a)) : Kept g s (l.foldl F s) := by
  induction l generalizing s with
  | nil => exact Kept.refl g s
  | cons a l ih =>
    rw [List.foldl_cons]
    exact (h s a List.mem_cons_self).trans (ih _ fun s x hx => h s x (List.mem_cons_of_mem _ hx))

theorem same_foldl {α : Type} {F : State → α → State} (l : List α) (s : State)
    (h : ∀ s, ∀ a ∈ l, SameRegs s (F s a)) : SameRegs s (l.foldl F s) := by
  induction l generalizing s with
  | nil => exact SameRegs.refl s
  | cons a l ih =>
    rw [List.foldl_cons]
    exact (h s a List.mem_cons_self).trans (ih _ fun s x hx => h s x (List.mem_cons_of_mem _ hx))

theorem same_modThread (s : State) {u : ThreadId} {f : Thread → Thread}
    (hf : ∀ th : Thread, (f th).v = th.v ∧ (f th).poisoned = th.poisoned ∧ (f th).preds = th.preds ∧ (f th).flags = th.flags ∧ (f th).pc = th.pc) :
    SameRegs s (s.modThread u f) where
  v x := by rw [thread_modThread]; split <;> simp_all
  poisoned x := by rw [thread_modThread]; split <;> simp_all
  preds x := by rw [thread_modThread]; split <;> simp_all
  flags x := by rw [thread_modThread]; split <;> simp_all
  pc x := by rw [thread_modThread]; split <;> simp_all
  s _ := rfl

theorem same_modWave (s : State) {w : WaveId} {f : Wave → Wave} (hf : ∀ x : Wave, (f x).s = x.s) : SameRegs s (s.modWave w f) :=
  ⟨fun _ => rfl, fun _ => rfl, fun _ => rfl, fun _ => rfl, fun _ => rfl, fun x => by rw [wave_modWave]; split <;> simp_all⟩

theorem same_modCore (s : State) (c : CoreId) (f : CoreSt → CoreSt) : SameRegs s (s.modCore c f) :=
  ⟨fun _ => rfl, fun _ => rfl, fun _ => rfl, fun _ => rfl, fun _ => rfl, fun _ => rfl⟩
theorem same_modDie (s : State) (p d : Nat) (f : Die → Die) : SameRegs s (s.modDie p d f) :=
  ⟨fun _ => rfl, fun _ => rfl, fun _ => rfl, fun _ => rfl, fun _ => rfl, fun _ => rfl⟩

/-- Threads changed one after another, each once. -/
theorem thread_foldl_modThread (l : List ThreadId) (f : ThreadId → Thread → Thread) (s : State) (u : ThreadId) (hn : l.Nodup) :
    (l.foldl (fun s t => s.modThread t (f t)) s).thread u = if u ∈ l then f u (s.thread u) else s.thread u := by
  induction l generalizing s with
  | nil => simp
  | cons a l ih =>
    have hna := List.nodup_cons.mp hn
    rw [List.foldl_cons, ih _ hna.2, thread_modThread]
    by_cases h : u = a
    · subst h; simp [hna.1]
    · simp [h]

/-- A fold keeps what each of its steps keeps. -/
theorem foldl_keep {α β : Type} {F : State → α → State} (o : State → β) (l : List α) (s : State) (h : ∀ s, ∀ a ∈ l, o (F s a) = o s) :
    o (l.foldl F s) = o s := by
  induction l generalizing s with
  | nil => rfl
  | cons a l ih => rw [List.foldl_cons, ih _ fun s x hx => h s x (List.mem_cons_of_mem _ hx), h s a List.mem_cons_self]

-- the steps around a word's effect

/-- A thread when a word of its group begins. -/
def beginThread (s : State) (i : Instr) (th : Thread) : Thread :=
  { th with pc := th.pc + BitVec.ofNat 64 i.size, last := th.pc, issued := th.issued + 1, waitAcc := 0,
            waitSince := s.coreTime s.focus + s.issueCycles s.focus s.group i (s.coreTime s.focus), urgent := none,
            pend := th.pend.map fun p => { p with la := p.la - 1 } }

@[simp] theorem thread_holdPipeC (s : State) (c : CoreId) (i : Instr) (n : Nat) (u : ThreadId) : (s.holdPipeC c i n).thread u = s.thread u := by
  unfold holdPipeC; split <;> rfl
@[simp] theorem wave_holdPipeC (s : State) (c : CoreId) (i : Instr) (n : Nat) (w : WaveId) : (s.holdPipeC c i n).wave w = s.wave w := by
  unfold holdPipeC; split <;> rfl
@[simp] theorem focus_holdPipeC (s : State) (c : CoreId) (i : Instr) (n : Nat) : (s.holdPipeC c i n).focus = s.focus := by
  unfold holdPipeC; split <;> rfl
theorem group_holdPipeC (s : State) (c : CoreId) (i : Instr) (n : Nat) (d : CoreId) : ((s.holdPipeC c i n).core d).group = (s.core d).group := by
  unfold holdPipeC; split
  · rw [core_modCore]; split <;> simp_all
  · rfl

theorem thread_beginWord (s : State) (i : Instr) (hn : s.group.Nodup) (u : ThreadId) :
    (s.beginWord i s.group).thread u = if u ∈ s.group then s.beginThread i (s.thread u) else s.thread u := by
  unfold beginWord
  rw [thread_foldl_modThread _ _ _ _ hn]
  simp only [thread_modCore, thread_holdPipeC, advance, thread_modDie]
  rfl

theorem wave_beginWord (s : State) (i : Instr) (g : List ThreadId) (w : WaveId) : (s.beginWord i g).wave w = s.wave w := by
  unfold beginWord
  refine Eq.trans (foldl_keep (fun s : State => s.wave w) _ _ ?_) ?_
  · intro _ _ _; rfl
  simp [advance]

theorem kept_beginWord (s : State) (i : Instr) (g : List ThreadId) : Kept g s (s.beginWord i g) := by
  unfold beginWord
  refine Kept.trans ?_ (kept_foldl _ _ fun s t ht => kept_modThread s ht rfl)
  refine Kept.trans ?_ (kept_modCore _ rfl)
  unfold holdPipeC advance
  split
  · exact Kept.trans (kept_modDie s rfl) (kept_modCore _ rfl)
  · exact kept_modDie s rfl

/-- What a word's begin keeps of the cores beside `Kept`: the group of the run. -/
theorem group_beginWord (s : State) (i : Instr) (g : List ThreadId) (c : CoreId) : ((s.beginWord i g).core c).group = (s.core c).group := by
  unfold beginWord
  refine Eq.trans (foldl_keep (fun s : State => (s.core c).group) _ _ ?_) ?_
  · intro _ _ _; rfl
  rw [core_modCore]
  split <;> simp_all [group_holdPipeC, advance]

@[simp] theorem focus_beginWord (s : State) (i : Instr) (g : List ThreadId) : (s.beginWord i g).focus = s.focus := by
  unfold beginWord
  refine Eq.trans (foldl_keep State.focus _ _ ?_) ?_
  · intro _ _ _; rfl
  simp [advance]

theorem loaded_beginWord (s : State) (i : Instr) (g : List ThreadId) (c : CoreId) : ((s.beginWord i g).core c).loaded = (s.core c).loaded := by
  have := congrArg CoreSt.loaded ((kept_beginWord s i g).cores c)
  simpa [CoreSt.others] using this

-- what records the history, and no more

theorem present_thread {s t : State} (h : t.present = s.present) (u : ThreadId) : t.thread u = s.thread u := by
  have := congrArg State.threads h
  simp only [thread]; exact congrArg (Map.getD · u _) this
theorem present_wave {s t : State} (h : t.present = s.present) (w : WaveId) : t.wave w = s.wave w := by
  have := congrArg State.waves h
  simp only [wave]; exact congrArg (Map.getD · w _) this
theorem present_core {s t : State} (h : t.present = s.present) (c : CoreId) : t.core c = s.core c := by
  have := congrArg State.cores h
  simp only [core]; exact congrArg (Map.getD · c _) this
theorem present_die {s t : State} (h : t.present = s.present) (p d : Nat) : t.die p d = s.die p d := by
  have := congrArg State.dies h
  simp only [die]; exact congrArg (Map.getD · (p, d) _) this
theorem kept_present {g : List ThreadId} {s t : State} (h : t.present = s.present) : Kept g s t where
  rest := by rw [h]; rfl
  away u _ := present_thread h u
  threads u := by rw [present_thread h]
  waves w := by rw [present_wave h]
  cores c := by rw [present_core h]
  dies p d := by rw [present_die h]
theorem same_present {s t : State} (h : t.present = s.present) : SameRegs s t :=
  ⟨fun u => by rw [present_thread h], fun u => by rw [present_thread h], fun u => by rw [present_thread h], fun u => by rw [present_thread h],
    fun u => by rw [present_thread h], fun w => by rw [present_wave h]⟩
theorem present_foldl {α : Type} {F : State → α → State} (l : List α) (s : State) (h : ∀ s, ∀ a ∈ l, (F s a).present = s.present) :
    (l.foldl F s).present = s.present := foldl_keep State.present l s h

theorem present_record (s : State) (e : Ev) : (s.record e).present = s.present := rfl
theorem present_recordPoint (s : State) (e : Ev) : (s.recordPoint e).present = s.present := by
  unfold recordPoint; split <;> rfl
theorem present_readTokens (s : State) (t : ThreadId) (ns : List Nat) : (s.readTokens t ns).present = s.present := by
  unfold readTokens
  split
  · rfl
  · refine present_foldl _ _ fun s n _ => ?_
    split
    · rw [present_recordPoint]; rfl
    · rfl
theorem present_begun (s : State) (i : Instr) : (s.begun i).present = (s.beginWord i s.group).present :=
  present_foldl _ _ fun s t _ => present_readTokens s t _
theorem present_setDeps (s : State) (t : ThreadId) (rs : List DepReg) (ds : List Nat) : (s.setDeps t rs ds).present = s.present := by
  unfold setDeps
  split
  · rfl
  · exact present_foldl _ _ fun _ _ _ => rfl

/-- The dependencies that a word leaves change, beside the history, only those of its results in flight. -/
theorem trackThread_cases (s : State) (i : Instr) (first : Nat) (th : Thread) (t : ThreadId) :
    ∃ x : State, x.present = s.present ∧ (s.trackThread i first th t = x
      ∨ ∃ ds, s.trackThread i first th t = x.modThread t fun th => { th with pend := th.pend.map fun p => if p.issued + 1 = th.issued then { p with deps := p.deps ++ ds } else p }) := by
  unfold trackThread
  simp only
  have h1 (all : List Nat) (f : Ev → Ev) : (if all = [] then s else { s with trace := s.trace.map f }).present = s.present := by split <;> rfl
  split
  · refine ⟨_, ?_, Or.inl rfl⟩
    refine (present_foldl _ _ fun s r _ => present_setDeps _ _ _ _).trans ?_
    split <;> first | exact h1 _ _ | exact (present_setDeps _ _ _ _).trans (h1 _ _)
  · refine ⟨_, ?_, Or.inr ⟨_, rfl⟩⟩
    split <;> first | exact h1 _ _ | exact (present_setDeps _ _ _ _).trans (h1 _ _)
theorem same_trackDeps (s s0 : State) (i : Instr) (g : List ThreadId) : SameRegs s (s.trackDeps s0 i g) := by
  unfold trackDeps
  split
  · exact SameRegs.refl _
  · refine same_foldl _ _ fun s t _ => ?_
    obtain ⟨x, hx, h | ⟨ds, h⟩⟩ := trackThread_cases s i s0.nextEv (s0.thread t) t
    · rw [h]; exact same_present hx
    · rw [h]; exact (same_present hx).trans (same_modThread _ fun _ => ⟨rfl, rfl, rfl, rfl, rfl⟩)
theorem kept_trackDeps (s s0 : State) (i : Instr) (g : List ThreadId) : Kept g s (s.trackDeps s0 i g) := by
  unfold trackDeps
  split
  · exact Kept.refl _ _
  · refine kept_foldl _ _ fun s t ht => ?_
    obtain ⟨x, hx, h | ⟨ds, h⟩⟩ := trackThread_cases s i s0.nextEv (s0.thread t) t
    · rw [h]; exact kept_present hx
    · rw [h]; exact (kept_present hx).trans (kept_modThread _ ht rfl)
theorem core_trackDeps (s s0 : State) (i : Instr) (g : List ThreadId) (c : CoreId) : (s.trackDeps s0 i g).core c = s.core c := by
  unfold trackDeps
  split
  · rfl
  · refine foldl_keep (State.core · c) _ _ fun s t _ => ?_
    obtain ⟨x, hx, h | ⟨ds, h⟩⟩ := trackThread_cases s i s0.nextEv (s0.thread t) t
    · rw [h]; exact present_core hx c
    · rw [h]; exact present_core hx c
theorem focus_trackDeps (s s0 : State) (i : Instr) (g : List ThreadId) : (s.trackDeps s0 i g).focus = s.focus :=
  (kept_trackDeps s s0 i g).focus

-- uniform form

theorem same_noteUniform (s : State) (i : Instr) (g act : List ThreadId) : SameRegs s (s.noteUniform i g act) := by
  unfold noteUniform
  refine same_foldl _ _ fun s w _ => SameRegs.trans ?_ (same_foldl _ _ fun s n _ => same_modWave _ fun _ => rfl)
  simp only
  split
  · split
    · exact same_foldl _ _ fun s n _ => same_modWave _ fun _ => rfl
    · exact SameRegs.refl _
  · split
    · exact same_foldl _ _ fun s t _ => same_modThread _ fun _ => ⟨rfl, rfl, rfl, rfl, rfl⟩
    · exact SameRegs.refl _

/-- A result in flight is marked only in waves all of whose threads performed the word. -/
theorem kept_noteUniform {k : List ThreadId} (s : State) (i : Instr) (g act : List ThreadId) (h : ∀ t ∈ act, t ∈ k) : Kept k s (s.noteUniform i g act) := by
  unfold noteUniform
  refine kept_foldl _ _ fun s w _ => Kept.trans ?_ (kept_foldl _ _ fun s n _ => kept_modWave _ rfl)
  simp only
  split
  · split
    · exact kept_foldl _ _ fun s n _ => kept_modWave _ rfl
    · exact Kept.refl _ _
  · split
    · next hf =>
      refine kept_foldl _ _ fun s t ht => kept_modThread _ (h t ?_) rfl
      simp only [Bool.and_eq_true, List.all_eq_true] at hf
      exact List.contains_iff_mem.mp (hf.1.1 t ht)
    · exact Kept.refl _ _

theorem cores_noteUniform (s : State) (i : Instr) (g act : List ThreadId) : (s.noteUniform i g act).cores = s.cores := by
  unfold noteUniform
  refine foldl_keep State.cores _ _ fun s w _ => Eq.trans (foldl_keep State.cores _ _ fun s n _ => rfl) ?_
  simp only
  split
  · split
    · exact foldl_keep State.cores _ _ fun s n _ => rfl
    · rfl
  · split
    · exact foldl_keep State.cores _ _ fun s t _ => rfl
    · rfl
theorem core_noteUniform (s : State) (i : Instr) (g act : List ThreadId) (c : CoreId) : (s.noteUniform i g act).core c = s.core c := by
  simp only [core, cores_noteUniform]

-- write-backs

theorem same_leaveHolds (s : State) (c : CoreId) (i : Instr) (g act : List ThreadId) (n : Nat) : SameRegs s (s.leaveHolds c i g act n) := by
  unfold leaveHolds
  split
  · exact SameRegs.refl _
  · exact same_modCore _ _ _
theorem kept_leaveHolds {k : List ThreadId} (s : State) (c : CoreId) (i : Instr) (g act : List ThreadId) (n : Nat) : Kept k s (s.leaveHolds c i g act n) := by
  unfold leaveHolds
  split
  · exact Kept.refl _ _
  · exact kept_modCore _ rfl
theorem threads_leaveHolds (s : State) (c : CoreId) (i : Instr) (g act : List ThreadId) (n : Nat) : (s.leaveHolds c i g act n).threads = s.threads := by
  unfold leaveHolds; split <;> rfl
theorem core_leaveHolds (s : State) (c : CoreId) (i : Instr) (g act : List ThreadId) (n : Nat) (d : CoreId) :
    ((s.leaveHolds c i g act n).core d).group = (s.core d).group ∧ ((s.leaveHolds c i g act n).core d).readyAt = (s.core d).readyAt := by
  unfold leaveHolds
  split
  · exact ⟨rfl, rfl⟩
  · unfold holdRows; rw [core_modCore]; split <;> simp_all

theorem same_endRun (s : State) (c : CoreId) : SameRegs s (s.endRun c) := by
  unfold endRun
  refine SameRegs.trans (same_foldl _ _ ?_) (same_modCore _ _ _)
  exact fun s t _ => same_modThread _ fun _ => ⟨rfl, rfl, rfl, rfl, rfl⟩

theorem kept_endRun {g : List ThreadId} (s : State) (c : CoreId) (h : ∀ t ∈ (s.core c).group, t ∈ g) : Kept g s (s.endRun c) := by
  unfold endRun
  refine Kept.trans (kept_foldl _ _ ?_) (kept_modCore _ rfl)
  exact fun s t ht => kept_modThread _ (h t ht) rfl

theorem same_endWord (s : State) (g : List ThreadId) (n : Dword) (e : Bool) : SameRegs s (s.endWord g n e) := by
  unfold endWord
  simp only
  have h := same_foldl (F := fun s t => s.modThread t Thread.tickWindows) g s fun s t _ => same_modThread _ fun _ => ⟨rfl, rfl, rfl, rfl, rfl⟩
  split
  · exact h.trans (same_endRun _ _)
  · exact h

theorem kept_endWord {g : List ThreadId} (s : State) (n : Dword) (e : Bool) (hg : ∀ t ∈ (s.core s.focus).group, t ∈ g) : Kept g s (s.endWord g n e) := by
  unfold endWord
  simp only
  have h := kept_foldl (g := g) (F := fun s t => s.modThread t Thread.tickWindows) g s fun s t ht => kept_modThread _ ht rfl
  split
  · refine h.trans (kept_endRun _ _ ?_)
    rw [foldl_keep (fun s : State => (s.core _).group) _ _ ?_]
    · exact hg
    · intro _ _ _; rfl
  · exact h


theorem readyAt_endWord (s : State) (g : List ThreadId) (n : Dword) (e : Bool) (c : CoreId) : ((s.endWord g n e).core c).readyAt = (s.core c).readyAt := by
  have h1 : ((g.foldl (fun s t => s.modThread t Thread.tickWindows) s).core c).readyAt = (s.core c).readyAt :=
    foldl_keep (fun s : State => (s.core c).readyAt) _ _ fun s x _ => rfl
  unfold endWord
  simp only
  split
  · rw [← h1]
    unfold endRun
    simp only [core_modCore]
    split
    · next e =>
      subst e
      exact foldl_keep (fun s : State => (s.core _).readyAt) _ _ fun s x _ => rfl
    · exact foldl_keep (fun s : State => (s.core _).readyAt) _ _ fun s x _ => rfl
  · exact h1

-- all that a word leaves behind after its effect

theorem same_wound (s : State) (i : Instr) (e : Bool) (x : State) : SameRegs x (s.wound i e x) :=
  (same_trackDeps _ _ _ _).trans ((same_noteUniform _ _ _ _).trans ((same_leaveHolds _ _ _ _ _ _).trans (same_endWord _ _ _ _)))
theorem core_wound (s : State) (i : Instr) (e : Bool) (x : State) (c : CoreId) : ((s.wound i e x).core c).readyAt = (x.core c).readyAt := by
  unfold wound
  rw [readyAt_endWord, (core_leaveHolds _ _ _ _ _ _ _).2, core_noteUniform, core_trackDeps]
theorem kept_wound {s x : State} (i : Instr) (e : Bool) (hg : ∀ t ∈ (x.core x.focus).group, t ∈ s.group) : Kept s.group x (s.wound i e x) := by
  unfold wound
  refine (kept_trackDeps _ _ _ _).trans (Kept.trans (kept_noteUniform _ _ _ _ fun t ht => (List.mem_filter.mp ht).1) (Kept.trans (kept_leaveHolds _ _ _ _ _ _) (kept_endWord _ _ _ ?_)))
  have f (c : CoreId) (n : Nat) (y : State) : (y.leaveHolds c i s.group (s.performers i) n).focus = y.focus :=
    (kept_leaveHolds (k := s.group) y c i s.group (s.performers i) n).focus
  have f2 (y : State) : (y.noteUniform i s.group (s.performers i)).focus = y.focus :=
    (kept_noteUniform (k := s.group) y i s.group (s.performers i) fun t ht => (List.mem_filter.mp ht).1).focus
  rw [(core_leaveHolds _ _ _ _ _ _ _).1, core_noteUniform, core_trackDeps, f, f2, focus_trackDeps]
  exact hg

-- the state in which a word takes its effect

theorem thread_begun (s : State) (i : Instr) (hn : s.group.Nodup) (u : ThreadId) :
    (s.begun i).thread u = if u ∈ s.group then s.beginThread i (s.thread u) else s.thread u := by
  rw [present_thread (present_begun s i)]; exact thread_beginWord s i hn u
theorem wave_begun (s : State) (i : Instr) (w : WaveId) : (s.begun i).wave w = s.wave w := by
  rw [present_wave (present_begun s i)]; exact wave_beginWord s i s.group w
theorem core_begun (s : State) (i : Instr) (c : CoreId) : (s.begun i).core c = (s.beginWord i s.group).core c := present_core (present_begun s i) c
theorem kept_begun (s : State) (i : Instr) : Kept s.group s (s.begun i) := (kept_beginWord s i s.group).trans (kept_present (present_begun s i))
@[simp] theorem focus_begun (s : State) (i : Instr) : (s.begun i).focus = s.focus := (kept_begun s i).focus
theorem group_begun (s : State) (i : Instr) (c : CoreId) : ((s.begun i).core c).group = (s.core c).group := by
  rw [core_begun]; exact group_beginWord s i s.group c
theorem loaded_begun (s : State) (i : Instr) (c : CoreId) : ((s.begun i).core c).loaded = (s.core c).loaded := by
  rw [core_begun]; exact loaded_beginWord s i s.group c

end State
end Sys2Proof.Machine
end

