-- ==== Sys2Proof/Laws/Lane.lean ====
section
/-! SUPPORT. What a word of lanes does: results, flags and frame of every word whose lanes compute from their own operands. -/

namespace Sys2Proof.Machine
namespace State

-- reading operands

/-- What the reads of a thread's operands depend on. -/
structure SameReads (u : ThreadId) (s t : State) : Prop where
  v : (t.thread u).v = (s.thread u).v
  poisoned : (t.thread u).poisoned = (s.thread u).poisoned
  latches : (t.thread u).latches = (s.thread u).latches
  ocache : (t.thread u).ocache = (s.thread u).ocache
  sregs : (t.wave u.wave).s = (s.wave u.wave).s
  chkd : t.chkd u = s.chkd u

theorem readReg_congr {u : ThreadId} {s t : State} (h : SameReads u s t) (x : Src) : t.readReg u x = s.readReg u x := by
  have hv (n : Nat) : (t.thread u).readV (t.chkd u) n = (s.thread u).readV (s.chkd u) n := by
    simp only [Thread.readV, h.v, h.poisoned, h.chkd]
  cases x <;> simp only [readReg, Wave.sreg, h.sregs, hv]
  · simp only [Thread.readO, h.ocache, hv]
  · simp only [Thread.readH, h.latches, hv]

theorem readOp_congr {u : ThreadId} {s t : State} (h : SameReads u s t) (x : Src) (ty : OTy) : t.readOp u x ty = s.readOp u x ty := by
  cases x <;> simp only [readOp, readReg_congr h]

theorem readOps_congr {u : ThreadId} {s t : State} (h : SameReads u s t) (xs : List (SrcD × OTy)) : t.readOps u xs = s.readOps u xs := by
  induction xs with
  | nil => rfl
  | cons a xs ih => obtain ⟨x, ty⟩ := a; simp only [readOps, readOp_congr h, ih]

theorem chkd_congr {u : ThreadId} {s t : State} (hh : t.hosts = s.hosts) (ht : t.teams = s.teams) (hc : t.contexts = s.contexts)
    (hw : (t.wave u.wave).team = (s.wave u.wave).team) (hl : (t.core u.wave.core).loaded = (s.core u.wave.core).loaded) : t.chkd u = s.chkd u := by
  have hk : t.ctxOf u = s.ctxOf u := by simp only [ctxOf, State.host, State.team, hh, ht, hw]
  simp only [chkd, regsOf, hk, hl, State.context, hc]

theorem kept_fields {g : List ThreadId} {s t : State} (h : Kept g s t) : t.hosts = s.hosts ∧ t.teams = s.teams ∧ t.contexts = s.contexts ∧ t.focus = s.focus := by
  have h := h.rest
  have h1 := congrArg State.hosts h
  have h2 := congrArg State.teams h
  have h3 := congrArg State.contexts h
  have h4 := congrArg State.focus h
  exact ⟨h1, h2, h3, h4⟩

theorem reads_begun (s : State) (i : Instr) (hn : s.group.Nodup) (u : ThreadId) : SameReads u s (s.begun i) := by
  have hk := kept_begun s i
  obtain ⟨h1, h2, h3, -⟩ := kept_fields hk
  have hc := chkd_congr (u := u) h1 h2 h3 (by rw [wave_begun]) (loaded_begun s i _)
  constructor <;> first
    | exact hc
    | (rw [wave_begun])
    | (rw [thread_begun s i hn]; split <;> rfl)

-- the lanes of a word

theorem passes_begin (s : State) (i : Instr) (th : Thread) (g : Guard) : (s.beginThread i th).passes g = th.passes g := rfl

theorem passes_begun (s : State) (i : Instr) (hn : s.group.Nodup) (u : ThreadId) (g : Guard) :
    ((s.begun i).thread u).passes g = (s.thread u).passes g := by
  rw [thread_begun s i hn]; split <;> rfl

theorem outcome_begun (s : State) (i : Instr) (hn : s.group.Nodup) (u : ThreadId) (m : Micro) :
    (s.begun i).outcome u m = s.outcome u m := by
  simp only [outcome, passes_begun s i hn, readOps_congr (reads_begun s i hn u)]

/-- A lane whose active operations can read their sources is done, each operation with its outcome. -/
theorem evalLane_done {s : State} {u : ThreadId} {ms : List Micro}
    (h : ∀ m ∈ ms, (s.thread u).passes m.guard = true → (s.readOps u m.srcs).isOk = true) : s.evalLane u ms = .done (ms.map (s.outcome u)) := by
  induction ms with
  | nil => rfl
  | cons m ms ih =>
    have ih := ih fun m hm => h m (List.mem_cons_of_mem _ hm)
    simp only [evalLane, ih, List.map_cons]
    split
    · next hp =>
      have := h m List.mem_cons_self hp
      split
      · next he => simp [he, Except.isOk, Except.toBool] at this
      · next xs he => simp [outcome, hp, he]
    · next hp => simp [outcome, hp]

end State

/-- Two operations of a word write different registers and predicates. -/
abbrev Micro.Apart (a b : Micro) : Prop := (∀ n ∈ a.vdst, n ∉ b.vdst) ∧ ∀ p, a.dst = .pred p → b.dst ≠ .pred p

namespace Thread

-- what the writes of one operation leave in a thread

@[simp] theorem writeV_v (th : Thread) (n : Nat) (x : Word) : (th.writeV n x).v = Map.set th.v n x := rfl
@[simp] theorem writeV_others (th : Thread) (n : Nat) (x : Word) : (th.writeV n x).others = th.others := rfl
@[simp] theorem writeVs_others (th : Thread) (n : Nat) (xs : List Word) : (th.writeVs n xs).others = th.others := by
  induction xs generalizing th n with
  | nil => rfl
  | cons x xs ih => simp only [writeVs]; rw [ih]; rfl
@[simp] theorem depositAll_others (th : Thread) (k : Nat) (b : Option Nat) (w : Nat) (xs : List Word) : (th.depositAll k b w xs).others = th.others := by
  induction xs generalizing th k b with
  | nil => rfl
  | cons x xs ih => simp only [depositAll]; rw [ih]; rfl

/-- The registers, predicates, flags and PC that an update may leave alone. -/
structure Regs (a b : Thread) : Prop where
  v : b.v = a.v
  poisoned : b.poisoned = a.poisoned
  preds : b.preds = a.preds
  flags : b.flags = a.flags
  pc : b.pc = a.pc

theorem depositAll_regs (th : Thread) (k : Nat) (b : Option Nat) (w : Nat) (xs : List Word) : Regs th (th.depositAll k b w xs) := by
  induction xs generalizing th k b with
  | nil => exact ⟨rfl, rfl, rfl, rfl, rfl⟩
  | cons x xs ih => have := ih (th.deposit k x b w) (k + 1) (b.map (· + 1)); exact ⟨this.v, this.poisoned, this.preds, this.flags, this.pc⟩

theorem fillO_regs (th : Thread) (k : Nat) : Regs th (th.fillO k) := by
  unfold fillO
  simp only
  split <;> exact ⟨rfl, rfl, rfl, rfl, rfl⟩
theorem fillO_others (th : Thread) (k : Nat) : (th.fillO k).others = th.others := by
  unfold fillO
  simp only
  split <;> rfl

theorem Regs.trans {a b c : Thread} (h : Regs a b) (k : Regs b c) : Regs a c :=
  ⟨k.v.trans h.v, k.poisoned.trans h.poisoned, k.preds.trans h.preds, k.flags.trans h.flags, k.pc.trans h.pc⟩

theorem touch_regs (th : Thread) (xs : List (SrcD × OTy)) : Regs th (th.touch xs) := by
  unfold touch
  induction xs generalizing th with
  | nil => exact ⟨rfl, rfl, rfl, rfl, rfl⟩
  | cons a xs ih =>
    obtain ⟨x, ty⟩ := a
    rw [List.foldl_cons]
    refine Regs.trans ?_ (ih _)
    simp only
    split
    · split
      · exact (fillO_regs _ _).trans (fillO_regs _ _)
      · exact fillO_regs _ _
    · exact ⟨rfl, rfl, rfl, rfl, rfl⟩
theorem touch_others (th : Thread) (xs : List (SrcD × OTy)) : (th.touch xs).others = th.others := by
  unfold touch
  induction xs generalizing th with
  | nil => rfl
  | cons a xs ih =>
    obtain ⟨x, ty⟩ := a
    rw [List.foldl_cons, ih]
    simp only
    split
    · split
      · rw [fillO_others, fillO_others]
      · exact fillO_others _ _
    · rfl

@[simp] theorem killAll_others (th : Thread) (ns : List Nat) : (th.killAll ns).others = th.others := by
  unfold killAll
  induction ns generalizing th with
  | nil => rfl
  | cons n ns ih => rw [List.foldl_cons, ih]; rfl

theorem killAll_find (th : Thread) (ns : List Nat) (n : Nat) : Map.find (th.killAll ns).v n = if n ∈ ns then none else Map.find th.v n := by
  unfold killAll
  induction ns generalizing th with
  | nil => simp
  | cons k ns ih =>
    rw [List.foldl_cons, ih]
    simp only [killV, Map.find_erase, List.mem_cons]
    by_cases h1 : n ∈ ns <;> by_cases h2 : n = k <;> simp [h1, h2]
theorem killAll_poisoned (th : Thread) (ns : List Nat) (n : Nat) : n ∈ (th.killAll ns).poisoned ↔ n ∉ ns ∧ n ∈ th.poisoned := by
  unfold killAll
  induction ns generalizing th with
  | nil => simp
  | cons k ns ih =>
    rw [List.foldl_cons, ih]
    simp only [killV, List.mem_filter, List.mem_cons, not_or]
    by_cases h2 : n = k <;> simp [h2]
theorem killAll_rest (th : Thread) (ns : List Nat) : (th.killAll ns).preds = th.preds ∧ (th.killAll ns).flags = th.flags ∧ (th.killAll ns).pc = th.pc := by
  unfold killAll
  induction ns generalizing th with
  | nil => exact ⟨rfl, rfl, rfl⟩
  | cons k ns ih => rw [List.foldl_cons]; exact ih (th.killV k)

theorem writeVs_find (th : Thread) (n : Nat) (xs : List Word) (k : Nat) :
    Map.find (th.writeVs n xs).v k = if n ≤ k ∧ k < n + xs.length then some (xs.getD (k - n) 0) else Map.find th.v k := by
  induction xs generalizing th n with
  | nil => simp [writeVs] <;> omega
  | cons x xs ih =>
    simp only [writeVs, ih, writeV_v, Map.find_set, List.length_cons]
    by_cases h : k = n
    · subst h
      rw [if_neg (by omega), if_pos (by omega)]; simp
    · by_cases h2 : n + 1 ≤ k ∧ k < n + 1 + xs.length
      · have e : k - n = (k - (n + 1)) + 1 := by omega
        rw [if_pos h2, if_pos (by omega), e]; rfl
      · rw [if_neg h2, if_neg h, if_neg (by omega)]
theorem writeVs_poisoned (th : Thread) (n : Nat) (xs : List Word) (k : Nat) :
    k ∈ (th.writeVs n xs).poisoned ↔ ¬ (n ≤ k ∧ k < n + xs.length) ∧ k ∈ th.poisoned := by
  induction xs generalizing th n with
  | nil => simp [writeVs]
  | cons x xs ih =>
    simp only [writeVs, ih, List.length_cons]
    show _ ∧ k ∈ th.poisoned.filter _ ↔ _
    rw [List.mem_filter]
    by_cases h : k = n
    · subst h; simp
    · simp only [decide_not, Bool.not_eq_eq_eq_not, Bool.not_true, decide_eq_false_iff_not]
      constructor <;> rintro ⟨a, b⟩ <;> refine ⟨?_, ?_⟩ <;> first | omega | exact b.1 | exact ⟨b, h⟩
theorem writeVs_rest (th : Thread) (n : Nat) (xs : List Word) : (th.writeVs n xs).preds = th.preds ∧ (th.writeVs n xs).flags = th.flags ∧ (th.writeVs n xs).pc = th.pc := by
  induction xs generalizing th n with
  | nil => exact ⟨rfl, rfl, rfl⟩
  | cons x xs ih => exact ih (th.writeV n x) (n + 1)

theorem resWords_length (k : Nat) (x : Dword) : (resWords k x).length = if k = 2 then 2 else 1 := by unfold resWords; split <;> rfl

theorem setPred_pred (th : Thread) (p q : Nat) (x : Bool) : (th.setPred p x).pred q = if q = p ∧ p < 7 then x else th.pred q := by
  unfold setPred pred
  by_cases hp : p ≥ 7
  · have : ¬ (q = p ∧ p < 7) := by omega
    simp only [hp, if_true, this, if_false]
  · simp only [hp, if_false]
    by_cases hq : q ≥ 7
    · have : ¬ (q = p ∧ p < 7) := by omega
      simp only [hq, decide_true, Bool.true_or, this, if_false]
    · have hq' : q < 7 := by omega
      have hpow : (BitVec.ofNat 7 (2 ^ p)).getLsbD q = decide (p = q) := by
        rw [BitVec.getLsbD_ofNat, Nat.testBit_two_pow]; simp only [hq', decide_true, Bool.true_and]
      by_cases e : q = p
      · have : q = p ∧ p < 7 := by omega
        simp only [this, and_self, if_true]
        subst e
        cases x <;> simp only [if_true, Bool.false_eq_true, if_false, BitVec.getLsbD_or, BitVec.getLsbD_and, BitVec.getLsbD_not, hpow] <;> simp [hq']
      · have : ¬ (q = p ∧ p < 7) := fun h => e h.1
        have hpow : (BitVec.ofNat 7 (2 ^ p)).getLsbD q = false := by rw [hpow]; exact decide_eq_false (Ne.symm e)
        simp only [hq, decide_false, Bool.false_or, this, if_false]
        cases x <;> simp only [if_true, Bool.false_eq_true, if_false, BitVec.getLsbD_or, BitVec.getLsbD_and, BitVec.getLsbD_not, hpow] <;> simp [hq']

/-- What the write of one operation's result does to its thread. -/
structure Wrote (d : DFld) (x : Dword) (a b : Thread) : Prop where
  holds : b.Holds d x
  regs : ∀ n, n ∉ ({ guard := ⟨false, 7⟩, srcs := [], dst := d, f := fun _ => ⟨0, 0⟩ } : Micro).vdst →
    Map.find b.v n = Map.find a.v n ∧ (n ∈ b.poisoned ↔ n ∈ a.poisoned)
  preds : ∀ p, d ≠ .pred p → b.pred p = a.pred p
  flags : b.flags = a.flags
  pc : b.pc = a.pc
  others : b.others = a.others

theorem writeField_wrote (th : Thread) (d : DFld) (hold : Option Nat) (x : Dword) : Wrote d x th (th.writeField d hold x) := by
  have vwrite (n k : Nat) (th' : Thread) (h' : Regs (th.writeVs n (resWords k x)) th') (ho : th'.others = th.others)
      (hd : d = .reg (.v n) k true true ∨ True) (h1 : th'.Holds d x ↔ ∀ j < (resWords k x).length, Map.find th'.v (n + j) = some ((resWords k x).getD j 0))
      (h2 : ∀ m, m ∉ ({ guard := ⟨false, 7⟩, srcs := [], dst := d, f := fun _ => ⟨0, 0⟩ } : Micro).vdst → ¬ (n ≤ m ∧ m < n + (resWords k x).length)) : Wrote d x th th' := by
    have hr := writeVs_rest th n (resWords k x)
    refine ⟨h1.mpr fun j hj => ?_, fun m hm => ?_, fun p _ => ?_, h'.flags.trans hr.2.1, h'.pc.trans hr.2.2, ho⟩
    · rw [h'.v, writeVs_find, if_pos (by omega)]; simp
    · rw [h'.v, h'.poisoned, writeVs_find, if_neg (h2 m hm), writeVs_poisoned]; simp only [h2 m hm, not_false_eq_true, true_and, and_self]
    · simp only [pred, h'.preds, hr.1]
  have vd (n k m : Nat) (h : m ∉ (List.range (if k = 2 then 2 else 1)).map (n + ·)) : ¬ (n ≤ m ∧ m < n + (resWords k x).length) := by
    rw [resWords_length]
    intro hc
    exact h (List.mem_map.mpr ⟨m - n, List.mem_range.mpr (by omega), by omega⟩)
  have none_ (th' : Thread) (h' : Regs th th') (ho : th'.others = th.others) (h1 : th'.Holds d x) : Wrote d x th th' :=
    ⟨h1, fun n _ => by rw [h'.v, h'.poisoned]; simp, fun p _ => by simp only [pred, h'.preds], h'.flags, h'.pc, ho⟩
  have idR : Regs th th := ⟨rfl, rfl, rfl, rfl, rfl⟩
  unfold writeField
  split
  · next n k _ _ =>
    cases hold with
    | none => exact vwrite n k _ ⟨rfl, rfl, rfl, rfl, rfl⟩ (writeVs_others _ _ _) (Or.inr trivial) Iff.rfl (vd n k)
    | some h => exact vwrite n k _ (depositAll_regs _ _ _ _ _) ((depositAll_others _ _ _ _ _).trans (writeVs_others _ _ _)) (Or.inr trivial) Iff.rfl (vd n k)
  · next n k =>
    cases hold with
    | none => exact vwrite n k _ ⟨rfl, rfl, rfl, rfl, rfl⟩ (writeVs_others _ _ _) (Or.inr trivial) Iff.rfl (vd n k)
    | some h => exact vwrite n k _ (depositAll_regs _ _ _ _ _) ((depositAll_others _ _ _ _ _).trans (writeVs_others _ _ _)) (Or.inr trivial) Iff.rfl (vd n k)
  · cases hold with
    | none => exact none_ _ idR rfl trivial
    | some h => exact none_ _ (depositAll_regs _ _ _ _ _) (depositAll_others _ _ _ _ _) trivial
  · next p =>
    refine ⟨fun hp => by rw [setPred_pred, if_pos ⟨rfl, hp⟩], fun n _ => ?_, fun q hq => ?_, ?_, ?_, ?_⟩
    · unfold setPred; split <;> simp
    · rw [setPred_pred, if_neg]; rintro ⟨rfl, -⟩; exact hq rfl
    all_goals unfold setPred; split <;> rfl
  · next h1 h2 h3 h4 =>
    refine none_ _ idR rfl ?_
    unfold Holds
    split
    · next n k a b => exact absurd rfl (h1 n k a b)
    · next n k => exact absurd rfl (h2 n k)
    · next p => exact absurd rfl (h4 p)
    · trivial

theorem Holds.keep {a b : Thread} {m : Micro} {x : Dword} (h : a.Holds m.dst x) (hv : ∀ n ∈ m.vdst, Map.find b.v n = Map.find a.v n)
    (hp : ∀ p, m.dst = .pred p → b.pred p = a.pred p) : b.Holds m.dst x := by
  unfold Micro.vdst at hv
  unfold Holds at h ⊢
  split
  · next n k _ _ hd =>
    rw [hd] at hv h
    intro j hj
    rw [hv _ (List.mem_map.mpr ⟨j, List.mem_range.mpr (by rwa [resWords_length] at hj), rfl⟩)]
    exact h j hj
  · next n k hd =>
    rw [hd] at hv h
    intro j hj
    rw [hv _ (List.mem_map.mpr ⟨j, List.mem_range.mpr (by rwa [resWords_length] at hj), rfl⟩)]
    exact h j hj
  · next p hd =>
    rw [hd] at h
    intro h7
    rw [hp p hd]
    exact h h7
  · trivial

/-- What the writes of a word's operations do to a thread. -/
structure WroteAll (ps : List (Micro × Option Res)) (a b : Thread) : Prop where
  regs : ∀ n, (∀ q ∈ ps, q.2.isSome = true → n ∉ q.1.vdst) → Map.find b.v n = Map.find a.v n ∧ (n ∈ b.poisoned ↔ n ∈ a.poisoned)
  preds : ∀ p, (∀ q ∈ ps, q.2.isSome = true → q.1.dst ≠ .pred p) → b.pred p = a.pred p
  flags : b.flags = ps.foldl (fun f q => q.2.elim f fun r => f ||| r.flags) a.flags
  pc : b.pc = a.pc
  others : b.others = a.others
  holds : ps.Pairwise (fun x y => x.1.Apart y.1) → ∀ q ∈ ps, ∀ r, q.2 = some r → b.Holds q.1.dst r.val

theorem writeMicros_wrote (th : Thread) (ms : List Micro) (rs : List (Option Res)) (hl : rs.length = ms.length) :
    WroteAll (ms.zip rs) th (th.writeMicros ms rs) := by
  induction ms generalizing th rs with
  | nil => cases rs with
    | nil => exact ⟨fun _ _ => ⟨rfl, Iff.rfl⟩, fun _ _ => rfl, rfl, rfl, rfl, fun _ _ h => by simp at h⟩
    | cons r rs => simp at hl
  | cons m ms ih =>
    cases rs with
    | nil => simp at hl
    | cons r rs =>
      simp only [List.length_cons, Nat.add_right_cancel_iff] at hl
      cases r with
      | none =>
        have ih := ih th rs hl
        simp only [writeMicros, List.zip_cons_cons]
        refine ⟨fun n hn => ih.regs n fun q hq => hn q (List.mem_cons_of_mem _ hq), fun p hp => ih.preds p fun q hq => hp q (List.mem_cons_of_mem _ hq),
          ih.flags, ih.pc, ih.others, fun hw q hq r hr => ?_⟩
        rcases List.mem_cons.mp hq with rfl | hq
        · simp at hr
        · exact ih.holds (List.pairwise_cons.mp hw).2 q hq r hr
      | some r =>
        simp only [writeMicros, List.zip_cons_cons]
        have w := writeField_wrote (th.raise r.flags) m.dst m.hold r.val
        have ih := ih ((th.raise r.flags).writeField m.dst m.hold r.val) rs hl
        refine ⟨fun n hn => ?_, fun p hp => ?_, ?_, ih.pc.trans w.pc, ih.others.trans w.others, fun hw q hq x hx => ?_⟩
        · have a := ih.regs n fun q hq => hn q (List.mem_cons_of_mem _ hq)
          have b := w.regs n (hn (m, some r) List.mem_cons_self rfl)
          exact ⟨a.1.trans b.1, a.2.trans b.2⟩
        · exact (ih.preds p fun q hq => hp q (List.mem_cons_of_mem _ hq)).trans (w.preds p (hp (m, some r) List.mem_cons_self rfl))
        · rw [ih.flags, w.flags]; rfl
        · have hw := List.pairwise_cons.mp hw
          rcases List.mem_cons.mp hq with rfl | hq
          · cases hx
            refine Holds.keep w.holds (fun n hn => (ih.regs n fun q hq _ => (hw.1 q hq).1 n hn).1) fun p hp => ih.preds p fun q hq _ => (hw.1 q hq).2 p hp
          · exact ih.holds hw.2 q hq x hx

/-- What operand reads and dead marks do to a thread. -/
structure Killed (ps : List (Micro × Option Res)) (a b : Thread) : Prop where
  regs : ∀ n, (∀ q ∈ ps, q.2.isSome = true → n ∉ deadRegs q.1.srcs) → Map.find b.v n = Map.find a.v n ∧ (n ∈ b.poisoned ↔ n ∈ a.poisoned)
  preds : b.preds = a.preds
  flags : b.flags = a.flags
  pc : b.pc = a.pc
  others : b.others = a.others

theorem killOne (th : Thread) (m : Micro) (r : Option Res) : Killed [(m, r)] th (if r.isSome then (th.touch m.srcs).killAll (deadRegs m.srcs) else th) := by
  cases r with
  | none => exact ⟨fun _ _ => ⟨rfl, Iff.rfl⟩, rfl, rfl, rfl, rfl⟩
  | some r =>
    have t := touch_regs th m.srcs
    have k := killAll_rest (th.touch m.srcs) (deadRegs m.srcs)
    refine ⟨fun n hn => ?_, k.1.trans t.preds, k.2.1.trans t.flags, k.2.2.trans t.pc, (killAll_others _ _).trans (touch_others _ _)⟩
    have := hn (m, some r) List.mem_cons_self rfl
    simp only [Option.isSome_some, if_true, killAll_find, killAll_poisoned, this, if_false, not_false_eq_true, true_and, t.v, t.poisoned, and_self]

theorem killMicros_killed (th : Thread) (ms : List Micro) (rs : List (Option Res)) : Killed (ms.zip rs) th (th.killMicros ms rs) := by
  induction ms generalizing th rs with
  | nil => cases rs <;> exact ⟨fun _ _ => ⟨rfl, Iff.rfl⟩, rfl, rfl, rfl, rfl⟩
  | cons m ms ih =>
    cases rs with
    | nil => exact ⟨fun _ _ => ⟨rfl, Iff.rfl⟩, rfl, rfl, rfl, rfl⟩
    | cons r rs =>
      have o := killOne th m r
      have e : th.killMicros (m :: ms) (r :: rs) = (if r.isSome then (th.touch m.srcs).killAll (deadRegs m.srcs) else th).killMicros ms rs := by
        cases r <;> rfl
      rw [e]
      have ih := ih (if r.isSome then (th.touch m.srcs).killAll (deadRegs m.srcs) else th) rs
      refine ⟨fun n hn => ?_, ih.preds.trans o.preds, ih.flags.trans o.flags, ih.pc.trans o.pc, ih.others.trans o.others⟩
      have a := ih.regs n fun q hq => hn q (List.mem_cons_of_mem _ hq)
      have b := o.regs n fun q hq => by
        rw [List.mem_singleton] at hq; subst hq; exact hn _ List.mem_cons_self
      exact ⟨a.1.trans b.1, a.2.trans b.2⟩

end Thread
end Sys2Proof.Machine
end

