-- ==== Sys2Proof/Laws/Compute.lean ====
section
/-! SUPPORT. The words whose lanes write their results at issue: completion, results and frame. -/

namespace Sys2Proof.Machine

theorem Wave.Holds.keep {a b : Wave} {d : DFld} {x : Dword} (h : a.Holds d x) (hs : ∀ n, b.sreg n = a.sreg n) : b.Holds d x := by
  unfold Wave.Holds at h ⊢
  split
  · intro j hj; rw [hs]; exact h j hj
  · intro j hj; rw [hs]; exact h j hj
  · trivial

namespace State

theorem setSs_others (w : Wave) (n : Nat) (xs : List Word) : (w.setSs n xs).others = w.others := by
  induction xs generalizing w n with
  | nil => rfl
  | cons x xs ih => simp only [Wave.setSs]; rw [ih]; rfl

theorem setSs_sreg (w : Wave) (n : Nat) (xs : List Word) (k : Nat) :
    (w.setSs n xs).sreg k = if n ≤ k ∧ k < n + xs.length then xs.getD (k - n) 0 else w.sreg k := by
  induction xs generalizing w n with
  | nil => simp [Wave.setSs] <;> omega
  | cons x xs ih =>
    simp only [Wave.setSs, ih, List.length_cons]
    by_cases h : k = n
    · subst h
      rw [if_neg (by omega), if_pos (by omega)]; simp [Wave.sreg, Wave.setS]
    · by_cases h2 : n + 1 ≤ k ∧ k < n + 1 + xs.length
      · have e : k - n = (k - (n + 1)) + 1 := by omega
        rw [if_pos h2, if_pos (by omega), e]; rfl
      · rw [if_neg h2, if_neg (by omega)]; simp [Wave.sreg, Wave.setS, Map.getD_set, h]

/-- The s-register write of one operation of a thread. -/
def putS (s : State) (w : WaveId) (d : DFld) (r : Option Res) : State :=
  match r, d with
  | some r, .reg (.s n) k _ _ => s.modWave w (·.setSs n (resWords k r.val))
  | some r, .sreg n k => s.modWave w (·.setSs n (resWords k r.val))
  | _, _ => s

theorem writeSregs_eq (s : State) (outs : List (ThreadId × LaneOut)) (ms : List Micro) :
    s.writeSregs outs ms = outs.foldl (fun s (t, o) => match o with
      | .trap _ => s
      | .done rs => (ms.zip rs).foldl (fun s (m, r) => s.putS t.wave m.dst r) s) s := rfl

theorem kept_putS {g : List ThreadId} (s : State) (w : WaveId) (d : DFld) (r : Option Res) : Kept g s (s.putS w d r) := by
  unfold putS
  split
  · exact kept_modWave _ (setSs_others _ _ _)
  · exact kept_modWave _ (setSs_others _ _ _)
  · exact Kept.refl _ _
theorem threads_putS (s : State) (w : WaveId) (d : DFld) (r : Option Res) : (s.putS w d r).threads = s.threads := by
  unfold putS; split <;> rfl
theorem cores_putS (s : State) (w : WaveId) (d : DFld) (r : Option Res) : (s.putS w d r).cores = s.cores := by
  unfold putS; split <;> rfl

theorem kept_writeSregs {g : List ThreadId} (s : State) (outs : List (ThreadId × LaneOut)) (ms : List Micro) : Kept g s (s.writeSregs outs ms) := by
  rw [writeSregs_eq]
  refine kept_foldl _ _ fun s x _ => ?_
  obtain ⟨t, o⟩ := x
  cases o with
  | trap c => exact Kept.refl _ _
  | done rs => exact kept_foldl _ _ fun s y _ => kept_putS _ _ _ _
theorem threads_writeSregs (s : State) (outs : List (ThreadId × LaneOut)) (ms : List Micro) : (s.writeSregs outs ms).threads = s.threads := by
  rw [writeSregs_eq]
  refine foldl_keep State.threads _ _ fun s x _ => ?_
  obtain ⟨t, o⟩ := x
  cases o with
  | trap c => rfl
  | done rs => exact foldl_keep State.threads _ _ fun s y _ => threads_putS _ _ _ _
theorem cores_writeSregs (s : State) (outs : List (ThreadId × LaneOut)) (ms : List Micro) : (s.writeSregs outs ms).cores = s.cores := by
  rw [writeSregs_eq]
  refine foldl_keep State.cores _ _ fun s x _ => ?_
  obtain ⟨t, o⟩ := x
  cases o with
  | trap c => rfl
  | done rs => exact foldl_keep State.cores _ _ fun s y _ => cores_putS _ _ _ _

theorem putS_sreg (s : State) (w : WaveId) (m : Micro) (r : Option Res) (v : WaveId) (n : Nat) (h : v ≠ w ∨ r = none ∨ n ∉ m.sdst) :
    ((s.putS w m.dst r).wave v).sreg n = (s.wave v).sreg n := by
  unfold putS
  unfold Micro.sdst at h
  have out (a k : Nat) (x : Res) (h : v ≠ w ∨ some x = none ∨ n ∉ (List.range (if k = 2 then 2 else 1)).map (a + ·)) :
      ((s.modWave w (·.setSs a (resWords k x.val))).wave v).sreg n = (s.wave v).sreg n := by
    rw [wave_modWave]
    split
    · next e =>
      subst e
      rw [setSs_sreg, if_neg]
      rintro ⟨h1, h2⟩
      rw [Thread.resWords_length] at h2
      rcases h with h | h | h
      · exact h rfl
      · cases h
      · exact h (List.mem_map.mpr ⟨n - a, List.mem_range.mpr (by omega), by omega⟩)
    · rfl
  split
  · next x a k _ _ e => rw [e] at h; exact out a k x h
  · next x a k e => rw [e] at h; exact out a k x h
  · rfl

theorem putS_holds (s : State) (w : WaveId) (d : DFld) (r : Res) : ((s.putS w d (some r)).wave w).Holds d r.val := by
  have put (a k : Nat) (x : Dword) (j : Nat) (hj : j < (resWords k x).length) :
      ((s.modWave w (·.setSs a (resWords k x))).wave w).sreg (a + j) = (resWords k x).getD j 0 := by
    rw [wave_modWave_self, setSs_sreg, if_pos (by omega)]; simp
  unfold putS Wave.Holds
  split
  · next n k _ _ => exact fun j hj => put n k r.val j hj
  · next n k => exact fun j hj => put n k r.val j hj
  · trivial

/-- Registers that no operation writes keep their values. -/
theorem writeSregs_sreg (s : State) (outs : List (ThreadId × LaneOut)) (ms : List Micro) (w : WaveId) (n : Nat) (h : ∀ m ∈ ms, n ∉ m.sdst) :
    ((s.writeSregs outs ms).wave w).sreg n = (s.wave w).sreg n := by
  rw [writeSregs_eq]
  refine foldl_keep (fun s : State => (s.wave w).sreg n) _ _ fun s x _ => ?_
  obtain ⟨t, o⟩ := x
  cases o with
  | trap c => rfl
  | done rs =>
    refine foldl_keep (fun s : State => (s.wave w).sreg n) _ _ fun s y hy => ?_
    exact putS_sreg s t.wave y.1 y.2 w n (Or.inr (Or.inr (h y.1 (List.of_mem_zip hy).1)))

/-- The outcomes of one operation per lane: the last thread of a wave with a result leaves it in the wave's s registers. -/
theorem writeSregs_last (s : State) (l : List ThreadId) (o : ThreadId → Option Res) (m : Micro) (u : ThreadId) (r : Res) (hu : o u = some r)
    (hl : (l.filter fun x => x.wave = u.wave && (o x).isSome).getLast? = some u) :
    ((s.writeSregs (l.map fun t => (t, .done [o t])) [m]).wave u.wave).Holds m.dst r.val := by
  rw [writeSregs_eq, List.foldl_map]
  simp only [List.zip_cons_cons, List.zip_nil_right, List.foldl_cons, List.foldl_nil]
  induction l generalizing s with
  | nil => simp at hl
  | cons a l ih =>
    rw [List.foldl_cons]
    by_cases hm : (l.filter fun x => x.wave = u.wave && (o x).isSome) = []
    · have ha : a = u := by
        rw [List.filter_cons, hm] at hl
        split at hl
        · simpa using hl
        · simp at hl
      subst ha
      have keep : ∀ n, ((l.foldl (fun s t => s.putS t.wave m.dst (o t)) (s.putS a.wave m.dst (o a))).wave a.wave).sreg n
          = ((s.putS a.wave m.dst (o a)).wave a.wave).sreg n := by
        intro n
        refine foldl_keep (fun s : State => (s.wave a.wave).sreg n) _ _ fun s x hx => ?_
        apply putS_sreg
        have := List.filter_eq_nil_iff.mp hm x hx
        by_cases e : x.wave = a.wave
        · right; left; simp [e] at this; exact this
        · left; exact fun h => e h.symm
      have hh := putS_holds s a.wave m.dst r
      rw [← hu] at hh
      exact hh.keep keep
    · apply ih
      rw [List.filter_cons] at hl
      split at hl
      · rw [List.getLast?_cons_of_ne_nil hm] at hl; exact hl
      · exact hl

/-- The operations of a word depend on a thread through its predicates and flags alone, and write one list of destinations. -/
structure Steady (ms : Thread → List Micro) : Prop where
  same : ∀ a b : Thread, a.preds = b.preds → a.flags = b.flags → ms a = ms b
  dst : ∀ a b : Thread, (ms a).map Micro.dst = (ms b).map Micro.dst
  guard : ∀ a b : Thread, (ms a).map Micro.guard = (ms b).map Micro.guard

/-- The state a word of lanes reaches before the run's bookkeeping, when every source can be read. -/
theorem laneBody_readable {s : State} {i : Instr} {ms : Thread → List Micro} (hu : Steady ms) (hn : s.group.Nodup) (hr : s.Readable ms) (pc : Dword) :
    laneBody i ms (s.begun i) s.group pc =
      (s.group.foldl (fun s' t => s'.modThread t fun th => th.applyMicros (ms (s.thread t)) ((ms (s.thread t)).map (s.outcome t))) (s.begun i)).writeSregs
        (s.group.map fun t => (t, .done ((ms (s.thread t)).map (s.outcome t)))) (ms {}) := by
  have hms (t : ThreadId) : ms ((s.begun i).thread t) = ms (s.thread t) := by
    apply hu.same <;> (rw [thread_begun s i hn]; split <;> rfl)
  have hout : (s.group.map fun t => (t, (s.begun i).evalLane t (ms ((s.begun i).thread t)))) =
      s.group.map fun t => (t, LaneOut.done ((ms (s.thread t)).map (s.outcome t))) := by
    apply List.map_congr_left
    intro t ht
    rw [hms, evalLane_done]
    · simp only [Prod.mk.injEq, true_and, LaneOut.done.injEq]
      exact List.map_congr_left fun m _ => outcome_begun s i hn t m
    · intro m hm hp
      rw [passes_begun s i hn] at hp
      rw [readOps_congr (reads_begun s i hn t)]
      exact hr t ht m hm hp
  unfold laneBody
  simp only [hout]
  congr 1
  rw [List.foldl_map]
  simp only [laneEffect, hms]

theorem LaneDone.transport {i : Instr} {ms : Thread → List Micro} {s a b : State} (d : LaneDone i ms s a) (S : SameRegs a b) : LaneDone i ms s b where
  results u hg m hm r ho := Thread.Holds.keep (d.results u hg m hm r ho) (fun n _ => by rw [S.v]) fun p _ => by simp only [Thread.pred, S.preds]
  scalars u hg m hm r ho hl := Wave.Holds.keep (d.scalars u hg m hm r ho hl) fun n => by simp only [Wave.sreg, S.s]
  flags u hg := by rw [S.flags]; exact d.flags u hg
  pcs u hg := by rw [S.pc]; exact d.pcs u hg

/-- The effect of a word of lanes: its s destinations are written by words of one operation, or it has none. -/
theorem laneBody_done {s : State} {i : Instr} {ms : Thread → List Micro} (hu : Steady ms) (h : s.Ready i) (hr : s.Readable ms)
    (ha : ∀ th, (ms th).Pairwise Micro.Apart) (hs : (∃ μ : Thread → Micro, ∀ th, ms th = [μ th]) ∨ ∀ th, ∀ m ∈ ms th, m.sdst = []) (pc : Dword) :
    LaneDone i ms s (laneBody i ms (s.begun i) s.group pc) := by
  have hn := h.2.1
  rw [laneBody_readable hu hn hr]
  generalize hB : (s.group.foldl (fun s' t => s'.modThread t fun th => th.applyMicros (ms (s.thread t)) ((ms (s.thread t)).map (s.outcome t)))
    (s.begun i)) = B
  have hth (u : ThreadId) (hg : u ∈ s.group) : B.thread u = (s.beginThread i (s.thread u)).applyMicros (ms (s.thread u)) ((ms (s.thread u)).map (s.outcome u)) := by
    rw [← hB, thread_foldl_modThread _ _ _ _ hn, if_pos hg, thread_begun s i hn, if_pos hg]
  have hwr (u : ThreadId) (hg : u ∈ s.group) := Thread.writeMicros_wrote ((s.beginThread i (s.thread u)).killMicros (ms (s.thread u)) ((ms (s.thread u)).map (s.outcome u)))
    (ms (s.thread u)) ((ms (s.thread u)).map (s.outcome u)) (by simp)
  have hki (u : ThreadId) (hg : u ∈ s.group) := Thread.killMicros_killed (s.beginThread i (s.thread u)) (ms (s.thread u)) ((ms (s.thread u)).map (s.outcome u))
  have hzip (u : ThreadId) : (ms (s.thread u)).zip ((ms (s.thread u)).map (s.outcome u)) = (ms (s.thread u)).map fun m => (m, s.outcome u m) := by
    rw [List.zip_map_right]; simp [List.zip_eq_zipWith]
  have S := SameRegs.refl (B.writeSregs (s.group.map fun t => (t, .done ((ms (s.thread t)).map (s.outcome t)))) (ms {}))
  have ht (u : ThreadId) : (B.writeSregs (s.group.map fun t => (t, .done ((ms (s.thread t)).map (s.outcome t)))) (ms {})).thread u = B.thread u := by
    simp only [State.thread, threads_writeSregs]
  refine ⟨fun u hg m hm r ho => ?_, fun u hg m hm r ho hl => ?_, fun u hg => ?_, fun u hg => ?_⟩
  · have w := hwr u hg
    rw [hzip] at w
    have := w.holds (List.pairwise_map.mpr (ha (s.thread u))) (m, s.outcome u m) (List.mem_map.mpr ⟨m, hm, rfl⟩) r ho
    refine Thread.Holds.keep (a := B.thread u) ?_ (fun n _ => by rw [S.v, ht]) (fun p _ => by simp only [Thread.pred, ht])
    rw [hth u hg]; exact this
  · refine Wave.Holds.keep (a := (B.writeSregs (s.group.map fun t => (t, .done ((ms (s.thread t)).map (s.outcome t)))) (ms {})).wave u.wave) ?_
      fun n => rfl
    rcases hs with ⟨μ, hμ⟩ | hs
    · have e : ∀ t, LaneOut.done ((ms (s.thread t)).map (s.outcome t)) = .done [s.outcome t (μ (s.thread t))] := by intro t; rw [hμ]; rfl
      simp only [e, hμ {}]
      have hm' : m = μ (s.thread u) := by rw [hμ] at hm; simpa using hm
      have hd : (μ {}).dst = m.dst := by
        have := hu.dst {} (s.thread u)
        rw [hμ, hμ] at this; rw [hm']; simpa using this
      have hd' : (μ {}).guard = m.guard := by
        have := hu.guard {} (s.thread u)
        rw [hμ, hμ] at this; rw [hm']; simpa using this
      rw [← hd]
      refine writeSregs_last B s.group (fun t => s.outcome t (μ (s.thread t))) (μ {}) u r (by rw [← hm']; exact ho) ?_
      rw [← hl]
      congr 1
      apply List.filter_congr
      intro x hx
      by_cases hw : x.wave = u.wave
      · simp only [hw, decide_true, Bool.true_and]
        have hg' : (μ (s.thread x)).guard = m.guard := by
          have := hu.guard {} (s.thread x)
          rw [hμ, hμ] at this; rw [← hd']; simpa using this.symm
        have hrd := hr x hx (μ (s.thread x)) (by rw [hμ]; exact List.mem_singleton_self _)
        unfold outcome
        rw [hg'] at hrd ⊢
        split
        · next hp =>
          have := hrd hp
          split
          · simp [hp]
          · next he => simp [he, Except.isOk, Except.toBool] at this
        · next hp => simp [hp]
      · simp [hw]
    · have hd : m.sdst = [] := hs _ m hm
      unfold Micro.sdst at hd
      unfold Wave.Holds
      split
      · next n k _ _ e => rw [e] at hd; simp at hd; split at hd <;> simp at hd
      · next n k e => rw [e] at hd; simp at hd; split at hd <;> simp at hd
      · trivial
  · rw [S.flags, ht, hth u hg]
    unfold Thread.applyMicros
    rw [(hwr u hg).flags, (hki u hg).flags, hzip, List.foldl_map]
    have fold (l : List Micro) (a b : Flags) : l.foldl (fun f m => (s.outcome u m).elim f fun r => f ||| r.flags) (a ||| b)
        = a ||| l.foldl (fun f m => (s.outcome u m).elim f fun r => f ||| r.flags) b := by
      induction l generalizing b with
      | nil => rfl
      | cons m l ih =>
        simp only [List.foldl_cons]
        cases s.outcome u m with
        | none => exact ih b
        | some r => simp only [Option.elim_some, BitVec.or_assoc]; exact ih _
    have := fold (ms (s.thread u)) (s.thread u).flags 0
    simpa [raised, beginThread] using this
  · rw [S.pc, ht, hth u hg]
    unfold Thread.applyMicros
    rw [(hwr u hg).pc, (hki u hg).pc]
    show (s.thread u).pc + _ = _
    rw [(h.2.2.1 u hg).2.1]

/-- Completion and results of a word of lanes. -/
theorem lane_done {s : State} {i : Instr} {ms : Thread → List Micro} (hu : Steady ms) (h : s.Ready i) (hr : s.Readable ms)
    (ha : ∀ th, (ms th).Pairwise Micro.Apart) (hs : (∃ μ : Thread → Micro, ∀ th, ms th = [μ th]) ∨ ∀ th, ∀ m ∈ ms th, m.sdst = []) :
    LaneDone i ms s (s.issue i (laneBody i ms)) := by
  rw [issue_ready h]
  exact (laneBody_done hu h hr ha hs _).transport (same_wound _ _ _ _)

theorem applyMicros_others {u : ThreadId} {s : State} (ms : List Micro) (th : Thread) : (th.applyMicros ms (ms.map (s.outcome u))).others = th.others := by
  unfold Thread.applyMicros
  rw [(Thread.writeMicros_wrote _ ms (ms.map (s.outcome u)) (by simp)).others, (Thread.killMicros_killed th ms (ms.map (s.outcome u))).others]

/-- The frame of a word of lanes. -/
theorem lane_kept {s : State} {i : Instr} {ms : Thread → List Micro} (hu : Steady ms) (h : s.Ready i) (hr : s.Readable ms) :
    Kept s.group s (s.issue i (laneBody i ms)) := by
  have hn := h.2.1
  rw [issue_ready h, laneBody_readable hu hn hr]
  have hF (l : List ThreadId) (b : State) : (l.foldl (fun s' t => s'.modThread t fun th => th.applyMicros (ms (s.thread t)) ((ms (s.thread t)).map (s.outcome t))) b).cores
      = b.cores := foldl_keep State.cores _ _ fun _ _ _ => rfl
  have hk : Kept s.group s _ := Kept.trans (kept_begun s i) (Kept.trans (kept_foldl (F := fun s' t => s'.modThread t fun th =>
    th.applyMicros (ms (s.thread t)) ((ms (s.thread t)).map (s.outcome t))) _ _ fun s' t ht => kept_modThread _ ht (applyMicros_others _ _))
    (kept_writeSregs _ (s.group.map fun t => (t, .done ((ms (s.thread t)).map (s.outcome t)))) (ms {})))
  refine hk.trans (kept_wound i false fun t ht => ?_)
  rw [hk.focus] at ht
  simp only [State.core, cores_writeSregs, hF] at ht
  have hg := group_begun s i s.focus
  simp only [State.core] at hg
  rw [hg] at ht
  exact ht

theorem lane_regs_kept {s : State} {i : Instr} {ms : Thread → List Micro} (hu : Steady ms) (h : s.Ready i) (hr : s.Readable ms) :
    LaneKept ms s (s.issue i (laneBody i ms)) := by
  have hn := h.2.1
  have hk := lane_kept hu h hr
  rw [issue_ready h, laneBody_readable hu hn hr] at hk ⊢
  generalize hB : (s.group.foldl (fun s' t => s'.modThread t fun th => th.applyMicros (ms (s.thread t)) ((ms (s.thread t)).map (s.outcome t)))
    (s.begun i)) = B at hk ⊢
  have S : SameRegs (B.writeSregs (s.group.map fun t => (t, .done ((ms (s.thread t)).map (s.outcome t)))) (ms {})) _ :=
    same_wound s i false _
  have ht (u : ThreadId) : (B.writeSregs (s.group.map fun t => (t, .done ((ms (s.thread t)).map (s.outcome t)))) (ms {})).thread u = B.thread u := by
    simp only [State.thread, threads_writeSregs]
  have hth (u : ThreadId) (hg : u ∈ s.group) : B.thread u = (s.beginThread i (s.thread u)).applyMicros (ms (s.thread u)) ((ms (s.thread u)).map (s.outcome u)) := by
    rw [← hB, thread_foldl_modThread _ _ _ _ hn, if_pos hg, thread_begun s i hn, if_pos hg]
  have hzip (u : ThreadId) : (ms (s.thread u)).zip ((ms (s.thread u)).map (s.outcome u)) = (ms (s.thread u)).map fun m => (m, s.outcome u m) := by
    rw [List.zip_map_right]; simp [List.zip_eq_zipWith]
  have hact (u : ThreadId) (m : Micro) (h : (s.outcome u m).isSome = true) : (s.thread u).passes m.guard = true := by
    unfold outcome at h; split at h
    · assumption
    · simp at h
  refine ⟨fun u n hq => ?_, fun u p hq => ?_, fun w n hq => ?_⟩
  · by_cases hg : u ∈ s.group
    · rw [S.v, S.poisoned, ht, hth u hg]
      unfold Thread.applyMicros
      have w := (Thread.writeMicros_wrote ((s.beginThread i (s.thread u)).killMicros (ms (s.thread u)) ((ms (s.thread u)).map (s.outcome u)))
        (ms (s.thread u)) ((ms (s.thread u)).map (s.outcome u)) (by simp)).regs n
      have k := (Thread.killMicros_killed (s.beginThread i (s.thread u)) (ms (s.thread u)) ((ms (s.thread u)).map (s.outcome u))).regs n
      rw [hzip] at w k
      have w := w fun q hq' hs => by
        obtain ⟨m, hm, rfl⟩ := List.mem_map.mp hq'
        exact (hq m hm (hact u m hs)).1
      have k := k fun q hq' hs => by
        obtain ⟨m, hm, rfl⟩ := List.mem_map.mp hq'
        exact (hq m hm (hact u m hs)).2
      exact ⟨w.1.trans k.1, w.2.trans k.2⟩
    · rw [hk.away u hg]; exact ⟨rfl, Iff.rfl⟩
  · by_cases hg : u ∈ s.group
    · simp only [Thread.pred, S.preds, ht, hth u hg]
      unfold Thread.applyMicros
      have w := (Thread.writeMicros_wrote ((s.beginThread i (s.thread u)).killMicros (ms (s.thread u)) ((ms (s.thread u)).map (s.outcome u)))
        (ms (s.thread u)) ((ms (s.thread u)).map (s.outcome u)) (by simp)).preds p
      have k := (Thread.killMicros_killed (s.beginThread i (s.thread u)) (ms (s.thread u)) ((ms (s.thread u)).map (s.outcome u))).preds
      rw [hzip] at w
      have w := w fun q hq' hs => by
        obtain ⟨m, hm, rfl⟩ := List.mem_map.mp hq'
        exact hq m hm (hact u m hs)
      simp only [Thread.pred] at w
      rw [w, k]; rfl
    · rw [hk.away u hg]
  · simp only [Wave.sreg, S.s]
    have := writeSregs_sreg B (s.group.map fun t => (t, .done ((ms (s.thread t)).map (s.outcome t)))) (ms {}) w n fun m hm => hq {} m hm
    simp only [Wave.sreg] at this
    rw [this, ← hB]
    have e : (s.group.foldl (fun s' t => s'.modThread t fun th => th.applyMicros (ms (s.thread t)) ((ms (s.thread t)).map (s.outcome t)))
      (s.begun i)).wave w = s.wave w := by
      refine Eq.trans (foldl_keep (State.wave · w) _ _ ?_) (wave_begun _ _ _)
      intro _ _ _; rfl
    rw [e]

/-- A word whose meaning is one operation per lane completes with its results. -/
theorem computeWith_done {i : Instr} {f : Thread → List Dword → Res} {s : State} {o : Outcome} (he : o = .next (s.computeWith i f))
    (hf : ∀ a b : Thread, a.preds = b.preds → a.flags = b.flags → f a = f b) (h : s.Ready i) (hr : s.Readable fun th => [microOf i (f th)]) :
    ∃ t, o = .next t ∧ LaneDone i (fun th => [microOf i (f th)]) s t := by
  refine ⟨_, he, lane_done ⟨fun a b hp hf' => by rw [hf a b hp hf'], ?_, ?_⟩ h hr (fun _ => List.pairwise_singleton _ _) (Or.inl ⟨_, fun _ => rfl⟩)⟩
  all_goals intro a b; unfold microOf; split <;> rfl

end State
end Sys2Proof.Machine
end

