-- ==== Sys2Proof/Laws/Long.lean ====
section
/-! SUPPORT. The words whose lanes have results in flight: completion, results and frame. -/

namespace Sys2Proof.Machine
namespace State

/-- What a lane with a result does to its thread at issue. -/
def launch (i : Instr) (p : Pending) (th : Thread) : Thread :=
  let th := (th.touch (microOf i fun _ => ⟨0, 0⟩).srcs).killAll (deadRegs (microOf i fun _ => ⟨0, 0⟩).srcs)
  { th with pend := th.pend ++ [p] }

/-- The result in flight of a lane, where its word has begun. -/
def flight (s : State) (i : Instr) (pc : Dword) (o : ThreadId → Option Res) (t : ThreadId) (r : Res) : Pending :=
  (s.begun i).pendOf t i pc (lastOfWave (s.group.filter fun u => (o u).isSome) t) r

theorem pendWords_congr {a b : State} {t : ThreadId} (i : Instr) (pc : Dword) (l : Bool) (ws : List Word) (f : Flags)
    (hc : (b.core t.wave.core).readyAt = (a.core t.wave.core).readyAt) (h1 : (b.thread t).rentry = (a.thread t).rentry) (h2 : (b.thread t).rctr = (a.thread t).rctr)
    (h3 : (b.thread t).issued = (a.thread t).issued) : b.pendWords t i pc l ws f = a.pendWords t i pc l ws f := by
  simp only [pendWords, hc, h1, h2, h3]

theorem touch_issued (th : Thread) (xs : List (SrcD × OTy)) : (th.touch xs).issued = th.issued ∧ (th.touch xs).pend = th.pend := by
  unfold Thread.touch
  induction xs generalizing th with
  | nil => exact ⟨rfl, rfl⟩
  | cons a xs ih =>
    obtain ⟨x, ty⟩ := a
    rw [List.foldl_cons]
    have fill (th : Thread) (k : Nat) : (th.fillO k).issued = th.issued ∧ (th.fillO k).pend = th.pend := by
      unfold Thread.fillO; simp only; split <;> exact ⟨rfl, rfl⟩
    refine ⟨(ih _).1.trans ?_, (ih _).2.trans ?_⟩
    all_goals
      simp only
      split
      · split
        · first | exact ((fill _ _).1).trans (fill _ _).1 | exact ((fill _ _).2).trans (fill _ _).2
        · first | exact (fill _ _).1 | exact (fill _ _).2
      · first | rfl | trivial
theorem killAll_issued (th : Thread) (ns : List Nat) : (th.killAll ns).issued = th.issued ∧ (th.killAll ns).pend = th.pend := by
  unfold Thread.killAll
  induction ns generalizing th with
  | nil => exact ⟨rfl, rfl⟩
  | cons n ns ih => rw [List.foldl_cons]; exact ih (th.killV n)

/-- The state a long-latency word reaches before the run's bookkeeping. -/
theorem longBody_eq (s : State) (i : Instr) (o : ThreadId → Option Res) (pc : Dword) (hn : s.group.Nodup) :
    longBody i (s.group.map fun t => (t, .done [o t])) (s.begun i) pc =
      s.group.foldl (fun s' t => (o t).elim s' fun r => s'.modThread t (launch i (s.flight i pc o t r))) (s.begun i) := by
  have hres (t : ThreadId) : laneRes (.done [o t]) = o t := by cases h : o t <;> rfl
  have hact : (((s.group.map fun t => (t, LaneOut.done [o t])).filter fun x => (laneRes x.2).isSome).map (·.1)) = s.group.filter fun u => (o u).isSome := by
    rw [List.filter_map, List.map_map]
    simp only [Function.comp_def, hres, List.map_id']
  unfold longBody
  simp only [hact]
  rw [List.foldl_map]
  have gen (l : List ThreadId) (b : State) (hl : l.Nodup) (hc : ∀ c, (b.core c) = ((s.begun i).core c))
      (ht : ∀ t ∈ l, b.thread t = (s.begun i).thread t) :
      l.foldl (fun s' t => longLane i (s.group.filter fun u => (o u).isSome) pc s' t (.done [o t])) b
      = l.foldl (fun s' t => (o t).elim s' fun r => s'.modThread t (launch i (s.flight i pc o t r))) b := by
    induction l generalizing b with
    | nil => rfl
    | cons a l ih =>
      have hl := List.nodup_cons.mp hl
      rw [List.foldl_cons, List.foldl_cons]
      have e : longLane i (s.group.filter fun u => (o u).isSome) pc b a (.done [o a]) = (o a).elim b fun r => b.modThread a (launch i (s.flight i pc o a r)) := by
        have hba := ht a List.mem_cons_self
        cases h : o a with
        | none => rfl
        | some r =>
          have : b.pendOf a i pc (lastOfWave (s.group.filter fun u => (o u).isSome) a) r = s.flight i pc o a r := by
            unfold flight pendOf
            exact pendWords_congr _ _ _ _ _ (by rw [hc]) (by rw [hba]) (by rw [hba]) (by rw [hba])
          simp only [longLane, laneRes, Option.elim_some, this, addPend]
          simp only [modThread, setThread, thread, Map.getD_set_self, Map.set_set]
          rfl
      rw [e]
      refine ih _ hl.2 (fun c => ?_) fun t h => ?_
      · cases o a
        · exact hc c
        · exact hc c
      · cases o a
        · exact ht t (List.mem_cons_of_mem _ h)
        · simp only [Option.elim_some]
          rw [thread_modThread, if_neg (by rintro rfl; exact hl.1 h)]
          exact ht t (List.mem_cons_of_mem _ h)
  exact gen s.group _ hn (fun _ => rfl) fun _ _ => rfl

/-- Threads changed one after another where there is something to do. -/
theorem thread_foldl_elim {α : Type} (l : List ThreadId) (o : ThreadId → Option α) (f : ThreadId → α → Thread → Thread) (s : State) (u : ThreadId) (hn : l.Nodup) :
    (l.foldl (fun s' t => (o t).elim s' fun r => s'.modThread t (f t r)) s).thread u =
      if u ∈ l then (o u).elim (s.thread u) fun r => f u r (s.thread u) else s.thread u := by
  induction l generalizing s with
  | nil => simp
  | cons a l ih =>
    have hna := List.nodup_cons.mp hn
    rw [List.foldl_cons, ih _ hna.2]
    by_cases h : u = a
    · subst h
      simp only [hna.1, if_false, List.mem_cons, true_or, if_true]
      cases o u with
      | none => rfl
      | some r => simp
    · have : ((o a).elim s fun r => s.modThread a (f a r)).thread u = s.thread u := by
        cases o a with
        | none => rfl
        | some r => simp only [Option.elim_some]; rw [thread_modThread, if_neg h]
      simp [h, this]

theorem keep_foldl_elim {α β : Type} (k : State → β) (l : List ThreadId) (o : ThreadId → Option α) (f : ThreadId → α → Thread → Thread) (s : State)
    (hk : ∀ s t g, k (State.modThread s t g) = k s) : k (l.foldl (fun s' t => (o t).elim s' fun r => s'.modThread t (f t r)) s) = k s := by
  refine foldl_keep k _ _ fun s t _ => ?_
  cases o t with
  | none => rfl
  | some r => exact hk _ _ _

/-- A change of threads that keeps results in flight but for their marks of uniform form and their dependencies. -/
def KeepsFlight (u : ThreadId) (s t : State) : Prop :=
  ∀ p ∈ (s.thread u).pend, ∃ q ∈ (t.thread u).pend, q = { p with uni := q.uni, deps := q.deps }
theorem KeepsFlight.refl (u : ThreadId) (s : State) : KeepsFlight u s s := fun p h => ⟨p, h, rfl⟩
theorem KeepsFlight.trans {u : ThreadId} {a b c : State} (h : KeepsFlight u a b) (k : KeepsFlight u b c) : KeepsFlight u a c := fun p hp => by
  obtain ⟨q, hq, e⟩ := h p hp
  obtain ⟨r, hr, e'⟩ := k q hq
  exact ⟨r, hr, by rw [e', e]⟩
theorem KeepsFlight.of_eq {u : ThreadId} {s t : State} (h : (t.thread u).pend = (s.thread u).pend) : KeepsFlight u s t := fun p hp => ⟨p, h ▸ hp, rfl⟩
theorem KeepsFlight.modThread {u : ThreadId} (s : State) (x : ThreadId) (f : Thread → Thread)
    (hf : ∀ th : Thread, ∀ p ∈ th.pend, ∃ q ∈ (f th).pend, q = { p with uni := q.uni, deps := q.deps }) : KeepsFlight u s (s.modThread x f) := fun p h => by
  rw [thread_modThread]
  split
  · next e => subst e; exact hf _ p h
  · exact ⟨p, h, rfl⟩
theorem KeepsFlight.foldl {α : Type} {u : ThreadId} {F : State → α → State} (hF : ∀ s a, KeepsFlight u s (F s a)) (l : List α) (s : State) :
    KeepsFlight u s (l.foldl F s) := by
  induction l generalizing s with
  | nil => exact KeepsFlight.refl _ _
  | cons a l ih => exact (hF s a).trans (ih _)

theorem KeepsFlight.modWave {u : ThreadId} (s : State) (w : WaveId) (f : Wave → Wave) : KeepsFlight u s (s.modWave w f) := KeepsFlight.of_eq rfl

theorem flight_noteUniform (s : State) (i : Instr) (g act : List ThreadId) (u : ThreadId) : KeepsFlight u s (s.noteUniform i g act) := by
  unfold noteUniform
  refine KeepsFlight.foldl (fun s w => ?_) _ _
  refine KeepsFlight.trans ?_ (KeepsFlight.foldl (fun s n => KeepsFlight.modWave s _ _) _ _)
  simp only
  split
  · split
    · exact KeepsFlight.foldl (fun s n => KeepsFlight.modWave s _ _) _ _
    · exact KeepsFlight.refl _ _
  · split
    · refine KeepsFlight.foldl (fun s x => KeepsFlight.modThread s x _ fun th p hp => ?_) _ _
      exact ⟨_, List.mem_map_of_mem hp, by split <;> rfl⟩
    · exact KeepsFlight.refl _ _

theorem flight_trackDeps (s s0 : State) (i : Instr) (g : List ThreadId) (u : ThreadId) : KeepsFlight u s (s.trackDeps s0 i g) := by
  unfold trackDeps
  split
  · exact KeepsFlight.refl _ _
  · refine KeepsFlight.foldl (fun s t => ?_) _ _
    obtain ⟨x, hx, h | ⟨ds, h⟩⟩ := trackThread_cases s i s0.nextEv (s0.thread t) t
    · rw [h]; exact KeepsFlight.of_eq (by rw [present_thread hx])
    · rw [h]
      refine (KeepsFlight.of_eq (by rw [present_thread hx])).trans (KeepsFlight.modThread _ _ _ fun th p hp => ?_)
      exact ⟨_, List.mem_map_of_mem hp, by split <;> rfl⟩

theorem pend_endWord (s : State) (g : List ThreadId) (n : Dword) (e : Bool) (u : ThreadId) : ((s.endWord g n e).thread u).pend = (s.thread u).pend := by
  have step (s : State) (x : ThreadId) (f : Thread → Thread) (hf : ∀ th : Thread, (f th).pend = th.pend) : ((s.modThread x f).thread u).pend = (s.thread u).pend := by
    rw [thread_modThread]; split
    · next e => subst e; exact hf _
    · rfl
  have h1 : ((g.foldl (fun s t => s.modThread t Thread.tickWindows) s).thread u).pend = (s.thread u).pend :=
    foldl_keep (fun s : State => (s.thread u).pend) _ _ fun s x _ => step s x _ fun _ => rfl
  unfold endWord
  simp only
  split
  · rw [← h1]
    unfold endRun
    simp only [thread_modCore]
    refine foldl_keep (fun s : State => (s.thread u).pend) _ _ fun s x _ => step s x _ fun _ => rfl
  · exact h1

/-- What a word leaves behind after its effect keeps results in flight but for their marks and dependencies. -/
theorem flight_wound (s : State) (i : Instr) (e : Bool) (x : State) (u : ThreadId) : KeepsFlight u x (s.wound i e x) :=
  (flight_trackDeps x (s.begun i) i s.group u).trans ((flight_noteUniform _ i s.group (s.performers i) u).trans (KeepsFlight.of_eq (by
    rw [pend_endWord]; simp only [State.thread, threads_leaveHolds])))

theorem lastOfWave_eq (s : State) (o : ThreadId → Option Res) (t : ThreadId) :
    lastOfWave (s.group.filter fun u => (o u).isSome) t = s.lastWith o t := by
  unfold lastOfWave
  rw [List.filter_filter]

/-- Completion and results of a long-latency word. -/
theorem long_done {s : State} {i : Instr} (h : s.Ready i) (o : ThreadId → Option Res) (outs : State → List ThreadId → List (ThreadId × LaneOut))
    (ho : outs (s.begun i) s.group = s.group.map fun t => (t, .done [o t])) (hi : i.shape.isSome = true) :
    LongDone i o s (s.issue i fun s g pc => longBody i (outs s g) s pc) := by
  have hn := h.2.1
  rw [issue_ready h, ho, longBody_eq s i o _ hn]
  generalize hB : s.group.foldl (fun s' t => (o t).elim s' fun r => s'.modThread t (launch i (s.flight i s.wordPc o t r))) (s.begun i) = B
  have hth (u : ThreadId) (hg : u ∈ s.group) : B.thread u = (o u).elim (s.beginThread i (s.thread u)) fun r => launch i (s.flight i s.wordPc o u r) (s.beginThread i (s.thread u)) := by
    rw [← hB, thread_foldl_elim _ _ _ _ _ hn, if_pos hg, thread_begun s i hn, if_pos hg]
  have hco (c : CoreId) : B.core c = (s.begun i).core c := by
    rw [← hB]; exact keep_foldl_elim (State.core · c) _ _ _ _ fun _ _ _ => rfl
  have S : SameRegs B (s.wound i false B) := same_wound _ _ _ _
  refine ⟨fun u hg r hr => ?_, fun u hg => ?_, fun u hg => ?_⟩
  · have hp : s.flight i s.wordPc o u r ∈ (B.thread u).pend := by
      rw [hth u hg, hr]; simp [launch]
    obtain ⟨q, hq, e⟩ := flight_wound s i false B u _ hp
    refine ⟨q, hq, ?_⟩
    have hrdy : ((s.wound i false B).core s.focus).readyAt = ((s.begun i).core s.focus).readyAt := by rw [core_wound, hco]
    have hf := (h.2.2.1 u hg).1
    rw [hrdy, e]
    obtain ⟨x, hx⟩ := Option.isSome_iff_exists.mp hi
    unfold flight pendOf pendWords Pending.Brings
    rw [lastOfWave_eq]
    simp only [hx, microOf, dstRegs, hf]
    have hl (k : Nat) : (List.range (resWords k r.val).length).zip (resWords k r.val) = (List.range (resWords k r.val).length).map fun j => (j, (resWords k r.val).getD j 0) := by
      unfold resWords; split <;> rfl
    have num (n k : Nat) : ((List.range (resWords k r.val).length).zip (resWords k r.val)).map (fun p => (n + p.1, p.2)) =
        (List.range (resWords k r.val).length).map fun j => (n + j, (resWords k r.val).getD j 0) := by
      rw [hl, List.map_map]; rfl
    rcases hd : x.dst with _ | ⟨d, k, _, _⟩ | p | ⟨n, k⟩ | ⟨n, k⟩ | _ | _
    · simp
    · cases d with
      | v n => simp only [DFld.regs, num, and_self]
      | s n => cases s.lastWith o u <;> simp [DFld.regs, num]
      | vz => simp
    · simp only [DFld.regs, true_and]
      unfold resWords
      simp [lo32]
    · cases s.lastWith o u <;> simp [num]
    · simp only [DFld.regs, num, and_self]
    · simp
    · simp
  · rw [S.flags, hth u hg]
    cases o u with
    | none => rfl
    | some r =>
      simp only [Option.elim_some, launch]
      rw [(Thread.killAll_rest _ _).2.1, (Thread.touch_regs _ _).flags]
      rfl
  · rw [S.pc, hth u hg]
    cases o u with
    | none => show (s.thread u).pc + _ = _; rw [(h.2.2.1 u hg).2.1]
    | some r =>
      simp only [Option.elim_some, launch]
      rw [(Thread.killAll_rest _ _).2.2, (Thread.touch_regs _ _).pc]
      show (s.thread u).pc + _ = _; rw [(h.2.2.1 u hg).2.1]

theorem launch_others (i : Instr) (p : Pending) (th : Thread) : (launch i p th).others = th.others := by
  have := (Thread.killAll_others (th.touch (microOf i fun _ => ⟨0, 0⟩).srcs) (deadRegs (microOf i fun _ => ⟨0, 0⟩).srcs)).trans (Thread.touch_others th _)
  exact this

/-- The frame of a long-latency word. -/
theorem long_kept {s : State} {i : Instr} (h : s.Ready i) (o : ThreadId → Option Res) (outs : State → List ThreadId → List (ThreadId × LaneOut))
    (ho : outs (s.begun i) s.group = s.group.map fun t => (t, .done [o t])) :
    Kept s.group s (s.issue i fun s g pc => longBody i (outs s g) s pc) := by
  have hn := h.2.1
  rw [issue_ready h, ho, longBody_eq s i o _ hn]
  generalize hB : s.group.foldl (fun s' t => (o t).elim s' fun r => s'.modThread t (launch i (s.flight i s.wordPc o t r))) (s.begun i) = B
  have hco (c : CoreId) : B.core c = (s.begun i).core c := by
    rw [← hB]; exact keep_foldl_elim (State.core · c) _ _ _ _ fun _ _ _ => rfl
  have hk : Kept s.group (s.begun i) B := by
    rw [← hB]
    refine kept_foldl _ _ fun s t ht => ?_
    cases o t with
    | none => exact Kept.refl _ _
    | some r => exact kept_modThread _ ht (launch_others _ _ _)
  refine (kept_begun s i).trans (hk.trans (kept_wound i false fun t ht => ?_))
  rw [hk.focus, focus_begun, hco, group_begun] at ht
  exact ht

theorem long_regs_kept {s : State} {i : Instr} (h : s.Ready i) (o : ThreadId → Option Res) (outs : State → List ThreadId → List (ThreadId × LaneOut))
    (ho : outs (s.begun i) s.group = s.group.map fun t => (t, .done [o t]))
    (hp : ∀ u r, o u = some r → (s.thread u).passes (microOf i fun _ => ⟨0, 0⟩).guard = true) :
    LaneKept (readsOf i) s (s.issue i fun s g pc => longBody i (outs s g) s pc) := by
  have hn := h.2.1
  have hk := long_kept h o outs ho
  rw [issue_ready h, ho, longBody_eq s i o _ hn] at hk ⊢
  generalize hB : s.group.foldl (fun s' t => (o t).elim s' fun r => s'.modThread t (launch i (s.flight i s.wordPc o t r))) (s.begun i) = B at hk ⊢
  have hth (u : ThreadId) (hg : u ∈ s.group) : B.thread u = (o u).elim (s.beginThread i (s.thread u)) fun r => launch i (s.flight i s.wordPc o u r) (s.beginThread i (s.thread u)) := by
    rw [← hB, thread_foldl_elim _ _ _ _ _ hn, if_pos hg, thread_begun s i hn, if_pos hg]
  have S : SameRegs B (s.wound i false B) := same_wound _ _ _ _
  refine ⟨fun u n hq => ?_, fun u p hq => ?_, fun w n hq => ?_⟩
  · by_cases hg : u ∈ s.group
    · rw [S.v, S.poisoned, hth u hg]
      cases ho : o u with
      | none => exact ⟨rfl, Iff.rfl⟩
      | some r =>
        have hd := (hq _ (List.mem_singleton_self _) (hp u r ho)).2
        simp only [Option.elim_some, launch, Thread.killAll_find, Thread.killAll_poisoned]
        have t := Thread.touch_regs (s.beginThread i (s.thread u)) (microOf i fun _ => ⟨0, 0⟩).srcs
        simp only at hd
        simp only [hd, if_false, not_false_eq_true, true_and, t.v, t.poisoned]
        exact ⟨rfl, Iff.rfl⟩
    · rw [hk.away u hg]; exact ⟨rfl, Iff.rfl⟩
  · by_cases hg : u ∈ s.group
    · simp only [Thread.pred, S.preds, hth u hg]
      cases o u with
      | none => rfl
      | some r =>
        simp only [Option.elim_some, launch]
        rw [(Thread.killAll_rest _ _).1, (Thread.touch_regs _ _).preds]; rfl
    · rw [hk.away u hg]
  · simp only [Wave.sreg, S.s]
    have e : B.wave w = s.wave w := by
      rw [← hB]
      exact (keep_foldl_elim (State.wave · w) _ _ _ _ fun _ _ _ => rfl).trans (wave_begun _ _ _)
    rw [e]

end State
end Sys2Proof.Machine
end

