-- ==== Sys2Proof/Laws/Memory.lean ====
section
/-! SUPPORT. Every operation over memory keeps its canonical form (R3; log entry 1), and a byte read after a byte write. -/

namespace Sys2Proof.Machine

theorem memWfFrom_mono {lo lo' : Nat} {m : List Host.Cell} (h : memWfFrom lo m = true) (hl : lo' ≤ lo) : memWfFrom lo' m = true := by
  cases m with
  | nil => rfl
  | cons c m => obtain ⟨a, b⟩ := c; simp only [memWfFrom, Bool.and_eq_true, decide_eq_true_eq] at h ⊢; exact ⟨⟨by omega, h.1.2⟩, h.2⟩

/-- The canonical form drops nothing when addresses below its start are dropped. -/
theorem dropWhile_of_memWfFrom {lo a : Nat} {m : List Host.Cell} (h : memWfFrom lo m = true) (ha : a < lo) : m.dropWhile (·.1 ≤ a) = m := by
  cases m with
  | nil => rfl
  | cons c m =>
    obtain ⟨k, b⟩ := c
    simp only [memWfFrom, Bool.and_eq_true, decide_eq_true_eq] at h
    have : ¬ k ≤ a := by omega
    simp [List.dropWhile, this]

theorem memWrite_wfFrom {lo : Nat} {m : List Host.Cell} {a : Nat} (x : Byte) (h : memWfFrom lo m = true) (ha : lo ≤ a) : memWfFrom lo (memWrite m a x) = true := by
  induction m generalizing lo with
  | nil => unfold memWrite; split <;> simp_all [memWfFrom]
  | cons c m ih =>
    obtain ⟨k, b⟩ := c
    simp only [memWfFrom, Bool.and_eq_true, decide_eq_true_eq] at h
    obtain ⟨⟨hk, hb⟩, hm⟩ := h
    unfold memWrite
    split
    · rename_i hlt
      split
      · simp [memWfFrom, hk, hb, hm]
      · rename_i hx; simp [memWfFrom, hb, hm, hx, ha]; omega
    · split
      · rename_i heq; subst heq
        split
        · rw [dropWhile_of_memWfFrom hm (by omega)]; exact memWfFrom_mono hm (by omega)
        · rename_i hx; simp [memWfFrom, hm, hx, ha]
      · simp only [memWfFrom, Bool.and_eq_true, decide_eq_true_eq]
        exact ⟨⟨hk, hb⟩, ih hm (by omega)⟩

theorem memWrite_wf {m : List Host.Cell} (a : Nat) (x : Byte) (h : Memory.wf m = true) : Memory.wf (memWrite m a x) = true :=
  memWrite_wfFrom x h (Nat.zero_le _)

theorem memStore_wf {m : List Host.Cell} (a : Nat) (bs : List Byte) (h : Memory.wf m = true) : Memory.wf (memStore m a bs) = true := by
  induction bs generalizing m a with
  | nil => exact h
  | cons b bs ih => exact ih _ (memWrite_wf _ _ h)

theorem foldl_wf {α : Type} (F : List Host.Cell → α → List Host.Cell) (hF : ∀ m x, Memory.wf m = true → Memory.wf (F m x) = true) (l : List α) {m : List Host.Cell}
    (h : Memory.wf m = true) : Memory.wf (l.foldl F m) = true := by
  induction l generalizing m with
  | nil => exact h
  | cons x l ih => exact ih (hF m x h)

theorem filter_wfFrom (p : Host.Cell → Bool) {lo : Nat} {m : List Host.Cell} (h : memWfFrom lo m = true) : memWfFrom lo (m.filter p) = true := by
  induction m generalizing lo with
  | nil => rfl
  | cons c m ih =>
    obtain ⟨a, b⟩ := c
    simp only [memWfFrom, Bool.and_eq_true, decide_eq_true_eq] at h
    simp only [List.filter]
    split
    · simp only [memWfFrom, Bool.and_eq_true, decide_eq_true_eq]; exact ⟨h.1, ih h.2⟩
    · exact ih (memWfFrom_mono h.2 (by omega))

theorem reset_memOk : State.reset.MemOk := rfl

namespace State

theorem writeLoc_memOk {s : State} (l : Loc) (bs : List Byte) (h : s.MemOk) : (s.writeLoc l bs).MemOk := by
  cases l with
  | mem pa => exact memStore_wf pa bs h
  | scr tm off => exact h
  | win t n k => exact h

theorem mem_freeIdx (s : State) : s.freeIdx.2.mem = s.mem := rfl
theorem mem_allow {α : Type} (s : State) (tr : List Ev) (y n : α) : (s.allow tr y n).1.mem = s.mem := by unfold allow; split <;> rfl
/-- A store's place in the history leaves memory as it is: only the bytes of the newest version are then written. -/
theorem mem_writeEv (s : State) (e : Ev) (old new : List Byte) : (s.writeEv e old new).1.mem = s.mem := by
  unfold writeEv
  simp only
  generalize (if e.kind = .rmw then _ else _ : Ev) = e'
  split
  · rfl
  · split
    · rfl
    · exact mem_allow _ _ _ _
theorem memOk_congr {s t : State} (h : t.mem = s.mem) (k : s.MemOk) : t.MemOk := by unfold MemOk; rw [h]; exact k

theorem agentStore_memOk {s : State} (e : Ev) (l : Loc) (bs : List Byte) (h : s.MemOk) : (s.agentStore e l bs).MemOk := by
  unfold agentStore
  exact writeLoc_memOk _ _ (memOk_congr (mem_writeEv _ _ _ _) h)

theorem storePieces_memOk {s : State} (e : Ev) (ps : List Piece) (bs : List Byte) (h : s.MemOk) : (s.storePieces e ps bs).MemOk := by
  induction ps generalizing s bs with
  | nil => exact h
  | cons p ps ih => exact ih _ (agentStore_memOk _ _ _ h)

theorem setLeaf_memOk {s : State} (a : Nat) (f : Nat → Nat) (h : s.MemOk) : (s.setLeaf a f).MemOk := agentStore_memOk _ _ _ h

theorem copyBytes_memOk {s : State} (src dst n : Nat) (h : s.MemOk) : (s.copyBytes src dst n).MemOk :=
  foldl_wf _ (fun _ _ hm => memWrite_wf _ _ hm) _ (filter_wfFrom _ h)
theorem moveStretch_memOk {s : State} (src dst n : Nat) (h : s.MemOk) : (s.moveStretch src dst n).MemOk :=
  memOk_congr (s := s.copyBytes src dst n) rfl (copyBytes_memOk src dst n h)

theorem restoreLines_memOk {s : State} (ls : List LeaseLine) (h : s.MemOk) : (s.restoreLines ls).MemOk :=
  foldl_wf _ (fun _ _ hm => memStore_wf _ _ hm) _ h

theorem placePage_memOk {s : State} (key : Nat) (bytes : List Byte) (h : s.MemOk) : (s.placePage key bytes).MemOk :=
  memStore_wf _ _ (memStore_wf _ _ (memStore_wf _ _ (memStore_wf _ _ (memStore_wf _ _ h))))

theorem writeCtxReg_memOk {s : State} (k : Nat) (r : CtxReg) (x : Dword) (h : s.MemOk) : (s.writeCtxReg k r x).MemOk := by
  unfold writeCtxReg
  dsimp only
  split
  · exact agentStore_memOk _ _ _ h
  · exact h

end State

/-- Below the addresses that a `dropWhile` leaves, memory reads as unlisted. -/
theorem memRead_dropWhile_le (m : List Host.Cell) {a k : Nat} (h : k ≤ a) : memRead (m.dropWhile (·.1 ≤ a)) k = memDefault := by
  induction m with
  | nil => rfl
  | cons c m ih =>
    obtain ⟨x, b⟩ := c
    by_cases hx : x ≤ a
    · simpa [List.dropWhile, hx] using ih
    · have h1 : ¬ x = k := by omega
      have h2 : k < x := by omega
      simp [List.dropWhile, hx, memRead, h1, h2]

/-- Above them it reads as before, where the list was read so far. -/
theorem memRead_dropWhile_gt (m : List Host.Cell) {a k : Nat} (h : a < k) : memRead (m.dropWhile (·.1 ≤ a)) k = memRead m k := by
  induction m with
  | nil => rfl
  | cons c m ih =>
    obtain ⟨x, b⟩ := c
    by_cases hx : x ≤ a
    · have h1 : ¬ x = k := by omega
      have h2 : ¬ k < x := by omega
      simpa [List.dropWhile, hx, memRead, h1, h2] using ih
    · simp [List.dropWhile, hx]

end Sys2Proof.Machine
end

