-- ==== Sys2Proof/Laws/PerInstr.lean ====
section
/-! SUPPORT. Facts of every instruction as syntax, one lemma per constructor. -/

namespace Sys2Proof.Laws

theorem lit_isSome (x : SFld) : x.lit.isSome = x.isLit := by
  unfold SFld.lit SFld.isLit
  split <;> simp_all <;> split <;> simp_all

theorem shape_lit_isSome (x : Shape) : x.lit.isSome = x.usesLit := by
  unfold Shape.lit Shape.usesLit
  simp only [← lit_isSome]
  cases x.sa.lit <;> cases x.sb.lit <;> cases x.sc.lit <;> rfl

namespace LiteralLength

/-- A literal follows a word exactly where one of its source fields holds `LIT`, and nothing is longer than a word and its literal (R53, R63). -/
def Statement (i : Instr) : Prop := i.encode.length ≤ 2 ∧ (i.encode.length = 2 ↔ i.usesLit = true)

theorem holds (i : Instr) : Statement i := by
  unfold Statement Instr.encode
  split
  · rename_i w
    have h : Instr.usesLit (.unassignedOpcode w) = false := rfl
    simp [h]
  · rename_i a b
    have h : Instr.usesLit (.pairWord a b) = false := rfl
    simp [h]
  · unfold Instr.usesLit
    split
    · rename_i h; simp [h]
    · rename_i x h
      have := shape_lit_isSome x
      cases hl : x.lit <;> simp_all

theorem nop : Statement .nop := holds _
theorem unassignedOpcode (w : Dword) : Statement (.unassignedOpcode w) := holds _
theorem pairWord (a b : Option Half) : Statement (.pairWord a b) := holds _
theorem iadd (h : Hdr) (t : OTy) (sat : Bool) (d : Dst) (a b : SrcD) : Statement (.iadd h t sat d a b) := holds _
theorem isub (h : Hdr) (t : OTy) (sat : Bool) (d : Dst) (a b : SrcD) : Statement (.isub h t sat d a b) := holds _
theorem imul (h : Hdr) (t : OTy) (sat : Bool) (d : Dst) (a b : SrcD) : Statement (.imul h t sat d a b) := holds _
theorem imulh (h : Hdr) (t : OTy) (d : Dst) (a b : SrcD) : Statement (.imulh h t d a b) := holds _
theorem imad (h : Hdr) (t : OTy) (d : Dst) (a b c : SrcD) : Statement (.imad h t d a b c) := holds _
theorem imin (h : Hdr) (t : OTy) (d : Dst) (a b : SrcD) : Statement (.imin h t d a b) := holds _
theorem imax (h : Hdr) (t : OTy) (d : Dst) (a b : SrcD) : Statement (.imax h t d a b) := holds _
theorem iabs (h : Hdr) (t : OTy) (sat : Bool) (d : Dst) (a : SrcD) : Statement (.iabs h t sat d a) := holds _
theorem ineg (h : Hdr) (t : OTy) (sat : Bool) (d : Dst) (a : SrcD) : Statement (.ineg h t sat d a) := holds _
theorem idif (h : Hdr) (t : OTy) (d : Dst) (a b : SrcD) : Statement (.idif h t d a b) := holds _
theorem isad (h : Hdr) (t : OTy) (d : Dst) (a b c : SrcD) : Statement (.isad h t d a b c) := holds _
theorem and (h : Hdr) (t : OTy) (d : Dst) (a b : SrcD) : Statement (.and h t d a b) := holds _
theorem or (h : Hdr) (t : OTy) (d : Dst) (a b : SrcD) : Statement (.or h t d a b) := holds _
theorem xor (h : Hdr) (t : OTy) (d : Dst) (a b : SrcD) : Statement (.xor h t d a b) := holds _
theorem not (h : Hdr) (t : OTy) (d : Dst) (a : SrcD) : Statement (.not h t d a) := holds _
theorem andn (h : Hdr) (t : OTy) (d : Dst) (a b : SrcD) : Statement (.andn h t d a b) := holds _
theorem shl (h : Hdr) (t : OTy) (d : Dst) (a b : SrcD) : Statement (.shl h t d a b) := holds _
theorem shr (h : Hdr) (t : OTy) (d : Dst) (a b : SrcD) : Statement (.shr h t d a b) := holds _
theorem sar (h : Hdr) (t : OTy) (d : Dst) (a b : SrcD) : Statement (.sar h t d a b) := holds _
theorem rol (h : Hdr) (t : OTy) (d : Dst) (a b : SrcD) : Statement (.rol h t d a b) := holds _
theorem bfx (h : Hdr) (t : OTy) (d : Dst) (a f : SrcD) : Statement (.bfx h t d a f) := holds _
theorem bfi (h : Hdr) (t : OTy) (d : Dst) (a b f : SrcD) : Statement (.bfi h t d a b f) := holds _
theorem popc (h : Hdr) (t : OTy) (d : Dst) (a : SrcD) : Statement (.popc h t d a) := holds _
theorem clz (h : Hdr) (t : OTy) (d : Dst) (a : SrcD) : Statement (.clz h t d a) := holds _
theorem brev (h : Hdr) (t : OTy) (d : Dst) (a : SrcD) : Statement (.brev h t d a) := holds _
theorem ffs (h : Hdr) (t : OTy) (d : Dst) (a : SrcD) : Statement (.ffs h t d a) := holds _
theorem bysel (h : Hdr) (d : Dst) (a b c : SrcD) : Statement (.bysel h d a b c) := holds _
theorem icmp (h : Hdr) (cc : ICc) (t : OTy) (p : Nat) (a b : SrcD) : Statement (.icmp h cc t p a b) := holds _
theorem sel (h : Hdr) (t : OTy) (d : Dst) (a b : SrcD) (pc : Nat) : Statement (.sel h t d a b pc) := holds _
theorem plop (h : Hdr) (pd pa pb : Nat) (tt : Nat) : Statement (.plop h pd pa pb tt) := holds _
theorem lea (h : Hdr) (n32 : Bool) (k : Nat) (d : Dst) (a b c : SrcD) : Statement (.lea h n32 k d a b c) := holds _
theorem mov (h : Hdr) (t : OTy) (d : Dst) (a : SrcD) : Statement (.mov h t d a) := holds _
theorem movFlg (h : Hdr) (d : Dst) (a : SrcD) : Statement (.movFlg h d a) := holds _
theorem ocl (h : Hdr) (k : Nat) (n : Nat) (dead : Bool) : Statement (.ocl h k n dead) := holds _
theorem fadd (h : Hdr) (f : FFmt) (r : Rnd) (sat : Bool) (d : Dst) (a b : SrcD) : Statement (.fadd h f r sat d a b) := holds _
theorem fsub (h : Hdr) (f : FFmt) (r : Rnd) (sat : Bool) (d : Dst) (a b : SrcD) : Statement (.fsub h f r sat d a b) := holds _
theorem fmul (h : Hdr) (f : FFmt) (r : Rnd) (sat : Bool) (d : Dst) (a b : SrcD) : Statement (.fmul h f r sat d a b) := holds _
theorem ffma (h : Hdr) (f : FFmt) (r : Rnd) (d : Dst) (a b c : SrcD) : Statement (.ffma h f r d a b c) := holds _
theorem fmin (h : Hdr) (f : FFmt) (d : Dst) (a b : SrcD) : Statement (.fmin h f d a b) := holds _
theorem fmax (h : Hdr) (f : FFmt) (d : Dst) (a b : SrcD) : Statement (.fmax h f d a b) := holds _
theorem fabs (h : Hdr) (f : FFmt) (d : Dst) (a : SrcD) : Statement (.fabs h f d a) := holds _
theorem fneg (h : Hdr) (f : FFmt) (d : Dst) (a : SrcD) : Statement (.fneg h f d a) := holds _
theorem fcmp (h : Hdr) (cc : FCc) (f : FFmt) (p : Nat) (a b : SrcD) : Statement (.fcmp h cc f p a b) := holds _
theorem fcls (h : Hdr) (f : FFmt) (d : Dst) (a : SrcD) : Statement (.fcls h f d a) := holds _
theorem ffrc (h : Hdr) (f : FFmt) (d : Dst) (a : SrcD) : Statement (.ffrc h f d a) := holds _
theorem frnd (h : Hdr) (f : FFmt) (r : Rnd) (d : Dst) (a : SrcD) : Statement (.frnd h f r d a) := holds _
theorem fscl (h : Hdr) (f : FFmt) (r : Rnd) (sat : Bool) (d : Dst) (a n : SrcD) : Statement (.fscl h f r sat d a n) := holds _
theorem cvt (h : Hdr) (r : Rnd) (sat : Bool) (dt st : OTy) (d : Dst) (a : SrcD) : Statement (.cvt h r sat dt st d a) := holds _
theorem cvpk (h : Hdr) (r : Rnd) (sat : Bool) (f : FFmt) (k : Nat) (d : Dst) (a b : SrcD) : Statement (.cvpk h r sat f k d a b) := holds _
theorem cvup (h : Hdr) (f : FFmt) (k : Nat) (d : Dst) (a : SrcD) : Statement (.cvup h f k d a) := holds _
theorem frcp (h : Hdr) (d : Dst) (a : SrcD) : Statement (.frcp h d a) := holds _
theorem frsq (h : Hdr) (d : Dst) (a : SrcD) : Statement (.frsq h d a) := holds _
theorem fsqrt (h : Hdr) (d : Dst) (a : SrcD) : Statement (.fsqrt h d a) := holds _
theorem fexp2 (h : Hdr) (d : Dst) (a : SrcD) : Statement (.fexp2 h d a) := holds _
theorem flog2 (h : Hdr) (d : Dst) (a : SrcD) : Statement (.flog2 h d a) := holds _
theorem fsin (h : Hdr) (d : Dst) (a : SrcD) : Statement (.fsin h d a) := holds _
theorem fcos (h : Hdr) (d : Dst) (a : SrcD) : Statement (.fcos h d a) := holds _
theorem ftanh (h : Hdr) (d : Dst) (a : SrcD) : Statement (.ftanh h d a) := holds _
theorem idiv (h : Hdr) (t : OTy) (d : Dst) (a b : SrcD) : Statement (.idiv h t d a b) := holds _
theorem irem (h : Hdr) (t : OTy) (d : Dst) (a b : SrcD) : Statement (.irem h t d a b) := holds _
theorem xget (h : Hdr) (t : OTy) (g : Seg) (d : Dst) (a b : SrcD) : Statement (.xget h t g d a b) := holds _
theorem xrot (h : Hdr) (t : OTy) (g : Seg) (d : Dst) (a b : SrcD) : Statement (.xrot h t g d a b) := holds _
theorem xflip (h : Hdr) (t : OTy) (g : Seg) (d : Dst) (a b : SrcD) : Statement (.xflip h t g d a b) := holds _
theorem xrev (h : Hdr) (t : OTy) (g : Seg) (d : Dst) (a : SrcD) : Statement (.xrev h t g d a) := holds _
theorem bcst (h : Hdr) (t : OTy) (d : Dst) (a b : SrcD) : Statement (.bcst h t d a b) := holds _
theorem pcol (h : Hdr) (op : PcolOp) (neg : Bool) (d : PDst) (pa : Nat) : Statement (.pcol h op neg d pa) := holds _
theorem lmat (h : Hdr) (t : OTy) (d : Dst) (a : SrcD) : Statement (.lmat h t d a) := holds _
theorem lred (h : Hdr) (op : LredOp) (t : OTy) (sat : Bool) (d : Dst) (a : SrcD) : Statement (.lred h op t sat d a) := holds _
theorem sbc (h : Hdr) (t : OTy) (d : Dst) (a : Nat) : Statement (.sbc h t d a) := holds _
theorem lget (h : Hdr) (t : OTy) (d : Nat) (a b : SrcD) : Statement (.lget h t d a b) := holds _
theorem lset (h : Hdr) (t : OTy) (d : Nat) (a : Nat) (b : SrcD) : Statement (.lset h t d a b) := holds _
theorem sadd (h : Hdr) (t : OTy) (sat : Bool) (d : Dst) (a b : SrcD) : Statement (.sadd h t sat d a b) := holds _
theorem ssub (h : Hdr) (t : OTy) (sat : Bool) (d : Dst) (a b : SrcD) : Statement (.ssub h t sat d a b) := holds _
theorem smul (h : Hdr) (t : OTy) (sat : Bool) (d : Dst) (a b : SrcD) : Statement (.smul h t sat d a b) := holds _
theorem sand (h : Hdr) (t : OTy) (d : Dst) (a b : SrcD) : Statement (.sand h t d a b) := holds _
theorem sor (h : Hdr) (t : OTy) (d : Dst) (a b : SrcD) : Statement (.sor h t d a b) := holds _
theorem sxor (h : Hdr) (t : OTy) (d : Dst) (a b : SrcD) : Statement (.sxor h t d a b) := holds _
theorem sshl (h : Hdr) (t : OTy) (d : Dst) (a b : SrcD) : Statement (.sshl h t d a b) := holds _
theorem sshr (h : Hdr) (t : OTy) (d : Dst) (a b : SrcD) : Statement (.sshr h t d a b) := holds _
theorem ssar (h : Hdr) (t : OTy) (d : Dst) (a b : SrcD) : Statement (.ssar h t d a b) := holds _
theorem smin (h : Hdr) (t : OTy) (d : Dst) (a b : SrcD) : Statement (.smin h t d a b) := holds _
theorem smax (h : Hdr) (t : OTy) (d : Dst) (a b : SrcD) : Statement (.smax h t d a b) := holds _
theorem scmp (h : Hdr) (cc : ICc) (t : OTy) (p : Nat) (a b : SrcD) : Statement (.scmp h cc t p a b) := holds _
theorem smov (h : Hdr) (t : OTy) (d : Dst) (a : SrcD) : Statement (.smov h t d a) := holds _
theorem ssel (h : Hdr) (t : OTy) (d : Dst) (a b c : SrcD) : Statement (.ssel h t d a b c) := holds _
theorem slea (h : Hdr) (n32 : Bool) (k : Nat) (d : Dst) (a b c : SrcD) : Statement (.slea h n32 k d a b c) := holds _
theorem trsv (h : Hdr) (d : Dst) (b : Nat) (a : Nat) : Statement (.trsv h d b a) := holds _
theorem trel (h : Hdr) (b : Nat) : Statement (.trel h b) := holds _
theorem trelDone (team b : Nat) : Statement (.trelDone team b) := holds _
theorem tqry (h : Hdr) (d : Dst) (b n : Nat) : Statement (.tqry h d b n) := holds _
theorem trng (h : Hdr) (b : Nat) : Statement (.trng h b) := holds _
theorem trngDone (team b : Nat) : Statement (.trngDone team b) := holds _
theorem twr (h : Hdr) (b : Nat) (wide : Bool) (off val : SrcD) : Statement (.twr h b wide off val) := holds _
theorem trd (h : Hdr) (d : Dst) (b : Nat) (wide : Bool) (off : SrcD) : Statement (.trd h d b wide off) := holds _
theorem mma (h : Hdr) (tok : Nat) (off : SrcD) : Statement (.mma h tok off) := holds _
theorem mmaAccept (op : Nat) : Statement (.mmaAccept op) := holds _
theorem mmaComplete (op : Nat) : Statement (.mmaComplete op) := holds _
theorem mmaFaultStop (op : Nat) : Statement (.mmaFaultStop op) := holds _
theorem streamTileConsume (op : Nat) : Statement (.streamTileConsume op) := holds _
theorem mxr (h : Hdr) (fa fb : MxrFmt) (sat : Bool) (d a b : Nat) (deadA deadB : Bool) : Statement (.mxr h fa fb sat d a b deadA deadB) := holds _
theorem mxrWriteback (t : ThreadId) : Statement (.mxrWriteback t) := holds _
theorem mwait (h : Hdr) : Statement (.mwait h) := holds _
theorem mwaitEnd (team : Nat) : Statement (.mwaitEnd team) := holds _
theorem mstat (h : Hdr) (d : Dst) (n : Nat) : Statement (.mstat h d n) := holds _
theorem elect (h : Hdr) (p : Nat) : Statement (.elect h p) := holds _
theorem accz (h : Hdr) (k : Nat) : Statement (.accz h k) := holds _
theorem accld (h : Hdr) (g : Bool) (k : Nat) (addr stride : SrcD) : Statement (.accld h g k addr stride) := holds _
theorem accst (h : Hdr) (g : Bool) (k : Nat) (addr stride : SrcD) : Statement (.accst h g k addr stride) := holds _
theorem accMoveDone (op : Nat) : Statement (.accMoveDone op) := holds _
theorem accmvRd (h : Hdr) (d : Nat) (k : Nat) (r : SrcD) : Statement (.accmvRd h d k r) := holds _
theorem accmvWr (h : Hdr) (k : Nat) (a : Nat) (dead : Bool) (r : SrcD) : Statement (.accmvWr h k a dead r) := holds _
theorem tileWaitEnd (t : ThreadId) : Statement (.tileWaitEnd t) := holds _
theorem patternProduct (c : CoreId) (bad : Nat) : Statement (.patternProduct c bad) := holds _
theorem ld (h : Hdr) (t : OTy) (m : MOp) (d : Dst) (base off : SrcD) : Statement (.ld h t m d base off) := holds _
theorem st (h : Hdr) (t : OTy) (m : MOp) (data : Src) (base off : SrcD) : Statement (.st h t m data base off) := holds _
theorem atom (h : Hdr) (op : AtomOp) (wide : Bool) (m : MOp) (d : Dst) (base val : SrcD) : Statement (.atom h op wide m d base val) := holds _
theorem atomn (h : Hdr) (op : AtomOp) (wide : Bool) (m : MOp) (base val : SrcD) : Statement (.atomn h op wide m base val) := holds _
theorem cas (h : Hdr) (wide : Bool) (m : MOp) (d : Dst) (base cn : SrcD) : Statement (.cas h wide m d base cn) := holds _
theorem fence (h : Hdr) (m : MOp) : Statement (.fence h m) := holds _
theorem fenceDone (t : ThreadId) : Statement (.fenceDone t) := holds _
theorem pfen (h : Hdr) (p q : Path) : Statement (.pfen h p q) := holds _
theorem pfenDone (t : ThreadId) : Statement (.pfenDone t) := holds _
theorem lease (h : Hdr) (m : MOp) (d : Dst) (base : SrcD) (disp : Src) : Statement (.lease h m d base disp) := holds _
theorem leaseGrant (t : ThreadId) : Statement (.leaseGrant t) := holds _
theorem leaseDeferredBegin (t : ThreadId) : Statement (.leaseDeferredBegin t) := holds _
theorem leaseExpiry (t : ThreadId) : Statement (.leaseExpiry t) := holds _
theorem nestedLeaseTimeout (t : ThreadId) : Statement (.nestedLeaseTimeout t) := holds _
theorem lrel (h : Hdr) (m : MOp) : Statement (.lrel h m) := holds _
theorem pref (h : Hdr) (lvl : PrefLvl) (m : MOp) (base off : SrcD) : Statement (.pref h lvl m base off) := holds _
theorem cinv (h : Hdr) (m : MOp) (base off : SrcD) : Statement (.cinv h m base off) := holds _
theorem cwb (h : Hdr) (m : MOp) (base off : SrcD) : Statement (.cwb h m base off) := holds _
theorem cpy (h : Hdr) (tok : Nat) (off : SrcD) : Statement (.cpy h tok off) := holds _
theorem cpyi (h : Hdr) (tok : Nat) (off : SrcD) : Statement (.cpyi h tok off) := holds _
theorem engineAccept (op : Nat) : Statement (.engineAccept op) := holds _
theorem copyComplete (op : Nat) : Statement (.copyComplete op) := holds _
theorem engineFaultStop (op : Nat) : Statement (.engineFaultStop op) := holds _
theorem ringProducerResume (op : Nat) : Statement (.ringProducerResume op) := holds _
theorem kvx (h : Hdr) (tok : Nat) (off : SrcD) : Statement (.kvx h tok off) := holds _
theorem kvBlockAck (op : Nat) : Statement (.kvBlockAck op) := holds _
theorem kvNotify (op : Nat) : Statement (.kvNotify op) := holds _
theorem kvxComplete (op : Nat) : Statement (.kvxComplete op) := holds _
theorem kvPeerRefuse (op : Nat) : Statement (.kvPeerRefuse op) := holds _
theorem kvChannelFail (pkg chan : Nat) : Statement (.kvChannelFail pkg chan) := holds _
theorem kvq (h : Hdr) (d : Dst) (chan : SrcD) : Statement (.kvq h d chan) := holds _
theorem kvqRefresh (c : CoreId) : Statement (.kvqRefresh c) := holds _
theorem coll (h : Hdr) (tok : Nat) (off : SrcD) : Statement (.coll h tok off) := holds _
theorem collComplete (grp : Nat) : Statement (.collComplete grp) := holds _
theorem collAbort (grp : Nat) : Statement (.collAbort grp) := holds _
theorem groupBroken (grp : Nat) : Statement (.groupBroken grp) := holds _
theorem cgrpCreate (h : Hdr) (tok : Nat) (off : SrcD) : Statement (.cgrpCreate h tok off) := holds _
theorem cgrpFormed (call : Nat) : Statement (.cgrpFormed call) := holds _
theorem cgrpTimeout (call : Nat) : Statement (.cgrpTimeout call) := holds _
theorem cgrpFree (h : Hdr) (tok : Nat) (hd : SrcD) : Statement (.cgrpFree h tok hd) := holds _
theorem bra (h : Hdr) (disp : Int) : Statement (.bra h disp) := holds _
theorem brx (h : Hdr) (a : SrcD) : Statement (.brx h a) := holds _
theorem call (h : Hdr) (d : Nat) (disp : Int) : Statement (.call h d disp) := holds _
theorem callx (h : Hdr) (d : Nat) (a : SrcD) : Statement (.callx h d a) := holds _
theorem ret (h : Hdr) (a : SrcD) : Statement (.ret h a) := holds _
theorem exit (h : Hdr) : Statement (.exit h) := holds _
theorem enrol (h : Hdr) (m : Nat) : Statement (.enrol h m) := holds _
theorem join (h : Hdr) (m : Nat) : Statement (.join h m) := holds _
theorem strike (h : Hdr) (m : Nat) : Statement (.strike h m) := holds _
theorem bar (h : Hdr) (n : Nat) : Statement (.bar h n) := holds _
theorem yld (h : Hdr) : Statement (.yld h) := holds _
theorem yldExclusionEnd (t : ThreadId) : Statement (.yldExclusionEnd t) := holds _
theorem sigw (h : Hdr) (cc : SigCc) (m : MOp) (d : Dst) (base val : SrcD) : Statement (.sigw h cc m d base val) := holds _
theorem sigwRecheck (t : ThreadId) : Statement (.sigwRecheck t) := holds _
theorem sigs (h : Hdr) (add : Bool) (m : MOp) (base val : SrcD) : Statement (.sigs h add m base val) := holds _
theorem lnch (h : Hdr) (tok : Nat) (off : SrcD) : Statement (.lnch h tok off) := holds _
theorem papp (h : Hdr) (tok : Nat) (hd off : SrcD) : Statement (.papp h tok hd off) := holds _
theorem dqry (h : Hdr) (tok : Nat) (hd off : SrcD) : Statement (.dqry h tok hd off) := holds _
theorem pcls (h : Hdr) (tok : Nat) (hd : SrcD) : Statement (.pcls h tok hd) := holds _
theorem poolAppend (pkg : Nat) : Statement (.poolAppend pkg) := holds _
theorem poolClaim (pkg : Nat) : Statement (.poolClaim pkg) := holds _
theorem poolClose (pkg : Nat) : Statement (.poolClose pkg) := holds _
theorem rgn (h : Hdr) : Statement (.rgn h) := holds _
theorem grow (h : Hdr) (d : Dst) (n : Src) : Statement (.grow h d n) := holds _
theorem shrk (h : Hdr) (d : Dst) (n : Src) : Statement (.shrk h d n) := holds _
theorem srd (h : Hdr) (d : Dst) (n : Nat) : Statement (.srd h d n) := holds _
theorem swi (h : Hdr) (n : Nat) : Statement (.swi h n) := holds _
theorem brk (h : Hdr) (n : Nat) : Statement (.brk h n) := holds _
theorem sysr (h : Hdr) (d : Dst) (r : SysReg) : Statement (.sysr h d r) := holds _
theorem sysw (h : Hdr) (r : SysReg) (a : SrcD) : Statement (.sysw h r a) := holds _
theorem scall (h : Hdr) (n : Nat) : Statement (.scall h n) := holds _
theorem mcall (h : Hdr) (n : Nat) : Statement (.mcall h n) := holds _
theorem eret (h : Hdr) : Statement (.eret h) := holds _
theorem tlbi (h : Hdr) (kind : Nat) (a b : SrcD) : Statement (.tlbi h kind a b) := holds _
theorem tlbiInvalidation (pkg : Nat) (id : Nat) : Statement (.tlbiInvalidation pkg id) := holds _
theorem tlbiDone (id : Nat) : Statement (.tlbiDone id) := holds _
theorem wait (h : Hdr) : Statement (.wait h) := holds _
theorem ctxwReg (h : Hdr) (r : CtxReg) (d : Dst) (a b : SrcD) : Statement (.ctxwReg h r d a b) := holds _
theorem ctxwNew (h : Hdr) (d : Dst) (a b : SrcD) : Statement (.ctxwNew h d a b) := holds _
theorem ctxwDel (h : Hdr) (d : Dst) (a b : SrcD) : Statement (.ctxwDel h d a b) := holds _
theorem ctxwQreg (h : Hdr) (d : Dst) (a b : SrcD) : Statement (.ctxwQreg h d a b) := holds _
theorem ctxwQdel (h : Hdr) (d : Dst) (a b : SrcD) : Statement (.ctxwQdel h d a b) := holds _
theorem ctxwPnew (h : Hdr) (d : Dst) (a b : SrcD) : Statement (.ctxwPnew h d a b) := holds _
theorem ctxwPdel (h : Hdr) (d : Dst) (a b : SrcD) : Statement (.ctxwPdel h d a b) := holds _
theorem ctxwQst (h : Hdr) (d : Dst) (a b : SrcD) : Statement (.ctxwQst h d a b) := holds _
theorem registerWrite (ctx : Nat) (r : CtxReg) (x : Dword) : Statement (.registerWrite ctx r x) := holds _
theorem heatCtlWrite (pkg die : Nat) (x : Word) : Statement (.heatCtlWrite pkg die x) := holds _
theorem resultDelivery (t : ThreadId) : Statement (.resultDelivery t) := holds _
theorem longWaitExpiry (c : CoreId) : Statement (.longWaitExpiry c) := holds _
theorem granuleFill (w : WaveId) (g : Nat) : Statement (.granuleFill w g) := holds _
theorem tokenComplete (op : Nat) : Statement (.tokenComplete op) := holds _
theorem fairnessUrgent (t : ThreadId) : Statement (.fairnessUrgent t) := holds _
theorem trapDelivery (w : WaveId) : Statement (.trapDelivery w) := holds _
theorem trapRecordPost (ctx : Nat) : Statement (.trapRecordPost ctx) := holds _
theorem trapCmdFpc (ctx : Nat) : Statement (.trapCmdFpc ctx) := holds _
theorem trapCmdNpc (ctx : Nat) : Statement (.trapCmdNpc ctx) := holds _
theorem trapCmdRentry (ctx : Nat) : Statement (.trapCmdRentry ctx) := holds _
theorem trapCmdTpc (ctx : Nat) : Statement (.trapCmdTpc ctx) := holds _
theorem trapCmdExit (ctx : Nat) : Statement (.trapCmdExit ctx) := holds _
theorem trapCidxReread (ctx : Nat) : Statement (.trapCidxReread ctx) := holds _
theorem preempt (team : Nat) : Statement (.preempt team) := holds _
theorem restore (ctx : Nat) (image : Nat) : Statement (.restore ctx image) := holds _
theorem spoolFree (ctx image : Nat) : Statement (.spoolFree ctx image) := holds _
theorem ancestorPreempt (team : Nat) : Statement (.ancestorPreempt team) := holds _
theorem rackStop (pkg ctx epoch : Nat) : Statement (.rackStop pkg ctx epoch) := holds _
theorem rackDrainEnd (pkg ctx : Nat) : Statement (.rackDrainEnd pkg ctx) := holds _
theorem stopped (pkg ctx : Nat) : Statement (.stopped pkg ctx) := holds _
theorem stopAckTimeout (pkg ctx : Nat) : Statement (.stopAckTimeout pkg ctx) := holds _
theorem resume (pkg ctx epoch : Nat) : Statement (.resume pkg ctx epoch) := holds _
theorem queuePacketLaunch (q : Nat) : Statement (.queuePacketLaunch q) := holds _
theorem queuePacketWait (q : Nat) : Statement (.queuePacketWait q) := holds _
theorem waitPacketRecheck (q : Nat) : Statement (.waitPacketRecheck q) := holds _
theorem queuePacketSignal (q : Nat) : Statement (.queuePacketSignal q) := holds _
theorem notifyWake (pkg : Nat) : Statement (.notifyWake pkg) := holds _
theorem queueReread (q : Nat) : Statement (.queueReread q) := holds _
theorem queueUnmap (q : Nat) : Statement (.queueUnmap q) := holds _
theorem lotteryDraw (pkg : Nat) : Statement (.lotteryDraw pkg) := holds _
theorem teamPlace (pkg die : Nat) : Statement (.teamPlace pkg die) := holds _
theorem teamSteal (pkg die : Nat) : Statement (.teamSteal pkg die) := holds _
theorem mergeWindowClose (pkg : Nat) (win : Nat) : Statement (.mergeWindowClose pkg win) := holds _
theorem gridRetire (g : Nat) : Statement (.gridRetire g) := holds _
theorem gets (m : Nat) : Statement (.gets m) := holds _
theorem getm (m : Nat) : Statement (.getm m) := holds _
theorem gete (m : Nat) : Statement (.gete m) := holds _
theorem directoryMerge (pkg die line : Nat) : Statement (.directoryMerge pkg die line) := holds _
theorem puts (m : Nat) : Statement (.puts m) := holds _
theorem puto (m : Nat) : Statement (.puto m) := holds _
theorem pack (m : Nat) : Statement (.pack m) := holds _
theorem wbs (m : Nat) : Statement (.wbs m) := holds _
theorem stm (m : Nat) : Statement (.stm m) := holds _
theorem atm (m : Nat) : Statement (.atm m) := holds _
theorem inv (m : Nat) : Statement (.inv m) := holds _
theorem recallS (m : Nat) : Statement (.recallS m) := holds _
theorem recallI (m : Nat) : Statement (.recallI m) := holds _
theorem ack (m : Nat) : Statement (.ack m) := holds _
theorem done (m : Nat) : Statement (.done m) := holds _
theorem probeResend (m : Nat) : Statement (.probeResend m) := holds _
theorem replyTimeout (pkg die line : Nat) : Statement (.replyTimeout pkg die line) := holds _
theorem migrationFreeze (ctx : Nat) (va : Dword) (pkg die frame : Nat) : Statement (.migrationFreeze ctx va pkg die frame) := holds _
theorem migrationCopyDone (mg : Nat) : Statement (.migrationCopyDone mg) := holds _
theorem migrationFlip (mg : Nat) : Statement (.migrationFlip mg) := holds _
theorem openHome (m : Nat) : Statement (.openHome m) := holds _
theorem opened (m : Nat) : Statement (.opened m) := holds _
theorem migrationAbandon (mg : Nat) : Statement (.migrationAbandon mg) := holds _
theorem relay (m : Nat) : Statement (.relay m) := holds _
theorem redirect (m : Nat) : Statement (.redirect m) := holds _
theorem retranslate (m : Nat) : Statement (.retranslate m) := holds _
theorem nothome (m : Nat) : Statement (.nothome m) := holds _
theorem stubRetire (pkg die : Nat) (page : Nat) : Statement (.stubRetire pkg die page) := holds _
theorem retire (m : Nat) : Statement (.retire m) := holds _
theorem confirm (m : Nat) : Statement (.confirm m) := holds _
theorem heatDecay (pkg die : Nat) : Statement (.heatDecay pkg die) := holds _
theorem flitData (pkg port : Nat) : Statement (.flitData pkg port) := holds _
theorem flitIdle (pkg port : Nat) : Statement (.flitIdle pkg port) := holds _
theorem flitNack (pkg port : Nat) : Statement (.flitNack pkg port) := holds _
theorem idleFlitSend (pkg port : Nat) : Statement (.idleFlitSend pkg port) := holds _
theorem nackRepeat (pkg port : Nat) : Statement (.nackRepeat pkg port) := holds _
theorem portRetrain (pkg port : Nat) (failed : Nat) : Statement (.portRetrain pkg port failed) := holds _
theorem e2eDeliver (m : Nat) : Statement (.e2eDeliver m) := holds _
theorem e2eAck (m : Nat) : Statement (.e2eAck m) := holds _
theorem e2eResend (pkg dst cls eseq : Nat) : Statement (.e2eResend pkg dst cls eseq) := holds _
theorem packageLost (pkg : Nat) : Statement (.packageLost pkg) := holds _
theorem quiesceStop (pkg : Nat) : Statement (.quiesceStop pkg) := holds _
theorem quiesceCut (pkg : Nat) : Statement (.quiesceCut pkg) := holds _
theorem quiesceSettle (pkg : Nat) : Statement (.quiesceSettle pkg) := holds _
theorem quiesceSave (pkg : Nat) : Statement (.quiesceSave pkg) := holds _
theorem quiesceRecord (ctx : Nat) : Statement (.quiesceRecord ctx) := holds _
theorem quiesceSweep (pkg : Nat) : Statement (.quiesceSweep pkg) := holds _
theorem quiesceRebuild (pkg : Nat) : Statement (.quiesceRebuild pkg) := holds _
theorem checkpointHandler (ctx : Nat) : Statement (.checkpointHandler ctx) := holds _
theorem machineCheck : Statement .machineCheck := holds _
theorem joinCmd (pkg : Nat) : Statement (.joinCmd pkg) := holds _
theorem writePmap (pkg : Nat) : Statement (.writePmap pkg) := holds _
theorem writeWindow (pkg : Nat) : Statement (.writeWindow pkg) := holds _
theorem leaveCmd (pkg : Nat) : Statement (.leaveCmd pkg) := holds _
theorem quote (pkg : Nat) (nonce : Nat) : Statement (.quote pkg nonce) := holds _
theorem measureExtend (pkg mr : Nat) (digest : Nat) : Statement (.measureExtend pkg mr digest) := holds _
theorem powerOn (pkg : Nat) : Statement (.powerOn pkg) := holds _
theorem packageReset (pkg : Nat) : Statement (.packageReset pkg) := holds _
theorem watchdogExpiry (pkg : Nat) : Statement (.watchdogExpiry pkg) := holds _
theorem lockstepMismatch (pkg : Nat) : Statement (.lockstepMismatch pkg) := holds _
theorem hostEventEntry (c : CoreId) : Statement (.hostEventEntry c) := holds _
theorem fabricPacketDrop (m : Nat) : Statement (.fabricPacketDrop m) := holds _
theorem correctedError (u : EccUnit) (loc : Nat) : Statement (.correctedError u loc) := holds _
theorem selfTestDone (u : EccUnit) (loc : Nat) (fails : Bool) : Statement (.selfTestDone u loc fails) := holds _
theorem uncorrectableError (x : EccHit) : Statement (.uncorrectableError x) := holds _
theorem scrub (pkg die row : Nat) : Statement (.scrub pkg die row) := holds _
theorem scrubRateHalve (pkg die : Nat) : Statement (.scrubRateHalve pkg die) := holds _
theorem pcieInboundWrite (pkg : Nat) (va : Dword) (bytes : List Byte) : Statement (.pcieInboundWrite pkg va bytes) := holds _
theorem mirrorApply (pkg : Nat) : Statement (.mirrorApply pkg) := holds _
theorem grant (m : Nat) : Statement (.grant m) := holds _
theorem recallReply (m : Nat) : Statement (.recallReply m) := holds _
theorem lnchGridAccept (pkg : Nat) : Statement (.lnchGridAccept pkg) := holds _
theorem kvPeerAccess (pkg chan : Nat) (pull : Bool) (va : Dword) (bytes : List Byte) : Statement (.kvPeerAccess pkg chan pull va bytes) := holds _
theorem fabricManagerMessage (pkg : Nat) (msg : Nat) : Statement (.fabricManagerMessage pkg msg) := holds _
theorem trdDelivery (t : ThreadId) : Statement (.trdDelivery t) := holds _
theorem arithmeticClockStep (pkg die : Nat) : Statement (.arithmeticClockStep pkg die) := holds _

end LiteralLength
end Sys2Proof.Laws
end

