-- ==== Sys2Proof/Laws/Solo.lean ====
section
/-! SUPPORT. The words that one thread of a group performs: what they come to, up to the bookkeeping of runs. -/

namespace Sys2Proof.Machine
namespace State

theorem Alike.refl (s : State) : Alike s s := ⟨rfl, fun _ => rfl, fun _ => rfl, fun _ => rfl⟩
theorem Alike.trans {a b c : State} (h : Alike a b) (k : Alike b c) : Alike a c where
  rest := (congrArg (fun x : State => { x with threads := a.threads, waves := a.waves, cores := a.cores }) k.rest).trans h.rest
  threads u := (k.threads u).trans (h.threads u)
  waves u := (k.waves u).trans (h.waves u)
  cores u := (k.cores u).trans (h.cores u)

theorem alike_modThread (s : State) {u : ThreadId} {f : Thread → Thread} (hf : (f (s.thread u)).plain = (s.thread u).plain) : Alike s (s.modThread u f) where
  rest := rfl
  threads x := by rw [thread_modThread]; split <;> simp_all
  waves _ := rfl
  cores _ := rfl
theorem alike_modWave (s : State) {w : WaveId} {f : Wave → Wave} (hf : (f (s.wave w)).plain = (s.wave w).plain) : Alike s (s.modWave w f) where
  rest := rfl
  threads _ := rfl
  waves x := by rw [wave_modWave]; split <;> simp_all
  cores _ := rfl
theorem alike_modCore (s : State) {c : CoreId} {f : CoreSt → CoreSt} (hf : (f (s.core c)).others = (s.core c).others) : Alike s (s.modCore c f) where
  rest := rfl
  threads _ := rfl
  waves _ := rfl
  cores x := by rw [core_modCore]; split <;> simp_all

theorem alike_foldl {α : Type} {F : State → α → State} (l : List α) (s : State) (h : ∀ s, ∀ a ∈ l, Alike s (F s a)) : Alike s (l.foldl F s) := by
  induction l generalizing s with
  | nil => exact Alike.refl s
  | cons a l ih => exact (h s a List.mem_cons_self).trans (ih _ fun s x hx => h s x (List.mem_cons_of_mem _ hx))

theorem alike_present {s t : State} (h : t.present = s.present) : Alike s t where
  rest := by
    have e := congrArg (fun x : State => ({ x with threads := s.threads, waves := s.waves, cores := s.cores } : State)) h
    exact e
  threads u := by rw [present_thread h]
  waves w := by rw [present_wave h]
  cores c := by rw [present_core h]

theorem alike_trackDeps (s s0 : State) (i : Instr) (g : List ThreadId) : Alike s (s.trackDeps s0 i g) := by
  unfold trackDeps
  split
  · exact Alike.refl _
  · refine alike_foldl _ _ fun s t _ => ?_
    obtain ⟨x, hx, h | ⟨ds, h⟩⟩ := trackThread_cases s i s0.nextEv (s0.thread t) t
    · rw [h]; exact alike_present hx
    · rw [h]
      refine (alike_present hx).trans (alike_modThread _ ?_)
      simp only [Thread.plain, List.map_map]
      congr 1
      refine List.map_congr_left fun p _ => ?_
      simp only [Function.comp_apply]
      split <;> rfl

theorem alike_noteUniform (s : State) (i : Instr) (g act : List ThreadId) : Alike s (s.noteUniform i g act) := by
  unfold noteUniform
  refine alike_foldl _ _ fun s w _ => ?_
  refine Alike.trans ?_ (alike_foldl _ _ fun s n _ => alike_modWave _ rfl)
  simp only
  split
  · split
    · exact alike_foldl _ _ fun s n _ => alike_modWave _ rfl
    · exact Alike.refl _
  · split
    · refine alike_foldl _ _ fun s t _ => alike_modThread _ ?_
      simp only [Thread.plain, List.map_map]
      congr 1
      refine List.map_congr_left fun p _ => ?_
      simp only [Function.comp_apply]
      split <;> rfl
    · exact Alike.refl _

theorem alike_leaveHolds (s : State) (c : CoreId) (i : Instr) (g act : List ThreadId) (n : Nat) : Alike s (s.leaveHolds c i g act n) := by
  unfold leaveHolds
  split
  · exact Alike.refl _
  · exact alike_modCore _ rfl

theorem alike_endRun (s : State) (c : CoreId) : Alike s (s.endRun c) := by
  unfold endRun
  exact Alike.trans (alike_foldl _ _ fun s t _ => alike_modThread _ rfl) (alike_modCore _ rfl)

theorem alike_endRunIf (s : State) (l : List ThreadId) : Alike s (s.endRunIf l) := by
  unfold endRunIf
  split
  · exact Alike.refl _
  · exact alike_endRun _ _

theorem alike_endWord (s : State) (g : List ThreadId) (n : Dword) (e : Bool) : Alike s (s.endWord g n e) := by
  unfold endWord
  simp only
  have h := alike_foldl (F := fun s t => s.modThread t Thread.tickWindows) g s fun s t _ => alike_modThread _ rfl
  split
  · exact h.trans (alike_endRun _ _)
  · exact h

/-- What a word leaves behind after its effect is bookkeeping. -/
theorem alike_wound (s : State) (i : Instr) (e : Bool) (x : State) : Alike x (s.wound i e x) :=
  (alike_trackDeps _ _ _ _).trans ((alike_noteUniform _ _ _ _).trans ((alike_leaveHolds _ _ _ _ _ _).trans (alike_endWord _ _ _ _)))

/-- A word that issues at once leaves its effect. -/
theorem alike_issue {s : State} {i : Instr} (h : s.Ready i) (body : State → List ThreadId → Dword → State) (e : Bool) :
    Alike (body (s.begun i) s.group s.wordPc) (s.issue i body e) := by
  rw [issue_ready h]
  exact alike_wound _ _ _ _

/-- A fold in which one member alone has an effect. -/
theorem foldl_one {α : Type} {F : State → α → State} {l : List α} {a : α} (s : State) (hn : l.Nodup) (ha : a ∈ l) (h : ∀ s, ∀ x ∈ l, x ≠ a → F s x = s) :
    l.foldl F s = F s a := by
  induction l generalizing s with
  | nil => cases ha
  | cons x l ih =>
    have hx := List.nodup_cons.mp hn
    rw [List.foldl_cons]
    by_cases e : x = a
    · subst e
      exact foldl_const F _ l fun y hy => h _ y (List.mem_cons_of_mem _ hy) fun e => hx.1 (e ▸ hy)
    · rw [h s x List.mem_cons_self e]
      have ha' : a ∈ l := by rcases List.mem_cons.mp ha with r | r; exact absurd r.symm e; exact r
      exact ih s hx.2 ha' fun s y hy => h s y (List.mem_cons_of_mem _ hy)

theorem activeIn_passes {i : Instr} (hi : i.shape.isSome = true) (th : Thread) : activeIn i th = th.passes (microOf i fun _ => ⟨0, 0⟩).guard := by
  obtain ⟨x, hx⟩ := Option.isSome_iff_exists.mp hi
  have : Instr.guards i = [x.hdr.guard] := by
    revert hx; unfold Instr.guards
    cases i with
    | pairWord a b => intro h; cases h
    | _ => intro h; rw [h]; rfl
  simp [activeIn, this, microOf, hx]

/-- The members of a word once it has begun. -/
theorem members_begun (s : State) (i : Instr) (hn : s.group.Nodup) : (s.begun i).memberVals s.group i = s.memberVals s.group i := by
  unfold memberVals
  refine List.map_congr_left fun t _ => ?_
  simp only [passes_begun s i hn, readOps_congr (reads_begun s i hn t)]

theorem solo_passes {s : State} {i : Instr} {u : ThreadId} (hi : i.shape.isSome = true) (h : s.Solo i u) (t : ThreadId) (ht : t ∈ s.group) :
    (s.thread t).passes (microOf i fun _ => ⟨0, 0⟩).guard = decide (t = u) := by
  rw [← activeIn_passes hi, h.2.2 t ht]

/-- A fold over the members of a word that one thread performs. -/
theorem solo_members {s : State} {i : Instr} {u : ThreadId} (hi : i.shape.isSome = true) (h : s.Solo i u) {β : Type} (G : β → ThreadId → Except Cause (List Dword) → β) (b : β) :
    ((s.begun i).memberVals s.group i).foldl (fun b (x : ThreadId × Bool × Except Cause (List Dword)) => if !x.2.1 then b else G b x.1 x.2.2) b
      = G b u (s.readOps u (srcsOf i)) := by
  have hn := h.1.2.1
  rw [members_begun s i hn]
  unfold memberVals
  rw [List.foldl_map]
  have hl : ∀ (l : List ThreadId) (b : β), l.Nodup → (∀ t ∈ l, t ∈ s.group) →
      l.foldl (fun b t => if !(s.thread t).passes (microOf i fun _ => ⟨0, 0⟩).guard then b else G b t (s.readOps t (microOf i fun _ => ⟨0, 0⟩).srcs)) b
        = if u ∈ l then G b u (s.readOps u (srcsOf i)) else b := by
    intro l
    induction l with
    | nil => intro b _ _; rfl
    | cons a l ih =>
      intro b hn hg
      have hna := List.nodup_cons.mp hn
      rw [List.foldl_cons, solo_passes hi h a (hg a List.mem_cons_self)]
      by_cases e : a = u
      · subst e
        rw [ih _ hna.2 fun t ht => hg t (List.mem_cons_of_mem _ ht)]
        simp [hna.1]; rfl
      · rw [ih _ hna.2 fun t ht => hg t (List.mem_cons_of_mem _ ht)]
        have e' : ¬ u = a := fun h => e h.symm
        simp [e, e']
  simp only
  rw [hl _ b hn fun _ h => h, if_pos h.2.1]

/-- A control word that one thread performs. -/
theorem solo_control {s : State} {i : Instr} {u : ThreadId} {xs : List Dword} (hi : i.shape.isSome = true) (h : s.Solo i u) (hx : s.readOps u (srcsOf i) = .ok xs)
    (f : State → ThreadId → Dword → List Dword → State) (chk : Check) (hc : chk (s.readBy i u) u s.wordPc xs = none) :
    Alike (f (s.readBy i u) u s.wordPc xs) (s.control i f chk) := by
  have e := solo_members hi h (fun (s' : State) t e => match e with
    | .error c => s'.defer t (s'.trapAt t c s.wordPc (s.wordPc + BitVec.ofNat 64 i.size) 0 0 false)
    | .ok xs =>
      match chk (s'.tookReads t (srcsOf i)) t s.wordPc xs with
      | some (c, n, fa) => s'.defer t (s'.trapAt t c s.wordPc (s.wordPc + BitVec.ofNat 64 i.size) n fa false)
      | none => f (s'.tookReads t (srcsOf i)) t s.wordPc xs) (s.begun i)
  have hc' : chk ((s.begun i).tookReads u (srcsOf i)) u s.wordPc xs = none := hc
  simp only [hx, hc'] at e
  have a : Alike _ (s.control i f chk) := alike_issue h.1 _ false
  exact (congrArg (Alike · _) e).mp a

/-- The active members of a word that one thread performs. -/
theorem solo_actives {s : State} {i : Instr} {u : ThreadId} (hi : i.shape.isSome = true) (h : s.Solo i u) :
    ((s.begun i).memberVals s.group i).filter (·.2.1) = [(u, true, s.readOps u (srcsOf i))] := by
  have hn := h.1.2.1
  rw [members_begun s i hn]
  unfold memberVals
  simp only
  rw [List.filter_map]
  have e : s.group.filter ((fun x : ThreadId × Bool × Except Cause (List Dword) => x.2.1) ∘ fun t =>
      (t, (s.thread t).passes (microOf i fun _ => ⟨0, 0⟩).guard, s.readOps t (microOf i fun _ => ⟨0, 0⟩).srcs)) = s.group.filter fun t => t == u := by
    refine List.filter_congr fun t ht => ?_
    simp only [Function.comp_apply]
    rw [solo_passes hi h t ht]; simp [Bool.beq_eq_decide_eq]
  rw [e, List.filter_beq, hn.count, if_pos h.2.1]
  simp only [List.replicate_one, List.map_cons, List.map_nil]
  rw [solo_passes hi h u h.2.1]
  simp only [decide_true]

theorem accessBy_eq (s : State) (i : Instr) (u : ThreadId) :
    ({ s.begun i with wordEv := (s.begun i).nextEv } : State).tookReads u (srcsOf i) = s.accessBy i u := by
  unfold accessBy readBy tookReads
  split <;> rfl

/-- The accesses of a word that one thread performs. -/
theorem solo_accessLanes {s a : State} {i : Instr} {u : ThreadId} {xs : List Dword} {ws : List Word} {fl : Flags} {ld : Option LoadOf} {es : List Nat}
    (hi : i.shape.isSome = true) (h : s.Solo i u)
    (hx : s.readOps u (srcsOf i) = .ok xs) (f : State → ThreadId → List Dword → State × MemOut) (hf : f (s.accessBy i u) u xs = (a, .done ws fl ld es)) :
    (s.begun i).accessLanes i s.group s.wordPc f = landed a i u s.wordPc ws fl ld es := by
  unfold accessLanes
  simp only [solo_actives hi h, List.foldl_cons, List.foldl_nil, List.map_cons, List.map_nil, hx]
  have hf' : f (({ s.begun i with wordEv := (s.begun i).nextEv } : State).tookReads u (srcsOf i)) u xs = (a, .done ws fl ld es) := by
    rw [accessBy_eq]; exact hf
  unfold accessOne landed
  simp only [hf', List.nil_append]
  have hl : lastOfWave [u] u = true := by simp [lastOfWave]
  split
  · simp only [launchAll, List.foldl_cons, List.foldl_nil, hl]
  · rfl

/-- A memory word whose one lane's access is performed. -/
theorem solo_memWord {s a : State} {i : Instr} {u : ThreadId} {xs : List Dword} {ws : List Word} {fl : Flags} {ld : Option LoadOf} {es : List Nat}
    (hi : i.shape.isSome = true) (h : s.Solo i u) (hx : s.readOps u (srcsOf i) = .ok xs) (spc : Space) (addr : List Dword → Dword)
    (f : Dword → State → State → ThreadId → List Dword → State × MemOut) (hf : f s.wordPc (s.begun i) (s.accessBy i u) u xs = (a, .done ws fl ld es)) :
    Alike (landed a i u s.wordPc ws fl ld es) (s.memWordAt i spc addr f) := by
  have hc : lineCost spc ((s.begun i).laneAddrs i s.group addr) = 0 := by
    have hlen : ((s.begun i).laneAddrs i s.group addr).length ≤ 1 := by
      unfold laneAddrs
      refine Nat.le_trans (List.length_filterMap_le _ _) ?_
      rw [solo_actives hi h]
      exact Nat.le_refl _
    unfold lineCost
    split
    · have short (l : List Nat) (hl : l.length ≤ 1) : l.eraseDups.length ≤ 1 := by
        match l, hl with
        | [], _ => simp
        | [_], _ => simp [List.eraseDups_cons]
      have hl := short (((s.begun i).laneAddrs i s.group addr).map fun a => a.toNat / 128) (by rw [List.length_map]; exact hlen)
      omega
    · rfl
  have a' : Alike _ (s.memWordAt i spc addr f) := alike_issue h.1 _ false
  refine (congrArg (Alike · _) ?_).mp a'
  simp only [hc, if_true]
  exact solo_accessLanes hi h hx (f s.wordPc (s.begun i)) hf

/-- The active threads of a word that one thread performs. -/
theorem solo_active {s : State} {i : Instr} {u : ThreadId} (h : s.Solo i u) : (s.group.filter fun t => activeIn i ((s.begun i).thread t)) = [u] := by
  have hf : (s.group.filter fun t => activeIn i ((s.begun i).thread t)) = s.group.filter fun t => t == u := by
    refine List.filter_congr fun t ht => ?_
    have : activeIn i ((s.begun i).thread t) = activeIn i (s.thread t) := by
      unfold activeIn; congr 1; funext g; exact passes_begun s i h.1.2.1 t g
    rw [this, h.2.2 t ht]
    simp [Bool.beq_eq_decide_eq]
  rw [hf, List.filter_beq, h.1.2.1.count, if_pos h.2.1]
  rfl
theorem solo_guard {s : State} {i : Instr} {u : ThreadId} (hi : i.shape.isSome = true) (h : s.Solo i u) :
    (s.group.filter fun t => ((s.begun i).thread t).passes (microOf i fun _ => ⟨0, 0⟩).guard) = [u] := by
  have := solo_active h
  simp only [activeIn_passes hi] at this
  exact this

theorem readOps_begun {s : State} {i : Instr} (h : s.Ready i) (u : ThreadId) (l : List (SrcD × OTy)) : (s.begun i).readOps u l = s.readOps u l :=
  readOps_congr (reads_begun s i h.2.1 u) l

/-- A word performed once per team, by one thread. -/
theorem solo_teamOnce {s : State} {i : Instr} {u : ThreadId} {xs : List Dword} (h : s.Solo i u) (hx : s.readOps u (srcsOf i) = .ok xs)
    (f : State → Nat → ThreadId → List ThreadId → Dword → List Dword → State) :
    Alike (f (s.readBy i u) (s.teamOf u) u [u] s.wordPc xs) (s.teamOnce i f) := by
  have a : Alike _ (s.teamOnce i f) := alike_issue h.1 _ false
  refine (congrArg (Alike · _) ?_).mp a
  simp only [solo_active h]
  have ht : (s.begun i).teamOf u = s.teamOf u := by simp only [teamOf, wave_begun]
  have : (s.begun i).teamsOf [u] = [(s.teamOf u, [u])] := by
    simp [teamsOf, bySlot, bySlot.ins, ht, List.eraseDups_cons]
  rw [this]
  simp only [List.foldl_cons, List.foldl_nil, List.getLast?_singleton]
  rw [readOps_begun h.1, hx]
  rfl

/-- A word whose effect is known up to bookkeeping once it has begun. -/
theorem solo_issue {s x : State} {i : Instr} (h : s.Ready i) (body : State → List ThreadId → Dword → State) (e : Bool)
    (hb : Alike x (body (s.begun i) s.group s.wordPc)) : Alike x (s.issue i body e) := hb.trans (alike_issue h body e)

end State

theorem does_control {i : Instr} {f : State → ThreadId → Dword → List Dword → State} {chk : State.Check} {need : State → ThreadId → Dword → List Dword → Prop}
    {eff : State → ThreadId → Dword → List Dword → State} (hi : i.shape.isSome = true) (he : ∀ s, exec i s = .next (s.control i f chk))
    (hf : ∀ s u pc xs, need s u pc xs → chk s u pc xs = none ∧ State.Alike (eff s u pc xs) (f s u pc xs)) : Spec.Does i need eff := by
  intro s u xs hs hx hn
  obtain ⟨h1, h2⟩ := hf _ _ _ _ hn
  exact ⟨_, he s, h2.trans (State.solo_control hi hs hx f chk h1)⟩

theorem does_teamOnce {i : Instr} {f : State → Nat → ThreadId → List ThreadId → Dword → List Dword → State} {need : State → ThreadId → Dword → List Dword → Prop}
    {eff : State → ThreadId → Dword → List Dword → State} (he : ∀ s, exec i s = .next (s.teamOnce i f))
    (hf : ∀ s u pc xs, need s u pc xs → State.Alike (eff s u pc xs) (f s (s.teamOf u) u [u] pc xs)) : Spec.Does i need eff := by
  intro s u xs hs hx hn
  refine ⟨_, he s, (hf _ _ _ _ hn).trans ?_⟩
  have e : (s.readBy i u).teamOf u = s.teamOf u := by
    unfold State.readBy State.tookReads State.teamOf
    split
    · simp only [State.wave_begun]
    · rw [State.wave_modThread]; simp only [State.wave_begun]
  rw [e]
  exact State.solo_teamOnce hs hx f


namespace State

/-- A `CTXW` command that a thread performs. -/
theorem solo_ctxw {s x : State} {i : Instr} {u : ThreadId} {xs : List Dword} {y : Dword} (hi : i.shape.isSome = true) (h : s.Solo i u) (hx : s.readOps u (srcsOf i) = .ok xs)
    (d : Dst) (f : State → ThreadId → List Dword → State × Except AFault Dword) (hl : 1 ≤ Spec.level (s.readBy i u) u) (hf : f (s.readBy i u) u xs = (x, .ok y)) :
    Alike (x.writeDst u d [lo32 y, hi32 y]) (s.ctxw i d f) := by
  have e := solo_members hi h (fun (s' : State) t e => match e with
    | .error c => s'.defer t (s'.trapAt t c s.wordPc (s.wordPc + BitVec.ofNat 64 i.size) 0 0 false)
    | .ok xs =>
      if priv (s'.host t.wave.core) < 1 then s'.defer t (s'.trapAt t .perm s.wordPc (s.wordPc + BitVec.ofNat 64 i.size) 0 0 false)
      else match f (s'.tookReads t (srcsOf i)) t xs with
        | (s, .ok x) => s.writeDst t d [lo32 x, hi32 x]
        | _ =>
          match f s' t xs with
          | (s', .error (c, n, fa)) => s'.defer t (s'.trapAt t c s.wordPc (s.wordPc + BitVec.ofNat 64 i.size) n fa false)
          | (s', .ok _) => s') (s.begun i)
  have hf' : f ((s.begun i).tookReads u (srcsOf i)) u xs = (x, .ok y) := hf
  have hl' : ¬ priv ((s.begun i).host u.wave.core) < 1 := by
    have e : (s.readBy i u).host = (s.begun i).host := by unfold readBy tookReads; split <;> rfl
    unfold Spec.level at hl
    rw [e] at hl
    omega
  simp only [hx, hf', if_neg hl'] at e
  have a : Alike _ (s.ctxw i d f) := alike_issue h.1 _ false
  exact (congrArg (Alike · _) e).mp a

end State
end Sys2Proof.Machine
end

