-- ==== Sys2Proof/Tests/Slice0.lean ====
section
/-! SUPPORT. The tests: a term that each well-formedness check refuses; words of the spec that decode to the instruction they stand for; results the spec
works out; and for every statement with hypotheses a state and operands that meet them. -/

namespace Sys2Proof.Tests
open Sys2Proof Sys2Proof.Machine

-- one theorem after another: the tests are many and each kernel evaluation wants a deep stack
set_option Elab.async false

/-- No guard, no hold latch, no lookahead. -/
abbrev no : Hdr := ⟨⟨false, 7⟩, none, 0⟩
/-- A v register as a source, not marked dead. -/
abbrev r (n : Nat) : SrcD := ⟨.v n, false⟩
/-- An immediate source. -/
abbrev im (i : Int) : SrcD := ⟨.imm i, false⟩
abbrev c0 : CoreId := ⟨0, 0, 0⟩
abbrev w0 : WaveId := ⟨c0, 0⟩
abbrev t0 : ThreadId := ⟨w0, 0⟩
abbrev t1 : ThreadId := ⟨w0, 1⟩
/-- Host core 0 of package 0 and its thread. -/
abbrev k0 : CoreId := ⟨0, 8, 0⟩
abbrev th0 : ThreadId := hostThread k0
/-- One lane of context 1 at a word, its page readable, writable and executable. -/
def lane : State := State.reset.placeLane []
/-- A host core at a word, at monitor level. -/
def host : State := State.reset.placeHost []
/-- The lane with values in its v registers. -/
def laneV (xs : List (Nat × Word)) : State := lane.modThread t0 fun th => { th with v := xs }
def hostV (xs : List (Nat × Word)) : State := host.modThread th0 fun th => { th with v := xs }
def onThread (f : Thread → Thread) : State := lane.modThread t0 f

-- the well-formedness checks (Table 3.8), one ill-formed term each

theorem smoke_ok : (Instr.iadd no .i32 false (.v 2) (r 3) (im 1)).wf = true := by decide
/-- The guard p7 inverted is ILLOP (R56). -/
theorem smoke_guard : (Instr.iadd ⟨⟨true, 7⟩, none, 0⟩ .i32 false (.v 2) (r 3) (im 1)).wf = false := by decide
/-- A predicate number above 7 has no PRED code (R56). -/
theorem smoke_predicate : (Instr.bra ⟨⟨false, 8⟩, none, 0⟩ 0).wf = false := by decide
/-- A hold latch on an s destination is ILLOP (R65). -/
theorem smoke_hold : (Instr.sadd ⟨⟨false, 7⟩, some 0, 0⟩ .i32 false (.s 2) (im 3) (im 1)).wf = false := by decide
/-- There is no latch h3 (R65). -/
theorem smoke_latch : (Instr.iadd ⟨⟨false, 7⟩, some 3, 0⟩ .i32 false (.v 2) (r 3) (im 1)).wf = false := by decide
/-- h2 holds no 64-bit result (R65). -/
theorem smoke_wide_latch : (Instr.iadd ⟨⟨false, 7⟩, some 2, 0⟩ .i64 false (.v 2) (r 4) (im 1)).wf = false := by decide
/-- A lookahead stands on a long-latency word only (R67). -/
theorem smoke_lookahead : (Instr.iadd ⟨⟨false, 7⟩, none, 1⟩ .i32 false (.v 2) (r 3) (im 1)).wf = false := by decide
/-- A lookahead is at most 15 (R67). -/
theorem smoke_lookahead_range : (Instr.frcp ⟨⟨false, 7⟩, none, 16⟩ (.v 2) (r 3)).wf = false := by decide
/-- A type outside the opcode's list is ILLOP (R57). -/
theorem smoke_type : (Instr.sadd no .i8 false (.s 2) (im 3) (im 1)).wf = false := by decide
/-- An opcode's own condition: a truth table has four bits (R153). -/
theorem smoke_truth_table : (Instr.plop no 0 1 2 16).wf = false := by decide
/-- A displacement has 27 bits (R355). -/
theorem smoke_displacement : (Instr.bra no (2 ^ 26)).wf = false := by decide
/-- v256 does not exist: ILLOPD (R58). -/
theorem smoke_register : (Instr.iadd no .i32 false (.v 256) (r 3) (im 1)).wf = false := by decide
/-- An odd register of a 64-bit value is ILLOPD (R28). -/
theorem smoke_alignment : (Instr.iadd no .i64 false (.v 3) (r 4) (im 1)).wf = false := by decide
/-- A destination of the scalar unit is no v register (R179). -/
theorem smoke_scalar_destination : (Instr.sadd no .i32 false (.v 2) (im 3) (im 1)).wf = false := by decide
/-- The scalar unit reads no v register (R179). -/
theorem smoke_scalar_source : (Instr.sadd no .i32 false (.s 2) (r 3) (im 1)).wf = false := by decide
/-- An immediate lies in −64 … 63 (Table 3.5). -/
theorem smoke_immediate : (Instr.iadd no .i32 false (.v 2) (r 3) (im 64)).wf = false := by decide
/-- A literal of a 16-bit type has 16 bits (Table 3.6). -/
theorem smoke_literal : (Instr.iadd no .i16 false (.v 2) (r 3) ⟨.lit 0x10000, false⟩).wf = false := by decide
/-- A dead mark stands on a v register only (R66). -/
theorem smoke_dead : (Instr.iadd no .i32 false (.v 2) (r 3) ⟨.imm 1, true⟩).wf = false := by decide
/-- The literal fields of a word share one value (R62). -/
theorem smoke_literals : (Instr.iadd no .i32 false (.v 2) ⟨.lit 1, false⟩ ⟨.lit 2, false⟩).wf = false := by decide
/-- A count of GROW is a multiple of 8 from 8 to 248 (R370). -/
theorem smoke_grow : (Instr.grow no (.v 2) (.imm 4)).wf = false := by decide
/-- The spans of MXR do not overlap (R222). -/
theorem smoke_spans : (Instr.mxr no .bf16 .bf16 false 4 4 8 false false).wf = false := by decide
/-- Both halves of a pair write one register: ILLOP (R69). -/
theorem smoke_pair_destination :
    (Instr.pairWord (some ⟨.fmulF32, ⟨false, 7⟩, 4, r 5, none⟩) (some ⟨.iadd, ⟨false, 7⟩, 4, im 1, none⟩)).wf = false := by decide
/-- Two registers of a pair in one bank: PAIRBANK (R70). -/
theorem smoke_pair_bank :
    (Instr.pairWord (some ⟨.fmulF32, ⟨false, 7⟩, 4, r 8, none⟩) (some ⟨.iadd, ⟨false, 7⟩, 10, im 1, none⟩)).check = some .pairbank := by decide
/-- A pair half in the other half’s pipe (R69). -/
theorem smoke_pair_pipe : (Instr.pairWord (some ⟨.iadd, ⟨false, 7⟩, 4, r 5, none⟩) none).wf = false := by decide
/-- A word of an assigned opcode is no unassigned word (R73). -/
theorem smoke_unassigned : (Instr.unassignedOpcode 0x002E0201FFC00000).wf = false := by decide

-- decoding: words and assembly of the spec's examples

/-- 03: IADD.i32 v2, v3, LIT with its literal word. -/
theorem decode_literal : decode 0x002E0201D4000000 (some 0xC000000012345678)
    = .ok (.iadd no .i32 false (.v 2) (r 3) ⟨.lit 0x12345678, false⟩) := by decide +kernel
/-- 03: `!p1 FFMA.f32 v8:h0, v4, v12!, v13`. -/
theorem decode_ffma : decode 0x087208020301AA00 none = .ok (.ffma ⟨⟨true, 1⟩, some 0, 0⟩ .f32 .rne (.v 8) (r 4) ⟨.v 12, true⟩ (r 13)) := by decide +kernel
/-- 03: `FMUL.f32 v4, v5 || IADD.i32 v10, 1`. -/
theorem decode_pair : decode 0x4181014040057480 none
    = .ok (.pairWord (some ⟨.fmulF32, ⟨false, 7⟩, 4, r 5, none⟩) (some ⟨.iadd, ⟨false, 7⟩, 10, im 1, none⟩)) := by decide +kernel
/-- 03: NOP, the pair of PNOP halves, and the word of zeros (ILLOP). -/
theorem decode_nop : decode 0x000E000000000000 none = .ok .nop ∧ decode 0x4000000000000000 none = .ok (.pairWord none none)
    ∧ decode 0 none = .bad .illop 8 := by decide +kernel
/-- 04: OCL o3, v17. -/
theorem decode_ocl : decode 0x04AE000880000003 none = .ok (.ocl no 3 17 false) := by decide +kernel
/-- 05: IADD.i32 v2, v3, 63. -/
theorem decode_immediate : decode 0x002E0201FFC00000 none = .ok (.iadd no .i32 false (.v 2) (r 3) (im 63)) := by decide +kernel
/-- 07: CVT.e4m3.f32.sat v6, v7. -/
theorem decode_cvt : decode 0x0A0E060380358000 none = .ok (.cvt no .rne true .e4m3 .f32 (.v 6) (r 7)) := by decide +kernel
/-- 09: TRSV v5, b1, s20 and ?p3 MMA s10, s12. -/
theorem decode_matrix : decode 0x200E058A00000001 none = .ok (.trsv no (.v 5) 1 20)
    ∧ decode 0x21070A8600000000 none = .ok (.mma ⟨⟨false, 3⟩, none, 0⟩ 10 ⟨.s 12, false⟩) := by decide +kernel
/-- 12: LD.b32 v6, [v2+16] la=3 and ST.rel.rack.b32 [v2+s9], v7. -/
theorem decode_memory : decode 0x280E060174000038 none = .ok (.ld ⟨⟨false, 7⟩, none, 3⟩ .b32 ⟨.g, .rlx, none, false⟩ (.v 6) (r 2) (im 16))
    ∧ decode 0x282E070142760008 none = .ok (.st no .b32 ⟨.g, .rel, some .rack, true⟩ (.v 7) (r 2) ⟨.s 9, false⟩) := by decide +kernel
/-- 15, Table 15.2: ENROL, two BRA, EXIT and JOIN. -/
theorem decode_control : decode 0x390E000000000001 none = .ok (.enrol no 1) ∧ decode 0x3800000000008000 none = .ok (.bra ⟨⟨false, 0⟩, none, 0⟩ 4)
    ∧ decode 0x380E000000008000 none = .ok (.bra no 4) ∧ decode 0x38A2000000000000 none = .ok (.exit ⟨⟨false, 1⟩, none, 0⟩)
    ∧ decode 0x392E000000000001 none = .ok (.join no 1) := by decide +kernel
/-- 19: acquire load and release store in the team’s scratchpad, YLD, and BRA spin with d = −4. -/
theorem decode_handshake : decode 0x280E0A0470052008 none = .ok (.ld no .b32 ⟨.l, .acq, some .core, false⟩ (.v 10) (r 8) (im 0))
    ∧ decode 0x282E000470062008 none = .ok (.st no .b32 ⟨.l, .rel, some .core, false⟩ (.v 0) (r 8) (im 0))
    ∧ decode 0x398E000000000000 none = .ok (.yld no) ∧ decode 0x380E00FFFFFF8000 none = .ok (.bra no (-4)) := by decide +kernel
/-- 20: LEASE.rlx.die v17, [v2], lfail; ATOMN.add.rel.die.n32 [v6], 1; ?p3 CINV [v2]. -/
theorem decode_directory : decode 0x28EE110172880000 none = .ok (.lease no ⟨.g, .rlx, some .die, false⟩ (.v 17) (r 2) (.imm 10))
    ∧ decode 0x286E0003704A0000 none = .ok (.atomn no .add false ⟨.g, .rel, some .die, false⟩ (r 6) (im 1))
    ∧ decode 0x2946000170000000 none = .ok (.cinv ⟨⟨false, 3⟩, none, 0⟩ ⟨.g, .rlx, none, false⟩ (r 2) (im 0)) := by decide +kernel
/-- 21: ST.b32 [v2+v0*4], v8; BAR 0; ?p2 ST.rel.rack.b64 [v4], 1; SIGW.ge.acq.rack v10, [v4], 1. -/
theorem decode_cross_tray : decode 0x282E080100200008 none = .ok (.st no .b32 ⟨.g, .rlx, none, true⟩ (.v 8) (r 2) (r 0))
    ∧ decode 0x396E000000000000 none = .ok (.bar no 0)
    ∧ decode 0x2825C10270160009 none = .ok (.st ⟨⟨false, 2⟩, none, 0⟩ .b64 ⟨.g, .rel, some .rack, false⟩ (.imm 1) (r 4) (im 0))
    ∧ decode 0x39AE0A0270550000 none = .ok (.sigw no .ge ⟨.g, .acq, some .rack, false⟩ (.v 10) (r 4) (im 1)) := by decide +kernel
/-- 22: LD.w.b32 v36:h0, [v34+s9] la=2; FRSQ.f32 vz:h1, v39! la=1; SLEA.n32 s12, [s10+s8*16]; BRX s12; BCST.b32 vz:h0, o0, 5; ?p1 FFMA.f32 v5, h0, o1, v5. -/
theorem decode_cholesky : decode 0x280E241142408828 none
      = .ok (.ld ⟨⟨false, 7⟩, some 0, 2⟩ .b32 ⟨.w, .rlx, none, false⟩ (.v 36) (r 34) ⟨.s 9, false⟩)
    ∧ decode 0x102F4B1380001410 none = .ok (.frsq ⟨⟨false, 7⟩, some 1, 1⟩ .vz ⟨.v 39, true⟩)
    ∧ decode 0x19CF0C854238000C none = .ok (.slea no true 4 (.s 12) ⟨.s 10, false⟩ ⟨.s 8, false⟩ (im 0))
    ∧ decode 0x382E008600000000 none = .ok (.brx no ⟨.s 12, false⟩)
    ∧ decode 0x148F4BA071400808 none = .ok (.bcst ⟨⟨false, 7⟩, some 0, 0⟩ .b32 .vz ⟨.o 0, false⟩ (im 5))
    ∧ decode 0x086205A45040A000 none = .ok (.ffma ⟨⟨false, 1⟩, none, 0⟩ .f32 .rne (.v 5) ⟨.h 0, false⟩ ⟨.o 1, false⟩ (r 5)) := by decide +kernel
/-- 23: DQRY s20, v2, s23; MMA s21, 0; ACCST.g [v32], a0, 1792 with its literal word. -/
theorem decode_tile_grid : decode 0x3A4F140145C00000 none = .ok (.dqry no 20 (r 2) ⟨.s 23, false⟩)
    ∧ decode 0x210F15E000000000 none = .ok (.mma no 21 (im 0))
    ∧ decode 0x224E001054002000 (some 0xC000000000000700) = .ok (.accst no true 0 (r 32) ⟨.lit 0x700, false⟩) := by decide +kernel
/-- 24: LEASE.acq.rack v9, [v6], lost; LREL.rel.rack; BRA again with d = −13. -/
theorem decode_migration : decode 0x28EE090373950000 none = .ok (.lease no ⟨.g, .acq, some .rack, false⟩ (.v 9) (r 6) (.imm 14))
    ∧ decode 0x290E000000160000 none = .ok (.lrel no ⟨.g, .rel, some .rack, false⟩)
    ∧ decode 0x380E00FFFFFE6000 none = .ok (.bra no (-13)) := by decide +kernel
/-- Words put together from Tables 12.1, 15.1 and 3.2: CPY s8, 0 (OPC 0x150, DST 264, SA 448); ERET (OPC 0x1E4); WAIT (OPC 0x1E6);
PFEN and FENCE are in the obligations; RGN (OPC 0x1D4); SCALL 5 (OPC 0x1E2, EMOD 5); KVX s8, 0 (OPC 0x154). -/
theorem decode_system : decode 0x2A0F08E000000000 none = .ok (.cpy no 8 (im 0)) ∧ decode 0x2A8F08E000000000 none = .ok (.kvx no 8 (im 0))
    ∧ decode 0x3C8E000000000000 none = .ok (.eret no)
    ∧ decode 0x3CCE000000000000 none = .ok (.wait no) ∧ decode 0x3A8E000000000000 none = .ok (.rgn no)
    ∧ decode 0x3C4E00000000A000 none = .ok (.scall no 5) := by decide +kernel
/-- Words of kind 10 and 11 and of an unassigned opcode (0x00C) have no opcode: an instruction of its own, which traps ILLOP. A word that wants a literal
traps when the word after it is no literal word. -/
theorem decode_unassigned : decode 0x8000000000000000 none = .ok (.unassignedOpcode 0x8000000000000000)
    ∧ decode 0xC000000000000040 none = .ok (.unassignedOpcode 0xC000000000000040) ∧ decode 0x018E000000000000 none = .ok (.unassignedOpcode 0x018E000000000000)
    ∧ (Instr.unassignedOpcode 0x018E000000000000).check = some .illop := by decide +kernel
theorem decode_no_literal : decode 0x002E0201D4000000 (some 0x000E000000000000) = .bad .illopd 8 := by decide +kernel
/-- A word of the table is laid out with its first byte at the lowest address. -/
theorem decode_table_word : decodeTableWord 64 0x002E0201FFC00000 = some (.iadd no .i32 false (.v 2) (r 3) (im 63)) := by decide +kernel

-- results the spec works out

/-- A register of the thread after an instruction, and the thread’s flags. -/
def outV (o : Host.Outcome State Fault Refusal) (n : Nat) : Option Word := match o with | .next s => some (Map.getD (s.thread t0).v n 0) | _ => none
def outS (o : Host.Outcome State Fault Refusal) (n : Nat) : Option Word := match o with | .next s => some (Map.getD (s.wave w0).s n 0) | _ => none
def outF (o : Host.Outcome State Fault Refusal) : Option Flags := match o with | .next s => some (s.thread t0).flags | _ => none
def outP (o : Host.Outcome State Fault Refusal) : Option (BitVec 7) := match o with | .next s => some (s.thread t0).preds | _ => none
def outPc (o : Host.Outcome State Fault Refusal) : Option Dword := match o with | .next s => some (s.thread t0).pc | _ => none

/-- 07: IMULH in both signednesses. -/
theorem test_imulh : outV (exec (.imulh no .n32 (.v 2) (r 3) (im 2)) (laneV [(3, 0xFFFFFFFF)])) 2 = some 1
    ∧ outV (exec (.imulh no .i32 (.v 2) (r 3) (im 2)) (laneV [(3, 0xFFFFFFFF)])) 2 = some 0xFFFFFFFF := by decide +kernel
/-- 07: IABS of −2^31 with and without .sat. -/
theorem test_iabs : outV (exec (.iabs no .i32 false (.v 2) (r 3)) (laneV [(3, 0x80000000)])) 2 = some 0x80000000
    ∧ outF (exec (.iabs no .i32 true (.v 2) (r 3)) (laneV [(3, 0x80000000)])) = some Flag.isat := by decide +kernel
/-- 07: INEG.n32.sat gives 0 for a nonzero a and sets ISAT. -/
theorem test_ineg : outV (exec (.ineg no .n32 true (.v 2) (r 3)) (laneV [(3, 7)])) 2 = some 0
    ∧ outF (exec (.ineg no .n32 true (.v 2) (r 3)) (laneV [(3, 7)])) = some Flag.isat := by decide +kernel
/-- R146: a sum wraps; the write is to the destination. -/
theorem test_iadd : outV (exec (.iadd no .i32 false (.v 2) (r 2) (im (-1))) (laneV [(2, 0)])) 2 = some 0xFFFFFFFF
    ∧ outV (exec (.iadd no .n32 true (.v 2) (r 2) (r 3)) (laneV [(2, 0xFFFFFFFF), (3, 2)])) 2 = some 0xFFFFFFFF := by decide +kernel
/-- R146: ISUB subtracts b from a, and IMAD adds c. -/
theorem test_isub_imad : outV (exec (.isub no .i32 false (.v 2) (r 3) (r 4)) (laneV [(3, 3), (4, 5)])) 2 = some 0xFFFFFFFE
    ∧ outV (exec (.imad no .i32 (.v 2) (r 3) (r 4) (r 5)) (laneV [(3, 3), (4, 5), (5, 7)])) 2 = some 22 := by decide +kernel
/-- R146: signed and unsigned minimum and maximum. -/
theorem test_imin_imax : outV (exec (.imin no .i32 (.v 2) (r 3) (r 4)) (laneV [(3, 0xFFFFFFFF), (4, 5)])) 2 = some 0xFFFFFFFF
    ∧ outV (exec (.imax no .n32 (.v 2) (r 3) (r 4)) (laneV [(3, 0xFFFFFFFF), (4, 5)])) 2 = some 0xFFFFFFFF := by decide +kernel
/-- 07: BYSEL. -/
theorem test_bysel : outV (exec (.bysel no (.v 2) (r 3) (r 4) (r 5)) (laneV [(3, 0x44332211), (4, 0x88776655), (5, 0x000C0E68)])) 2 = some 0x77226611 := by
  decide +kernel
/-- R153: the truth table of AND. -/
theorem test_plop : outP (exec (.plop no 0 1 2 8) (onThread fun th => { th with preds := 6 })) = some 7
    ∧ outP (exec (.plop no 0 1 2 8) (onThread fun th => { th with preds := 4 })) = some 4 := by decide +kernel
/-- 06: 300 to `.i8` with and without .sat, and −5 to `.n32`. -/
theorem test_cvt_integers : outV (exec (.cvt no .rne false .i8 .i32 (.v 2) (r 3)) (laneV [(3, 300)])) 2 = some 0x2C
    ∧ outV (exec (.cvt no .rne true .i8 .i32 (.v 2) (r 3)) (laneV [(3, 300)])) 2 = some 0x7F
    ∧ outV (exec (.cvt no .rne false .n32 .i32 (.v 2) (r 3)) (laneV [(3, 0xFFFFFFFB)])) 2 = some 0xFFFFFFFB
    ∧ outV (exec (.cvt no .rne true .n32 .i32 (.v 2) (r 3)) (laneV [(3, 0xFFFFFFFB)])) 2 = some 0 := by decide +kernel
/-- 06: `.f32` to `.bf16` at a tie, by mode. -/
theorem test_cvt_tie : roundTo .rne false .bf16 ⟨false, 0x808000, -23⟩ = (0x3F80, Flag.nx) ∧ roundTo .rne false .bf16 ⟨false, 0x818000, -23⟩ = (0x3F82, Flag.nx)
    ∧ roundTo .ru false .bf16 ⟨false, 0x808000, -23⟩ = (0x3F81, Flag.nx) ∧ roundTo .rz false .bf16 ⟨false, 0x818000, -23⟩ = (0x3F81, Flag.nx) := by decide +kernel
/-- 06: 465.0 to `.e4m3` with .sat (also the example of 07), 0.001 to `.e4m3`, and 7.0 to `.e2m1`. -/
theorem test_cvt_narrow : outV (exec (.cvt no .rne true .e4m3 .f32 (.v 6) (r 7)) (laneV [(7, 0x43E88000)])) 6 = some 0x7E
    ∧ outF (exec (.cvt no .rne true .e4m3 .f32 (.v 6) (r 7)) (laneV [(7, 0x43E88000)])) = some (Flag.of ||| Flag.nx)
    ∧ outV (exec (.cvt no .rne false .e4m3 .f32 (.v 6) (r 7)) (laneV [(7, 0x3A83126F)])) 6 = some 1
    ∧ outV (exec (.cvt no .rne false .e2m1 .f32 (.v 6) (r 7)) (laneV [(7, 0x40E00000)])) 6 = some 7 := by decide +kernel
/-- R159: an exact infinity is not saturated; R157: 1.5 + 2.25. -/
theorem test_fadd : outV (exec (.fadd no .f32 .rne true (.v 2) (r 3) (r 4)) (laneV [(3, 0x7F800000), (4, 0x3F800000)])) 2 = some 0x7F800000
    ∧ outV (exec (.fadd no .f32 .rne false (.v 2) (r 3) (r 4)) (laneV [(3, 0x3FC00000), (4, 0x40100000)])) 2 = some 0x40700000 := by decide +kernel
/-- R161: FFMA rounds once: (1 + 2^−23)² − (1 + 2^−22) = 2^−46. -/
theorem test_ffma : outV (exec (.ffma no .f32 .rne (.v 2) (r 3) (r 3) (r 4)) (laneV [(3, 0x3F800001), (4, 0xBF800002)])) 2 = some 0x28800000 := by decide +kernel
/-- R164: −0.4 gives −0 under RNE and −1.0 under `.rd`. -/
theorem test_frnd : outV (exec (.frnd no .f32 .rne (.v 2) (r 3)) (laneV [(3, 0xBECCCCCD)])) 2 = some 0x80000000
    ∧ outV (exec (.frnd no .f32 .rd (.v 2) (r 3)) (laneV [(3, 0xBECCCCCD)])) 2 = some 0xBF800000 := by decide +kernel
/-- R181, 07: SADD counts in an s register. -/
theorem test_sadd : outS (exec (.sadd no .i32 false (.s 8) ⟨.s 8, false⟩ (im 1)) lane) 8 = some 1 := by decide +kernel
/-- R355: the displacement counts words from the branch. -/
theorem test_bra : outPc (exec (.bra no (-4)) lane) = some (State.placedPc - 32) ∧ outPc (exec (.bra ⟨⟨false, 0⟩, none, 0⟩ 4) lane) = some (State.placedPc + 8) := by
  decide +kernel
/-- 13: H(5), and 14: three draws of a context with SCHED_SEED = 1. -/
theorem test_placement : hashH 5 = 0x17142C ∧ State.xorshift 1 = 0x00042021 ∧ State.xorshift 0x00042021 = 0x04080601 ∧ State.xorshift 0x04080601 = 0x9DCCA8C5 := by decide
/-- 14: the winner of the third draw is slot 12. -/
theorem test_draw : State.drawWinner 616 [(3, { tickets := 100 }), (7, { tickets := 300 }), (12, { tickets := 600 })] 0 = some 12
    ∧ State.drawWinner 15 [(3, { tickets := 100 }), (7, { tickets := 300 }), (12, { tickets := 600 })] 0 = some 3 := by decide
/-- The 32 values of the example of 06: 10.0, 1.2, −0.3 and zeros. -/
def blockValues : List FVal := [0x41200000, 0x3F99999A, 0xBE99999A].map (fdecode .f32) ++ List.replicate 29 (fdecode .f32 0)
/-- 06: one `.mx4` block under each scale kind. -/
theorem test_block : blockOf false .e2m1 blockValues = (0x80, [6, 1, 8] ++ List.replicate 29 0, Flag.nx)
    ∧ blockOf true .e2m1 blockValues = (0x1FF, [7, 1, 8] ++ List.replicate 29 0, Flag.nx) := by decide +kernel
/-- 06: the `.bpi4` tensor 5, −3, −8 in full and read to two planes. -/
theorem test_bpi : (List.range 3).map (bpiValue ([6] ++ List.replicate 7 0 ++ [3] ++ List.replicate 15 0 ++ [3] ++ List.replicate 7 0) 4 4) = [5, -3, -8]
    ∧ (List.range 3).map (bpiValue ([6] ++ List.replicate 7 0 ++ [3] ++ List.replicate 15 0 ++ [3] ++ List.replicate 7 0) 4 2) = [4, -4, -8] := by decide +kernel
/-- 08: a group whose scaled sum is a tie at 2^24 leaves the accumulator. -/
theorem test_group : (fpStep false false [(.fin ⟨false, 2, 0⟩, .fin ⟨false, 1, 0⟩)] (.fin ⟨false, 1, -1⟩) (.fin ⟨false, 1, 0⟩) 0x4B800000).1 = 0x4B800000 := by
  decide +kernel


/-- Tests of a pair whose second part is an answer: it is good, or an error, and meets a test. -/
def okB {α ε β : Type} (R : α × Except ε β) (p : α → β → Bool) : Bool := match R.2 with | .ok b => p R.1 b | .error _ => false
def errB {α ε β : Type} (R : α × Except ε β) (p : α → ε → Bool) : Bool := match R.2 with | .ok _ => false | .error e => p R.1 e
def okE {ε β : Type} (R : Except ε β) (p : β → Bool) : Bool := match R with | .ok b => p b | .error _ => false
def errE {ε β : Type} (R : Except ε β) (p : ε → Bool) : Bool := match R with | .ok _ => false | .error e => p e
def isB {β : Type} (R : Option β) (p : β → Bool) : Bool := R.elim false p
theorem okB_iff {α ε β : Type} {R : α × Except ε β} {p : α → β → Bool} (h : okB R p = true) : ∃ a b, R = (a, .ok b) ∧ p a b = true := by
  obtain ⟨a, x⟩ := R
  cases x with
  | ok b => exact ⟨a, b, rfl, h⟩
  | error e => exact absurd h (by simp [okB])
theorem errB_iff {α ε β : Type} {R : α × Except ε β} {p : α → ε → Bool} (h : errB R p = true) : ∃ a e, R = (a, .error e) ∧ p a e = true := by
  obtain ⟨a, x⟩ := R
  cases x with
  | ok b => exact absurd h (by simp [errB])
  | error e => exact ⟨a, e, rfl, h⟩
theorem okE_iff {ε β : Type} {R : Except ε β} {p : β → Bool} (h : okE R p = true) : ∃ b, R = .ok b ∧ p b = true := by
  cases R with
  | ok b => exact ⟨b, rfl, h⟩
  | error e => exact absurd h (by simp [okE])
theorem errE_iff {ε β : Type} {R : Except ε β} {p : ε → Bool} (h : errE R p = true) : ∃ b, R = .error b ∧ p b = true := by
  cases R with
  | ok b => exact absurd h (by simp [errE])
  | error e => exact ⟨e, rfl, h⟩
theorem isB_iff {β : Type} {R : Option β} {p : β → Bool} (h : isB R p = true) : ∃ b, R = some b ∧ p b = true := by
  cases R with
  | some b => exact ⟨b, rfl, h⟩
  | none => exact absurd h (by simp [isB])

-- witnesses: for each statement, states and operands that meet its hypotheses, clause by clause

/-- The hypotheses of a word that one thread performs, with what it needs of the state. -/
def Can (i : Instr) (s : State) (u : ThreadId) (xs : List Dword) (need : State → ThreadId → Dword → List Dword → Prop) : Prop :=
  s.Solo i u ∧ s.readOps u (State.srcsOf i) = .ok xs ∧ need (s.readBy i u) u s.wordPc xs
/-- The same for a word that leaves what it finds. -/
def CanLeave (i : Instr) (s : State) (u : ThreadId) (xs : List Dword) (rel : State → ThreadId → Dword → List Dword → State → Prop) : Prop :=
  s.Solo i u ∧ s.readOps u (State.srcsOf i) = .ok xs ∧ ∃ x, rel (s.readBy i u) u s.wordPc xs x
/-- A word of a table can issue with readable sources. -/
def CanLane (op : Instr → Option (Thread → List Dword → Res)) (i : Instr) (s : State) : Prop :=
  ∃ f, op i = some f ∧ s.Ready i ∧ s.Readable (fun th => [microOf i (f th)])

theorem wit_IntegerRules : CanLane Spec.intOp (.imad no .n8 (.s 3) (r 0) ⟨.v 1, true⟩ (im (-256))) lane ∧ OTy.i8 ∈ [OTy.i8, .n8, .i16, .n16, .i32, .n32, .i64, .n64] :=
  ⟨⟨_, rfl, by decide +kernel, by decide +kernel⟩, by decide⟩
theorem wit_BitRules : CanLane Spec.bitOp (.bfi no .b64 (.v 2) (r 0) (r 4) (r 1)) lane ∧ (0xFFFFFFFFFFFFFFFF : Dword).toNat < 2 ^ OTy.b64.width
    ∧ (0xFFFFFFFF : Dword).toNat < 2 ^ OTy.n32.width ∧ lane.readOp t0 (.imm (-1)) .b32 = .ok 0xFFFFFFFF :=
  ⟨⟨_, rfl, by decide +kernel, by decide +kernel⟩, by decide +kernel, by decide +kernel, rfl⟩
theorem wit_MoveAndScalarWords : CanLane Spec.moveOp (.icmp no .lt .i32 6 (r 0) (r 1)) lane ∧ CanLane Spec.scalarOp (.sadd no .i64 true (.s 62) ⟨.s 2, false⟩ ⟨.s 4, false⟩) lane :=
  ⟨⟨_, rfl, by decide +kernel, by decide +kernel⟩, ⟨_, rfl, by decide +kernel, by decide +kernel⟩⟩
theorem wit_FloatWords : CanLane Spec.floatOp (.cvt no .rz true .e4m3 .f32 (.v 255) (r 0)) lane := ⟨_, rfl, by decide +kernel, by decide +kernel⟩
theorem wit_PackAndPairWords :
    (lane.Ready (.cvpk no .rne false .f16 0 (.v 0) (r 1) (r 2)) ∧ lane.Readable (fun _ => [cvpkMicro no .rne false .f16 0 (.v 0) (r 1) (r 2)]))
    ∧ (Instr.pairWord (some ⟨.fmulF32, ⟨false, 7⟩, 4, r 5, none⟩) (some ⟨.iadd, ⟨false, 7⟩, 10, im 1, none⟩)).wf = true
    ∧ lane.Ready (.pairWord (some ⟨.fmulF32, ⟨false, 7⟩, 4, r 5, none⟩) (some ⟨.iadd, ⟨false, 7⟩, 10, im 1, none⟩))
    ∧ lane.Readable (Spec.halves (some ⟨.fmulF32, ⟨false, 7⟩, 4, r 5, none⟩) (some ⟨.iadd, ⟨false, 7⟩, 10, im 1, none⟩)) := by decide +kernel
theorem wit_LaneWordFrame : CanLane Spec.laneOp (.sel no .b64 (.v 254) (r 0) (r 2) 7) lane ∧ ∃ t, exec (.sel no .b64 (.v 254) (r 0) (r 2) 7) lane = .next t :=
  ⟨⟨_, rfl, by decide +kernel, by decide +kernel⟩, ⟨_, rfl⟩⟩
theorem wit_NopWord : (1 : Dword).toNat / 2 ^ 53 = 0 ∧ (1 : Dword) ≠ 0x000E000000000000 ∧ lane.Ready .nop := by decide +kernel
theorem wit_MoveFlagsOcl : (lane.Ready (.movFlg no (.v 1) (r 1)) ∧ lane.Readable (fun th => [microOf (.movFlg no (.v 1) (r 1)) fun _ => ⟨th.flags.setWidth 64, 0⟩])
      ∧ lane.readOp t0 (r 1).src .b32 = .ok 0)
    ∧ lane.Ready (.ocl no 7 255 true) ∧ (∀ u ∈ lane.group, (lane.thread u).passes no.guard = true → ((lane.thread u).readV (lane.chkd u) 255).isOk = true)
    ∧ (lane.thread t0).readV (lane.chkd t0) 255 = .ok 0 :=
  ⟨⟨by decide +kernel, by decide +kernel, rfl⟩, by decide +kernel, by decide +kernel, rfl⟩
theorem wit_DivisionRules : (lane.Ready (.irem no .i64 (.v 0) (r 2) (r 4)) ∧ lane.Readable (State.readsOf (.irem no .i64 (.v 0) (r 2) (r 4))))
    ∧ (Instr.irem no .i64 (.v 0) (r 2) (r 4)).wf = true ∧ (15 : Nat) < 16
    ∧ intOf .i32 0 = 0 ∧ intOf .i32 0x80000000 = -(2 ^ 31) ∧ intOf .i32 0xFFFFFFFF = -1 ∧ intOf .n64 (2 ^ 64 - 1) ≠ 0 := by decide +kernel
theorem wit_LongLatencyWords : (∃ f, Spec.pipeCOp (.fsin no (.v 255) (r 0)) = some f ∧ lane.Ready (.fsin no (.v 255) (r 0)) ∧ lane.Readable (State.readsOf (.fsin no (.v 255) (r 0))))
    ∧ ∃ f, Spec.exchangeOp lane (.xget no .b32 .seg2 (.v 0) (r 1) (r 2)) = some f ∧ lane.Ready (.xget no .b32 .seg2 (.v 0) (r 1) (r 2))
      ∧ lane.Readable (State.readsOf (.xget no .b32 .seg2 (.v 0) (r 1) (r 2))) :=
  ⟨⟨_, rfl, by decide +kernel, by decide +kernel⟩, ⟨_, rfl, by decide +kernel, by decide +kernel⟩⟩
theorem wit_ControlTransfers :
    (Spec.goes (.bra no (-13)) = some fun pc _ => pc + BitVec.ofInt 64 (8 * -13)) ∧ lane.Ready (.bra no (-13)) ∧ lane.Readable (State.readsOf (.bra no (-13)))
    ∧ (lane.Ready (.callx no 2 (r 0)) ∧ lane.Readable (State.readsOf (.callx no 2 (r 0))) ∧ (lane.Solo (.callx no 2 (r 0)) t0
      ∧ lane.readOps t0 (State.srcsOf (.callx no 2 (r 0))) = .ok [0]) ∧ Spec.targetOk 0)
    ∧ ((laneV [(0, 4)]).Solo (.ret no (r 0)) t0 ∧ (laneV [(0, 4)]).readOps t0 (State.srcsOf (.ret no (r 0))) = .ok [4] ∧ ¬Spec.targetOk 4)
    ∧ ((laneV [(1, 0x01000000)]).Solo (.brx no (r 0)) t0 ∧ (laneV [(1, 0x01000000)]).readOps t0 (State.srcsOf (.brx no (r 0))) = .ok [0x0100000000000000]
      ∧ ¬Spec.targetOk 0x0100000000000000)
    ∧ isHost t0 = false ∧ lane.holdsLease t0 = false ∧ (lane.thread t0).trap = none ∧ (lane.thread t0).pend = [] :=
  ⟨rfl, by decide +kernel, by decide +kernel, ⟨by decide +kernel, by decide +kernel, ⟨by decide +kernel, rfl⟩, by decide, by decide⟩,
    ⟨by decide +kernel, rfl, by unfold Spec.targetOk; decide⟩, ⟨by decide +kernel, rfl, by unfold Spec.targetOk; decide⟩, by decide +kernel⟩
theorem wit_RegionAndExit : Can (.rgn no) lane t0 [] Spec.always ∧ Can (.exit no) lane t0 [] (fun _ u _ _ => isHost u = false)
    ∧ Can (.exit no) host th0 [] (fun _ u _ _ => isHost u = true) :=
  ⟨⟨by decide +kernel, rfl, trivial⟩, ⟨by decide +kernel, rfl, by decide +kernel⟩, ⟨by decide +kernel, rfl, by decide +kernel⟩⟩
/-- The lane enrolled in mask 3, with nobody arrived; and parked at it. -/
def enrolled : State := lane.modWave w0 fun w => { w with enrolled := [(3, 1)] }
def arrived : State := (lane.modWave w0 fun w => { w with enrolled := [(3, 1)], arrived := [(3, 1)] }).modThread t0 fun th => { th with status := .parked (.mask 3) }
theorem wit_RejoinMasks : Can (.enrol no 7) lane t0 [] Spec.always ∧ Can (.strike no 0) lane t0 [] Spec.always
    ∧ Can (.join no 3) enrolled t0 [] (fun s u _ _ => s.holdsLease u = false ∧ (Map.getD (s.wave u.wave).enrolled 3 0).getLsbD u.lane = true)
    ∧ Can (.join no 3) lane t0 [] (fun s u _ _ => s.holdsLease u = false ∧ (Map.getD (s.wave u.wave).enrolled 3 0).getLsbD u.lane = false)
    ∧ (Map.getD (arrived.wave w0).arrived 3 0 ≠ 0 ∧ Map.getD (arrived.wave w0).enrolled 3 0 &&& Map.getD (arrived.wave w0).arrived 3 0 = Map.getD (arrived.wave w0).enrolled 3 0
      ∧ t0.wave = w0 ∧ t0.lane < 32 ∧ (arrived.thread t0).status = .parked (.mask 3))
    ∧ ¬(Map.getD (enrolled.wave w0).arrived 3 0 ≠ 0) ∧ (enrolled.thread t0).status ≠ .parked (.mask 3) :=
  ⟨⟨by decide +kernel, rfl, trivial⟩, ⟨by decide +kernel, rfl, trivial⟩, ⟨by decide +kernel, rfl, by decide +kernel⟩, ⟨by decide +kernel, rfl, by decide +kernel⟩,
    by decide +kernel, by decide +kernel, by decide +kernel⟩
/-- The lane as the only thread of its team, arrived at barrier 15. -/
def atBarrier : State := (lane.modTeam 1 fun x => { x with bars := [(15, { arrived := [t0] })] }).modThread t0 fun th => { th with status := .parked (.bar 15) }
theorem wit_BarrierWord : Can (.bar no 15) lane t0 [] (fun s u _ _ => s.holdsLease u = false)
    ∧ ((Map.getD (atBarrier.team 1).bars 15 {}).arrived ≠ []
      ∧ (∀ t ∈ atBarrier.teamThreads 1, (atBarrier.thread t).status = .exited ∨ t ∈ (Map.getD (atBarrier.team 1).bars 15 {}).arrived)
      ∧ (atBarrier.thread t0).status = .parked (.bar 15))
    ∧ ¬((Map.getD (lane.team 1).bars 15 {}).arrived ≠ []) :=
  ⟨⟨by decide +kernel, rfl, by decide +kernel⟩, by decide +kernel, by decide +kernel⟩
theorem wit_YieldAndElect : (lane.Solo (.yld no) t0 ∧ isHost t0 = false ∧ lane.prog t0 = true) ∧ (host.Solo (.yld no) th0 ∧ isHost th0 = true) ∧ ((6 : Nat) < 7 ∧ lane.Ready (.elect no 6)) ∧ lane.Ready (.elect no 7) :=
  ⟨⟨by decide +kernel, by decide +kernel, by decide +kernel⟩, ⟨by decide +kernel, by decide +kernel⟩, ⟨by decide, by decide +kernel⟩, by decide +kernel⟩
theorem wit_SpecialSourceWords : lane.Ready (.srd no (.v 0) 15) ∧ host.Ready (.srd no (.v 0) 14) ∧ lane.Ready (.tqry no (.v 255) 15 3) ∧ lane.Ready (.mstat no (.s 63) 4) :=
  ⟨by decide +kernel, by decide +kernel, by decide +kernel, by decide +kernel⟩
theorem wit_SystemRegisterWords : Spec.needsLevel (.sysr no (.v 0) .hstat) = some 1 ∧ Can (.sysr no (.v 0) .hstat) host th0 [] (fun s u _ _ => 1 ≤ Spec.level s u)
    ∧ Spec.needsLevel (.sysw no .mvec (r 0)) = some 2 ∧ Can (.sysw no .mvec (r 0)) host th0 [0] (fun s u _ _ => 2 ≤ Spec.level s u)
    ∧ SysReg.kvec ≠ .hstat ∧ SysReg.kvec ≠ .hpend ∧ SysReg.kvec ≠ .hcore ∧ SysReg.kvec ≠ .htime :=
  ⟨rfl, ⟨by decide +kernel, rfl, by decide +kernel⟩, rfl, ⟨by decide +kernel, rfl, by decide +kernel⟩, by decide, by decide, by decide, by decide⟩
theorem wit_HostCallsAndReturn : Can (.scall no 255) host th0 [] Spec.always ∧ Can (.mcall no 0) host th0 [] (fun s u _ _ => 1 ≤ Spec.level s u)
    ∧ Can (.eret no) host th0 [] (fun s u _ _ => 1 ≤ Spec.level s u ∧ (Spec.returnPc s u).toNat % 8 = 0)
    ∧ Can (.eret no) (host.modHost k0 fun h => { h with epcM := 4 }) th0 [] (fun s u _ _ => 1 ≤ Spec.level s u ∧ (Spec.returnPc s u).toNat % 8 ≠ 0 ∧ isHost u = true
      ∧ s.holdsLease u = false) :=
  ⟨⟨by decide +kernel, rfl, trivial⟩, ⟨by decide +kernel, rfl, by decide +kernel⟩, ⟨by decide +kernel, rfl, by decide +kernel⟩, ⟨by decide +kernel, rfl, by decide +kernel⟩⟩
/-- The host core at kernel level, and at user level. -/
def kernel : State := host.modHost k0 fun h => { h with hstat := 1 }
def user : State := host.modHost k0 fun h => { h with hstat := 0 }
theorem wit_HostEntryAndReturn : State.priv (kernel.host k0) = 1 ∧ State.priv (host.host k0) = 2 := by decide +kernel
theorem wit_LevelTraps : Spec.needsLevel (.sysw no .kvec (r 0)) = some 2 ∧ kernel.Solo (.sysw no .kvec (r 0)) th0
    ∧ kernel.readOps th0 (State.srcsOf (.sysw no .kvec (r 0))) = .ok [0] ∧ isHost th0 = true ∧ kernel.holdsLease th0 = false ∧ Spec.level kernel th0 < 2
    ∧ Spec.needsLevel (.wait no) = some 1 ∧ user.Solo (.wait no) th0 ∧ Spec.level user th0 < 1 :=
  ⟨rfl, by decide +kernel, rfl, by decide +kernel, by decide +kernel, by decide +kernel, rfl, by decide +kernel, by decide +kernel⟩
def pending : State := host.modHost k0 fun h => { h with hpend := 16, hmask := 16 }
theorem wit_ShootdownAndWait : Can (.tlbi no 2 (r 0) (r 2)) host th0 [0, 0] (fun s u _ _ => 1 ≤ Spec.level s u)
    ∧ Can (.wait no) pending th0 [] (fun s u _ _ => 1 ≤ Spec.level s u ∧ (s.host u.wave.core).hpend &&& (s.host u.wave.core).hmask ≠ 0)
    ∧ Can (.wait no) host th0 [] (fun s u _ _ => 1 ≤ Spec.level s u ∧ (s.host u.wave.core).hpend &&& (s.host u.wave.core).hmask = 0) :=
  ⟨⟨by decide +kernel, rfl, by decide +kernel⟩, ⟨by decide +kernel, rfl, by decide +kernel⟩, ⟨by decide +kernel, rfl, by decide +kernel⟩⟩
/-- Where the lane's and the host core's page stands in memory. -/
abbrev page : Nat := physAt 0 0 (5 * 65536)
/-- Bytes at an offset of the page. -/
def put (s : State) (off : Nat) (bs : List Byte) : State := { s with mem := memStore s.mem (page + off) bs }
/-- The page's entry with other flags. -/
def flags (s : State) (f key : Nat) : State := { s with mem := memStore s.mem (physAt 0 0 (4 * 65536 + 16)) (State.pteBytes f key 5) }
/-- The host core with context 7, whose page table is its own, in a partition of one package. -/
def hostCtx : State := ((hostV [(0, 7), (2, 1)]).setContext 7 { rootFrame := 1 }).modPkg 0 fun k => { k with n := 1 }
def desc : State := put (hostV [(0, 0x10000), (2, 65535)]) 0x48 [1]
theorem wit_ContextRegisterWords :
    Can (.ctxwReg no .leaseMax (.v 4) (r 0) (r 2)) hostCtx th0 [7, 1] (fun s u _ xs => 1 ≤ Spec.level s u ∧ Spec.num (arg xs 0) ≠ 0 ∧ Map.has s.contexts (Spec.num (arg xs 0)) = true)
    ∧ Can (.ctxwReg no .leaseMax (.v 4) (r 0) (r 2)) host th0 [0, 0] (fun s u _ xs => 1 ≤ Spec.level s u ∧ (Spec.num (arg xs 0) = 0 ∨ Map.has s.contexts (Spec.num (arg xs 0)) = false))
    ∧ CtxReg.leaseMax ≠ .ctxFlags ∧ (8 : Nat) ≠ 7 :=
  ⟨⟨by decide +kernel, rfl, by decide +kernel⟩, ⟨by decide +kernel, rfl, by decide +kernel⟩, by decide, by decide⟩
theorem wit_ContextCommands_new :
    CanLeave (.ctxwNew no (.v 4) (r 0) (r 2)) host th0 [0, 0] (fun s u _ xs x => 1 ≤ Spec.level s u
      ∧ (arg xs 1 = 0 ∨ 65536 ≤ (arg xs 1).toNat ∨ (arg xs 0).toNat % 65536 ≠ 0) ∧ x = Spec.status s u (.v 4) 3 0)
    ∧ CanLeave (.ctxwNew no (.v 4) (r 0) (r 2)) (desc.setContext 65535 {}) th0 [0x10000, 65535] (fun s u _ xs x => 1 ≤ Spec.level s u
      ∧ 1 ≤ (arg xs 1).toNat ∧ (arg xs 1).toNat < 65536 ∧ (arg xs 0).toNat % 65536 = 0 ∧ Map.has s.contexts (arg xs 1).toNat = true ∧ x = Spec.status s u (.v 4) 2 0)
    ∧ desc.Solo (.ctxwNew no (.v 4) (r 0) (r 2)) th0 ∧ desc.readOps th0 (State.srcsOf (.ctxwNew no (.v 4) (r 0) (r 2))) = .ok [0x10000, 65535]
    ∧ (1 ≤ Spec.level desc th0 ∧ 65535 < 65536 ∧ (0x10000 : Dword).toNat % 65536 = 0 ∧ Map.has desc.contexts 65535 = false)
    ∧ ∃ s1 bs, (desc.readBy (.ctxwNew no (.v 4) (r 0) (r 2)) th0).threadRead th0 0x10000 128 = (s1, .ok bs) ∧ State.descOk bs = true
      ∧ ∃ s2 pa pte, s1.globalAddr th0 .load 0x10000 = (s2, .ok (pa, pte)) ∧ pte.key = 0 :=
  ⟨⟨by decide +kernel, rfl, _, by decide +kernel, Or.inl rfl, rfl⟩, ⟨by decide +kernel, rfl, _, by decide +kernel, by decide +kernel, by decide +kernel, by decide +kernel, by decide +kernel, rfl⟩,
    by decide +kernel, rfl, by decide +kernel, by
      obtain ⟨s1, bs, h, k⟩ := okB_iff (R := (desc.readBy (.ctxwNew no (.v 4) (r 0) (r 2)) th0).threadRead th0 0x10000 128)
        (p := fun s1 bs => State.descOk bs && okB (s1.globalAddr th0 .load 0x10000) fun _ b => b.2.key = 0) (by decide +kernel)
      rw [Bool.and_eq_true] at k
      obtain ⟨s2, b, h2, k2⟩ := okB_iff k.2
      exact ⟨s1, bs, h, k.1, s2, b.1, b.2, h2, of_decide_eq_true k2⟩⟩
def hostQ : State := put (flags (hostCtx.modThread th0 fun th => { th with v := [(0, 0x10000)] }) 0x9F 0) 0 ([0, 0, 0, 0, 0, 0, 0, 0, 4, 0, 1, 0, 7, 0, 0, 0, 0, 0, 1] : List Byte)
/-- The host core with its registers as named, and queue 7 as given. -/
def hostWith (q : Queue) : State := { hostCtx with queues := [(7, q)] }
abbrev q7 : Queue := { ctx := 7, widx := 0x10000, ridx := 0x10000 }
def hostPool (p : Pool) : State := { (hostV [(0, 0)]).modPkg 0 (fun k => { k with n := 1 }) with pools := [(State.poolKey 0 0, p)] }
theorem wit_ContextCommands_contexts :
    Can (.ctxwDel no (.v 4) (r 0) (r 2)) (hostV [(0, 9)]) th0 [9, 0] (fun s u _ xs => 1 ≤ Spec.level s u ∧ Map.has s.contexts (Spec.num (arg xs 0)) = false)
    ∧ Can (.ctxwDel no (.v 4) (r 0) (r 2)) (hostWith q7) th0 [7, 1] (fun s u _ xs => 1 ≤ Spec.level s u ∧ Map.has s.contexts (Spec.num (arg xs 0)) = true
        ∧ ∃ q, q ∈ s.queues ∧ q.2.ctx = Spec.num (arg xs 0))
    ∧ Can (.ctxwDel no (.v 4) (r 0) (r 2)) hostCtx th0 [7, 1] (fun s u _ xs => 1 ≤ Spec.level s u ∧ Map.has s.contexts (Spec.num (arg xs 0)) = true
        ∧ (∀ g ∈ s.grids, g.2.ctx = Spec.num (arg xs 0) → g.2.retired = true) ∧ ∀ q ∈ s.queues, q.2.ctx ≠ Spec.num (arg xs 0)) :=
  ⟨⟨by decide +kernel, rfl, by decide +kernel⟩, ⟨by decide +kernel, rfl, by decide +kernel⟩, ⟨by decide +kernel, rfl, by decide +kernel⟩⟩
theorem wit_ContextCommands_queues :
    CanLeave (.ctxwQreg no (.v 4) (r 0) (r 2)) hostQ th0 [0x10000, 0] (fun s u _ xs x => ∃ s1 bs n, 1 ≤ Spec.level s u ∧ s.threadRead u (arg xs 0) 64 = (s1, .ok bs)
        ∧ Map.has s1.contexts (field bs 0xC 2) = true ∧ s1.queueOk u.wave.core.pkg bs = true ∧ State.lowestFree (Map.keys s1.queues) (2 ^ 20) = some n
        ∧ x = Spec.status { s1 with queues := Map.set s1.queues n (s1.queueOf u.wave.core.pkg bs) } u (.v 4) 0 n)
    ∧ Can (.ctxwQdel no (.v 4) (r 0) (r 2)) hostCtx th0 [7, 1] (fun s u _ xs => 1 ≤ Spec.level s u ∧ Map.find s.queues (Spec.num (arg xs 0)) = none)
    ∧ Can (.ctxwQdel no (.v 4) (r 0) (r 2)) (hostWith q7) th0 [7, 1] (fun s u _ xs => 1 ≤ Spec.level s u ∧ ∃ q, Map.find s.queues (Spec.num (arg xs 0)) = some q
        ∧ q.w ≤ q.r ∧ ∀ n, s.readIndex q q.widx = some n → n ≤ q.r)
    ∧ CanLeave (.ctxwQst no (.v 4) (r 0) (r 2)) ((hostWith q7).modThread th0 fun th => { th with v := [(0, 7)] }) th0 [7, 0] (fun s u _ xs x => ∃ q, 1 ≤ Spec.level s u
        ∧ Map.find s.queues (Spec.num (arg xs 0)) = some q ∧ arg xs 1 = 0 ∧ x = Spec.status s u (.v 4) 0 0)
    ∧ CanLeave (.ctxwQst no (.v 4) (r 0) (r 2)) (hostWith { q7 with state := .overrun, qsz := 4 }) th0 [7, 1] (fun s u _ xs x => ∃ q r w, 1 ≤ Spec.level s u
        ∧ Map.find s.queues (Spec.num (arg xs 0)) = some q ∧ arg xs 1 = 1 ∧ q.state = .overrun ∧ s.readIndex q q.ridx = some r ∧ s.readIndex q q.widx = some w ∧ r ≤ w
        ∧ w - r ≤ 2 ^ q.qsz ∧ x = Spec.status { s with queues := Map.set s.queues (Spec.num (arg xs 0)) { q with state := .mapped, r, w } } u (.v 4) 0 1) := by
  refine ⟨⟨by decide +kernel, rfl, ?_⟩, ⟨by decide +kernel, rfl, by decide +kernel⟩, ⟨by decide +kernel, rfl, by decide +kernel, q7, by decide +kernel, by decide, ?_⟩,
    ⟨by decide +kernel, rfl, _, q7, by decide +kernel, by decide +kernel, rfl, rfl⟩,
    ⟨by decide +kernel, rfl, _, { q7 with state := .overrun, qsz := 4 }, 0, 0, by decide +kernel, by decide +kernel, rfl, rfl, by decide +kernel, by decide +kernel, by decide, by decide, rfl⟩⟩
  · obtain ⟨s1, bs, h, k⟩ := okB_iff (R := (hostQ.readBy (.ctxwQreg no (.v 4) (r 0) (r 2)) th0).threadRead th0 0x10000 64)
      (p := fun s1 bs => Map.has s1.contexts (field bs 0xC 2) && s1.queueOk th0.wave.core.pkg bs && decide (State.lowestFree (Map.keys s1.queues) (2 ^ 20) = some 0)) (by decide +kernel)
    simp only [Bool.and_eq_true, decide_eq_true_eq] at k
    exact ⟨_, s1, bs, 0, by decide +kernel, h, k.1.1, k.1.2, k.2, rfl⟩
  · intro n hn
    have h0 : ((hostWith q7).readBy (.ctxwQdel no (.v 4) (r 0) (r 2)) th0).readIndex q7 q7.widx = some 0 := by decide +kernel
    rw [h0] at hn; cases hn; exact Nat.le_refl _
theorem wit_ContextCommands_pools :
    CanLeave (.ctxwPnew no (.v 4) (r 0) (r 2)) (hostCtx.modThread th0 fun th => { th with v := [(0, 7), (2, 83)] }) th0 [7, 83] (fun s u _ xs x => ∃ p q n, 1 ≤ Spec.level s u
        ∧ Map.has s.contexts (Spec.num (arg xs 0)) = true
        ∧ 4 ≤ (arg xs 1).toNat / 4 % 32 ∧ (arg xs 1).toNat / 4 % 32 ≤ 20 ∧ (arg xs 1).toNat / 2 ^ 7 % 2 ^ 9 = 0 ∧ (arg xs 1).toNat / 2 ^ 28 = 0
        ∧ p = (arg xs 1).toNat / 2 ^ 16 % 4096 ∧ s.inPartition u.wave.core.pkg p = true ∧ s.route u.wave.core.pkg p = some q
        ∧ State.lowestFree ((Map.keys s.pools).filterMap fun x => if x / 256 = q then some (x % 256) else none) 256 = some n
        ∧ x = Spec.status { s with pools := Map.set s.pools (State.poolKey q n) (Spec.newPool (Spec.num (arg xs 0)) (arg xs 1).toNat) } u (.v 4) 0 (p + n * 4096))
    ∧ (∀ p q, (p, q) ∈ [(({ closed := true } : Pool), 0), ({}, 4), ({ closed := true, records := [[]] }, 4)] →
      CanLeave (.ctxwPdel no (.v 4) (r 0) (r 2)) (hostPool p) th0 [0, 0] (fun s u _ xs x => ∃ n, 1 ≤ Spec.level s u ∧ s.poolOf u.wave.core.pkg (Spec.num (arg xs 0)) = some n
        ∧ Map.find s.pools n = some p ∧ (p.closed = true ∧ p.records = [] ∧ x = Spec.status { s with pools := Map.erase s.pools n } u (.v 4) 0 0
          ∨ (p.closed = false ∨ p.records ≠ []) ∧ x = Spec.status s u (.v 4) q 0))) := by
  refine ⟨⟨by decide +kernel, rfl, _, 0, 0, 0, by decide +kernel, by decide +kernel, by decide, by decide, by decide, by decide, by decide, by decide +kernel, by decide +kernel,
    by decide +kernel, rfl⟩, ?_⟩
  intro p q h
  simp only [List.mem_cons, List.not_mem_nil, or_false, Prod.mk.injEq] at h
  obtain ⟨rfl, rfl⟩ | ⟨rfl, rfl⟩ | ⟨rfl, rfl⟩ := h
  · exact ⟨by decide +kernel, rfl, _, State.poolKey 0 0, by decide +kernel, by decide +kernel, by decide +kernel, Or.inl ⟨rfl, rfl, rfl⟩⟩
  · exact ⟨by decide +kernel, rfl, _, State.poolKey 0 0, by decide +kernel, by decide +kernel, by decide +kernel, Or.inr ⟨Or.inl rfl, rfl⟩⟩
  · exact ⟨by decide +kernel, rfl, _, State.poolKey 0 0, by decide +kernel, by decide +kernel, by decide +kernel, Or.inr ⟨Or.inr (by decide), rfl⟩⟩
/-- Tests of the place an access finds, and of the fault it meets. -/
def locB (R : State × AddrRes) (p : State → Loc → Bool) : Bool := match R.2 with | .loc l _ => p R.1 l | _ => false
def faultB (R : State × AddrRes) (p : Cause → Nat → Bool) : Bool := match R.2 with | .fault c n => p c n | _ => false
theorem locB_iff {R : State × AddrRes} {p : State → Loc → Bool} (h : locB R p = true) : ∃ a l pte, R = (a, .loc l pte) ∧ p a l = true := by
  obtain ⟨a, x⟩ := R
  cases x with
  | loc l pte => exact ⟨a, l, pte, rfl, h⟩
  | _ => exact absurd h (by simp [locB])
theorem faultB_iff {R : State × AddrRes} {p : Cause → Nat → Bool} (h : faultB R p = true) : ∃ a c n, R = (a, .fault c n) ∧ p c n = true := by
  obtain ⟨a, x⟩ := R
  cases x with
  | fault c n => exact ⟨a, c, n, rfl, h⟩
  | _ => exact absurd h (by simp [faultB])
/-- The hypotheses of a memory word whose access, made in the state `b`, finds its place. -/
def Hits (i : Instr) (s b : State) (u : ThreadId) (xs : List Dword) (spc : Space) (k : Acc) (a : Dword) (z : Nat) : Prop :=
  s.Solo i u ∧ s.readOps u (State.srcsOf i) = .ok xs ∧ ∃ s1 l pte, b.accessAddr u spc k a z = (s1, .loc l pte) ∧ s1.poisonAt l z = false
theorem hits {i : Instr} {s b : State} {u : ThreadId} {xs : List Dword} {spc : Space} {k : Acc} {a : Dword} {z : Nat} (h : s.Solo i u)
    (hx : s.readOps u (State.srcsOf i) = .ok xs) (hl : locB (b.accessAddr u spc k a z) (fun s1 l => !s1.poisonAt l z) = true) : Hits i s b u xs spc k a z := by
  obtain ⟨s1, l, pte, h1, h2⟩ := locB_iff hl
  exact ⟨h, hx, s1, l, pte, h1, by simpa using h2⟩
/-- The same of a word that makes its access once its dead marks are made. -/
abbrev HitsIn (i : Instr) (s : State) (u : ThreadId) : List Dword → Space → Acc → Dword → Nat → Prop := Hits i s (s.accessBy i u) u
/-- The same of a store, which reads its data last. -/
def HitsOf (ty : OTy) (m : MOp) (data : Src) (base off : SrcD) (s : State) (u : ThreadId) (xs : List Dword) (a : Dword) : Prop :=
  ∃ bs, s.storeData u ty data = .ok bs
    ∧ Hits (.st no ty m data base off) s ((s.accessBy (.st no ty m data base off) u).tookReads u [(⟨data, false⟩, ty)]) u xs m.spc .store a bs.length
abbrev mg : MOp := ⟨.g, .rlx, none, false⟩
/-- The lane with the address of its page in v0 and v1, and one byte below the page's end in v2 and v3. -/
def atPage : State := laneV [(0, 0x10000), (2, 0x1FFFF)]
def hostPage : State := hostV [(0, 0x10000), (2, 0x1FFFF)]
theorem wit_LoadWord :
    HitsIn (.ld no .b128 mg (.v 4) (r 0) (im 16)) atPage t0 [0x10000, 16] .g .load (Spec.address mg 16 0x10000 16) 16
    ∧ HitsIn (.ld no .i8 ⟨.k, .rlx, none, true⟩ (.v 4) (r 2) (im 0)) atPage t0 [0x1FFFF, 0] .k .load (Spec.address ⟨.k, .rlx, none, true⟩ 1 0x1FFFF 0) 1
    ∧ HitsIn (.ld no .n16 ⟨.l, .rlx, none, true⟩ (.s 3) (r 4) (im 2)) lane t0 [0, 2] .l .load (Spec.address ⟨.l, .rlx, none, true⟩ 2 0 2) 2
    ∧ HitsIn (.ld no .b64 mg (.v 4) (r 0) (im 0)) hostPage th0 [0x10000, 0] .g .load (Spec.address mg 8 0x10000 0) 8 :=
  ⟨hits (by decide +kernel) rfl (by decide +kernel), hits (by decide +kernel) rfl (by decide +kernel), hits (by decide +kernel) rfl (by decide +kernel),
    hits (by decide +kernel) rfl (by decide +kernel)⟩
theorem wit_StoreWord :
    HitsOf .b128 mg (.v 4) (r 0) (im 0) atPage t0 [0x10000, 0] (Spec.address mg 16 0x10000 0)
    ∧ HitsOf .n8 ⟨.l, .rlx, none, false⟩ (.v 4) (r 5) (im 1) lane t0 [0, 1] (Spec.address ⟨.l, .rlx, none, false⟩ 1 0 1)
    ∧ HitsOf .i32 ⟨.w, .rlx, none, false⟩ (.v 4) (r 5) (im 128) lane t0 [0, 128] (Spec.address ⟨.w, .rlx, none, false⟩ 4 0 128)
    ∧ OTy.b64 ≠ .b128 ∧ lane.readOp t0 (.v 4) .b64 = .ok 0 :=
  ⟨⟨_, rfl, hits (by decide +kernel) rfl (by decide +kernel)⟩, ⟨_, rfl, hits (by decide +kernel) rfl (by decide +kernel)⟩,
    ⟨_, rfl, hits (by decide +kernel) rfl (by decide +kernel)⟩, by decide, rfl⟩
theorem wit_AtomicWords :
    HitsIn (.atom no .add true mg (.v 4) (r 0) (r 6)) atPage t0 [0x10000, 0] .g .rmw (baseAddr mg 0x10000) 8
    ∧ HitsIn (.atomn no .fadd false mg (r 0) (r 6)) atPage t0 [0x10000, 0] .g .rmw (baseAddr mg 0x10000) 4
    ∧ (HitsIn (.cas no true mg (.v 4) (r 0) (r 8)) atPage t0 [0x10000, 0] .g .rmw (baseAddr mg 0x10000) 8 ∧ casOperands atPage t0 true (r 8).src = .ok (0, 0))
    ∧ (HitsIn (.cas no false mg (.v 4) (r 0) (r 2)) atPage t0 [0x10000, 0x1FFFF] .g .rmw (baseAddr mg 0x10000) 4 ∧ casOperands atPage t0 false (r 2).src = .ok (0x1FFFF, 0)
      ∧ leNat (atPage.readLoc (.mem page) 4) ≠ (0x1FFFF : Dword).toNat ∧ leNat (atPage.readLoc (.mem page) 8) = (0 : Dword).toNat)
    ∧ HitsIn (.sigs no true ⟨.g, .rel, some .rack, false⟩ (r 0) (r 6)) atPage t0 [0x10000, 0] .g .rmw (baseAddr ⟨.g, .rel, some .rack, false⟩ 0x10000) 8 :=
  ⟨hits (by decide +kernel) rfl (by decide +kernel), hits (by decide +kernel) rfl (by decide +kernel), ⟨hits (by decide +kernel) rfl (by decide +kernel), rfl⟩,
    ⟨hits (by decide +kernel) rfl (by decide +kernel), rfl, by decide +kernel, by decide +kernel⟩, hits (by decide +kernel) rfl (by decide +kernel)⟩
abbrev poisonedLane : State := onThread fun th => { th with poisoned := [1] }
abbrev ldOdd : Instr := .ld no .b64 mg (.v 4) (r 0) (im 1)
abbrev stOdd : Instr := .st no .b32 mg (.v 4) (r 0) (im 1)
theorem wit_AccessFaults :
    (lane.Solo ldOdd t0 ∧ lane.readOps t0 (State.srcsOf ldOdd) = .ok [0, 1] ∧ isHost t0 = false
      ∧ ∃ s1 c n, (lane.accessBy ldOdd t0).accessAddr t0 .g .load (Spec.address mg 8 0 1) 8 = (s1, .fault c n) ∧ c = .align)
    ∧ (lane.Solo stOdd t0 ∧ lane.readOps t0 (State.srcsOf stOdd) = .ok [0, 1] ∧ lane.holdsLease t0 = false
      ∧ (lane.thread t0).trap = none ∧ (lane.thread t0).pend = [] ∧ ∃ bs, lane.storeData t0 .b32 (.v 4) = .ok bs
      ∧ (∃ s1 c n, ((lane.accessBy stOdd t0).tookReads t0 [(⟨.v 4, false⟩, .b32)]).accessAddr t0 .g .store (Spec.address mg 4 0 1) bs.length = (s1, .fault c n) ∧ c = .align)
      ∧ ∃ s2 c n, (({ lane.begun stOdd with wordEv := (lane.begun stOdd).nextEv } : State).tookReads t0 [(⟨.v 4, false⟩, .b32)]).accessAddr t0 .g .store
          (Spec.address mg 4 0 1) bs.length = (s2, .fault c n) ∧ c = .align)
    ∧ (Spec.laneOp (.mov no .i32 (.v 0) (r 1))).isSome = true ∧ poisonedLane.Solo (.mov no .i32 (.v 0) (r 1)) t0
    ∧ poisonedLane.readOps t0 (State.srcsOf (.mov no .i32 (.v 0) (r 1))) = .error .poison ∧ poisonedLane.holdsLease t0 = false ∧ (poisonedLane.thread t0).trap = none
    ∧ (poisonedLane.thread t0).pend = [] := by
  have hf {R : State × AddrRes} (h : faultB R (fun c _ => c = .align) = true) : ∃ s1 c n, R = (s1, .fault c n) ∧ c = .align := by
    obtain ⟨s1, c, n, h, k⟩ := faultB_iff h
    exact ⟨s1, c, n, h, of_decide_eq_true k⟩
  exact ⟨⟨by decide +kernel, rfl, by decide, hf (by decide +kernel)⟩, ⟨by decide +kernel, rfl, by decide +kernel, by decide +kernel, by decide +kernel, _, rfl, hf (by decide +kernel),
    hf (by decide +kernel)⟩, rfl, by decide +kernel, rfl, by decide +kernel, by decide +kernel, by decide +kernel⟩
theorem wit_TranslationChecks : sxOk 0x0100000000000000 = false ∧ (sxOk 0 = true ∧ ∃ s1 e, lane.translate t0 0 = (s1, .error e))
    ∧ (∃ s1 pte, (flags lane 0x1F 2).translate t0 0x10000 = (s1, .ok pte) ∧ (s1.keyOk t0 .load 0x10000 pte.key = false))
    ∧ (∃ s1 pte, (flags lane 0x1B 1).translate t0 0x10000 = (s1, .ok pte) ∧ State.permOk .store pte = false)
    ∧ (∃ s1 pte pa, lane.translate t0 0x1FFFF = (s1, .ok pte) ∧ (s1.keyOk t0 .rmw 0x1FFFF pte.key = true ∧ State.permOk .rmw pte = true) ∧ s1.physOf t0.wave.core.pkg pte 0x1FFFF = some pa)
    ∧ isHost t0 = false ∧ (lane.grid (lane.team (lane.teamOf t0)).grid).handler = false := by
  refine ⟨by decide, ⟨by decide, ?_⟩, ?_, ?_, ?_, by decide, by decide +kernel⟩
  · obtain ⟨s1, e, h, _⟩ := errB_iff (R := lane.translate t0 0) (p := fun _ _ => true) (by decide +kernel); exact ⟨s1, e, h⟩
  · obtain ⟨s1, e, h, k⟩ := okB_iff (R := (flags lane 0x1F 2).translate t0 0x10000) (p := fun s1 pte => !s1.keyOk t0 .load 0x10000 pte.key) (by decide +kernel)
    exact ⟨s1, e, h, by simpa using k⟩
  · obtain ⟨s1, e, h, k⟩ := okB_iff (R := (flags lane 0x1B 1).translate t0 0x10000) (p := fun _ pte => !State.permOk .store pte) (by decide +kernel)
    exact ⟨s1, e, h, by simpa using k⟩
  · obtain ⟨s1, e, h, k⟩ := okB_iff (R := lane.translate t0 0x1FFFF)
      (p := fun s1 pte => s1.keyOk t0 .rmw 0x1FFFF pte.key && State.permOk .rmw pte && isB (s1.physOf t0.wave.core.pkg pte 0x1FFFF) fun _ => true) (by decide +kernel)
    rw [Bool.and_eq_true, Bool.and_eq_true] at k
    obtain ⟨pa, h2, _⟩ := isB_iff k.2
    exact ⟨s1, e, pa, h, k.1, h2⟩
/-- The lane in path mode: uniform paths off. -/
def pathMode : State := lane.modContext 1 fun c => { c with regs := { c.regs with ctxFlags := 1 } }
/-- A state whose history has a store in memory by another team. -/
def recorded (s : State) : State := { s with trace := [{ who := .thread 9 0 0, place := { part := 0, tray := 0, pkg := 0, die := 0, core := 1 }, kind := .store, len := 1, old := [0], new := [1] }], nextEv := 1 }
theorem wit_FenceWords : (Can (.fence no ⟨.g, .acqrel, some .core, false⟩) lane t0 [] Spec.always ∧ Can (.fence no ⟨.g, .rel, some .rack, false⟩) lane t0 [] Spec.always)
    ∧ Scope.rack ≠ .core ∧ ((recorded lane).Solo (.fence no ⟨.g, .rel, some .rack, false⟩) t0 ∧ (recorded lane).trace ≠ []) ∧ Can (.pfen no .ls .kc) lane t0 [] (fun s u _ _ => s.unif u = true) ∧ Can (.pfen no .ls .kc) pathMode t0 [] (fun s u _ _ => s.unif u = false) :=
  ⟨⟨⟨by decide +kernel, rfl, trivial⟩, ⟨by decide +kernel, rfl, trivial⟩⟩, by decide, ⟨by decide +kernel, by decide +kernel⟩, ⟨by decide +kernel, rfl, by decide +kernel⟩,
    ⟨by decide +kernel, rfl, by decide +kernel⟩⟩
/-- The core holds the line of the page's first bytes in a state. -/
def owns (st : L1St) (s : State) : State := s.modCore c0 fun c => { c with l1 := [(lineOf page, st)] }
theorem memB_iff {R : State × AddrRes} {p : State → Nat → Bool} (h : (match R.2 with | .loc (.mem pa) (some _) => p R.1 pa | _ => false) = true) :
    ∃ s1 pa pte, R = (s1, .loc (.mem pa) (some pte)) ∧ p s1 pa = true := by
  obtain ⟨a, x⟩ := R
  split at h
  · rename_i pa pte hx; exact ⟨a, pa, pte, by simp at hx; simp [hx], h⟩
  · exact absurd h (by simp)
theorem placeB_iff {R : State × AddrRes} (h : (match R.2 with | .loc _ none => true | _ => false) = true) : ∃ s1 l, R = (s1, .loc l none) := by
  obtain ⟨a, x⟩ := R
  split at h
  · rename_i l hx; exact ⟨a, l, by simp at hx; simp [hx]⟩
  · exact absurd h (by simp)
abbrev ml : MOp := ⟨.l, .rlx, none, false⟩
/-- The lane with a lease on the first line of its page. -/
def ownLease : State := atPage.modThread t0 fun th => { th with lease := some { lines := [⟨lineOf page, 0x10000, []⟩] } }
theorem wit_CacheWords :
    (∀ lvl, CanLeave (.pref no lvl mg (r 0) (im 0)) atPage t0 [0x10000, 0] fun s u _ xs x => ∃ s1 pa pte,
      s.spaceAddr u mg.spc .load (memAddr mg 1 (arg xs 0) (arg xs 1)) 1 false = (s1, .loc (.mem pa) (some pte))
      ∧ x = if lvl = .l2 ∨ Map.has (s1.core u.wave.core).l1 (lineOf pa) = true ∧ (lvl = .l1 ∨ s1.ownsLine u.wave.core (lineOf pa) = true) then s1
            else s1.miss u [] (lvl = .l1x) pte (memAddr mg 1 (arg xs 0) (arg xs 1)) pa)
    ∧ CanLeave (.pref no .l1 mg (r 4) (im 0)) lane t0 [0, 0] (fun s u _ xs x => ∃ r, s.spaceAddr u mg.spc .load (memAddr mg 1 (arg xs 0) (arg xs 1)) 1 false = (x, r)
      ∧ ((∃ c n, r = .fault c n) ∨ ∃ l, r = .loc l none))
    ∧ (∀ i inv, (i, inv) ∈ [(Instr.cinv no mg (r 0) (im 0), true), (Instr.cwb no mg (r 0) (im 0), false)] → ∀ s ∈ [atPage, ownLease],
      CanLeave i s t0 [0x10000, 0] fun s u _ xs x => ∃ s1 pa pte,
        s.spaceAddr u mg.spc .load (memAddr mg 1 (arg xs 0) (arg xs 1)) 1 false = (s1, .loc (.mem pa) (some pte)) ∧ lineOf pa ∉ s1.poison
        ∧ x = if lineOf pa ∈ s1.ownLines u then s1
              else s1.cacheOp u.wave.core (lineOf pa) inv (s1.firstHome u.wave.core.pkg pte (memAddr mg 1 (arg xs 0) (arg xs 1)) pa).1)
    ∧ (∀ i ∈ [Instr.cinv no ml (r 4) (im 0), .cwb no ml (r 4) (im 0)], CanLeave i lane t0 [0, 0] fun s u _ xs x => ∃ l,
      s.spaceAddr u ml.spc .load (memAddr ml 1 (arg xs 0) (arg xs 1)) 1 false = (x, .loc l none))
    ∧ (owns .s lane).lineLeased (lineOf page) = false ∧ ((owns .s lane).core c0).evict.length < 16 ∧ Map.find ((owns .s lane).core c0).l1 (lineOf page) = some .s
    ∧ Map.find ((owns .e lane).core c0).l1 (lineOf page) = some .e ∧ Map.find ((owns .m lane).core c0).l1 (lineOf page) = some .m := by
  refine ⟨fun lvl => ?_, ⟨by decide +kernel, rfl, ?_⟩, fun i inv h s hs => ?_, fun i h => ?_, by decide +kernel, by decide +kernel, by decide +kernel, by decide +kernel, by decide +kernel⟩
  · have hs : atPage.Solo (.pref no lvl mg (r 0) (im 0)) t0 := by cases lvl <;> decide +kernel
    obtain ⟨s1, pa, pte, h, _⟩ := memB_iff (R := (atPage.readBy (.pref no lvl mg (r 0) (im 0)) t0).spaceAddr t0 .g .load (memAddr mg 1 0x10000 0) 1 false) (p := fun _ _ => true)
      (by cases lvl <;> decide +kernel)
    exact ⟨hs, by cases lvl <;> rfl, _, s1, pa, pte, h, rfl⟩
  · obtain ⟨s1, c, n, h, _⟩ := faultB_iff (R := (lane.readBy (.pref no .l1 mg (r 4) (im 0)) t0).spaceAddr t0 .g .load (memAddr mg 1 0 0) 1 false) (p := fun _ _ => true)
      (by decide +kernel)
    exact ⟨s1, _, h, .inl ⟨c, n, rfl⟩⟩
  · have main (i : Instr) (inv : Bool) (s : State) (h1 : s.Solo i t0) (h2 : s.readOps t0 (State.srcsOf i) = .ok [0x10000, 0])
        (h3 : (match ((s.readBy i t0).spaceAddr t0 .g .load (memAddr mg 1 0x10000 0) 1 false).2 with
          | .loc (.mem pa) (some _) => decide (lineOf pa ∉ ((s.readBy i t0).spaceAddr t0 .g .load (memAddr mg 1 0x10000 0) 1 false).1.poison)
          | _ => false) = true) :
        CanLeave i s t0 [0x10000, 0] fun s u _ xs x => ∃ s1 pa pte,
          s.spaceAddr u mg.spc .load (memAddr mg 1 (arg xs 0) (arg xs 1)) 1 false = (s1, .loc (.mem pa) (some pte)) ∧ lineOf pa ∉ s1.poison
          ∧ x = if lineOf pa ∈ s1.ownLines u then s1
                else s1.cacheOp u.wave.core (lineOf pa) inv (s1.firstHome u.wave.core.pkg pte (memAddr mg 1 (arg xs 0) (arg xs 1)) pa).1 := by
      obtain ⟨s1, pa, pte, h, k⟩ := memB_iff (p := fun s1 pa => decide (lineOf pa ∉ s1.poison)) h3
      exact ⟨h1, h2, _, s1, pa, pte, h, of_decide_eq_true k, rfl⟩
    simp only [List.mem_cons, List.not_mem_nil, or_false, Prod.mk.injEq] at h hs
    obtain ⟨rfl, rfl⟩ | ⟨rfl, rfl⟩ := h <;> obtain rfl | rfl := hs <;> exact main _ _ _ (by decide +kernel) rfl (by decide +kernel)
  · simp only [List.mem_cons, List.not_mem_nil, or_false] at h
    obtain rfl | rfl := h
    · obtain ⟨s1, l, h⟩ := placeB_iff (R := (lane.readBy (.cinv no ml (r 4) (im 0)) t0).spaceAddr t0 .l .load (memAddr ml 1 0 0) 1 false) (by decide +kernel)
      exact ⟨by decide +kernel, rfl, s1, l, h⟩
    · obtain ⟨s1, l, h⟩ := placeB_iff (R := (lane.readBy (.cwb no ml (r 4) (im 0)) t0).spaceAddr t0 .l .load (memAddr ml 1 0 0) 1 false) (by decide +kernel)
      exact ⟨by decide +kernel, rfl, s1, l, h⟩
abbrev leaseI : Instr := .lease no ⟨.g, .acq, some .core, false⟩ (.v 4) (r 0) (.lit 0x10)
/-- The lane holding a lease on the second line of its page. -/
def held1 : Lease := { lines := [⟨lineOf page + 128, 0x10080, List.replicate 128 1⟩], deadline := 256, dst := .v 7, failTarget := 0x10040 }
def leased : State := atPage.modThread t0 fun th => { th with lease := some held1 }
theorem wit_LeaseWords :
    CanLeave leaseI atPage t0 [0x10000, 0x10] (fun s u pc xs x => ∃ s1 pa pte, s.spaceAddr u .g .rmw (arg xs 0) 1 false = (s1, .loc (.mem pa) (some pte))
      ∧ (s1.thread u).lease = none ∧ sxOk (pc + BitVec.ofInt 64 (8 * (lo32 (arg xs 1)).toInt)) = true
      ∧ x = s1.wantLease u { failTarget := pc + BitVec.ofInt 64 (8 * (lo32 (arg xs 1)).toInt), dst := .v 4, pc, ord := .acq, scp := .core } pte (arg xs 0) pa (.v 4))
    ∧ CanLeave leaseI leased t0 [0x10000, 0x10] (fun s u _ xs x => ∃ s1 pa pte l, s.spaceAddr u .g .rmw (arg xs 0) 1 false = (s1, .loc (.mem pa) (some pte))
      ∧ (s1.thread u).lease = some l ∧ l.lines.length < 2 ∧ (∀ y ∈ l.lines, y.line ≠ lineOf pa) ∧ x = s1.wantLease u l pte (arg xs 0) pa (.v 4))
    ∧ Can (.lrel no ⟨.g, .rel, some .core, false⟩) leased t0 [] (fun s u _ _ => s.holdsLease u = true)
    ∧ Can (.lrel no ⟨.g, .rel, some .core, false⟩) lane t0 [] (fun s u _ _ => s.holdsLease u = false)
    ∧ leased.Solo (.lrel no ⟨.g, .rel, some .core, false⟩) t0 ∧ (leased.thread t0).lease = some held1 ∧ held1.lines = [⟨lineOf page + 128, 0x10080, List.replicate 128 1⟩]
    ∧ ¬(lineOf page + 128 ≤ lineOf page + 256 ∧ lineOf page + 256 < lineOf page + 128 + 128) ∧ held1.dst = .v 7 := by
  refine ⟨⟨by decide +kernel, rfl, ?_⟩, ⟨by decide +kernel, rfl, ?_⟩, ⟨by decide +kernel, rfl, by decide +kernel⟩, ⟨by decide +kernel, rfl, by decide +kernel⟩, by decide +kernel,
    by decide +kernel, rfl,
    by omega, rfl⟩
  · obtain ⟨s1, pa, pte, h, k⟩ := memB_iff (R := (atPage.readBy leaseI t0).spaceAddr t0 .g .rmw 0x10000 1 false) (p := fun s1 _ => decide ((s1.thread t0).lease = none)) (by decide +kernel)
    exact ⟨_, s1, pa, pte, h, of_decide_eq_true k, by decide +kernel, rfl⟩
  · obtain ⟨s1, pa, pte, h, k⟩ := memB_iff (R := (leased.readBy leaseI t0).spaceAddr t0 .g .rmw 0x10000 1 false)
      (p := fun s1 pa => decide ((s1.thread t0).lease = some held1 ∧ lineOf pa = lineOf page)) (by decide +kernel)
    have k := of_decide_eq_true k
    exact ⟨_, s1, pa, pte, held1, h, k.1, by decide, by rw [k.2]; decide +kernel, rfl⟩
theorem wit_SignalWait :
    ∃ s1 l pte, atPage.Solo (.sigw no .eq ⟨.g, .acq, some .rack, false⟩ (.v 10) (r 0) (im 0)) t0
      ∧ atPage.readOps t0 (State.srcsOf (.sigw no .eq ⟨.g, .acq, some .rack, false⟩ (.v 10) (r 0) (im 0))) = .ok [0x10000, 0] ∧ atPage.holdsLease t0 = false
      ∧ ((atPage.begun (.sigw no .eq ⟨.g, .acq, some .rack, false⟩ (.v 10) (r 0) (im 0))).modThread t0 fun th =>
          th.touch (State.srcsOf (.sigw no .eq ⟨.g, .acq, some .rack, false⟩ (.v 10) (r 0) (im 0)))).accessAddr t0 .g .load 0x10000 8 = (s1, .loc l pte)
      ∧ s1.poisonAt l 8 = false ∧ leNat (s1.readLoc l 8) = (0 : Dword).toNat ∧ ¬((1 : Dword).toNat ≤ leNat (s1.readLoc l 8)) := by
  obtain ⟨s1, l, pte, h, k⟩ := locB_iff (R := ((atPage.begun (.sigw no .eq ⟨.g, .acq, some .rack, false⟩ (.v 10) (r 0) (im 0))).modThread t0 fun th =>
      th.touch (State.srcsOf (.sigw no .eq ⟨.g, .acq, some .rack, false⟩ (.v 10) (r 0) (im 0)))).accessAddr t0 .g .load 0x10000 8)
    (p := fun s1 l => !s1.poisonAt l 8 && decide (leNat (s1.readLoc l 8) = 0)) (by decide +kernel)
  simp only [Bool.and_eq_true, Bool.not_eq_true', decide_eq_true_eq] at k
  exact ⟨s1, l, pte, by decide +kernel, rfl, by decide +kernel, h, k.1, k.2, by rw [k.2]; decide⟩
theorem wit_SoftwareTraps : (255 < 256 ∧ (lane.thread t0).trap = none ∧ lane.holdsLease t0 = false ∧ isHost t0 = false ∧ lane.Solo (.swi no 255) t0 ∧ lane.Solo (.brk no 0) t0)
    ∧ (isHost th0 = true ∧ user.holdsLease th0 = false ∧ user.Solo (.swi no 255) th0 ∧ host.holdsLease th0 = false ∧ host.Solo (.brk no 0) th0)
    ∧ lane.group.Nodup ∧ ∀ u ∈ lane.group, (lane.thread u).trap = none ∧ lane.holdsLease u = false ∧ isHost u = false := by
  refine ⟨⟨by decide, by decide +kernel, by decide +kernel, by decide, by decide +kernel, by decide +kernel⟩, ⟨by decide, by decide +kernel, by decide +kernel, by decide +kernel, by decide +kernel⟩, by decide +kernel, by decide +kernel⟩
theorem wit_AllotmentWords : lane.Solo (.grow no (.v 0) (.imm 8)) t0 ∧ ({ kind := .grow 8 } : Pending).kind = .grow 8 ∧ lane.Solo (.shrk no (.v 0) (.imm 248)) t0
    ∧ (∀ l < 32, ∀ p ∈ (lane.thread ⟨w0, l⟩).pend, ∀ x ∈ p.vw, x.1 < (lane.wave w0).allot - countOf (.imm 248)) ∧ countOf (.imm 248) + 8 ≤ (lane.wave w0).allot
    ∧ ¬(countOf (.imm 249) + 8 ≤ (lane.wave w0).allot) :=
  ⟨by decide +kernel, rfl, by decide +kernel, by decide +kernel, by decide +kernel, by decide +kernel⟩
def busy : State := { lane with ops := (List.range 8).map fun n => (n, { kind := .mma, issuer := t0, core := c0, wave := w0 }) }
theorem wit_EngineWords :
    (Spec.engine (.cpy no 5 (r 4)) = some (.cpy, 5, r 4, some 256, 16) ∧ lane.Solo (.cpy no 5 (r 4)) t0 ∧ isHost t0 = false ∧ lane.holdsLease t0 = false ∧ lane.readOp t0 (r 4).src .b32 = .ok 0
      ∧ Spec.queued lane lane.focus .cpy < 16 ∧ (0 : Dword).toNat % 8 = 0 ∧ (0 : Dword).toNat + 256 ≤ lane.scrSize (lane.teamOf t0))
    ∧ (Spec.engine (.kvx no 63 (r 0)) = some (.kvx, 63, r 0, some 64, 8) ∧ OpKind.kvx ≠ .mma ∧ hostPage.Solo (.kvx no 63 (r 0)) th0 ∧ isHost th0 = true ∧ hostPage.holdsLease th0 = false
      ∧ hostPage.readOp th0 (r 0).src .b64 = .ok 0x10000 ∧ Spec.queued hostPage hostPage.focus .kvx < 8 ∧ (0x10000 : Dword).toNat % 8 = 0
      ∧ ∃ s1 bs, (hostPage.begun (.kvx no 63 (r 0))).threadRead th0 0x10000 64 = (s1, .ok bs))
    ∧ (hostPage.Solo (.cgrpFree no 0 (r 4)) th0 ∧ hostPage.readOp th0 (r 4).src .b32 = .ok 0 ∧ Spec.queued hostPage hostPage.focus .cgrpFree < 8)
    ∧ (Spec.engine (.mma no 5 (r 4)) = some (.mma, 5, r 4, some 96, 8) ∧ busy.Solo (.mma no 5 (r 4)) t0 ∧ 8 ≤ Spec.queued busy busy.focus .mma)
    ∧ (laneV [(4, 4)]).Solo (.mma no 5 (r 4)) t0 ∧ ((laneV [(4, 4)]).thread t0).trap = none ∧ (laneV [(4, 4)]).holdsLease t0 = false ∧ (laneV [(4, 4)]).readOp t0 (r 4).src .b32 = .ok 4 ∧ (4 : Dword).toNat % 8 ≠ 0
    ∧ lane.scrSize (lane.teamOf t0) < (0xFFA8 : Dword).toNat + 96 := by
  refine ⟨⟨rfl, by decide +kernel, by decide, by decide +kernel, rfl, by decide +kernel, by decide, by decide +kernel⟩,
    ⟨rfl, by decide, by decide +kernel, by decide, by decide +kernel, rfl, by decide +kernel, by decide, ?_⟩, ⟨by decide +kernel, rfl, by decide +kernel⟩, ⟨rfl, by decide +kernel, by decide +kernel⟩,
    by decide +kernel, by decide +kernel, by decide +kernel, rfl, by decide, by decide +kernel⟩
  obtain ⟨s1, bs, h, _⟩ := okB_iff (R := (hostPage.begun (.kvx no 63 (r 0))).threadRead th0 0x10000 64) (p := fun _ _ => true) (by decide +kernel)
  exact ⟨s1, bs, h⟩
def deep : State := lane.modGrid 1 fun g => { g with depth := 10 }
/-- The host core with its page, in a partition of one package with pool 0 of 8-byte records. -/
def hostRecs : State := { hostPage.modPkg 0 (fun k => { k with n := 1 }) with pools := [(State.poolKey 0 0, { ctx := 0 })] }
theorem wit_LaunchAndPoolWords :
    (lane.Solo (.lnch no 5 (r 4)) t0 ∧ lane.holdsLease t0 = false ∧ lane.readOp t0 (r 4).src .b32 = .ok 0 ∧ (0 : Dword).toNat + 64 ≤ lane.scrSize (lane.teamOf t0)
      ∧ lane.poisonAt (.scr (lane.teamOf t0) 0) 64 = false ∧ (lane.grid (lane.team (lane.teamOf t0)).grid).depth < 10)
    ∧ (deep.Solo (.lnch no 5 (r 4)) t0 ∧ (deep.thread t0).trap = none ∧ 10 ≤ (deep.grid (deep.team (deep.teamOf t0)).grid).depth)
    ∧ (Spec.pool (.papp no 5 (r 4) (r 5)) = some (.papp, 5, r 4, some (r 5)) ∧ lane.Solo (.papp no 5 (r 4) (r 5)) t0 ∧ isHostCore t0.wave.core = false
      ∧ lane.readOps t0 [(r 4, .b32), (r 5, .b32)] = .ok [0, 0] ∧ (0 : Dword).toNat % 8 = 0 ∧ lane.poisonAt (.scr (lane.teamOf t0) 0) (lane.poolRec 0 0) = false)
    ∧ (hostPage.Solo (.papp no 5 (r 4) (r 0)) th0 ∧ hostPage.readOps th0 [(r 4, .b32), (r 0, .b64)] = .ok [0, 0x10000]
      ∧ ∃ s1 bs, (hostPage.begun (.papp no 5 (r 4) (r 0))).threadRead th0 0x10000 (hostPage.poolRec 0 (Spec.num 0)) = (s1, .ok bs))
    ∧ (∀ s ∈ [hostPage, hostRecs], s.Solo (.dqry no 5 (r 4) (r 0)) th0 ∧ s.holdsLease th0 = false ∧ s.readOps th0 [(r 4, .b32), (r 0, .b64)] = .ok [0, 0x10000])
    ∧ (hostPage.poolRec 0 (Spec.num 0) = 0 ∧ hostRecs.poolRec 0 (Spec.num 0) = 8
      ∧ ∃ s1 l1 s2 l2, (hostRecs.begun (.dqry no 5 (r 4) (r 0))).globalAddr th0 .store 0x10000 = (s1, .ok l1)
        ∧ s1.globalAddr th0 .store (0x10000 + BitVec.ofNat 64 (8 - 1)) = (s2, .ok l2))
    ∧ lane.Solo (.pcls no 5 (r 4)) t0 ∧ lane.readOps t0 [(r 4, .b32)] = .ok [0] := by
  refine ⟨⟨by decide +kernel, by decide +kernel, rfl, by decide +kernel, by decide +kernel, by decide +kernel⟩, ⟨by decide +kernel, by decide +kernel, by decide +kernel⟩,
    ⟨rfl, by decide +kernel, by decide, rfl, by decide, by decide +kernel⟩, ⟨by decide +kernel, rfl, ?_⟩, ?_, ⟨by decide +kernel, by decide +kernel, ?_⟩, by decide +kernel, rfl⟩
  · obtain ⟨s1, bs, h, _⟩ := okB_iff (R := (hostPage.begun (.papp no 5 (r 4) (r 0))).threadRead th0 0x10000 (hostPage.poolRec 0 (Spec.num 0))) (p := fun _ _ => true) (by decide +kernel)
    exact ⟨s1, bs, h⟩
  · intro s h
    simp only [List.mem_cons, List.not_mem_nil, or_false] at h
    obtain rfl | rfl := h <;> exact ⟨by decide +kernel, by decide +kernel, rfl⟩
  · obtain ⟨s1, l1, h1, k⟩ := okB_iff (R := (hostRecs.begun (.dqry no 5 (r 4) (r 0))).globalAddr th0 .store 0x10000)
      (p := fun s1 _ => okB (s1.globalAddr th0 .store (0x10000 + BitVec.ofNat 64 (8 - 1))) fun _ _ => true) (by decide +kernel)
    obtain ⟨s2, l2, h2, _⟩ := okB_iff k
    exact ⟨s1, l1, s2, l2, h1, h2⟩
/-- The lane's team with a reserved range of one kilobyte at handle 0, and an operation that uses it. -/
def withTob : State := lane.modTeam 1 fun x => { x with handles := [(0, { len := 1, ring := true })] }
def tobUsed : State := { withTob with ops := [(0, { kind := .mma, issuer := t0, team := 1, core := c0, wave := w0, handles := [0] })], nextId := 2 }
/-- The lane's tile 2 in use by an operation. -/
def tileUsed : State := { lane with ops := [(0, { kind := .mma, issuer := t0, team := 1, core := c0, wave := w0, st := .active, tiles := [2] })], nextId := 2 }
theorem wit_OperandBuffers :
    lane.Solo (.trsv no (.s 8) 15 62) t0
    ∧ Can (.trel no 1) withTob t0 [] (fun s u _ _ => s.tobFor (s.teamOf u) 1 s.nextId = none)
    ∧ Can (.trel no 0) withTob t0 [] (fun s u _ _ => s.tobFor (s.teamOf u) 0 s.nextId ≠ none ∧ s.handleBusy (s.teamOf u) 0 s.nextId = false)
    ∧ Can (.trel no 0) tobUsed t0 [] (fun s u _ _ => s.tobFor (s.teamOf u) 0 s.nextId ≠ none ∧ s.handleBusy (s.teamOf u) 0 s.nextId = true)
    ∧ Can (.trng no 0) withTob t0 [] (fun s u _ _ => s.handleBusy (s.teamOf u) 0 s.nextId = false) ∧ Can (.trng no 0) tobUsed t0 [] (fun s u _ _ => s.handleBusy (s.teamOf u) 0 s.nextId = true)
    ∧ withTob.tob 1 0 = some { len := 1, ring := true }
    ∧ Can (.twr no 0 true (im 1016) (r 2)) withTob t0 [1016, 0] (fun s u _ xs => Spec.inRange s (s.teamOf u) 0 (arg xs 0).toNat 8 false)
    ∧ withTob.Solo (.trd no (.v 4) 0 true (im 1016)) t0 ∧ withTob.readOps t0 (State.srcsOf (.trd no (.v 4) 0 true (im 1016))) = .ok [1016]
    ∧ Spec.inRange withTob (withTob.teamOf t0) 0 1016 8 true :=
  ⟨by decide +kernel, ⟨by decide +kernel, rfl, by decide +kernel⟩, ⟨by decide +kernel, rfl, by decide +kernel⟩, ⟨by decide +kernel, rfl, by decide +kernel⟩,
    ⟨by decide +kernel, rfl, by decide +kernel⟩, ⟨by decide +kernel, rfl, by decide +kernel⟩, by decide +kernel,
    ⟨by decide +kernel, rfl, by decide, { len := 1, ring := true }, by decide +kernel, by decide, fun h => by cases h⟩,
    by decide +kernel, rfl, by decide, { len := 1, ring := true }, by decide +kernel, by decide, fun _ p h => by cases h⟩
theorem wit_AccumulatorTiles :
    Can (.accz no 15) lane t0 [] (fun s u pc _ => Spec.tileFree s u 15 pc)
    ∧ (Spec.tileWord (.accz no 2) = some 2 ∧ tileUsed.Solo (.accz no 2) t0 ∧ ¬Spec.tileFree tileUsed t0 2 tileUsed.wordPc)
    ∧ ((lane.thread t0).place = none)
    ∧ Can (.accst no true 2 (r 0) (r 4)) (laneV [(4, 256)]) t0 [0, 256] (fun s u pc xs => Spec.tileFree s u 2 pc ∧ (true = false ∨ s.holdsLease u = false)
        ∧ (arg xs 0).toNat % 4 = 0 ∧ Spec.num (arg xs 1) % 4 = 0 ∧ 256 ≤ Spec.num (arg xs 1) ∧ (OpKind.accst = .accst → (s.tile (s.teamOf u) 2).poison = false))
    ∧ Can (.accmvRd no 4 2 (r 1)) lane t0 [0] (fun s u pc _ => Spec.tileFree s u 2 pc ∧ (s.tile (s.teamOf u) 2).poison = false)
    ∧ (lane.Solo (.accmvWr no 2 4 true (r 1)) t0 ∧ lane.readOps t0 (State.srcsOf (.accmvWr no 2 4 true (r 1))) = .ok [0] ∧ Spec.tileFree lane t0 2 lane.wordPc
      ∧ lane.readSpan t0 4 2 = .ok [0, 0])
    ∧ Can (.mwait no) lane t0 [] (fun s u _ _ => ∀ y ∈ s.ops, y.2.kind = .mma → y.2.team = s.teamOf u → y.2.pending = false)
    ∧ Can (.mwait no) tileUsed t0 [] (fun s u _ _ => ∃ y ∈ s.ops, y.2.kind = .mma ∧ y.2.team = s.teamOf u ∧ y.2.pending = true) :=
  ⟨⟨by decide +kernel, rfl, by decide +kernel⟩, ⟨rfl, by decide +kernel, by decide +kernel⟩, by decide +kernel, ⟨by decide +kernel, rfl, by decide +kernel⟩,
    ⟨by decide +kernel, rfl, by decide +kernel⟩, ⟨by decide +kernel, rfl, by decide +kernel, rfl⟩, ⟨by decide +kernel, rfl, by decide +kernel⟩, ⟨by decide +kernel, rfl, by decide +kernel⟩⟩
theorem wit_FragmentMultiply : (lane.Ready (.mxr no .bf16 .e5m2 true 32 0 8 false true) ∧ (lane.group.map (·.lane)).Nodup
      ∧ ∀ u ∈ lane.group, (lane.thread u).passes no.guard = true → (lane.readSpan u 0 8).isOk = true ∧ (lane.readSpan u 8 4).isOk = true ∧ (lane.readSpan u 32 32).isOk = true)
    ∧ (∃ row, lane.readSpan t0 0 8 = .ok row) ∧ (∃ crow, lane.readSpan t0 32 32 = .ok crow) ∧ (∃ col, ∃ v ∈ lane.group, v.lane = 0 ∧ lane.readSpan v 8 4 = .ok col)
    ∧ ∀ v ∈ lane.group, v.lane ≠ 31 :=
  ⟨⟨by decide +kernel, by decide +kernel, by decide +kernel⟩, ⟨_, rfl⟩, ⟨_, rfl⟩, ⟨_, t0, by decide +kernel, rfl, rfl⟩, by decide +kernel⟩
theorem wit_ChannelQuery : lane.Ready (.kvq no (.v 0) (r 1)) ∧ lane.Readable (State.readsOf (.kvq no (.v 0) (r 1))) ∧ lane.readOps t0 (State.srcsOf (.kvq no (.v 0) (r 1))) = .ok [0] :=
  ⟨by decide +kernel, by decide +kernel, rfl⟩

-- events: a state in which each is due, and one in which it is not

/-- An event is due in one state and not in another. -/
def Due (due : State → Prop) (s s' : State) : Prop := due s ∧ ¬due s'
/-- A state in which die 0 has counted to a cycle. -/
def at_ (n : Nat) (s : State) : State := s.modDie 0 0 fun x => { x with now := n }
def hubAt (n : Nat) (s : State) : State := s.modDie 0 8 fun x => { x with now := n }
def st (x : Status) : State := onThread fun th => { th with status := x }
abbrev sig (v : Dword) : Status := .blocked (.sigw .ge 0x10000 v (.v 4) .rack [] 0x10008 0)
abbrev wanting (d : Bool) (ls : List LeaseLine) : Lease := { lines := ls, want := some (lineOf page, 0x10000, 0), deferred := d }
/-- The lane blocked for the grant of a line that its core owns; and with another thread of the core urgent. -/
def granting (l : Lease) : State := owns .e (onThread fun th => { th with status := .blocked .grant, lease := some l })
def urgent (s : State) : State := s.setThread t1 { pc := 0x10000, status := .runnable, urgent := some 0 }
theorem wit_ThreadEvents_waits :
    Due (fun s => ∃ n, (s.thread t0).yldUntil = some n ∧ n ≤ s.now t0.wave.core) (at_ 32 (onThread fun th => { th with yldUntil := some 32 })) lane
    ∧ (∃ v s1 l pte, ((st (sig v)).thread t0).status = sig v ∧ (st (sig v)).accessAddr t0 .g .load 0x10000 8 = (s1, .loc l pte) ∧ s1.poisonAt l 8 = false
      ∧ v.toNat ≤ leNat (s1.readLoc l 8))
    ∧ (∃ v s1 l pte, ((st (sig v)).thread t0).status = sig v ∧ (st (sig v)).accessAddr t0 .g .load 0x10000 8 = (s1, .loc l pte) ∧ s1.poisonAt l 8 = false
      ∧ ¬v.toNat ≤ leNat (s1.readLoc l 8))
    ∧ Due (fun s => (∃ sc, (s.thread t0).status = .blocked (.fence sc)) ∧ State.openOf (s.core t0.wave.core) t0 = ([], []) ∧ s.mirroring t0 = false) (st (.blocked (.fence .rack))) lane
    ∧ ((st (.blocked (.pfen .ls .kc))).thread t0).status = .blocked (.pfen .ls .kc)
    ∧ Due (fun s => (s.thread t0).status = .runnable ∧ (s.thread t0).urgent = none ∧ s.prog t0 = true ∧ (s.regsOf t0).fairPeriod.toNat ≤ s.waitCount t0) (at_ 2048 lane) (at_ 2047 lane)
    ∧ Due (fun s => ∃ k n, (s.thread t0).status = .blocked (.tile k n) ∧ s.tileBusy (s.teamOf t0) k n = false) (st (.blocked (.tile 15 2))) lane := by
  have hs (v : Dword) (b : Bool) (h : locB ((st (sig v)).accessAddr t0 .g .load 0x10000 8) (fun s1 l => !s1.poisonAt l 8 && (decide (v.toNat ≤ leNat (s1.readLoc l 8)) == b)) = true)
      (h1 : ((st (sig v)).thread t0).status = sig v) : ∃ s1 l pte, ((st (sig v)).thread t0).status = sig v ∧ (st (sig v)).accessAddr t0 .g .load 0x10000 8 = (s1, .loc l pte)
        ∧ s1.poisonAt l 8 = false ∧ decide (v.toNat ≤ leNat (s1.readLoc l 8)) = b := by
    obtain ⟨s1, l, pte, h, k⟩ := locB_iff h
    simp only [Bool.and_eq_true, Bool.not_eq_true', beq_iff_eq] at k
    exact ⟨s1, l, pte, h1, h, k.1, k.2⟩
  refine ⟨⟨⟨32, by decide +kernel, by decide +kernel⟩, fun ⟨n, h, _⟩ => by cases h⟩, ?_, ?_, ⟨⟨⟨.rack, by decide +kernel⟩, by decide +kernel, by decide +kernel⟩, fun ⟨⟨_, h⟩, _⟩ => by cases h⟩,
    by decide +kernel, ⟨by decide +kernel, by decide +kernel⟩, ⟨15, 2, by decide +kernel, by decide +kernel⟩, fun ⟨_, _, h, _⟩ => by cases h⟩
  · obtain ⟨s1, l, pte, h, a, b, c⟩ := hs 0 true (by decide +kernel) (by decide +kernel); exact ⟨0, s1, l, pte, h, a, b, of_decide_eq_true c⟩
  · obtain ⟨s1, l, pte, h, a, b, c⟩ := hs 1 false (by decide +kernel) (by decide +kernel); exact ⟨1, s1, l, pte, h, a, b, of_decide_eq_false c⟩
/-- The lane outside a group, with a result in flight. -/
def inFlight (n : Nat) (q : Pending) (x : Status) : State :=
  at_ n ((onThread fun th => { th with pend := [q], status := x }).modCore c0 fun c => { c with group := [], runOpen := false })
theorem wit_ThreadEvents_results :
    (∀ x ∈ [Status.runnable, .blocked (.result 9)], Due (fun s => t0 ∉ (s.core t0.wave.core).group ∧ ((∃ k, (s.thread t0).status = .blocked (.result k) ∧ k ≤ s.now t0.wave.core)
        ∨ ∃ p ∈ (s.thread t0).longPends, p.due ≤ s.now t0.wave.core))
      (inFlight 9 { vw := [(3, 7)], due := 9 } x) (inFlight 8 { vw := [(3, 7)], due := 9 } x)
      ∧ ∀ p ∈ ((inFlight 9 { vw := [(3, 7)], due := 9 } x).thread t0).pend, p.fault = none ∧ Spec.settled (inFlight 9 { vw := [(3, 7)], due := 9 } x) p)
    ∧ (let s := inFlight 9 { fault := some (.xlat, 0, 0), due := 9 } .runnable;
      t0 ∉ (s.core t0.wave.core).group ∧ ((s.thread t0).pend.filter fun q => !q.kind.quick && decide (q.due ≤ s.now t0.wave.core)) = [{ fault := some (.xlat, 0, 0), due := 9 }]
      ∧ isHost t0 = false ∧ s.holdsLease t0 = false ∧ (s.thread t0).trap = none)
    ∧ Due (fun s => ∃ p ∈ (s.thread t0).pend, p.kind = .trd ∧ p.due ≤ s.now t0.wave.core) (at_ 3 (onThread fun th => { th with pend := [{ kind := .trd, due := 3 }] })) lane
    ∧ Due (fun s => ∃ p ∈ (s.thread t0).pend, p.kind = .mxr ∧ p.due ≤ s.now t0.wave.core) (at_ 16 (onThread fun th => { th with pend := [{ kind := .mxr, due := 16 }] })) lane := by
  refine ⟨fun x h => ?_, by decide +kernel, ⟨by decide +kernel, by decide +kernel⟩, by decide +kernel, by decide +kernel⟩
  simp only [List.mem_cons, List.not_mem_nil, or_false] at h
  obtain rfl | rfl := h
  · refine ⟨⟨⟨by decide +kernel, .inr (by decide +kernel)⟩, ?_⟩, ?_⟩
    · rintro ⟨_, ⟨k, h, _⟩ | h⟩
      · exact nomatch h
      · exact absurd h (by decide +kernel)
    · intro p h
      obtain rfl : p = { vw := [(3, 7)], due := 9 } := by simpa using (show p ∈ [({ vw := [(3, 7)], due := 9 } : Pending)] from h)
      exact ⟨rfl, fun x hx => nomatch hx⟩
  · refine ⟨⟨⟨by decide +kernel, .inl ⟨9, by decide +kernel, by decide +kernel⟩⟩, ?_⟩, ?_⟩
    · rintro ⟨_, ⟨k, h, h8⟩ | h⟩
      · have h9 : ((inFlight 8 { vw := [(3, 7)], due := 9 } (.blocked (.result 9))).thread t0).status = .blocked (.result 9) := rfl
        rw [h9] at h
        cases h
        exact absurd h8 (by decide +kernel)
      · exact absurd h (by decide +kernel)
    · intro p h
      obtain rfl : p = { vw := [(3, 7)], due := 9 } := by simpa using (show p ∈ [({ vw := [(3, 7)], due := 9 } : Pending)] from h)
      exact ⟨rfl, fun x hx => nomatch hx⟩
theorem wit_ThreadEvents_leases :
    (let s := granting (wanting false []);
      (s.thread t0).status = .blocked .grant ∧ (s.thread t0).lease = some (wanting false []) ∧ s.ownsLine t0.wave.core (lineOf page) = true ∧ s.lineLeased (lineOf page) = false
      ∧ s.turnBefore t0 (lineOf page) 0 = false ∧ s.leasesOn t0.wave.core < 8 ∧ s.defersLeases t0.wave.core = false ∧ (urgent s).defersLeases t0.wave.core = true)
    ∧ (let s := onThread fun th => { th with status := .blocked .grant, lease := some (wanting false []) };
      (s.thread t0).status = .blocked .grant ∧ (s.thread t0).lease = some (wanting false []) ∧ s.ownsLine t0.wave.core (lineOf page) = false
      ∧ ∀ m ∈ (s.core t0.wave.core).misses, m.line ≠ lineOf page)
    ∧ (let s := granting (wanting true []);
      (s.thread t0).status = .blocked .grant ∧ (s.thread t0).lease = some (wanting true []) ∧ s.defersLeases t0.wave.core = false ∧ s.lineLeased (lineOf page) = false ∧ s.leasesOn t0.wave.core < 8
      ∧ s.ownsLine t0.wave.core (lineOf page) = true)
    ∧ (let s := onThread fun th => { th with status := .blocked .grant, lease := some (wanting true []) };
      (s.thread t0).status = .blocked .grant ∧ s.ownsLine t0.wave.core (lineOf page) = false ∧ ∃ s1 pa pte,
        (s.modThread t0 fun th => { th with lease := some { wanting true [] with deferred := false } }).globalAddr t0 .rmw 0x10000 = (s1, .ok (pa, pte)))
    ∧ Due (fun s => ∃ l, (s.thread t0).lease = some l ∧ l.lines ≠ [] ∧ l.deadline ≤ s.now t0.wave.core) (at_ 256 leased) lane
    ∧ Due (fun s => ∃ l a b n, (s.thread t0).lease = some l ∧ l.lines ≠ [] ∧ l.want = some (a, b, n) ∧ n + 64 ≤ s.now t0.wave.core)
      (at_ 64 (granting (wanting false [⟨0, 0, []⟩]))) lane := by
  refine ⟨by decide +kernel, by decide +kernel, by decide +kernel, ⟨by decide +kernel, by decide +kernel, ?_⟩, ⟨⟨held1, by decide +kernel, by decide, by decide +kernel⟩, fun ⟨_, h, _⟩ => by cases h⟩,
    ⟨_, _, _, _, rfl, by decide, rfl, by decide +kernel⟩, fun ⟨_, _, _, _, h, _⟩ => by cases h⟩
  obtain ⟨s1, x, h, _⟩ := okB_iff (R := ((onThread fun th => { th with status := .blocked .grant, lease := some (wanting true []) }).modThread t0 fun th =>
    { th with lease := some { wanting true [] with deferred := false } }).globalAddr t0 .rmw 0x10000) (p := fun _ _ => true) (by decide +kernel)
  exact ⟨s1, x.1, x.2, h⟩
def late : State := lane.modThread t0 fun th => { th with pend := [{ vw := [(3, 7)], due := 17 }] }
def waitsFor (x : BlockOn) : State := withTob.modThread t0 fun th => { th with status := .blocked x }
theorem waits (x : BlockOn) : Spec.Waits (waitsFor x) 1 t0 x := ⟨(waitsFor x).thread t0, .head _, rfl, rfl⟩
theorem reset_waits_not (tm : Nat) (u : ThreadId) (x : BlockOn) : ¬Spec.Waits State.reset tm u x := fun ⟨_, h, _⟩ => nomatch h
def moving (k : OpKind) : State := { lane with ops := [(0, { kind := k, issuer := t0, team := 1, core := c0, wave := w0, st := .active, tile := 15, stride := 1024 })] }
theorem wit_TeamEvents :
    Due (fun s => (∃ u ∈ (s.core c0).group, s.coreTime c0 + 16 < (s.thread u).longPends.foldl (fun m p => if p.la = 0 then max m p.due else m) 0)
      ∧ ∀ u ∈ (s.core c0).group, (s.thread u).latchOnly = false) late lane
    ∧ Due (fun s => ∃ a, (s.wave w0).absent = some a ∧ 31 ∈ a.granules) (lane.modWave w0 fun w => { w with absent := some ⟨0, [0, 31]⟩ }) lane
    ∧ Due (fun s => ∃ u, ∃ n, Spec.Waits s 1 u (.trel 0 n) ∧ s.handleBusy 1 0 n = false) (waitsFor (.trel 0 2)) State.reset
    ∧ Due (fun s => ∃ u, ∃ n, Spec.Waits s 1 u (.trng 0 n) ∧ s.handleBusy 1 0 n = false) (waitsFor (.trng 0 2)) State.reset
    ∧ Due (fun s => ∃ u, ∃ ns, Spec.Waits s 1 u (.mwait ns) ∧ ∀ n ∈ ns, ∀ o, s.op n = some o → o.pending = false) (waitsFor (.mwait [])) State.reset
    ∧ ∀ k, k = .accld ∨ k = .accst → ∃ o, (moving k).op 0 = some o ∧ o.kind = k ∧ ((moving k).team o.team).onCore = true ∧ o.glob = false ∧ 256 ≤ o.stride ∧ o.stride < 2 ^ 32
      ∧ ∀ r < 64, (o.addr + BitVec.ofNat 64 (r * o.stride)).toNat + 256 ≤ (moving k).scrSize o.team
        ∧ (moving k).poisonAt (.scr o.team (o.addr + BitVec.ofNat 64 (r * o.stride)).toNat) 256 = false := by
  refine ⟨by unfold Due; decide +kernel, ⟨⟨⟨0, [0, 31]⟩, by decide +kernel, by decide⟩, fun ⟨_, h, _⟩ => nomatch h⟩,
    ⟨⟨t0, 2, waits _, by decide +kernel⟩, fun ⟨_, _, h, _⟩ => reset_waits_not _ _ _ h⟩, ⟨⟨t0, 2, waits _, by decide +kernel⟩, fun ⟨_, _, h, _⟩ => reset_waits_not _ _ _ h⟩,
    ⟨⟨t0, [], waits _, by simp⟩, fun ⟨_, _, h, _⟩ => reset_waits_not _ _ _ h⟩, ?_⟩
  rintro k (rfl | rfl) <;> exact ⟨_, rfl, rfl, by decide +kernel, rfl, by decide, by decide, by decide +kernel⟩
/-- A matrix operation of 64 by 64 by 64 with operands in handles 0 and 1, or remote. -/
def mmaBlock (remote : Bool) (k done : Nat) : List Byte :=
  [64, 0, 64, 0, BitVec.ofNat 8 k, 0, 0, 0, 0, if remote then 6 else 0, 0, if remote then 0 else 1, BitVec.ofNat 8 done, 0, 0, 0]
    ++ (if remote then (List.replicate 16 0 ++ [128, 0, 0, 0, 0, 0, 0, 0, 1, 0, 0, 0, 0, 0, 0, 0]) ++ (List.replicate 16 0 ++ [128, 0, 0, 0, 0, 0, 0, 0, 1, 0, 0, 0, 0, 0, 0, 0])
        else List.replicate 64 0) ++ List.replicate 16 0
def mmaOp (x : OpState) (block : List Byte) (done : Nat) : Op := { kind := .mma, issuer := t0, team := 1, ctx := 1, grid := 1, core := c0, wave := w0, st := x, block, done }
/-- The lane's team with that operation, its block at the scratchpad's start, and two ranges. -/
def mma (o : Op) (x : Tob) : State :=
  { (lane.setScr 1 0 o.block).modTeam 1 (fun t => { t with handles := [(0, x), (1, x)] }) with ops := [(0, o)], nextId := 1 }
abbrev plainTob : Tob := { len := 8, fmt := 1 }
abbrev ringTob (p c : Nat) : Tob := { len := 8, fmt := 1, ring := true, ppos := p, cpos := c }
abbrev mmaDue (s : State) : Prop := ∃ o, s.op 0 = some o ∧ o.kind = .mma ∧ o.st = .queued ∧ (s.team o.team).onCore = true ∧ s.running o.core.pkg = true
        ∧ ∀ y ∈ s.ops, y.1 < 0 → y.2.team = o.team → y.2.kind = .mma → y.2.st ≠ .queued
theorem wit_MatrixEvents_accept : Due mmaDue (mma (mmaOp .queued (mmaBlock false 64 0) 0) plainTob) lane
    ∧ (∀ block x, (block, x) ∈ [(mmaBlock false 64 0, (none : Option Nat)), (mmaBlock false 64 1, none), (mmaBlock true 64 0, none), (mmaBlock false 1 0, some 0x21)] →
      ∃ o, (mma (mmaOp .queued block 0) plainTob).op 0 = some o ∧ match x with
        | none => okE ((mma (mmaOp .queued block 0) plainTob).mmaCheck 0 { o with block := (mma (mmaOp .queued block 0) plainTob).scrBytes o.team o.off.toNat 96 }) (fun _ => true) = true
        | some st => errE ((mma (mmaOp .queued block 0) plainTob).mmaCheck 0 { o with block := (mma (mmaOp .queued block 0) plainTob).scrBytes o.team o.off.toNat 96 }) (fun e => e = st) = true)
    ∧ (¬Spec.dimOk 0 ∧ ¬Spec.dimOk 63 ∧ Spec.dimOk 64 ∧ Spec.dimOk 1024 ∧ 16 < 1024 / 64 * (1024 / 64)) := by
  refine ⟨⟨⟨_, rfl, rfl, rfl, by decide +kernel, by decide +kernel, fun _ _ h => absurd h (Nat.not_lt_zero _)⟩, fun ⟨_, h, _⟩ => nomatch h⟩, ?_, by unfold Spec.dimOk; decide⟩
  intro block x h
  simp only [List.mem_cons, List.not_mem_nil, or_false, Prod.mk.injEq] at h
  obtain ⟨rfl, rfl⟩ | ⟨rfl, rfl⟩ | ⟨rfl, rfl⟩ | ⟨rfl, rfl⟩ := h <;> exact ⟨_, rfl, by decide +kernel⟩
def mmaRun (remote : Bool) (k kdone : Nat) (x : Tob) : State := mma { mmaOp .active (mmaBlock remote k kdone) kdone with tiles := [0], startAt := some 0 } x
/-- The operation accepted and not yet started. -/
def mmaReady : State := mma { mmaOp .active (mmaBlock false 64 0) 0 with tiles := [0] } plainTob
/-- The same with ring operands, of two handles. -/
def mmaRing (done p c : Nat) : State :=
  (mmaRun false 64 done (ringTob p c)).modTeam 1 fun t => { t with handles := [(0, ringTob p c), (1, ringTob p c)] }
theorem wit_MatrixEvents_starts : (mmaRun false 64 0 plainTob).mmaOccupied c0 = true ∧ mmaReady.mmaOccupied c0 = false
    ∧ ∃ o, mmaReady.op 0 = some o ∧ mmaReady.mmaWaiting c0 = [((mmaReady.team o.team).slot, 0)] :=
  ⟨by decide +kernel, by decide +kernel, _, rfl, by decide +kernel⟩
theorem wit_MatrixEvents_ends :
    (∃ s o a b s1 o1, s = at_ 1000000 (mmaRun false 64 1 plainTob) ∧ s.mmaActive 0 = some (o, a, b) ∧ (a.ring = false ∧ b.ring = false) ∧ o.startAt.getD 0 + s.mmaTime o a b ≤ s.now o.core
      ∧ s.runChunks 0 a b (o.mmaK / 64 + 1) o = (s1, o1, none))
    ∧ (∃ s o a b s1 o1 c lvl va side, s = mmaRun true 64 0 plainTob ∧ s.mmaActive 0 = some (o, a, b) ∧ a.ring = false ∧ b.ring = false
      ∧ s.runChunks 0 a b (o.mmaK / 64 + 1) o = (s1, o1, some (some (c, lvl, va), side))) := by
  constructor
  · obtain ⟨x, h, k⟩ := isB_iff (R := (at_ 1000000 (mmaRun false 64 1 plainTob)).mmaActive 0) (p := fun x => !x.2.1.ring && !x.2.2.ring
      && decide (x.1.startAt.getD 0 + (at_ 1000000 (mmaRun false 64 1 plainTob)).mmaTime x.1 x.2.1 x.2.2 ≤ (at_ 1000000 (mmaRun false 64 1 plainTob)).now x.1.core)
      && decide (x.1.done ≥ x.1.mmaK / 64)) (by decide +kernel)
    simp only [Bool.and_eq_true, Bool.not_eq_true', decide_eq_true_eq] at k
    exact ⟨_, x.1, x.2.1, x.2.2, at_ 1000000 (mmaRun false 64 1 plainTob), x.1, rfl, h, k.1.1, k.1.2, by rw [State.runChunks]; simp only [k.2, if_true]⟩
  · obtain ⟨x, h, k⟩ := isB_iff (R := (mmaRun true 64 0 plainTob).mmaActive 0) (p := fun x => !x.2.1.ring && !x.2.2.ring
      && (((mmaRun true 64 0 plainTob).runChunks 0 x.2.1 x.2.2 (x.1.mmaK / 64 + 1) x.1).2.2.bind (·.1)).isSome) (by decide +kernel)
    simp only [Bool.and_eq_true, Bool.not_eq_true'] at k
    obtain ⟨⟨ka, kb⟩, kc⟩ := k
    generalize hr : (mmaRun true 64 0 plainTob).runChunks 0 x.2.1 x.2.2 (x.1.mmaK / 64 + 1) x.1 = R at kc
    obtain ⟨s1, o1, _ | ⟨_ | ⟨c, lvl, va⟩, side⟩⟩ := R
    · cases kc
    · cases kc
    · exact ⟨_, x.1, x.2.1, x.2.2, s1, o1, c, lvl, va, side, rfl, h, ka, kb, hr⟩
theorem wit_MatrixEvents_streams : ∀ p c, (p, c) ∈ [(0, 0), (1, 0), (2 ^ 32, 2 ^ 32 - 1)] →
    ∃ o a b s1 o1 x r, (mmaRing 0 p c).mmaActive 0 = some (o, a, b) ∧ o.done < o.mmaK / 64 ∧ a.ring = true ∧ (mmaRing 0 p c).stageFixed 0 o a b = (s1, .ok o1)
      ∧ x = (if a.ring = true ∧ o1.rowsA.length < o1.mmaM then a else b) ∧ s1.tob o1.team x.handle = some r ∧ r.ppos = p ∧ r.cpos = c
      ∧ (s1.rangeRows o1 x (r.cpos % r.slots * slotBytes x.fmt x.skind x.scoff) 64 0 64).isOk = true := by
  intro p c h
  have main (p c : Nat) (h : isB ((mmaRing 0 p c).mmaActive 0) (fun x => decide (x.1.done < x.1.mmaK / 64) && x.2.1.ring
      && okB ((mmaRing 0 p c).stageFixed 0 x.1 x.2.1 x.2.2) (fun s1 o1 => isB (s1.tob o1.team (if x.2.1.ring = true ∧ o1.rowsA.length < o1.mmaM then x.2.1 else x.2.2).handle) fun r =>
        decide (r.ppos = p) && decide (r.cpos = c) && (s1.rangeRows o1 (if x.2.1.ring = true ∧ o1.rowsA.length < o1.mmaM then x.2.1 else x.2.2)
          (r.cpos % r.slots * slotBytes (if x.2.1.ring = true ∧ o1.rowsA.length < o1.mmaM then x.2.1 else x.2.2).fmt (if x.2.1.ring = true ∧ o1.rowsA.length < o1.mmaM then x.2.1 else x.2.2).skind
            (if x.2.1.ring = true ∧ o1.rowsA.length < o1.mmaM then x.2.1 else x.2.2).scoff) 64 0 64).isOk)) = true) :
      ∃ o a b s1 o1 x r, (mmaRing 0 p c).mmaActive 0 = some (o, a, b) ∧ o.done < o.mmaK / 64 ∧ a.ring = true ∧ (mmaRing 0 p c).stageFixed 0 o a b = (s1, .ok o1)
      ∧ x = (if a.ring = true ∧ o1.rowsA.length < o1.mmaM then a else b) ∧ s1.tob o1.team x.handle = some r ∧ r.ppos = p ∧ r.cpos = c
      ∧ (s1.rangeRows o1 x (r.cpos % r.slots * slotBytes x.fmt x.skind x.scoff) 64 0 64).isOk = true := by
    obtain ⟨x, hx, k⟩ := isB_iff h
    simp only [Bool.and_eq_true, decide_eq_true_eq] at k
    obtain ⟨⟨k1, k2⟩, k3⟩ := k
    obtain ⟨s1, o1, e, k3⟩ := okB_iff k3
    obtain ⟨r, er, k3⟩ := isB_iff k3
    simp only [Bool.and_eq_true, decide_eq_true_eq] at k3
    exact ⟨x.1, x.2.1, x.2.2, s1, o1, _, r, hx, k1, k2, e, rfl, er, k3.1.1, k3.1.2, k3.2⟩
  simp only [List.mem_cons, List.not_mem_nil, or_false, Prod.mk.injEq] at h
  obtain ⟨rfl, rfl⟩ | ⟨rfl, rfl⟩ | ⟨rfl, rfl⟩ := h <;> exact main _ _ (by decide +kernel)
/-- The cores on which a pattern product is called for: by a corrected error, by an operation at work for 65,536 cycles, and by one that has ended. -/
def called : State := lane.modCore c0 fun c => { c with calls := [15] }
def worked : State := at_ 65536 (mmaRun false 64 0 plainTob)
def followed : State := mma { mmaOp (.completed 0) [] 1 with tiles := [3] } plainTob
abbrev hit (y : Nat × Op) : Prop := y.2.kind = .mma ∧ y.2.core = c0 ∧ y.2.tiles ≠ [] ∧ y.2.pending = false ∧ y.2.tested = false
abbrev allArrays (s : State) : Prop := (s.mmaOccupied c0 = true ∧ (s.core c0).workSince + 65536 ≤ s.now c0) ∨ ∃ y ∈ s.ops, hit y
theorem wit_MatrixEvents_patterns :
    Due (fun s => allArrays s ∨ (s.core c0).calls ≠ []) called lane ∧ Due (fun s => allArrays s ∨ (s.core c0).calls ≠ []) worked (at_ 65535 worked)
    ∧ (allArrays worked ∧ allArrays followed ∧ ¬allArrays called)
    ∧ (∃ k < 16, (0x8000 : Nat).testBit k = true ∧ (called.core c0).fence.testBit k = false ∧ k ∈ (called.core c0).calls)
    ∧ (∀ k < 16, (0x10000 : Nat).testBit k = false)
    ∧ (∃ k < 16, (0x8000 : Nat).testBit k = true ∧ (followed.core c0).fence.testBit k = false)
    ∧ ∃ o, (0, o) ∈ followed.ops ∧ hit (0, o) ∧ o.tiles = [3] := by
  unfold Due
  exact ⟨by decide +kernel, by decide +kernel, by decide +kernel, by decide +kernel, by decide +kernel, by decide +kernel, _, .head _, by decide +kernel, rfl⟩
/-- A descriptor of `n` bytes with fields: offset, size, value. -/
def fields (n : Nat) (fs : List (Nat × Nat × Nat)) : List Byte := fs.foldl (fun bs f => bs.take f.1 ++ leBytes f.2.2 f.2.1 ++ bs.drop (f.1 + f.2.1)) (List.replicate n 0)
/-- The lane with one engine operation of a descriptor. -/
def withOp (k : OpKind) (x : OpState) (bs : List Byte) (f : Op → Op := id) : State :=
  { lane with ops := [(0, f { lane.newOp t0 k 0 256 0x10000 bs with st := x })], nextId := 1 }
/-- A copy of `n` 4-byte elements in the scratchpad, from offset 1024 to 2048, but for the fields given. -/
def cpyBlock (fs : List (Nat × Nat × Nat)) : List Byte :=
  fields 256 ([(0, 8, 1024), (8, 8, 2048), (0x10, 1, 1), (0x11, 1, 1), (0x14, 1, 1), (0x15, 1, 2), (0x30, 4, 2), (0x60, 8, 4), (0xB0, 8, 4)] ++ fs)
def cpyiBlock (fs : List (Nat × Nat × Nat)) : List Byte :=
  fields 80 ([(0x18, 1, 1), (0x19, 1, 1), (0x1A, 1, 1), (0x20, 4, 1), (0x24, 4, 4), (0x28, 8, 8), (0, 8, 1024), (8, 8, 2048), (0x10, 8, 1536), (0x30, 8, 4)] ++ fs)
def kvxBlock (fs : List (Nat × Nat × Nat)) : List Byte := fields 64 ([(4, 4, 1), (8, 4, 256), (0x10, 8, 0x10000), (0x18, 8, 0x10000)] ++ fs)
def collBlock (fs : List (Nat × Nat × Nat)) : List Byte := fields 64 ([(8, 4, 1), (0x10, 8, 0x10000), (0x18, 8, 0x10004)] ++ fs)
def chan3 (st : Nat) (s : State) : State := s.modPkg 0 fun p => { p with kv := [(3, { ctx := 1, state := st })] }
def group2 (g : Group) (s : State) : State := { s with groups := [(2, g)] }
abbrev gr : Group := { members := [0], planes := [0] }

theorem wit_EngineEvents_tokens :
    Due (fun s => ∃ o x, s.op 0 = some o ∧ o.st = .completed x ∧ State.Op.untested o = false ∧ s.opHome o = true) (withOp .cpy (.completed 5) []) (withOp .cpy .active [])
    ∧ ∃ o x, (withOp .cpy (.completed 5) [] fun o => { o with flags := 1 }).op 0 = some o ∧ o.st = .completed x
      ∧ ((withOp .cpy (.completed 5) [] fun o => { o with flags := 1 }).wave o.wave).team = o.team := by
  refine ⟨⟨⟨_, _, rfl, rfl, by decide +kernel, by decide +kernel⟩, ?_⟩, _, _, rfl, rfl, by decide +kernel⟩
  rintro ⟨o, x, h, k, _⟩
  have : (withOp .cpy .active []).op 0 = some { lane.newOp t0 .cpy 0 256 0x10000 [] with st := .active } := rfl
  rw [this] at h
  cases h
  cases k
/-- Copies, transfers and collectives, with the first check each fails. -/
def offered : List (OpKind × List Byte × Option Nat × State) :=
  let at_ (k : OpKind) (bs : List Byte) (x : Option Nat) (f : State → State := id) : OpKind × List Byte × Option Nat × State := (k, bs, x, f ((withOp k .queued bs).setScr 1 256 bs))
  let far (fs : List (Nat × Nat × Nat)) (x : Option Nat) : OpKind × List Byte × Option Nat × State :=
    (.cpy, [], x, withOp .cpy .queued (cpyBlock ([(0x10, 2, 0)] ++ fs)) fun o => { o with glob := true })
  [far [] none, far [(0x14, 1, 11)] (some 0x40), far [(0x16, 1, 1)] (some 0x42), far [(0x10, 1, 4)] (some 0x41), far [(0x18, 8, 2)] (some 0),
   at_ .cpyi (cpyiBlock []) none, at_ .cpyi (cpyiBlock [(0x1B, 1, 4)]) (some 0x40), at_ .cpyi (cpyiBlock [(0x38, 4, 1)]) (some 0),
   at_ .kvx (kvxBlock [(0, 2, 3)]) none (chan3 1), at_ .kvx (kvxBlock [(0, 2, 4096)]) (some 0x40) (chan3 1), at_ .kvx (kvxBlock [(0, 2, 4)]) (some 0x50) (chan3 1),
   at_ .kvx (kvxBlock [(0, 2, 3), (0xC, 4, 1)]) (some 0) (chan3 2), at_ .kvx (kvxBlock [(0, 2, 3)]) (some 0x51) (chan3 2),
   at_ .coll (collBlock [(0, 2, 2)]) none (group2 gr), at_ .coll (collBlock [(0, 2, 2), (2, 1, 4)]) (some 0x40) (group2 gr), at_ .coll (collBlock [(0, 2, 1)]) (some 0x60) (group2 gr),
   at_ .coll (collBlock [(0, 2, 2), (2, 1, 1), (6, 2, 1)]) (some 0x40) (group2 gr), at_ .coll (collBlock [(0, 2, 2)]) (some 0x63) (group2 { gr with broken := true })]
theorem wit_EngineEvents_accept : ∀ y ∈ offered, ∃ o, Spec.turn y.2.2.2 0 o ∧ o.kind = y.1
    ∧ ((Spec.checks y.2.2.2 0 o (y.2.2.2.readDesc o (Spec.descSize o.kind))).find? (·.1 = false)).map (·.2) = y.2.2.1 := by
  intro y h
  have all : ∀ y ∈ offered, isB (y.2.2.2.op 0) (fun o => decide (o.st = .queued ∧ y.2.2.2.opHome o = true ∧ y.2.2.2.running o.core.pkg = true ∧ o.kind = y.1
    ∧ ((Spec.checks y.2.2.2 0 o (y.2.2.2.readDesc o (Spec.descSize o.kind))).find? (·.1 = false)).map (·.2) = y.2.2.1)) = true := by decide +kernel
  obtain ⟨o, ho, k⟩ := isB_iff (all y h)
  simp only [decide_eq_true_eq] at k
  exact ⟨o, ⟨ho, k.1, k.2.1, k.2.2.1, fun _ _ _ h => absurd h (Nat.not_lt_zero _)⟩, k.2.2.2⟩
/-- A copy into a ring. -/
def ringCopy (x : OpState) (p c : Nat) : State :=
  let s := withOp .cpy x (cpyBlock [(8, 8, 0), (0x11, 1, 5), (0x17, 1, 1)]) fun o => { o with handles := [0] }
  s.modTeam 1 fun t => { t with handles := [(0, { len := 8, fmt := 1, ring := true, ppos := p, cpos := c })] }
/-- A copy, its run without a stop, and what is asked of its operation and of the ring at handle 0. -/
def runs (s : State) (p : Op → Bool) (q : State → Op → Bool) : Bool :=
  isB (s.copyReady 0) fun o => p o && (s.copyGo o).2.2.isNone && q (s.copyGo o).1 (s.copyGo o).2.1
theorem runs_iff {s : State} {p : Op → Bool} {q : State → Op → Bool} (h : runs s p q = true) :
    ∃ o s1 o1, s.copyReady 0 = some o ∧ s.copyGo o = (s1, o1, none) ∧ p o = true ∧ q s1 o1 = true := by
  obtain ⟨o, ho, k⟩ := isB_iff h
  simp only [Bool.and_eq_true] at k
  obtain ⟨⟨k1, k2⟩, k3⟩ := k
  generalize hr : s.copyGo o = R at k2 k3
  obtain ⟨s1, o1, _ | e⟩ := R
  · exact ⟨o, s1, o1, ho, hr, k1, k3⟩
  · cases k2
abbrev ringed (o1 : Op) : Prop := o1.kind = .cpy ∧ (cpyDesc o1.block).dst.sp = 5 ∧ (cpyDesc o1.block).adv = true
theorem wit_EngineEvents_copies :
    (∃ s o s1 o1, s = withOp .cpy .active (cpyBlock []) ∧ s.copyReady 0 = some o ∧ s.copyGo o = (s1, o1, none) ∧ ¬ringed o1)
    ∧ (∃ s o s1 o1, s = withOp .cpyi .active (cpyiBlock []) ∧ s.copyReady 0 = some o ∧ s.copyGo o = (s1, o1, none) ∧ ¬ringed o1)
    ∧ (∀ p c, (p, c) ∈ [(0, 0), (2 ^ 32 - 1, 2 ^ 32 - 1)] → ∃ s o s1 o1 r, s = ringCopy .active p c ∧ s.copyReady 0 = some o ∧ s.copyGo o = (s1, o1, none) ∧ ringed o1
      ∧ s1.tob o1.team (cpyDesc o1.block).dst.hnd = some r ∧ r.ppos = p)
    ∧ (∃ s o s1 o1 c lvl va side, s = withOp .cpy .active (cpyBlock [(0, 8, 2 ^ 20)]) ∧ s.copyReady 0 = some o ∧ s.copyGo o = (s1, o1, some (some (c, lvl, va), side)))
    ∧ (∃ o, (withOp .cpy .active (cpyBlock [])).op 0 = some o ∧ let s := withOp .cpy .active (cpyBlock []); let x := cpyDesc (cpyBlock []);
      let a := (x.sbase + BitVec.ofInt 64 (strideSum x.sstr (coords x.ext 1))).toNat;
      let b := (x.dbase + BitVec.ofInt 64 (strideSum x.dstr (coords x.ext 1))).toNat;
      x.conv = 0 ∧ x.src.sp = 1 ∧ a % x.esz = 0 ∧ b % x.esz = 0 ∧ a + x.esz ≤ s.scrSize o.team ∧ b + x.esz ≤ s.scrSize o.team ∧ s.poisonAt (.scr o.team a) x.esz = false)
    ∧ Due (fun s => ∃ o, s.op 0 = some o ∧ o.kind = .cpy ∧ o.st = .waitRing ∧ s.opHome o = true
        ∧ s.ringRoom o (cpyDesc o.block).dst.hnd = true ∧ s.ringCopyBefore 0 o (cpyDesc o.block).dst.hnd = false) (ringCopy .waitRing 0 0) lane := by
  refine ⟨?_, ?_, ?_, ?_, ⟨_, rfl, by decide +kernel⟩, ⟨⟨_, rfl, rfl, rfl, by decide +kernel, by decide +kernel, by decide +kernel⟩, fun ⟨_, h, _⟩ => nomatch h⟩⟩
  · obtain ⟨o, s1, o1, h, e, _, k⟩ := runs_iff (s := withOp .cpy .active (cpyBlock [])) (p := fun _ => true) (q := fun _ o1 => !decide (ringed o1)) (by decide +kernel)
    exact ⟨_, o, s1, o1, rfl, h, e, by simpa only [Bool.not_eq_true', decide_eq_false_iff_not] using k⟩
  · obtain ⟨o, s1, o1, h, e, _, k⟩ := runs_iff (s := withOp .cpyi .active (cpyiBlock [])) (p := fun _ => true) (q := fun _ o1 => !decide (ringed o1)) (by decide +kernel)
    exact ⟨_, o, s1, o1, rfl, h, e, by simpa only [Bool.not_eq_true', decide_eq_false_iff_not] using k⟩
  · have main (p c : Nat) (h : runs (ringCopy .active p c) (fun _ => true) (fun s1 o1 => decide (ringed o1) && isB (s1.tob o1.team (cpyDesc o1.block).dst.hnd) fun r => decide (r.ppos = p)) = true) :
        ∃ s o s1 o1 r, s = ringCopy .active p c ∧ s.copyReady 0 = some o ∧ s.copyGo o = (s1, o1, none) ∧ ringed o1 ∧ s1.tob o1.team (cpyDesc o1.block).dst.hnd = some r ∧ r.ppos = p := by
      obtain ⟨o, s1, o1, h, e, _, k⟩ := runs_iff h
      simp only [Bool.and_eq_true, decide_eq_true_eq] at k
      obtain ⟨r, er, k2⟩ := isB_iff k.2
      exact ⟨_, o, s1, o1, r, rfl, h, e, k.1, er, of_decide_eq_true k2⟩
    intro p c h
    simp only [List.mem_cons, List.not_mem_nil, or_false, Prod.mk.injEq] at h
    obtain ⟨rfl, rfl⟩ | ⟨rfl, rfl⟩ := h <;> exact main _ _ (by decide +kernel)
  · obtain ⟨o, h, k⟩ := isB_iff (R := (withOp .cpy .active (cpyBlock [(0, 8, 2 ^ 20)])).copyReady 0)
      (p := fun o => (((withOp .cpy .active (cpyBlock [(0, 8, 2 ^ 20)])).copyGo o).2.2.bind (·.1)).isSome) (by decide +kernel)
    generalize hr : (withOp .cpy .active (cpyBlock [(0, 8, 2 ^ 20)])).copyGo o = R at k
    obtain ⟨s1, o1, _ | ⟨_ | ⟨c, lvl, va⟩, side⟩⟩ := R
    · cases k
    · cases k
    · exact ⟨_, o, s1, o1, c, lvl, va, side, rfl, h, hr⟩
/-- The lane with a request at its package's Skein: its kind, its handle, the requester's allocation, and pool 0. -/
def request (k : OpKind) (h : Word) (z : Nat) (x : Pool) : State :=
  { (withOp k .queued []).modPkg 0 (fun p => { p with n := 1, poolReqs := [{ op := 0, handle := h, ctx := 1, record := [1, 2, 3, 4, 5, 6, 7, 8], alloc := some z, off := 256 }] }) with
    ops := [(0, lane.newOp t0 k 0 256 0x10000 []), (1, lane.newOp t0 .dqry 1 512 0x10000 [])], pools := [(State.poolKey 0 0, x)], nextId := 2 }
abbrev rq (h : Word) (z : Nat) : PoolReq := { op := 0, handle := h, ctx := 1, record := [1, 2, 3, 4, 5, 6, 7, 8], alloc := some z, off := 256 }
abbrev pl : Pool := { ctx := 1, cap := 1 }
theorem wit_EngineEvents_pools (k : OpKind) (hk : k ∈ [OpKind.papp, .dqry, .pcls]) :
    (Spec.oldest (request k 0x100000 1024 pl) 0 k (rq 0x100000 1024) [] (lane.newOp t0 k 0 256 0x10000 []) ∧ (request k 0x100000 1024 pl).poolFor (rq 0x100000 1024) = none)
    ∧ ∀ x ∈ [pl, { pl with closed := true }, { pl with records := [[0, 0, 0, 0, 0, 0, 0, 0]] }, { pl with waiting := [1] }],
      (∀ z ∈ [263, 264], Spec.oldest (request k 0 z x) 0 k (rq 0 z) [] (lane.newOp t0 k 0 256 0x10000 []) ∧ (request k 0 z x).poolFor (rq 0 z) = some (0, x)
        ∧ (State.poolPast (rq 0 z) x = true ↔ z = 263) ∧ (request k 0 z x).recordHeld 0 x.recSize = false ∧ ∀ c cs, x.waiting = c :: cs →
          (request k 0 z x).recordHeld c x.recSize = false ∧ ((request k 0 z x).op c).isSome = true ∧ c ≠ (rq 0 z).op) := by
  have hw (x : Pool) (z : Nat) (k : OpKind) (h : x.waiting = [] ∨ x.waiting = [1]) (hc : (request k 0 z x).recordHeld 1 x.recSize = false) : ∀ c cs, x.waiting = c :: cs →
      (request k 0 z x).recordHeld c x.recSize = false ∧ ((request k 0 z x).op c).isSome = true ∧ c ≠ (rq 0 z).op := by
    intro c cs e
    rcases h with h | h <;> rw [h] at e <;> cases e
    exact ⟨hc, rfl, Nat.one_ne_zero⟩
  simp only [List.mem_cons, List.not_mem_nil, or_false] at hk
  refine ⟨?_, fun x hx z hz => ?_⟩
  · obtain rfl | rfl | rfl := hk <;> exact ⟨⟨rfl, rfl, rfl⟩, by decide +kernel⟩
  · simp only [List.mem_cons, List.not_mem_nil, or_false] at hx hz
    obtain rfl | rfl := hz <;> obtain rfl | rfl | rfl | rfl := hx <;> obtain rfl | rfl | rfl := hk <;>
      exact ⟨⟨rfl, rfl, rfl⟩, by decide +kernel, by decide +kernel, by decide +kernel, hw _ _ _ (by decide) (by decide +kernel)⟩
def kvx (m : State → State) (bs : List Byte) (f : Op → Op := id) : State := m (chan3 1 (withOp .kvx .active bs f))
def kvNow (fs : List (Nat × Nat × Nat)) (d : Nat) : State := kvx id (kvxBlock ([(0, 2, 3)] ++ fs)) fun o => { o with done := d }
abbrev kvReady (s : State) (o : Op) : Prop := s.op 0 = some o ∧ o.kind = .kvx ∧ o.st = .active
theorem wit_ChannelEvents_blocks :
    (∀ d, d = 0 ∨ d = 1 → ∃ s s1 o, s = kvx (fun s => put s 0 (leBytes 0x10000 8)) (kvxBlock [(0, 2, 3), (2, 1, d)]) ∧ kvReady s o ∧ o.done < field o.block 4 4 ∧ s.kvBlock o = (s1, .ok ()))
    ∧ (∃ s s1 o c lvl side va, s = kvNow [] 0 ∧ kvReady s o ∧ o.done < field o.block 4 4 ∧ s.opHome o = true
      ∧ s.kvBlock o = (s1, .error (some (c, lvl, va), side)) ∧ Map.has (s1.pkg o.core.pkg).kv (State.kvxChan o) = true)
    ∧ Due (fun s => ∃ o, kvReady s o ∧ field o.block 4 4 ≤ o.done ∧ field o.block 3 1 = 1 ∧ o.notified = false) (kvNow [(3, 1, 1)] 1) lane
    ∧ Due (fun s => ∃ o, kvReady s o ∧ field o.block 4 4 ≤ o.done ∧ (field o.block 3 1 = 0 ∨ o.notified = true) ∧ s.opHome o = true) (kvNow [] 1) lane
    ∧ Due (fun s => ∃ o, kvReady s o ∧ s.opHome o = true) (kvNow [] 0) lane
    ∧ Map.has ((kvNow [] 0).pkg 0).kv 3 = true := by
  refine ⟨fun d hd => ?_, ?_, ⟨⟨_, ⟨rfl, rfl, rfl⟩, by decide +kernel⟩, fun ⟨_, h, _⟩ => nomatch h.1⟩, ⟨⟨_, ⟨rfl, rfl, rfl⟩, by decide +kernel⟩, fun ⟨_, h, _⟩ => nomatch h.1⟩,
    ⟨⟨_, ⟨rfl, rfl, rfl⟩, by decide +kernel⟩, fun ⟨_, h, _⟩ => nomatch h.1⟩, by decide +kernel⟩
  · have main (d : Nat) (h : isB ((kvx (fun s => put s 0 (leBytes 0x10000 8)) (kvxBlock [(0, 2, 3), (2, 1, d)])).op 0) (fun o => decide (o.kind = .kvx) && decide (o.st = .active)
        && decide (o.done < field o.block 4 4) && okB ((kvx (fun s => put s 0 (leBytes 0x10000 8)) (kvxBlock [(0, 2, 3), (2, 1, d)])).kvBlock o) fun _ _ => true) = true) :
        ∃ s s1 o, s = kvx (fun s => put s 0 (leBytes 0x10000 8)) (kvxBlock [(0, 2, 3), (2, 1, d)]) ∧ kvReady s o ∧ o.done < field o.block 4 4 ∧ s.kvBlock o = (s1, .ok ()) := by
      obtain ⟨o, ho, k⟩ := isB_iff h
      simp only [Bool.and_eq_true, decide_eq_true_eq] at k
      obtain ⟨s1, _, e, _⟩ := okB_iff k.2
      exact ⟨_, s1, o, rfl, ⟨ho, k.1.1.1, k.1.1.2⟩, k.1.2, e⟩
    obtain rfl | rfl := hd <;> exact main _ (by decide +kernel)
  · obtain ⟨o, ho, k⟩ := isB_iff (R := (kvNow [] 0).op 0) (p := fun o => decide (o.kind = .kvx) && decide (o.st = .active)
        && decide (o.done < field o.block 4 4) && (kvNow [] 0).opHome o && errB ((kvNow [] 0).kvBlock o) fun s1 e => e.1.isSome
          && decide (Map.has (s1.pkg o.core.pkg).kv (State.kvxChan o) = true)) (by decide +kernel)
    simp only [Bool.and_eq_true, decide_eq_true_eq] at k
    obtain ⟨s1, ⟨_ | ⟨c, lvl, va⟩, side⟩, e, k2⟩ := errB_iff k.2
    · simp at k2
    · simp only [Bool.and_eq_true, decide_eq_true_eq] at k2
      exact ⟨_, s1, o, c, lvl, side, va, rfl, ⟨ho, k.1.1.1.1, k.1.1.1.2⟩, k.1.1.2, k.1.2, e, k2.2⟩
theorem wit_ChannelEvents_channels :
    Due (fun s => (s.chan 0 3).state ≠ 0) (kvNow [] 0) (chan3 0 lane)
    ∧ (∃ o, (kvNow [] 0).op 0 = some o ∧ o.kind = .kvx ∧ o.core.pkg = 0 ∧ o.pending = true ∧ o.st ≠ .queued ∧ State.kvxChan o = 3)
    ∧ Due (fun s => (s.chan 0 3).state = 1 ∧ s.vaLeased 0 (s.ctxRoot (s.chan 0 3).ctx) 0x10000 8 = false) (chan3 1 lane) (chan3 2 lane)
    ∧ (let s := chan3 1 lane
      let write (va : Dword) := s.vaWrite 0 (s.ctxRoot (s.chan 0 3).ctx) (some [(s.chan 0 3).ctx]) va [1] { s.hubEv 0 .store with path := .kv }
      (write 0x10000).isOk = true ∧ (write 0).isOk = false)
    ∧ Due (fun s => (s.core c0).kvAt + 1024 ≤ s.now c0) (at_ 1024 (chan3 1 lane)) (at_ 1023 (chan3 1 lane))
    ∧ (Map.has ((chan3 1 lane).pkg 0).kv 3 = true ∧ Map.has ((chan3 1 lane).pkg 0).kv 4 = false) := by
  refine ⟨⟨by decide +kernel, by decide +kernel⟩, ⟨_, rfl, by decide +kernel⟩, ⟨by decide +kernel, by decide +kernel⟩, by decide +kernel, ⟨by decide +kernel, by decide +kernel⟩, by decide +kernel⟩
/-- The lane's request to free group 2, or to create one. -/
def freeing (gs : List (Nat × Group)) : State := { withOp .cgrpFree .queued [] fun o => { o with off := 2 } with groups := gs }
def creating (bs : List Byte) : State := withOp .cgrp .queued bs fun o => { o with glob := true }
/-- The list of members 0 and 1 at the page's start; and the same in a partition of two packages. -/
def groupList : List Byte := fields 24 [(0, 2, 2), (8, 8, 0x10000)]
def listed (s : State) : State := put s 0 [0, 0, 1, 0]
def paired (s : State) : State := s.modPkg 0 fun k => { k with n := 2, num := 0, pid := some 1, pmap := [(1, 1)] }
theorem wit_ChannelEvents_groups :
    (∀ gs ∈ [[], [(2, { gr with members := [1] })], [(2, { gr with freed := [0] })], [(2, gr)], [(2, { gr with members := [0, 1] })]],
      ∃ o, Spec.turn (freeing gs) 0 o ∧ o.kind = .cgrpFree ∧ o.off.toNat = 2 ∧ o.core.pkg = 0 ∧ (freeing gs).callsOf o.off.toNat o.core.pkg = [])
    ∧ (∀ bs ∈ [fields 24 [(0, 2, 2), (2, 1, 1)], fields 24 [(0, 2, 1)], fields 24 [(0, 2, 4097)]], ∃ o, Spec.turn (creating bs) 0 o ∧ o.kind = .cgrp ∧ (creating bs).readDesc o 24 = bs
      ∧ State.cgrpOk bs = false)
    ∧ ∀ s good, (s, good) ∈ [(listed (creating groupList), false), (paired (listed (creating groupList)), true)] → ∃ o s1 ms, Spec.turn s 0 o ∧ o.kind = .cgrp
      ∧ State.cgrpOk (s.readDesc o 24) = true
      ∧ s.endRead { o with block := s.readDesc o 24 } { sp := 0 } (BitVec.ofNat 64 (field (s.readDesc o 24) 8 8)) (2 * field (s.readDesc o 24) 0 2) = (s1, .ok ms)
      ∧ let names := (List.range (field (s.readDesc o 24) 0 2)).map fun k => field ms (2 * k) 2
        (State.ascending names = true ∧ (s.pkg o.core.pkg).num ∈ names ∧ ∀ k ∈ names, s.inPartition o.core.pkg k = true) ↔ good = true := by
  refine ⟨fun gs hg => ?_, fun bs hb => ?_, fun s good h => ?_⟩
  · simp only [List.mem_cons, List.not_mem_nil, or_false] at hg
    obtain rfl | rfl | rfl | rfl | rfl := hg <;>
      exact ⟨_, ⟨rfl, rfl, by decide +kernel, by decide +kernel, fun h _ _ => nomatch h⟩, rfl, by decide +kernel, by decide +kernel, by decide +kernel⟩
  · simp only [List.mem_cons, List.not_mem_nil, or_false] at hb
    obtain rfl | rfl | rfl := hb <;> exact ⟨_, ⟨rfl, rfl, rfl, by decide +kernel, fun h _ _ => nomatch h⟩, rfl, by decide +kernel, by decide +kernel⟩
  · have main (s : State) (good : Bool) (o : Op) (ho : Spec.turn s 0 o) (hk : o.kind = .cgrp) (hg : State.cgrpOk (s.readDesc o 24) = true)
        (h : okB (s.endRead { o with block := s.readDesc o 24 } { sp := 0 } (BitVec.ofNat 64 (field (s.readDesc o 24) 8 8)) (2 * field (s.readDesc o 24) 0 2)) (fun _ ms =>
          let names := (List.range (field (s.readDesc o 24) 0 2)).map fun k => field ms (2 * k) 2
          decide (State.ascending names = true ∧ (s.pkg o.core.pkg).num ∈ names ∧ ∀ k ∈ names, s.inPartition o.core.pkg k = true) == good) = true) :
        ∃ o s1 ms, Spec.turn s 0 o ∧ o.kind = .cgrp ∧ State.cgrpOk (s.readDesc o 24) = true
        ∧ s.endRead { o with block := s.readDesc o 24 } { sp := 0 } (BitVec.ofNat 64 (field (s.readDesc o 24) 8 8)) (2 * field (s.readDesc o 24) 0 2) = (s1, .ok ms)
        ∧ let names := (List.range (field (s.readDesc o 24) 0 2)).map fun k => field ms (2 * k) 2
          (State.ascending names = true ∧ (s.pkg o.core.pkg).num ∈ names ∧ ∀ k ∈ names, s.inPartition o.core.pkg k = true) ↔ good = true := by
      obtain ⟨s1, ms, e, k⟩ := okB_iff h
      refine ⟨o, s1, ms, ho, hk, hg, e, ?_⟩
      rw [beq_iff_eq] at k
      subst k
      exact decide_eq_true_iff.symm
    simp only [List.mem_cons, List.not_mem_nil, or_false, Prod.mk.injEq] at h
    obtain ⟨rfl, rfl⟩ | ⟨rfl, rfl⟩ := h <;>
      exact main _ _ _ ⟨rfl, rfl, rfl, by decide +kernel, fun h _ _ => nomatch h⟩ rfl (by decide +kernel) (by decide +kernel)
def call (c : GroupCall) (gs : List (Nat × Group)) (s : State) : State := { s with groupCalls := [(5, c)], groups := gs }
abbrev call1 : GroupCall := { members := [0], mask := 1, ops := [(0, 0)], first := 0 }
abbrev call2 : GroupCall := { call1 with members := [0, 1] }
abbrev allIn (c : GroupCall) : Prop := ∀ p ∈ c.members, ∃ y ∈ c.ops, y.1 = p
/-- As many groups as there are handles; and as many as one plane carries. -/
def allGroups : List (Nat × Group) := (List.range 1024).map fun k => (k, { gr with planes := [] })
def fullPlane : List (Nat × Group) := (List.range 256).map fun k => (k, gr)
theorem all_handles : State.lowestFree (Map.keys allGroups) 1024 = none := by
  simp [State.lowestFree, Map.keys, allGroups]
theorem wit_ChannelEvents_formation :
    Due (fun s => ∃ c, Map.find s.groupCalls 5 = some c ∧ allIn c) (call call1 [] lane) (call call2 [] lane)
    ∧ State.lowestFree (Map.keys (call call1 [] lane).groups) 1024 = some 0
    ∧ (∀ q ∈ (List.range 18).filter (1 : Nat).testBit, ((call call1 [] lane).groups.filter fun y => y.2.planes.contains q).length < 256)
    ∧ (call call1 [] lane).healthyPlanes [0] ≠ [] ∧ 256 ≤ (fullPlane.filter fun y => y.2.planes.contains 0).length
    ∧ (∃ o, (call call1 [] (withOp .cgrp .active [])).op 0 = some o)
    ∧ Due (fun s => ∃ c, Map.find s.groupCalls 5 = some c ∧ ¬allIn c ∧ c.first + 2 ^ 24 ≤ s.hubNow ((c.ops.head?.map (·.1)).getD 0))
      (call call2 [] (hubAt (2 ^ 24) lane)) (call call1 [] (hubAt (2 ^ 24) lane)) := by
  have h1 (s : State) : Map.find (call call1 [] s).groupCalls 5 = some call1 := rfl
  have h2 (s : State) : Map.find (call call2 [] s).groupCalls 5 = some call2 := rfl
  refine ⟨⟨⟨call1, h1 _, by decide⟩, ?_⟩, by decide +kernel, by decide +kernel, by decide +kernel, by decide +kernel, ⟨_, rfl⟩, ⟨⟨call2, h2 _, by decide, by decide +kernel⟩, ?_⟩⟩
  · rintro ⟨c, h, k⟩
    cases (h2 _).symm.trans h
    exact absurd k (by decide)
  · rintro ⟨c, h, k, _⟩
    cases (h1 _).symm.trans h
    exact k (by decide)
/-- One package's collective call on its group, or two that differ. -/
def collOp (p : Nat) (fs : List (Nat × Nat × Nat)) : Op :=
  { lane.newOp t0 .coll 0 256 0x10000 (collBlock fs) with st := .active, core := ⟨p, 0, 0⟩ }
def calls (fs : List (List (Nat × Nat × Nat))) : State :=
  { lane with
    ops := ((List.range fs.length).zip fs).map fun y => (y.1, collOp y.1 y.2)
    groups := [(2, { members := List.range fs.length, planes := [0], calls := (List.range fs.length).map fun k => (k, k) })] }
theorem wit_ChannelEvents_collectives :
    (∃ g os, (calls [[], [(8, 4, 2)]]).matched 2 = some (g, os) ∧ (calls [[], [(8, 4, 2)]]).groupGone g = false ∧ State.agree os = false)
    ∧ (∃ g os s1 w f fs bufs, (calls [[(0x10, 8, 0)]]).matched 2 = some (g, os) ∧ (calls [[(0x10, 8, 0)]]).groupGone g = false ∧ State.agree os = true ∧ (calls [[(0x10, 8, 0)]]).collRead g os = (s1, w, f :: fs, bufs))
    ∧ (∃ g os s1 bufs, (calls [[]]).matched 2 = some (g, os) ∧ (calls [[]]).groupGone g = false ∧ State.agree os = true ∧ g.broken = false ∧ (calls [[]]).collRead g os = (s1, false, [], bufs))
    ∧ Due (fun s => ∃ g, Map.find s.groups 2 = some g ∧ g.broken = false ∧ ∃ p ∈ g.members, p ∈ s.lost ∨ (s.pkg p).alive = false ∨ ∃ k ∈ g.planes, (Map.getD (s.pkg p).ports k {}).up = false)
      { calls [[]] with lost := [0] } (calls [[]])
    ∧ (∃ o, (calls [[]]).op 0 = some o ∧ o.pending = true) := by
  have hg (l : List Nat) : Map.find ({ calls [[]] with lost := l } : State).groups 2 = some { members := [0], planes := [0], calls := [(0, 0)] } := rfl
  refine ⟨?_, ?_, ?_, ⟨⟨_, hg _, rfl, 0, by decide, .inl (by decide)⟩, ?_⟩, ⟨_, rfl, by decide +kernel⟩⟩
  · obtain ⟨⟨g, os⟩, h, k⟩ := isB_iff (R := (calls [[], [(8, 4, 2)]]).matched 2) (p := fun x => !(calls [[], [(8, 4, 2)]]).groupGone x.1 && !State.agree x.2) (by decide +kernel)
    simp only [Bool.and_eq_true, Bool.not_eq_true'] at k
    exact ⟨g, os, h, k⟩
  · obtain ⟨⟨g, os⟩, h, k⟩ := isB_iff (R := (calls [[(0x10, 8, 0)]]).matched 2) (p := fun x => !(calls [[(0x10, 8, 0)]]).groupGone x.1 && State.agree x.2 && !((calls [[(0x10, 8, 0)]]).collRead x.1 x.2).2.2.1.isEmpty) (by decide +kernel)
    simp only [Bool.and_eq_true, Bool.not_eq_true'] at k
    generalize hr : (calls [[(0x10, 8, 0)]]).collRead g os = R at k
    obtain ⟨s1, w, _ | ⟨f, fs⟩, bufs⟩ := R
    · cases k.2
    · exact ⟨g, os, s1, w, f, fs, bufs, h, k.1.1, k.1.2, hr⟩
  · obtain ⟨⟨g, os⟩, h, k⟩ := isB_iff (R := (calls [[]]).matched 2) (p := fun x => !(calls [[]]).groupGone x.1 && State.agree x.2 && !x.1.broken && ((calls [[]]).collRead x.1 x.2).2.2.1.isEmpty && !((calls [[]]).collRead x.1 x.2).2.1) (by decide +kernel)
    simp only [Bool.and_eq_true, Bool.not_eq_true'] at k
    generalize hr : (calls [[]]).collRead g os = R at k
    obtain ⟨s1, _ | _, _ | ⟨f, fs⟩, bufs⟩ := R
    · exact ⟨g, os, s1, bufs, h, k.1.1.1.1, k.1.1.1.2, k.1.1.2, hr⟩
    · cases k.1.2
    · cases k.2
    · cases k.2
  · rintro ⟨g, h, _, k⟩
    cases (hg []).symm.trans h
    revert k
    decide +kernel
def shot (x : Shootdown) : State := { State.reset with shootdowns := [(4, x)] }
abbrev sd (todo : List Nat) : Shootdown := { host := some k0, kind := 0, va := 0, key := 0, todo }
def hostIs (x : Status) (h : HostRegs → HostRegs) : State := (pending.modThread th0 fun th => { th with status := x }).modHost k0 h
abbrev mayEnter (s : State) : Prop := State.hostIE (s.host k0) = true ∧ State.priv (s.host k0) ≤ 1
abbrev hostDue (s : State) : Prop := isHostCore k0 = true ∧ (s.host k0).hpend &&& (s.host k0).hmask ≠ 0
  ∧ ((s.thread (hostThread k0)).status = .blocked .hostWait ∨ mayEnter s ∧ (s.thread (hostThread k0)).status = .runnable)
theorem wit_HostEvents :
    Due (fun s => ∃ x, Map.find s.shootdowns 4 = some x ∧ 0 ∈ x.todo ∧ s.unsentUnder 0 x = false
      ∧ ∀ c, x.host = some c → State.openOf (s.core c) (hostThread c) = ([], []) ∧ s.mirroring (hostThread c) = false) (shot (sd [0])) State.reset
    ∧ Due (fun s => ∃ x, Map.find s.shootdowns 4 = some x ∧ x.todo = []) (shot (sd [])) State.reset
    ∧ (∃ x, Map.find ((shot (sd [])).modThread th0 fun th => { th with status := .blocked (.tlbi 4) }).shootdowns 4 = some x ∧ x.host = some k0
      ∧ (((shot (sd [])).modThread th0 fun th => { th with status := .blocked (.tlbi 4) }).thread (hostThread k0)).status = .blocked (.tlbi 4))
    ∧ Due hostDue (hostIs .runnable fun h => { h with hstat := 5 }) (hostIs .runnable fun h => { h with hstat := 2 })
    ∧ Due hostDue (hostIs (.blocked .hostWait) fun h => { h with hstat := 2 }) host
    ∧ (mayEnter (hostIs .runnable fun h => { h with hstat := 5 }) ∧ ¬mayEnter (hostIs (.blocked .hostWait) fun h => { h with hstat := 2 }))
    ∧ Due (fun s => Map.has s.contexts 1 = true) lane State.reset := by
  refine ⟨⟨⟨_, rfl, by decide, by decide +kernel, fun c h => by cases h; decide +kernel⟩, fun ⟨_, h, _⟩ => nomatch h⟩, ⟨⟨_, rfl, rfl⟩, fun ⟨_, h, _⟩ => nomatch h⟩, ⟨_, rfl, rfl, by decide +kernel⟩, ⟨by decide +kernel, by decide +kernel⟩,
    ⟨by decide +kernel, by decide +kernel⟩, by decide +kernel, ⟨by decide +kernel, by decide +kernel⟩⟩
abbrev tr (c : Cause) : Trap := { cause := c, fpc := 0x10000, npc := 0x10008, tseq := some 5, delivered := true }
/-- The lane trapped; and with a record for the queue at 0x10000. -/
def trapped (x : Trap) : State := onThread fun th => { th with status := .trapped, trap := some x }
def posting (posted : Nat) : State := lane.modContext 1 fun c => { c with regs := { c.regs with trapQueue := 0x10000 }, post := [{ kind := 1, cause := 3 }], posted }
/-- A command for the trapped lane in slot 0. -/
def commanded (x : Trap) (n act z tpc : Nat) : State :=
  put ((trapped x).modContext 1 fun c => { c with regs := { c.regs with trapQueue := 0x10000 }, cseen := 1 }) 0x40 (leBytes n 4 ++ leBytes act 2 ++ leBytes z 2 ++ leBytes tpc 8)
def commandBytes (n act z tpc : Nat) : List Byte := leBytes n 4 ++ leBytes act 2 ++ leBytes z 2 ++ leBytes tpc 8
theorem wit_TrapRecords :
    Due (fun s => (∀ l < 32, (s.thread ⟨w0, l⟩).status ≠ .runnable) ∧ ∃ l x, l < 32 ∧ (s.thread ⟨w0, l⟩).trap = some x ∧ x.delivered = false)
      (trapped { tr .align with delivered := false, tseq := none }) lane
    ∧ (∀ n, n = 0 ∨ n = 63 ∨ n = 64 → ∃ r rest rd pa pte s1 s2, ((posting n).context 1).post = r :: rest ∧ (posting n).tqRead 1 8 8 = some rd
      ∧ (posting n).vaAddr ((posting n).ctxPkg 1) ((posting n).ctxRoot 1) none .store (State.tqBase ((posting n).context 1).regs) = .ok (pa, pte)
      ∧ (n < leNat rd + State.tqCap ((posting n).context 1).regs ↔ n ≠ 64) ∧ ((posting n).context 1).posted = n
      ∧ (((posting n).modContext 1 fun c => { c with post := rest, posted := c.posted + 1 }).recordPoint ((posting n).hubEv ((posting n).ctxPkg 1) (.gives [r.start] 0))).tqWrite 1 (0x1000 + n % State.tqCap ((posting n).context 1).regs * 64) (r.bytes 1) = some s1
      ∧ s1.tqIndex 1 0 (n + 1) = some s2)
    ∧ Due (fun s => Map.has s.contexts 1 = true ∧ 4096 ≤ (s.context 1).regs.trapQueue.toNat ∧ (s.context 1).cread + 512 ≤ s.hubNow (s.ctxPkg 1)) (hubAt 512 (posting 0)) (hubAt 511 (posting 0))
    ∧ (let s := hubAt 512 (posting 0)
      let b := s.modContext 1 fun c => { c with cread := s.hubNow (s.ctxPkg 1) }
      let a := State.tqBase (s.context 1).regs + 0x10
      b.vaLeased (s.ctxPkg 1) (b.ctxRoot 1) a 8 = false
      ∧ ∃ x bs, b.agentRead { b.hubEv (s.ctxPkg 1) .load with ord := .acq, scp := some .rack, bytewise := false } (s.ctxPkg 1) (b.ctxRoot 1) none a 8 = (x, .ok bs)) := by
  refine ⟨⟨⟨by decide +kernel, 0, { tr .align with delivered := false, tseq := none }, by decide, by decide +kernel, rfl⟩, fun h => h.1 0 (by decide) (by decide +kernel)⟩, fun n hn => ?_, ⟨by decide +kernel, by decide +kernel⟩, ?_⟩
  · have main (n : Nat) (h : isB ((posting n).tqRead 1 8 8) (fun rd => okE ((posting n).vaAddr ((posting n).ctxPkg 1) ((posting n).ctxRoot 1) none .store (State.tqBase ((posting n).context 1).regs)) (fun _ => true)
        && decide (n < leNat rd + State.tqCap ((posting n).context 1).regs ↔ n ≠ 64) && decide (((posting n).context 1).posted = n)
        && isB ((((posting n).modContext 1 fun c => { c with post := [], posted := c.posted + 1 }).recordPoint ((posting n).hubEv ((posting n).ctxPkg 1) (.gives [0] 0))).tqWrite 1 (0x1000 + n % State.tqCap ((posting n).context 1).regs * 64)
          (({ kind := 1, cause := 3 } : TrapRecord).bytes 1)) fun s1 => isB (s1.tqIndex 1 0 (n + 1)) fun _ => true) = true)
        (hp : ((posting n).context 1).post = [{ kind := 1, cause := 3 }]) :
        ∃ r rest rd pa pte s1 s2, ((posting n).context 1).post = r :: rest ∧ (posting n).tqRead 1 8 8 = some rd
      ∧ (posting n).vaAddr ((posting n).ctxPkg 1) ((posting n).ctxRoot 1) none .store (State.tqBase ((posting n).context 1).regs) = .ok (pa, pte)
      ∧ (n < leNat rd + State.tqCap ((posting n).context 1).regs ↔ n ≠ 64) ∧ ((posting n).context 1).posted = n
      ∧ (((posting n).modContext 1 fun c => { c with post := rest, posted := c.posted + 1 }).recordPoint ((posting n).hubEv ((posting n).ctxPkg 1) (.gives [r.start] 0))).tqWrite 1 (0x1000 + n % State.tqCap ((posting n).context 1).regs * 64) (r.bytes 1) = some s1
      ∧ s1.tqIndex 1 0 (n + 1) = some s2 := by
      obtain ⟨rd, h1, k⟩ := isB_iff h
      simp only [Bool.and_eq_true, decide_eq_true_eq] at k
      obtain ⟨⟨⟨k1, k2⟩, k3⟩, k4⟩ := k
      obtain ⟨x, h2, _⟩ := okE_iff k1
      obtain ⟨s1, h3, k5⟩ := isB_iff k4
      obtain ⟨s2, h4, _⟩ := isB_iff k5
      exact ⟨_, [], rd, x.1, x.2, s1, s2, hp, h1, h2, k2, k3, h3, h4⟩
    obtain rfl | rfl | rfl := hn <;> exact main _ (by decide +kernel) (by decide +kernel)
  · refine ⟨by decide +kernel, ?_⟩
    let s := hubAt 512 (posting 0)
    let b := s.modContext 1 fun c => { c with cread := s.hubNow (s.ctxPkg 1) }
    obtain ⟨x, bs, h, _⟩ := okB_iff (R := b.agentRead { b.hubEv (s.ctxPkg 1) .load with ord := .acq, scp := some .rack, bytewise := false } (s.ctxPkg 1) (b.ctxRoot 1) none
      (State.tqBase (s.context 1).regs + 0x10) 8) (p := fun _ _ => true) (by decide +kernel)
    exact ⟨x, bs, h⟩
/-- The commands, with a status they end with. -/
def commandTable : List (Instr × Nat × Nat × Trap × Nat × Nat) :=
  [(.trapCmdFpc 1, 0, 0, tr .align, 5, 0), (.trapCmdNpc 1, 1, 0, tr .align, 5, 0), (.trapCmdRentry 1, 2, 0, { tr .align with rentry := 0x10040 }, 5, 0), (.trapCmdTpc 1, 3, 0x10010, tr .align, 5, 0),
   (.trapCmdExit 1, 4, 0, tr .align, 5, 0), (.trapCmdTpc 1, 3, 0x10004, tr .align, 5, 3), (.trapCmdFpc 1, 0, 0, { tr .align with precise := false }, 5, 2), (.trapCmdRentry 1, 2, 0, tr .align, 5, 2)]
theorem wit_TrapCommands : ∀ y ∈ commandTable, Spec.trapCmd y.1 = some (1, y.2.1) ∧
    let s := commanded y.2.2.2.1 y.2.2.2.2.1 y.2.1 0 y.2.2.1;
    let bs := commandBytes y.2.2.2.2.1 y.2.1 0 y.2.2.1;
    s.nextCommand 1 = some bs ∧ min 4 (field bs 4 1) = y.2.1 ∧ s.trappedThread 1 (field bs 0 4) = some (some t0, y.2.2.2.1) ∧ State.commandStat (some y.2.2.2.1) bs = y.2.2.2.2.2
    ∧ ((((if y.2.2.2.2.2 = 0 then s.resumeThread t0 y.2.2.2.1 y.2.1 (BitVec.ofNat 64 y.2.2.1) else s).modContext 1 fun c => { c with cdone := c.cdone + 1 }).tqWrite 1 0x45
      [BitVec.ofNat 8 y.2.2.2.2.2]).bind fun s1 => s1.tqIndex 1 0x18 1).isSome = true := by
  decide +kernel
/-- Queue 7 of context 1, its ring and signal in the lane's page, at its packet's bytes; the kernel descriptor stands at offset 64. -/
def queued (q : Queue) (bs : List Byte) : State :=
  { put (put (lane.modContext 1 fun c => { c with regs := { c.regs with trapQueue := 0x10000, spoolBase := 1, chkHandler := 8 } }) 0 bs) 0x40
    (fields 64 [(0x14, 2, 8), (0x16, 2, 8), (0x18, 1, 1)]) with queues := [(7, q)] }
abbrev qm : Queue := { ctx := 1, ring := 0x10000, widx := 0x10100, ridx := 0x10140, w := 1, state := .mapped, grids := [1] }
def launching (fs : List (Nat × Nat × Nat)) : List Byte := fields 64 ([(0, 1, 1), (8, 8, 0x10040), (0x20, 4, 1), (0x24, 2, 1), (0x26, 2, 1), (0x28, 8, 0x10108)] ++ fs)
def waiting (ty v : Nat) : List Byte := fields 64 [(0, 1, ty), (0x28, 8, 0x10108), (0x30, 8, v)]
/-- A packet is read, and no line of its signal or index is leased. -/
def packetB (s : State) (p : List Byte → State → Bool) : Bool :=
  okB (s.engineLoad (s.queue 7) (State.packetVa (s.queue 7)) 64) fun s1 bs => !s1.packetHeld (s.queue 7) (BitVec.ofNat 64 (field bs 0x28 8)) && p bs s1
theorem packetB_iff {s : State} {p : List Byte → State → Bool} (h : packetB s p = true) : ∃ bs s1, Spec.packet s 7 bs s1 ∧ p bs s1 = true := by
  obtain ⟨s1, bs, e, k⟩ := okB_iff h
  simp only [Bool.and_eq_true, Bool.not_eq_true'] at k
  exact ⟨bs, s1, ⟨e, k.1⟩, k.2⟩
abbrev live (s : State) : Prop := (s.queue 7).state = .mapped ∧ s.running (s.queue 7).mapPkg = true
theorem wit_QueueEvents_launch :
    (∃ s bs s1 st, s = queued { qm with started := true } (launching [(3, 1, 8)]) ∧ live s ∧ (s.queue 7).started = true ∧ Spec.packet s 7 bs s1 ∧ s1.descHeld (s.queue 7).mapPkg (s.queue 7).ctx bs = false ∧ field bs 0 1 ≠ 2
      ∧ ¬(field bs 0 1 = 3 ∧ State.waitOk bs = true) ∧ s1.launchCheck (s.queue 7).mapPkg (s.queue 7).ctx bs 7 1 none (some 7) = .error st)
    ∧ ∃ s bs s1 g, s = queued { qm with started := true } (launching [(3, 1, 7)]) ∧ live s ∧ (s.queue 7).started = true ∧ Spec.packet s 7 bs s1 ∧ s1.descHeld (s.queue 7).mapPkg (s.queue 7).ctx bs = false ∧ field bs 0 1 ≠ 2
      ∧ ¬(field bs 0 1 = 3 ∧ State.waitOk bs = true) ∧ s1.launchCheck (s.queue 7).mapPkg (s.queue 7).ctx bs 7 1 none (some 7) = .ok g := by
  constructor
  · obtain ⟨bs, s1, h, k⟩ := packetB_iff (s := queued { qm with started := true } (launching [(3, 1, 8)])) (p := fun bs s1 => !s1.descHeld 0 1 bs && decide (field bs 0 1 ≠ 2) && !decide (field bs 0 1 = 3 ∧ State.waitOk bs = true)
      && errE (s1.launchCheck 0 1 bs 7 1 none (some 7)) fun _ => true) (by decide +kernel)
    simp only [Bool.and_eq_true, Bool.not_eq_true', decide_eq_true_eq, decide_eq_false_iff_not] at k
    obtain ⟨st, e, _⟩ := errE_iff k.2
    exact ⟨_, bs, s1, st, rfl, by decide +kernel, by decide +kernel, h, k.1.1.1, k.1.1.2, k.1.2, e⟩
  · obtain ⟨bs, s1, h, k⟩ := packetB_iff (s := queued { qm with started := true } (launching [(3, 1, 7)])) (p := fun bs s1 => !s1.descHeld 0 1 bs && decide (field bs 0 1 ≠ 2) && !decide (field bs 0 1 = 3 ∧ State.waitOk bs = true)
      && okE (s1.launchCheck 0 1 bs 7 1 none (some 7)) fun _ => true) (by decide +kernel)
    simp only [Bool.and_eq_true, Bool.not_eq_true', decide_eq_true_eq, decide_eq_false_iff_not] at k
    obtain ⟨g, e, _⟩ := okE_iff k.2
    exact ⟨_, bs, s1, g, rfl, by decide +kernel, by decide +kernel, h, k.1.1.1, k.1.1.2, k.1.2, e⟩
def onWait (v : Nat) : State := queued { qm with grids := [] } (waiting 2 v)
def held512 (v : Nat) : State := hubAt 512 (queued { qm with heldWait := true } (waiting 2 v))
theorem wit_QueueEvents_waits :
    (∀ v, v = 0 ∨ v = 1 → ∃ s bs s1 s2 xs, s = onWait v ∧ live s ∧ Spec.packet s 7 bs s1 ∧ field bs 0 1 = 2 ∧ State.waitOk bs = true
      ∧ s1.engineLoad (s.queue 7) (BitVec.ofNat 64 (field bs 0x28 8)) 8 (State.scopeNum (field bs 2 1)) = (s2, .ok xs) ∧ ((s.queue 7).r < (s.queue 7).w ∧ (s.queue 7).heldWait = false ∧ s.ordHolds (s.queue 7) = false)
      ∧ (field bs 0x30 8 ≤ leNat xs ↔ v = 0))
    ∧ (∀ v, v = 0 ∨ v = 1 → ∃ s bs s2 xs, s = held512 v ∧ live s ∧ (s.queue 7).heldWait = true ∧ (s.queue 7).lastCheck + 512 ≤ s.hubNow (s.queue 7).mapPkg
      ∧ s.headPacket (s.queue 7) = .ok bs ∧ s.packetHeld (s.queue 7) (BitVec.ofNat 64 (field bs 0x28 8)) = false
      ∧ s.engineLoad (s.queue 7) (BitVec.ofNat 64 (field bs 0x28 8)) 8 (State.scopeNum (field bs 2 1)) = (s2, .ok xs) ∧ (field bs 0x30 8 ≤ leNat xs ↔ v = 0))
    ∧ ∀ b : Bool, ∃ s bs s1, s = (queued { qm with started := true } (waiting 3 1)).modGrid 1 (fun g => { g with retired := b }) ∧ live s ∧ (s.queue 7).started = true ∧ Spec.packet s 7 bs s1
      ∧ field bs 0 1 = 3 ∧ State.waitOk bs = true ∧ ((∀ g ∈ (s.queue 7).grids, (s.grid g).retired = true) ↔ b = true) := by
  refine ⟨fun v hv => ?_, fun v hv => ?_, fun b => ?_⟩
  · have main (h : packetB (onWait v) (fun bs s1 => decide (field bs 0 1 = 2) && State.waitOk bs
        && okB (s1.engineLoad ((onWait v).queue 7) (BitVec.ofNat 64 (field bs 0x28 8)) 8 (State.scopeNum (field bs 2 1))) fun _ xs => decide (field bs 0x30 8 ≤ leNat xs ↔ v = 0)) = true)
        (h2 : live (onWait v)) (h3 : ((onWait v).queue 7).r < ((onWait v).queue 7).w ∧ ((onWait v).queue 7).heldWait = false ∧ (onWait v).ordHolds ((onWait v).queue 7) = false) :
        ∃ s bs s1 s2 xs, s = onWait v ∧ live s ∧ Spec.packet s 7 bs s1 ∧ field bs 0 1 = 2 ∧ State.waitOk bs = true
      ∧ s1.engineLoad (s.queue 7) (BitVec.ofNat 64 (field bs 0x28 8)) 8 (State.scopeNum (field bs 2 1)) = (s2, .ok xs) ∧ ((s.queue 7).r < (s.queue 7).w ∧ (s.queue 7).heldWait = false ∧ s.ordHolds (s.queue 7) = false)
      ∧ (field bs 0x30 8 ≤ leNat xs ↔ v = 0) := by
      obtain ⟨bs, s1, e, k⟩ := packetB_iff h
      simp only [Bool.and_eq_true, decide_eq_true_eq] at k
      obtain ⟨s2, xs, e2, k2⟩ := okB_iff k.2
      exact ⟨_, bs, s1, s2, xs, rfl, h2, e, k.1.1, k.1.2, e2, h3, of_decide_eq_true k2⟩
    obtain rfl | rfl := hv <;> exact main (by decide +kernel) (by decide +kernel) (by decide +kernel)
  · have main (h : okE ((held512 v).headPacket ((held512 v).queue 7)) (fun bs => !(held512 v).packetHeld ((held512 v).queue 7) (BitVec.ofNat 64 (field bs 0x28 8))
        && okB ((held512 v).engineLoad ((held512 v).queue 7) (BitVec.ofNat 64 (field bs 0x28 8)) 8 (State.scopeNum (field bs 2 1))) fun _ xs => decide (field bs 0x30 8 ≤ leNat xs ↔ v = 0)) = true)
        (h2 : live (held512 v)) (h3 : ((held512 v).queue 7).heldWait = true) (h4 : ((held512 v).queue 7).lastCheck + 512 ≤ (held512 v).hubNow ((held512 v).queue 7).mapPkg) :
        ∃ s bs s2 xs, s = held512 v ∧ live s ∧ (s.queue 7).heldWait = true ∧ (s.queue 7).lastCheck + 512 ≤ s.hubNow (s.queue 7).mapPkg
      ∧ s.headPacket (s.queue 7) = .ok bs ∧ s.packetHeld (s.queue 7) (BitVec.ofNat 64 (field bs 0x28 8)) = false
      ∧ s.engineLoad (s.queue 7) (BitVec.ofNat 64 (field bs 0x28 8)) 8 (State.scopeNum (field bs 2 1)) = (s2, .ok xs) ∧ (field bs 0x30 8 ≤ leNat xs ↔ v = 0) := by
      obtain ⟨bs, e, k⟩ := okE_iff h
      simp only [Bool.and_eq_true, Bool.not_eq_true'] at k
      obtain ⟨s2, xs, e2, k2⟩ := okB_iff k.2
      exact ⟨_, bs, s2, xs, rfl, h2, h3, h4, e, k.1, e2, of_decide_eq_true k2⟩
    obtain rfl | rfl := hv <;> exact main (by decide +kernel) (by decide +kernel) (by decide +kernel) (by decide +kernel)
  · have main (h : packetB ((queued { qm with started := true } (waiting 3 1)).modGrid 1 fun g => { g with retired := b }) (fun bs _ => decide (field bs 0 1 = 3) && State.waitOk bs) = true)
        (h2 : let s := (queued { qm with started := true } (waiting 3 1)).modGrid 1 fun g => { g with retired := b }; live s ∧ (s.queue 7).started = true
          ∧ ((∀ g ∈ (s.queue 7).grids, (s.grid g).retired = true) ↔ b = true)) :
        ∃ s bs s1, s = (queued { qm with started := true } (waiting 3 1)).modGrid 1 (fun g => { g with retired := b }) ∧ live s ∧ (s.queue 7).started = true ∧ Spec.packet s 7 bs s1
      ∧ field bs 0 1 = 3 ∧ State.waitOk bs = true ∧ ((∀ g ∈ (s.queue 7).grids, (s.grid g).retired = true) ↔ b = true) := by
      obtain ⟨bs, s1, e, k⟩ := packetB_iff h
      simp only [Bool.and_eq_true, decide_eq_true_eq] at k
      exact ⟨_, bs, s1, rfl, h2.1, h2.2.1, e, k.1, k.2, h2.2.2⟩
    cases b <;> exact main (by decide +kernel) (by decide +kernel)
def woken (l : List Nat) : State := (queued { qm with r := 1 } []).modPkg 0 fun p => { p with wakes := l }
/-- The write index of queue 7 as its packet engine reads it. -/
def readsB (s : State) (v : Nat) : Bool := okB (s.engineLoad (s.queue 7) (s.queue 7).widx 8) fun _ xs => decide (leNat xs = v)
theorem readsB_iff {s : State} {v : Nat} (h : readsB s v = true) : ∃ s1 xs, s.engineLoad (s.queue 7) (s.queue 7).widx 8 = (s1, .ok xs) ∧ leNat xs = v := by
  obtain ⟨s1, xs, e, k⟩ := okB_iff h
  exact ⟨s1, xs, e, of_decide_eq_true k⟩
/-- Queue 7 found empty, and marked as waiting or not. -/
def empty (b : Bool) : State := hubAt (2 ^ 20) ((queued { qm with r := 1, waitingNotify := b } []).modPkg 0 fun p => { p with wakes := [] })
theorem wit_QueueEvents_indices :
    (∃ s pa pte s1 xs, s = woken [lineOf page + 256] ∧ (s.pkg 0).wakes = [lineOf page + 256] ∧ s.queues = [(7, { qm with r := 1 })]
      ∧ s.vaAddr 0 (s.ctxRoot 1) none .load 0x10100 = .ok (pa, pte) ∧ lineOf pa = lineOf page + 256 ∧ s.indexHeld { qm with r := 1 } = false
      ∧ (∀ k ∈ Map.keys s.contexts, Spec.headerAt s k (lineOf page + 256) = false)
      ∧ (s.modPkg 0 fun k => { k with wakes := [] }).engineLoad { qm with r := 1 } 0x10100 8 = (s1, .ok xs))
    ∧ (let s := lane.modPkg 0 fun p => { p with wakes := [0] }; (s.pkg 0).wakes = [0] ∧ s.queues = [])
    ∧ ((woken []).pkg 0).wakes = []
    ∧ Due (fun s => (s.queue 7).state = .mapped ∧ (s.queue 7).w ≤ (s.queue 7).r ∧ (s.queue 7).lastCheck + 512 ≤ s.hubNow (s.queue 7).mapPkg ∧ s.indexHeld (s.queue 7) = false)
      (hubAt 512 (woken [])) (hubAt 511 (woken []))
    ∧ (∀ v ∈ [0, 1 + 2 ^ 4, 1 + 2 ^ 4 + 1], ∃ s1 xs, let s := put (hubAt 512 (woken [])) 0x100 [BitVec.ofNat 8 v]; let b := s.setQueue 7 { s.queue 7 with lastCheck := s.hubNow (s.queue 7).mapPkg };
      b.engineLoad (b.queue 7) (b.queue 7).widx 8 = (s1, .ok xs) ∧ leNat xs = v)
    ∧ (∀ b : Bool, Due (fun s => (s.queue 7).state = .mapped ∧ (s.queue 7).w ≤ (s.queue 7).r ∧ (s.queue 7).emptySince + 2 ^ 20 ≤ s.hubNow (s.queue 7).mapPkg
      ∧ s.indexHeld (s.queue 7) = false ∧ ((s.queue 7).waitingNotify = true → s.indexOwned (s.queue 7) = false)) (empty b) (hubAt 512 (woken [])))
    ∧ (∀ v ∈ [0, 1 + 2 ^ 4, 1 + 2 ^ 4 + 1], ((empty false).queue 7).waitingNotify = false ∧ ∃ s1 xs, let s := put (empty false) 0x100 [BitVec.ofNat 8 v]; let b := s.setQueue 7 { s.queue 7 with waitingNotify := true };
      b.engineLoad (b.queue 7) (b.queue 7).widx 8 = (s1, .ok xs) ∧ leNat xs = v)
    ∧ ∀ v ∈ [0, 1 + 2 ^ 4, 1 + 2 ^ 4 + 1], ((empty true).queue 7).waitingNotify = true ∧ ∃ s1 xs, let s := put (empty true) 0x100 [BitVec.ofNat 8 v];
      s.engineLoad (s.queue 7) (s.queue 7).widx 8 = (s1, .ok xs) ∧ leNat xs = v := by
  refine ⟨?_, by decide +kernel, by decide +kernel, ⟨by decide +kernel, by decide +kernel⟩, ?_, fun b => ?_, ?_, ?_⟩
  · obtain ⟨x, e, k⟩ := okE_iff (R := (woken [lineOf page + 256]).vaAddr 0 ((woken [lineOf page + 256]).ctxRoot 1) none .load 0x10100) (p := fun x => decide (lineOf x.1 = lineOf page + 256)) (by decide +kernel)
    obtain ⟨s1, xs, e2, _⟩ := okB_iff (R := ((woken [lineOf page + 256]).modPkg 0 fun k => { k with wakes := [] }).engineLoad { qm with r := 1 } 0x10100 8) (p := fun _ _ => true) (by decide +kernel)
    exact ⟨_, x.1, x.2, s1, xs, rfl, by decide +kernel, rfl, e, of_decide_eq_true k, by decide +kernel, by decide +kernel, e2⟩
  · intro v h
    simp only [List.mem_cons, List.not_mem_nil, or_false] at h
    obtain rfl | rfl | rfl := h <;> exact readsB_iff (by decide +kernel)
  · cases b <;> exact ⟨by decide +kernel, by decide +kernel⟩
  · intro v h
    simp only [List.mem_cons, List.not_mem_nil, or_false] at h
    obtain rfl | rfl | rfl := h <;> exact ⟨by decide +kernel, readsB_iff (by decide +kernel)⟩
  · intro v h
    simp only [List.mem_cons, List.not_mem_nil, or_false] at h
    obtain rfl | rfl | rfl := h <;> exact ⟨by decide +kernel, readsB_iff (by decide +kernel)⟩
/-- Queue 7 of context 1 with a launch at its head, on a package whose hub die counts 16. -/
def drawing (fill : Bool) (floor : Nat) : State := hubAt 16 (queued { qm with grids := [], fill, floor } (launching []))
theorem wit_LotteryDraw : ∀ fill : Bool, ∀ floor ∈ [0, 4096], ∃ s w x, s = drawing fill floor ∧
    let all := State.bySlotOrder (s.queues.filter fun y => y.2.mapPkg = 0 && s.eligible y.2);
    let ord := all.filter fun y => !y.2.fill;
    let f : Bool := ord = [];
    let mine := (if f then all else ord).filter fun y => y.2.ctx = 1;
    (s.queues.map (·.1)).Nodup ∧ (s.pkg 0).lastDraw + 16 ≤ s.hubNow 0 ∧ s.nextLaunch 0 = none ∧ s.skeinHolds 0 < 16 ∧ s.running 0 = true
      ∧ State.nextTurn (if f then (s.pkg 0).rotFill else (s.pkg 0).rotOrd) ((if f then all else ord).map (·.2.ctx)) = some 1
      ∧ State.drawIn (Map.getD (s.pkg 0).lottery 1 1) f mine = (some w, x) ∧ w = 7 ∧ f = fill := by
  intro fill floor h
  have main (h : let s := drawing fill floor; let all := State.bySlotOrder (s.queues.filter fun y => y.2.mapPkg = 0 && s.eligible y.2);
    let ord := all.filter fun y => !y.2.fill;
    let f : Bool := ord = [];
    let mine := (if f then all else ord).filter fun y => y.2.ctx = 1;
    (s.queues.map (·.1)).Nodup ∧ (s.pkg 0).lastDraw + 16 ≤ s.hubNow 0 ∧ s.nextLaunch 0 = none ∧ s.skeinHolds 0 < 16 ∧ s.running 0 = true
      ∧ State.nextTurn (if f then (s.pkg 0).rotFill else (s.pkg 0).rotOrd) ((if f then all else ord).map (·.2.ctx)) = some 1
      ∧ (State.drawIn (Map.getD (s.pkg 0).lottery 1 1) f mine).1 = some 7 ∧ f = fill) : ∃ s w x, s = drawing fill floor ∧
    let all := State.bySlotOrder (s.queues.filter fun y => y.2.mapPkg = 0 && s.eligible y.2);
    let ord := all.filter fun y => !y.2.fill;
    let f : Bool := ord = [];
    let mine := (if f then all else ord).filter fun y => y.2.ctx = 1;
    (s.queues.map (·.1)).Nodup ∧ (s.pkg 0).lastDraw + 16 ≤ s.hubNow 0 ∧ s.nextLaunch 0 = none ∧ s.skeinHolds 0 < 16 ∧ s.running 0 = true
      ∧ State.nextTurn (if f then (s.pkg 0).rotFill else (s.pkg 0).rotOrd) ((if f then all else ord).map (·.2.ctx)) = some 1
      ∧ State.drawIn (Map.getD (s.pkg 0).lottery 1 1) f mine = (some w, x) ∧ w = 7 ∧ f = fill := by
    obtain ⟨nd, a, b, c, d, e, f, g⟩ := h
    exact ⟨_, 7, _, rfl, nd, a, b, c, d, e, Prod.ext f rfl, rfl, g⟩
  simp only [List.mem_cons, List.not_mem_nil, or_false] at h
  cases fill <;> obtain rfl | rfl := h <;> exact main (by decide +kernel)
/-- A packet of a `LNCH` of the lane at its Skein. -/
def lnch (fs : List (Nat × Nat × Nat)) : State :=
  { (queued qm []).modPkg 0 (fun p => { p with launches := [{ op := 0, packet := launching fs }] }) with ops := [(0, { lane.newOp t0 .lnch 0 256 0x10000 [] with st := .queued })] }
theorem wit_LaunchEvents :
    (∃ o st, (lnch [(3, 1, 4)]).nextLaunch 0 = some { op := 0, packet := launching [(3, 1, 4)] } ∧ (lnch [(3, 1, 4)]).op 0 = some o ∧ (lnch [(3, 1, 4)]).descHeld 0 o.ctx (launching [(3, 1, 4)]) = false
      ∧ (lnch [(3, 1, 4)]).launchCheck 0 o.ctx (launching [(3, 1, 4)]) 2 (((lnch [(3, 1, 4)]).grid o.grid).depth + 1) (some o.grid) none = .error st)
    ∧ (∀ f, f = 0 ∨ f = 2 → ∃ o g, (lnch [(3, 1, f)]).nextLaunch 0 = some { op := 0, packet := launching [(3, 1, f)] } ∧ (lnch [(3, 1, f)]).op 0 = some o ∧ (lnch [(3, 1, f)]).descHeld 0 o.ctx (launching [(3, 1, f)]) = false
      ∧ (lnch [(3, 1, f)]).launchCheck 0 o.ctx (launching [(3, 1, f)]) 2 (((lnch [(3, 1, f)]).grid o.grid).depth + 1) (some o.grid) none = .ok g
      ∧ ((field (launching [(3, 1, f)]) 3 1).testBit 1 = true ∧ g.kern.coop = false ∧ g.kern.clustered = false ↔ f = 2) ∧ (lnch [(3, 1, f)]).skeinHolds 0 < 16) := by
  have hop (fs : List (Nat × Nat × Nat)) : (lnch fs).op 0 = some { lane.newOp t0 .lnch 0 256 0x10000 [] with st := .queued } := rfl
  constructor
  · obtain ⟨st, e, _⟩ := errE_iff (R := (lnch [(3, 1, 4)]).launchCheck 0 1 (launching [(3, 1, 4)]) 2 (((lnch [(3, 1, 4)]).grid 1).depth + 1) (some 1) none) (p := fun _ => true) (by decide +kernel)
    exact ⟨_, st, by decide +kernel, hop _, by decide +kernel, e⟩
  · have main (f : Nat) (h : okE ((lnch [(3, 1, f)]).launchCheck 0 1 (launching [(3, 1, f)]) 2 (((lnch [(3, 1, f)]).grid 1).depth + 1) (some 1) none)
        (fun g => decide ((field (launching [(3, 1, f)]) 3 1).testBit 1 = true ∧ g.kern.coop = false ∧ g.kern.clustered = false ↔ f = 2)) = true)
        (h2 : (lnch [(3, 1, f)]).nextLaunch 0 = some { op := 0, packet := launching [(3, 1, f)] }) (h3 : (lnch [(3, 1, f)]).skeinHolds 0 < 16) (h4 : (lnch [(3, 1, f)]).descHeld 0 1 (launching [(3, 1, f)]) = false) :
        ∃ o g, (lnch [(3, 1, f)]).nextLaunch 0 = some { op := 0, packet := launching [(3, 1, f)] } ∧ (lnch [(3, 1, f)]).op 0 = some o ∧ (lnch [(3, 1, f)]).descHeld 0 o.ctx (launching [(3, 1, f)]) = false
      ∧ (lnch [(3, 1, f)]).launchCheck 0 o.ctx (launching [(3, 1, f)]) 2 (((lnch [(3, 1, f)]).grid o.grid).depth + 1) (some o.grid) none = .ok g
      ∧ ((field (launching [(3, 1, f)]) 3 1).testBit 1 = true ∧ g.kern.coop = false ∧ g.kern.clustered = false ↔ f = 2) ∧ (lnch [(3, 1, f)]).skeinHolds 0 < 16 := by
      obtain ⟨g, e, k⟩ := okE_iff h
      exact ⟨_, g, h2, hop _, h4, e, of_decide_eq_true k, h3⟩
    rintro f (rfl | rfl) <;> exact main _ (by decide +kernel) (by decide +kernel) (by decide +kernel) (by decide +kernel)
/-- A merge window of one grid; a pending team on die 0; two on die 1, of a context that may launch. -/
def window (n : Nat) (gs : List Nat) : State := hubAt n ((lane.modContext 1 fun c => { c with sysPages := 1 }).modPkg 0 fun p => { p with windows_ := [{ opened := 0, grids := gs }] })
abbrev small : Kernel := { allot := 8, allotMax := 8 }
def bobbins (f : Nat → List Nat) : State :=
  let s := (List.range 8).foldl (fun (s : State) d => s.modDie 0 d fun x => { x with bobbin := f d })
    (lane.modContext 1 fun c => { c with regs := { c.regs with trapQueue := 0x10000, spoolBase := 1, chkHandler := 8 } })
  { ((s.setGrid 9 { ctx := 1, kern := small }).setTeam 2 { ctx := 1, grid := 9, place := .pending }).setTeam 3 { ctx := 1, grid := 9, place := .pending } with nextId := 10 }
theorem wit_TeamMovement :
    Due (fun s => ∃ x, (s.pkg 0).windows_[0]? = some x ∧ (x.opened + 2048 ≤ s.hubNow 0 ∨ 4096 ≤ x.grids.length) ∧ s.skeinHolds 0 < 16) (window 2048 [1]) (window 0 [])
    ∧ (∃ f, State.freePages ((window 2048 [1]).context 1).sysTables ((window 2048 [1]).context 1).sysPages
        ((32 * State.sumOf ([1].map fun g => ((window 2048 [1]).grid g).teamCount) + 65535) / 65536) = some f)
    ∧ (((window 2048 [1]).pkg 0).windows_[0]? = some { opened := 0, grids := [1] } ∧ ((window 2048 [1]).grid 1).ctx = 1)
    ∧ (let s := bobbins fun d => if d = 0 then [2] else []; (s.die 0 0).bobbin = [2] ∧ (s.team 2).clusterSlot = none ∧ (s.grid (s.team 2).grid).kern.clustered = false ∧ s.mayPlace 0 1 = true ∧ 2 < s.nextId
      ∧ (s.bestCore 0 0 1 1 8 0 0).isSome = true ∧ (s.grid (s.team 2).grid).kern = small)
    ∧ (let s := bobbins fun d => if d = 1 then [2, 3] else []; let b := (s.die 0 1).bobbin;
      (s.die 0 0).bobbin = [] ∧ (s.die 0 0).stealAt ≠ some (s.die 0 0).now ∧ (∃ k < 128, s.liveWaves ⟨0, 0, k⟩ = []) ∧ 1 < 8 ∧ 1 ≠ 0 ∧ 2 ≤ b.length
      ∧ (∀ f < 8, f ≠ 0 → f ≠ 1 → (s.die 0 f).bobbin.length < b.length) ∧ b.Nodup ∧ (∀ n ∈ b, n < s.nextId ∧ (s.team n).clusterSlot = none)
      ∧ ∃ n ∈ b, s.stealable (s.team n).grid = true) := by
  refine ⟨⟨⟨_, rfl, .inl (by decide +kernel), by decide +kernel⟩, ?_⟩, ?_, by decide +kernel, by decide +kernel, by decide +kernel, by decide +kernel, ⟨1, by decide, by decide +kernel⟩, by decide +kernel⟩
  · have hw : ((window 0 []).pkg 0).windows_[0]? = some { opened := 0, grids := [] } := rfl
    rintro ⟨x, h, k, _⟩
    cases hw.symm.trans h
    revert k
    decide +kernel
  · obtain ⟨f, h, _⟩ := isB_iff (R := State.freePages ((window 2048 [1]).context 1).sysTables ((window 2048 [1]).context 1).sysPages
        ((32 * State.sumOf ([1].map fun g => ((window 2048 [1]).grid g).teamCount) + 65535) / 65536)) (p := fun _ => true) (by decide +kernel)
    exact ⟨f, h⟩
def ended (f : Grid → Grid) : State := (lane.modGrid 1 fun g => f { g with handed := 1, gx := 1 }).modTeam 1 fun t => { t with place := .ended }
theorem wit_GridRetire : Due (fun s => Spec.retirable s 1 ∧ s.signalHeld (s.grid 1).pkg (s.grid 1).ctx (s.grid 1).sigAddr = false) (ended id) (ended fun g => { g with handed := 0 })
    ∧ ((ended id).grid 1).parent = none ∧ ((ended fun g => { g with sigAddr := 0x10008, sigVal := 1 }).grid 1).sigAddr = 0x10008 := by
  refine ⟨⟨⟨?_, by decide +kernel⟩, fun h => ?_⟩, by decide +kernel, by decide +kernel⟩
  · unfold Spec.retirable; decide +kernel
  · have := h.1.2.2.1
    revert this
    decide +kernel
/-- The lane's context with a spool area of `n` pages at 0x20000, its team small. -/
def spool (n : Nat) (s : State) : State :=
  let m := (List.range n).foldl (fun m k => memStore m (physAt 0 0 (4 * 65536 + 16 * (2 + k))) (State.pteBytes 0x1F 1 (6 + k))) s.mem
  let s := { s with mem := memStore m (physAt 0 0 (6 * 65536)) (leBytes (n * 65536) 8) }
  ((s.modContext 1 fun c => { c with regs := { c.regs with spoolBase := 0x20000 } }).modTeam 1 fun x => { x with scrKB := 0, nacc := 0 }).modWave w0 fun w => { w with allot := 8 }
def savedB : State.PreemptEnd → Bool := fun x => match x with | .saved _ => true | _ => false
def fullB : State.PreemptEnd → Bool := fun x => match x with | .full => true | _ => false
theorem savedB_iff {x : State.PreemptEnd} (h : savedB x = true) : ∃ s1, x = .saved s1 := by
  cases x with
  | saved s => exact ⟨s, rfl⟩
  | full => cases h
  | waits => cases h
theorem fullB_iff {x : State.PreemptEnd} (h : fullB x = true) : x = .full := by
  cases x with
  | saved s => cases h
  | full => rfl
  | waits => cases h
def waitsB : State.PreemptEnd → Bool := fun x => match x with | .waits => true | _ => false
theorem waitsB_iff {x : State.PreemptEnd} (h : waitsB x = true) : x = .waits := by
  cases x with
  | saved s => cases h
  | full => cases h
  | waits => rfl
/-- A team that waits while a team of a child grid does. -/
def starving (s : State) : State :=
  at_ 65536 (hubAt 65536 (((s.modThread t0 fun th => { th with status := .blocked (.fence .rack) }).setGrid 9 { ctx := 1, parent := some 1 }).setTeam 2 { ctx := 1, grid := 9, place := .pending }))
theorem starves (s : State) (h0 : ((starving s).team 1).place = .resident)
    (h1 : ∀ u ∈ (starving s).teamThreads 1, ((starving s).thread u).status = .exited
      ∨ ((starving s).thread u).status = .blocked (.fence .rack) ∧ ((starving s).thread u).waitSince + 65536 ≤ (starving s).now ((starving s).team 1).core)
    (h2 : ∃ y ∈ (starving s).teams, y.2.place = .pending ∧ y.2.ctx = ((starving s).team 1).ctx ∧ ((starving s).team 1).grid ∈ (starving s).ancestors y.2.grid 10
      ∧ y.2.bornAt + 65536 ≤ (starving s).hubNow ((starving s).grid y.2.grid).pkg) : Spec.starves (starving s) 1 :=
  ⟨h0, fun u hu => (h1 u hu).imp_right fun h => ⟨.inr ⟨_, h.1⟩, h.2⟩, .inl h2⟩
/-- The lane with a value that stands in a latch alone, its team stopping or not. -/
def latched (b : Bool) : State :=
  (onThread fun th => { th with latches := [(0, { val := some 1, window := 1 })] }).modTeam 1 fun x => { x with stopping := b }
theorem wit_Preempt :
    ((lane.team 1).place = .resident ∧ ((spool 2 lane).team 1).place = .resident)
    ∧ (∃ s1, (spool 2 lane).preemptTeams ((spool 2 lane).teamSet 1) false false = .saved s1)
    ∧ (spool 1 lane).preemptTeams ((spool 1 lane).teamSet 1) false false = .full
    ∧ (∀ b : Bool, ((latched b).team 1).place = .resident ∧ (latched b).preemptTeams ((latched b).teamSet 1) false false = .waits ∧ (∀ n ∈ (latched b).teamSet 1, ((latched b).team n).stopping = b)
      ∧ (latched b).teamSet 1 ≠ [])
    ∧ (Spec.starves (starving (spool 2 lane)) 1 ∧ 1 ∉ ((starving (spool 2 lane)).pkg ((starving (spool 2 lane)).team 1).core.pkg).refusals)
    ∧ (∃ s1, (starving (spool 2 lane)).preemptTeams ((starving (spool 2 lane)).teamSet 1) false false = .saved s1)
    ∧ (Spec.starves (starving (spool 1 lane)) 1 ∧ 1 ∉ ((starving (spool 1 lane)).pkg ((starving (spool 1 lane)).team 1).core.pkg).refusals)
    ∧ (starving (spool 1 lane)).preemptTeams ((starving (spool 1 lane)).teamSet 1) false false = .full :=
  ⟨by decide +kernel, savedB_iff (by decide +kernel), fullB_iff (by decide +kernel), fun b => by cases b <;> exact ⟨by decide +kernel, waitsB_iff (by decide +kernel), by decide +kernel, by decide +kernel⟩,
    ⟨starves _ (by decide +kernel) (by decide +kernel) (by decide +kernel), by decide +kernel⟩, savedB_iff (by decide +kernel),
    ⟨starves _ (by decide +kernel) (by decide +kernel) (by decide +kernel), by decide +kernel⟩, fullB_iff (by decide +kernel)⟩
/-- The team in an image at 0x30000: the header of a team of one wave, and the wave's record. -/
def spooled : State :=
  let s := (spool 2 lane).modContext 1 fun c => { c with regs := { c.regs with trapQueue := 0x10000, chkHandler := 8 } }
  let s := { s with mem := memStore (memStore s.mem (physAt 0 0 (7 * 65536))
    (leBytes 0x3153564C 4 ++ leBytes 1 2 ++ leBytes 0 2 ++ leBytes 0x1600 4 ++ leBytes 1 2 ++ [1, 0] ++ leBytes 1 8)) (physAt 0 0 (7 * 65536 + 0x70)) (leBytes 256 8 ++ leBytes 0x1500 8 ++ leBytes 0x1500 8
      ++ leBytes 0x1500 8 ++ leBytes 0x1500 8) }
  let s := { s with mem := memStore s.mem (physAt 0 0 (7 * 65536 + 256)) (leBytes 8 2), images := [((1, 0x30000), (0, 1))] }
  (s.modTeam 1 fun x => { x with place := .spooled 0x30000, waves := [] }).setWave w0 (Wave.initial w0)
theorem wit_Restore :
    (∃ s1, spooled.imageTeam 1 0x30000 = some 1 ∧ (spooled.team 1).clusterSlot = none ∧ (spooled.context (spooled.team 1).ctx).later = []
      ∧ (spooled.modTeam 1 fun x => { x with place := .spooled 0x30000 }).teamSet 1 = [1] ∧ (spooled.modTeam 1 fun x => { x with place := .spooled 0x30000 }).restoreUnit [1] = some s1)
    ∧ Due (fun s => Map.has s.images (1, 0x30000) = true ∧ s.imageNeeded 1 0x30000 = false) ({ lane with images := [((1, 0x30000), (0, 1))] }) spooled := by
  refine ⟨?_, ⟨by decide +kernel, by decide +kernel⟩⟩
  obtain ⟨s1, h, _⟩ := isB_iff (R := (spooled.modTeam 1 fun x => { x with place := .spooled 0x30000 }).restoreUnit [1]) (p := fun _ => true) (by decide +kernel)
  exact ⟨s1, by decide +kernel, by decide +kernel, by decide +kernel, by decide +kernel, h⟩
def stopped (r : StopRec) : State := lane.modContext 1 fun c => { c with stop := [(0, r)] }
theorem wit_RackStop :
    Due (fun s => Map.has s.contexts 1 = true ∧ Map.has (s.context 1).stop 0 = false) lane (stopped { epoch := 3, at_ := 0 })
    ∧ Due (fun s => ∃ r, Map.find (s.context 1).stop 0 = some r ∧ r.received = true ∧ r.epoch = 3 ∧ ((s.context 1).resumed ≠ some 3 → s.allStopped 0 1 3 = true)) (stopped { epoch := 3, at_ := 0, sent := true, received := true }) lane
    ∧ Due (fun s => ∃ r, Map.find (s.context 1).stop 0 = some r ∧ r.sent = true ∧ r.received = false) (stopped { epoch := 3, at_ := 0, sent := true }) lane
    ∧ Due (fun s => ∃ r, Map.find (s.context 1).stop 0 = some r ∧ r.received = false ∧ r.at_ + 2 ^ 25 ≤ s.hubNow 0 ∧ (s.pkg 0).alive = true ∧ 0 ∉ s.reports) (hubAt (2 ^ 25) (stopped { epoch := 3, at_ := 0 })) lane
    ∧ (∃ s1, let s := spool 2 (stopped { epoch := 3, at_ := 0 }); Map.find (s.context 1).stop 0 = some { epoch := 3, at_ := 0 }
      ∧ (∀ y ∈ s.teams, y.2.ctx = 1 → y.2.place = .resident → y.2.core.pkg = 0 → (s.core (s.team y.1).core).misses = [] ∧ (s.core (s.team y.1).core).sent = [] ∧ (s.core (s.team y.1).core).held = [])
      ∧ s.preemptTeams (Spec.drains s 0 1) false false = .saved s1) := by
  have hn (r) : ¬Map.find (lane.context 1).stop 0 = some r := fun h => nomatch h
  refine ⟨⟨by decide +kernel, by decide +kernel⟩, ⟨⟨_, rfl, rfl, rfl, by decide +kernel⟩, fun ⟨_, h, _⟩ => hn _ h⟩, ⟨⟨_, rfl, rfl, rfl⟩, fun ⟨_, h, _⟩ => hn _ h⟩,
    ⟨⟨{ epoch := 3, at_ := 0 }, by decide +kernel⟩, fun ⟨_, h, _⟩ => hn _ h⟩, ?_⟩
  obtain ⟨s1, h⟩ := savedB_iff (x := (spool 2 (stopped { epoch := 3, at_ := 0 })).preemptTeams (Spec.drains (spool 2 (stopped { epoch := 3, at_ := 0 })) 0 1) false false) (by decide +kernel)
  exact ⟨s1, by decide +kernel, by decide +kernel, h⟩
/-- Two packages of one partition. -/
def pair (s : State) : State :=
  (s.modPkg 0 fun p => { p with n := 2, pid := some 1, pmap := [(1, 1)] }).modPkg 1 fun p => { p with n := 2, num := 1, pid := some 1, pmap := [(0, 0)] }
def phase (f : QPhase) (s : State) : State := s.modPkg 0 fun p => { p with phase := f }
theorem wit_Losses :
    Due (fun s => 1 ∈ s.reports) { pair lane with reports := [1] } lane
    ∧ (((pair lane).pkg 1).alive = true ∧ 0 ∈ (pair lane).partition ((((pair lane).partition 1).filter (· ≠ 1)).headD 1) ∧ ((pair lane).pkg 0).alive = true)
    ∧ Due (fun s => s.mcheck = true) { pair lane with mcheck := true } lane
    ∧ 0 ∈ (pair lane).partition (((pair lane).pkgs.find? fun y => y.2.alive).elim 0 (·.1))
    ∧ (∃ s x, s = at_ 4608 ((pair lane).modDie 0 0 fun y => { y with dir := [(0, { st := .o, size := 0, busy := some { req := { kind := .getm, src := .core c0, dst := .home 0 0 }, replies := 1, from_ := [.core ⟨1, 0, 0⟩] } })] })
      ∧ (s.dirFind 0 0 0).2.busy = some x ∧ 0 < x.replies ∧ x.since + 4608 ≤ s.now ⟨0, 0, 0⟩ ∧ x.from_.head? = some (.core ⟨1, 0, 0⟩) ∧ (s.pkg 1).alive = true ∧ 1 ∉ s.reports) := by
  refine ⟨⟨by decide +kernel, by decide +kernel⟩, by decide +kernel, ⟨by decide +kernel, by decide +kernel⟩, by decide +kernel, _,
    { req := { kind := .getm, src := .core c0, dst := .home 0 0 }, replies := 1, from_ := [.core ⟨1, 0, 0⟩] }, rfl, by decide +kernel⟩
theorem wit_Quiesce :
    Due (fun s => (s.pkg 0).quiesce.isSome = true ∧ (s.pkg 0).alive = true) (lane.modPkg 0 fun p => { p with quiesce := some 1 }) lane
    ∧ Due (fun s => s.phaseOpen 0 .stop = true) (phase .stop lane) (phase .stop (pair lane))
    ∧ Due (fun s => s.phaseOpen 0 .cut = true ∧ ∀ y ∈ s.net, s.gone y.2.src = true ∨ s.gone y.2.dst = true) (phase .cut lane) lane
    ∧ Due (fun s => s.phaseOpen 0 .settle = true ∧ ∀ y ∈ s.teams, y.2.place = .resident → y.2.core.pkg ≠ 0) (phase .settle State.reset) lane
    ∧ (∃ s1, let s := phase .settle (spool 2 lane); s.phaseOpen 0 .settle = true ∧ (s.teams.map (·.1)).Nodup
      ∧ (s.teams.filter fun y => y.2.place = .resident && y.2.core.pkg = 0).map (·.1) = [1] ∧ s.preemptTeams [1] true true = .saved s1)
    ∧ Due (fun s => s.phaseOpen 0 .record = true ∨ s.phaseOpen 0 .save = true ∧ s.partitionContexts 0 = []) (phase .record lane) (phase .save lane)
    ∧ Due (fun s => s.phaseOpen 0 .record = true ∨ s.phaseOpen 0 .save = true ∧ s.partitionContexts 0 = []) (phase .save State.reset) (phase .save lane)
    ∧ Due (fun s => s.phaseOpen 0 .sweep = true) (phase .sweep lane) (phase .record lane)
    ∧ Due (fun s => Map.has s.contexts 1 = true ∧ (s.context 1).handled = false ∧ s.phaseOpen (s.ctxPkg 1) .rebuild = true)
      (phase .rebuild (lane.modContext 1 fun c => { c with handled := false })) lane := by
  have h := savedB_iff (x := (phase .settle (spool 2 lane)).preemptTeams [1] true true) (by decide +kernel)
  obtain ⟨s1, h⟩ := h
  exact ⟨⟨by decide +kernel, by decide +kernel⟩, ⟨by decide +kernel, by decide +kernel⟩, ⟨by decide +kernel, by decide +kernel⟩, ⟨by decide +kernel, by decide +kernel⟩,
    ⟨s1, by decide +kernel, by decide +kernel, by decide +kernel, h⟩, ⟨by decide +kernel, by decide +kernel⟩, ⟨by decide +kernel, by decide +kernel⟩, ⟨by decide +kernel, by decide +kernel⟩,
    by decide +kernel, by decide +kernel⟩
theorem wit_QuiesceRecord :
    (let s := phase .save lane; Map.has s.contexts 1 = true ∧ s.phaseOpen (s.ctxPkg 1) .save = true ∧ (s.context 1).recorded = none ∧ s.spoolMap 1 = none)
    ∧ (∃ f n s1, let s := phase .save (spool 2 lane); Map.has s.contexts 1 = true ∧ s.phaseOpen (s.ctxPkg 1) .save = true ∧ (s.context 1).recorded = none ∧ (s.spoolMap 1).isSome = true
      ∧ s.claimSpool 1 (s.checkpointBytes 1).length = some (f, n, s1))
    ∧ (let s := phase .rebuild (lane.modContext 1 fun c => { c with handled := false, recorded := some (0, some 0x30000), regs := { c.regs with trapQueue := 0x10000, spoolBase := 1, chkHandler := 8 } });
      (s.context 1).recorded = some (0, some 0x30000) ∧ s.schedulable 1 = true ∧ (s.context 1).handled = false ∧ s.phaseOpen (s.ctxPkg 1) .rebuild = true) := by
  refine ⟨by decide +kernel, ?_, by decide +kernel⟩
  obtain ⟨x, h, _⟩ := isB_iff (R := (phase .save (spool 2 lane)).claimSpool 1 ((phase .save (spool 2 lane)).checkpointBytes 1).length) (p := fun _ => true) (by decide +kernel)
  exact ⟨x.1, x.2.1, x.2.2, by decide +kernel, by decide +kernel, by decide +kernel, by decide +kernel, h⟩
abbrev cA : CoreId := ⟨0, 0, 3⟩
abbrev cB : CoreId := ⟨0, 1, 2⟩
/-- A message of a kind about the line at the lane's page, on its way to that line's home. -/
abbrev msg (k : MsgKind) (a : Agent) : Msg := { kind := k, line := page, src := a, dst := .home 0 0, key := 1, page := 1, root := (0, 0, 1) }
/-- The home with an entry of the line and messages on their way. -/
def home (e : DirEntry) (ms : List (Nat × Msg)) : State :=
  { lane.modDie 0 0 (fun x => { x with dir := [(page, e)] }) with net := ms, nextId := 9 }
abbrev line (st : DirSt) (cs : List CoreId) : DirEntry := { st, size := 0, ptr := (List.range cs.length).zip cs }
abbrev comes (s : State) (n : Nat) (k : MsgKind) (m : Msg) : Prop :=
  Map.find s.net n = some m ∧ m.kind = k ∧ (s.pkg m.dst.pkg).alive = true ∧ s.linked m.src.pkg m.dst.pkg = true
    ∧ ∀ y ∈ s.net, y.1 < n → y.2.src = m.src → y.2.dst = m.dst → y.2.kind = .retry
abbrev quietly (s : State) (n : Nat) (k : MsgKind) (m : Msg) (p d b : Nat) (e : DirEntry) : Prop :=
  comes s n k m ∧ m.dst = .home p d ∧ m.hop = 0 ∧ s.frozenAt p d m.line = none ∧ s.stubFor p d m = none ∧ s.notHome p d m = false ∧ s.dirFind p d m.line = (b, e) ∧ e.busy = none
    ∧ (e.size = 0 ∨ e.st = .i) ∧ (s.sliceEntries p d m.line).length < 32768
theorem quietly_iff {s n k m p d b e} (h : quietly s n k m p d b e) : Spec.quietHome s n k m p d b e := h
theorem comes_iff {s n k m} (h : comes s n k m) : Spec.arrives s n k m := h
/-- The entries a request meets: idle, shared, shared in the coarse form, owned by another core, owned by its sender. -/
def entries : List DirEntry := [line .i [], line .s [cA, cB], { line .s [] with coarse := true, vec := 3 }, line .o [cB], line .o [cA]]
theorem wit_HomeRequests :
    (∀ e ∈ entries, ∀ k ∈ [MsgKind.gets, .getm, .stm, .atm], Spec.quietHome (home e [(5, msg k (.core cA))]) 5 k (msg k (.core cA)) 0 0 page e)
    ∧ (∀ e ∈ entries, Spec.quietHome (home e [(5, msg .gete (.engine 0))]) 5 .gete (msg .gete (.engine 0)) 0 0 page e)
    ∧ ((line .o [cB]).owner = some cB ∧ (line .o [cA]).owner = some cA ∧ (home (line .s [cA, cB]) []).members 0 (line .s [cA, cB]) ≠ [])
    ∧ (∃ x, let e := { line .i [] with busy := some x }; let s := home e [(5, msg .gets (.core cA))]; let m := msg .gets (.core cA);
      comes s 5 .gets m ∧ m.dst = .home 0 0 ∧ m.hop = 0 ∧ s.frozenAt 0 0 m.line = none ∧ s.stubFor 0 0 m = none ∧ s.notHome 0 0 m = false
        ∧ (s.sliceEntries 0 0 m.line).length ≤ 32768 ∧ s.dirFind 0 0 m.line = (page, e) ∧ e.busy = some x) := by
  have h1 : ∀ e ∈ entries, ∀ k ∈ [MsgKind.gets, .getm, .stm, .atm], quietly (home e [(5, msg k (.core cA))]) 5 k (msg k (.core cA)) 0 0 page e := by decide +kernel
  have h2 : ∀ e ∈ entries, quietly (home e [(5, msg .gete (.engine 0))]) 5 .gete (msg .gete (.engine 0)) 0 0 page e := by decide +kernel
  exact ⟨fun e he k hk => quietly_iff (h1 e he k hk), fun e he => quietly_iff (h2 e he), by decide +kernel, { req := msg .getm (.core cB) }, by decide +kernel⟩
theorem wit_HomeNotices :
    (∀ k, (k = .puts ∨ k = .puto ∨ k = .wbs) → ∀ e ∈ entries, Spec.arrives (home e [(5, msg k (.core cA))]) 5 k (msg k (.core cA)) ∧ (home e [(5, msg k (.core cA))]).dirFind 0 0 page = (page, e)
      ∧ (home e [(5, msg k (.core cA))]).frozenAt 0 0 page = none ∧ ((home e [(5, msg k (.core cA))]).sliceEntries 0 0 page).length ≤ 32768 ∧ e.busy = none ∧ e.waiting = [] ∧ e.size = 0)
    ∧ (∀ b : Bool, ∀ k, (k = .gets ∨ k = .getm) → ∃ x, let e := { line .o [cA] with busy := some x }; let s := home e [(5, msg .puto (.core cA))];
      Spec.arrives s 5 .puto (msg .puto (.core cA)) ∧ s.dirFind 0 0 page = (page, e) ∧ x.req.line = page ∧ x.req.src = .core cA ∧ x.awaitPuto = b ∧ x.req.kind = k) := by
  constructor
  · have h : ∀ k ∈ [MsgKind.puts, .puto, .wbs], ∀ e ∈ entries, comes (home e [(5, msg k (.core cA))]) 5 k (msg k (.core cA)) ∧ (home e [(5, msg k (.core cA))]).dirFind 0 0 page = (page, e)
      ∧ (home e [(5, msg k (.core cA))]).frozenAt 0 0 page = none ∧ ((home e [(5, msg k (.core cA))]).sliceEntries 0 0 page).length ≤ 32768 ∧ e.busy = none ∧ e.waiting = [] ∧ e.size = 0 := by decide +kernel
    rintro k (rfl | rfl | rfl) e he
    · exact ⟨comes_iff (h _ (by decide) e he).1, (h _ (by decide) e he).2⟩
    · exact ⟨comes_iff (h _ (by decide) e he).1, (h _ (by decide) e he).2⟩
    · exact ⟨comes_iff (h _ (by decide) e he).1, (h _ (by decide) e he).2⟩
  · rintro b k (rfl | rfl) <;> cases b <;> exact ⟨{ req := msg _ (.core cA), awaitPuto := _ }, comes_iff (by decide +kernel), by decide +kernel, rfl, rfl, rfl, rfl⟩
/-- A reply at a home whose entry waits for `n` of them to serve a request. -/
def replied (k req : MsgKind) (n : Nat) (b : Bool) : State × Msg × DirEntry × Trans :=
  let m := { msg k (.core cB) with keepsS := b }
  let x : Trans := { req := msg req (.core cA), replies := n }
  let e := { line .o [cB] with busy := some x }
  (home e [(5, m)], m, e, x)
theorem wit_HomeReplies :
    (∀ k, (k = .data ∨ k = .ack) → ∀ req ∈ [MsgKind.gets, .getm, .gete, .stm, .atm], ∀ n ∈ [1, 2], ∀ b : Bool, let y := replied k req n b;
      Spec.arrives y.1 5 k y.2.1 ∧ y.2.1.dst = .home 0 0 ∧ y.1.dirFind 0 0 page = (page, y.2.2.1) ∧ y.2.2.1.size = 0 ∧ y.2.2.1.busy = some y.2.2.2 ∧ y.2.2.2.awaitDone = false ∧ y.2.2.2.awaitPuto = false
      ∧ y.2.2.2.replies = n ∧ y.2.2.1.waiting = [] ∧ y.1.frozenAt 0 0 page = none ∧ y.2.2.2.keep = none ∧ y.2.2.2.req.line = page ∧ y.2.2.2.req.kind = req ∧ y.2.1.keepsS = b)
    ∧ (∃ x, let e := { line .o [cA] with busy := some x }; let s := home e [(5, msg .done (.core cA))]; Spec.arrives s 5 .done (msg .done (.core cA)) ∧ s.dirFind 0 0 page = (page, e) ∧ x.awaitDone = true
      ∧ e.waiting = [] ∧ s.frozenAt 0 0 page = none) := by
  constructor
  · have h : ∀ k ∈ [MsgKind.data, .ack], ∀ req ∈ [MsgKind.gets, .getm, .gete, .stm, .atm], ∀ n ∈ [1, 2], ∀ b ∈ [true, false], comes (replied k req n b).1 5 k (replied k req n b).2.1
        ∧ (replied k req n b).1.dirFind 0 0 page = (page, (replied k req n b).2.2.1) ∧ (replied k req n b).1.frozenAt 0 0 page = none := by decide +kernel
    intro k hk req hr n hn b
    have h := h k (by rcases hk with rfl | rfl <;> decide) req hr n hn b (by cases b <;> decide)
    exact ⟨comes_iff h.1, rfl, h.2.1, rfl, rfl, rfl, rfl, rfl, rfl, h.2.2, rfl, rfl, rfl, rfl⟩
  · exact ⟨{ req := msg .getm (.core cA), awaitDone := true }, comes_iff (by decide +kernel), by decide +kernel, rfl, rfl, by decide +kernel⟩
/-- Two entries of the same record side by side, idle, of a size; and one of a line. -/
def siblings (z : Nat) : State := at_ (2 ^ 20) (State.reset.modDie 0 0 fun x => { x with dir := [(0, { line .s [cA] with size := z }), (regionBytes z, { line .s [cA] with size := z })] })
def single (z : Nat) : State := at_ (2 ^ 20) (State.reset.modDie 0 0 fun x => { x with dir := [(0, { line .s [cA] with size := z })] })
theorem wit_HomeUpkeep :
    (∀ z ∈ [5, 8], let s := siblings z; let e := { line .s [cA] with size := z }; s.dirFind 0 0 0 = (0, e) ∧ e.size = z ∧ 5 ≤ z ∧ z < 9 ∧ 0 / regionBytes z % 2 = 0 ∧ Map.find (s.die 0 0).dir 0 = some e
      ∧ Map.find (s.die 0 0).dir (0 + regionBytes z) = some e ∧ e.same e = true ∧ e.busy = none ∧ e.waiting = [] ∧ e.ind = e.ind ∧ e.lastReq + 2 ^ 20 ≤ s.now ⟨0, 0, 0⟩)
    ∧ (∀ z ∈ [0, 4], let s := single z; let e := { line .s [cA] with size := z }; s.dirFind 0 0 0 = (0, e) ∧ e.size < 5 ∧ Map.has (s.die 0 0).dir 0 = true ∧ e.busy = none ∧ e.waiting = []
      ∧ e.lastReq + 2 ^ 20 ≤ s.now ⟨0, 0, 0⟩)
    ∧ Due (fun s => (s.die 0 0).heatDecayAt + 2 ^ ((s.die 0 0).heatCtl.toNat / 2 ^ 16 % 32) ≤ (s.die 0 0).now) (at_ (2 ^ 24) State.reset) (at_ (2 ^ 24 - 1) State.reset) :=
  ⟨by decide +kernel, by decide +kernel, by decide +kernel, by decide +kernel⟩
/-- A message of a kind for line 0 from its home to core A, and the core as given. -/
abbrev probe (k : MsgKind) : Msg := { kind := k, line := 0, src := .home 0 0, dst := .core cA }
def atCore (m : Msg) (f : CoreSt → CoreSt) : State := { State.reset.modCore cA f with net := [(5, m)], nextId := 9 }
/-- A thread of the core holds a lease on the line, and `n` probes are held. -/
def underLease (m : Msg) (n : Nat) : State :=
  (atCore m fun x => { x with l1 := [(0, .m)], holdQ := List.replicate n m }).setThread ⟨⟨cA, 0⟩, 0⟩ { pc := 0x10000, lease := some { lines := [⟨0, 0, []⟩] } }
abbrev miss (own : Bool) (g : Option Nat) (acks : Nat) : Miss := { line := 0, req := { kind := .getm, line := 0, src := .core cA, dst := .home 0 0 }, own, granted := g, acks, grantSt := .m }
def missing (m : Msg) (y : Miss) : State := atCore m fun x => { x with misses := [y] }
theorem wit_CopyEvents_probes :
    (Spec.arrives (atCore (probe .pack) fun x => { x with evict := [0] }) 5 .pack (probe .pack) ∧ ((atCore (probe .pack) fun x => { x with evict := [0] }).core cA).cacheOps = []
      ∧ ∀ y ∈ ((atCore (probe .pack) fun x => { x with evict := [0] }).core cA).misses, y.granted = none)
    ∧ (∀ k ∈ [MsgKind.inv, .recallS, .recallI], ∀ n ∈ [15, 16], Spec.arrives (underLease (probe k) n) 5 k (probe k) ∧ (∃ l ∈ entryLines (probe k).line (probe k).size, Spec.leased (underLease (probe k) n) cA l)
      ∧ ((underLease (probe k) n).core cA).holdQ.length = n)
    ∧ (∀ k ∈ [MsgKind.inv, .recallS, .recallI], ∀ l1 ∈ [[], [(0, L1St.m)], [(0, .e)], [(0, .s)]], Spec.arrives (atCore (probe k) fun x => { x with l1 }) 5 k (probe k)
      ∧ (∀ l ∈ entryLines (probe k).line (probe k).size, ¬Spec.leased (atCore (probe k) fun x => { x with l1 }) cA l) ∧ ((atCore (probe k) fun x => { x with l1 }).core cA).l1 = l1) := by
  refine ⟨⟨comes_iff (by decide +kernel), by decide +kernel⟩, fun k hk n hn => ?_, fun k hk l1 h1 => ?_⟩
  · have h : ∀ k ∈ [MsgKind.inv, .recallS, .recallI], ∀ n ∈ [15, 16], comes (underLease (probe k) n) 5 k (probe k) ∧ ((underLease (probe k) n).core cA).holdQ.length = n := by decide +kernel
    exact ⟨comes_iff (h k hk n hn).1, ⟨0, .head _, _, .head _, rfl, _, rfl, _, .head _, rfl⟩, (h k hk n hn).2⟩
  · have h : ∀ k ∈ [MsgKind.inv, .recallS, .recallI], ∀ l1 ∈ [[], [(0, L1St.m)], [(0, .e)], [(0, .s)]], comes (atCore (probe k) fun x => { x with l1 }) 5 k (probe k)
      ∧ ((atCore (probe k) fun x => { x with l1 }).core cA).l1 = l1 ∧ ∀ y ∈ (atCore (probe k) fun x => { x with l1 }).threads, y.1.wave.core ≠ cA := by decide +kernel
    exact ⟨comes_iff (h k hk l1 h1).1, fun l _ ⟨y, hy, e, _⟩ => (h k hk l1 h1).2.2 y hy e, (h k hk l1 h1).2.1⟩
/-- A core's L1 has room for line 0, and nothing keeps its requests. -/
abbrev freeCore (s : State) (c : CoreId) : Prop := (Map.has (s.core c).l1 0 = true ∨ (s.core c).l1.length < s.l1Lines c) ∧ (s.core c).redirs = [] ∧ (s.core c).held = []
theorem wit_CopyEvents_grants :
    (∀ y ∈ [miss false none 0, miss false (some 2) 0, miss false (some 1) 0], Spec.arrives (missing (probe .ack) y) 5 .ack (probe .ack) ∧ ((missing (probe .ack) y).core cA).misses = [y] ∧ y.line = 0 ∧ freeCore (missing (probe .ack) y) cA)
    ∧ (∀ y ∈ [miss false none 0, miss true none 0, miss true none 1], ∀ st ∈ [L1St.s, .e, .m], Spec.arrives (missing { probe .grant with ackCnt := 1, grantState := st } y) 5 .grant { probe .grant with ackCnt := 1, grantState := st }
      ∧ ((missing { probe .grant with ackCnt := 1, grantState := st } y).core cA).misses = [y] ∧ freeCore (missing { probe .grant with ackCnt := 1, grantState := st } y) cA)
    ∧ (Spec.arrives (atCore (probe .grant) id) 5 .grant (probe .grant) ∧ ((atCore (probe .grant) id).core cA).misses = [])
    ∧ (Spec.arrives (atCore (probe .done) fun x => { x with sent := [{ msg .stm (.core cA) with line := 0 }] }) 5 .done (probe .done)
      ∧ ((atCore (probe .done) fun x => { x with sent := [{ msg .stm (.core cA) with line := 0 }] }).core cA).sent = [{ msg .stm (.core cA) with line := 0 }]
      ∧ ((atCore (probe .done) fun x => { x with sent := [{ msg .stm (.core cA) with line := 0 }] }).core cA).held = []) := by
  have h1 : ∀ y ∈ [miss false none 0, miss false (some 2) 0, miss false (some 1) 0], comes (missing (probe .ack) y) 5 .ack (probe .ack) ∧ ((missing (probe .ack) y).core cA).misses = [y] ∧ y.line = 0 ∧ freeCore (missing (probe .ack) y) cA := by decide +kernel
  have h2 : ∀ y ∈ [miss false none 0, miss true none 0, miss true none 1], ∀ st ∈ [L1St.s, .e, .m], comes (missing { probe .grant with ackCnt := 1, grantState := st } y) 5 .grant { probe .grant with ackCnt := 1, grantState := st }
      ∧ ((missing { probe .grant with ackCnt := 1, grantState := st } y).core cA).misses = [y] ∧ freeCore (missing { probe .grant with ackCnt := 1, grantState := st } y) cA := by decide +kernel
  exact ⟨fun y h => ⟨comes_iff (h1 y h).1, (h1 y h).2⟩, fun y h st hs => ⟨comes_iff (h2 y h st hs).1, (h2 y h st hs).2⟩, ⟨comes_iff (by decide +kernel), by decide +kernel⟩,
    comes_iff (by decide +kernel), by decide +kernel⟩
abbrev toProxy (k : MsgKind) : Msg := { kind := k, line := 0, src := .home 1 0, dst := .proxy 0, ackTo := some (.core ⟨0, 0, 5⟩) }
def atProxy (k : MsgKind) (f : Package → Package) : State := { State.reset.modPkg 0 f with net := [(5, toProxy k)], nextId := 9 }
def retried : Msg := { kind := .retry, line := 0, src := .core cA, dst := .home 0 0, orig := some .inv }
/-- The cores that a proxy passes an `INV` on to. -/
abbrev proxied (s : State) (m : Msg) : List CoreId :=
  (((entryLines m.line m.size).flatMap fun l => Map.getD (s.pkg 0).proxy l []).eraseDups.flatMap (State.clusterCores 0)).filter fun c => m.ackTo ≠ some (.core c)
theorem wit_CopyEvents_proxies :
    (∀ cl, cl = [] ∨ cl = [0] → Spec.arrives (atProxy .inv fun p => { p with proxy := [(0, cl)] }) 5 .inv (toProxy .inv)
      ∧ ((proxied (atProxy .inv fun p => { p with proxy := [(0, cl)] }) (toProxy .inv)) = [] ↔ cl = []))
    ∧ (∀ k ∈ [0, 1, 2], Spec.arrives (atProxy .ack fun p => { p with proxyWait := [(0, k, .home 1 0)] }) 5 .ack (toProxy .ack)
      ∧ ((atProxy .ack fun p => { p with proxyWait := [(0, k, .home 1 0)] }).pkg 0).proxyWait = [((toProxy .ack).line, k, .home 1 0)])
    ∧ Due (fun s => ∃ m, Spec.arrives s 5 .retry m ∧ m.sentAt + 64 ≤ Spec.clock s m.dst) (at_ 64 { State.reset with net := [(5, retried)] }) State.reset := by
  have h1 : ∀ cl ∈ [[], [0]], comes (atProxy .inv fun p => { p with proxy := [(0, cl)] }) 5 .inv (toProxy .inv) ∧ ((proxied (atProxy .inv fun p => { p with proxy := [(0, cl)] }) (toProxy .inv)) = [] ↔ cl = []) := by decide +kernel
  have h2 : ∀ k ∈ [0, 1, 2], comes (atProxy .ack fun p => { p with proxyWait := [(0, k, .home 1 0)] }) 5 .ack (toProxy .ack)
      ∧ ((atProxy .ack fun p => { p with proxyWait := [(0, k, .home 1 0)] }).pkg 0).proxyWait = [((toProxy .ack).line, k, .home 1 0)] := by decide +kernel
  refine ⟨?_, fun k h => ⟨comes_iff (h2 k h).1, (h2 k h).2⟩, ⟨retried, comes_iff (by decide +kernel), ?_⟩, fun ⟨_, h, _⟩ => nomatch h.1⟩
  · rintro cl (rfl | rfl)
    · exact ⟨comes_iff (h1 _ (by decide)).1, (h1 _ (by decide)).2⟩
    · exact ⟨comes_iff (h1 _ (by decide)).1, (h1 _ (by decide)).2⟩
  · unfold Spec.clock; decide +kernel
abbrev stub : Stub := { key := 0, page := 1, newPkg := 0, newDie := 1, newFrame := 9, invalidated := true }
/-- A request for line 0 of page 1 at its home, die 0, in a state of the home. -/
abbrev req (k : MsgKind) (hop : Nat) : Msg := { kind := k, line := 0, src := .core cA, dst := .home 0 0, hop, page := 1 }
def homeWith (m : Msg) (f : Die → Die) : State := { State.reset.modDie 0 0 f with net := [(5, m)], nextId := 9 }
abbrev kinds : List MsgKind := [.gets, .getm, .gete, .stm, .atm]
theorem wit_MigrationEvents_requests :
    (∀ k ∈ kinds, Spec.arrives (homeWith (req k 0) fun x => { x with frozen := [{ start := 0 }] }) 5 k (req k 0)
      ∧ (homeWith (req k 0) fun x => { x with frozen := [{ start := 0 }] }).frozenAt 0 0 0 = some { start := 0 }
      ∧ ((homeWith (req k 0) fun x => { x with frozen := [{ start := 0 }] }).dirFind 0 0 0).2.busy = none)
    ∧ (∀ k ∈ kinds, ∀ h ∈ [0, 1, 2], Spec.arrives (homeWith (req k h) fun x => { x with stubs := [stub] }) 5 k (req k h)
      ∧ (homeWith (req k h) fun x => { x with stubs := [stub] }).frozenAt 0 0 0 = none ∧ (homeWith (req k h) fun x => { x with stubs := [stub] }).stubFor 0 0 (req k h) = some stub)
    ∧ (∀ k ∈ kinds, let m := { req k 0 with key := 1 }; let s := { lane with net := [(5, m)], nextId := 9 };
      comes s 5 k m ∧ s.frozenAt 0 0 0 = none ∧ s.stubFor 0 0 m = none ∧ s.notHome 0 0 m = true ∧ (s.sliceEntries 0 0 0).length < 32768) := by
  have h1 : ∀ k ∈ kinds, comes (homeWith (req k 0) fun x => { x with frozen := [{ start := 0 }] }) 5 k (req k 0)
      ∧ (homeWith (req k 0) fun x => { x with frozen := [{ start := 0 }] }).frozenAt 0 0 0 = some { start := 0 }
      ∧ ((homeWith (req k 0) fun x => { x with frozen := [{ start := 0 }] }).dirFind 0 0 0).2.busy = none := by decide +kernel
  have h2 : ∀ k ∈ kinds, ∀ h ∈ [0, 1, 2], comes (homeWith (req k h) fun x => { x with stubs := [stub] }) 5 k (req k h)
      ∧ (homeWith (req k h) fun x => { x with stubs := [stub] }).frozenAt 0 0 0 = none ∧ (homeWith (req k h) fun x => { x with stubs := [stub] }).stubFor 0 0 (req k h) = some stub := by decide +kernel
  exact ⟨fun k h => ⟨comes_iff (h1 k h).1, (h1 k h).2⟩, fun k h j hj => ⟨comes_iff (h2 k h j hj).1, (h2 k h j hj).2⟩, by decide +kernel⟩
abbrev relay : Msg := { req .relay 1 with orig := some .gets, line := page, key := 1, root := (0, 0, 1) }
/-- The relayed request at the home of the lane's page. -/
def relayed : State := { lane.modDie 0 0 (fun x => { x with dir := [(page, line .i [])] }) with net := [(5, relay)], nextId := 9 }
abbrev redirect : Msg := { kind := .redirect, line := 0, src := .home 0 1, dst := .core cA, key := 0, page := 1, newPkg := 0, newDie := 1, newFrame := 9 }
/-- A refused request of the lane at its core. -/
abbrev refusal (k : MsgKind) (n : Nat) : Msg := { kind := k, line := page, src := .home 0 0, dst := .core c0, orig := some .gets, key := 1, page := 1, va := 0x10000, root := (0, 0, 1), by_ := some t0, bounces := n, at_ := 0x10000 }
def refused (k : MsgKind) (n : Nat) : State := { lane with net := [(5, refusal k n)], nextId := 9 }
theorem wit_MigrationEvents_late :
    (let s := relayed; Spec.arrives s 5 .relay relay ∧ relay.hop ≠ 0 ∧ relay.phys = false ∧ s.frozenAt 0 0 page = none ∧ s.stubFor 0 0 relay = none ∧ s.notHome 0 0 relay = false
      ∧ s.dirFind 0 0 page = (page, line .i []))
    ∧ (let s := atCore redirect fun x => { x with misses := [{ line := 0, req := req .getm 0, own := true }] }; Spec.arrives s 5 .redirect redirect
      ∧ (s.core cA).misses = [{ line := 0, req := req .getm 0, own := true }] ∧ (req .getm 0).key = redirect.key ∧ (req .getm 0).page = redirect.page
      ∧ (req .getm 0).dst ≠ .home redirect.newPkg redirect.newDie)
    ∧ (∃ r, r ∈ ((State.reset.modCore cA fun x => { x with redirs := [{ key := 0, page := 1 }] }).core cA).redirs ∧ r.key = (req .getm 0).key ∧ r.page = (req .getm 0).page)
    ∧ (∀ k, (k = .retranslate ∨ k = .nothome) → ∃ pte pa, let s1 := ((refused k 2).dropMsg 5).forgetPage c0.pkg 1 1 (some c0);
      Spec.arrives (refused k 2) 5 k (refusal k 2) ∧ s1.walk c0.pkg (refusal k 2).root 0x10000 = .ok pte ∧ s1.physOf c0.pkg pte 0x10000 = some pa)
    ∧ (∀ k, (k = .retranslate ∨ k = .nothome) → Spec.arrives (refused k 3) 5 k (refusal k 3) ∧ isHost t0 = false ∧ (refused k 3).holdsLease t0 = false ∧ ((refused k 3).thread t0).trap = none
      ∧ ((refused k 3).thread t0).exited = false) := by
  refine ⟨⟨comes_iff (by decide +kernel), by decide +kernel⟩, ⟨comes_iff (by decide +kernel), by decide +kernel⟩, ⟨{ key := 0, page := 1 }, by decide +kernel⟩, ?_, ?_⟩
  · have main (k : MsgKind) (h : comes (refused k 2) 5 k (refusal k 2)) (h2 : okE ((((refused k 2).dropMsg 5).forgetPage c0.pkg 1 1 (some c0)).walk c0.pkg (refusal k 2).root 0x10000) (fun pte => isB ((((refused k 2).dropMsg 5).forgetPage c0.pkg 1 1 (some c0)).physOf c0.pkg pte 0x10000) fun _ => true) = true) :
        ∃ pte pa, let s1 := ((refused k 2).dropMsg 5).forgetPage c0.pkg 1 1 (some c0); Spec.arrives (refused k 2) 5 k (refusal k 2) ∧ s1.walk c0.pkg (refusal k 2).root 0x10000 = .ok pte
        ∧ s1.physOf c0.pkg pte 0x10000 = some pa := by
      obtain ⟨pte, e, k⟩ := okE_iff h2
      obtain ⟨pa, e2, _⟩ := isB_iff k
      exact ⟨pte, pa, comes_iff h, e, e2⟩
    rintro k (rfl | rfl) <;> exact main _ (by decide +kernel) (by decide +kernel)
  · rintro k (rfl | rfl) <;> exact ⟨comes_iff (by decide +kernel), by decide +kernel⟩
abbrev moveTo : Migration := { ctx := 1, va := 0x10000, large := false, oldPkg := 0, oldDie := 0, oldFrame := 5, newPkg := 0, newDie := 1, newFrame := 9, started := 0 }
def migrating (g : Migration) (f : Die → Die) : State := { lane.modDie 0 0 f with migrations := [(3, g)], nextId := 9 }
abbrev opened : Msg := { kind := .opened, src := .home 0 1, dst := .home 0 0, key := 1, page := 1 }
theorem wit_MigrationEvents_moves :
    (∃ q, let s := lane; let a := physAt 0 0 (4 * 65536 + 16); let pte := State.pteOf (leNat (memBytes s.mem a 16)) false;
      s.leafAt (s.ctxPkg 1) 1 0x10000 = some (a, false) ∧ s.route (s.ctxPkg 1) pte.hpkg = some q ∧ pte.mov = false ∧ (s.pkg q).phase = .none ∧ 9 ∉ (s.die 0 1).retiredFrames
      ∧ (s.die q pte.hdie).stubs.length < 1024)
    ∧ ((migrating moveTo id).mig 3 = some moveTo ∧ (migrating moveTo id).pageEntries 0 0 ((migrating moveTo id).oldPlace moveTo) (pageBytes false) = [])
    ∧ (∃ y ∈ (migrating moveTo fun x => { x with dir := [(page, line .s [cA])] }).pageEntries 0 0 ((migrating moveTo fun x => { x with dir := [(page, line .s [cA])] }).oldPlace moveTo) (pageBytes false),
      y.2.busy.isSome = true ∨ y.2.st ≠ .i)
    ∧ (let g := { moveTo with copied := true }; let s := migrating g id; let a := physAt 0 0 (4 * 65536 + 16); let pte := State.pteOf (leNat (memBytes s.mem a 16)) false;
      s.mig 3 = some g ∧ s.now ⟨0, 0, 0⟩ < g.started + 320000 ∧ s.leafAt 0 1 0x10000 = some (a, false) ∧ (a + 16 ≤ State.placeIn pte (0, 1, 9) 0 ∨ State.placeIn pte (0, 1, 9) 0 + pageBytes false ≤ a))
    ∧ (let g := { moveTo with copied := true, flipped := true }; let s := { migrating g (fun x => { x with frozen := [{ start := page, held := [req .gets 0] }] }) with net := [(5, opened)] };
      s.migrations = [(3, g)] ∧ Spec.arrives s 5 .opened opened ∧ pageOf g.va = 1)
    ∧ (let s := at_ 320000 (migrating moveTo id); s.migrations = [(3, moveTo)] ∧ moveTo.started + 320000 ≤ s.now ⟨0, 0, 0⟩ ∧ (s.leafAt 0 1 0x10000).isSome = true)
    ∧ (let s := at_ 319999 (migrating moveTo id); s.migrations = [(3, moveTo)] ∧ s.now ⟨0, 0, 0⟩ < moveTo.started + 320000) :=
  ⟨⟨0, by decide +kernel⟩, by decide +kernel, by decide +kernel, by decide +kernel, ⟨rfl, comes_iff (by decide +kernel), by decide +kernel⟩, ⟨rfl, by decide +kernel⟩, rfl, by decide +kernel⟩
/-- The lane’s memory keeps its form: its cells rise strictly and none is 0. -/
theorem migrating_memOk : (migrating { moveTo with copied := true } id).MemOk := by decide +kernel
abbrev homeMsg (k : MsgKind) : Msg := { kind := k, src := .home 0 1, dst := .home 0 0, page := 1 }
theorem wit_MigrationEvents_stubs :
    Spec.arrives (homeWith (homeMsg .openReq) fun x => { x with stubs := [stub] }) 5 .openReq (homeMsg .openReq)
    ∧ Due (fun s => ∃ x, x ∈ (s.die 0 0).stubs ∧ x.page = 1 ∧ x.invalidated = true ∧ x.retiring = false ∧ x.lastRelay + 65536 ≤ s.now ⟨0, 0, 0⟩)
      (at_ 65536 (homeWith (homeMsg .confirm) fun x => { x with stubs := [stub] })) State.reset
    ∧ Spec.arrives (homeWith (homeMsg .retire) id) 5 .retire (homeMsg .retire) ∧ ¬((∃ y ∈ (homeWith (homeMsg .retire) id).net, y.1 < 5 ∧ y.2.kind = .relay ∧ y.2.dst = .home 0 0)
      ∨ (homeWith (homeMsg .retire) id).relaysWaiting 0 0 (homeMsg .retire) = true)
    ∧ (let s := { homeWith (homeMsg .retire) id with net := [(3, relay), (5, homeMsg .retire)] }; Spec.arrives s 5 .retire (homeMsg .retire) ∧ ∃ y ∈ s.net, y.1 < 5 ∧ y.2.kind = .relay ∧ y.2.dst = .home 0 0)
    ∧ Spec.arrives (homeWith (homeMsg .confirm) fun x => { x with stubs := [{ stub with retiring := true }] }) 5 .confirm (homeMsg .confirm) :=
  ⟨comes_iff (by decide +kernel), ⟨⟨stub, by decide +kernel⟩, fun ⟨_, h, _⟩ => nomatch h⟩, comes_iff (by decide +kernel), by decide +kernel, ⟨comes_iff (by decide +kernel), by decide +kernel⟩, comes_iff (by decide +kernel)⟩
def portOf (x : Port) : State := State.reset.modPkg 0 fun p => { p with ports := [(2, x)] }
/-- Flits: a data flit in order, one out of order, one with a wrong CRC, an idle flit, a NACK, and those with wrong CRCs. -/
def bad (f : List Byte) : List Byte := f.take 255 ++ [255 - f.getD 255 0]
def flits : List (List Byte × Nat × Bool) :=
  [(flitOf 1 0 4095 [0, 0, 0] [7], 1, true), (flitOf 1 9 4095 [0, 0, 0] [7], 1, true), (bad (flitOf 1 0 4095 [0, 0, 0] [7]), 1, false), (flitOf 0 0 3 [1, 2, 3] [], 0, true), (bad (flitOf 0 0 3 [1, 2, 3] []), 0, false),
   (flitOf 2 0 3 [1, 2, 3] [], 2, true), (bad (flitOf 2 0 3 [1, 2, 3] []), 2, false)]
theorem wit_LinkEvents_flits :
    (∀ y ∈ flits, flitType y.1 = y.2.1 ∧ flitOk y.1 = y.2.2) ∧ field (flitOf 1 0 4095 [0, 0, 0] [7]) 2 2 % 4096 = (4095 + 1) % 4096 ∧ field (flitOf 1 9 4095 [0, 0, 0] [7]) 2 2 % 4096 ≠ (4095 + 1) % 4096
    ∧ (∀ f : List Byte, ((portOf { rx := [f], unacked := [(3, 0, []), (4, 0, [])] }).port 0 2).rx = [f] ∧ ((portOf { rx := [f], unacked := [(3, 0, []), (4, 0, [])] }).port 0 2).up = true
      ∧ ((portOf { rx := [f], unacked := [(3, 0, []), (4, 0, [])] }).port 0 2).waiting = [])
    ∧ Due (fun s => (s.port 0 2).up = true ∧ (s.port 0 2).lastTx + 234 ≤ s.hubNow 0) (hubAt 234 (portOf {})) (hubAt 233 (portOf {}))
    ∧ Due (fun s => (s.port 0 2).up = true ∧ (s.port 0 2).nacking = true ∧ (s.port 0 2).lastNack + 234 ≤ s.hubNow 0) (hubAt 234 (portOf { nacking := true })) (hubAt 234 (portOf {}))
    ∧ Due (fun s => (s.port 0 2).up = true ∧ 16 ≤ (s.port 0 2).nacks) (portOf { nacks := 16 }) (portOf { nacks := 15 }) :=
  ⟨by decide +kernel, by decide +kernel, by decide +kernel, fun f => ⟨rfl, rfl, rfl⟩, ⟨by decide +kernel, by decide +kernel⟩, ⟨by decide +kernel, by decide +kernel⟩, ⟨by decide +kernel, by decide +kernel⟩⟩
/-- A package with an identity that receives a packet, its stream as given. -/
def receives (x : Packet) (e : Nat) (r : Machine.Stream) : State := { State.reset.modPkg 0 (fun p => { p with pid := some 1, epoch := e, recv := [((1, 0), r)], send := [((1, 0), { unacked := [pkt 0 3] })] }) with packets := [(4, x)], nextId := 9 }
where pkt (src n : Nat) : Packet := { src, dst := 1 - src, cls := 0, eseq := n, epoch := 0, pid := 1 }
abbrev pkt (n : Nat) : Packet := { src := 1, dst := 0, cls := 0, eseq := n, epoch := 0, pid := 1 }
theorem wit_LinkEvents_packets :
    (Map.find (receives { pkt 0 with pid := 2 } 0 {}).packets 4 = some { pkt 0 with pid := 2 } ∧ ((receives { pkt 0 with pid := 2 } 0 {}).pkg 0).pid ≠ some 2)
    ∧ (∀ n ∈ [5, 6, 260, 261, 5 + 2 ^ 31 - 1, 4, 5 + 2 ^ 31], ∀ b ∈ [false, true], let r : Machine.Stream := { expect := 5, frozen := b };
      Map.find (receives (pkt n) 0 r).packets 4 = some (pkt n) ∧ ((receives (pkt n) 0 r).pkg 0).pid = some (pkt n).pid ∧ ((receives (pkt n) 0 r).pkg 0).alive = true ∧ ((receives (pkt n) 0 r).port 0 (pkt n).plane).up = true ∧ (pkt n).isAck = false
      ∧ Map.getD ((receives (pkt n) 0 r).pkg 0).recv (1, 0) {} = r ∧ ((receives (pkt n) 0 r).pkg 0).epoch ≤ (pkt n).epoch)
    ∧ (State.ahead 6 5 = 1 ∧ State.ahead 260 5 = 255 ∧ State.ahead 261 5 = 256 ∧ State.ahead (5 + 2 ^ 31 - 1) 5 = 2 ^ 31 - 1 ∧ State.ahead 4 5 = 2 ^ 32 - 1 ∧ State.ahead (5 + 2 ^ 31) 5 = 2 ^ 31)
    ∧ (pkt 5).epoch < ((receives (pkt 5) 1 {}).pkg 0).epoch
    ∧ (let x := { pkt 3 with isAck := true }; Map.find (receives x 0 {}).packets 4 = some x ∧ ((receives x 0 {}).pkg 0).pid = some x.pid ∧ ((receives x 0 {}).pkg 0).alive = true ∧ ((receives x 0 {}).port 0 x.plane).up = true
      ∧ (Map.find ((receives x 0 {}).pkg 0).send (1, 0)).isSome = true)
    ∧ (∃ x s k, s = hubAt 1024 (receives (pkt 0) 0 {}) ∧ Map.getD (s.pkg 0).send (1, 0) {} = { (Map.getD (s.pkg 0).send (1, 0) {} : SendStream) with unacked := [x] } ∧ x.eseq = 3 ∧ x.src = 0
      ∧ x.sentAt + 1024 ≤ s.hubNow 0 ∧ x.resends < 3 ∧ s.choosePort 0 0 x.plane = some k ∧ (s.pkg 0).pid = some 1) := by
  refine ⟨by decide +kernel, by decide +kernel, by decide +kernel, by decide +kernel, by decide +kernel, ?_⟩
  obtain ⟨k, h, _⟩ := isB_iff (R := (hubAt 1024 (receives (pkt 0) 0 {})).choosePort 0 0 0) (p := fun _ => true) (by decide +kernel)
  exact ⟨receives.pkt 0 3, _, k, rfl, by decide +kernel, rfl, rfl, by decide +kernel, by decide, h, by decide +kernel⟩
/-- A command in the mailbox of a package whose authority hash is that of the command's key. -/
def signed (bs : List Byte) (f : Package → Package) : State :=
  State.reset.modPkg 0 fun p => f { p with mailbox := [bs], authHash := some (Config.sha512 ((bs.drop 0x120).take 32)), bnonce := BitVec.ofNat 64 (field bs 0x10 8) }
abbrev command (op len : Nat) (fs : List (Nat × Nat × Nat)) : List Byte := fields 0x180 ([(0x18, 2, op), (0x1A, 2, len)] ++ fs)
/-- A command of each operation, and one of none. -/
def commands : List (Nat × List Byte) :=
  [(1, command 1 8 [(0x22, 2, 4095), (0x26, 2, 4096)]), (2, command 2 8 [(0x20, 2, 4095), (0x22, 2, 1)]), (3, command 3 10 [(0x20, 2, 15)]), (4, command 4 0 []), (0, command 0 0 [])]
theorem wit_SystemEvents_commands :
    ∀ y ∈ commands, ((State.reset.modPkg 0 fun p => { p with mailbox := [y.2] }).pkg 0).mailbox = [y.2] ∧ cmdOp y.2 = y.1 ∧ (cmdFormed ((signed y.2 id).pkg 0) y.2 = true ↔ y.1 ≠ 0)
      ∧ ((Spec.cmdChecks 0 ((State.reset.modPkg 0 fun p => { p with mailbox := [y.2] }).pkg 0) y.2).find? (·.1)).elim 0 (·.2) = 1 := by
  decide +kernel
theorem leNat_lt : ∀ bs : List Byte, leNat bs < 256 ^ bs.length
  | [] => by simp [leNat]
  | b :: bs => by
    have := leNat_lt bs
    have := b.isLt
    simp only [leNat, List.length_cons, Nat.pow_succ]
    omega
theorem checks_pass (k : Package) (bs : List Byte) (h1 : k.authHash = some (Config.sha512 ((bs.drop 0x120).take 32)))
    (h2 : Config.ed25519Verify ((bs.drop 0x120).take 32) (bs.take 0x140) ((bs.drop 0x140).take 64) = true) (h3 : field bs 8 8 = (Config.pkgSerial 0).toNat)
    (h4 : field bs 0x10 8 = k.bnonce.toNat) (h5 : k.lastSeq = none) (h6 : cmdFormed k bs = true) : ((Spec.cmdChecks 0 k bs).find? (·.1)).elim 0 (·.2) = 0 := by
  simp [Spec.cmdChecks, h1, h2, h3, h4, h5, h6]
/-- Where the signature of a command holds and it names the package's serial number, every check passes: whether a signature holds is a free constant of the model
(log entry 20), so this is the witness for a command that is applied. -/
theorem wit_SystemEvents_accepted (y : Nat × List Byte) (hy : y ∈ commands) (h0 : y.1 ≠ 0)
    (h : Config.ed25519Verify ((y.2.drop 0x120).take 32) (y.2.take 0x140) ((y.2.drop 0x140).take 64) = true) (hp : field y.2 8 8 = (Config.pkgSerial 0).toNat) :
    ((signed y.2 id).pkg 0).mailbox = [y.2] ∧ ((Spec.cmdChecks 0 ((signed y.2 id).pkg 0) y.2).find? (·.1)).elim 0 (·.2) = 0 := by
  have hb : field y.2 0x10 8 = (BitVec.ofNat 64 (field y.2 0x10 8)).toNat := by
    have h1 := leNat_lt ((y.2.drop 0x10).take 8)
    have h2 : ((y.2.drop 0x10).take 8).length ≤ 8 := List.length_take_le ..
    exact (Nat.mod_eq_of_lt (Nat.lt_of_lt_of_le h1 (Nat.le_trans (Nat.pow_le_pow_right (by decide) h2) (by decide)))).symm
  exact ⟨rfl, checks_pass _ _ rfl h hp hb rfl ((wit_SystemEvents_commands y hy).2.2.1.2 h0)⟩
theorem wit_SystemEvents_firmware :
    Due (fun s => 3 ≤ 3 ∧ 3 ≤ 7 ∧ ∃ c < 16, State.priv (s.host ⟨0, 8, c⟩) = 2) State.reset ((List.range 16).foldl (fun s j => s.modHost ⟨0, 8, j⟩ fun h => { h with hstat := 0 }) State.reset)
    ∧ (∃ q ∈ (pair lane).partition 0, q ≠ 0)
    ∧ Due (fun s => (s.pkg 0).watchdog + 2 ^ 24 ≤ s.hubNow 0) (hubAt (2 ^ 24) State.reset) (hubAt (2 ^ 24 - 1) State.reset)
    ∧ Due (fun s => s.vaLeased 0 (s.ctxRoot (s.pkg 0).bar2Key) 0x10080 8 = false) (lane.modPkg 0 fun p => { p with bar2Key := 1 }) (leased.modPkg 0 fun p => { p with bar2Key := 1 })
    ∧ (let s := host.modPkg 0 fun p => { p with mirror := some { peer := 1, role := 2, mbase := 0, mlen := 64, sbase := 0x10000 }, mirrorQ := [(0, [1], ⟨1, 8, 0⟩)] };
      (s.pkg 0).mirrorQ = [(0, [1], ⟨1, 8, 0⟩)] ∧ s.vaLeased 0 (s.rootOf (hostThread ⟨0, 8, 0⟩)) 0x10000 1 = false
      ∧ okE (s.vaWrite 0 (s.rootOf (hostThread ⟨0, 8, 0⟩)) none 0x10000 [1]) (fun _ => true) = true)
    ∧ Due (fun s => 7 < 8 ∧ 25 < (s.die 0 7).mhz) State.reset (State.reset.modDie 0 7 fun x => { x with mhz := 25 }) := by
  refine ⟨⟨by decide +kernel, by decide +kernel⟩, by decide +kernel, ⟨by decide +kernel, by decide +kernel⟩, ⟨by decide +kernel, by decide +kernel⟩, by decide +kernel, ⟨by decide +kernel, by decide +kernel⟩⟩
def testing (u : EccUnit) (n : Nat) : State :=
  State.reset.modPkg 0 fun p => { p with tests := [(u, 3)], errorLog := List.replicate n (u, 3, 0) }
def units : List EccUnit := [.coreStore c0, .l1 c0, .l2 0 1 2, .directory 0 1 2, .hbm 0 1 2, .link 0 2, .subArray c0 15]
theorem wit_SoftErrors :
    (∀ u ∈ units, (u, 3) ∈ ((testing u 2).pkg (State.eccPlace u).1).tests ∧ (u, 4) ∉ ((testing u 2).pkg (State.eccPlace u).1).tests
      ∧ ∀ n ∈ [2, 3], (((testing u n).pkg (State.eccPlace u).1).errorLog.filter fun y => y.1 = u && y.2.1 = 3
        && decide (((testing u n).die (State.eccPlace u).1 (State.eccPlace u).2).now < y.2.2 + 2 ^ 34)).length = n)
    ∧ (testing (.coreStore c0) 3).residents c0 = []
    ∧ (Map.find (withTob.team 1).handles 0 = some { len := 1, ring := true } ∧ Map.find (withTob.team 1).handles 1 = none)
    ∧ Due (fun s => 0 < (s.die 0 0).scrub ∧ (s.die 0 0).scrubQuietSince + 2 ^ 32 ≤ (s.die 0 0).now) (at_ (2 ^ 32) (State.reset.modDie 0 0 fun x => { x with scrub := 1 })) (at_ (2 ^ 32) State.reset) :=
  ⟨by decide +kernel, by decide +kernel, by decide +kernel, by decide +kernel, by decide +kernel⟩
theorem wit_DecodeEncode : Instr.nop.wf = true ∧ Instr.nop.encode.length = 1
    ∧ (Instr.iadd no .i32 false (.v 255) (r 255) ⟨.lit 0xFFFFFFFF, false⟩).wf = true ∧ (Instr.iadd no .i32 false (.v 255) (r 255) ⟨.lit 0xFFFFFFFF, false⟩).encode.length = 2
    ∧ (Instr.bra ⟨⟨true, 6⟩, none, 0⟩ (-2 ^ 26)).wf = true ∧ (Instr.bra no (2 ^ 26)).wf = false := by decide +kernel
theorem wit_DecodeExact : decode 0x000E000000000000 none = .ok .nop
    ∧ decode 0x002E0201D4000000 (some 0xC0000000FFFFFFFF) = .ok (.iadd no .i32 false (.v 2) (r 3) ⟨.lit 0xFFFFFFFF, false⟩) := by decide +kernel
theorem lane_idle : firstEnabled lane lane.events = none := by decide +kernel
def goodB : Option Decoded → Bool | some (.ok _) => true | _ => false
def badB : Option Decoded → Bool | some (.bad _ _) => true | _ => false
theorem goodB_iff {x : Option Decoded} (h : goodB x = true) : ∃ i, x = some (.ok i) := by
  obtain _ | i | k := x
  · cases h
  · exact ⟨i, rfl⟩
  · cases h
theorem badB_iff {x : Option Decoded} (h : badB x = true) : ∃ k n, x = some (.bad k n) := by
  obtain _ | i | ⟨k, n⟩ := x
  · cases h
  · cases h
  · exact ⟨k, n, rfl⟩
theorem pair_of {α β : Type} {R : α × β} {b : β} (h : R.2 = b) : ∃ a, R = (a, b) := ⟨R.1, Prod.ext rfl h⟩
theorem wit_StepRunsDecoded_words :
    (∃ c, lane.agenda = [] ∧ lane.nextCore = some c)
    ∧ (∃ s1 i n, ((lane.modThread t0 id).formGroup c0).fetchInstr = (s1, some (.bad i n)))
    ∧ (∃ s1 i, ((State.reset.placeLane (leBytes 0x000E000000000000 8)).formGroup c0).fetchInstr = (s1, some (.ok i)))
    ∧ (∃ s1, ((lane.modThread t0 fun th => { th with pc := 0 }).formGroup c0).fetchInstr = (s1, none)) := by
  refine ⟨⟨c0, by decide +kernel, by decide +kernel⟩, ?_, ?_, ?_⟩
  · obtain ⟨k, n, h⟩ := badB_iff (x := ((lane.modThread t0 id).formGroup c0).fetchInstr.2) (by decide +kernel)
    obtain ⟨s1, h⟩ := pair_of h
    exact ⟨s1, k, n, h⟩
  · obtain ⟨i, h⟩ := goodB_iff (x := ((State.reset.placeLane (leBytes 0x000E000000000000 8)).formGroup c0).fetchInstr.2) (by decide +kernel)
    obtain ⟨s1, h⟩ := pair_of h
    exact ⟨s1, i, h⟩
  · exact pair_of (Option.isNone_iff_eq_none.1 (by decide +kernel))
theorem wit_StepRunsDecoded_agents :
    (∃ t, ({ lane with mcheck := true } : State).agenda = [] ∧ firstEnabled { lane with mcheck := true } ({ lane with mcheck := true } : State).events = some t)
    ∧ (let s := (List.range 16).foldl (fun (s : State) j => s.modThread (hostThread ⟨0, 8, j⟩) fun th => { th with status := .blocked .hostWait }) State.reset;
      s.agenda = [] ∧ firstEnabled s s.events = none ∧ s.nextCore = none)
    ∧ (({ lane with agenda := [.machineCheck] } : State).agenda = .machineCheck :: []) := by
  refine ⟨?_, by decide +kernel, rfl⟩
  obtain ⟨t, h, _⟩ := isB_iff (R := firstEnabled { lane with mcheck := true } ({ lane with mcheck := true } : State).events) (p := fun _ => true) (by decide +kernel)
  exact ⟨t, by decide +kernel, h⟩
theorem wit_StepRunsDecoded_fetch : ∀ w ∈ [0x000E000000000000, 0x002E0201D4000000], ∃ s s1 s2 pa pa' pte pte', s = State.reset.placeLane (leBytes w 8 ++ leBytes 0xC0000000FFFFFFFF 8)
    ∧ s.group = [t0] ∧ (s.thread t0).pc = 0x10000 ∧ s.walkHeld t0 0x10000 = none ∧ s.globalAddr t0 .fetch 0x10000 = (s1, .ok (pa, pte)) ∧ s1.leasedByOther t0 (lineOf pa) = false ∧ lineOf pa ∉ s1.poison
    ∧ wantsLiteral (BitVec.ofNat 64 (leNat (memBytes s1.mem pa 8))) = decide (w = 0x002E0201D4000000) ∧ s1.group = [t0]
    ∧ s1.globalAddr t0 .fetch 0x10008 = (s2, .ok (pa', pte')) ∧ s2.leasedByOther t0 (lineOf pa') = false ∧ lineOf pa' ∉ s2.poison := by
  intro w hw
  have main (s : State) (h1 : s.group = [t0]) (h2 : (s.thread t0).pc = 0x10000) (h3 : s.walkHeld t0 0x10000 = none)
      (h : okB (s.globalAddr t0 .fetch 0x10000) (fun s1 x => !s1.leasedByOther t0 (lineOf x.1) && decide (lineOf x.1 ∉ s1.poison)
        && decide (wantsLiteral (BitVec.ofNat 64 (leNat (memBytes s1.mem x.1 8))) = decide (w = 0x002E0201D4000000)) && decide (s1.group = [t0])
        && okB (s1.globalAddr t0 .fetch 0x10008) fun s2 y => !s2.leasedByOther t0 (lineOf y.1) && decide (lineOf y.1 ∉ s2.poison)) = true) :
      ∃ s1 s2 pa pa' pte pte', s.group = [t0] ∧ (s.thread t0).pc = 0x10000 ∧ s.walkHeld t0 0x10000 = none ∧ s.globalAddr t0 .fetch 0x10000 = (s1, .ok (pa, pte)) ∧ s1.leasedByOther t0 (lineOf pa) = false
        ∧ lineOf pa ∉ s1.poison ∧ wantsLiteral (BitVec.ofNat 64 (leNat (memBytes s1.mem pa 8))) = decide (w = 0x002E0201D4000000) ∧ s1.group = [t0]
        ∧ s1.globalAddr t0 .fetch 0x10008 = (s2, .ok (pa', pte')) ∧ s2.leasedByOther t0 (lineOf pa') = false ∧ lineOf pa' ∉ s2.poison := by
    obtain ⟨s1, x, e, k⟩ := okB_iff h
    simp only [Bool.and_eq_true, Bool.not_eq_true', decide_eq_true_eq] at k
    obtain ⟨s2, y, e2, k2⟩ := okB_iff k.2
    simp only [Bool.and_eq_true, Bool.not_eq_true', decide_eq_true_eq] at k2
    exact ⟨s1, s2, x.1, y.1, x.2, y.2, h1, h2, h3, e, k.1.1.1.1, k.1.1.1.2, k.1.1.2, k.1.2, e2, k2.1, k2.2⟩
  simp only [List.mem_cons, List.not_mem_nil, or_false] at hw
  obtain rfl | rfl := hw
  · obtain ⟨s1, s2, pa, pa', pte, pte', h⟩ := main (State.reset.placeLane (leBytes 0x000E000000000000 8 ++ leBytes 0xC0000000FFFFFFFF 8)) (by decide +kernel) (by decide +kernel) (by decide +kernel) (by decide +kernel)
    exact ⟨_, s1, s2, pa, pa', pte, pte', rfl, h⟩
  · obtain ⟨s1, s2, pa, pa', pte, pte', h⟩ := main (State.reset.placeLane (leBytes 0x002E0201D4000000 8 ++ leBytes 0xC0000000FFFFFFFF 8)) (by decide +kernel) (by decide +kernel) (by decide +kernel) (by decide +kernel)
    exact ⟨_, s1, s2, pa, pa', pte, pte', rfl, h⟩
theorem wit_StepKeepsMemory : lane.MemOk ∧ lane.mem ≠ [] ∧ ∃ t, step lane = .next t := by
  refine ⟨by decide +kernel, by decide +kernel, ?_⟩
  have h : (match step lane with | .next _ => true | _ => false) = true := by decide +kernel
  generalize step lane = R at h ⊢
  cases R with
  | next t => exact ⟨t, rfl⟩
  | fault e => cases h
  | refused e => cases h
theorem wit_MemoryReadsBack : Memory.wf (memStore [] (2 ^ 51 - 2) [1, 2, 0, 4]) = true ∧ ∀ a, memRead (memStore [] 0 [0]) a = memRead [] a := ⟨by decide +kernel, fun _ => rfl⟩
-- the memory model: the verdicts of Tables 10.4 to 10.11 (R250), over histories as the tables place them

/-- An agent's place: package, die, core; a tray holds eight packages. -/
abbrev at_place (pkg die : Nat) (core : Nat := 0) : Machine.Place := { part := 0, tray := pkg / 8, pkg, die, core }
/-- A store of thread `u`; its number is its place in the coherence order. -/
abbrev wr (id u : Nat) (p : Machine.Place) (l : Nat) (scp : Option Scope := none) (ord : Ord := .rlx) : Ev :=
  { id, co := id, who := .thread u 0 0, place := p, kind := .store, ord, scp, base := .mem l, len := 1 }
/-- A load of thread `u` that returned the byte of a store, or the initial one. -/
abbrev rd (id u : Nat) (p : Machine.Place) (l : Nat) (src : Option Nat) (scp : Option Scope := none) (ord : Ord := .rlx) : Ev :=
  { id, who := .thread u 0 0, place := p, kind := .load, ord, scp, base := .mem l, len := 1, rf := [src] }
abbrev fenceEv (id u : Nat) (p : Machine.Place) (scp : Scope) (ord : Ord) : Ev := { id, who := .thread u 0 0, place := p, kind := .fence, ord, scp := some scp }
abbrev pfenEv (id u : Nat) (p : Machine.Place) (a b : Path) : Ev := { id, who := .thread u 0 0, place := p, kind := .pfen a b, unified := false }
open Sys2Proof.Machine.Order (consistent)
/-- Table 10.4: message passing at two scopes, and its outcome 1, 0. -/
def passing (x y : Scope) : List Ev :=
  [wr 1 0 (at_place 0 0) 0, wr 2 0 (at_place 0 0) 1 (some x) .rel, rd 3 1 (at_place 9 0) 1 (some 2) (some y) .acq, rd 4 1 (at_place 9 0) 0 none]
theorem test_message_passing : consistent (passing .rack .rack) = false ∧ consistent (passing .tray .tray) = true ∧ consistent (passing .rack .tray) = true := by decide +kernel
theorem test_message_passing_fence :
    consistent [wr 1 0 (at_place 0 0) 0, wr 2 0 (at_place 0 0) 1 (some .rack), rd 3 1 (at_place 9 0) 1 (some 2) (some .rack), rd 4 1 (at_place 9 0) 0 none] = true
    ∧ consistent [wr 1 0 (at_place 0 0) 0, wr 2 0 (at_place 0 0) 1 (some .rack) .rel, rd 3 1 (at_place 9 0) 1 (some 2) (some .rack), fenceEv 4 1 (at_place 9 0) .rack .acq,
        rd 5 1 (at_place 9 0) 0 none] = false := by decide +kernel
/-- Table 10.5: store buffering, both loads 0. -/
def buffering (f : Option Scope) (p q : Machine.Place) : List Ev :=
  [wr 1 0 p 0 (some .rack)] ++ (f.map (fenceEv 2 0 p · .acqrel)).toList ++ [rd 3 0 p 1 none (some .rack), wr 4 1 q 1 (some .rack)] ++ (f.map (fenceEv 5 1 q · .acqrel)).toList
    ++ [rd 6 1 q 0 none (some .rack)]
theorem test_store_buffering : consistent (buffering none (at_place 0 0) (at_place 1 0)) = true ∧ consistent (buffering (some .rack) (at_place 0 0) (at_place 1 0)) = false := by decide +kernel
theorem test_store_buffering_pkg :
    consistent (buffering (some .pkg) (at_place 0 0) (at_place 1 0)) = true ∧ consistent (buffering (some .pkg) (at_place 0 0) (at_place 0 1)) = false := by decide +kernel
/-- Table 10.6: two readers that see two writes in opposite orders. -/
def readers (x : Scope) (a b c d : Machine.Place) : List Ev :=
  [wr 1 0 a 0 (some x), wr 2 1 b 1 (some x), rd 3 2 c 0 (some 1) (some x) .acq, rd 4 2 c 1 none (some x), rd 5 3 d 1 (some 2) (some x) .acq, rd 6 3 d 0 none (some x)]
theorem test_independent_reads_rack : consistent (readers .rack (at_place 0 0) (at_place 8 0) (at_place 16 0) (at_place 24 0)) = false
    ∧ consistent (readers .tray (at_place 0 0) (at_place 1 0) (at_place 2 0) (at_place 3 0)) = false := by decide +kernel
theorem test_independent_reads_pkg : consistent (readers .pkg (at_place 0 0) (at_place 0 1) (at_place 0 2) (at_place 0 3)) = false
    ∧ consistent (readers .pkg (at_place 0 0) (at_place 1 0) (at_place 0 1) (at_place 1 1)) = true := by decide +kernel
theorem test_independent_reads_die : consistent (readers .die (at_place 0 0 0) (at_place 0 0 1) (at_place 0 0 2) (at_place 0 0 3)) = false
    ∧ consistent (readers .die (at_place 0 0 0) (at_place 0 0 1) (at_place 0 1 2) (at_place 0 1 3)) = true := by decide +kernel
/-- Table 10.7: message passing whose last load is on the path KC; the fence stands nowhere, at the reader or at the writer. -/
def crossing (u : Bool) (pf : Option Bool) : List Ev :=
  [wr 1 0 (at_place 0 0) 0] ++ (if pf = some false then [pfenEv 2 0 (at_place 0 0) .ls .kc] else []) ++ [{ wr 3 0 (at_place 0 0) 1 (some .pkg) .rel with unified := u }]
    ++ [{ rd 4 1 (at_place 0 5) 1 (some 3) (some .pkg) .acq with unified := u }] ++ (if pf = some true then [pfenEv 5 1 (at_place 0 5) .ls .kc] else [])
    ++ [{ rd 6 1 (at_place 0 5) 0 none with path := .kc, unified := u }]
theorem test_across_paths : consistent (crossing true none) = false ∧ consistent (crossing false none) = true := by decide +kernel
theorem test_across_paths_pfen : consistent (crossing false (some true)) = false ∧ consistent (crossing false (some false)) = true := by decide +kernel
/-- Table 10.8: message passing through a copy engine, its token read or not, in unified mode or not, with the fence or not. -/
def copied (u tok pf : Bool) : List Ev :=
  [{ wr 1 0 (at_place 0 0) 9 with kind := .start 7 }, { wr 2 0 (at_place 0 0) 0 with who := .engine 7, path := .cp }] ++ (if tok then [{ wr 3 0 (at_place 0 0) 9 with kind := .token 7 }] else [])
    ++ [wr 4 0 (at_place 0 0) 1 (some .pkg) .rel, { rd 5 1 (at_place 0 2) 1 (some 4) (some .pkg) .acq with unified := u }] ++ (if pf then [pfenEv 6 1 (at_place 0 2) .cp .ls] else [])
    ++ [{ rd 7 1 (at_place 0 2) 0 none with unified := u }]
theorem test_through_a_copy : consistent (copied true true false) = false ∧ consistent (copied true false false) = true := by decide +kernel
theorem test_through_a_copy_pfen : consistent (copied false true false) = true ∧ consistent (copied false true true) = false := by decide +kernel
/-- Table 10.9: release through a completion signal that the hub of package 0 writes, at two scopes, to a thread of a package; the write is a copy's or not. -/
def signalled (x y : Scope) (pkg : Nat) (cp : Bool) : List Ev :=
  (if cp then [{ wr 1 0 (at_place 3 0) 9 with kind := .start 7, grid := 5 }, { wr 2 0 (at_place 3 0) 0 with who := .engine 7, path := .cp, grid := 5 }] else [{ wr 2 0 (at_place 3 0) 0 with grid := 5 }])
    ++ [{ wr 3 0 { at_place 0 8 with hub := true } 1 (some x) .rel with who := .hub 0, sig := [5] }, rd 4 1 (at_place pkg 1) 1 (some 3) (some y) .acq, rd 5 1 (at_place pkg 1) 0 none]
theorem test_completion_signal : consistent (signalled .pkg .pkg 0 false) = false ∧ consistent (signalled .pkg .pkg 3 false) = true := by decide +kernel
theorem test_completion_signal_rack : consistent (signalled .rack .rack 40 false) = false ∧ consistent (signalled .pkg .pkg 0 true) = false := by decide +kernel
/-- Table 10.10: two stores and two loads of one byte. -/
def twice (a b : Option Nat) : List Ev := [wr 1 0 (at_place 0 0) 0, wr 2 0 (at_place 0 0) 0, rd 3 1 (at_place 0 1) 0 a, rd 4 1 (at_place 0 1) 0 b]
theorem test_coherence : consistent (twice (some 2) (some 1)) = false ∧ consistent (twice (some 1) (some 2)) = true ∧ consistent (twice none (some 2)) = true := by decide +kernel
/-- Table 10.11: two loads that each return the other thread's later store, which depends on them or not. -/
def depending (d : Bool) : List Ev :=
  [rd 1 0 (at_place 0 0) 0 (some 4), { wr 2 0 (at_place 0 0) 1 with deps := if d then [1] else [] }, rd 3 1 (at_place 0 1) 1 (some 2), { wr 4 1 (at_place 0 1) 0 with deps := if d then [3] else [] }]
theorem test_load_buffering : consistent (depending true) = false ∧ consistent (depending false) = true := by decide +kernel
/-- Table 1.5: a scope's instance tells cores, dies, packages and trays apart; a hub engine's `core` is its package (R17, R233). -/
theorem test_scope_instances :
    Order.inst (at_place 0 0 0) .core (at_place 0 0 1) = false ∧ Order.inst (at_place 0 0 0) .die (at_place 0 0 1) = true ∧ Order.inst (at_place 0 0) .die (at_place 0 1) = false
    ∧ Order.inst (at_place 0 0) .pkg (at_place 0 1) = true ∧ Order.inst (at_place 0 0) .pkg (at_place 1 0) = false ∧ Order.inst (at_place 0 0) .tray (at_place 7 0) = true
    ∧ Order.inst (at_place 0 0) .tray (at_place 8 0) = false ∧ Order.inst { at_place 0 8 with hub := true } .core (at_place 0 3) = true := by decide +kernel

end Sys2Proof.Tests
end

section
/-! PROOFS. Memory as data: what a byte reads as after a write, when two memories are one, and numbers as bytes (R3 to R5; log entry 1). -/

namespace Sys2Proof.Machine

/-- A byte write shows at its own address alone. -/
theorem memRead_memWrite (m : List Host.Cell) (a k : Nat) (x : Byte) : memRead (memWrite m a x) k = if k = a then x else memRead m k := by
  induction m with
  | nil => by_cases hx : x = memDefault <;> simp [memWrite, memRead, hx, eq_comm]
  | cons c m ih =>
    obtain ⟨a', b⟩ := c
    unfold memWrite
    split
    · -- the address lies below the first entry
      split <;> simp only [memRead] <;> grind
    · split
      · -- the entry of the address is replaced, or goes with all it hid
        next heq =>
        subst heq
        split
        · next hx =>
          by_cases hk : k ≤ a
          · rw [memRead_dropWhile_le _ hk]; grind [memRead]
          · rw [memRead_dropWhile_gt _ (by omega)]; grind [memRead]
        · grind [memRead]
      · -- the write goes on behind the first entry
        simp only [memRead, ih]; grind

theorem memRead_memStore_outside (m : List Host.Cell) (a : Nat) (bs : List Byte) {k : Nat} (h : ¬(a ≤ k ∧ k < a + bs.length)) :
    memRead (memStore m a bs) k = memRead m k := by
  induction bs generalizing m a with
  | nil => rfl
  | cons b bs ih =>
    simp only [List.length_cons] at h
    rw [memStore, ih _ _ (by omega), memRead_memWrite, if_neg (by omega)]

theorem memBytes_memStore (m : List Host.Cell) (a : Nat) (bs : List Byte) : memBytes (memStore m a bs) a bs.length = bs := by
  induction bs generalizing m a with
  | nil => rfl
  | cons b bs ih =>
    rw [memStore, List.length_cons, memBytes, ih, memRead_memStore_outside _ _ _ (by omega), memRead_memWrite, if_pos rfl]

/-- Below its start a canonical memory lists nothing. -/
theorem memRead_below {lo k : Nat} {m : List Host.Cell} (h : memWfFrom lo m = true) (hk : k < lo) : memRead m k = memDefault := by
  cases m with
  | nil => rfl
  | cons c m => obtain ⟨a, b⟩ := c; grind [memWfFrom, memRead]

/-- The first entry of a canonical memory is what a memory that reads alike lists first too: no entry may read as unlisted. -/
theorem memWfFrom_ext {lo lo' : Nat} {m m' : List Host.Cell} (h : memWfFrom lo m = true) (h' : memWfFrom lo' m' = true) (e : ∀ a, memRead m a = memRead m' a) : m = m' := by
  induction m generalizing lo lo' m' with
  | nil =>
    cases m' with
    | nil => rfl
    | cons c m' => obtain ⟨a, b⟩ := c; have := e a; grind [memWfFrom, memRead]
  | cons c m ih =>
    obtain ⟨a, b⟩ := c
    cases m' with
    | nil => have := e a; grind [memWfFrom, memRead]
    | cons c' m' =>
      obtain ⟨a', b'⟩ := c'
      have ea := e a
      have ea' := e a'
      have same : a = a' ∧ b = b' := by grind [memWfFrom, memRead]
      obtain ⟨rfl, rfl⟩ := same
      simp only [memWfFrom, Bool.and_eq_true] at h h'
      rw [ih h.2 h'.2 fun k => ?_]
      by_cases hk : k ≤ a
      · rw [memRead_below h.2 (by omega), memRead_below h'.2 (by omega)]
      · have := e k; grind [memRead]

theorem leNat_leBytes (x n : Nat) : leNat (leBytes x n) = x % 2 ^ (8 * n) := by
  induction n generalizing x with
  | zero => simp [leBytes, leNat, Nat.mod_one]
  | succ n ih =>
    have hp : 2 ^ (8 * (n + 1)) = 256 * 2 ^ (8 * n) := by rw [Nat.mul_add, Nat.pow_add]; omega
    rw [leBytes, leNat, ih, hp, BitVec.toNat_ofNat, Nat.mod_mul]

theorem leBytes_leNat (bs : List Byte) : leBytes (leNat bs) bs.length = bs := by
  induction bs with
  | nil => rfl
  | cons b bs ih =>
    have hb : b.toNat < 256 := b.isLt
    have low : BitVec.ofNat 8 (b.toNat + 256 * leNat bs) = b := by apply BitVec.eq_of_toNat_eq; rw [BitVec.toNat_ofNat]; omega
    have high : (b.toNat + 256 * leNat bs) / 256 = leNat bs := by omega
    rw [leNat, List.length_cons, leBytes, low, high, ih]

/-- Settles O60: a byte write shows at its address alone, canonical memories are determined by what they read as, and little-endian bytes by their number. -/
theorem memoryReadsBack : Obligations.MemoryReadsBack :=
  ⟨fun m a bs => ⟨memBytes_memStore m a bs, fun _ hk => memRead_memStore_outside m a bs hk⟩, fun _ _ h h' e => memWfFrom_ext h h' e, leNat_leBytes, leBytes_leNat⟩

end Sys2Proof.Machine
end

section
/-! PROOFS. O59: every step keeps memory in canonical form (R3; log entry 1).

Three operations alone write memory: a store to a place (`writeLoc`), the end of a lease that restores its snapshots (`restoreLines`), and the copy of a
migrating page (`copyBytes`). Each keeps the canonical form. Everything else reaches memory through them or leaves it as it is, which is said once per operation
of the model, in the model's order: `mem_f` where `f` leaves memory as it is, `f_memOk` where `f` keeps its form, `execF_keeps` for a word or an event. -/

namespace Sys2Proof.Machine.State

/-- A word or an event that keeps memory in canonical form. -/
def Keeps (f : State → Outcome) : Prop := ∀ s t, s.MemOk → f s = .next t → t.MemOk

theorem keeps_next {F : State → State} (h : ∀ s, s.MemOk → (F s).MemOk) : Keeps fun s => .next (F s) := by
  intro s t hs e
  cases e
  exact h s hs

-- what leaves memory as it is

theorem mem_of_present {s t : State} (h : t.present = s.present) : t.mem = s.mem := by
  change t.present.mem = s.present.mem
  rw [h]

theorem mem_of_kept {g : List ThreadId} {s t : State} (h : Kept g s t) : t.mem = s.mem := by
  have := congrArg State.mem h.rest
  exact this

@[simp] theorem mem_ite (c : Prop) [Decidable c] (a b : State) : (if c then a else b).mem = if c then a.mem else b.mem := apply_ite ..

@[simp] theorem mem_foldl {α : Type} (f : State → α → State) (l : List α) (s : State) (h : ∀ s a, (f s a).mem = s.mem) : (l.foldl f s).mem = s.mem :=
  foldl_keep State.mem l s fun s a _ => h s a

@[simp] theorem mem_foldl_prod {α β : Type} (f : State → α × β → State) (l : List (α × β)) (s : State) (h : ∀ s a b, (f s (a, b)).mem = s.mem) :
    (l.foldl f s).mem = s.mem :=
  foldl_keep State.mem l s fun s a _ => h s a.1 a.2

@[simp] theorem mem_foldl_fst {α β : Type} (f : State × β → α → State × β) (l : List α) (x : State × β) (h : ∀ s b a, (f (s, b) a).1.mem = s.mem) :
    (l.foldl f x).1.mem = x.1.mem := by
  induction l generalizing x with
  | nil => rfl
  | cons a l ih => exact (ih _).trans (h x.1 x.2 a)

-- what keeps its form

theorem foldl_memOk {α : Type} (f : State → α → State) (l : List α) (hf : ∀ s a, s.MemOk → (f s a).MemOk) {s : State} (h : s.MemOk) : (l.foldl f s).MemOk := by
  induction l generalizing s with
  | nil => exact h
  | cons a l ih => exact ih (hf s a h)

theorem foldl_prod_memOk {α β : Type} (f : State → α × β → State) (l : List (α × β)) (hf : ∀ s a b, s.MemOk → (f s (a, b)).MemOk) {s : State} (h : s.MemOk) :
    (l.foldl f s).MemOk :=
  foldl_memOk f l (fun s x => hf s x.1 x.2) h

theorem foldl_fst_memOk {α β : Type} (f : State × β → α → State × β) (l : List α) (hf : ∀ s b a, s.MemOk → (f (s, b) a).1.MemOk) {x : State × β} (h : x.1.MemOk) :
    (l.foldl f x).1.MemOk := by
  induction l generalizing x with
  | nil => exact h
  | cons a l ih => exact ih (hf x.1 x.2 a h)

/-- A loop that may stop without a state keeps what each of its turns keeps. -/
theorem foldl_bind_keeps {α : Type} (P : State → Prop) (f : State → α → Option State) (h : ∀ s a t, P s → f s a = some t → P t) (l : List α) (r : Option State)
    (hr : ∀ s, r = some s → P s) (t : State) (e : l.foldl (fun r a => r.bind fun s => f s a) r = some t) : P t := by
  induction l generalizing r with
  | nil => exact hr t e
  | cons a l ih =>
    refine ih _ (fun s es => ?_) e
    obtain ⟨u, hu, hs⟩ := Option.bind_eq_some_iff.mp es
    exact h u a s (hr u hu) hs

theorem foldl_bind_snd_keeps {α β : Type} (P : State → Prop) (f : β → State → α → Option (β × State)) (h : ∀ b s a c t, P s → f b s a = some (c, t) → P t) (l
    : List α)
    (r : Option (β × State)) (hr : ∀ b s, r = some (b, s) → P s) (c : β) (t : State) (e : l.foldl (fun r a => r.bind fun x => f x.1 x.2 a) r = some (c, t))
        : P t := by
  induction l generalizing r with
  | nil => exact hr c t e
  | cons a l ih =>
    refine ih _ (fun b s es => ?_) e
    obtain ⟨⟨d, u⟩, hu, hs⟩ := Option.bind_eq_some_iff.mp es
    exact h d u a b s (hr d u hu) hs

theorem toOption_getD_memOk {s : State} {r : Except AFault State} (hr : ∀ t, r = .ok t → t.MemOk) (hm : s.MemOk) : (r.toOption.getD s).MemOk := by
  cases r with
  | error e => exact hm
  | ok t => exact hr t rfl

theorem eq_ok_of_toOption {ε α : Type} {r : Except ε α} {a : α} (h : r.toOption = some a) : r = .ok a := by
  cases r with
  | error e => cases h
  | ok b => exact congrArg Except.ok (Option.some.inj h)

end Sys2Proof.Machine.State
end

section
/-! PROOFS. Memory under the operations and steps of Sys2Proof/Machine/Records.lean. -/

namespace Sys2Proof.Machine.State

@[simp] theorem mem_freshId (s : State) : (s.freshId).2.mem = s.mem := by simp [freshId]

@[simp] theorem mem_advance (s : State) (p d t : Nat) : (s.advance p d t).mem = s.mem := by simp [advance]

end Sys2Proof.Machine.State
end

section
/-! PROOFS. Memory under the operations and steps of Sys2Proof/Machine/Trace.lean. -/

namespace Sys2Proof.Machine.State

@[simp] theorem mem_record (s : State) (e : Ev) : (s.record e).mem = s.mem := by simp [record]

@[simp] theorem mem_recordPoint (s : State) (e : Ev) : (s.recordPoint e).mem = s.mem := by simp [recordPoint]

@[simp] theorem mem_readEv (s : State) (e : Ev) (flight : Bool) (cur : List Byte) : (s.readEv e flight cur).1.mem = s.mem := by
  unfold readEv
  grind [mem_record, mem_freeIdx, mem_allow]

@[simp] theorem mem_readNewest (s : State) (e : Ev) (n : Nat) : (s.readNewest e n).mem = s.mem := by simp [readNewest]

@[simp] theorem mem_rebind (s : State) (e : Ev) (cur : List Byte) : (s.rebind e cur).1.mem = s.mem := by
  unfold rebind
  grind [mem_freeIdx, mem_allow]

@[simp] theorem mem_setDeps (s : State) (t : ThreadId) (rs : List DepReg) (ds : List Nat) : (s.setDeps t rs ds).mem = s.mem := by simp [setDeps]

@[simp] theorem mem_startOp (s : State) (n : Nat) (o : Op) : (s.startOp n o).mem = s.mem := by simp [startOp]

@[simp] theorem mem_startToken (s : State) (n : Nat) (o : Op) : (s.startToken n o).mem = s.mem := by simp [startToken]

@[simp] theorem mem_readTokens (s : State) (t : ThreadId) (ns : List Nat) : (s.readTokens t ns).mem = s.mem := mem_of_present (present_readTokens s t ns)

@[simp] theorem mem_bindLoads (s : State) (p : Pending) : (s.bindLoads p).1.mem = s.mem := by
  unfold bindLoads
  split
  · rfl
  · exact mem_foldl_fst _ _ _ fun s _ _ => mem_rebind s _ _

@[simp] theorem mem_bindResult (s : State) (t : ThreadId) (p : Pending) : (s.bindResult t p).1.mem = s.mem := by simp [bindResult]

end Sys2Proof.Machine.State
end

section
/-! PROOFS. Memory under the operations and steps of Sys2Proof/Machine/Ops.lean. -/

namespace Sys2Proof.Machine.State

@[simp] theorem mem_endRun (s : State) (c : CoreId) : (s.endRun c).mem = s.mem := by
  unfold endRun
  refine foldl_keep State.mem _ _ fun s x _ => ?_
  simp

@[simp] theorem mem_leaveGroup (s : State) (t : ThreadId) : (s.leaveGroup t).mem = s.mem := by simp [leaveGroup]

@[simp] theorem mem_stopThread (s : State) (t : ThreadId) (st : Status) : (s.stopThread t st).mem = s.mem := by simp [stopThread]

@[simp] theorem mem_wakeThread (s : State) (t : ThreadId) : (s.wakeThread t).mem = s.mem := by simp [wakeThread]

@[simp] theorem mem_blockAt (s : State) (t : ThreadId) (pc : Dword) (on : BlockOn) : (s.blockAt t pc on).mem = s.mem := by simp [blockAt]

@[simp] theorem mem_parkThread (s : State) (t : ThreadId) (on : ParkOn) : (s.parkThread t on).mem = s.mem := by simp [parkThread]

@[simp] theorem mem_completeMask (s : State) (w : WaveId) (k : Nat) : (s.completeMask w k).mem = s.mem := by simp [completeMask]

@[simp] theorem mem_enrolLane (s : State) (t : ThreadId) (k : Nat) : (s.enrolLane t k).mem = s.mem := by simp [enrolLane]

@[simp] theorem mem_strikeLane (s : State) (t : ThreadId) (k : Nat) : (s.strikeLane t k).mem = s.mem := by simp [strikeLane]

@[simp] theorem mem_arriveLane (s : State) (t : ThreadId) (k : Nat) : (s.arriveLane t k).mem = s.mem := by simp [arriveLane]

@[simp] theorem mem_leaveMasks (s : State) (t : ThreadId) : (s.leaveMasks t).mem = s.mem := by simp [leaveMasks]

@[simp] theorem mem_completeBarrier (s : State) (tm n : Nat) : (s.completeBarrier tm n).mem = s.mem := by simp [completeBarrier]

@[simp] theorem mem_arriveBarrier (s : State) (t : ThreadId) (n : Nat) : (s.arriveBarrier t n).mem = s.mem := by simp [arriveBarrier]

@[simp] theorem mem_wakeLeaseWaiters (s : State) (is : Nat → Bool) : (s.wakeLeaseWaiters is).mem = s.mem := by
  unfold wakeLeaseWaiters
  refine foldl_keep State.mem _ _ fun s x _ => ?_
  (repeat' split) <;> simp

@[simp] theorem mem_releaseHeld (s : State) (c : CoreId) (ls : List Nat) : (s.releaseHeld c ls).mem = s.mem := by simp [releaseHeld]

@[simp] theorem mem_send (s : State) (m : Msg) : (s.send m).mem = s.mem := by simp [send]

@[simp] theorem mem_evictLine (s : State) (c : CoreId) (line : Nat) (home : Agent) :
    (s.evictLine c line home).mem = s.mem := by unfold evictLine; simp only; split <;> simp

@[simp] theorem mem_writeBackLine (s : State) (c : CoreId) (line : Nat) (home : Agent) :
    (s.writeBackLine c line home).mem = s.mem := by unfold writeBackLine; simp only; split <;> simp

@[simp] theorem mem_cacheOp (s : State) (c : CoreId) (line : Nat) (inv : Bool) (home : Agent) : (s.cacheOp c line inv home).mem = s.mem := by simp [cacheOp]

@[simp] theorem mem_cacheWork (s : State) (c : CoreId) : (s.cacheWork c).mem = s.mem := by simp [cacheWork]

theorem dropLease_memOk {s : State} (t : ThreadId) (restore : Bool) (hm : s.MemOk) : (s.dropLease t restore).MemOk := by
  unfold dropLease
  grind [restoreLines_memOk, mem_modThread, mem_wakeLeaseWaiters, mem_cacheWork, mem_releaseHeld]

@[simp] theorem mem_writeDst (s : State) (t : ThreadId) (d : Dst) (ws : List Word) : (s.writeDst t d ws).mem = s.mem := by unfold writeDst; split <;> rfl

theorem breakLease_memOk {s : State} (t : ThreadId) (reason : Nat) (hm : s.MemOk) : (s.breakLease t reason).MemOk := by
  unfold breakLease
  grind [dropLease_memOk, mem_writeDst, mem_leaveGroup, mem_modThread, mem_wakeThread]

@[simp] theorem mem_hostEnter (s : State) (c : CoreId) (level : Nat) (resume : Dword) (cause : Nat) (eaddr : Dword) :
    (s.hostEnter c level resume cause eaddr).mem = s.mem := by simp [hostEnter]

@[simp] theorem mem_hostReturn (s : State) (c : CoreId) : (s.hostReturn c).mem = s.mem := by simp [hostReturn]

@[simp] theorem mem_holdRows (s : State) (c : CoreId) (n : Nat) (rows : List Hold) : (s.holdRows c n rows).mem = s.mem := by simp [holdRows]

@[simp] theorem mem_deliver (s : State) (t : ThreadId) (p : Pending) : (s.deliver t p).mem = s.mem := by
  unfold deliver
  grind [mem_bindResult, mem_modWave, mem_modThread, mem_holdRows]

@[simp] theorem mem_recordTrap (s : State) (t : ThreadId) (tr : Trap) : (s.recordTrap t tr).mem = s.mem := by unfold recordTrap; simp only; split <;> simp

/-- A trap ends the thread's lease, which restores the snapshots of its lines (R264). -/
theorem defer_memOk {s : State} (t : ThreadId) (tr : Trap) (hm : s.MemOk) : (s.defer t tr).MemOk := by
  unfold defer
  grind [breakLease_memOk, mem_hostEnter, mem_recordTrap]

/-- The arrival of results: a fault that was found with one is taken now. -/
theorem settleThat_memOk {s : State} (t : ThreadId) (pick : Pending → Bool) (hm : s.MemOk) : (s.settleThat t pick).MemOk := by
  unfold settleThat
  grind [mem_modThread, mem_deliver, defer_memOk, foldl_memOk]

theorem settleDue_memOk {s : State} (t : ThreadId) (n : Nat) (hm : s.MemOk) : (s.settleDue t n).MemOk := by
  unfold settleDue
  grind [settleThat_memOk]

theorem settle_memOk {s : State} (t : ThreadId) (hm : s.MemOk) : (s.settle t).MemOk := by
  unfold settle
  grind [settleThat_memOk]

@[simp] theorem mem_clearTeam (s : State) (n : Nat) : (s.clearTeam n).mem = s.mem := by simp [clearTeam]

@[simp] theorem mem_reapTeam (s : State) (n : Nat) : (s.reapTeam n).mem = s.mem := by
  unfold reapTeam; grind [mem_foldl, mem_modWave, mem_setTeam, mem_modCore, mem_clearTeam]

theorem exitThread_memOk {s : State} (t : ThreadId) (hm : s.MemOk) : (s.exitThread t).MemOk := by
  unfold exitThread
  grind [dropLease_memOk, mem_deliver, mem_leaveGroup, mem_stopThread, mem_modThread, mem_leaveMasks, mem_completeBarrier, mem_reapTeam, mem_foldl]

@[simp] theorem mem_wakeToken (s : State) (w : WaveId) (n : Nat) : (s.wakeToken w n).mem = s.mem := by simp [wakeToken]

@[simp] theorem mem_completeToken (s : State) (tm : Nat) (w : WaveId) (n : Nat) (x : Word) : (s.completeToken tm w n x).mem = s.mem := by simp [completeToken]

end Sys2Proof.Machine.State
end

section
/-! PROOFS. Memory under the operations and steps of Sys2Proof/Machine/Timing.lean. -/

namespace Sys2Proof.Machine.State

@[simp] theorem mem_leaveHolds (s : State) (c : CoreId) (i : Instr) (g act : List ThreadId) (endAt : Nat) :
    (s.leaveHolds c i g act endAt).mem = s.mem := by simp [leaveHolds]

@[simp] theorem mem_trackUniform (s : State) (w : WaveId) (n : Nat) (full : Bool) : (s.trackUniform w n full).mem = s.mem := by simp [trackUniform]

end Sys2Proof.Machine.State
end

section
/-! PROOFS. Memory under the operations and steps of Sys2Proof/Machine/Issue.lean. -/

namespace Sys2Proof.Machine.State

theorem arriveFor_memOk {s : State} (i : Instr) (n : Nat) (t : ThreadId) (hm : s.MemOk) : (s.arriveFor i n t).MemOk := by
  unfold arriveFor
  grind [mem_freeIdx, settleThat_memOk, settleDue_memOk]

@[simp] theorem mem_longWait (s : State) (c : CoreId) (ts : List (ThreadId × BlockOn)) : (s.longWait c ts).mem = s.mem := by simp [longWait]

@[simp] theorem mem_fillGranule (s : State) (w : WaveId) (g : Nat) : (s.fillGranule w g).mem = s.mem := by simp [fillGranule]

@[simp] theorem mem_fillFor (s : State) (i : Instr) : (s.fillFor i).1.mem = s.mem := by
  simp [fillFor, apply_ite Prod.fst, freeIdx]

/-- What comes before a word's effect: results that are due arrive, and a word that cannot be decoded traps. -/
theorem prepare_memOk {s : State} (i : Instr) (hm : s.MemOk) : (s.prepare i).1.MemOk := by
  unfold prepare
  grind [mem_longWait, mem_advance, arriveFor_memOk, defer_memOk, mem_fillFor, foldl_memOk]

@[simp] theorem mem_beginWord (s : State) (i : Instr) (g : List ThreadId) : (s.beginWord i g).mem = s.mem := mem_of_kept (kept_beginWord s i g)

@[simp] theorem mem_endWord (s : State) (g : List ThreadId) (next : Dword) (ends : Bool) : (s.endWord g next ends).mem = s.mem := by
  unfold endWord; grind [mem_foldl, mem_modThread, mem_endRun]

@[simp] theorem mem_dropDead (s : State) (i : Instr) (w : WaveId) : (s.dropDead i w).mem = s.mem := by
  unfold dropDead
  refine foldl_keep State.mem _ _ fun s x _ => ?_
  simp

@[simp] theorem mem_noteUniform (s : State) (i : Instr) (g act : List ThreadId) : (s.noteUniform i g act).mem = s.mem := by
  refine mem_foldl _ _ _ fun s w => ?_
  grind [mem_foldl, mem_trackUniform, mem_dropDead, mem_modThread]

@[simp] theorem mem_trackThread (s : State) (i : Instr) (first : Nat) (th : Thread) (t : ThreadId) :
    (s.trackThread i first th t).mem = s.mem := by unfold trackThread; split <;> simp

@[simp] theorem mem_trackDeps (s s0 : State) (i : Instr) (g : List ThreadId) : (s.trackDeps s0 i g).mem = s.mem := by simp [trackDeps]

/-- A word that issues keeps the canonical form where its effect does: around it only registers, pipes and the history change. -/
theorem perform_memOk {s : State} (i : Instr) {body : State → List ThreadId → Dword → State} (hb : ∀ s g pc, s.MemOk → (body s g pc).MemOk) (ends : Bool) (hm
    : s.MemOk) :
    (s.perform i body ends).MemOk := by
  unfold perform
  refine memOk_congr (by simp only [mem_endWord, mem_leaveHolds, mem_noteUniform, mem_trackDeps]; rfl) (hb _ _ _ (foldl_memOk _ _ (fun s t h => ?_) ?_))
  · exact memOk_congr (mem_readTokens _ _ _) h
  · exact memOk_congr (mem_beginWord _ _ _) hm

theorem issue_memOk {s : State} (i : Instr) {body : State → List ThreadId → Dword → State} (hb : ∀ s g pc, s.MemOk → (body s g pc).MemOk) (ends : Bool) (hm
    : s.MemOk) :
    (s.issue i body ends).MemOk := by
  have h1 := prepare_memOk i hm
  unfold issue
  split <;> grind [perform_memOk]

theorem issueUnless_memOk {s : State} (i : Instr) (full : State → Bool) {body : State → List ThreadId → Dword → State} (hb : ∀ s g pc, s.MemOk →
    (body s g pc).MemOk) (hm : s.MemOk) :
    (s.issueUnless i full body).MemOk := by
  have h1 := prepare_memOk i hm
  unfold issueUnless
  split <;> grind [perform_memOk, mem_modDie]

@[simp] theorem mem_tookReads (s : State) (t : ThreadId) (xs : List (SrcD × OTy)) : (s.tookReads t xs).mem = s.mem := by simp [tookReads]

@[simp] theorem mem_writeSregs (s : State) (outs : List (ThreadId × LaneOut)) (ms : List Micro) : (s.writeSregs outs ms).mem = s.mem := by
  refine mem_foldl_prod _ _ _ fun s t o => ?_
  cases o with
  | trap c => rfl
  | done rs => exact mem_foldl_prod _ _ _ fun s m r => by dsimp only; split <;> rfl

theorem laneEffect_memOk {s : State} (t : ThreadId) (ms : List Micro) (o : LaneOut) (pc npc : Dword) (hm : s.MemOk) : (s.laneEffect t ms o pc npc).MemOk := by
  unfold laneEffect
  grind [defer_memOk, mem_modThread]

theorem laneBody_memOk (i : Instr) (ms : Thread → List Micro) {s : State} (g : List ThreadId) (pc : Dword) (hm : s.MemOk) : (laneBody i ms s g pc).MemOk := by
  unfold laneBody
  grind [laneEffect_memOk, mem_writeSregs, foldl_prod_memOk]

theorem computeWith_memOk {s : State} (i : Instr) (f : Thread → List Dword → Res) (hm : s.MemOk) : (s.computeWith i f).MemOk := by
  unfold computeWith
  grind [issue_memOk, laneBody_memOk]

theorem compute_memOk {s : State} (i : Instr) (f : List Dword → Res) (hm : s.MemOk) : (s.compute i f).MemOk := by
  unfold compute
  grind [computeWith_memOk]

@[simp] theorem mem_addPend (s : State) (t : ThreadId) (p : Pending) : (s.addPend t p).mem = s.mem := by simp [addPend]

theorem longLane_memOk (i : Instr) (act : List ThreadId) (pc : Dword) {s : State} (t : ThreadId) (o : LaneOut) (hm : s.MemOk) : (longLane i act pc s t o).MemOk := by
  cases o with
  | trap c => exact defer_memOk _ _ hm
  | done rs =>
    unfold longLane
    dsimp only
    cases laneRes (.done rs) with
    | none => exact hm
    | some r => exact memOk_congr (by simp only [Option.elim, mem_addPend, mem_modThread]) hm

theorem longBody_memOk (i : Instr) (outs : List (ThreadId × LaneOut)) {s : State} (pc : Dword) (hm : s.MemOk) : (longBody i outs s pc).MemOk := by
  unfold longBody
  grind [longLane_memOk, foldl_prod_memOk]

theorem valueWord_memOk {s : State} (i : Instr) (v : State → ThreadId → Word) (hm : s.MemOk) : (s.valueWord i v).MemOk := by
  unfold valueWord
  grind [issue_memOk, laneEffect_memOk, mem_writeSregs, foldl_prod_memOk]

theorem teamOnceAfter_memOk {s : State} (i : Instr) {wait : State → Nat → List ThreadId → Dword → Option State} (hw : ∀ s n ts pc u,
    s.MemOk → wait s n ts pc = some u → u.MemOk)
    {f : State → Nat → ThreadId → List ThreadId → Dword → List Dword → State} (hf : ∀ s n t ts pc xs, s.MemOk → (f s n t ts pc xs).MemOk) (hm : s.MemOk) :
    (s.teamOnceAfter i wait f).MemOk := by
  refine issue_memOk i (fun s g pc h => foldl_prod_memOk _ _ (fun s n ts h => ?_) h) _ hm
  grind [defer_memOk, mem_tookReads]

theorem teamOnce_memOk {s : State} (i : Instr) {f : State → Nat → ThreadId → List ThreadId → Dword → List Dword → State}
    (hf : ∀ s n t ts pc xs, s.MemOk → (f s n t ts pc xs).MemOk) (hm : s.MemOk) : (s.teamOnce i f).MemOk :=
  teamOnceAfter_memOk i (fun _ _ _ _ _ _ e => by cases e) hf hm

@[simp] theorem mem_writeAll (s : State) (d : Dst) (ts : List ThreadId) (x : Word) : (s.writeAll d ts x).mem = s.mem := by simp [writeAll]

theorem computeLong_memOk {s : State} (i : Instr) (f : List Dword → Res) (hm : s.MemOk) : (s.computeLong i f).MemOk := by
  unfold computeLong
  grind [issue_memOk, longBody_memOk]

theorem exchange_memOk {s : State} (i : Instr) (f : State → List State.Member → ThreadId → List Dword → Option Res) (hm : s.MemOk) : (s.exchange i f).MemOk := by
  unfold exchange
  grind [issue_memOk, longBody_memOk]

end Sys2Proof.Machine.State
end

section
/-! PROOFS. Memory under the operations and steps of Sys2Proof/Machine/VecInt.lean. -/

namespace Sys2Proof.Machine.State

theorem execNop_keeps : Keeps execNop := by
  intro s t h e
  unfold execNop at e
  grind [issue_memOk]

theorem movFlgBody_memOk (i : Instr) {s : State} (g : List ThreadId) (pc : Dword) (hm : s.MemOk) : (movFlgBody i s g pc).MemOk := by
  unfold movFlgBody
  grind [laneBody_memOk, mem_modThread, mem_foldl_prod]

theorem execMovFlg_keeps (h : Hdr) (d : Dst) (a : SrcD) : Keeps (execMovFlg h d a) := by
  intro s t h e
  unfold execMovFlg at e
  grind [issue_memOk, movFlgBody_memOk]

theorem oclLane_memOk (g : Guard) (k n : Nat) (dead : Bool) (pc npc : Dword) {s : State} (t : ThreadId) (hm : s.MemOk) : (oclLane g k n dead pc npc s t).MemOk := by
  unfold oclLane
  grind [defer_memOk, mem_modThread]

theorem execOcl_keeps (h : Hdr) (k n : Nat) (dead : Bool) : Keeps (execOcl h k n dead) := by
  intro s t h e
  unfold execOcl at e
  grind [issue_memOk, oclLane_memOk, foldl_memOk]

theorem decodeFail_memOk (c : Cause) (size : Nat) {s : State} (hm : s.MemOk) : (decodeFail c size s).MemOk := by
  unfold decodeFail
  grind [defer_memOk, foldl_memOk]

theorem execUnassignedOpcode_keeps (_w : Dword) : Keeps (execUnassignedOpcode _w) := by
  intro s t h e
  unfold execUnassignedOpcode at e
  grind [decodeFail_memOk]

end Sys2Proof.Machine.State
end

section
/-! PROOFS. Memory under the operations and steps of Sys2Proof/Machine/VecFloat.lean. -/

namespace Sys2Proof.Machine.State

theorem execCvpk_keeps (h : Hdr) (r : Rnd) (sat : Bool) (f : FFmt) (k : Nat) (d : Dst) (a b : SrcD) : Keeps (execCvpk h r sat f k d a b) := by
  intro s t h e
  unfold execCvpk at e
  grind [issue_memOk, laneBody_memOk]

theorem execPairWord_keeps (a b : Option Half) : Keeps (execPairWord a b) := by
  intro s t h e
  unfold execPairWord at e
  grind [issue_memOk, laneBody_memOk]

end Sys2Proof.Machine.State
end

section
/-! PROOFS. Memory under the operations and steps of Sys2Proof/Machine/Mem.lean. -/

namespace Sys2Proof.Machine.State

@[simp] theorem mem_nodeRequest (s : State) (p k a : Nat) : (s.nodeRequest p k a).mem = s.mem := by simp [nodeRequest]

/-- A walk changes its state only by the reads that it makes. -/
theorem walkWith_fst {σ α : Type} (π : σ → α) (s : State) (rd : σ → Nat → σ × List Byte) (h : ∀ u a, π (rd u a).1 = π u) (k va p : Nat) (ls : List (Nat × Nat)) (x
    : WalkEntry)
    (seen : List WalkEntry) (u : σ) : π (s.walkWith rd k va p ls x seen u).1 = π u := by
  induction ls generalizing p x seen u with
  | nil => rfl
  | cons l ls ih =>
    unfold walkWith
    split
    · rfl
    · simp only
      repeat' split
      all_goals simp [ih, h]

@[simp] theorem mem_walkCached (s : State) (e : Ev) (p d k : Nat) (root : Nat × Nat × Nat) (va : Dword) : (s.walkCached e p d k root va).1.mem = s.mem := by
  have h := walkWith_fst State.mem s (fun s a => ((s.nodeRequest p k a).readEv { e with base := .mem a } false
      (memBytes (s.nodeRequest p k a).mem a 16)).map id Prod.snd)
    (by simp) k va.toNat p (walkLevels.drop (s.walkStart p d k root va).level) (s.walkStart p d k root va) [] s
  unfold walkCached; grind [mem_modDie]

@[simp] theorem mem_translate_fromTlb (s : State) (t : ThreadId) (va : Dword) (k pg : Nat) (c : CoreId) : (translate.fromTlb s t va k pg c).1.mem = s.mem := by
  unfold translate.fromTlb
  grind [mem_modThread, mem_walkCached, mem_modCore]

@[simp] theorem mem_translate (s : State) (t : ThreadId) (va : Dword) : (s.translate t va).1.mem = s.mem := by
  unfold translate
  grind [mem_translate_fromTlb]

@[simp] theorem mem_useOwner (s : State) (p key page : Nat) : (s.useOwner p key page).mem = s.mem := by unfold useOwner; split <;> rfl

@[simp] theorem mem_globalAddr (s : State) (t : ThreadId) (kind : Acc) (va : Dword) (konst : Bool) : (s.globalAddr t kind va konst).1.mem = s.mem := by
  unfold globalAddr
  grind [mem_translate]

@[simp] theorem mem_spaceAddr (s : State) (t : ThreadId) (spc : Space) (kind : Acc) (addr : Dword) (z : Nat) (aligned : Bool) :
    (s.spaceAddr t spc kind addr z aligned).1.mem = s.mem := by
  unfold spaceAddr
  grind [mem_globalAddr]

theorem winReady_memOk {s : State} (t u : ThreadId) (n : Nat) (hm : s.MemOk) : (s.winReady t u n).MemOk := by
  unfold winReady
  grind [mem_fillGranule, mem_modCore, mem_freeIdx, settleThat_memOk]

theorem accessAddr_memOk {s : State} (t : ThreadId) (spc : Space) (kind : Acc) (addr : Dword) (z : Nat) (aligned : Bool) (hm : s.MemOk) :
    (s.accessAddr t spc kind addr z aligned).1.MemOk := by
  unfold accessAddr
  grind [mem_spaceAddr, winReady_memOk]

/-- A load leaves memory as it is: it adds to the history alone. -/
@[simp] theorem mem_loadAt (s : State) (t : ThreadId) (path : Path) (ord : Ord) (scp : Option Scope) (flight : Bool) (l : Loc) (z : Nat) :
    (s.loadAt t path ord scp flight l z).1.mem = s.mem := by
  unfold loadAt
  split
  · rfl
  · exact mem_foldl_fst _ _ _ fun s _ _ => mem_readEv s _ _ _

theorem storeAt_memOk {s : State} (t : ThreadId) (kind : EvKind) (path : Path) (ord : Ord) (scp : Option Scope) (stream : Bool) (l : Loc) (bs : List Byte) (hm
    : s.MemOk) : (s.storeAt t kind path ord scp stream l bs).MemOk := by
  unfold storeAt
  grind [writeLoc_memOk, mem_writeEv, foldl_prod_memOk]

@[simp] theorem mem_agentLoad (s : State) (e : Ev) (l : Loc) (n : Nat) : (s.agentLoad e l n).1.mem = s.mem := by simp [agentLoad]

theorem mergeLast_memOk {s : State} (n : Nat) (hm : s.MemOk) : (s.mergeLast n).MemOk := by
  unfold mergeLast
  grind [mem_allow, writeLoc_memOk]

@[simp] theorem mem_sendReq (s : State) (c : CoreId) (m : Msg) : (s.sendReq c m).mem = s.mem := by simp [sendReq]

@[simp] theorem mem_sendHeld (s : State) (c : CoreId) (m : Msg) (answered : Bool) : (s.sendHeld c m answered).mem = s.mem := by unfold sendHeld; split <;> simp

@[simp] theorem mem_miss (s : State) (t : ThreadId) (for_ : List ThreadId) (own : Bool) (pte : Pte) (va : Dword) (pa len : Nat) (evs : (List Nat)) :
    (s.miss t for_ own pte va pa len evs).mem = s.mem := by simp [miss]

@[simp] theorem mem_sendHome (s : State) (t : ThreadId) (kind : MsgKind) (pte : Pte) (va : Dword) (pa len : Nat) (evs : List Nat) :
    (s.sendHome t kind pte va pa len evs).mem = s.mem := by simp [sendHome]

@[simp] theorem mem_touchLine (s : State) (t : ThreadId) (kind : Acc) (stream : Bool) (pte : Pte) (va : Dword) (pa len : Nat) (evs : List Nat) :
    (s.touchLine t kind stream pte va pa len evs).mem = s.mem := by
  unfold touchLine
  grind [mem_modCore, mem_miss, mem_sendHome]

@[simp] theorem mem_releaseStores (s : State) (c : CoreId) (n : Nat) : (s.releaseStores c n).mem = s.mem := by
  induction n generalizing s with
  | zero => rfl
  | succ n ih => unfold releaseStores; grind [mem_touchLine, mem_setCore]

@[simp] theorem mem_accessDone (s : State) (c : CoreId) (m : Msg) (answered : Bool) : (s.accessDone c m answered).mem = s.mem := by simp [accessDone]

@[simp] theorem mem_mirrorStore (s : State) (t : ThreadId) (va : Dword) (bs : List Byte) : (s.mirrorStore t va bs).mem = s.mem := by
  unfold mirrorStore
  grind [mem_modPkg]

/-- A store or an RMW of a thread: its bytes are written to its place, and the rest is protocol. -/
theorem performWrite_memOk {s : State} (t : ThreadId) (rmw stream : Bool) (ord : Ord) (scp : Option Scope) (addr : Dword) (l : Loc) (pte : Option Pte)
    (bs : List Byte) (hm : s.MemOk) : (s.performWrite t rmw stream ord scp addr l pte bs).MemOk := by
  unfold performWrite
  grind [storeAt_memOk, mem_mirrorStore, mem_setCore, mem_touchLine]

@[simp] theorem mem_performRead (s : State) (t : ThreadId) (kc : Bool) (addr : Dword) (l : Loc) (pte : Option Pte) :
    (s.performRead t kc addr l pte).mem = s.mem := by unfold performRead; split <;> simp

end Sys2Proof.Machine.State
end

section
/-! PROOFS. Memory under the operations and steps of Sys2Proof/Machine/Agents.lean. -/

namespace Sys2Proof.Machine.State

@[simp] theorem mem_engineTouch (s : State) (p : Nat) (root : Nat × Nat × Nat) (kind : MsgKind) (ps : List Piece) (op : Option Nat) :
    (s.engineTouch p root kind ps op).mem = s.mem := by simp [engineTouch]

@[simp] theorem mem_agentRead (s : State) (e : Ev) (p : Nat) (root : Nat × Nat × Nat) (keys : Option (List Nat)) (va : Dword) (n : Nat) :
    (s.agentRead e p root keys va n).1.mem = s.mem := by
  unfold agentRead; split <;> simp

/-- A write of an agent to a virtual address. -/
theorem vaWrite_memOk {s : State} (p : Nat) (root : Nat × Nat × Nat) (keys : Option (List Nat)) (va : Dword) (bs : List Byte) (e : Ev) (hm : s.MemOk) {s' : State}
    (he : s.vaWrite p root keys va bs e = .ok s') : s'.MemOk := by
  unfold vaWrite at he
  grind [storePieces_memOk, mem_engineTouch]

@[simp] theorem mem_threadRead (s : State) (t : ThreadId) (va : Dword) (n : Nat) : (s.threadRead t va n).1.mem = s.mem := by
  induction n generalizing s va with
  | zero => rfl
  | succ n ih => unfold threadRead; grind [mem_globalAddr]

@[simp] theorem mem_setHpend (s : State) (p bit : Nat) : (s.setHpend p bit).mem = s.mem := by
  unfold setHpend
  refine foldl_keep State.mem _ _ fun s x _ => ?_
  simp

end Sys2Proof.Machine.State
end

section
/-! PROOFS. Memory under the operations and steps of Sys2Proof/Machine/Memory.lean. -/

namespace Sys2Proof.Machine.State

/-- One lane's access: a fault, a wait or a broken lease takes the state after a second performance, without the reads of the first. -/
theorem accessOne_memOk (i : Instr) (pc : Dword) {f : State → ThreadId → List Dword → State × MemOut} (hf : ∀ s t xs, s.MemOk → (f s t xs).1.MemOk)
    (acc : State × List (ThreadId × MemOut)) (t : ThreadId) (e : Except Cause (List Dword)) (hm : acc.1.MemOk) : (accessOne i pc f acc t e).1.MemOk := by
  unfold accessOne
  cases e with
  | error c => exact defer_memOk _ _ hm
  | ok xs =>
    have h1 := hf _ t xs (memOk_congr (mem_tookReads acc.1 t (microOf i fun _ => ⟨0, 0⟩).srcs) hm)
    have h2 := hf _ t xs hm
    grind [defer_memOk, mem_blockAt, breakLease_memOk]

@[simp] theorem mem_launchAll (s : State) (i : Instr) (pc : Dword) (act : List ThreadId) (outs : List (ThreadId × MemOut)) :
    (s.launchAll i pc act outs).mem = s.mem := by
  unfold launchAll
  refine foldl_keep State.mem _ _ fun s x _ => ?_
  (repeat' split) <;> simp

theorem accessLanes_memOk {s : State} (i : Instr) (g : List ThreadId) (pc : Dword) {f : State → ThreadId → List Dword → State × MemOut}
    (hf : ∀ s t xs, s.MemOk → (f s t xs).1.MemOk) (hm : s.MemOk) : (s.accessLanes i g pc f).MemOk := by
  have h1 := foldl_fst_memOk (fun acc x => accessOne i pc f acc x.1 x.2.2) ((s.memberVals g i).filter (·.2.1)) (fun s b a h => accessOne_memOk i pc hf (s, b) _ _ h)
    (x := ({ s with wordEv := s.nextEv }, [])) hm
  unfold accessLanes
  dsimp only
  split
  · exact memOk_congr (mem_launchAll _ _ _ _ _) h1
  · exact h1

theorem memWordAt_memOk {s : State} (i : Instr) (spc : Space) (addr : List Dword → Dword) {f : Dword → State → State → ThreadId → List Dword → State × MemOut}
    (hf : ∀ pc s0 s t xs, s.MemOk → (f pc s0 s t xs).1.MemOk) (hm : s.MemOk) : (s.memWordAt i spc addr f).MemOk := by
  refine issue_memOk i (fun s g pc h => accessLanes_memOk i g pc (fun s' t xs => hf pc s s' t xs) ?_) _ hm
  split
  · exact h
  · exact h

theorem memWord_memOk {s : State} (i : Instr) (spc : Space) (addr : List Dword → Dword) {f : State → State → ThreadId → List Dword → State × MemOut}
    (hf : ∀ s0 s t xs, s.MemOk → (f s0 s t xs).1.MemOk) (hm : s.MemOk) : (s.memWord i spc addr f).MemOk :=
  memWordAt_memOk i spc addr (fun _ => hf) hm

theorem mem_onPlace (s : State) (t : ThreadId) (late : Bool) (fa : Dword) (r : AddrRes) (k : Loc → Option Pte → State × MemOut) (h : ∀ l p, (k l p).1.mem = s.mem) :
    (s.onPlace t late fa r k).1.mem = s.mem := by
  cases r with
  | loc l p => exact h l p
  | _ => rfl

theorem onPlace_memOk {s : State} (t : ThreadId) (late : Bool) (fa : Dword) (r : AddrRes) {k : Loc → Option Pte → State × MemOut} (hk : ∀ l p, (k l p).1.MemOk)
    (hm : s.MemOk) :
    (s.onPlace t late fa r k).1.MemOk := by
  cases r with
  | loc l p => exact hk l p
  | _ => exact hm

@[simp] theorem mem_poisonOut (s : State) (t : ThreadId) (late : Bool) (fa : Dword) : (s.poisonOut t late fa).1.mem = s.mem := by unfold poisonOut; split <;> rfl

theorem loadLane_memOk {s : State} (t : ThreadId) (ty : OTy) (m : MOp) (addr : Dword) (hm : s.MemOk) : (s.loadLane t ty m addr).1.MemOk := by
  unfold loadLane
  grind [accessAddr_memOk, mem_onPlace, mem_poisonOut, mem_loadAt, mem_performRead]

theorem storeLane_memOk {s : State} (t : ThreadId) (m : MOp) (addr : Dword) (bs : List Byte) (hm : s.MemOk) : (s.storeLane t m addr bs).1.MemOk :=
  have h1 := accessAddr_memOk t m.spc .store addr bs.length _ hm
  onPlace_memOk _ _ _ _ (fun l p => performWrite_memOk t false _ m.ord m.scp addr l p bs h1) h1

theorem rmwLane_memOk {s : State} (t : ThreadId) (m : MOp) (late : Bool) (z : Nat) (addr : Dword) (new : Dword → Option Dword × Flags) (hm : s.MemOk) :
    (s.rmwLane t m late z addr new).1.MemOk := by
  have h1 := accessAddr_memOk t m.spc .rmw addr z true hm
  unfold rmwLane
  generalize s.accessAddr t m.spc .rmw addr z = x at h1 ⊢
  obtain ⟨s, r⟩ := x
  refine onPlace_memOk _ _ _ _ (fun l p => ?_) h1
  grind [mem_poisonOut, performWrite_memOk, mem_performRead, mem_readNewest]

theorem breakHolders_memOk {s : State} (i : Instr) (g : List ThreadId) (hm : s.MemOk) : (s.breakHolders i g).1.MemOk := by
  unfold breakHolders
  grind [breakLease_memOk, foldl_memOk]

theorem execLd_keeps (h : Hdr) (t : OTy) (m : MOp) (d : Dst) (base off : SrcD) : Keeps (execLd h t m d base off) := by
  intro s t h e
  unfold execLd at e
  grind [memWord_memOk, loadLane_memOk]

theorem execSt_keeps (h : Hdr) (t : OTy) (m : MOp) (data : Src) (base off : SrcD) : Keeps (execSt h t m data base off) := by
  intro s t h e
  unfold execSt at e
  grind [memWord_memOk, storeLane_memOk, mem_tookReads]

theorem execAtom_keeps (h : Hdr) (op : AtomOp) (wide : Bool) (m : MOp) (d : Dst) (base val : SrcD) : Keeps (execAtom h op wide m d base val) := by
  intro s t h e
  unfold execAtom at e
  grind [memWord_memOk, rmwLane_memOk]

theorem execAtomn_keeps (h : Hdr) (op : AtomOp) (wide : Bool) (m : MOp) (base val : SrcD) : Keeps (execAtomn h op wide m base val) := by
  intro s t h e
  unfold execAtomn at e
  grind [memWord_memOk, rmwLane_memOk]

theorem execCas_keeps (h : Hdr) (wide : Bool) (m : MOp) (d : Dst) (base cn : SrcD) : Keeps (execCas h wide m d base cn) := by
  intro s t h e
  unfold execCas at e
  grind [memWord_memOk, rmwLane_memOk]

theorem execFence_keeps (h : Hdr) (m : MOp) : Keeps (execFence h m) := by
  intro s t h e
  unfold execFence at e
  grind [issue_memOk, mem_recordPoint, mem_stopThread, mem_foldl]

theorem execFenceDone_keeps (t : ThreadId) : Keeps (execFenceDone t) := by
  intro s t h e
  unfold execFenceDone at e
  grind [mem_bindLoads, mem_wakeThread, mem_modThread, mem_foldl_fst]

theorem execPfen_keeps (h : Hdr) (p q : Path) : Keeps (execPfen h p q) := by
  intro s t h e
  unfold execPfen at e
  grind [issue_memOk, mem_stopThread, mem_foldl]

theorem execPfenDone_keeps (t : ThreadId) : Keeps (execPfenDone t) := by
  intro s t h e
  unfold execPfenDone at e
  grind [mem_wakeThread, mem_recordPoint]

theorem execPref_keeps (h : Hdr) (lvl : PrefLvl) (m : MOp) (base off : SrcD) : Keeps (execPref h lvl m base off) := by
  intro s t h e
  unfold execPref at e
  grind [issue_memOk, accessLanes_memOk, mem_spaceAddr, mem_miss]

@[simp] theorem mem_cacheLane (inv : Bool) (m : MOp) (s : State) (t : ThreadId) (va : Dword) : (cacheLane inv m s t va).1.mem = s.mem := by
  unfold cacheLane
  grind [mem_spaceAddr, mem_poisonOut, mem_cacheOp]

theorem execCinv_keeps (h : Hdr) (m : MOp) (base off : SrcD) : Keeps (execCinv h m base off) := by
  intro s t h e
  unfold execCinv at e
  grind [memWord_memOk, mem_cacheLane]

theorem execCwb_keeps (h : Hdr) (m : MOp) (base off : SrcD) : Keeps (execCwb h m base off) := by
  intro s t h e
  unfold execCwb at e
  grind [memWord_memOk, mem_cacheLane]

end Sys2Proof.Machine.State
end

section
/-! PROOFS. Memory under the operations and steps of Sys2Proof/Machine/LeaseOps.lean. -/

namespace Sys2Proof.Machine.State

@[simp] theorem mem_wantLease (s : State) (t : ThreadId) (l : Lease) (pte : Pte) (va : Dword) (pa : Nat) (d : Dst) :
    (s.wantLease t l pte va pa d).mem = s.mem := by simp [wantLease]

@[simp] theorem mem_beginLease (s : State) (t : ThreadId) (l : Lease) (line : Nat) (va : Dword) : (s.beginLease t l line va).mem = s.mem := by simp [beginLease]

theorem commitLease_memOk {s : State} (t : ThreadId) (ord : Ord) (scp : Scope) (hm : s.MemOk) : (s.commitLease t ord scp).MemOk := by
  unfold commitLease
  grind [mem_writeEv, dropLease_memOk, mem_foldl]

@[simp] theorem mem_leaseLane (m : MOp) (d : Dst) (pc : Dword) (s : State) (t : ThreadId) (xs : List Dword) : (leaseLane m d pc s t xs).1.mem = s.mem := by
  unfold leaseLane
  grind [mem_spaceAddr, mem_wantLease]

theorem execLease_keeps (h : Hdr) (m : MOp) (d : Dst) (base : SrcD) (disp : Src) : Keeps (execLease h m d base disp) := by
  intro s t h e
  unfold execLease at e
  grind [memWordAt_memOk, mem_leaseLane]

theorem mem_grantLease {s u : State} {t : ThreadId} (e : s.grantLease t = .ok u) : u.mem = s.mem := by
  unfold grantLease at e; grind [mem_modThread, mem_beginLease]

@[simp] theorem mem_grantLeases (s : State) (c : CoreId) (line : Nat) : (s.grantLeases c line).mem = s.mem := by
  refine mem_foldl_prod _ _ _ fun s t th => ?_
  dsimp only
  split
  · cases e : s.grantLease t with
    | error => rfl
    | ok u => exact mem_grantLease e
  · rfl

theorem askLease_memOk {s : State} (t : ThreadId) (l : Lease) (va : Dword) (hm : s.MemOk) : (s.askLease t l va).MemOk := by
  unfold askLease
  grind [mem_modThread, mem_globalAddr, mem_miss, defer_memOk]

theorem execLeaseGrant_keeps (t : ThreadId) : Keeps (execLeaseGrant t) := by
  intro s t h e
  unfold execLeaseGrant at e
  grind [mem_grantLease, askLease_memOk]

theorem execLeaseDeferredBegin_keeps (t : ThreadId) : Keeps (execLeaseDeferredBegin t) := by
  intro s t h e
  unfold execLeaseDeferredBegin at e
  grind [mem_beginLease, askLease_memOk]

theorem execLeaseExpiry_keeps (t : ThreadId) : Keeps (execLeaseExpiry t) := by
  intro s t h e
  unfold execLeaseExpiry at e
  grind [breakLease_memOk]

theorem execNestedLeaseTimeout_keeps (t : ThreadId) : Keeps (execNestedLeaseTimeout t) := by
  intro s t h e
  unfold execNestedLeaseTimeout at e
  grind [breakLease_memOk]

theorem execLrel_keeps (h : Hdr) (m : MOp) : Keeps (execLrel h m) := by
  intro s t h e
  unfold execLrel at e
  grind [issue_memOk, commitLease_memOk, foldl_memOk]

end Sys2Proof.Machine.State
end

section
/-! PROOFS. Memory under the operations and steps of Sys2Proof/Machine/Control.lean. -/

namespace Sys2Proof.Machine.State

/-- A control word performed lane by lane keeps the canonical form where its effect on one thread does. -/
theorem control_memOk {s : State} (i : Instr) {f : State → ThreadId → Dword → List Dword → State} (hf : ∀ s t pc xs, s.MemOk → (f s t pc xs).MemOk) (chk : Check)
    (hm : s.MemOk) :
    (s.control i f chk).MemOk := by
  refine issue_memOk i (fun s g pc h => foldl_prod_memOk _ _ (fun s t x h => ?_) h) _ hm
  grind [defer_memOk, mem_tookReads]

@[simp] theorem mem_endRunIf (s : State) (act : List ThreadId) : (s.endRunIf act).mem = s.mem := by simp [endRunIf]

@[simp] theorem mem_transfer (s : State) (t : ThreadId) (pc target : Dword) (link : Option Nat) :
    (s.transfer t pc target link).mem = s.mem := by unfold transfer; split <;> rfl

theorem execBra_keeps (h : Hdr) (disp : Int) : Keeps (execBra h disp) := by
  intro s t h e
  unfold execBra at e
  grind [control_memOk, mem_modThread]

theorem execBrx_keeps (h : Hdr) (a : SrcD) : Keeps (execBrx h a) := by
  intro s t h e
  unfold execBrx at e
  grind [control_memOk, mem_transfer]

theorem execCall_keeps (h : Hdr) (d : Nat) (disp : Int) : Keeps (execCall h d disp) := by
  intro s t h e
  unfold execCall at e
  grind [control_memOk, mem_transfer]

theorem execCallx_keeps (h : Hdr) (d : Nat) (a : SrcD) : Keeps (execCallx h d a) := by
  intro s t h e
  unfold execCallx at e
  grind [control_memOk, mem_transfer]

theorem execRet_keeps (h : Hdr) (a : SrcD) : Keeps (execRet h a) := by
  intro s t h e
  unfold execRet at e
  grind [control_memOk, mem_transfer]

theorem execExit_keeps (h : Hdr) : Keeps (execExit h) := by
  intro s t h e
  unfold execExit at e
  grind [control_memOk, mem_hostEnter, exitThread_memOk]

theorem execEnrol_keeps (h : Hdr) (m : Nat) : Keeps (execEnrol h m) := by
  intro s t h e
  unfold execEnrol at e
  grind [control_memOk, mem_enrolLane]

theorem execStrike_keeps (h : Hdr) (m : Nat) : Keeps (execStrike h m) := by
  intro s t h e
  unfold execStrike at e
  grind [issue_memOk, mem_strikeLane, mem_completeMask, mem_foldl]

theorem execJoin_keeps (h : Hdr) (m : Nat) : Keeps (execJoin h m) := by
  intro s t h e
  unfold execJoin at e
  grind [issue_memOk, breakHolders_memOk, mem_parkThread, mem_arriveLane, mem_endRunIf, mem_completeMask, mem_foldl]

theorem execBar_keeps (h : Hdr) (n : Nat) : Keeps (execBar h n) := by
  intro s t h e
  unfold execBar at e
  grind [issue_memOk, breakHolders_memOk, mem_parkThread, mem_arriveBarrier, mem_endRunIf, mem_completeBarrier, mem_foldl]

theorem execYld_keeps (h : Hdr) : Keeps (execYld h) := by
  intro s t h e
  unfold execYld at e
  grind [issue_memOk, mem_modThread, mem_endRunIf, mem_foldl]

theorem execYldExclusionEnd_keeps (t : ThreadId) : Keeps (execYldExclusionEnd t) := by
  intro s t h e
  unfold execYldExclusionEnd at e
  grind [mem_modThread]

theorem sigwCheck_memOk {s : State} (t : ThreadId) (pc next addr val : Dword) (cc : SigCc) (d : Dst) (sc : Scope) (dead : List Nat) (hm : s.MemOk) :
    (sigwCheck s t pc next addr val cc d sc dead).MemOk := by
  unfold sigwCheck
  grind [accessAddr_memOk, defer_memOk, breakLease_memOk, mem_blockAt, mem_loadAt, mem_performRead, mem_modThread, mem_wakeThread, mem_writeDst]

theorem execSigw_keeps (h : Hdr) (cc : SigCc) (m : MOp) (d : Dst) (base val : SrcD) : Keeps (execSigw h cc m d base val) := by
  intro s t h e
  unfold execSigw at e
  grind [issue_memOk, breakHolders_memOk, mem_endRunIf, defer_memOk, sigwCheck_memOk, mem_modThread, foldl_prod_memOk]

theorem execSigwRecheck_keeps (t : ThreadId) : Keeps (execSigwRecheck t) := by
  intro s t h e
  unfold execSigwRecheck at e
  grind [sigwCheck_memOk]

theorem execSigs_keeps (h : Hdr) (add : Bool) (m : MOp) (base val : SrcD) : Keeps (execSigs h add m base val) := by
  intro s t h e
  unfold execSigs at e
  grind [memWord_memOk, rmwLane_memOk]

theorem execRgn_keeps (h : Hdr) : Keeps (execRgn h) := by
  intro s t h e
  unfold execRgn at e
  grind [control_memOk, mem_modThread]

theorem execGrow_keeps (h : Hdr) (d : Dst) (n : Src) : Keeps (execGrow h d n) := by
  intro s t h e
  unfold execGrow at e
  grind [issue_memOk, mem_addPend, mem_foldl]

@[simp] theorem mem_releaseRange (s : State) (w : WaveId) (a b : Nat) : (Machine.releaseRange s w a b).mem = s.mem := by
  unfold releaseRange
  dsimp only
  rw [mem_modWave, mem_foldl]
  exact fun _ _ => rfl

theorem settleRange_memOk {s : State} (w : WaveId) (a : Nat) (hm : s.MemOk) : (settleRange s w a).MemOk := by
  unfold settleRange
  grind [settleThat_memOk, foldl_memOk]

theorem execShrk_keeps (h : Hdr) (d : Dst) (n : Src) : Keeps (execShrk h d n) := by
  intro s t h e
  unfold execShrk at e
  grind [issue_memOk, mem_releaseRange, settleRange_memOk, mem_modThread, mem_modWave, foldl_memOk]

theorem execSrd_keeps (h : Hdr) (d : Dst) (n : Nat) : Keeps (execSrd h d n) := by
  intro s t h e
  unfold execSrd at e
  grind [issue_memOk, mem_addPend, mem_foldl]

theorem execSwi_keeps (h : Hdr) (n : Nat) : Keeps (execSwi h n) := by
  intro s t h e
  unfold execSwi at e
  grind [control_memOk, defer_memOk]

theorem execBrk_keeps (h : Hdr) (n : Nat) : Keeps (execBrk h n) := by
  intro s t h e
  unfold execBrk at e
  grind [control_memOk, defer_memOk]

theorem execElect_keeps (h : Hdr) (p : Nat) : Keeps (execElect h p) := by
  intro s t h e
  unfold execElect at e
  grind [issue_memOk, mem_modThread, mem_foldl]

end Sys2Proof.Machine.State
end

section
/-! PROOFS. Memory under the operations and steps of Sys2Proof/Machine/Spindle.lean. -/

namespace Sys2Proof.Machine.State

@[simp] theorem mem_rotate (s : State) : (s.rotate).mem = s.mem := by unfold rotate; simp only; split <;> simp

@[simp] theorem mem_openRun (s : State) (c : CoreId) (x : State.Candidate) : (s.openRun c x).mem = s.mem := by simp [openRun]

@[simp] theorem mem_formGroup (s : State) (c : CoreId) : (s.formGroup c).mem = s.mem := by
  unfold formGroup
  grind [mem_endRun, mem_openRun]

@[simp] theorem mem_fetchPlace (s : State) (t : ThreadId) (va : Dword) : (s.fetchPlace t va).1.mem = s.mem := by
  unfold fetchPlace
  grind [mem_globalAddr]

@[simp] theorem mem_fetchWord (s : State) (t : ThreadId) (va : Dword) : (s.fetchWord t va).1.mem = s.mem := by
  unfold fetchWord
  grind [mem_fetchPlace, mem_readEv]

theorem fetchAll_memOk {s : State} (g : List ThreadId) (pc va : Dword) (hm : s.MemOk) : (s.fetchAll g pc va).1.MemOk := by
  unfold fetchAll
  grind [mem_fetchWord, mem_fetchPlace, defer_memOk, mem_leaveGroup, mem_blockAt, foldl_fst_memOk]

theorem fetchInstr_memOk {s : State} (hm : s.MemOk) : (s.fetchInstr).1.MemOk := by
  unfold fetchInstr
  grind [fetchAll_memOk]

@[simp] theorem mem_tickDie (s : State) (p d : Nat) : (s.tickDie p d).mem = s.mem := by simp [tickDie]

@[simp] theorem mem_tickBut (s : State) (skip : Option (Nat × Nat)) : (s.tickBut skip).mem = s.mem := by simp [tickBut]

theorem execFairnessUrgent_keeps (t : ThreadId) : Keeps (execFairnessUrgent t) := by
  intro s t h e
  unfold execFairnessUrgent at e
  grind [mem_modThread, mem_endRun]

theorem execResultDelivery_keeps (t : ThreadId) : Keeps (execResultDelivery t) := by
  intro s t h e
  unfold execResultDelivery at e
  grind [mem_wakeThread, settleThat_memOk]

theorem execLongWaitExpiry_keeps (c : CoreId) : Keeps (execLongWaitExpiry c) := by
  intro s t h e
  unfold execLongWaitExpiry at e
  grind [mem_longWait]

theorem execGranuleFill_keeps (w : WaveId) (g : Nat) : Keeps (execGranuleFill w g) := by
  intro s t h e
  unfold execGranuleFill at e
  grind [mem_fillGranule, mem_wakeThread, mem_foldl]

end Sys2Proof.Machine.State
end

section
/-! PROOFS. Memory under the operations and steps of Sys2Proof/Machine/HostSys.lean. -/

namespace Sys2Proof.Machine.State

theorem execSysr_keeps (h : Hdr) (d : Dst) (r : SysReg) : Keeps (execSysr h d r) := by
  intro s t h e
  unfold execSysr at e
  grind [control_memOk, mem_writeDst]

theorem execSysw_keeps (h : Hdr) (r : SysReg) (a : SrcD) : Keeps (execSysw h r a) := by
  intro s t h e
  unfold execSysw at e
  grind [control_memOk, mem_modHost]

theorem execScall_keeps (h : Hdr) (n : Nat) : Keeps (execScall h n) := by
  intro s t h e
  unfold execScall at e
  grind [control_memOk, mem_hostEnter]

theorem execMcall_keeps (h : Hdr) (n : Nat) : Keeps (execMcall h n) := by
  intro s t h e
  unfold execMcall at e
  grind [control_memOk, mem_hostEnter]

theorem execEret_keeps (h : Hdr) : Keeps (execEret h) := by
  intro s t h e
  unfold execEret at e
  grind [control_memOk, mem_hostReturn]

@[simp] theorem mem_invalidatePkg (s : State) (p kind : Nat) (va : Dword) (key : Nat) : (s.invalidatePkg p kind va key).mem = s.mem := by simp [invalidatePkg]

@[simp] theorem mem_stubsInvalidated (s : State) (p kind : Nat) (va : Dword) (key : Nat) :
    (s.stubsInvalidated p kind va key).mem = s.mem := by simp [stubsInvalidated]

@[simp] theorem mem_invalidateAll (s : State) (p kind : Nat) (va : Dword) (key : Nat) : (s.invalidateAll p kind va key).mem = s.mem := by simp [invalidateAll]

theorem execTlbi_keeps (h : Hdr) (kind : Nat) (a b : SrcD) : Keeps (execTlbi h kind a b) := by
  intro s t h e
  unfold execTlbi at e
  grind [control_memOk, mem_freshId, mem_stopThread]

theorem execTlbiInvalidation_keeps (pkg id : Nat) : Keeps (execTlbiInvalidation pkg id) := by
  intro s t h e
  unfold execTlbiInvalidation at e
  grind [mem_invalidatePkg]

theorem execTlbiDone_keeps (id : Nat) : Keeps (execTlbiDone id) := by
  intro s t h e
  unfold execTlbiDone at e
  grind [mem_stubsInvalidated, mem_wakeThread]

theorem execWait_keeps (h : Hdr) : Keeps (execWait h) := by
  intro s t h e
  unfold execWait at e
  grind [control_memOk, mem_endRun, mem_stopThread]

theorem execHostEventEntry_keeps (c : CoreId) : Keeps (execHostEventEntry c) := by
  intro s t h e
  unfold execHostEventEntry at e
  grind [mem_wakeThread, mem_hostEnter]

theorem execRegisterWrite_keeps (ctx : Nat) (r : CtxReg) (x : Dword) : Keeps (execRegisterWrite ctx r x) := by
  intro s t h e
  unfold execRegisterWrite at e
  grind [writeCtxReg_memOk]

theorem ctxw_memOk {s : State} (i : Instr) (d : Dst) {f : State → ThreadId → List Dword → State × Except AFault Dword}
    (hf : ∀ s t xs, s.MemOk → (f s t xs).1.MemOk) (hm : s.MemOk) : (s.ctxw i d f).MemOk := by
  refine issue_memOk i (fun s g pc h => foldl_prod_memOk _ _ (fun s t x h => ?_) h) _ hm
  obtain ⟨act, e⟩ := x
  cases e with
  | error c => grind [defer_memOk]
  | ok xs =>
    have h1 := hf _ t xs (memOk_congr (mem_tookReads s t (microOf i fun _ => ⟨0, 0⟩).srcs) h)
    have h2 := hf _ t xs h
    dsimp only
    split
    · exact h
    · split
      · exact defer_memOk _ _ h
      · split <;> grind [defer_memOk, mem_writeDst]

theorem execCtxwReg_keeps (h : Hdr) (r : CtxReg) (d : Dst) (a b : SrcD) : Keeps (execCtxwReg h r d a b) := by
  intro s t h e
  unfold execCtxwReg at e
  grind [ctxw_memOk, writeCtxReg_memOk]

theorem execCtxwNew_keeps (h : Hdr) (d : Dst) (a b : SrcD) : Keeps (execCtxwNew h d a b) := by
  intro s t h e
  unfold execCtxwNew at e
  grind [ctxw_memOk, mem_threadRead, mem_globalAddr, mem_setContext, agentStore_memOk, foldl_memOk]

theorem execCtxwDel_keeps (h : Hdr) (d : Dst) (a b : SrcD) : Keeps (execCtxwDel h d a b) := by
  intro s t h e
  unfold execCtxwDel at e
  grind [ctxw_memOk, mem_invalidateAll]

theorem execCtxwQreg_keeps (h : Hdr) (d : Dst) (a b : SrcD) : Keeps (execCtxwQreg h d a b) := by
  intro s t h e
  unfold execCtxwQreg at e
  grind [ctxw_memOk, mem_threadRead]

theorem execCtxwQdel_keeps (h : Hdr) (d : Dst) (a b : SrcD) : Keeps (execCtxwQdel h d a b) := by
  intro s t h e
  unfold execCtxwQdel at e
  grind [ctxw_memOk]

theorem execCtxwPnew_keeps (h : Hdr) (d : Dst) (a b : SrcD) : Keeps (execCtxwPnew h d a b) := by
  intro s t h e
  unfold execCtxwPnew at e
  grind [ctxw_memOk]

theorem execCtxwPdel_keeps (h : Hdr) (d : Dst) (a b : SrcD) : Keeps (execCtxwPdel h d a b) := by
  intro s t h e
  unfold execCtxwPdel at e
  grind [ctxw_memOk]

theorem execCtxwQst_keeps (h : Hdr) (d : Dst) (a b : SrcD) : Keeps (execCtxwQst h d a b) := by
  intro s t h e
  unfold execCtxwQst at e
  grind [ctxw_memOk, mem_agentRead]

end Sys2Proof.Machine.State
end

section
/-! PROOFS. Memory under the operations and steps of Sys2Proof/Machine/Tob.lean. -/

namespace Sys2Proof.Machine.State

@[simp] theorem mem_modTob (s : State) (tm b : Nat) (f : Tob → Tob) : (s.modTob tm b f).mem = s.mem := by unfold modTob; split <;> rfl

@[simp] theorem mem_setTob (s : State) (tm b off : Nat) (bs : List Byte) : (s.setTob tm b off bs).mem = s.mem := by simp [setTob]

@[simp] theorem mem_taintRange (s : State) (tm b : Nat) : (s.taintRange tm b).mem = s.mem := by simp [taintRange, mem_freeIdx]

@[simp] theorem mem_freeTob (s : State) (tm b : Nat) : (s.freeTob tm b).mem = s.mem := by simp [freeTob]

@[simp] theorem mem_resetRing (s : State) (tm b : Nat) : (s.resetRing tm b).mem = s.mem := by simp [resetRing]

@[simp] theorem mem_wakeAll (s : State) (ts : List ThreadId) : (s.wakeAll ts).mem = s.mem := by simp [wakeAll]

theorem execTrsv_keeps (h : Hdr) (d : Dst) (b a : Nat) : Keeps (execTrsv h d b a) := by
  intro s t h e
  unfold execTrsv at e
  grind [teamOnce_memOk, mem_writeAll, mem_freeIdx, mem_modTeam]

theorem execTrel_keeps (h : Hdr) (b : Nat) : Keeps (execTrel h b) := by
  intro s t h e
  unfold execTrel at e
  grind [teamOnce_memOk, mem_stopThread, mem_freeTob, mem_foldl]

theorem execTrelDone_keeps (tm b : Nat) : Keeps (execTrelDone tm b) := by
  intro s t h e
  unfold execTrelDone at e
  grind [mem_wakeAll, mem_freeTob]

theorem execTrng_keeps (h : Hdr) (b : Nat) : Keeps (execTrng h b) := by
  intro s t h e
  unfold execTrng at e
  grind [teamOnce_memOk, mem_stopThread, mem_resetRing, mem_foldl]

theorem execTrngDone_keeps (tm b : Nat) : Keeps (execTrngDone tm b) := by
  intro s t h e
  unfold execTrngDone at e
  grind [mem_wakeAll, mem_resetRing]

theorem execTwr_keeps (h : Hdr) (b : Nat) (wide : Bool) (off val : SrcD) : Keeps (execTwr h b wide off val) := by
  intro s t h e
  unfold execTwr at e
  grind [control_memOk, mem_setTob, mem_taintRange]

theorem execTrd_keeps (h : Hdr) (d : Dst) (b : Nat) (wide : Bool) (off : SrcD) : Keeps (execTrd h d b wide off) := by
  intro s t h e
  unfold execTrd at e
  grind [control_memOk, mem_addPend]

theorem execTrdDelivery_keeps (t : ThreadId) : Keeps (execTrdDelivery t) := by
  intro s t h e
  unfold execTrdDelivery at e
  grind [settleThat_memOk]

end Sys2Proof.Machine.State
end

section
/-! PROOFS. Memory under the operations and steps of Sys2Proof/Machine/Matrix.lean. -/

namespace Sys2Proof.Machine.State

@[simp] theorem mem_finishOp (s : State) (n : Nat) (o : Op) (status res : Nat) : (s.finishOp n o status res).mem = s.mem := by simp [finishOp]

@[simp] theorem mem_postRecord (s : State) (k : Nat) (r : TrapRecord) : (s.postRecord k r).mem = s.mem := by simp [postRecord]

theorem writeBlock_memOk {s : State} (o : Op) (kdone fcause : Nat) (hm : s.MemOk) : (s.writeBlock o kdone fcause).MemOk := by
  unfold writeBlock
  grind [agentStore_memOk]

@[simp] theorem mem_remoteRead (s : State) (o : Op) (va : Dword) (n : Nat) : (s.remoteRead o va n).1.mem = s.mem := by
  unfold remoteRead
  grind [mem_agentRead]

theorem mem_readStretches (rd : State → Nat → Nat → State × Except Stop (List Byte)) (h : ∀ s a n, (rd s a n).1.mem = s.mem) (s : State) (xs : List (Nat × Nat)) :
    (readStretches s rd xs).1.mem = s.mem := by
  induction xs generalizing s with
  | nil => rfl
  | cons x xs ih => unfold readStretches; grind

theorem mem_readRow (s : State) (x : Opnd) (k kc : Nat) (elem scale : State → Nat → Nat → State × Except Stop (List Byte))
    (he : ∀ s a n, (elem s a n).1.mem = s.mem) (hs : ∀ s a n, (scale s a n).1.mem = s.mem) : (s.readRow x k kc elem scale).1.mem = s.mem := by
  unfold readRow; grind [mem_readStretches]

@[simp] theorem mem_remoteRows (s : State) (o : Op) (x : Opnd) (kc : Nat) (is : List Nat) : (s.remoteRows o x kc is).1.mem = s.mem := by
  induction is generalizing s with
  | nil => rfl
  | cons i is ih => unfold remoteRows; grind [mem_readRow, mem_remoteRead]

@[simp] theorem mem_fetchRows (s : State) (o : Op) (b : Bool) (x : Opnd) (kc : Nat) : (s.fetchRows o b x kc).1.mem = s.mem := by
  unfold fetchRows; split <;> simp

@[simp] theorem mem_stageFixed (s : State) (n : Nat) (o : Op) (a b : Opnd) : (s.stageFixed n o a b).1.mem = s.mem := by
  unfold stageFixed
  grind [mem_fetchRows, mem_setOp]

@[simp] theorem mem_addStaged (s : State) (n : Nat) (o : Op) (a b : Opnd) : (s.addStaged n o a b).1.mem = s.mem :=
  mem_foldl_fst _ _ _ fun _ _ _ => rfl

@[simp] theorem mem_runChunks (s : State) (n : Nat) (a b : Opnd) (k : Nat) (o : Op) : (s.runChunks n a b k o).1.mem = s.mem := by
  induction k generalizing s o with
  | zero => rfl
  | succ k ih => unfold runChunks; grind [mem_stageFixed, mem_addStaged]

@[simp] theorem mem_startOps (s : State) (c : CoreId) (n : Nat) : (s.startOps c n).mem = s.mem := by
  induction n generalizing s with
  | zero => rfl
  | succ n ih => unfold startOps; grind [mem_setOp, mem_modCore]

@[simp] theorem mem_startNext (s : State) (c : CoreId) : (s.startNext c).mem = s.mem := by simp [startNext]

theorem mmaFinish_memOk {s : State} (n : Nat) (o : Op) (status : Nat) (hm : s.MemOk) : (s.mmaFinish n o status).MemOk := by
  unfold mmaFinish
  grind [mem_startNext, mem_finishOp, writeBlock_memOk]

@[simp] theorem mem_returnTiles (s : State) (o : Op) (a b : Opnd) : (s.returnTiles o a b).mem = s.mem := by simp [returnTiles]

theorem consumeTile_memOk {s : State} (n : Nat) (o : Op) (a b : Opnd) (hm : s.MemOk) {s' : State} {zo : Op} (he : s.consumeTile n o a b = .ok (s', zo))
    : s'.MemOk := by
  unfold consumeTile at he
  grind [mem_stageFixed, mmaFinish_memOk, mem_modTob, mem_setOp, mem_addStaged]

theorem execMma_keeps (h : Hdr) (tok : Nat) (off : SrcD) : Keeps (execMma h tok off) := by
  intro s t h e
  unfold execMma at e
  grind [issueUnless_memOk, breakLease_memOk, defer_memOk, mem_tookReads, mem_freshId, mem_startToken]

theorem execMmaAccept_keeps (n : Nat) : Keeps (execMmaAccept n) := by
  intro s t h e
  unfold execMmaAccept at e
  grind [mem_finishOp, writeBlock_memOk, mem_startNext, mem_setOp]

theorem execStreamTileConsume_keeps (n : Nat) : Keeps (execStreamTileConsume n) := by
  intro s t h e
  unfold execStreamTileConsume at e
  grind [consumeTile_memOk, mem_startNext]

theorem execMmaComplete_keeps (n : Nat) : Keeps (execMmaComplete n) := by
  intro s t h e
  unfold execMmaComplete at e
  grind [mem_runChunks, mmaFinish_memOk]

theorem mmaStop_memOk {s : State} (n : Nat) (o : Op) (a b : Opnd) (f : AFault) (side : Bool) (hm : s.MemOk) : (s.mmaStop n o a b f side).MemOk := by
  unfold mmaStop
  grind [writeBlock_memOk, mem_returnTiles, agentStore_memOk, mem_postRecord, mem_startNext, mem_finishOp]

theorem execMmaFaultStop_keeps (n : Nat) : Keeps (execMmaFaultStop n) := by
  intro s t h e
  unfold execMmaFaultStop at e
  grind [mem_stageFixed, mem_runChunks, mmaStop_memOk]

@[simp] theorem mem_fenceArrays (s : State) (c : CoreId) (bad : Nat) : (s.fenceArrays c bad).mem = s.mem := by simp [fenceArrays]

@[simp] theorem mem_failProduct (s : State) (n : Nat) (o : Op) : (s.failProduct n o).mem = s.mem := by simp [failProduct]

@[simp] theorem mem_patternRun (s : State) (c : CoreId) (bad : Nat) : (s.patternRun c bad).mem = s.mem := by simp [patternRun]

@[simp] theorem mem_patternCalled (s : State) (c : CoreId) (bad : Nat) : (s.patternCalled c bad).mem = s.mem := by simp [patternCalled]

theorem execPatternProduct_keeps (c : CoreId) (bad : Nat) : Keeps (execPatternProduct c bad) := by
  intro s t h e
  unfold execPatternProduct at e
  grind [mem_patternRun, mem_patternCalled]

theorem execMwait_keeps (h : Hdr) : Keeps (execMwait h) := by
  intro s t h e
  unfold execMwait at e
  grind [issue_memOk, mem_stopThread, mem_endRunIf, mem_foldl]

theorem execMwaitEnd_keeps (tm : Nat) : Keeps (execMwaitEnd tm) := by
  intro s t h e
  unfold execMwaitEnd at e
  grind [mem_wakeAll]

theorem execMxr_keeps (h : Hdr) (fa fb : MxrFmt) (sat : Bool) (d a b : Nat) (deadA deadB : Bool) : Keeps (execMxr h fa fb sat d a b deadA deadB) := by
  intro s t h e
  unfold execMxr at e
  grind [issue_memOk, mem_modThread, mem_addPend, defer_memOk, foldl_prod_memOk, mem_foldl]

theorem execMxrWriteback_keeps (t : ThreadId) : Keeps (execMxrWriteback t) := by
  intro s t h e
  unfold execMxrWriteback at e
  grind [settleThat_memOk]

end Sys2Proof.Machine.State
end

section
/-! PROOFS. Memory under the operations and steps of Sys2Proof/Machine/Accum.lean. -/

namespace Sys2Proof.Machine.State

@[simp] theorem mem_setTile (s : State) (tm k : Nat) (x : Tile) : (s.setTile tm k x).mem = s.mem := by simp [setTile]

theorem mem_holdTile {s u : State} {tm : Nat} {ts : List ThreadId} {k : Nat} {pc : Dword} (e : s.holdTile tm ts k pc = some u) : u.mem = s.mem := by
  unfold holdTile at e; grind [mem_foldl, mem_modThread, mem_blockAt, freshId]

@[simp] theorem mem_leavePlace (s : State) (ts : List ThreadId) : (s.leavePlace ts).mem = s.mem := by
  unfold leavePlace; grind [mem_foldl, mem_modThread, mem_startNext]

theorem tileOnce_memOk {s : State} (i : Instr) (k : Nat) {f : State → Nat → ThreadId → List ThreadId → Dword → List Dword → State}
    (hf : ∀ s n t ts pc xs, s.MemOk → (f s n t ts pc xs).MemOk) (hm : s.MemOk) : (s.tileOnce i k f).MemOk := by
  refine teamOnceAfter_memOk i (fun s n ts pc u h e => ?_) (fun s n t ts pc xs h => ?_) hm
  · exact memOk_congr (mem_holdTile e) h
  · exact memOk_congr (mem_leavePlace _ _) (hf s n t ts pc xs h)

theorem execTileWaitEnd_keeps (t : ThreadId) : Keeps (execTileWaitEnd t) := by
  intro s t h e
  unfold execTileWaitEnd at e
  grind [mem_wakeAll]

theorem execAccz_keeps (h : Hdr) (k : Nat) : Keeps (execAccz h k) := by
  intro s t h e
  unfold execAccz at e
  grind [tileOnce_memOk, mem_setTile]

theorem accMove_memOk {s : State} (i : Instr) (kind : OpKind) (g : Bool) (k : Nat) (hm : s.MemOk) : (s.accMove i kind g k).MemOk := by
  unfold accMove
  grind [tileOnce_memOk, breakLease_memOk, defer_memOk, mem_freshId, mem_stopThread, mem_startOp, mem_foldl]

@[simp] theorem mem_accRead (s : State) (o : Op) (r : Nat) : (s.accRead o r).1.mem = s.mem := by
  unfold accRead
  grind [mem_remoteRead, mem_agentLoad]

theorem accWrite_memOk {s : State} (o : Op) (r : Nat) (bs : List Byte) (hm : s.MemOk) : (s.accWrite o r bs).1.MemOk := by
  unfold accWrite
  grind [vaWrite_memOk, agentStore_memOk]

@[simp] theorem mem_accReadAll (s : State) (o : Op) (rs : List Nat) : (s.accReadAll o rs).1.mem = s.mem := by
  induction rs generalizing s with
  | nil => rfl
  | cons r rs ih => unfold accReadAll; grind [mem_accRead]

theorem accWriteAll_memOk {s : State} (o : Op) (x : Tile) (rs : List Nat) (hm : s.MemOk) : (s.accWriteAll o x rs).1.MemOk := by
  induction rs generalizing s with
  | nil => exact hm
  | cons r rs ih => unfold accWriteAll; grind [accWrite_memOk]

theorem endMove_memOk {s : State} (n : Nat) (o : Op) (e : Option AFault) (hm : s.MemOk) : (s.endMove n o e).MemOk := by
  unfold endMove
  grind [mem_startNext, mem_wakeAll, defer_memOk]

theorem execAccMoveDone_keeps (n : Nat) : Keeps (execAccMoveDone n) := by
  intro s t h e
  unfold execAccMoveDone at e
  grind [mem_accReadAll, endMove_memOk, mem_setTile, accWriteAll_memOk]

theorem accRow_memOk {s : State} (i : Instr) (k : Nat) {f : State → State → ThreadId → Nat → State × Option Cause}
    (hf : ∀ s0 s t n, s.MemOk → (f s0 s t n).1.MemOk) (hm : s.MemOk) : (s.accRow i k f).MemOk := by
  refine issue_memOk i (fun s g pc h => ?_) _ hm
  refine memOk_congr (mem_leavePlace _ _) (foldl_prod_memOk _ _ (fun s t x h => ?_) (foldl_fst_memOk _ _ (fun s b a h => ?_) h))
  · grind [defer_memOk, mem_tookReads]
  · grind [mem_holdTile]

theorem execAccmvRd_keeps (h : Hdr) (d k : Nat) (r : SrcD) : Keeps (execAccmvRd h d k r) := by
  intro s t h e
  unfold execAccmvRd at e
  grind [accRow_memOk, mem_modThread]

theorem execAccmvWr_keeps (h : Hdr) (k a : Nat) (dead : Bool) (r : SrcD) : Keeps (execAccmvWr h k a dead r) := by
  intro s t h e
  unfold execAccmvWr at e
  grind [accRow_memOk, mem_setTile, mem_modThread]

end Sys2Proof.Machine.State
end

section
/-! PROOFS. Memory under the operations and steps of Sys2Proof/Machine/Engines.lean. -/

namespace Sys2Proof.Machine.State

theorem engineWord_memOk {s : State} (i : Instr) (kind : OpKind) (tok : Nat) (x : SrcD) (size : Option Nat) (hm : s.MemOk) :
    (s.engineWord i kind tok x size).MemOk := by
  refine issueUnless_memOk i _ (fun s g pc h => ?_) hm
  have start (u : State) (hu : u.MemOk) (t : ThreadId) (ty : OTy) (a : Dword) (b : List Byte) :
      (let v := u.tookReads t [(x, ty)]
       let (n, v) := v.freshId
       v.startToken n (v.newOp t kind tok a pc b)).MemOk :=
    memOk_congr ((mem_startToken _ _ _).trans ((mem_freshId _).trans (mem_tookReads _ _ _))) hu
  dsimp only
  split
  · exact h
  next t _ =>
  split
  · exact breakLease_memOk _ _ h
  split
  · exact defer_memOk _ _ h
  next a _ =>
  split
  · exact start s h _ _ _ _
  next z _ =>
  have h1 := mem_threadRead s t a z
  split
  · exact defer_memOk _ _ h
  split
  · split
    · next u _ _ _ hu => exact defer_memOk _ _ (memOk_congr (by rwa [hu] at h1) h)
    · next u bs hu => exact start u (memOk_congr (by rwa [hu] at h1) h) _ _ _ _
  split
  · exact defer_memOk _ _ h
  · exact start s h _ _ _ _

theorem putScr_memOk {s : State} (o : Op) (off : Nat) (bs : List Byte) (hm : s.MemOk) : (s.putScr o off bs).MemOk := by
  unfold putScr
  grind [agentStore_memOk, mem_modTeam]

theorem writeDesc_memOk {s : State} (o : Op) (at_ : Nat) (bs : List Byte) (hm : s.MemOk) : (s.writeDesc o at_ bs).MemOk := by
  unfold writeDesc
  split
  · exact toOption_getD_memOk (fun t e => vaWrite_memOk _ _ _ _ _ _ hm e) hm
  · exact putScr_memOk _ _ _ hm

@[simp] theorem mem_endRead (s : State) (o : Op) (e : State.End) (a : Dword) (n : Nat) : (s.endRead o e a n).1.mem = s.mem := by
  unfold endRead
  grind [mem_agentRead, mem_agentLoad]

theorem endWrite_memOk {s : State} (o : Op) (e : State.End) (a : Dword) (bs : List Byte) (hm : s.MemOk) : (s.endWrite o e a bs).1.MemOk := by
  unfold endWrite
  grind [vaWrite_memOk, agentStore_memOk, mem_setTob]

theorem writeDone_memOk {s : State} (o : Op) (hm : s.MemOk) : (s.writeDone o).MemOk := by
  unfold writeDone
  grind [writeDesc_memOk]

theorem endClean_memOk {s : State} (n : Nat) (o : Op) (status res : Nat) (hm : s.MemOk) : (s.endClean n o status res).MemOk := by
  unfold endClean
  grind [mem_finishOp, writeDesc_memOk, writeDone_memOk]

theorem endFault_memOk {s : State} (n : Nat) (o : Op) (f : AFault) (side res : Nat) (hm : s.MemOk) : (s.endFault n o f side res).MemOk := by
  unfold endFault
  grind [writeDone_memOk, writeDesc_memOk, mem_finishOp, mem_postRecord]

theorem execTokenComplete_keeps (n : Nat) : Keeps (execTokenComplete n) := by
  intro s t h e
  unfold execTokenComplete at e
  grind [mem_modThread, mem_clearTeam, mem_completeToken]

end Sys2Proof.Machine.State
end

section
/-! PROOFS. Memory under the operations and steps of Sys2Proof/Machine/Copy.lean. -/

namespace Sys2Proof.Machine.State

@[simp] theorem mem_acceptCpy (s : State) (n : Nat) (o : Op) : (s.acceptCpy n o).mem = s.mem := by simp [acceptCpy]

theorem cpyUnit_memOk {s : State} (o : Op) (x : CpyDesc) (dst : State.End) (i : Nat) (hm : s.MemOk) : (s.cpyUnit o x dst i).1.MemOk := by
  unfold cpyUnit
  grind [mem_endRead, endWrite_memOk]

theorem cpyRun_memOk {s : State} (x : CpyDesc) (dst : End) (step n : Nat) (o : Op) (hm : s.MemOk) : (s.cpyRun x dst step n o).1.MemOk := by
  induction n generalizing s o with
  | zero => exact hm
  | succ n ih => unfold cpyRun; grind [cpyUnit_memOk]

theorem cpyGo_memOk {s : State} (o : Op) (hm : s.MemOk) : (s.cpyGo o).1.MemOk := by
  unfold cpyGo
  grind [mem_taintRange, cpyRun_memOk]

@[simp] theorem mem_acceptCpyi (s : State) (n : Nat) (o : Op) : (s.acceptCpyi n o).mem = s.mem := by simp [acceptCpyi]

theorem addElem_memOk {s : State} (o : Op) (e : State.End) (fp : Bool) (a : Dword) (y : Nat) (hm : s.MemOk) : (s.addElem o e fp a y).1.MemOk := by
  unfold addElem
  grind [storePieces_memOk, mem_engineTouch, mem_endRead, agentStore_memOk]

theorem addElems_memOk {s : State} (o : Op) (e : End) (fp : Bool) (a : Dword) (ys : List Nat) (hm : s.MemOk) : (s.addElems o e fp a ys).1.MemOk := by
  induction ys generalizing s a with
  | nil => exact hm
  | cons y ys ih => unfold addElems; grind [addElem_memOk]

theorem cpyiRow_memOk {s : State} (o : Op) (i : Nat) (hm : s.MemOk) : (s.cpyiRow o i).1.MemOk := by
  unfold cpyiRow
  grind (splits := 14) [mem_endRead, endWrite_memOk, addElems_memOk]

theorem cpyiRun_memOk {s : State} (n : Nat) (o : Op) (hm : s.MemOk) : (s.cpyiRun n o).1.MemOk := by
  induction n generalizing s o with
  | zero => exact hm
  | succ n ih => unfold cpyiRun; grind [cpyiRow_memOk]

theorem copyGo_memOk {s : State} (o : Op) (hm : s.MemOk) : (s.copyGo o).1.MemOk := by
  unfold copyGo
  grind [cpyGo_memOk, cpyiRun_memOk]

theorem execCopyComplete_keeps (n : Nat) : Keeps (execCopyComplete n) := by
  intro s t h e
  unfold execCopyComplete at e
  grind [copyGo_memOk, endClean_memOk, mem_modTob]

theorem execRingProducerResume_keeps (n : Nat) : Keeps (execRingProducerResume n) := by
  intro s t h e
  unfold execRingProducerResume at e
  grind [mem_setOp]

end Sys2Proof.Machine.State
end

section
/-! PROOFS. Memory under the operations and steps of Sys2Proof/Machine/KvColl.lean. -/

namespace Sys2Proof.Machine.State

@[simp] theorem mem_modChan (s : State) (p k : Nat) (f : KvChan → KvChan) : (s.modChan p k f).mem = s.mem := by simp [modChan]

theorem endKvx_memOk {s : State} (n : Nat) (o : Op) (status : Nat) (hm : s.MemOk) : (s.endKvx n o status).MemOk := by
  unfold endKvx
  grind [endClean_memOk, mem_modChan]

@[simp] theorem mem_acceptKvx (s : State) (n : Nat) (o : Op) : (s.acceptKvx n o).mem = s.mem := by simp [acceptKvx]

theorem kvBlock_memOk {s : State} (o : Op) (hm : s.MemOk) : (s.kvBlock o).1.MemOk := by
  unfold kvBlock
  grind [mem_endRead, mem_freeIdx, endWrite_memOk]

theorem mem_acceptCgrp {s t : State} {n : Nat} {o : Op} (e : s.acceptCgrp n o = some t) : t.mem = s.mem := by
  unfold acceptCgrp at e; grind [mem_endRead, mem_finishOp, mem_postRecord, mem_setOp, freshId]

@[simp] theorem mem_finishAll (s : State) (ns : List Nat) (status res : Nat) : (s.finishAll ns status res).mem = s.mem := by
  unfold finishAll
  refine foldl_keep State.mem _ _ fun s x _ => ?_
  (repeat' split) <;> simp

@[simp] theorem mem_acceptFree (s : State) (n : Nat) (o : Op) : (s.acceptFree n o).mem = s.mem := by unfold acceptFree; simp only; split <;> simp

@[simp] theorem mem_acceptColl (s : State) (n : Nat) (o : Op) : (s.acceptColl n o).mem = s.mem := by
  unfold acceptColl
  grind [mem_finishOp, mem_setOp]

@[simp] theorem mem_collRead (s : State) (g : Group) (os : List (Nat × Op)) : (s.collRead g os).1.mem = s.mem := by
  refine mem_foldl_fst _ _ _ fun s b x => ?_
  grind [mem_endRead]

@[simp] theorem mem_dropCalls (s : State) (h : Nat) (ns : List Nat) : (s.dropCalls h ns).mem = s.mem := by unfold dropCalls; split <;> rfl

theorem execEngineAccept_keeps (n : Nat) : Keeps (execEngineAccept n) := by
  intro s t h e
  unfold execEngineAccept at e
  grind [mem_acceptCpy, mem_acceptCpyi, mem_acceptKvx, mem_acceptColl, mem_acceptCgrp, mem_acceptFree]

theorem execEngineFaultStop_keeps (n : Nat) : Keeps (execEngineFaultStop n) := by
  intro s t h e
  unfold execEngineFaultStop at e
  grind [copyGo_memOk, endFault_memOk, kvBlock_memOk, mem_modChan]

theorem execKvBlockAck_keeps (n : Nat) : Keeps (execKvBlockAck n) := by
  intro s t h e
  unfold execKvBlockAck at e
  grind [kvBlock_memOk, mem_setOp]

theorem execKvNotify_keeps (n : Nat) : Keeps (execKvNotify n) := by
  intro s t h e
  unfold execKvNotify at e
  grind [mem_setOp]

theorem execKvxComplete_keeps (n : Nat) : Keeps (execKvxComplete n) := by
  intro s t h e
  unfold execKvxComplete at e
  grind [endKvx_memOk]

theorem execKvPeerRefuse_keeps (n : Nat) : Keeps (execKvPeerRefuse n) := by
  intro s t h e
  unfold execKvPeerRefuse at e
  grind [endKvx_memOk]

theorem execKvChannelFail_keeps (p k : Nat) : Keeps (execKvChannelFail p k) := by
  intro s t h e
  unfold execKvChannelFail at e
  grind [mem_modChan, endKvx_memOk, foldl_prod_memOk]

theorem execKvq_keeps (h : Hdr) (d : Dst) (chan : SrcD) : Keeps (execKvq h d chan) := by
  intro s t h e
  unfold execKvq at e
  grind [issue_memOk, mem_writeSregs, laneEffect_memOk, foldl_prod_memOk]

theorem execKvqRefresh_keeps (c : CoreId) : Keeps (execKvqRefresh c) := by
  intro s t h e
  unfold execKvqRefresh at e
  grind [mem_modCore]

theorem execCollComplete_keeps (h : Nat) : Keeps (execCollComplete h) := by
  intro s t hm e
  unfold execCollComplete at e
  split at e
  · cases e
  · split at e
    · cases e
    · split at e
      · cases e
      · cases e
      · next g os _ _ _ u bufs hr =>
        have h1 : u.MemOk := memOk_congr (by have := mem_collRead s g os; rwa [hr] at this) hm
        cases e
        refine memOk_congr ((mem_finishAll _ _ _ _).trans (mem_dropCalls _ _ _)) ?_
        refine foldl_prod_memOk _ _ (fun s r x h => ?_) (memOk_congr (mem_recordPoint _ _) h1)
        dsimp only
        split
        · exact toOption_getD_memOk (fun t e => vaWrite_memOk _ _ _ _ _ _ h e) h
        · exact h

theorem execCollAbort_keeps (h : Nat) : Keeps (execCollAbort h) := by
  intro s t h e
  unfold execCollAbort at e
  grind [mem_finishAll, mem_dropCalls, mem_collRead, endFault_memOk, mem_finishOp, foldl_prod_memOk]

theorem execGroupBroken_keeps (h : Nat) : Keeps (execGroupBroken h) := by
  intro s t h e
  unfold execGroupBroken at e
  grind [mem_finishAll]

theorem execCgrpFormed_keeps (k : Nat) : Keeps (execCgrpFormed k) := by
  intro s t h e
  unfold execCgrpFormed at e
  grind [mem_finishAll]

theorem execCgrpTimeout_keeps (k : Nat) : Keeps (execCgrpTimeout k) := by
  intro s t h e
  unfold execCgrpTimeout at e
  grind [mem_finishAll]

theorem execKvPeerAccess_keeps (p k : Nat) (pull : Bool) (va : Dword) (bytes : List Byte) : Keeps (execKvPeerAccess p k pull va bytes) := by
  intro s t h e
  unfold execKvPeerAccess at e
  grind [mem_agentRead, vaWrite_memOk]

end Sys2Proof.Machine.State
end

section
/-! PROOFS. Memory under the operations and steps of Sys2Proof/Machine/Sched.lean. -/

namespace Sys2Proof.Machine.State

@[simp] theorem mem_loadContext (s : State) (c : CoreId) (ctx : Nat) : (s.loadContext c ctx).mem = s.mem := by simp [loadContext]

theorem mem_placeTeam (s : State) (n : Nat) (c : CoreId) : (s.placeTeam n c).mem = s.mem := by
  unfold placeTeam
  rw [mem_foldl_prod]
  · simp [freeIdx]
  · intro s k w
    exact mem_foldl _ _ _ fun _ _ => rfl

theorem mem_placeUnit {s t : State} {p d : Nat} {ns : List Nat} (e : s.placeUnit p d ns = some t) : t.mem = s.mem := by
  unfold placeUnit at e
  grind [mem_foldl_prod, mem_placeTeam, Option.map_eq_some_iff]

@[simp] theorem mem_makeTeams (s : State) (gid u : Nat) : (s.makeTeams gid u).1.mem = s.mem :=
  mem_foldl_fst _ _ _ fun _ _ _ => rfl

@[simp] theorem mem_handUnit (s : State) (gid u : Nat) : (s.handUnit gid u).1.mem = s.mem := by simp [handUnit]

@[simp] theorem mem_fillBobbin (s : State) (p d n : Nat) : (s.fillBobbin p d n).mem = s.mem := by
  induction n generalizing s with
  | zero => rfl
  | succ n ih => unfold fillBobbin; grind [mem_handUnit, mem_modDie]

@[simp] theorem mem_fillBobbins (s : State) (p : Nat) : (s.fillBobbins p).mem = s.mem := by simp [fillBobbins]

@[simp] theorem mem_giveList (s : State) (gid q : Nat) : (s.giveList gid q).mem = s.mem := by
  unfold giveList; grind [mem_foldl_prod, mem_modDie, mem_fillBobbins]

@[simp] theorem mem_passOn (s : State) (p : Nat) : (s.passOn p).mem = s.mem := by simp [passOn]

@[simp] theorem mem_splitGrid (s : State) (gid : Nat) : (s.splitGrid gid).mem = s.mem := by simp [splitGrid]

theorem mem_placeCoop {s t : State} {gid : Nat} (e : s.placeCoop gid = some t) : t.mem = s.mem := by
  refine foldl_bind_keeps (fun u => u.mem = s.mem) _ (fun u n v hu hv => ?_) _ _ (fun u hu => Option.some.inj hu ▸ rfl) t e
  dsimp only at hv
  obtain ⟨x, -, hx⟩ := List.exists_of_findSome?_eq_some hv
  grind [mem_makeTeams, mem_placeUnit]

@[simp] theorem mem_launchEv (s : State) (n p : Nat) (op : Option Nat) : (s.launchEv n p op).mem = s.mem := by simp [launchEv]

@[simp] theorem mem_acceptGrid (s : State) (g : Grid) (op : Option Nat) : (s.acceptGrid g op).1.mem = s.mem := by simp [acceptGrid]

theorem engineStore_memOk {s : State} (p ctx : Nat) (a v : Dword) (scp : Scope) (sig : List Nat) (hm : s.MemOk) : (s.engineStore p ctx a v scp sig).MemOk :=
  toOption_getD_memOk (fun _ e => vaWrite_memOk _ _ _ _ _ _ hm e) hm

theorem signalWrite_memOk {s : State} (p ctx : Nat) (a v : Dword) (scp : Scope) (sig : List Nat) (hm : s.MemOk) : (s.signalWrite p ctx a v scp sig).MemOk := by
  unfold signalWrite
  grind [engineStore_memOk]

theorem retireGrid_memOk {s : State} (n fuel : Nat) (hm : s.MemOk) : (s.retireGrid n fuel).MemOk := by
  induction fuel generalizing s n with
  | zero => exact hm
  | succ fuel ih =>
    unfold retireGrid
    dsimp only
    split
    · exact hm
    · have h1 := signalWrite_memOk (s.grid n).pkg (s.grid n).ctx (s.grid n).sigAddr (s.grid n).sigVal (scopeNum (s.grid n).sscope)
        (s.descendants s.grids.length [n]) hm
      grind [mem_setGrid, mem_modContext]

theorem closeWindow_memOk {s : State} (p : Nat) (w : Window) (hm : s.MemOk) : (s.closeWindow p w).MemOk := by
  have take (u : State) (hu : u.MemOk) (now : Nat) : (w.grids.foldl (fun (s : State) g => (s.modGrid g fun x => { x with acceptedAt := now }).splitGrid g)
      (u.modPkg p fun k => { k with accepted := k.accepted ++ w.grids })).MemOk := by
    refine foldl_memOk _ _ (fun s g h => ?_) (memOk_congr (mem_modPkg _ _ _) hu)
    exact memOk_congr ((mem_splitGrid _ _).trans (mem_modGrid _ _ _)) h
  unfold closeWindow
  split
  · exact hm
  · dsimp only
    split
    · exact take _ hm _
    · refine take _ (foldl_fst_memOk _ _ (fun s b x h => ?_) ?_) _
      · obtain ⟨j, gid⟩ := x
        dsimp only
        generalize hu : s.setGrid gid _ = u
        have h1 : u.MemOk := hu ▸ memOk_congr (mem_setGrid s _ _) h
        exact toOption_getD_memOk (fun t e => vaWrite_memOk _ _ _ _ _ _ h1 e) h1
      · dsimp only
        exact memOk_congr ((mem_modContext _ _ _).trans (mem_freshId s)) hm

theorem execLnch_keeps (h : Hdr) (tok : Nat) (off : SrcD) : Keeps (execLnch h tok off) := by
  intro s t h e
  unfold execLnch at e
  grind [issue_memOk, breakLease_memOk, defer_memOk, mem_tookReads, mem_freshId, mem_startToken, mem_modPkg]

theorem execLnchGridAccept_keeps (p : Nat) : Keeps (execLnchGridAccept p) := by
  intro s t h e
  unfold execLnchGridAccept at e
  grind [mem_modPkg, mem_finishOp, mem_freshId, mem_setGrid, mem_launchEv, mem_acceptGrid]

theorem execMergeWindowClose_keeps (p w : Nat) : Keeps (execMergeWindowClose p w) := by
  intro s t h e
  unfold execMergeWindowClose at e
  grind [closeWindow_memOk, mem_modPkg]

theorem execTeamPlace_keeps (p d : Nat) : Keeps (execTeamPlace p d) := by
  intro s t h e
  unfold execTeamPlace at e
  extract_lets +onlyGivenNames bob unitOf at e
  split at e
  next held found ef =>
  have h1 : ∀ ns u, found = some (ns, u) → u.mem = s.mem := by
    have := List.foldlRecOn (motive := fun acc : List Nat × Option (List Nat × State) => ∀ ns u, acc.2 = some (ns, u) → u.mem = s.mem) bob
      (fun (acc : List Nat × Option (List Nat × State)) n =>
        if acc.2.isSome || acc.1.contains (s.team n).grid then acc
        else match (if s.mayPlace p (s.team n).ctx then s.placeUnit p d (unitOf n) else none) with
          | some s' => (acc.1, some (unitOf n, s'))
          | none => ((s.team n).grid :: acc.1, none)) (b := ([], none)) (by simp) (fun acc ih n _ => by grind [mem_placeUnit])
    grind
  cases found with
  | some r => grind [mem_modDie, mem_passOn]
  | none =>
    dsimp only at e
    split at e
    · next g u hu =>
      obtain ⟨a, -, ha⟩ := List.exists_of_findSome?_eq_some hu
      grind [mem_modGrid, mem_modPkg, mem_placeCoop, Option.map_eq_some_iff]
    · cases e

@[simp] theorem mem_takeLoot (p d : Nat) (s : State) (x : State.Loot) : (takeLoot p d s x).mem = s.mem := by unfold takeLoot; split <;> simp

theorem execTeamSteal_keeps (p d : Nat) : Keeps (execTeamSteal p d) := by
  intro s t h e
  unfold execTeamSteal at e
  grind [mem_modDie, mem_takeLoot, mem_passOn, mem_foldl]

theorem execGridRetire_keeps (g : Nat) : Keeps (execGridRetire g) := by
  intro s t h e
  unfold execGridRetire at e
  grind [retireGrid_memOk]

end Sys2Proof.Machine.State
end

section
/-! PROOFS. Memory under the operations and steps of Sys2Proof/Machine/Pools.lean. -/

namespace Sys2Proof.Machine.State

@[simp] theorem mem_poolRecord (s : State) (t : ThreadId) (append : Bool) (size : Nat) (a : Dword) : (s.poolRecord t append size a).1.mem = s.mem := by
  unfold poolRecord
  grind [mem_threadRead, mem_globalAddr]

theorem poolWord_memOk {s : State} (i : Instr) (kind : OpKind) (tok : Nat) (srcs : List (SrcD × OTy)) (hm : s.MemOk) : (s.poolWord i kind tok srcs).MemOk := by
  unfold poolWord
  grind [issue_memOk, breakLease_memOk, defer_memOk, mem_poolRecord, mem_tookReads, mem_freshId, mem_startToken, mem_modPkg]

@[simp] theorem mem_gives (s : State) (p : Nat) (from_ : List Nat) (n : Nat) : (s.gives p from_ n).mem = s.mem := by simp [gives]

theorem deliverRecord_memOk {s : State} (n : Nat) (rec : List Byte) (left : Nat) (hm : s.MemOk) : (s.deliverRecord n rec left).MemOk := by
  unfold deliverRecord
  split
  · exact hm
  · split
    · exact memOk_congr (mem_finishOp _ _ _ _ _) (toOption_getD_memOk (fun t e => vaWrite_memOk _ _ _ _ _ _ hm e) hm)
    · exact memOk_congr (mem_finishOp _ _ _ _ _) (putScr_memOk _ _ _ hm)

@[simp] theorem mem_poolEnd (s : State) (n st res : Nat) : (s.poolEnd n st res).mem = s.mem := by
  unfold poolEnd; cases s.op n <;> simp

theorem mem_takeReq {s t : State} {p : Nat} {r : PoolReq} {k : OpKind} (e : s.takeReq p = some (r, k, t)) : t.mem = s.mem := by
  unfold takeReq at e; grind [mem_modPkg, Option.map_eq_some_iff]

@[simp] theorem mem_setPool (s : State) (n : Nat) (x : Pool) : (s.setPool n x).mem = s.mem := by simp [setPool]

theorem execPoolAppend_keeps (p : Nat) : Keeps (execPoolAppend p) := by
  intro s t h e
  unfold execPoolAppend at e
  grind [mem_takeReq, mem_poolEnd, mem_gives, deliverRecord_memOk, mem_setPool]

theorem execPoolClaim_keeps (p : Nat) : Keeps (execPoolClaim p) := by
  intro s t h e
  unfold execPoolClaim at e
  grind [mem_takeReq, mem_poolEnd, mem_gives, deliverRecord_memOk, mem_setPool]

theorem execPoolClose_keeps (p : Nat) : Keeps (execPoolClose p) := by
  intro s t h e
  unfold execPoolClose at e
  grind [mem_takeReq, mem_poolEnd, mem_gives, mem_setPool, mem_foldl]

end Sys2Proof.Machine.State
end

section
/-! PROOFS. Memory under the operations and steps of Sys2Proof/Machine/Traps.lean. -/

namespace Sys2Proof.Machine.State

@[simp] theorem mem_deliverTrap (s : State) (t : ThreadId) : (s.deliverTrap t).mem = s.mem := by unfold deliverTrap; split <;> simp

@[simp] theorem mem_deliverTraps (s : State) (w : WaveId) : (s.deliverTraps w).mem = s.mem := by simp [deliverTraps]

theorem tqWrite_memOk {s : State} (k off : Nat) (bs : List Byte) (e : Ev) (hm : s.MemOk) {s' : State} (he : s.tqWrite k off bs e = some s') : s'.MemOk := by
  unfold tqWrite at he
  grind [eq_ok_of_toOption, vaWrite_memOk]

theorem tqIndex_memOk {s : State} (k off n : Nat) (hm : s.MemOk) {s' : State} (he : s.tqIndex k off n = some s') : s'.MemOk := by
  unfold tqIndex at he
  grind [tqWrite_memOk]

@[simp] theorem mem_readCidx (s : State) (k : Nat) : (s.readCidx k).mem = s.mem := by
  unfold readCidx
  grind [mem_modContext, mem_agentRead]

theorem resumeThread_memOk {s : State} (t : ThreadId) (x : Trap) (act : Nat) (tpc : Dword) (hm : s.MemOk) : (s.resumeThread t x act tpc).MemOk := by
  unfold resumeThread
  grind [exitThread_memOk, mem_modThread, mem_wakeThread]

theorem command_memOk {s : State} (k act : Nat) (hm : s.MemOk) {s' : State} (he : s.command k act = .next s') : s'.MemOk := by
  unfold command at he
  split at he
  · cases he
  · split at he
    · cases he
    · dsimp only at he
      split at he
      · next hu =>
        cases he
        obtain ⟨v, hv, hu⟩ := Option.bind_eq_some_iff.mp hu
        refine tqIndex_memOk _ _ _ (tqWrite_memOk _ _ _ _ (memOk_congr (mem_modContext _ _ _) ?_) hv) hu
        grind [resumeThread_memOk, mem_modContext]
      · cases he

theorem execTrapDelivery_keeps (w : WaveId) : Keeps (execTrapDelivery w) := by
  intro s t h e
  unfold execTrapDelivery at e
  grind [mem_deliverTraps]

theorem execTrapRecordPost_keeps (k : Nat) : Keeps (execTrapRecordPost k) := by
  intro s t h e
  unfold execTrapRecordPost at e
  dsimp only at e
  repeat' split at e
  all_goals cases e
  next hu =>
    obtain ⟨v, hv, hu⟩ := Option.bind_eq_some_iff.mp hu
    exact memOk_congr (mem_setHpend _ _ _) (tqIndex_memOk _ _ _ (tqWrite_memOk _ _ _ _ (memOk_congr ((mem_recordPoint _ _).trans (mem_modContext _ _ _)) h) hv) hu)

theorem execTrapCmdFpc_keeps (k : Nat) : Keeps (execTrapCmdFpc k) := by
  intro s t h e
  unfold execTrapCmdFpc at e
  grind [command_memOk]

theorem execTrapCmdNpc_keeps (k : Nat) : Keeps (execTrapCmdNpc k) := by
  intro s t h e
  unfold execTrapCmdNpc at e
  grind [command_memOk]

theorem execTrapCmdRentry_keeps (k : Nat) : Keeps (execTrapCmdRentry k) := by
  intro s t h e
  unfold execTrapCmdRentry at e
  grind [command_memOk]

theorem execTrapCmdTpc_keeps (k : Nat) : Keeps (execTrapCmdTpc k) := by
  intro s t h e
  unfold execTrapCmdTpc at e
  grind [command_memOk]

theorem execTrapCmdExit_keeps (k : Nat) : Keeps (execTrapCmdExit k) := by
  intro s t h e
  unfold execTrapCmdExit at e
  grind [command_memOk]

theorem execTrapCidxReread_keeps (k : Nat) : Keeps (execTrapCidxReread k) := by
  intro s t h e
  unfold execTrapCidxReread at e
  grind [mem_readCidx]

end Sys2Proof.Machine.State
end

section
/-! PROOFS. Memory under the operations and steps of Sys2Proof/Machine/Queues.lean. -/

namespace Sys2Proof.Machine.State

@[simp] theorem mem_setQueue (s : State) (n : Nat) (q : Queue) : (s.setQueue n q).mem = s.mem := by simp [setQueue]

@[simp] theorem mem_engineLoad (s : State) (q : Queue) (va : Dword) (n : Nat) (scp : Scope) : (s.engineLoad q va n scp).1.mem = s.mem := by simp [engineLoad]

theorem consume_memOk {s : State} (n : Nat) (q : Queue) (hm : s.MemOk) : (s.consume n q).MemOk := by
  unfold consume
  grind [engineStore_memOk, mem_setQueue]

theorem refusePacket_memOk {s : State} (n : Nat) (q : Queue) (bs : List Byte) (st : Nat) (hm : s.MemOk) : (s.refusePacket n q bs st).MemOk := by
  unfold refusePacket
  grind [consume_memOk, signalWrite_memOk]

@[simp] theorem mem_readQueue (s : State) (n : Nat) : (s.readQueue n).mem = s.mem := by
  unfold readQueue
  grind [mem_engineLoad, mem_setHpend, mem_setQueue]

@[simp] theorem mem_mapQueue (s : State) (n : Nat) : (s.mapQueue n).mem = s.mem := by
  unfold mapQueue
  grind [mem_modPkg, mem_setQueue]

theorem execQueuePacketLaunch_keeps (n : Nat) : Keeps (execQueuePacketLaunch n) := by
  intro s t h e
  unfold execQueuePacketLaunch at e
  grind [mem_engineLoad, refusePacket_memOk, mem_setQueue, mem_acceptGrid, consume_memOk]

theorem execQueuePacketWait_keeps (n : Nat) : Keeps (execQueuePacketWait n) := by
  intro s t h e
  unfold execQueuePacketWait at e
  grind [mem_engineLoad, refusePacket_memOk, consume_memOk, mem_setQueue]

theorem execWaitPacketRecheck_keeps (n : Nat) : Keeps (execWaitPacketRecheck n) := by
  intro s t h e
  unfold execWaitPacketRecheck at e
  grind [mem_setQueue, mem_engineLoad, consume_memOk]

theorem execQueuePacketSignal_keeps (n : Nat) : Keeps (execQueuePacketSignal n) := by
  intro s t h e
  unfold execQueuePacketSignal at e
  grind [mem_engineLoad, consume_memOk, signalWrite_memOk]

theorem execNotifyWake_keeps (p : Nat) : Keeps (execNotifyWake p) := by
  intro s t h e
  unfold execNotifyWake at e
  grind [mem_modPkg, mem_readCidx, mem_mapQueue, mem_readQueue, mem_foldl]

theorem execQueueReread_keeps (n : Nat) : Keeps (execQueueReread n) := by
  intro s t h e
  unfold execQueueReread at e
  grind [mem_readQueue, mem_setQueue]

theorem execQueueUnmap_keeps (n : Nat) : Keeps (execQueueUnmap n) := by
  intro s t h e
  unfold execQueueUnmap at e
  grind [mem_readQueue, mem_setQueue]

theorem execLotteryDraw_keeps (p : Nat) : Keeps (execLotteryDraw p) := by
  intro s t h e
  unfold execLotteryDraw at e
  grind [mem_modPkg, mem_setQueue, mem_foldl_prod]

end Sys2Proof.Machine.State
end

section
/-! PROOFS. Memory under the operations and steps of Sys2Proof/Machine/Spool.lean. -/

namespace Sys2Proof.Machine.State

theorem spoolWrite_memOk {s : State} (k : Nat) (va : Dword) (bs : List Byte) (e : Ev) (hm : s.MemOk) : (s.spoolWrite k va bs e).MemOk :=
  toOption_getD_memOk (fun _ e => vaWrite_memOk _ _ _ _ _ _ hm e) hm

theorem markRun_memOk {s : State} (k first n : Nat) (used : Bool) (hm : s.MemOk) : (s.markRun k first n used).MemOk := by
  unfold markRun
  grind [spoolWrite_memOk, foldl_memOk]

theorem claimSpool_memOk {s : State} (k size : Nat) (hm : s.MemOk) {f n : Nat} {s' : State} (he : s.claimSpool k size = some (f, n, s')) : s'.MemOk := by
  unfold claimSpool at he
  grind [Option.bind_eq_some_iff, markRun_memOk]

theorem freeSpool_memOk {s : State} (k base : Nat) (hm : s.MemOk) : (s.freeSpool k base).MemOk := by
  unfold freeSpool
  grind [markRun_memOk]

end Sys2Proof.Machine.State
end

section
/-! PROOFS. Memory under the operations and steps of Sys2Proof/Machine/Preempt.lean. -/

namespace Sys2Proof.Machine.State

theorem drainTeam_memOk {s : State} (n : Nat) (hm : s.MemOk) : (s.drainTeam n).MemOk := by
  unfold drainTeam
  grind [mem_endRun, settle_memOk, foldl_memOk]

theorem finishMoves_memOk {s : State} (n : Nat) (hm : s.MemOk) {s' : State} (he : s.finishMoves n = some s') : s'.MemOk := by
  refine foldl_bind_keeps State.MemOk (fun s (a : Nat × Op) => match execAccMoveDone a.1 s with | .next s => some s | _ => none) (fun s a t h e => ?_) _ _
    (fun u hu => Option.some.inj hu ▸ hm) s' he
  have h1 := execAccMoveDone_keeps a.1 s
  grind

theorem breakForPreempt_memOk {s : State} (t : ThreadId) (hm : s.MemOk) : (s.breakForPreempt t).MemOk := by
  unfold breakForPreempt
  grind [mem_modThread, mem_wakeThread, dropLease_memOk]

theorem finishTiles_memOk {s : State} (k d : Nat) (a b : Opnd) (n : Nat) (o : Op) (hm : s.MemOk) : (s.finishTiles k d a b n o).1.MemOk := by
  induction n generalizing s o with
  | zero => exact hm
  | succ n ih => unfold finishTiles; grind [consumeTile_memOk]

theorem finishChunk_memOk {s : State} (k : Nat) (hm : s.MemOk) : (s.finishChunk k).MemOk := by
  unfold finishChunk
  split
  · next o a b _ =>
    have h1 := finishTiles_memOk k o.done a b 33 o hm
    have h2 := mem_stageFixed s k o a b
    split
    · exact hm
    · split
      · grind [mem_setOp, mem_returnTiles]
      · grind [mem_addStaged, mmaFinish_memOk]
  · exact hm

/-- What a pre-emption does before it saves a team: its moves, its leases and its matrix chunks end (R410). -/
theorem stopTeam_memOk {s : State} (n : Nat) (quiesce : Bool) (hm : s.MemOk) {s' : State} (he : s.stopTeam n quiesce = some s') : s'.MemOk := by
  unfold stopTeam at he
  dsimp only at he
  split at he
  · cases he
  · obtain ⟨u, hu, he⟩ := Option.bind_eq_some_iff.mp he
    have h1 : u.MemOk := finishMoves_memOk n (drainTeam_memOk n hm) hu
    have h2 := foldl_memOk breakForPreempt (u.teamThreads n) (fun s t h => breakForPreempt_memOk t h) h1
    split at he
    · cases he
    · cases he
      refine foldl_memOk _ _ (fun s w h => memOk_congr (mem_deliverTraps s w) h) ?_
      split
      · refine foldl_memOk _ _ (fun s t h => ?_) (foldl_memOk _ _ (fun s k h => finishChunk_memOk k h) h2)
        split
        · exact h
        · exact memOk_congr (mem_recordTrap _ _ _) h
      · exact foldl_memOk _ _ (fun s k h => finishChunk_memOk k h) h2

@[simp] theorem mem_forgetContext (s : State) (c : CoreId) (ctx : Nat) : (s.forgetContext c ctx).mem = s.mem := by simp [forgetContext]

theorem saveTeam_memOk {s : State} (n first pages : Nat) (hold : Bool) (hm : s.MemOk) : (s.saveTeam n first pages hold).MemOk := by
  unfold saveTeam
  extract_lets +onlyGivenNames x base ths poison traps s1 s2 s3 s4 s5 s6
  have h1 : s1.MemOk := foldl_prod_memOk _ _ (fun s off bs h => spoolWrite_memOk _ _ _ _ h) hm
  have h5 : s5.MemOk := by
    refine foldl_memOk _ _ (fun s w h => ?_) (show s4.MemOk from memOk_congr (t := s4) (show s4.mem = s2.mem from mem_modContext s2 x.ctx (fun c =>
        { c with spooledTraps := traps.foldl (fun m (q, tr) => Map.set m q tr) c.spooledTraps })) h1)
    exact h
  exact memOk_congr (by simp only [mem_startNext, mem_forgetContext, mem_modPkg]; rfl) h5

@[simp] theorem mem_stopIssue (s : State) (ns : List Nat) : (s.stopIssue ns).mem = s.mem := by
  unfold stopIssue
  refine foldl_keep State.mem _ _ fun s x _ => ?_
  simp

@[simp] theorem mem_refusePreempt (s : State) (n : Nat) : (s.refusePreempt n).mem = s.mem := by
  unfold refusePreempt
  refine foldl_keep State.mem _ _ fun s x _ => ?_
  simp

/-- A restore writes no memory but the held bytes of the team's scratchpad and what the commands that came meanwhile do. -/
theorem restoreOn_memOk {s : State} (n : Nat) (c : CoreId) (hm : s.MemOk) {s' : State} (he : s.restoreOn n c = some s') : s'.MemOk := by
  unfold restoreOn at he
  extract_lets +onlyGivenNames x k at he
  split at he
  · extract_lets +onlyGivenNames base rd ws tobs scr acc at he
    split at he
    · cases he
    · obtain ⟨bases, -, rfl⟩ := Option.map_eq_some_iff.mp he
      extract_lets +onlyGivenNames now ops recs scrOff accOff old s1 slot ids regs
      split
      next seed s2 e2 =>
      have h2 : s2.MemOk := memOk_congr (by have := mem_freeIdx s1; rwa [e2] at this) (memOk_congr (mem_loadContext s c k) hm)
      extract_lets +onlyGivenNames tiles handles waves parked s3 s4
      have h4 : s4.MemOk := memOk_congr ((mem_modCore s3 _ _).trans (mem_setTeam s2 _ _)) h2
      split
      next s5 r e5 =>
      have h5 : s5.MemOk := by
        change (s5, r).1.MemOk
        rw [← e5]
        refine foldl_fst_memOk _ _ (fun u b y h => ?_) h4
        dsimp only
        refine foldl_prod_memOk _ _ (fun v t th h => ?_) (memOk_congr (mem_setWave _ _ _) h)
        exact memOk_congr ((mem_recordPoint _ _).trans (mem_setThread _ _ _)) h
      extract_lets +onlyGivenNames waveOf s6 s7 s8 qs later s9
      have h6 : s6.MemOk := foldl_memOk _ _ (fun s a h => memOk_congr (mem_setOp _ _ _) h) h5
      have h7 : s7.MemOk := h6
      have h8 : s8.MemOk := foldl_prod_memOk _ _ (fun s a b h => agentStore_memOk _ _ _ h) h7
      have h9 : s9.MemOk := memOk_congr (mem_modContext s8 _ _) h8
      refine memOk_congr (mem_startNext _ _) (foldl_prod_memOk _ _ (fun s q a h => ?_) h9)
      dsimp only
      split
      · next t _ =>
        cases (s.thread t).trap with
        | none => exact h
        | some tr => exact resumeThread_memOk _ _ _ _ h
      · exact h
  · cases he

theorem restoreUnit_memOk {s : State} (ns : List Nat) (hm : s.MemOk) {s' : State} (he : s.restoreUnit ns = some s') : s'.MemOk := by
  cases ns with
  | nil => exact Option.some.inj he ▸ hm
  | cons n ns =>
    obtain ⟨⟨p, d⟩, -, he⟩ := List.exists_of_findSome?_eq_some he
    dsimp only at he
    split at he
    · obtain ⟨q, -, he⟩ := List.exists_of_findSome?_eq_some he
      exact foldl_bind_keeps State.MemOk (fun s m => s.restoreOn m ⟨p, d, 32 * q + ((s.team m).clusterSlot.getD 0)⟩) (fun s m t h e => restoreOn_memOk _ _ h e) _ _
        (fun v hv => Option.some.inj hv ▸ hm) s' he
    · split at he
      · cases he
      · exact restoreOn_memOk _ _ hm he

theorem restoreSet_memOk {s : State} (us : List (List Nat)) (hm : s.MemOk) {s' : State} (he : s.restoreSet us = some s') : s'.MemOk := by
  induction us generalizing s with
  | nil => exact Option.some.inj he ▸ hm
  | cons u us ih =>
    obtain ⟨v, hv, he⟩ := Option.bind_eq_some_iff.mp he
    exact ih (restoreUnit_memOk u hm hv) he

theorem awaitPreempt_memOk {s : State} (ns : List Nat) (hm : s.MemOk) {s' : State} (he : awaitPreempt s ns = .next s') : s'.MemOk := by
  unfold awaitPreempt at he
  grind [mem_stopIssue]

/-- A pre-emption stops its teams, claims spool pages and writes the images there. -/
theorem preemptTeams_memOk {s : State} (ns : List Nat) (quiesce hold : Bool) (hm : s.MemOk) {s' : State} (he : s.preemptTeams ns quiesce hold = .saved s')
    : s'.MemOk := by
  unfold preemptTeams at he
  split at he
  · cases he
  · next u hu =>
    have h1 : u.MemOk := foldl_bind_keeps State.MemOk _ (fun s n t h e => stopTeam_memOk n quiesce h e) _ _ (fun v hv => Option.some.inj hv ▸ hm) u hu
    split at he
    · cases he
    · dsimp only at he
      split at he
      · cases he
      · next cs v hv =>
        have h2 : v.MemOk := by
          refine foldl_bind_snd_keeps State.MemOk (fun cs s n => (s.claimSpool (s.team n).ctx (s.image n).2).map fun x => (cs ++ [(n, x.1, x.2.1)], x.2.2))
            (fun b s a c t h e => ?_) ns (some ([], u)) (fun b s e => ?_) cs v hv
          · obtain ⟨⟨f, k, w⟩, hw, e⟩ := Option.map_eq_some_iff.mp e
            cases e
            exact claimSpool_memOk _ _ h hw
          · cases e; exact h1
        split at he
        · cases he
        · cases he
          exact foldl_prod_memOk _ _ (fun s n x h => saveTeam_memOk n x.1 x.2 hold h) h2

theorem execPreempt_keeps (tm : Nat) : Keeps (execPreempt tm) := by
  intro s t h e
  unfold execPreempt at e
  grind [preemptTeams_memOk, mem_refusePreempt, awaitPreempt_memOk]

theorem execRestore_keeps (ctx image : Nat) : Keeps (execRestore ctx image) := by
  intro s t h e
  unfold execRestore at e
  grind [mem_modTeam, restoreSet_memOk]

theorem execSpoolFree_keeps (ctx image : Nat) : Keeps (execSpoolFree ctx image) := by
  intro s t h e
  unfold execSpoolFree at e
  grind [freeSpool_memOk]

@[simp] theorem mem_takeFreed (s : State) (c : CoreId) (ns : List Nat) : (s.takeFreed c ns).mem = s.mem := by
  unfold takeFreed
  dsimp only
  split
  · rfl
  · next t ms e =>
    obtain ⟨n, -, e⟩ := List.exists_of_findSome?_eq_some e
    grind [mem_placeTeam, mem_placeUnit, Option.map_eq_some_iff]

theorem execAncestorPreempt_keeps (tm : Nat) : Keeps (execAncestorPreempt tm) := by
  intro s t h e
  unfold execAncestorPreempt at e
  grind [preemptTeams_memOk, mem_refusePreempt, awaitPreempt_memOk, mem_takeFreed]

theorem execRackStop_keeps (p ctx epoch : Nat) : Keeps (execRackStop p ctx epoch) := by
  intro s t h e
  unfold execRackStop at e
  grind [mem_modContext]

theorem execRackDrainEnd_keeps (p ctx : Nat) : Keeps (execRackDrainEnd p ctx) := by
  intro s t h e
  unfold execRackDrainEnd at e
  grind [preemptTeams_memOk, mem_refusePreempt, mem_modContext, mem_foldl]

theorem execStopped_keeps (p ctx : Nat) : Keeps (execStopped p ctx) := by
  intro s t h e
  unfold execStopped at e
  grind [mem_modContext]

theorem execResume_keeps (p ctx epoch : Nat) : Keeps (execResume p ctx epoch) := by
  intro s t h e
  unfold execResume at e
  grind [mem_recordPoint, mem_modContext]

end Sys2Proof.Machine.State
end

section
/-! PROOFS. Memory under the operations and steps of Sys2Proof/Machine/Directory.lean. -/

namespace Sys2Proof.Machine.State

@[simp] theorem mem_dirSet (s : State) (p d base : Nat) (e : DirEntry) : (s.dirSet p d base e).mem = s.mem := by simp [dirSet]

@[simp] theorem mem_dirErase (s : State) (p d base : Nat) : (s.dirErase p d base).mem = s.mem := by simp [dirErase]

@[simp] theorem mem_dirSplit (s : State) (p d line n : Nat) : (s.dirSplit p d line n).mem = s.mem := by
  induction n generalizing s with
  | zero => rfl
  | succ n ih => unfold dirSplit; grind [mem_dirSet]

@[simp] theorem mem_probe (s : State) (p d line size : Nat) (kind : MsgKind) (dsts : List Agent) (ackTo : Agent) :
    (s.probe p d line size kind dsts ackTo).mem = s.mem := by simp [probe]

theorem mem_arrived {s t : State} {n : Nat} {k : MsgKind} {m : Msg} (e : s.arrived n k = some (m, t)) : t.mem = s.mem := by
  unfold arrived at e; grind [dropMsg]

@[simp] theorem mem_heatNotify (s : State) (p pa key q count : Nat) : (s.heatNotify p pa key q count).mem = s.mem := by simp [heatNotify]

@[simp] theorem mem_heatCount (s : State) (p d : Nat) (m : Msg) : (s.heatCount p d m).mem = s.mem := by simp [heatCount]

@[simp] theorem mem_wakeLine (s : State) (p : Nat) (m : Msg) : (s.wakeLine p m).mem = s.mem := by simp [wakeLine]

@[simp] theorem mem_grantMsg (s : State) (p d : Nat) (m : Msg) (st : L1St) (acks : Nat) : (s.grantMsg p d m st acks).mem = s.mem := by simp [grantMsg]

@[simp] theorem mem_answer (s : State) (p d : Nat) (m : Msg) : (s.answer p d m).mem = s.mem := by unfold answer; split <;> rfl

theorem finishTrans_memOk {s : State} (p d base : Nat) (e : DirEntry) (t : Trans) (keep : Option CoreId) (hm : s.MemOk) :
    (s.finishTrans p d base e t keep).MemOk := by
  unfold finishTrans
  grind [mem_grantMsg, mem_dirSet, mem_wakeLine, mem_answer, mergeLast_memOk, mem_dirErase, foldl_memOk]

theorem serveAt_memOk {s : State} (p d base : Nat) (e : DirEntry) (m : Msg) (hm : s.MemOk) : (s.serveAt p d base e m).MemOk := by
  unfold serveAt
  grind [mem_dirSet, mem_probe, finishTrans_memOk, mem_grantMsg, mem_wakeLine]

theorem evictEntry_memOk {s : State} (p d base : Nat) (e : DirEntry) (hm : s.MemOk) : (s.evictEntry p d base e).MemOk := by
  unfold evictEntry
  grind [serveAt_memOk]

@[simp] theorem mem_notice (s : State) (p d : Nat) (m : Msg) : (s.notice p d m).mem = s.mem := by
  unfold notice
  grind [mem_send, mem_dirSplit, mem_dirSet]

theorem arriveAt_memOk {s : State} (p d : Nat) (m : Msg) (hm : s.MemOk) : (s.arriveAt p d m).MemOk := by
  unfold arriveAt
  grind [mem_send, serveAt_memOk, mem_dirSet, mem_notice, mem_dirSplit]

@[simp] theorem mem_holdFrozen (s : State) (p d : Nat) (m : Msg) (f : Frozen) : (s.holdFrozen p d m f).mem = s.mem := by simp [holdFrozen]

theorem recallHolders_memOk {s : State} (p d : Nat) (is : Nat → Bool) (hm : s.MemOk) : (s.recallHolders p d is).MemOk := by
  unfold recallHolders
  grind [serveAt_memOk, foldl_prod_memOk]

theorem serveWaiting_memOk {s : State} (p d : Nat) (m : Msg) (hm : s.MemOk) : (s.serveWaiting p d m).MemOk := by
  unfold serveWaiting
  grind [mem_holdFrozen, arriveAt_memOk, mem_send]

theorem drainEntry_memOk {s : State} (p d line : Nat) (hm : s.MemOk) : (s.drainEntry p d line).MemOk := by
  unfold drainEntry
  grind [mem_dirSet, serveWaiting_memOk, recallHolders_memOk, foldl_memOk]

theorem replyCome_memOk {s : State} (p d line : Nat) (keep : Option CoreId) (a : Agent) (hm : s.MemOk) : (s.replyCome p d line keep a).MemOk := by
  unfold replyCome
  grind [drainEntry_memOk, finishTrans_memOk, mem_dirSet]

theorem requestAt_memOk {s : State} (p d : Nat) (m : Msg) (hm : s.MemOk) : (s.requestAt p d m).MemOk := by
  unfold requestAt
  grind [mem_send, mem_heatCount, mem_dirSet, mem_holdFrozen, mem_modDie, arriveAt_memOk]

theorem mem_l1Room {s t : State} {c : CoreId} {line : Nat} (e : s.l1Room c line = some t) : t.mem = s.mem := by
  unfold l1Room at e; grind [mem_evictLine, mem_freeIdx]

@[simp] theorem mem_tryComplete (s : State) (c : CoreId) (line : Nat) : (s.tryComplete c line).mem = s.mem := by
  unfold tryComplete; grind [mem_l1Room, mem_modCore, mem_modPkg, mem_send, mem_accessDone, mem_sendReq, mem_grantLeases]

@[simp] theorem mem_completeMisses (s : State) (c : CoreId) : (s.completeMisses c).mem = s.mem := by simp [completeMisses]

@[simp] theorem mem_wakeSigw (s : State) (c : CoreId) (ls : List Nat) : (s.wakeSigw c ls).mem = s.mem := by
  unfold wakeSigw
  refine foldl_keep State.mem _ _ fun s x _ => ?_
  (repeat' split) <;> simp

theorem mem_probeAt (s : State) (c : CoreId) (m : Msg) {reply : State → State} (hr : ∀ s, (reply s).mem = s.mem) : (s.probeAt c m reply).mem = s.mem := by
  unfold probeAt
  dsimp only
  split
  · split
    · exact mem_modCore _ _ _
    · exact mem_send _ _
  · exact (mem_wakeSigw _ _ _).trans (hr s)

@[simp] theorem mem_recallAt (s : State) (c : CoreId) (m : Msg) : (s.recallAt c m).mem = s.mem := by simp [recallAt]

@[simp] theorem mem_sendAck (s : State) (src : Agent) (m : Msg) (now : Nat) : (s.sendAck src m now).mem = s.mem := by simp [sendAck]

theorem withRoom_memOk {s : State} (p d : Nat) (m : Msg) {next : State} (hn : next.MemOk) (hm : s.MemOk) {s' : State} (he : s.withRoom p d m next = .next s')
    : s'.MemOk := by
  unfold withRoom at he
  grind [evictEntry_memOk]

theorem atHome_memOk {s0 : State} (n : Nat) (kind : MsgKind) (hm : s0.MemOk) {s' : State} (he : s0.atHome n kind = .next s') : s'.MemOk := by
  unfold atHome at he
  grind [mem_arrived, requestAt_memOk, withRoom_memOk]

theorem noticeAt_memOk {s0 : State} (n : Nat) (kind : MsgKind) (hm : s0.MemOk) {s' : State} (he : s0.noticeAt n kind = .next s') : s'.MemOk := by
  unfold noticeAt at he
  grind [mem_arrived, withRoom_memOk, drainEntry_memOk, arriveAt_memOk]

theorem execGets_keeps (m : Nat) : Keeps (execGets m) := by
  intro s t h e
  unfold execGets at e
  grind [atHome_memOk]

theorem execGetm_keeps (m : Nat) : Keeps (execGetm m) := by
  intro s t h e
  unfold execGetm at e
  grind [atHome_memOk]

theorem execGete_keeps (m : Nat) : Keeps (execGete m) := by
  intro s t h e
  unfold execGete at e
  grind [atHome_memOk]

theorem execStm_keeps (m : Nat) : Keeps (execStm m) := by
  intro s t h e
  unfold execStm at e
  grind [atHome_memOk]

theorem execAtm_keeps (m : Nat) : Keeps (execAtm m) := by
  intro s t h e
  unfold execAtm at e
  grind [atHome_memOk]

theorem execPuts_keeps (m : Nat) : Keeps (execPuts m) := by
  intro s t h e
  unfold execPuts at e
  grind [noticeAt_memOk]

theorem execPuto_keeps (m : Nat) : Keeps (execPuto m) := by
  intro s t h e
  unfold execPuto at e
  grind [noticeAt_memOk]

theorem execWbs_keeps (m : Nat) : Keeps (execWbs m) := by
  intro s t h e
  unfold execWbs at e
  grind [noticeAt_memOk]

theorem execPack_keeps (n : Nat) : Keeps (execPack n) := by
  intro s t h e
  unfold execPack at e
  grind [mem_arrived, mem_completeMisses, mem_cacheWork, mem_modCore]

theorem execInv_keeps (n : Nat) : Keeps (execInv n) := by
  intro s t h e
  unfold execInv at e
  split at e
  · next m u hu =>
    have h1 : u.MemOk := memOk_congr (mem_arrived hu) h
    split at e
    · cases e
      refine memOk_congr (mem_probeAt _ _ _ fun s => ?_) h1
      exact (mem_sendAck _ _ _ _).trans (mem_modCore _ _ _)
    · grind [mem_sendAck, mem_foldl, mem_modPkg, mem_send]
    · cases e
  · cases e

theorem execRecallS_keeps (n : Nat) : Keeps (execRecallS n) := by
  intro s t h e
  unfold execRecallS at e
  grind [mem_arrived, mem_probeAt, mem_recallAt]

theorem execRecallI_keeps (n : Nat) : Keeps (execRecallI n) := by
  intro s t h e
  unfold execRecallI at e
  grind [mem_arrived, mem_probeAt, mem_recallAt]

theorem execRecallReply_keeps (n : Nat) : Keeps (execRecallReply n) := by
  intro s t h e
  unfold execRecallReply at e
  grind [mem_arrived, replyCome_memOk]

theorem execAck_keeps (n : Nat) : Keeps (execAck n) := by
  intro s t h e
  unfold execAck at e
  grind [mem_arrived, mem_tryComplete, mem_modCore, replyCome_memOk, mem_modPkg, mem_send]

theorem execGrant_keeps (n : Nat) : Keeps (execGrant n) := by
  intro s t h e
  unfold execGrant at e
  grind [mem_arrived, mem_modCore, mem_modThread, mem_tryComplete, mem_send, foldl_prod_memOk]

theorem execDone_keeps (n : Nat) : Keeps (execDone n) := by
  intro s t h e
  unfold execDone at e
  grind [mem_arrived, drainEntry_memOk, mem_dirSet, mem_accessDone, mem_setCore]

theorem execProbeResend_keeps (n : Nat) : Keeps (execProbeResend n) := by
  intro s t h e
  unfold execProbeResend at e
  grind [mem_arrived, mem_dirSet, mem_modCore, mem_send]

theorem execDirectoryMerge_keeps (p d line : Nat) : Keeps (execDirectoryMerge p d line) := by
  intro s t h e
  unfold execDirectoryMerge at e
  dsimp only at e
  repeat' split at e
  all_goals cases e
  all_goals exact memOk_congr (by simp only [mem_dirSet, mem_dirErase]) h

theorem execHeatCtlWrite_keeps (p d : Nat) (x : Word) : Keeps (execHeatCtlWrite p d x) := by
  intro s t h e
  unfold execHeatCtlWrite at e
  grind [mem_modDie]

theorem execHeatDecay_keeps (p d : Nat) : Keeps (execHeatDecay p d) := by
  intro s t h e
  unfold execHeatDecay at e
  grind [mem_setDie]

end Sys2Proof.Machine.State
end

section
/-! PROOFS. Memory under the operations and steps of Sys2Proof/Machine/Migration.lean. -/

namespace Sys2Proof.Machine.State

@[simp] theorem mem_setMig (s : State) (n : Nat) (g : Migration) : (s.setMig n g).mem = s.mem := by simp [setMig]

@[simp] theorem mem_release (s : State) (p d start : Nat) (large : Bool) : (s.release p d start large).mem = s.mem := by simp [release]

@[simp] theorem mem_unfreeze (s : State) (g : Migration) : (s.unfreeze g).mem = s.mem := by simp [unfreeze]

theorem abandon_memOk {s : State} (n : Nat) (g : Migration) (hm : s.MemOk) : (s.abandon n g).MemOk := by
  unfold abandon
  grind [setLeaf_memOk, mem_setMig, mem_unfreeze]

@[simp] theorem mem_forgetPage (s : State) (p key page : Nat) (c : Option CoreId) : (s.forgetPage p key page c).mem = s.mem := by unfold forgetPage; split <;> simp

@[simp] theorem mem_dropRequest (s : State) (c : CoreId) (m : Msg) : (s.dropRequest c m).mem = s.mem := by
  unfold dropRequest
  grind [mem_accessDone, mem_setCore]

theorem engineFault_memOk {s : State} (m : Msg) (f : AFault) (hm : s.MemOk) : (s.engineFault m f).MemOk := by
  unfold engineFault
  grind [mmaStop_memOk, endMove_memOk, endFault_memOk]

theorem resend_memOk {s : State} (m : Msg) (hm : s.MemOk) : (s.resend m).MemOk := by
  unfold resend
  grind [mem_forgetPage, mem_dropRequest, defer_memOk, mem_send, mem_modCore, engineFault_memOk]

@[simp] theorem mem_redirectAt (s : State) (c : CoreId) (m : Msg) : (s.redirectAt c m).mem = s.mem := by simp [redirectAt]

theorem execMigrationFreeze_keeps (ctx : Nat) (va : Dword) (pkg die frame : Nat) : Keeps (execMigrationFreeze ctx va pkg die frame) := by
  intro s t h e
  unfold execMigrationFreeze at e
  grind [mem_freshId, mem_setMig, setLeaf_memOk, mem_modDie, recallHolders_memOk]

theorem execMigrationCopyDone_keeps (n : Nat) : Keeps (execMigrationCopyDone n) := by
  intro s t h e
  unfold execMigrationCopyDone at e
  grind [mem_setMig, copyBytes_memOk]

theorem execMigrationFlip_keeps (n : Nat) : Keeps (execMigrationFlip n) := by
  intro s t h e
  unfold execMigrationFlip at e
  grind [moveStretch_memOk, setLeaf_memOk, mem_modDie, mem_send, mem_setMig]

theorem execOpenHome_keeps (n : Nat) : Keeps (execOpenHome n) := by
  intro s t h e
  unfold execOpenHome at e
  grind [mem_arrived, mem_modDie, mem_send, mem_release]

theorem execOpened_keeps (n : Nat) : Keeps (execOpened n) := by
  intro s t h e
  unfold execOpened at e
  grind [mem_arrived, mem_setMig, mem_unfreeze]

theorem execMigrationAbandon_keeps (n : Nat) : Keeps (execMigrationAbandon n) := by
  intro s t h e
  unfold execMigrationAbandon at e
  grind [abandon_memOk]

theorem execRelay_keeps (n : Nat) : Keeps (execRelay n) := by
  intro s t h e
  unfold execRelay at e
  grind [mem_arrived, requestAt_memOk]

theorem execRedirect_keeps (n : Nat) : Keeps (execRedirect n) := by
  intro s t h e
  unfold execRedirect at e
  grind [mem_arrived, mem_redirectAt, mem_modPkg]

theorem execRetranslate_keeps (n : Nat) : Keeps (execRetranslate n) := by
  intro s t h e
  unfold execRetranslate at e
  grind [mem_arrived, resend_memOk]

theorem execNothome_keeps (n : Nat) : Keeps (execNothome n) := by
  intro s t h e
  unfold execNothome at e
  grind [mem_arrived, resend_memOk]

theorem execStubRetire_keeps (p d page : Nat) : Keeps (execStubRetire p d page) := by
  intro s t h e
  unfold execStubRetire at e
  grind [mem_modDie, mem_send]

theorem execRetire_keeps (n : Nat) : Keeps (execRetire n) := by
  intro s t h e
  unfold execRetire at e
  grind [mem_arrived, mem_send]

theorem execConfirm_keeps (n : Nat) : Keeps (execConfirm n) := by
  intro s t h e
  unfold execConfirm at e
  grind [mem_arrived, mem_modDie]

end Sys2Proof.Machine.State
end

section
/-! PROOFS. Memory under the operations and steps of Sys2Proof/Machine/Quiesce.lean. -/

namespace Sys2Proof.Machine.State

@[simp] theorem mem_reportLost (s : State) (p : Nat) : (s.reportLost p).mem = s.mem := by simp [reportLost]

@[simp] theorem mem_sendQuiesce (s : State) (p : Nat) : (s.sendQuiesce p).mem = s.mem := by
  unfold sendQuiesce
  refine foldl_keep State.mem _ _ fun s x _ => ?_
  simp

@[simp] theorem mem_losePackage (s : State) (p : Nat) : (s.losePackage p).mem = s.mem := by simp [losePackage]

@[simp] theorem mem_setPhase (s : State) (p : Nat) (f : QPhase) : (s.setPhase p f).mem = s.mem := by simp [setPhase]

theorem takeBack_memOk {s : State} (n : Nat) (hm : s.MemOk) : (s.takeBack n).MemOk := by
  unfold takeBack
  grind [writeLoc_memOk]

theorem cutWrites_memOk {s : State} (ms : List Msg) (hm : s.MemOk) : (s.cutWrites ms).MemOk := by
  unfold cutWrites
  grind [takeBack_memOk, foldl_memOk]

@[simp] theorem mem_abandonMisses (s : State) (c : CoreId) : (s.abandonMisses c).mem = s.mem := by
  unfold abandonMisses
  dsimp only
  rw [mem_modCore, mem_foldl_prod, mem_foldl]
  · exact fun _ _ => rfl
  · intro s t th; split <;> rfl

@[simp] theorem mem_charge (s : State) (key : Nat) (r : TrapRecord) : (s.charge key r).mem = s.mem := by simp [charge]

@[simp] theorem mem_poisonLine (s : State) (line key : Nat) : (s.poisonLine line key).mem = s.mem := by simp [poisonLine]

@[simp] theorem mem_sweepEntry (s : State) (p d base : Nat) (e : DirEntry) : (s.sweepEntry p d base e).mem = s.mem := by
  unfold sweepEntry; grind [mem_foldl, mem_foldl_prod, mem_modCore, mem_modPkg, mem_poisonLine, mem_dirSet]

@[simp] theorem mem_elect (s : State) (p : Nat) : (s.elect p).mem = s.mem := by
  unfold elect
  refine foldl_keep State.mem _ _ fun s x _ => ?_
  simp

@[simp] theorem mem_takeOver (s : State) (p : Nat) : (s.takeOver p).mem = s.mem := by
  unfold takeOver
  grind [mem_modPkg, mem_modHost, mem_endRun, mem_wakeThread, mem_hostEnter]

@[simp] theorem mem_endQuiesce (s : State) (p : Nat) : (s.endQuiesce p).mem = s.mem := by simp [endQuiesce]

theorem execReplyTimeout_keeps (p d line : Nat) : Keeps (execReplyTimeout p d line) := by
  intro s t h e
  unfold execReplyTimeout at e
  grind [mem_reportLost]

theorem execStopAckTimeout_keeps (p ctx : Nat) : Keeps (execStopAckTimeout p ctx) := by
  intro s t h e
  unfold execStopAckTimeout at e
  grind [mem_reportLost]

theorem execPackageLost_keeps (p : Nat) : Keeps (execPackageLost p) := by
  intro s t h e
  unfold execPackageLost at e
  grind [mem_losePackage]

theorem execMachineCheck_keeps : Keeps execMachineCheck := by
  intro s t h e
  unfold execMachineCheck at e
  grind [mem_sendQuiesce]

theorem execQuiesceStop_keeps (p : Nat) : Keeps (execQuiesceStop p) := by
  intro s t h e
  unfold execQuiesceStop at e
  grind [mem_setHpend, mem_modPkg]

theorem execQuiesceCut_keeps (p : Nat) : Keeps (execQuiesceCut p) := by
  intro s t h e
  unfold execQuiesceCut at e
  grind [cutWrites_memOk, mem_modPkg]

theorem execQuiesceSettle_keeps (p : Nat) : Keeps (execQuiesceSettle p) := by
  intro s t h e
  unfold execQuiesceSettle at e
  grind [abandon_memOk, mem_modDie, mem_abandonMisses, mem_setPhase, mem_modPkg, foldl_prod_memOk]

theorem execQuiesceSave_keeps (p : Nat) : Keeps (execQuiesceSave p) := by
  intro s t h e
  unfold execQuiesceSave at e
  split at e
  · cases e
  · extract_lets +onlyGivenNames here one s' at e
    have h1 : s'.MemOk := foldl_memOk one (here s) (fun u n hu => by simp only [one]; grind [preemptTeams_memOk, mem_refusePreempt]) h
    grind [mem_setPhase]

theorem execQuiesceRecord_keeps (k : Nat) : Keeps (execQuiesceRecord k) := by
  intro s t h e
  unfold execQuiesceRecord at e
  extract_lets +onlyGivenNames p ep at e
  split at e
  · cases e
  · extract_lets +onlyGivenNames bs lost store at e
    have h1 : ∀ u a, store = some (u, a) → u.MemOk := by
      simp only [store]
      grind [claimSpool_memOk, spoolWrite_memOk, Option.map_eq_some_iff]
    grind [mem_foldl, mem_setPhase, mem_modContext]

theorem execQuiesceSweep_keeps (p : Nat) : Keeps (execQuiesceSweep p) := by
  intro s t h e
  unfold execQuiesceSweep at e
  grind [mem_sweepEntry, mem_setPhase, mem_foldl_prod]

theorem execQuiesceRebuild_keeps (p : Nat) : Keeps (execQuiesceRebuild p) := by
  intro s t h e
  unfold execQuiesceRebuild at e
  grind [mem_takeOver, mem_elect, mem_modPkg, mem_stubsInvalidated, mem_invalidatePkg, mem_endQuiesce, mem_setPhase, mem_passOn]

theorem execCheckpointHandler_keeps (k : Nat) : Keeps (execCheckpointHandler k) := by
  intro s t h e
  unfold execCheckpointHandler at e
  grind [mem_modContext, mem_acceptGrid, mem_endQuiesce]

end Sys2Proof.Machine.State
end

section
/-! PROOFS. Memory under the operations and steps of Sys2Proof/Machine/Links.lean. -/

namespace Sys2Proof.Machine.State

@[simp] theorem mem_setPort (s : State) (p k : Nat) (x : Port) : (s.setPort p k x).mem = s.mem := by simp [setPort]

@[simp] theorem mem_sendPacket (s : State) (x : Packet) (k : Nat) : (s.sendPacket x k).mem = s.mem := by unfold sendPacket; split <;> rfl

theorem execFlitData_keeps (p k : Nat) : Keeps (execFlitData p k) := by
  intro s t h e
  unfold execFlitData at e
  grind [mem_setPort]

theorem execFlitIdle_keeps (p k : Nat) : Keeps (execFlitIdle p k) := by
  intro s t h e
  unfold execFlitIdle at e
  grind [mem_setPort]

theorem execFlitNack_keeps (p k : Nat) : Keeps (execFlitNack p k) := by
  intro s t h e
  unfold execFlitNack at e
  grind [mem_setPort]

theorem execIdleFlitSend_keeps (p k : Nat) : Keeps (execIdleFlitSend p k) := by
  intro s t h e
  unfold execIdleFlitSend at e
  grind [mem_setPort]

theorem execNackRepeat_keeps (p k : Nat) : Keeps (execNackRepeat p k) := by
  intro s t h e
  unfold execNackRepeat at e
  grind [mem_setPort]

theorem execPortRetrain_keeps (p k failed : Nat) : Keeps (execPortRetrain p k failed) := by
  intro s t h e
  unfold execPortRetrain at e
  grind [mem_setPort]

theorem execE2eDeliver_keeps (n : Nat) : Keeps (execE2eDeliver n) := by
  intro s t h e
  unfold execE2eDeliver at e
  split at e
  · dsimp only at e
    repeat' split at e
    all_goals cases e
    all_goals exact h
  · cases e

theorem execE2eAck_keeps (n : Nat) : Keeps (execE2eAck n) := by
  intro s t h e
  unfold execE2eAck at e
  grind [mem_modPkg]

theorem execE2eResend_keeps (p dst cls eseq : Nat) : Keeps (execE2eResend p dst cls eseq) := by
  intro s t h e
  unfold execE2eResend at e
  grind [mem_modPkg, mem_sendPacket]

theorem execFabricPacketDrop_keeps (n : Nat) : Keeps (execFabricPacketDrop n) := by
  intro s t h e
  unfold execFabricPacketDrop at e
  grind [mem_modPkg]

end Sys2Proof.Machine.State
end

section
/-! PROOFS. Memory under the operations and steps of Sys2Proof/Machine/Security.lean. -/

namespace Sys2Proof.Machine.State

theorem securityCmd_memOk {s : State} (p : Nat) (is : Nat → Bool) (f : Package → List Byte → Package) {after : State → State} (ha : ∀ s, s.MemOk → (after s).MemOk)
    (hm : s.MemOk)
    {s' : State} (he : s.securityCmd p is f after = .next s') : s'.MemOk := by
  unfold securityCmd at he
  grind [mem_setPkg]

@[simp] theorem mem_resetHosts (s : State) (p : Nat) : (s.resetHosts p).mem = s.mem := by
  unfold resetHosts
  refine foldl_keep State.mem _ _ fun s x _ => ?_
  simp

@[simp] theorem mem_resetPackage (s : State) (p : Nat) : (s.resetPackage p).mem = s.mem := by simp [resetPackage]

theorem execJoinCmd_keeps (p : Nat) : Keeps (execJoinCmd p) := by
  intro s t h e
  unfold execJoinCmd at e
  grind [securityCmd_memOk, mem_passOn, mem_elect]

theorem execWritePmap_keeps (p : Nat) : Keeps (execWritePmap p) := by
  intro s t h e
  unfold execWritePmap at e
  grind [securityCmd_memOk, mem_elect]

theorem execWriteWindow_keeps (p : Nat) : Keeps (execWriteWindow p) := by
  intro s t h e
  unfold execWriteWindow at e
  grind [securityCmd_memOk]

theorem execLeaveCmd_keeps (p : Nat) : Keeps (execLeaveCmd p) := by
  intro s t h e
  unfold execLeaveCmd at e
  grind [securityCmd_memOk]

theorem execQuote_keeps (p nonce : Nat) : Keeps (execQuote p nonce) := by
  intro s t h e
  unfold execQuote at e
  grind [mem_setPkg]

theorem execMeasureExtend_keeps (p i digest : Nat) : Keeps (execMeasureExtend p i digest) := by
  intro s t h e
  unfold execMeasureExtend at e
  grind [mem_modPkg]

@[simp] theorem mem_bringUpTest (s : State) (p : Nat) : (s.bringUpTest p).mem = s.mem := by simp [bringUpTest, mem_freeIdx]

theorem execPowerOn_keeps (p : Nat) : Keeps (execPowerOn p) := by
  intro s t h e
  unfold execPowerOn at e
  grind [mem_bringUpTest, mem_resetPackage, mem_setPkg]

theorem execPackageReset_keeps (p : Nat) : Keeps (execPackageReset p) := by
  intro s t h e
  unfold execPackageReset at e
  grind [mem_resetPackage, mem_reportLost]

theorem execWatchdogExpiry_keeps (p : Nat) : Keeps (execWatchdogExpiry p) := by
  intro s t h e
  unfold execWatchdogExpiry at e
  grind [mem_reportLost, mem_modPkg]

theorem execLockstepMismatch_keeps (p : Nat) : Keeps (execLockstepMismatch p) := by
  intro s t h e
  unfold execLockstepMismatch at e
  grind [mem_modPkg]

theorem execFabricManagerMessage_keeps (p msg : Nat) : Keeps (execFabricManagerMessage p msg) := by
  intro s t h e
  unfold execFabricManagerMessage at e
  grind [mem_setHpend, mem_modPkg]

theorem execPcieInboundWrite_keeps (p : Nat) (va : Dword) (bytes : List Byte) : Keeps (execPcieInboundWrite p va bytes) := by
  intro s t h e
  unfold execPcieInboundWrite at e
  dsimp only at e
  split at e
  · cases e
  · cases e; exact toOption_getD_memOk (fun t e => vaWrite_memOk _ _ _ _ _ _ h e) h

theorem execMirrorApply_keeps (p : Nat) : Keeps (execMirrorApply p) := by
  intro s t h e
  unfold execMirrorApply at e
  dsimp only at e
  repeat' split at e
  all_goals cases e
  exact memOk_congr (mem_modPkg _ _ _) (toOption_getD_memOk (fun t e => vaWrite_memOk _ _ _ _ _ _ h e) h)

theorem execArithmeticClockStep_keeps (p d : Nat) : Keeps (execArithmeticClockStep p d) := by
  intro s t h e
  unfold execArithmeticClockStep at e
  grind [mem_modDie]

end Sys2Proof.Machine.State
end

section
/-! PROOFS. Memory under the operations and steps of Sys2Proof/Machine/SoftErr.lean. -/

namespace Sys2Proof.Machine.State

theorem retireCore_memOk {s : State} (c : CoreId) (hm : s.MemOk) : (s.retireCore c).MemOk := by
  unfold retireCore
  refine foldl_prod_memOk _ _ (fun s n x h => ?_) (memOk_congr (mem_modCore _ _ _) hm)
  grind [preemptTeams_memOk, mem_refusePreempt, mem_stopIssue]

theorem repair_memOk {s : State} (u : EccUnit) (loc : Nat) (hm : s.MemOk) : (s.repair u loc).MemOk := by
  unfold repair
  grind [mem_modCore, retireCore_memOk, mem_modDie, mem_setPort, mem_fenceArrays]

theorem execCorrectedError_keeps (u : EccUnit) (loc : Nat) : Keeps (execCorrectedError u loc) := by
  intro s t h e
  unfold execCorrectedError at e
  grind [mem_modPkg, mem_modDie, mem_modCore]

theorem execSelfTestDone_keeps (u : EccUnit) (loc : Nat) (fails : Bool) : Keeps (execSelfTestDone u loc fails) := by
  intro s t h e
  unfold execSelfTestDone at e
  grind [mem_setPkg, repair_memOk]

theorem execUncorrectableError_keeps (x : EccHit) : Keeps (execUncorrectableError x) := by
  intro s t h e
  unfold execUncorrectableError at e
  grind [mem_poisonLine, mem_modThread, mem_modTeam, mem_charge]

theorem execScrub_keeps (p d row : Nat) : Keeps (execScrub p d row) := by
  intro s t h e
  unfold execScrub at e
  grind [mem_modDie]

theorem execScrubRateHalve_keeps (p d : Nat) : Keeps (execScrubRateHalve p d) := by
  intro s t h e
  unfold execScrubRateHalve at e
  grind [mem_setDie]

end Sys2Proof.Machine.State
end

section
/-! PROOFS. Memory under the operations and steps of Sys2Proof/Machine/Events.lean. -/

namespace Sys2Proof.Machine.State

theorem msgEvent_keeps (n : Nat) (m : Msg) : Keeps (msgEvent n m) := by
  unfold msgEvent
  cases m.kind with
  | gets => exact execGets_keeps n
  | getm => exact execGetm_keeps n
  | gete => exact execGete_keeps n
  | stm => exact execStm_keeps n
  | atm => exact execAtm_keeps n
  | puts => exact execPuts_keeps n
  | puto => exact execPuto_keeps n
  | wbs => exact execWbs_keeps n
  | pack => exact execPack_keeps n
  | inv => exact execInv_keeps n
  | recallS => exact execRecallS_keeps n
  | recallI => exact execRecallI_keeps n
  | ack => exact execAck_keeps n
  | data => exact execRecallReply_keeps n
  | done => exact execDone_keeps n
  | retry => exact execProbeResend_keeps n
  | grant => exact execGrant_keeps n
  | openReq => exact execOpenHome_keeps n
  | opened => exact execOpened_keeps n
  | relay => exact execRelay_keeps n
  | redirect => exact execRedirect_keeps n
  | retranslate => exact execRetranslate_keeps n
  | nothome => exact execNothome_keeps n
  | retire => exact execRetire_keeps n
  | confirm => exact execConfirm_keeps n

end Sys2Proof.Machine.State
end

section
/-! PROOFS. Memory under the operations and steps of Sys2Proof/Machine/Step.lean. -/

namespace Sys2Proof.Machine.State

@[simp] theorem mem_afterWord (r : Nat) (s : State) : (afterWord r s).mem = s.mem := by simp [afterWord]

end Sys2Proof.Machine.State
end

section
/-! PROOFS. The events that may be enabled (Sys2Proof/Machine/Events.lean) keep memory in canonical form, and so does every instruction and every step. -/

namespace Sys2Proof.Machine.State

/-- Events all of which keep memory in canonical form. -/
def AllKeep (l : List (State → Outcome)) : Prop := ∀ f ∈ l, Keeps f
@[simp] theorem allKeep_nil : AllKeep [] := List.forall_mem_nil _
@[simp] theorem allKeep_cons {f : State → Outcome} {l : List (State → Outcome)} : AllKeep (f :: l) ↔ Keeps f ∧ AllKeep l := List.forall_mem_cons
@[simp] theorem allKeep_append {l l' : List (State → Outcome)} : AllKeep (l ++ l') ↔ AllKeep l ∧ AllKeep l' := List.forall_mem_append
@[simp] theorem allKeep_ite {c : Prop} [Decidable c] {l l' : List (State → Outcome)} : AllKeep (if c then l else l') ↔ (c → AllKeep l) ∧ (¬c → AllKeep l') := by
  split <;> simp_all
theorem allKeep_map {α : Type} {g : α → State → Outcome} (h : ∀ a, Keeps (g a)) (l : List α) : AllKeep (l.map g) := by
  intro f hf
  obtain ⟨a, -, rfl⟩ := List.mem_map.mp hf
  exact h a
theorem allKeep_flatMap {α : Type} {g : α → List (State → Outcome)} (h : ∀ a, AllKeep (g a)) (l : List α) : AllKeep (l.flatMap g) := by
  intro f hf
  obtain ⟨a, -, ha⟩ := List.mem_flatMap.mp hf
  exact h a f ha
theorem allKeep_filterMap {α : Type} {g : α → Option (State → Outcome)} (h : ∀ a f, g a = some f → Keeps f) (l : List α) : AllKeep (l.filterMap g) := by
  intro f hf
  obtain ⟨a, -, ha⟩ := List.mem_filterMap.mp hf
  exact h a f ha

theorem threadEvents_keep (s : State) (t : ThreadId) (th : Thread) : AllKeep (s.threadEvents t th) := by
  have hl : AllKeep (match th.lease with
      | some l => (if l.lines ≠ [] && l.deadline ≤ s.now t.wave.core then [execLeaseExpiry t] else [])
          ++ (if l.lines ≠ [] && l.want.isSome then [execNestedLeaseTimeout t] else [])
          ++ (if l.want.isSome then [execLeaseGrant t, execLeaseDeferredBegin t] else [])
      | none => []) := by
    split <;> simp [execLeaseExpiry_keeps, execNestedLeaseTimeout_keeps, execLeaseGrant_keeps, execLeaseDeferredBegin_keeps]
  unfold threadEvents
  simp only [allKeep_append]
  refine ⟨⟨⟨⟨⟨hl, ?_⟩, ?_⟩, ?_⟩, ?_⟩, ?_⟩
  · split
    case h_4 => exact allKeep_map (execGranuleFill_keeps _) _
    all_goals simp [execFenceDone_keeps, execPfenDone_keeps, execResultDelivery_keeps, execSigwRecheck_keeps, execTileWaitEnd_keeps, execTrelDone_keeps,
        execTrngDone_keeps,
      execMwaitEnd_keeps]
  · simp [execYldExclusionEnd_keeps]
  · simp [execTrdDelivery_keeps, execMxrWriteback_keeps, execResultDelivery_keeps]
  · simp [execFairnessUrgent_keeps]
  · simp [execTrapDelivery_keeps]

theorem coreEvents_keep (s : State) (c : CoreId) : AllKeep (s.coreEvents c) := by
  simp [coreEvents, execHostEventEntry_keeps, execLongWaitExpiry_keeps, execPatternProduct_keeps, execKvqRefresh_keeps]

theorem opEvents_keep (s : State) (n : Nat) (o : Op) : AllKeep (s.opEvents n o) := by
  unfold opEvents
  generalize o.st = st
  generalize o.kind = kind
  cases st with
  | completed v => simp [execTokenComplete_keeps]
  | queued => cases kind <;> simp [execMmaAccept_keeps, execEngineAccept_keeps, execAccMoveDone_keeps]
  | active => cases kind <;> simp [execMmaComplete_keeps, execStreamTileConsume_keeps, execMmaFaultStop_keeps, execCopyComplete_keeps, execEngineFaultStop_keeps,
      execKvxComplete_keeps, execAccMoveDone_keeps]
  | waitRing => cases kind <;> simp [execRingProducerResume_keeps, execAccMoveDone_keeps]
  | delivered => cases kind <;> simp [execAccMoveDone_keeps]

theorem contextEvents_keep (s : State) (k : Nat) (c : Context) : AllKeep (s.contextEvents k c) := by
  have hs := allKeep_flatMap (g := fun (p, _) => [execRackDrainEnd p k, execStopped p k, execStopAckTimeout p k])
    (fun a => by simp [execRackDrainEnd_keeps, execStopped_keeps, execStopAckTimeout_keeps]) c.stop
  simp [contextEvents, hs, execTrapRecordPost_keeps, execTrapCmdFpc_keeps, execTrapCmdNpc_keeps, execTrapCmdRentry_keeps, execTrapCmdTpc_keeps,
      execTrapCmdExit_keeps,
    execTrapCidxReread_keeps, execQuiesceRecord_keeps, execCheckpointHandler_keeps]

theorem portEvents_keep (p k : Nat) (x : Port) : AllKeep (portEvents p k x) := by
  simp [portEvents, execFlitData_keeps, execFlitIdle_keeps, execFlitNack_keeps, execNackRepeat_keeps, execIdleFlitSend_keeps]

theorem pkgEvents_keep (p : Nat) (k : Package) : AllKeep (pkgEvents p k) := by
  simp [pkgEvents, allKeep_map, allKeep_flatMap, portEvents_keep, execQuiesceStop_keeps, execQuiesceCut_keeps, execQuiesceSettle_keeps, execQuiesceSave_keeps,
      execQuiesceSweep_keeps,
    execQuiesceRebuild_keeps, execNotifyWake_keeps, execLnchGridAccept_keeps, execMergeWindowClose_keeps, execPoolAppend_keeps, execPoolClaim_keeps,
        execPoolClose_keeps,
    execMirrorApply_keeps, execE2eResend_keeps]

theorem dieEvents_keep (p d : Nat) (x : Die) : AllKeep (dieEvents p d x) := by
  have h1 := allKeep_filterMap (g := fun ((b, e) : Nat × DirEntry) => if e.busy.isSome then some (execReplyTimeout p d b) else none)
    (fun a f h => by grind [execReplyTimeout_keeps]) x.dir
  have h2 := allKeep_filterMap (g := fun u : Stub => if u.invalidated && !u.retiring then some (execStubRetire p d u.page) else none)
    (fun a f h => by grind [execStubRetire_keeps]) x.stubs
  simp only [dieEvents, allKeep_append]
  refine ⟨⟨⟨h1, h2⟩, ?_⟩, ?_⟩
  · simp [execHeatDecay_keeps]
  · simp [execScrubRateHalve_keeps]

theorem placeEvents_keep (s : State) : AllKeep s.placeEvents := by
  unfold placeEvents
  simp only [allKeep_append]
  refine ⟨⟨allKeep_filterMap (fun a f h => ?_) _, allKeep_filterMap (fun a f h => ?_) _⟩, ?_⟩
  · grind [execTeamPlace_keeps]
  · grind [execTeamPlace_keeps]
  · simp [allKeep_flatMap, allKeep_map, execTeamSteal_keeps]

/-- Every event that a step may look at keeps memory in canonical form. -/
theorem events_keep (s : State) : AllKeep s.events := by
  unfold events
  simp only [allKeep_append, and_assoc]
  refine ⟨?_, ?_, ?_, ?_, ?_, ?_, ?_, ?_, ?_, ?_, ?_, ?_, ?_, ?_, ?_, ?_, ?_, ?_, ?_, ?_, ?_⟩
  · exact allKeep_map execPackageLost_keeps _
  · simp [execMachineCheck_keeps]
  · exact allKeep_flatMap (fun _ => pkgEvents_keep _ _) _
  · exact allKeep_map (fun _ => msgEvent_keeps _ _) _
  · exact allKeep_flatMap (fun _ => by simp [execE2eAck_keeps, execFabricPacketDrop_keeps, execE2eDeliver_keeps]) _
  · exact allKeep_flatMap (fun _ => threadEvents_keep _ _ _) _
  · exact allKeep_flatMap (fun _ => coreEvents_keep _ _) _
  · exact allKeep_flatMap (fun _ => opEvents_keep _ _ _) _
  · exact allKeep_flatMap (fun _ => by simp [execCollComplete_keeps, execCollAbort_keeps, execGroupBroken_keeps]) _
  · exact allKeep_flatMap (fun _ => by simp [execCgrpFormed_keeps, execCgrpTimeout_keeps]) _
  · exact allKeep_flatMap (fun _ => by simp [allKeep_map, execTlbiInvalidation_keeps, execTlbiDone_keeps]) _
  · exact allKeep_flatMap (fun _ => by simp [execMigrationCopyDone_keeps, execMigrationFlip_keeps, execMigrationAbandon_keeps]) _
  · exact allKeep_flatMap (fun _ => contextEvents_keep _ _ _) _
  · exact allKeep_flatMap (fun _ => by simp [execQueuePacketLaunch_keeps, execQueuePacketWait_keeps, execQueuePacketSignal_keeps, execWaitPacketRecheck_keeps,
      execQueueReread_keeps, execQueueUnmap_keeps]) _
  · simp [allKeep_map, execLotteryDraw_keeps]
  · exact allKeep_flatMap (fun _ => by simp [execGridRetire_keeps]) _
  · exact placeEvents_keep s
  · exact allKeep_filterMap (fun _ _ h => by grind [execAncestorPreempt_keeps]) _
  · exact allKeep_flatMap (fun _ => by split <;> simp [execRestore_keeps]) _
  · exact allKeep_map (fun _ => execSpoolFree_keeps _ _) _
  · exact allKeep_flatMap (fun _ => dieEvents_keep _ _ _) _

theorem firstEnabled_memOk {s : State} (hm : s.MemOk) (l : List (State → Outcome)) (hl : AllKeep l) {t : State} (e : firstEnabled s l = some t) : t.MemOk := by
  induction l with
  | nil => cases e
  | cons f l ih =>
    rw [allKeep_cons] at hl
    unfold firstEnabled at e
    split at e
    · next u hu =>
      obtain rfl := Option.some.inj e
      exact hl.1 s _ hm hu
    · exact ih hl.2 e

/-- Every instruction of the model, word or event, keeps memory in canonical form. -/
theorem exec_keeps (i : Instr) : Keeps (exec i) := by
  cases i with
  | iadd | isub | imul | imulh | imad | imin | imax | iabs | ineg | idif | isad | and | or | xor | not | andn | shl | shr | sar | rol | bfx | bfi | popc
  | clz | brev | ffs | bysel | icmp | lea | mov | fadd | fsub | fmul | ffma | fmin | fmax | fabs | fneg | fcmp | fcls | ffrc | frnd | fscl | cvt | cvup
  | sadd | ssub | smul | sand | sor | sxor | sshl | sshr | ssar | smin | smax | scmp | smov | ssel | slea => exact keeps_next fun _ h => compute_memOk _ _ h
  | sel | plop => exact keeps_next fun _ h => computeWith_memOk _ _ h
  | frcp | frsq | fsqrt | fexp2 | flog2 | fsin | fcos | ftanh | idiv | irem => exact keeps_next fun _ h => computeLong_memOk _ _ h
  | xget | xrot | xflip | xrev | bcst | pcol | lmat | lred | sbc | lget | lset => exact keeps_next fun _ h => exchange_memOk _ _ h
  | tqry | mstat => exact keeps_next fun _ h => valueWord_memOk _ _ h
  | accld | accst => exact keeps_next fun _ h => accMove_memOk _ _ _ _ h
  | cpy | cpyi | kvx | coll | cgrpCreate | cgrpFree => exact keeps_next fun _ h => engineWord_memOk _ _ _ _ _ h
  | papp | dqry | pcls => exact keeps_next fun _ h => poolWord_memOk _ _ _ _ h
  | nop => exact execNop_keeps
  | unassignedOpcode w => exact execUnassignedOpcode_keeps w
  | pairWord a b => exact execPairWord_keeps a b
  | movFlg h d a => exact execMovFlg_keeps h d a
  | ocl h k n dead => exact execOcl_keeps h k n dead
  | cvpk h r sat f k d a b => exact execCvpk_keeps h r sat f k d a b
  | trsv h d b a => exact execTrsv_keeps h d b a
  | trel h b => exact execTrel_keeps h b
  | trelDone team b => exact execTrelDone_keeps team b
  | trng h b => exact execTrng_keeps h b
  | trngDone team b => exact execTrngDone_keeps team b
  | twr h b wide off val => exact execTwr_keeps h b wide off val
  | trd h d b wide off => exact execTrd_keeps h d b wide off
  | mma h tok off => exact execMma_keeps h tok off
  | mmaAccept op => exact execMmaAccept_keeps op
  | mmaComplete op => exact execMmaComplete_keeps op
  | mmaFaultStop op => exact execMmaFaultStop_keeps op
  | streamTileConsume op => exact execStreamTileConsume_keeps op
  | mxr h fa fb sat d a b deadA deadB => exact execMxr_keeps h fa fb sat d a b deadA deadB
  | mxrWriteback t => exact execMxrWriteback_keeps t
  | mwait h => exact execMwait_keeps h
  | mwaitEnd team => exact execMwaitEnd_keeps team
  | elect h p => exact execElect_keeps h p
  | accz h k => exact execAccz_keeps h k
  | accMoveDone op => exact execAccMoveDone_keeps op
  | accmvRd h d k r => exact execAccmvRd_keeps h d k r
  | accmvWr h k a dead r => exact execAccmvWr_keeps h k a dead r
  | tileWaitEnd t => exact execTileWaitEnd_keeps t
  | patternProduct c bad => exact execPatternProduct_keeps c bad
  | ld h t m d base off => exact execLd_keeps h t m d base off
  | st h t m data base off => exact execSt_keeps h t m data base off
  | atom h op wide m d base val => exact execAtom_keeps h op wide m d base val
  | atomn h op wide m base val => exact execAtomn_keeps h op wide m base val
  | cas h wide m d base cn => exact execCas_keeps h wide m d base cn
  | fence h m => exact execFence_keeps h m
  | fenceDone t => exact execFenceDone_keeps t
  | pfen h p q => exact execPfen_keeps h p q
  | pfenDone t => exact execPfenDone_keeps t
  | lease h m d base disp => exact execLease_keeps h m d base disp
  | leaseGrant t => exact execLeaseGrant_keeps t
  | leaseDeferredBegin t => exact execLeaseDeferredBegin_keeps t
  | leaseExpiry t => exact execLeaseExpiry_keeps t
  | nestedLeaseTimeout t => exact execNestedLeaseTimeout_keeps t
  | lrel h m => exact execLrel_keeps h m
  | pref h lvl m base off => exact execPref_keeps h lvl m base off
  | cinv h m base off => exact execCinv_keeps h m base off
  | cwb h m base off => exact execCwb_keeps h m base off
  | engineAccept op => exact execEngineAccept_keeps op
  | copyComplete op => exact execCopyComplete_keeps op
  | engineFaultStop op => exact execEngineFaultStop_keeps op
  | ringProducerResume op => exact execRingProducerResume_keeps op
  | kvBlockAck op => exact execKvBlockAck_keeps op
  | kvNotify op => exact execKvNotify_keeps op
  | kvxComplete op => exact execKvxComplete_keeps op
  | kvPeerRefuse op => exact execKvPeerRefuse_keeps op
  | kvChannelFail pkg chan => exact execKvChannelFail_keeps pkg chan
  | kvq h d chan => exact execKvq_keeps h d chan
  | kvqRefresh c => exact execKvqRefresh_keeps c
  | collComplete grp => exact execCollComplete_keeps grp
  | collAbort grp => exact execCollAbort_keeps grp
  | groupBroken grp => exact execGroupBroken_keeps grp
  | cgrpFormed call => exact execCgrpFormed_keeps call
  | cgrpTimeout call => exact execCgrpTimeout_keeps call
  | bra h disp => exact execBra_keeps h disp
  | brx h a => exact execBrx_keeps h a
  | call h d disp => exact execCall_keeps h d disp
  | callx h d a => exact execCallx_keeps h d a
  | ret h a => exact execRet_keeps h a
  | exit h => exact execExit_keeps h
  | enrol h m => exact execEnrol_keeps h m
  | join h m => exact execJoin_keeps h m
  | strike h m => exact execStrike_keeps h m
  | bar h n => exact execBar_keeps h n
  | yld h => exact execYld_keeps h
  | yldExclusionEnd t => exact execYldExclusionEnd_keeps t
  | sigw h cc m d base val => exact execSigw_keeps h cc m d base val
  | sigwRecheck t => exact execSigwRecheck_keeps t
  | sigs h add m base val => exact execSigs_keeps h add m base val
  | lnch h tok off => exact execLnch_keeps h tok off
  | poolAppend pkg => exact execPoolAppend_keeps pkg
  | poolClaim pkg => exact execPoolClaim_keeps pkg
  | poolClose pkg => exact execPoolClose_keeps pkg
  | rgn h => exact execRgn_keeps h
  | grow h d n => exact execGrow_keeps h d n
  | shrk h d n => exact execShrk_keeps h d n
  | srd h d n => exact execSrd_keeps h d n
  | swi h n => exact execSwi_keeps h n
  | brk h n => exact execBrk_keeps h n
  | sysr h d r => exact execSysr_keeps h d r
  | sysw h r a => exact execSysw_keeps h r a
  | scall h n => exact execScall_keeps h n
  | mcall h n => exact execMcall_keeps h n
  | eret h => exact execEret_keeps h
  | tlbi h kind a b => exact execTlbi_keeps h kind a b
  | tlbiInvalidation pkg id => exact execTlbiInvalidation_keeps pkg id
  | tlbiDone id => exact execTlbiDone_keeps id
  | wait h => exact execWait_keeps h
  | ctxwReg h r d a b => exact execCtxwReg_keeps h r d a b
  | ctxwNew h d a b => exact execCtxwNew_keeps h d a b
  | ctxwDel h d a b => exact execCtxwDel_keeps h d a b
  | ctxwQreg h d a b => exact execCtxwQreg_keeps h d a b
  | ctxwQdel h d a b => exact execCtxwQdel_keeps h d a b
  | ctxwPnew h d a b => exact execCtxwPnew_keeps h d a b
  | ctxwPdel h d a b => exact execCtxwPdel_keeps h d a b
  | ctxwQst h d a b => exact execCtxwQst_keeps h d a b
  | registerWrite ctx r x => exact execRegisterWrite_keeps ctx r x
  | heatCtlWrite pkg die x => exact execHeatCtlWrite_keeps pkg die x
  | resultDelivery t => exact execResultDelivery_keeps t
  | longWaitExpiry c => exact execLongWaitExpiry_keeps c
  | granuleFill w g => exact execGranuleFill_keeps w g
  | tokenComplete op => exact execTokenComplete_keeps op
  | fairnessUrgent t => exact execFairnessUrgent_keeps t
  | trapDelivery w => exact execTrapDelivery_keeps w
  | trapRecordPost ctx => exact execTrapRecordPost_keeps ctx
  | trapCmdFpc ctx => exact execTrapCmdFpc_keeps ctx
  | trapCmdNpc ctx => exact execTrapCmdNpc_keeps ctx
  | trapCmdRentry ctx => exact execTrapCmdRentry_keeps ctx
  | trapCmdTpc ctx => exact execTrapCmdTpc_keeps ctx
  | trapCmdExit ctx => exact execTrapCmdExit_keeps ctx
  | trapCidxReread ctx => exact execTrapCidxReread_keeps ctx
  | preempt team => exact execPreempt_keeps team
  | restore ctx image => exact execRestore_keeps ctx image
  | spoolFree ctx image => exact execSpoolFree_keeps ctx image
  | ancestorPreempt team => exact execAncestorPreempt_keeps team
  | rackStop pkg ctx epoch => exact execRackStop_keeps pkg ctx epoch
  | rackDrainEnd pkg ctx => exact execRackDrainEnd_keeps pkg ctx
  | stopped pkg ctx => exact execStopped_keeps pkg ctx
  | stopAckTimeout pkg ctx => exact execStopAckTimeout_keeps pkg ctx
  | resume pkg ctx epoch => exact execResume_keeps pkg ctx epoch
  | queuePacketLaunch q => exact execQueuePacketLaunch_keeps q
  | queuePacketWait q => exact execQueuePacketWait_keeps q
  | waitPacketRecheck q => exact execWaitPacketRecheck_keeps q
  | queuePacketSignal q => exact execQueuePacketSignal_keeps q
  | notifyWake pkg => exact execNotifyWake_keeps pkg
  | queueReread q => exact execQueueReread_keeps q
  | queueUnmap q => exact execQueueUnmap_keeps q
  | lotteryDraw pkg => exact execLotteryDraw_keeps pkg
  | teamPlace pkg die => exact execTeamPlace_keeps pkg die
  | teamSteal pkg die => exact execTeamSteal_keeps pkg die
  | mergeWindowClose pkg win => exact execMergeWindowClose_keeps pkg win
  | gridRetire g => exact execGridRetire_keeps g
  | gets m => exact execGets_keeps m
  | getm m => exact execGetm_keeps m
  | gete m => exact execGete_keeps m
  | directoryMerge pkg die line => exact execDirectoryMerge_keeps pkg die line
  | puts m => exact execPuts_keeps m
  | puto m => exact execPuto_keeps m
  | pack m => exact execPack_keeps m
  | wbs m => exact execWbs_keeps m
  | stm m => exact execStm_keeps m
  | atm m => exact execAtm_keeps m
  | inv m => exact execInv_keeps m
  | recallS m => exact execRecallS_keeps m
  | recallI m => exact execRecallI_keeps m
  | ack m => exact execAck_keeps m
  | done m => exact execDone_keeps m
  | probeResend m => exact execProbeResend_keeps m
  | replyTimeout pkg die line => exact execReplyTimeout_keeps pkg die line
  | migrationFreeze ctx va pkg die frame => exact execMigrationFreeze_keeps ctx va pkg die frame
  | migrationCopyDone mg => exact execMigrationCopyDone_keeps mg
  | migrationFlip mg => exact execMigrationFlip_keeps mg
  | openHome m => exact execOpenHome_keeps m
  | opened m => exact execOpened_keeps m
  | migrationAbandon mg => exact execMigrationAbandon_keeps mg
  | relay m => exact execRelay_keeps m
  | redirect m => exact execRedirect_keeps m
  | retranslate m => exact execRetranslate_keeps m
  | nothome m => exact execNothome_keeps m
  | stubRetire pkg die page => exact execStubRetire_keeps pkg die page
  | retire m => exact execRetire_keeps m
  | confirm m => exact execConfirm_keeps m
  | heatDecay pkg die => exact execHeatDecay_keeps pkg die
  | flitData pkg port => exact execFlitData_keeps pkg port
  | flitIdle pkg port => exact execFlitIdle_keeps pkg port
  | flitNack pkg port => exact execFlitNack_keeps pkg port
  | idleFlitSend pkg port => exact execIdleFlitSend_keeps pkg port
  | nackRepeat pkg port => exact execNackRepeat_keeps pkg port
  | portRetrain pkg port failed => exact execPortRetrain_keeps pkg port failed
  | e2eDeliver m => exact execE2eDeliver_keeps m
  | e2eAck m => exact execE2eAck_keeps m
  | e2eResend pkg dst cls eseq => exact execE2eResend_keeps pkg dst cls eseq
  | packageLost pkg => exact execPackageLost_keeps pkg
  | quiesceStop pkg => exact execQuiesceStop_keeps pkg
  | quiesceCut pkg => exact execQuiesceCut_keeps pkg
  | quiesceSettle pkg => exact execQuiesceSettle_keeps pkg
  | quiesceSave pkg => exact execQuiesceSave_keeps pkg
  | quiesceRecord ctx => exact execQuiesceRecord_keeps ctx
  | quiesceSweep pkg => exact execQuiesceSweep_keeps pkg
  | quiesceRebuild pkg => exact execQuiesceRebuild_keeps pkg
  | checkpointHandler ctx => exact execCheckpointHandler_keeps ctx
  | machineCheck => exact execMachineCheck_keeps
  | joinCmd pkg => exact execJoinCmd_keeps pkg
  | writePmap pkg => exact execWritePmap_keeps pkg
  | writeWindow pkg => exact execWriteWindow_keeps pkg
  | leaveCmd pkg => exact execLeaveCmd_keeps pkg
  | quote pkg nonce => exact execQuote_keeps pkg nonce
  | measureExtend pkg mr digest => exact execMeasureExtend_keeps pkg mr digest
  | powerOn pkg => exact execPowerOn_keeps pkg
  | packageReset pkg => exact execPackageReset_keeps pkg
  | watchdogExpiry pkg => exact execWatchdogExpiry_keeps pkg
  | lockstepMismatch pkg => exact execLockstepMismatch_keeps pkg
  | hostEventEntry c => exact execHostEventEntry_keeps c
  | fabricPacketDrop m => exact execFabricPacketDrop_keeps m
  | correctedError u loc => exact execCorrectedError_keeps u loc
  | selfTestDone u loc fails => exact execSelfTestDone_keeps u loc fails
  | uncorrectableError x => exact execUncorrectableError_keeps x
  | scrub pkg die row => exact execScrub_keeps pkg die row
  | scrubRateHalve pkg die => exact execScrubRateHalve_keeps pkg die
  | pcieInboundWrite pkg va bytes => exact execPcieInboundWrite_keeps pkg va bytes
  | mirrorApply pkg => exact execMirrorApply_keeps pkg
  | grant m => exact execGrant_keeps m
  | recallReply m => exact execRecallReply_keeps m
  | lnchGridAccept pkg => exact execLnchGridAccept_keeps pkg
  | kvPeerAccess pkg chan pull va bytes => exact execKvPeerAccess_keeps pkg chan pull va bytes
  | fabricManagerMessage pkg msg => exact execFabricManagerMessage_keeps pkg msg
  | trdDelivery t => exact execTrdDelivery_keeps t
  | arithmeticClockStep pkg die => exact execArithmeticClockStep_keeps pkg die

/-- The fetch, the word it finds, and the cycles that pass after it. -/
theorem issueStep_keeps (c : CoreId) : Keeps fun s => issueStep s c := by
  intro s t h e
  have hf : (s.formGroup c).fetchInstr.1.MemOk := fetchInstr_memOk (memOk_congr (mem_formGroup s c) h)
  have after (r : Nat) {u : State} (hu : u.MemOk) : (afterWord r u).MemOk := memOk_congr (mem_afterWord r u) hu
  dsimp only [issueStep] at e
  split at e
  · next u hu =>
    cases e
    rw [hu] at hf
    exact after _ hf
  · next u k n hu =>
    cases e
    rw [hu] at hf
    exact after _ (decodeFail_memOk k n hf)
  · next u i hu =>
    rw [hu] at hf
    split at e
    · next v hv =>
      cases e
      exact after _ (exec_keeps i u v hf hv)
    · cases e
    · cases e

end Sys2Proof.Machine.State

namespace Sys2Proof.Machine

/-- Settles O59: by the four ways a step goes: the agenda's event, the first event that is enabled, the next word of a core, or the passing of a cycle. -/
theorem stepKeepsMemory : Obligations.StepKeepsMemory := by
  intro s t h e
  unfold step at e
  split at e
  · next i rest _ =>
    have h' : ({ s with agenda := rest } : State).MemOk := h
    exact State.exec_keeps i _ t h' e
  · split at e
    · next u hu =>
      cases e
      exact State.firstEnabled_memOk h _ (State.events_keep s) hu
    · split at e
      · exact State.issueStep_keeps _ s t h e
      · cases e
        exact State.memOk_congr (State.mem_tickBut s none) h

end Sys2Proof.Machine
end

section
/-! PROOFS. O35 fails on a host core: the messages of a page walk take numbers before the operation does. A host thread reads its descriptor by its own accesses
when its word is checked (R298; log entry 35). Each node of a walk that no cache answers is asked for with a message (R254), and messages and operations take
their numbers from one count (log entry 6). So the operation is listed, under a later number than the one the state had when the word issued. -/

namespace Sys2Proof.Machine

/-- The thread of host core 0 of package 0. -/
abbrev walkThread : ThreadId := hostThread ⟨0, 8, 0⟩
/-- A host core at a word as the loader leaves it, its pair v0 holding an address of its page, whose translation no cache holds yet. -/
def walkHost : State := (State.reset.placeHost []).modThread walkThread fun th => { th with v := [(0, 0x10000)] }
/-- A `KVX` whose descriptor stands at the address in v0. -/
abbrev walkKvx : Instr := .kvx ⟨⟨false, 7⟩, none, 0⟩ 63 ⟨.v 0, false⟩
/-- The state that the word leaves. -/
def walkStarted : State := walkHost.engineWord walkKvx .kvx 63 ⟨.v 0, false⟩ (some 64)

theorem exec_walkKvx : exec walkKvx walkHost = .next walkStarted := rfl

theorem walkHost_solo : walkHost.Solo walkKvx walkThread := by decide +kernel

theorem walkHost_reads_descriptor : ∃ s1 bs, (walkHost.begun walkKvx).threadRead walkThread 0x10000 64 = (s1, .ok bs) := by
  have read : ((walkHost.begun walkKvx).threadRead walkThread 0x10000 64).2.isOk = true := by decide +kernel
  generalize (walkHost.begun walkKvx).threadRead walkThread 0x10000 64 = R at read
  obtain ⟨s1, _ | bs⟩ := R
  · cases read
  · exact ⟨s1, bs, rfl⟩

/-- The walk asks for its four nodes under the numbers 1 to 4; the operation is listed under 5. -/
theorem walkStarted_numbers : walkHost.nextId = 1 ∧ walkStarted.net.map (·.1) = [1, 2, 3, 4] ∧ walkStarted.ops.map (·.1) = [5] := by decide +kernel

theorem walkStarted_not_listed : walkStarted.op walkHost.nextId = none := by
  obtain ⟨first, -, listed⟩ := walkStarted_numbers
  obtain ⟨x, ops⟩ : ∃ x, walkStarted.ops = [(5, x)] := by simpa [List.map_eq_cons_iff] using listed
  simp [State.op, ops, first, Map.find]

/-- Refutes O35: its clause on host threads names the operation by the number that the state had at issue, and after `KVX` with a descriptor whose page must be
walked that number is a message's, not the operation's. -/
theorem not_engineWords : ¬ Obligations.EngineWords := by
  rintro ⟨-, onHost, -⟩
  obtain ⟨s1, bs, read⟩ := walkHost_reads_descriptor
  obtain ⟨t, next, ⟨⟨o, listed, -⟩, -⟩, -⟩ := onHost walkKvx .kvx 63 ⟨.v 0, false⟩ 64 8 walkHost s1 walkThread 0x10000 bs rfl (by decide) walkHost_solo (by decide)
    (by decide +kernel) rfl (by decide +kernel) (by decide) read
  rw [exec_walkKvx] at next
  cases next
  rw [walkStarted_not_listed] at listed
  cases listed

end Sys2Proof.Machine
end

section
/-! PROOFS. O42 fails in its clause on pattern products (R201, R203). A core has sixteen sub-arrays, and a product that fences one cuts the fence mask to sixteen
bits. The statement counts only mismatches below 16 and has the mask stay as it is where there is none; the model's product on called sub-arrays counts every
number in the list of calls. The two part in a state whose mask and list go past sixteen, which the type of a state allows and no clause excludes; the events of
the model call for sub-arrays below 16 only. -/

namespace Sys2Proof.Machine

/-- Core 0 of die 0 of package 0. -/
abbrev wideCore : CoreId := ⟨0, 0, 0⟩
/-- A core with bit 16 of its fence mask set and a pattern product called for on sub-array 17. -/
def wideFence : State := State.reset.modCore wideCore fun x => { x with fence := 2 ^ 16, calls := [17] }

/-- With no operation listed, the product that finds sub-array 17 mismatching is one on called sub-arrays. -/
theorem exec_wideFence : exec (.patternProduct wideCore (2 ^ 17)) wideFence = .next (wideFence.patternCalled wideCore (2 ^ 17)) := by
  change execPatternProduct wideCore (2 ^ 17) wideFence = _
  unfold execPatternProduct
  rw [if_neg (by decide +kernel), if_pos (by decide +kernel)]

theorem wideFence_cut : (wideFence.core wideCore).fence = 2 ^ 16 ∧ ((wideFence.patternCalled wideCore (2 ^ 17)).core wideCore).fence = 0 := by decide +kernel

/-- Refutes O42: no sub-array below 16 mismatches, so that the statement has the fence mask stay `2 ^ 16`, and the model cuts it to 0. -/
theorem not_matrixEvents : ¬ Obligations.MatrixEvents := by
  rintro ⟨-, -, -, -, -, -, product, -, -⟩
  obtain ⟨t, next, -, -, -, quiet, -⟩ := (product wideCore (2 ^ 17) wideFence).1 (.inr (by decide +kernel))
  rw [exec_wideFence] at next
  cases next
  have kept := (quiet fun k ⟨below, mismatch, _⟩ => by
    have at17 : 17 = k := of_decide_eq_true ((Nat.testBit_two_pow).symm.trans mismatch)
    omega).1
  rw [wideFence_cut.1, wideFence_cut.2] at kept
  cases kept

end Sys2Proof.Machine
end

section
/-! PROOFS. O37 fails in its clause on writes of `ACCMV` (R183, R228). A place in the issue order that a thread keeps for a tile counts while the thread's PC is
the place's address. The model looks for such places when a word has begun, with the PCs of its group at the next word (R53); this clause looks for them before,
where the other clauses on a free tile look after. The two part at a word whose thread keeps a place, for the word's tile, at the next word's address: before the
word nothing keeps the tile from it, and once begun it waits. -/

namespace Sys2Proof.Machine

/-- Lane 0 of the first wave of core 0. -/
abbrev aheadThread : ThreadId := ⟨⟨⟨0, 0, 0⟩, 0⟩, 0⟩
/-- A lane at a word, as the loader leaves it, that holds place 0 for tile 2 at the address of the next word. -/
def placeAhead : State := (State.reset.placeLane []).modThread aheadThread fun th => { th with place := some (0, 2, State.placedPc + 8) }
/-- The lane's elements of a row of tile 2 are written from v4 and v5; the row is in v1. -/
abbrev aheadMove : Instr := .accmvWr ⟨⟨false, 7⟩, none, 0⟩ 2 4 false ⟨.v 1, false⟩

theorem placeAhead_solo : placeAhead.Solo aheadMove aheadThread := by decide +kernel

theorem placeAhead_tileFree : Spec.tileFree placeAhead aheadThread 2 placeAhead.wordPc := by decide +kernel

/-- Once the word has begun, the place stands before it: its thread waits for the tile. -/
theorem exec_aheadMove_waits : ∃ t, exec aheadMove placeAhead = .next t ∧ (t.thread aheadThread).status = .blocked (.tile 2 2) := ⟨_, rfl, by decide +kernel⟩

/-- Bookkeeping leaves the state of a thread as it is. -/
theorem State.Alike.status {a b : State} (h : State.Alike a b) (u : ThreadId) : (b.thread u).status = (a.thread u).status := by
  have plain := congrArg Thread.status (h.threads u)
  exact plain

/-- Refutes O37: its clause on writes of `ACCMV` has the lane write its elements and run on, and the model has it blocked at the word until the tile is free. -/
theorem not_operandBuffersAndTiles : ¬ Obligations.OperandBuffersAndTiles := by
  rintro ⟨-, -, -, -, -, -, write, -⟩
  obtain ⟨t, next, alike⟩ := write ⟨⟨false, 7⟩, none, 0⟩ 2 4 false ⟨.v 1, false⟩ placeAhead aheadThread [0] 0 0 placeAhead_solo rfl placeAhead_tileFree rfl
  obtain ⟨t', next', waits⟩ := exec_aheadMove_waits
  rw [next'] at next
  cases next
  have runs := alike.status aheadThread
  rw [waits] at runs
  exact absurd runs (by decide +kernel)

end Sys2Proof.Machine
end

section
/-! PROOFS. O38 fails in its clause on PCs (R53, R63). The statement has every member eight bytes on. A word moves PCs on by its own length, and a word one of
whose source fields holds code 336, that of a literal, is sixteen bytes long. In a fragment field the model holds that code as register number 1336. No word
decodes to such an `MXR` (R58), but the statement takes every term of the constructor; and that v1336 lies within the wave's allotment, which the statement asks
for, is so in a state that allots the wave 2,000 registers. -/

namespace Sys2Proof.Machine

/-- The wave of the loader's lane, and its thread. -/
abbrev wideWave : WaveId := ⟨⟨0, 0, 0⟩, 0⟩
abbrev wideLane : ThreadId := ⟨wideWave, 0⟩
/-- A lane at a word, as the loader leaves it, whose wave is allotted 2,000 registers. -/
def wideAllot : State := (State.reset.placeLane []).modWave wideWave fun w => { w with allot := 2000 }
/-- `MXR` whose fragment of A is named by the number that holds code 336. -/
abbrev literalMxr : Instr := .mxr ⟨⟨false, 7⟩, none, 0⟩ .bf16 .bf16 false 32 (badCode 336) 8 false false

theorem wideAllot_ready : wideAllot.Ready literalMxr := by decide +kernel

theorem wideAllot_group : wideAllot.group = [wideLane] := by decide +kernel

theorem wideAllot_reads : (wideAllot.readSpan wideLane (badCode 336) 8).isOk = true ∧ (wideAllot.readSpan wideLane 8 8).isOk = true
    ∧ (wideAllot.readSpan wideLane 32 32).isOk = true := by decide +kernel

/-- The PC moves on by the length of a word with a literal. -/
theorem exec_literalMxr : ∃ t, exec literalMxr wideAllot = .next t ∧ (t.thread wideLane).pc = wideAllot.wordPc + 16 := ⟨_, rfl, by decide +kernel⟩

/-- Refutes O38: it has the lane go on eight bytes after an `MXR` that takes a literal, and the model has it go on sixteen bytes after it. -/
theorem not_fragmentMultiply : ¬ Obligations.FragmentMultiply := by
  intro holds
  obtain ⟨t, next, -, pcs, -⟩ := holds ⟨⟨false, 7⟩, none, 0⟩ .bf16 .bf16 false 32 (badCode 336) 8 false false wideAllot wideAllot_ready
    (by decide +kernel) (by rw [wideAllot_group]; exact fun u hu _ => List.mem_singleton.mp hu ▸ wideAllot_reads)
  obtain ⟨t', next', pc⟩ := exec_literalMxr
  rw [next'] at next
  cases next
  have eight := (pcs wideLane (by rw [wideAllot_group]; exact List.mem_singleton_self _)).1
  rw [pc] at eight
  exact absurd eight (by decide +kernel)

end Sys2Proof.Machine
end
